-- ==== Sys2Proof/Word.lean ====
section
/-! DEFINITION. The words of the Quill (R4 to R6): bytes, 32-bit lanes, 64-bit uniform values, and the lane
vectors that vector and index registers hold. -/

namespace Sys2Proof

abbrev Byte := BitVec 8
abbrev Word32 := BitVec 32
abbrev Word64 := BitVec 64

/-- The lanes of a vector or index register (R52), lane `f` at position `f`. -/
abbrev Lanes (w : Nat) := List (BitVec w)

/-- The value of a register in which lane `f` holds `r f`: always 32 lanes (R52). -/
def Lanes.build {w : Nat} (r : Nat → BitVec w) : Lanes w := (List.range 32).map r

/-- Lane `f` of a register; a lane beyond the last holds zero. -/
def Lanes.lane {w : Nat} (v : Lanes w) (f : Nat) : BitVec w := v.getD f 0

/-- Every lane zero (R30). -/
def Lanes.zero (w : Nat) : Lanes w := List.replicate 32 0

end Sys2Proof
end

