-- ==== Sys2Proof/Machine/Bits.lean ====
section
/-! DEFINITION. Bit fields, sign extension and little-endian byte strings (R5, R6), used by the decoder and by every
record the machine reads or writes. -/

namespace Sys2Proof

/-- Bits `lo + n - 1 : lo` of a number (R6). -/
def field (x lo n : Nat) : Nat := x / 2 ^ lo % 2 ^ n

/-- Bit `i` of a number. -/
def bitAt (x i : Nat) : Bool := field x i 1 == 1

/-- `x` with bits `lo + n - 1 : lo` replaced by the low `n` bits of `v`. -/
def setField (x lo n v : Nat) : Nat :=
  x - field x lo n * 2 ^ lo + v % 2 ^ n * 2 ^ lo

/-- The signed value of the low `n` bits of `x`. -/
def signed (n x : Nat) : Int :=
  if x % 2 ^ n < 2 ^ (n - 1) then (x % 2 ^ n : Nat) else (x % 2 ^ n : Nat) - (2 ^ n : Nat)

/-- An exact integer taken modulo `2 ^ n` (R9: wrapping happens only where it is written). -/
def wrap (n : Nat) (x : Int) : Nat := (x % (2 ^ n : Nat)).toNat

/-- The number held by a little-endian byte string (R5). -/
def ofBytes : List Byte → Nat
  | [] => 0
  | b :: bs => b.toNat + 256 * ofBytes bs

/-- `n` bytes of a number, least significant first (R5). -/
def toBytes : Nat → Nat → List Byte
  | 0, _ => []
  | n + 1, x => BitVec.ofNat 8 x :: toBytes n (x / 256)

/-- `n` zero bytes. -/
def zeros (n : Nat) : List Byte := List.replicate n 0

/-- One bits in the low `n` bits of `x`. -/
def popCount (n x : Nat) : Nat := ((List.range n).filter (bitAt x)).length

/-- Zero bits above the highest one bit of the low `n` bits of `x`. -/
def leadingZeros : Nat → Nat → Nat
  | 0, _ => 0
  | n + 1, x => if bitAt x n then 0 else 1 + leadingZeros n x

def b2n (b : Bool) : Nat := if b then 1 else 0

/-- A bit set over fibres with fibre `f` in exactly when `r f` (R54: bit f for fibre f). -/
def maskOf (r : Nat → Bool) : BitVec 32 :=
  BitVec.ofNat 32 ((List.range 32).foldr (fun f acc => b2n (r f) * 2 ^ f + acc) 0)

/-- Rounds `x` up to a multiple of `a`. -/
def roundUp (x a : Nat) : Nat := (x + a - 1) / a * a

/-- Puts an element into a sorted list, after its equals. -/
def insertBy {α : Type} (le : α → α → Bool) (a : α) : List α → List α
  | [] => [a]
  | b :: bs => if le a b && !le b a then a :: b :: bs else b :: insertBy le a bs

/-- Sorts a list; elements that `le` does not tell apart keep their order. -/
def sortBy {α : Type} (le : α → α → Bool) (l : List α) : List α := l.foldl (fun t a => insertBy le a t) []

/-- The order of number lists, by the first position that differs. -/
def lexLe : List Nat → List Nat → Bool
  | a :: as, b :: bs => decide (a < b) || (a == b && lexLe as bs)
  | [], _ => true
  | _ :: _, [] => false

end Sys2Proof
end

