-- ==== Sys2Proof/Syntax.lean ====
section
/-! DEFINITION. The steps of the Quill as syntax: one constructor for each row of spec/opcode_table.json. The first
177 are instructions (R97); the others are the events and host calls that the table lists as steps of the part, with
the choices the spec leaves open as their arguments. -/

namespace Sys2Proof

/-- Guard code and sense (R83, R87). -/
structure Guard where
  code  : BitVec 4
  sense : Bool
  deriving DecidableEq, Repr

abbrev SReg := BitVec 7
abbrev VReg := BitVec 11
/-- A vector predicate number, legal from 0 to 11 (R92). -/
abbrev PReg := BitVec 4
abbrev UPred := BitVec 3
abbrev XReg := BitVec 2
/-- A tile slot number, legal from 0 to 5 (R92). -/
abbrev Slot := BitVec 3
/-- The ix3 field (R62): 0 none, 1 to 4 indexed va through x0 to x3, 5 and 6 indexed vd through x0 and x1. -/
abbrev Ix := BitVec 3

/-- Operand b of a scalar integer instruction: a register or imm16 (R128). -/
inductive SOp where
  | reg (r : SReg)
  | imm (i : BitVec 16)
  deriving DecidableEq, Repr

/-- Operand b of a format V instruction: a vector register, or the low half of a uniform register (R226). -/
inductive VOp where
  | vec (r : VReg)
  | uni (r : SReg)
  deriving DecidableEq, Repr

inductive IntTy where | i32 | n32
  deriving DecidableEq, Repr
/-- The element types of the type field (R93). -/
inductive ElemTy where | i32 | n32 | f32 | f16 | bf16 | e4m3 | e5m2 | e2m1
  deriving DecidableEq, Repr
inductive FloatTy where | f32 | f16 | bf16
  deriving DecidableEq, Repr
inductive HalfTy where | f16 | bf16
  deriving DecidableEq, Repr
inductive Fp8Ty where | e4m3 | e5m2
  deriving DecidableEq, Repr
inductive ClassTy where | f32 | f16 | bf16 | e4m3 | e5m2
  deriving DecidableEq, Repr
/-- The types of VRED and VSCAN, with the rounding code that f32 carries in mod (R242). -/
inductive Rounding where | rne | rtz | rdn | rup
  deriving DecidableEq, Repr
inductive RedTy where | i32 | n32 | f32 (rnd : Rounding)
  deriving DecidableEq, Repr
inductive Hint where | none | likely | unlikely | uniform
  deriving DecidableEq, Repr
inductive Space where | sh | cl | sp | stk
  deriving DecidableEq, Repr
/-- The three spaces of WAITW, RLOCK, rings and count barriers (R191, R197, R334). -/
inductive WordSpace where | sh | cl | sp
  deriving DecidableEq, Repr
inductive Size where | b8 | b16 | b32 | b64 | b128 | i8 | i16
  deriving DecidableEq, Repr
inductive Scope where | grp | coh | clu | die | pkg | dom
  deriving DecidableEq, Repr
/-- Order and scope of an M-format access (R96): plain order has scope code 0. -/
inductive Ordering where
  | plain
  | acq (sc : Scope) | rel (sc : Scope) | acqRel (sc : Scope) | sc (sc : Scope)
  deriving DecidableEq, Repr
inductive FenceOrder where | acq | rel | acqRel | sc
  deriving DecidableEq, Repr
/-- The conditions of SCMP and VCMP (R131). -/
inductive IntCond where | eq | ne | lt | le | gt | ge | tst
  deriving DecidableEq, Repr
/-- The conditions of SFCMP and VFCMP (R140). -/
inductive FloatCond where | eq | ne | lt | le | gt | ge | ord | uno
  deriving DecidableEq, Repr
inductive RedFn where | add | min | max | and | or | xor | mul
  deriving DecidableEq, Repr
inductive ShflMode where
  | up (fill : VReg) | down (fill : VReg) | xor | rot
  deriving DecidableEq, Repr
inductive VtosMode where | zext | sext | hi
  deriving DecidableEq, Repr
inductive TestMode where | any | all | none
  deriving DecidableEq, Repr
inductive AtomFn where | add | and | or | xor | min | max | umin | umax | xchg | cas | fadd
  deriving DecidableEq, Repr
/-- The copy spaces (R257). -/
inductive CopySpace where | vm | sh | cl | sp
  deriving DecidableEq, Repr
/-- The count barrier of a copy: .cb (.sh layout) or .cbcl (.cl layout), and the register that holds its address. -/
structure CbRef where
  cl  : Bool
  reg : SReg
  deriving DecidableEq, Repr
/-- The A and B formats of MLOOP (R284). -/
inductive MatTy where | bf16 | e4m3 | e5m2 | e2m1
  deriving DecidableEq, Repr

/-- The system registers, by number (R356). -/
inductive SysReg where
  | fstat | psig | depmask | ghelp | regbudget | stkp | stklim
  | xbound (n : BitVec 2) | launchid | argloc
  | xpc | xcause | xstat | xaddr | xscr0 | xscr1
  | xvec | wdlimit | nametab | faultq | xlflush
  | spwin (d : BitVec 3) | scrctl | scrbase | scrwidx | scrridx
  | timebase | pgrank | mxbudget | spbase | devrev
  deriving DecidableEq, Repr

/-- The causes that decoding a word can raise (R101). -/
inductive DecodeCause where | illegalEncoding | illegalOpcode | illegalOperand | fetchAlign
  deriving DecidableEq, Repr

/-- The header of a host call (R373): context, calling host thread, call sequence; and the package that receives it
(R376). -/
structure Call where
  ctx    : Nat
  caller : Word64
  seq    : Nat
  pkg    : Nat := 0
  deriving DecidableEq, Repr

/-- The firmware image that boot step 2 reads (R398, R400): the part whose boot flash holds it, its bytes, whether its signature
is good, its version, the minimum version that it fuses, and its board record: for each island the power limit in milliwatts and
the throttle temperature in millidegrees. The spec gives the bytes no layout, so the fields stand beside them (log 6). -/
structure Firmware where
  part    : Nat := 0
  bytes   : List Byte := []
  signed  : Bool := true
  version : Nat := 0
  fuseTo  : Nat := 0
  board   : List (Nat × Nat) := []
  deriving DecidableEq, Repr

/-- What boot steps 4 and 5 find (R383, R398): the bytes behind each CXL port, whether the services start, and the namespaces and
network controllers of the enumeration. -/
structure Enumeration where
  expanders  : List Nat := []
  servicesOk : Bool := true
  namespaces : Nat := 0
  networks   : Nat := 0
  deriving DecidableEq, Repr

/-- A junction of a package, in millidegrees (R402). -/
structure Junction where
  pkg  : Nat
  temp : Nat
  deriving DecidableEq, Repr

/-- Blocks that a controller has written, and the bytes of one block (R384). -/
structure Blocks where
  count : Nat
  size  : Nat
  deriving DecidableEq, Repr

/-- The space of a host WRITE or READ (R375). -/
inductive HostSpace where | vm | sp
  deriving DecidableEq, Repr

/-- What an OPEN carries (R376). -/
structure OpenArgs where
  root        : Nat
  nametab     : Nat
  nametabN    : Nat
  xvec        : Word64
  wdlimit     : BitVec 32
  faultq      : Nat
  dumpAt      : Nat
  dumpSize    : Nat
  confidential : Bool
  ownerKey    : List Byte
  nonce       : List Byte
  poolAt      : Nat
  poolSize    : Nat
  join        : Option Nat
  deriving DecidableEq, Repr

/-- The peer of a connection register (R388): the fabric path, the Ethernet path, or none (all ones). -/
inductive Peer where
  | none
  | fabric (pkg : Nat) (ctx : Nat) (reg : Nat)
  | ether (addr : Nat) (port : Nat) (ctx : Nat) (reg : Nat)
  deriving DecidableEq, Repr

/-- The settings of SCROLL_CTL (R375, R338). -/
structure ScrollArgs where
  mode    : Nat
  logSize : Nat
  base    : Nat
  noReuse : Bool
  ridx    : Nat
  widx    : Nat
  deriving DecidableEq, Repr

inductive Instr where
  -- Scalar instructions (R126 to R141)
  | smov (g : Guard) (sd sa : SReg)
  | smovGetp (g : Guard) (sd : SReg)
  | smovSetp (g : Guard) (sa : SReg)
  | smovi (g : Guard) (sd : SReg) (imm : Word64)
  | sadd (g : Guard) (sd sa : SReg) (b : SOp)
  | saddi (g : Guard) (sd sa : SReg) (imm : Word64)
  | ssub (g : Guard) (sd sa : SReg) (b : SOp)
  | smul (g : Guard) (sd sa : SReg) (b : SOp)
  | smulhi (g : Guard) (uns : Bool) (sd sa : SReg) (b : SOp)
  | sdiv (g : Guard) (uns : Bool) (sd sa : SReg) (b : SOp)
  | srem (g : Guard) (uns : Bool) (sd sa : SReg) (b : SOp)
  | sand (g : Guard) (sd sa : SReg) (b : SOp)
  | sor (g : Guard) (sd sa : SReg) (b : SOp)
  | sxor (g : Guard) (sd sa : SReg) (b : SOp)
  | sshl (g : Guard) (sd sa : SReg) (b : SOp)
  | sshr (g : Guard) (sd sa : SReg) (b : SOp)
  | sshra (g : Guard) (sd sa : SReg) (b : SOp)
  | smin (g : Guard) (uns : Bool) (sd sa : SReg) (b : SOp)
  | smax (g : Guard) (uns : Bool) (sd sa : SReg) (b : SOp)
  | ssel (g : Guard) (k : UPred) (sd sa : SReg) (b : SOp)
  | scmp (g : Guard) (c : IntCond) (uns : Bool) (spd : UPred) (sa : SReg) (b : SOp)
  | splog (g : Guard) (t : BitVec 4) (spd spa spb : UPred)
  | slea (g : Guard) (k : BitVec 3) (sd sa : SReg) (b : SOp)
  | sbfx (g : Guard) (sx : Bool) (sd sa : SReg) (pos : BitVec 6) (width : BitVec 7)
  | sbfi (g : Guard) (sd sa : SReg) (pos : BitVec 6) (width : BitVec 7)
  | sclz (g : Guard) (sd sa : SReg)
  | spopc (g : Guard) (sd sa : SReg)
  | sfadd (g : Guard) (rnd : Rounding) (sd sa sb : SReg)
  | sfmul (g : Guard) (rnd : Rounding) (sd sa sb : SReg)
  | sfma (g : Guard) (rnd : Rounding) (sd sa sb : SReg)
  | sfcmp (g : Guard) (c : FloatCond) (spd : UPred) (sa sb : SReg)
  | sfcvt (g : Guard) (src dst : ElemTy) (rnd : Rounding) (sat : Bool) (sd sa : SReg)
  -- Control instructions (R142 to R155)
  | br (g : Guard) (hint : Hint) (off : Word32)
  | vbr (g : Guard) (hint : Hint) (off : Word32)
  | jmp (g : Guard) (hint : Hint) (off : Word32)
  | jmpr (g : Guard) (sa : SReg)
  | call (g : Guard) (off : Word32)
  | callr (g : Guard) (sa : SReg)
  | ret (g : Guard) (sa : SReg)
  | meet (g : Guard)
  | fend (g : Guard)
  | gexit (g : Guard) (sa : SReg)
  | yield (g : Guard)
  | sleep (g : Guard) (b : SOp)
  | nop (g : Guard)
  -- Vector moves, integers, lanes and predicates (R219 to R243)
  | vmov (g : Guard) (nr : Bool) (ix : Ix) (more : BitVec 6) (vd va : VReg)
  | vmovi (g : Guard) (nr : Bool) (ix : Ix) (ty : ElemTy) (vd : VReg) (imm : Word32)
  | vmovx (g : Guard) (nr : Bool) (xd : XReg) (va : VReg)
  | vstx (g : Guard) (nr : Bool) (vd : VReg) (xa : XReg)
  | viota (g : Guard) (nr : Bool) (rank : Bool) (vd : VReg)
  | vadd (g : Guard) (nr : Bool) (ty : IntTy) (sat : Bool) (vd va : VReg) (b : VOp)
  | vsub (g : Guard) (nr : Bool) (ty : IntTy) (sat : Bool) (vd va : VReg) (b : VOp)
  | vmul (g : Guard) (nr : Bool) (ty : IntTy) (sat : Bool) (vd va : VReg) (b : VOp)
  | vmulhi (g : Guard) (nr : Bool) (ty : IntTy) (vd va : VReg) (b : VOp)
  | vmad (g : Guard) (nr : Bool) (ix : Ix) (ty : IntTy) (sat : Bool) (vd va vb vc : VReg)
  | vdiv (g : Guard) (nr : Bool) (ty : IntTy) (vd va : VReg) (b : VOp)
  | vrem (g : Guard) (nr : Bool) (ty : IntTy) (vd va : VReg) (b : VOp)
  | vand (g : Guard) (nr : Bool) (vd va : VReg) (b : VOp)
  | vor (g : Guard) (nr : Bool) (vd va : VReg) (b : VOp)
  | vxor (g : Guard) (nr : Bool) (vd va : VReg) (b : VOp)
  | vnot (g : Guard) (nr : Bool) (vd va : VReg)
  | vshl (g : Guard) (nr : Bool) (vd va : VReg) (b : VOp)
  | vshr (g : Guard) (nr : Bool) (vd va : VReg) (b : VOp)
  | vshra (g : Guard) (nr : Bool) (vd va : VReg) (b : VOp)
  | vmin (g : Guard) (nr : Bool) (ty : IntTy) (vd va : VReg) (b : VOp)
  | vmax (g : Guard) (nr : Bool) (ty : IntTy) (vd va : VReg) (b : VOp)
  | vabs (g : Guard) (nr : Bool) (sat : Bool) (vd va : VReg)
  | vneg (g : Guard) (nr : Bool) (sat : Bool) (vd va : VReg)
  | vsel (g : Guard) (nr : Bool) (ix : Ix) (vd va vb vc : VReg)
  | vcmp (g : Guard) (nr : Bool) (c : IntCond) (ty : IntTy) (pd : PReg) (va : VReg) (b : VOp)
  | vplog (g : Guard) (nr : Bool) (t : BitVec 4) (pd pa pb : PReg)
  | vclz (g : Guard) (nr : Bool) (vd va : VReg)
  | vpopc (g : Guard) (nr : Bool) (vd va : VReg)
  | vbfx (g : Guard) (nr : Bool) (ix : Ix) (ty : IntTy) (vd va vb vc : VReg)
  | vbfi (g : Guard) (nr : Bool) (ix : Ix) (vd va vb vc : VReg)
  | vperm (g : Guard) (nr : Bool) (vd va vb vc : VReg)
  | vshfl (g : Guard) (nr : Bool) (mode : ShflMode) (vd va vb : VReg)
  | qswap (g : Guard) (nr : Bool) (m : BitVec 2) (vd va : VReg)
  | qbcast (g : Guard) (nr : Bool) (k : BitVec 2) (vd va : VReg)
  | vred (g : Guard) (nr : Bool) (fn : RedFn) (ty : RedTy) (vd va : VReg)
  | vscan (g : Guard) (nr : Bool) (fn : RedFn) (excl : Bool) (ty : RedTy) (vd va : VReg)
  | vballot (g : Guard) (nr : Bool) (sd : SReg) (pa : PReg)
  | vtos (g : Guard) (nr : Bool) (mode : VtosMode) (sd : SReg) (va : VReg)
  | stov (g : Guard) (nr : Bool) (hi : Bool) (vd : VReg) (sa : SReg)
  | ptest (g : Guard) (nr : Bool) (mode : TestMode) (spd : UPred) (pa : PReg)
  -- Vector floating point and conversion (R244 to R252)
  | vfadd (g : Guard) (nr : Bool) (ix : Ix) (ty : FloatTy) (rnd : Rounding) (sat : Bool) (vd va vb : VReg)
  | vfsub (g : Guard) (nr : Bool) (ix : Ix) (ty : FloatTy) (rnd : Rounding) (sat : Bool) (vd va vb : VReg)
  | vfmul (g : Guard) (nr : Bool) (ix : Ix) (ty : FloatTy) (rnd : Rounding) (sat : Bool) (vd va vb : VReg)
  | vfma (g : Guard) (nr : Bool) (ix : Ix) (ty : FloatTy) (rnd : Rounding) (sat : Bool) (vd va vb vc : VReg)
  | vfmin (g : Guard) (nr : Bool) (ty : FloatTy) (vd va : VReg) (b : VOp)
  | vfmax (g : Guard) (nr : Bool) (ty : FloatTy) (vd va : VReg) (b : VOp)
  | vfabs (g : Guard) (nr : Bool) (ty : FloatTy) (vd va : VReg)
  | vfneg (g : Guard) (nr : Bool) (ty : FloatTy) (vd va : VReg)
  | vfcmp (g : Guard) (nr : Bool) (c : FloatCond) (pd : PReg) (va : VReg) (b : VOp)
  | vfrcp (g : Guard) (nr : Bool) (ix : Ix) (rnd : Rounding) (sat : Bool) (vd va : VReg)
  | vfrsq (g : Guard) (nr : Bool) (ix : Ix) (rnd : Rounding) (sat : Bool) (vd va : VReg)
  | vfsqrt (g : Guard) (nr : Bool) (ix : Ix) (rnd : Rounding) (sat : Bool) (vd va : VReg)
  | vfdiv (g : Guard) (nr : Bool) (ix : Ix) (rnd : Rounding) (sat : Bool) (vd va vb : VReg)
  | vfexp2 (g : Guard) (nr : Bool) (ix : Ix) (rnd : Rounding) (sat : Bool) (vd va : VReg)
  | vflog2 (g : Guard) (nr : Bool) (ix : Ix) (rnd : Rounding) (sat : Bool) (vd va : VReg)
  | vfscl (g : Guard) (nr : Bool) (ix : Ix) (rnd : Rounding) (sat : Bool) (vd va vb : VReg)
  | vfexpo (g : Guard) (nr : Bool) (vd va : VReg)
  | vfclass (g : Guard) (nr : Bool) (ty : ClassTy) (vd va : VReg)
  | vcvt (g : Guard) (nr : Bool) (ix : Ix) (src dst : ElemTy) (rnd : Rounding) (sat : Bool) (vd va : VReg)
  | vpack2 (g : Guard) (nr : Bool) (ty : HalfTy) (rnd : Rounding) (sat : Bool) (vd va vb : VReg)
  | vunpack2 (g : Guard) (nr : Bool) (ty : HalfTy) (vd va : VReg)
  | vpack4 (g : Guard) (nr : Bool) (ty : Fp8Ty) (rnd : Rounding) (sat : Bool) (vd va : VReg)
  | vunpack4 (g : Guard) (nr : Bool) (ty : Fp8Ty) (vd va : VReg)
  | vqpack (g : Guard) (nr : Bool) (rnd : Rounding) (vd va : VReg)
  | vqunpk (g : Guard) (nr : Bool) (vd va : VReg)
  | vdot2 (g : Guard) (nr : Bool) (ty : HalfTy) (rnd : Rounding) (sat : Bool) (vd va vb vc : VReg)
  | vdot4 (g : Guard) (nr : Bool) (ty : Fp8Ty) (rnd : Rounding) (sat : Bool) (vd va vb vc : VReg)
  -- Memory and synchronisation (R180 to R197)
  | vld (g : Guard) (ms : Space) (sz : Size) (o : Ordering) (data : VReg) (base : SReg) (vo : Option VReg) (off : BitVec 24)
  | vst (g : Guard) (ms : Space) (sz : Size) (o : Ordering) (data : VReg) (base : SReg) (vo : Option VReg) (off : BitVec 24)
  | vldc (g : Guard) (nr : Bool) (ms : WordSpace) (sz : Size) (data : VReg) (base : SReg) (vo : Option VReg) (off : BitVec 24)
  | sld (g : Guard) (ms : Space) (sz : Size) (o : Ordering) (sd : SReg) (base : SReg) (off : BitVec 24)
  | sst (g : Guard) (ms : Space) (sz : Size) (o : Ordering) (sd : SReg) (base : SReg) (off : BitVec 24)
  | vatom (g : Guard) (fn : AtomFn) (fetch : Bool) (ms : WordSpace) (b64 : Bool) (o : Ordering) (data : VReg) (base : SReg) (vo : Option VReg) (off : BitVec 20)
  | satom (g : Guard) (fn : AtomFn) (fetch : Bool) (ms : WordSpace) (b64 : Bool) (o : Ordering) (sd : SReg) (base : SReg) (off : BitVec 20)
  | spushv (g : Guard) (data : VReg) (n : BitVec 24)
  | spopv (g : Guard) (data : VReg) (n : BitVec 24)
  | fence (g : Guard) (o : FenceOrder) (sc : Scope)
  | waitw (g : Guard) (acq : Option Scope) (ms : WordSpace) (b64 : Bool) (base sv sc st : SReg) (spd : UPred) (off : Word32)
  | bar (g : Guard)
  | bara (g : Guard)
  | barw (g : Guard)
  | cbinit (g : Guard) (cl : Bool) (base qa qk : SReg) (off : Word32)
  | cbexpect (g : Guard) (arrive : Option SReg) (scp : Scope) (cl : Bool) (base cnt : SReg) (off : Word32)
  | cbarrive (g : Guard) (ack : Bool) (scp : Scope) (cl : Bool) (base tok : SReg) (off : Word32)
  | cbwait (g : Guard) (scp : Scope) (cl : Bool) (base tok : SReg) (off : Word32)
  | cbtest (g : Guard) (scp : Scope) (cl : Bool) (spd : UPred) (sf base tok : SReg) (off : Word32)
  | rlock (g : Guard) (ms : WordSpace) (base len hd : SReg) (off : Word32)
  | runlock (g : Guard) (hd : SReg)
  -- Engines (R254 to R292, R389)
  | cpy (g : Guard) (dsp ssp : CopySpace) (scp : Scope) (sd dA sA lA : SReg) (cb : Option CbRef) (flag : Option SReg)
  | cpyt (g : Guard) (scatter : Bool) (box : WordSpace) (scp : Scope) (sd xA tA cA : SReg) (cb : Option CbRef) (flag : Option SReg)
  | cpym (g : Guard) (ssp : CopySpace) (sd fA sA lA aA : SReg) (mask : BitVec 4)
  | cpytest (g : Guard) (spd : UPred) (sa : SReg)
  | macq (g : Guard) (sd : SReg) (n : BitVec 16)
  | macqTeam (g : Guard) (sd : SReg) (n : BitVec 16) (sm : SReg)
  | mrel (g : Guard)
  | mgrow (g : Guard) (sd : SReg) (n : BitVec 16)
  | mzero (g : Guard) (sd : SReg) (k : Slot)
  | mloop (g : Guard) (fa fb : MatTy) (part : Bool) (sd aA iA xA yA : SReg) (vb : VReg) (step : BitVec 11) (k : Slot)
  | msacc (g : Guard) (sd pA qA nA : SReg) (k : Slot)
  | mldacc (g : Guard) (ty : FloatTy) (sd aA rA : SReg) (k : Slot)
  | mstacc (g : Guard) (ty : FloatTy) (rnd : Rounding) (sat : Bool) (sd aA rA : SReg) (k : Slot)
  | tsend (g : Guard) (sd tA lA bA : SReg) (c : BitVec 4)
  | trecv (g : Guard) (sd tA lA bA : SReg) (c : BitVec 4)
  -- Names, tasks, rings, distributor, launches (R310 to R335)
  | nself (g : Guard) (sd : SReg)
  | nwake (g : Guard) (sd sa : SReg)
  | nsignal (g : Guard) (sd sa sb : SReg)
  | nsignalKill (g : Guard) (sd sa : SReg)
  | ndeposit (g : Guard) (sd sa sb : SReg) (k : BitVec 3)
  | njoin (g : Guard) (reap : Bool) (sd sa : SReg) (t : Option SReg)
  | npark (g : Guard) (sd : SReg) (t : Option SReg)
  | nstat (g : Guard) (sd sa : SReg)
  | tspawn (g : Guard) (tag : VReg) (base : SReg) (vo : Option VReg) (off : BitVec 24)
  | tpost (g : Guard) (pkg : Bool) (sa : SReg)
  | tdone (g : Guard)
  | rgacq (g : Guard) (try? : Bool) (scp : Scope) (ms : WordSpace) (sd sa : SReg)
  | rgcommit (g : Guard) (scp : Scope) (ms : WordSpace) (sd sa sb : SReg)
  | rgpeek (g : Guard) (try? : Bool) (scp : Scope) (ms : WordSpace) (sd sa : SReg)
  | rgrel (g : Guard) (scp : Scope) (ms : WordSpace) (sd sa sb : SReg)
  | wdnext (g : Guard) (sa : SReg)
  | launch (g : Guard) (sd sa : SReg)
  -- Traps and system (R358 to R361)
  | trap (g : Guard) (code : BitVec 16)
  | xret (g : Guard)
  | sysrd (g : Guard) (sd : SReg) (n : SysReg)
  | syswr (g : Guard) (n : SysReg) (sa : SReg)
  | syswrXlflush (g : Guard) (sa : SReg)
  | syswrScrridx (g : Guard) (sa : SReg)
  | bkpt (g : Guard) (code : BitVec 16)
  | logmark (g : Guard) (sa : SReg)
  | evpost (g : Guard) (sd nA aA lA : SReg) (code : BitVec 16)
  | fretry (g : Guard) (sd sa : SReg)
  | fretryExhaust (g : Guard) (sd sa : SReg)
  | fretryFatal (g : Guard) (sd sa : SReg)
  -- Events of the schedulers and waits
  | strokeReformation
  | groupUrgent (gid : Nat)
  | meetRelease (gid : Nat)
  | waitwWake (gid fibre : Nat)
  | waitwTimeout (gid fibre : Nat)
  | sleepExpiry (gid : Nat)
  | nparkTimeout (gid fibre : Nat)
  | njoinTimeout (gid fibre : Nat)
  -- Events of the copy and transfer engines
  | copyPiece (op piece : Nat)
  | faultQueuePost (die : Nat) (slot : Nat)
  | layoutRecordRead (op : Nat)
  | copyAck (op member : Nat)
  | copyCompletion (op : Nat)
  | transferPiece (op piece : Nat)
  | transferCompletion (op : Nat)
  -- Events of the matrix engine
  | macqQueueGrant (core : Nat)
  | mrelRelease (core holder : Nat)
  | matrixLoopStart (op : Nat)
  | matrixLoopWaitExpiry (op : Nat)
  | matrixBudgetRefill (island : Nat)
  | matrixOpCompletion (op : Nat)
  -- Events of the name homes
  | deliverWake (op : Nat)
  | deliverSignal (op : Nat)
  | deliverDeposit (op : Nat)
  | deliverKill (op : Nat)
  | deliverJoin (op : Nat)
  | deliverStat (op : Nat)
  -- Launches, admission, pre-emption, tasks
  | launchAcceptance (req : Nat) (indices : List Nat)
  | clusterAdmission (ctx launch cluster hw : Nat) (binds : List Nat)
  | admissionWaitExpiry
  | preemptStop (cid : Nat)
  | cohortSave (coh : Nat)
  | registerWriteback (gid reg : Nat)
  | groupWritebackComplete (gid : Nat)
  | imageSwapOut (gid : Nat)
  | imageSwapIn (gid : Nat)
  | groupEndFinalise (gid : Nat)
  | wdAnswer (req : Nat)
  | taskDispatch (die : Nat) (tasks : List Nat) (index : Nat)
  -- Services
  | svcReadBlocks (post : Nat) (status done : Nat) (data : List Byte)
  | svcWriteBlocks (post : Nat) (status : Nat) (done : Blocks)
  | svcFlush (post : Nat) (status : Nat)
  | svcSendFrame (post : Nat) (status done : Nat)
  | svcPostReceive (post : Nat) (status : Nat) (data : List Byte)
  -- Faults, watchdogs, debug, platform
  | contextFatalFault (ctx : Nat) (cause : BitVec 8) (addr : Word64) (thread : Word64)
  | watchdogExpiry (gid : Nat)
  | replayWaitTimeout (ctx cls src : Nat)
  | remoteTimeout (ctx : Nat)
  | counterFlush (ctx core : Nat)
  | tracePost (ctx core : Nat) (visited : Byte) (times : List (BitVec 16))
  | packageReset (rootcplx : Bool) (image : Firmware) (stacksOk : Bool) (pkg : Option (BitVec 8)) (found : Enumeration)
  | governorTick (island power temp : Nat)
  | criticalTemperature (j : Junction)
  -- Host calls
  | hostOpen (c : Call) (num : Nat) (args : OpenArgs)
  | hostClose (c : Call)
  | hostCloseKill (c : Call)
  | hostMap (c : Call) (pkg die size : Nat) (seq : Bool)
  | hostWrite (c : Call) (ms : HostSpace) (addr : Word64) (data : List Byte)
  | hostRead (c : Call) (ms : HostSpace) (addr : Word64) (len : Nat)
  | hostLaunch (c : Call) (record : Word64)
  | hostServiceLaunch (c : Call) (record : Word64)
  | nameWake (c : Call) (target : Word64)
  | nameSignal (c : Call) (target : Word64) (bits : Word32)
  | nameSignalKill (c : Call) (target : Word64)
  | nameDeposit (c : Call) (target : Word64) (k : BitVec 3) (value : Word64)
  | nameJoin (c : Call) (target : Word64) (reap : Bool) (timeout : Word64)
  | nameGrant (c : Call) (target : Word64) (mask : BitVec 5) (grantee : Option Nat) (index : Nat)
  | nameExit (c : Call) (target : Word64) (exit : Word64) (killed : Bool)
  | connect (c : Call) (pkg : Nat) (reg : BitVec 4) (peer : Peer)
  | scrollCtl (c : Call) (pkg : Nat) (args : ScrollArgs)
  | scrollCtlKill (c : Call) (pkg : Nat)
  | scrollCtlContinue (c : Call) (pkg : Nat)
  | eventRead (c : Call) (max : Nat)
  | dumpRead (c : Call) (off len : Nat)
  | softErrorCorrected (core : Nat)
  | unassignedOpcode (c : DecodeCause)
  | badcallMessage (bytes : List Byte)
  deriving DecidableEq, Repr

end Sys2Proof
end

