-- ==== Sys2Proof/Machine/Flags.lean ====
section
/-! DEFINITION. Flags and number formats (R200 to R218): sticky flags, exact values, RoundToFormat, Convert, the scalar
comparison rules, fused sums, and QF4 blocks. -/

namespace Sys2Proof

/-! ## Sticky flags, by their bits of FSTAT (R208) -/

def flNX : Nat := 1
def flUF : Nat := 2
def flOF : Nat := 4
def flDZ : Nat := 8
def flNV : Nat := 16

/-- The flags of either of two operations. -/
def orFl (a b : Nat) : Nat := Nat.lor a b

/-! ## Formats (R200, R201) -/

/-- A float format: its width, mantissa bits, least exponent, greatest finite mantissa and its exponent. -/
structure Fmt where
  bits : Nat
  man  : Nat
  emin : Int
  maxM : Nat
  emax : Int
  inf  : Bool
  deriving DecidableEq, Repr

def fmtF32 : Fmt := ⟨32, 23, -126, 2 ^ 24 - 1, 127, true⟩
def fmtF16 : Fmt := ⟨16, 10, -14, 2 ^ 11 - 1, 15, true⟩
def fmtBf16 : Fmt := ⟨16, 7, -126, 2 ^ 8 - 1, 127, true⟩
def fmtE5m2 : Fmt := ⟨8, 2, -14, 7, 15, true⟩
def fmtE4m3 : Fmt := ⟨8, 3, -6, 14, 8, false⟩
def fmtE2m1 : Fmt := ⟨4, 1, 0, 3, 2, false⟩

def FloatTy.fmt : FloatTy → Fmt | .f32 => fmtF32 | .f16 => fmtF16 | .bf16 => fmtBf16
def HalfTy.fmt : HalfTy → Fmt | .f16 => fmtF16 | .bf16 => fmtBf16
def Fp8Ty.fmt : Fp8Ty → Fmt | .e4m3 => fmtE4m3 | .e5m2 => fmtE5m2
def ClassTy.fmt : ClassTy → Fmt
  | .f32 => fmtF32 | .f16 => fmtF16 | .bf16 => fmtBf16 | .e4m3 => fmtE4m3 | .e5m2 => fmtE5m2
/-- The float format of an element type; none for the integer types. -/
def ElemTy.fmt? : ElemTy → Option Fmt
  | .i32 => none | .n32 => none | .f32 => some fmtF32 | .f16 => some fmtF16 | .bf16 => some fmtBf16
  | .e4m3 => some fmtE4m3 | .e5m2 => some fmtE5m2 | .e2m1 => some fmtE2m1

/-- The exponent field's bits. -/
def Fmt.expBits (F : Fmt) : Nat := F.bits - 1 - F.man
/-- The canonical NaN; e2m1 has none (R201). -/
def Fmt.nan (F : Fmt) : Nat :=
  if F.inf then (2 ^ F.expBits - 1) * 2 ^ F.man + 2 ^ (F.man - 1) else if F.bits = 8 then 0x7F else 0
def Fmt.infCode (F : Fmt) : Nat := (2 ^ F.expBits - 1) * 2 ^ F.man
/-- The encoding of the largest finite magnitude. -/
def Fmt.maxCode (F : Fmt) : Nat := (F.emax - F.emin).toNat * 2 ^ F.man + F.maxM
def Fmt.signed (F : Fmt) (neg : Bool) (code : Nat) : Nat := b2n neg * 2 ^ (F.bits - 1) + code

/-- An exact value: a NaN, an infinity, or `± m · 2 ^ e`. An irrational result is held with one more one bit below
everything that rounding looks at. -/
inductive Val where
  | nan (signalling : Bool)
  | inf (neg : Bool)
  | num (neg : Bool) (m : Nat) (e : Int)
  deriving DecidableEq, Repr

/-- The value of an encoding (R200, R201). -/
def Fmt.decode (F : Fmt) (x : Nat) : Val :=
  let neg := bitAt x (F.bits - 1)
  let ex := field x F.man F.expBits
  let m := field x 0 F.man
  if F.inf && ex == 2 ^ F.expBits - 1 then
    if m = 0 then .inf neg else .nan (!bitAt m (F.man - 1))
  else if !F.inf && F.bits == 8 && field x 0 7 == 0x7F then .nan false
  else if ex = 0 then .num neg m (F.emin - F.man)
  else .num neg (m + 2 ^ F.man) (F.emin - F.man + (ex - 1 : Nat))

/-! ## Rounding (R205, R206) -/

/-- RoundInt of the magnitude `m · 2 ^ k` of a value with a sign. -/
def roundMag (mode : Rounding) (neg : Bool) (m : Nat) (k : Int) : Nat :=
  if 0 ≤ k then m * 2 ^ k.toNat
  else
    let sh := min (-k).toNat (m.log2 + 3)
    let q := m / 2 ^ sh
    let r := m % 2 ^ sh
    let up := match mode with
      | .rne => decide (2 ^ sh < 2 * r) || (2 * r == 2 ^ sh && q % 2 == 1)
      | .rtz => false
      | .rdn => neg && r != 0
      | .rup => !neg && r != 0
    if up then q + 1 else q

/-- A mode toward zero for the sign of a value (R206). -/
def towardZero (mode : Rounding) (neg : Bool) : Bool :=
  match mode with | .rne => false | .rtz => true | .rdn => !neg | .rup => neg

/-- The result of a finite overflow, without its flags OF and NX (R206). -/
def overflow (F : Fmt) (neg : Bool) (mode : Rounding) (sat : Bool) : Nat :=
  if sat || towardZero mode neg || F.bits == 4 then F.signed neg F.maxCode
  else if F.inf then F.signed neg F.infCode else F.nan

/-- The result of an infinite input, and its flags (R206). -/
def infInput (F : Fmt) (neg sat : Bool) : Nat × Nat :=
  if sat || F.bits == 4 then (F.signed neg F.maxCode, 0)
  else if F.inf then (F.signed neg F.infCode, 0) else (F.nan, flOF)

/-- `|r| > Max(F)` for the rounded magnitude `R · 2 ^ (e - M)`. -/
def aboveMax (F : Fmt) (R : Nat) (e : Int) : Bool :=
  if F.emax + 1 < e then true else if F.emax ≤ e then decide (F.maxM < R * 2 ^ (e - F.emax).toNat) else false

/-- RoundToFormat (R205): an encoding of `F` and the flags that it sets. UF and NX for 0.75 in e2m1, where R207 lists NX alone: DEDUCED
from R205 (log 57). -/
def roundTo (F : Fmt) (mode : Rounding) (sat : Bool) (x : Val) : Nat × Nat :=
  match x with
  | .nan _ => if F.bits = 4 then (0, flNV) else (F.nan, 0)
  | .inf neg => infInput F neg sat
  | .num neg 0 _ => (F.signed neg 0, 0)
  | .num neg m e =>
    let e0 : Int := e + m.log2
    let ex := max e0 F.emin
    let R := roundMag mode neg m (e - (ex - F.man))
    let inexact := if 0 ≤ e - (ex - F.man) then false
      else decide (R * 2 ^ (min ((ex - F.man) - e).toNat (m.log2 + 3)) ≠ m)
    let T := roundMag mode neg m (e - (e0 - F.man))
    let tiny := decide (e0 < F.emin) && !(e0 + 1 == F.emin && T == 2 ^ (F.man + 1))
    let fl := orFl (if inexact then flNX else 0) (if tiny && inexact then flUF else 0)
    if aboveMax F R ex then (overflow F neg mode sat, orFl fl (orFl flOF flNX))
    else (F.signed neg ((ex - F.emin).toNat * 2 ^ F.man + R), fl)

/-- RoundToF32 (R138). -/
def roundF32 (mode : Rounding) (x : Val) : Nat × Nat := roundTo fmtF32 mode false x

/-! ## Exact operations (R139, R210, R215) -/

def Val.isNan : Val → Bool | .nan _ => true | _ => false
def Val.isSig : Val → Bool | .nan s => s | _ => false
def Val.isInf : Val → Bool | .inf _ => true | _ => false
def Val.neg? : Val → Bool | .nan _ => false | .inf n => n | .num n _ _ => n
def Val.isZero : Val → Bool | .num _ 0 _ => true | _ => false
def Val.negate : Val → Val | .nan s => .nan s | .inf n => .inf (!n) | .num n m e => .num (!n) m e

/-- NV when some operand is a signalling NaN (R210). -/
def sigFlag (xs : List Val) : Nat := if xs.any Val.isSig then flNV else 0

/-- The signed integer `± m · 2 ^ (e - lo)`, for `lo ≤ e`. -/
def scaled (neg : Bool) (m : Nat) (e lo : Int) : Int :=
  let v : Int := (m * 2 ^ (e - lo).toNat : Nat)
  if neg then -v else v

/-- The exact sum of finite terms; a zero sum has the sign of its terms when they are zeros of one sign, and otherwise
that of the mode (R139). -/
def sumNums (mode : Rounding) (xs : List (Bool × Nat × Int)) : Val :=
  let nz := xs.filter fun x => x.2.1 != 0
  let lo := nz.foldl (fun l x => min l x.2.2) ((nz.head?.map (·.2.2)).getD 0)
  let t := nz.foldl (fun a x => a + scaled x.1 x.2.1 x.2.2 lo) (0 : Int)
  if t = 0 then
    if nz.isEmpty && xs.all (fun x => x.1) then .num true 0 0
    else if nz.isEmpty && xs.all (fun x => !x.1) then .num false 0 0
    else .num (mode == .rdn) 0 0
  else .num (decide (t < 0)) t.natAbs lo

/-- The exact sum of values (R210, R215): a NaN, an invalid sum of infinities, an infinity, or the sum of the terms. -/
def sumVals (mode : Rounding) (xs : List Val) : Val × Nat :=
  let infs := xs.filter Val.isInf
  if xs.any Val.isNan then (.nan false, sigFlag xs)
  else if infs.any Val.neg? && infs.any (fun x => !x.neg?) then (.nan false, flNV)
  else match infs.head? with
    | some x => (x, 0)
    | none => (sumNums mode (xs.filterMap fun x => match x with | .num n m e => some (n, m, e) | _ => none), 0)

/-- The exact product; 0 × ∞ is invalid (R210). -/
def mulVal (a b : Val) : Val × Nat :=
  match a, b with
  | .num n m e, .num n' m' e' => (.num (xor n n') (m * m') (e + e'), 0)
  | .nan s, y => (.nan false, sigFlag [.nan s, y])
  | x, .nan s => (.nan false, sigFlag [x, .nan s])
  | x, y => if x.isZero || y.isZero then (.nan false, flNV) else (.inf (xor x.neg? y.neg?), 0)

/-- An addend plus exact products, as one sum (R215). A NaN among them leaves it there: opposite infinite products beside a quiet NaN
set no NV, DEDUCED (log 37). -/
def fusedSum (mode : Rounding) (c : Val) (ps : List (Val × Val)) : Val × Nat :=
  let prods := ps.map fun p => mulVal p.1 p.2
  let fl := prods.foldl (fun f p => orFl f p.2) (sigFlag [c])
  if prods.any (fun p => p.1.isNan) then (.nan false, fl)
  else
    let r := sumVals mode (c :: prods.map (·.1))
    (r.1, orFl fl r.2)

/-- The quotient of two magnitudes, to 64 bits below the first and one bit for what is left. -/
def quotient (m : Nat) (e : Int) (m' : Nat) (e' : Int) : Nat × Int :=
  let sh := 66 + m'.log2
  let q := m * 2 ^ sh / m'
  let r := m * 2 ^ sh % m'
  (2 * q + (if r = 0 then 0 else 1), e - e' - sh - 1)

/-- a / b (R210): 0/0 and ∞/∞ are invalid, and a finite non-zero value over zero sets DZ. -/
def divVal (a b : Val) : Val × Nat :=
  match a, b with
  | .nan s, y => (.nan false, sigFlag [.nan s, y])
  | x, .nan s => (.nan false, sigFlag [x, .nan s])
  | .inf _, .inf _ => (.nan false, flNV)
  | .inf n, .num n' _ _ => (.inf (xor n n'), 0)
  | .num n _ _, .inf n' => (.num (xor n n') 0 0, 0)
  | .num n m e, .num n' m' e' =>
    if m' = 0 then (if m = 0 then (.nan false, flNV) else (.inf (xor n n'), flDZ))
    else let q := quotient m e m' e'; (.num (xor n n') q.1 q.2, 0)

/-- The integer square root, from bit `b` downward. -/
def isqrtFrom : Nat → Nat → Nat → Nat
  | 0, _, r => r
  | b + 1, n, r => if (r + 2 ^ b) * (r + 2 ^ b) ≤ n then isqrtFrom b n (r + 2 ^ b) else isqrtFrom b n r
def isqrt (n : Nat) : Nat := isqrtFrom (n.log2 / 2 + 1) n 0

/-- √a (R210, R244). -/
def sqrtVal (a : Val) : Val × Nat :=
  match a with
  | .nan s => (.nan false, sigFlag [.nan s])
  | .inf n => if n then (.nan false, flNV) else (.inf false, 0)
  | .num n m e =>
    if m = 0 then (.num n 0 0, 0)
    else if n then (.nan false, flNV)
    else
      let odd := (e % 2).toNat
      let x := m * 2 ^ (odd + 128)
      let r := isqrt x
      (.num false (2 * r + (if r * r = x then 0 else 1)) ((e - odd) / 2 - 65), 0)

/-- 1 / √a (R210, R244). -/
def rsqrtVal (a : Val) : Val × Nat :=
  match a with
  | .nan s => (.nan false, sigFlag [.nan s])
  | .inf n => if n then (.nan false, flNV) else (.num false 0 0, 0)
  | .num n m e =>
    if m = 0 then (.inf n, flDZ)
    else if n then (.nan false, flNV)
    else
      let odd := (e % 2).toNat
      let x := m * 2 ^ odd
      let r := isqrt (2 ^ 256 / x)
      (.num false (2 * r + (if r * r * x = 2 ^ 256 then 0 else 1)) (-((e - odd) / 2) - 129), 0)

/-! The two transcendental results. Each is computed to far more bits than a result holds, with a one bit below for the
irrational rest; that no argument needs more bits to round is UNVERIFIED (log 13). -/

/-- The natural logarithm of 2, times 2 ^ 256: the sum of 1 / (k 2^k). -/
def ln2 : Nat := (List.range 300).foldl (fun a k => a + 2 ^ 320 / ((k + 1) * 2 ^ (k + 1))) 0 / 2 ^ 64

/-- e ^ (t / 2^256) times 2 ^ 256, by its series. -/
def expSeries : Nat → Nat → Nat → Nat → Nat
  | 0, _, _, _ => 0
  | n + 1, k, term, t => term + expSeries n (k + 1) (term * t / 2 ^ 256 / (k + 1)) t

/-- 2 ^ a (R244): exact for an integer; otherwise 2 ^ i · 2 ^ f with 0 < f < 1. -/
def exp2Val (a : Val) : Val × Nat :=
  match a with
  | .nan s => (.nan false, sigFlag [.nan s])
  | .inf n => if n then (.num false 0 0, 0) else (.inf false, 0)
  | .num n m e =>
    if m = 0 then (.num false 1 0, 0)
    else if 0 ≤ e ∨ m % 2 ^ (-e).toNat = 0 then
      let i := if 0 ≤ e then m * 2 ^ (min e.toNat 40) else m / 2 ^ (-e).toNat
      (.num false 1 (if n then -(i : Int) else i), 0)
    else if e + m.log2 < -60 then (.num false (if n then 2 ^ 200 - 1 else 2 ^ 200 + 1) (-200), 0)
    else
      let k := (-e).toNat
      let x : Int := if n then -(m : Int) else m
      let i := x / (2 ^ k : Nat)
      let f := (x % (2 ^ k : Nat)).toNat
      (.num false (2 * expSeries 90 0 (2 ^ 256) (f * ln2 / 2 ^ k) + 1) (i - 257), 0)

/-- `n` bits of the base-2 logarithm of `y / 2^500`, which lies from 1 to 2. -/
def log2Bits : Nat → Nat → Nat → Nat
  | 0, _, acc => acc
  | n + 1, y, acc =>
    let z := y * y / 2 ^ 500
    if 2 ^ 501 ≤ z then log2Bits n (z / 2) (2 * acc + 1) else log2Bits n z (2 * acc)

/-- log2 a (R210, R244): exact for a power of two. -/
def log2Val (a : Val) : Val × Nat :=
  match a with
  | .nan s => (.nan false, sigFlag [.nan s])
  | .inf n => if n then (.nan false, flNV) else (.inf false, 0)
  | .num n m e =>
    if m = 0 then (.inf true, flDZ)
    else if n then (.nan false, flNV)
    else
      let i : Int := e + m.log2
      if m = 2 ^ m.log2 then (.num (decide (i < 0)) i.natAbs 0, 0)
      else
        let l : Int := log2Bits 150 (m * 2 ^ 500 / 2 ^ m.log2) 0
        let t := 2 * (i * (2 ^ 150 : Nat) + l) + 1
        (.num (decide (t < 0)) t.natAbs (-151), 0)

/-! ## Comparison, minimum and maximum (R140, R210) -/

/-- `a < b` for two values that are not NaNs; the two zeros are equal. -/
def Val.lt (a b : Val) : Bool :=
  match a, b with
  | .inf n, .inf n' => n && !n'
  | .inf n, .num _ _ _ => n
  | .num _ _ _, .inf n' => !n'
  | .num n m e, .num n' m' e' => let lo := min e e'; decide (scaled n m e lo < scaled n' m' e' lo)
  | _, _ => false

/-- SFCMP and VFCMP: the result and NV (R140). -/
def fcmp (c : FloatCond) (a b : Val) : Bool × Nat :=
  let nan := a.isNan || b.isNan
  let sig := sigFlag [a, b]
  let any := if nan then flNV else 0
  match c with
  | .eq => (!nan && !a.lt b && !b.lt a, sig)
  | .ne => (nan || a.lt b || b.lt a, sig)
  | .lt => (!nan && a.lt b, any)
  | .le => (!nan && !b.lt a, any)
  | .gt => (!nan && b.lt a, any)
  | .ge => (!nan && !a.lt b, any)
  | .ord => (!nan, sig)
  | .uno => (nan, sig)

/-- FMin and FMax on encodings (R210): −0 lies below +0. -/
def fminmax (F : Fmt) (wantMax : Bool) (x y : Nat) : Nat × Nat :=
  let a := F.decode x
  let b := F.decode y
  let fl := sigFlag [a, b]
  if a.isNan && b.isNan then (F.nan, fl)
  else if a.isNan then (y, fl)
  else if b.isNan then (x, fl)
  else
    let less := a.lt b || (!b.lt a && a.neg? && !b.neg?)
    (if less == wantMax then y else x, fl)

/-! ## Conversion (R207) -/

/-- The signed integer that RoundInt gives for a finite value. -/
def roundInt (mode : Rounding) (neg : Bool) (m : Nat) (e : Int) : Int :=
  let q : Int := roundMag mode neg m e
  if neg then -q else q

/-- The conversion of a value to an integer type of range `lo` to `hi` (R207). -/
def toIntRange (mode : Rounding) (lo hi : Int) (v : Val) : Int × Nat :=
  match v with
  | .nan _ => (0, flNV)
  | .inf n => (if n then lo else hi, flNV)
  | .num n m e =>
    let r := roundInt mode n m e
    if r < lo then (lo, flNV) else if hi < r then (hi, flNV)
    else
      let lo' := min e 0
      (r, if scaled n m e lo' = r * (2 ^ (0 - lo').toNat : Nat) then 0 else flNX)

def valOfInt (x : Int) : Val := .num (decide (x < 0)) x.natAbs 0

/-- The exact value of an element in its type's low bits (R137). -/
def elemVal (t : ElemTy) (x : Nat) : Val :=
  match t.fmt? with
  | some F => F.decode (x % 2 ^ F.bits)
  | none => if t = .i32 then valOfInt (signed 32 x) else valOfInt (x % 2 ^ 32 : Nat)

/-- Convert (R207): the result as 32 bits, zero-extended for every type (a negative i32 in two's complement). -/
def convert (src dst : ElemTy) (mode : Rounding) (sat : Bool) (x : Nat) : Nat × Nat :=
  let v := elemVal src x
  let sig := sigFlag [v]
  match dst.fmt? with
  | some F => let r := roundTo F mode sat v; (r.1, orFl sig r.2)
  | none =>
    let r := if dst = .i32 then toIntRange mode (-2147483648) 2147483647 v else toIntRange mode 0 4294967295 v
    (wrap 32 r.1, orFl sig r.2)

/-! ## Classes and exponents (R247) -/

/-- VFCLASS. -/
def classOf (F : Fmt) (x : Nat) : Nat :=
  match F.decode (x % 2 ^ F.bits) with
  | .nan s => if s then 2 ^ 8 else 2 ^ 9
  | .inf n => if n then 2 ^ 0 else 2 ^ 7
  | .num n m _ =>
    if m = 0 then (if n then 2 ^ 3 else 2 ^ 4)
    else if m < 2 ^ F.man then (if n then 2 ^ 2 else 2 ^ 5) else (if n then 2 ^ 1 else 2 ^ 6)

/-- VFEXPO. -/
def expoOf (x : Nat) : Nat × Nat :=
  match fmtF32.decode x with
  | .nan s => (0x7FFFFFFF, if s then flNV else 0)
  | .inf _ => (0x7FFFFFFF, 0)
  | .num _ 0 _ => (0x80000000, 0)
  | .num _ m e => (wrap 32 (e + m.log2), 0)

/-! ## QF4 (R202, R212, R214) -/

/-- QF4Element as a number of quarters. -/
def qf4Quarters (c x : Nat) : Int :=
  if c = 8 then signed 8 x
  else
    let v : Int := match c % 8 with | 0 => 0 | 1 => 2 | 2 => 4 | 3 => 6 | 4 => 8 | 5 => 12 | 6 => 16 | _ => 24
    if 8 ≤ c then -v else v

/-- An element as an exact value; there is no −0 (R212). -/
def qf4Val (c x : Nat) : Val :=
  let q := qf4Quarters c x
  .num (decide (q < 0)) q.natAbs (-2)

end Sys2Proof
end

