-- ==== Sys2Proof/Decode.lean ====
section
/-! DEFINITION. The decoder (R82 to R101), total on every block and offset and rejecting by name, and after it the
encoder written from the same tables. -/

namespace Sys2Proof

/-! ## Codes of the field tables (R93 to R96 and the entries that define their own) -/

def ElemTy.code : ElemTy → Nat
  | .i32 => 0 | .n32 => 1 | .f32 => 2 | .f16 => 3 | .bf16 => 4 | .e4m3 => 5 | .e5m2 => 6 | .e2m1 => 7
def elemTy? : Nat → Option ElemTy
  | 0 => some .i32 | 1 => some .n32 | 2 => some .f32 | 3 => some .f16
  | 4 => some .bf16 | 5 => some .e4m3 | 6 => some .e5m2 | 7 => some .e2m1 | _ => none
def IntTy.code : IntTy → Nat | .i32 => 0 | .n32 => 1
def intTy? : Nat → Option IntTy | 0 => some .i32 | 1 => some .n32 | _ => none
def FloatTy.code : FloatTy → Nat | .f32 => 2 | .f16 => 3 | .bf16 => 4
def floatTy? : Nat → Option FloatTy | 2 => some .f32 | 3 => some .f16 | 4 => some .bf16 | _ => none
def HalfTy.code : HalfTy → Nat | .f16 => 3 | .bf16 => 4
def halfTy? : Nat → Option HalfTy | 3 => some .f16 | 4 => some .bf16 | _ => none
def Fp8Ty.code : Fp8Ty → Nat | .e4m3 => 5 | .e5m2 => 6
def fp8Ty? : Nat → Option Fp8Ty | 5 => some .e4m3 | 6 => some .e5m2 | _ => none
def ClassTy.code : ClassTy → Nat | .f32 => 2 | .f16 => 3 | .bf16 => 4 | .e4m3 => 5 | .e5m2 => 6
def classTy? : Nat → Option ClassTy
  | 2 => some .f32 | 3 => some .f16 | 4 => some .bf16 | 5 => some .e4m3 | 6 => some .e5m2 | _ => none
def MatTy.code : MatTy → Nat | .bf16 => 4 | .e4m3 => 5 | .e5m2 => 6 | .e2m1 => 7
def matTy? : Nat → Option MatTy | 4 => some .bf16 | 5 => some .e4m3 | 6 => some .e5m2 | 7 => some .e2m1 | _ => none
def Rounding.code : Rounding → Nat | .rne => 0 | .rtz => 1 | .rdn => 2 | .rup => 3
def rounding? : Nat → Option Rounding
  | 0 => some .rne | 1 => some .rtz | 2 => some .rdn | 3 => some .rup | _ => none
def Hint.code : Hint → Nat | .none => 0 | .likely => 1 | .unlikely => 2 | .uniform => 3
def hint? : Nat → Option Hint
  | 0 => some .none | 1 => some .likely | 2 => some .unlikely | 3 => some .uniform | _ => none
def Space.code : Space → Nat | .sh => 0 | .cl => 1 | .sp => 2 | .stk => 3
def space? : Nat → Option Space | 0 => some .sh | 1 => some .cl | 2 => some .sp | 3 => some .stk | _ => none
def WordSpace.code : WordSpace → Nat | .sh => 0 | .cl => 1 | .sp => 2
def wordSpace? : Nat → Option WordSpace | 0 => some .sh | 1 => some .cl | 2 => some .sp | _ => none
def CopySpace.code : CopySpace → Nat | .vm => 0 | .sh => 1 | .cl => 2 | .sp => 3
def copySpace? : Nat → Option CopySpace | 0 => some .vm | 1 => some .sh | 2 => some .cl | 3 => some .sp | _ => none
/-- The copy-space code of the box side of CPYT (R257, R262). -/
def WordSpace.copyCode : WordSpace → Nat | .sh => 1 | .cl => 2 | .sp => 3
def boxSpace? : Nat → Option WordSpace | 1 => some .sh | 2 => some .cl | 3 => some .sp | _ => none
def Size.code : Size → Nat | .b8 => 0 | .b16 => 1 | .b32 => 2 | .b64 => 3 | .b128 => 4 | .i8 => 5 | .i16 => 6
def size? : Nat → Option Size
  | 0 => some .b8 | 1 => some .b16 | 2 => some .b32 | 3 => some .b64 | 4 => some .b128
  | 5 => some .i8 | 6 => some .i16 | _ => none
def Scope.code : Scope → Nat | .grp => 0 | .coh => 1 | .clu => 2 | .die => 3 | .pkg => 4 | .dom => 5
def scope? : Nat → Option Scope
  | 0 => some .grp | 1 => some .coh | 2 => some .clu | 3 => some .die | 4 => some .pkg | 5 => some .dom | _ => none
def Ordering.orderCode : Ordering → Nat
  | .plain => 0 | .acq _ => 1 | .rel _ => 2 | .acqRel _ => 3 | .sc _ => 4
def Ordering.scopeCode : Ordering → Nat
  | .plain => 0 | .acq s => s.code | .rel s => s.code | .acqRel s => s.code | .sc s => s.code
/-- Plain order requires scope code 0 (R96). -/
def ordering? (o s : Nat) : Option Ordering :=
  match o, scope? s with
  | 0, some .grp => some .plain
  | 1, some sc => some (.acq sc)
  | 2, some sc => some (.rel sc)
  | 3, some sc => some (.acqRel sc)
  | 4, some sc => some (.sc sc)
  | _, _ => none
def FenceOrder.code : FenceOrder → Nat | .acq => 1 | .rel => 2 | .acqRel => 3 | .sc => 4
def fenceOrder? : Nat → Option FenceOrder
  | 1 => some .acq | 2 => some .rel | 3 => some .acqRel | 4 => some .sc | _ => none
def IntCond.code : IntCond → Nat
  | .eq => 0 | .ne => 1 | .lt => 2 | .le => 3 | .gt => 4 | .ge => 5 | .tst => 6
def intCond? : Nat → Option IntCond
  | 0 => some .eq | 1 => some .ne | 2 => some .lt | 3 => some .le | 4 => some .gt | 5 => some .ge
  | 6 => some .tst | _ => none
def FloatCond.code : FloatCond → Nat
  | .eq => 0 | .ne => 1 | .lt => 2 | .le => 3 | .gt => 4 | .ge => 5 | .ord => 6 | .uno => 7
def floatCond? : Nat → Option FloatCond
  | 0 => some .eq | 1 => some .ne | 2 => some .lt | 3 => some .le | 4 => some .gt | 5 => some .ge
  | 6 => some .ord | 7 => some .uno | _ => none
def RedFn.code : RedFn → Nat
  | .add => 0 | .min => 1 | .max => 2 | .and => 3 | .or => 4 | .xor => 5 | .mul => 6
def redFn? : Nat → Option RedFn
  | 0 => some .add | 1 => some .min | 2 => some .max | 3 => some .and | 4 => some .or | 5 => some .xor
  | 6 => some .mul | _ => none
def AtomFn.code : AtomFn → Nat
  | .add => 0 | .and => 1 | .or => 2 | .xor => 3 | .min => 4 | .max => 5 | .umin => 6 | .umax => 7
  | .xchg => 8 | .cas => 9 | .fadd => 10
def atomFn? : Nat → Option AtomFn
  | 0 => some .add | 1 => some .and | 2 => some .or | 3 => some .xor | 4 => some .min | 5 => some .max
  | 6 => some .umin | 7 => some .umax | 8 => some .xchg | 9 => some .cas | 10 => some .fadd | _ => none
def VtosMode.code : VtosMode → Nat | .zext => 0 | .sext => 1 | .hi => 2
def vtosMode? : Nat → Option VtosMode | 0 => some .zext | 1 => some .sext | 2 => some .hi | _ => none
def TestMode.code : TestMode → Nat | .any => 0 | .all => 1 | .none => 2
def testMode? : Nat → Option TestMode | 0 => some .any | 1 => some .all | 2 => some .none | _ => none
def RedTy.code : RedTy → Nat | .i32 => 0 | .n32 => 1 | .f32 _ => 2
def RedTy.modCode : RedTy → Nat | .f32 r => r.code | _ => 0
/-- For f32 the mod field holds the rounding code; for the integer types it is zero (R242). -/
def redTy? (t m : Nat) : Option RedTy :=
  match t with
  | 0 => if m == 0 then some .i32 else none
  | 1 => if m == 0 then some .n32 else none
  | 2 => (rounding? m).map .f32
  | _ => none

/-- The number of each system register (R356). -/
def SysReg.number : SysReg → Nat
  | .fstat => 0 | .psig => 1 | .depmask => 2 | .ghelp => 3 | .regbudget => 4 | .stkp => 5 | .stklim => 6
  | .xbound n => 7 + n.toNat | .launchid => 11 | .argloc => 12
  | .xpc => 16 | .xcause => 17 | .xstat => 18 | .xaddr => 19 | .xscr0 => 20 | .xscr1 => 21
  | .xvec => 64 | .wdlimit => 65 | .nametab => 66 | .faultq => 67 | .xlflush => 68
  | .spwin d => 72 + d.toNat | .scrctl => 80 | .scrbase => 81 | .scrwidx => 82 | .scrridx => 83
  | .timebase => 96 | .pgrank => 97 | .mxbudget => 98 | .spbase => 99 | .devrev => 100

/-- Every system register, for the lookup by number. -/
def SysReg.all : List SysReg :=
  [.fstat, .psig, .depmask, .ghelp, .regbudget, .stkp, .stklim, .xbound 0, .xbound 1, .xbound 2, .xbound 3,
   .launchid, .argloc, .xpc, .xcause, .xstat, .xaddr, .xscr0, .xscr1, .xvec, .wdlimit, .nametab, .faultq, .xlflush,
   .spwin 0, .spwin 1, .spwin 2, .spwin 3, .spwin 4, .spwin 5, .spwin 6, .spwin 7,
   .scrctl, .scrbase, .scrwidx, .scrridx, .timebase, .pgrank, .mxbudget, .spbase, .devrev]

/-- The register a number names; a number not listed is unassigned (R356). -/
def sysReg? (n : Nat) : Option SysReg := SysReg.all.find? (fun r => r.number == n)

/-! ## Checks -/

abbrev Dec := Except DecodeCause Instr

/-- A reserved or unaccepted field value raises ILLEGAL_ENCODING (R91). -/
def chk (b : Bool) (r : Dec) : Dec := if b then r else .error .illegalEncoding
/-- A register field out of range raises ILLEGAL_OPERAND (R92), after every field check (R101). -/
def chkOpd (b : Bool) (r : Dec) : Dec := if b then r else .error .illegalOperand
def opt {α : Type} (o : Option α) (k : α → Dec) : Dec :=
  match o with
  | none => .error .illegalEncoding
  | some a => k a

/-! ## Format fields (R90), numbered from bit 0 of the instruction -/

def fSd (w : Nat) : Nat := field w 16 7
def fSa (w : Nat) : Nat := field w 23 7
def fSb (w : Nat) : Nat := field w 30 7
def fFunc8 (w : Nat) : Nat := field w 37 8
def fZeroS (w : Nat) : Nat := field w 45 3
def fImm16 (w : Nat) : Nat := field w 48 16
def fVd (w : Nat) : Nat := field w 16 11
def fVa (w : Nat) : Nat := field w 27 11
def fVb (w : Nat) : Nat := field w 38 11
def fVc (w : Nat) : Nat := field w 49 11

abbrev r7 (n : Nat) : SReg := BitVec.ofNat 7 n
abbrev r11 (n : Nat) : VReg := BitVec.ofNat 11 n

/-- Operand b of the scalar integer mould (R128): I in bit 7 of func8; the unused one of sb and imm16 is zero. -/
def sOperand (w : Nat) : Option SOp :=
  if bitAt (fFunc8 w) 7 then
    if fSb w == 0 then some (.imm (BitVec.ofNat 16 (fImm16 w))) else none
  else
    if fImm16 w == 0 then some (.reg (r7 (fSb w))) else none

/-- The scalar integer mould (R128): `acceptU` when the row accepts U, `acceptK` when it names bits 2:0. -/
def decMould (w : Nat) (acceptU acceptK : Bool) (k : Bool → Nat → SReg → SReg → SOp → Dec) : Dec :=
  let f := fFunc8 w
  chk (fZeroS w == 0 && field f 4 3 == 0 && (acceptU || !bitAt f 3) && (acceptK || field f 0 3 == 0)) <|
    opt (sOperand w) fun b => k (bitAt f 3) (field f 0 3) (r7 (fSd w)) (r7 (fSa w)) b

def decInt (c : Guard → SReg → SReg → SOp → Instr) (w : Nat) (g : Guard) : Dec :=
  decMould w false false fun _ _ sd sa b => .ok (c g sd sa b)
def decIntU (c : Guard → Bool → SReg → SReg → SOp → Instr) (w : Nat) (g : Guard) : Dec :=
  decMould w true false fun u _ sd sa b => .ok (c g u sd sa b)

/-- An S-format instruction whose unlisted fields are zero. -/
def zS (w : Nat) (sd sa sb func imm : Bool) : Bool :=
  fZeroS w == 0 && (sd || fSd w == 0) && (sa || fSa w == 0) && (sb || fSb w == 0)
    && (func || fFunc8 w == 0) && (imm || fImm16 w == 0)

def decSmov (w : Nat) (g : Guard) : Dec :=
  match fFunc8 w with
  | 0 => chk (zS w true true false true false) (.ok (.smov g (r7 (fSd w)) (r7 (fSa w))))
  | 1 => chk (zS w true false false true false) (.ok (.smovGetp g (r7 (fSd w))))
  | 2 => chk (zS w false true false true false) (.ok (.smovSetp g (r7 (fSa w))))
  | _ => .error .illegalEncoding

def decScmp (w : Nat) (g : Guard) : Dec :=
  decMould w true true fun u k _ sa b =>
    opt (intCond? k) fun c => chkOpd (decide (fSd w < 8)) (.ok (.scmp g c u (BitVec.ofNat 3 (fSd w)) sa b))

def decSplog (w : Nat) (g : Guard) : Dec :=
  chk (zS w true true true true false && field (fFunc8 w) 4 4 == 0) <|
    chkOpd (decide (fSd w < 8) && decide (fSa w < 8) && decide (fSb w < 8)) <|
      .ok (.splog g (BitVec.ofNat 4 (field (fFunc8 w) 0 4)) (BitVec.ofNat 3 (fSd w)) (BitVec.ofNat 3 (fSa w))
        (BitVec.ofNat 3 (fSb w)))

/-- The field of SBFX and SBFI (R135): width 1 to 64, pos + width at most 64, bits 15:13 zero. -/
def bitField? (w : Nat) : Option (BitVec 6 × BitVec 7) :=
  let p := field (fImm16 w) 0 6
  let n := field (fImm16 w) 6 7
  if field (fImm16 w) 13 3 == 0 && decide (1 ≤ n) && decide (p + n ≤ 64) then
    some (BitVec.ofNat 6 p, BitVec.ofNat 7 n) else none

def decSbfx (w : Nat) (g : Guard) : Dec :=
  chk (zS w true true false true true && field (fFunc8 w) 0 3 == 0 && field (fFunc8 w) 4 4 == 0) <|
    opt (bitField? w) fun pn => .ok (.sbfx g (bitAt (fFunc8 w) 3) (r7 (fSd w)) (r7 (fSa w)) pn.1 pn.2)
def decSbfi (w : Nat) (g : Guard) : Dec :=
  chk (zS w true true false false true) <|
    opt (bitField? w) fun pn => .ok (.sbfi g (r7 (fSd w)) (r7 (fSa w)) pn.1 pn.2)
def decTwo (c : Guard → SReg → SReg → Instr) (w : Nat) (g : Guard) : Dec :=
  chk (zS w true true false false false) (.ok (c g (r7 (fSd w)) (r7 (fSa w))))
def decSf3 (c : Guard → Rounding → SReg → SReg → SReg → Instr) (w : Nat) (g : Guard) : Dec :=
  chk (zS w true true true true false && field (fFunc8 w) 3 5 == 0) <|
    opt (rounding? (field (fFunc8 w) 0 3)) fun r => .ok (c g r (r7 (fSd w)) (r7 (fSa w)) (r7 (fSb w)))
def decSfcmp (w : Nat) (g : Guard) : Dec :=
  chk (zS w true true true true false && field (fFunc8 w) 3 5 == 0) <|
    opt (floatCond? (field (fFunc8 w) 0 3)) fun c =>
      chkOpd (decide (fSd w < 8)) (.ok (.sfcmp g c (BitVec.ofNat 3 (fSd w)) (r7 (fSa w)) (r7 (fSb w))))
def decSfcvt (w : Nat) (g : Guard) : Dec :=
  chk (zS w true true false true true && field (fFunc8 w) 4 4 == 0 && field (fImm16 w) 6 10 == 0
      && field (fImm16 w) 0 3 != field (fImm16 w) 3 3) <|
    opt (rounding? (field (fFunc8 w) 0 3)) fun r =>
    opt (elemTy? (field (fImm16 w) 0 3)) fun d =>
    opt (elemTy? (field (fImm16 w) 3 3)) fun s =>
      .ok (.sfcvt g s d r (bitAt (fFunc8 w) 3) (r7 (fSd w)) (r7 (fSa w)))

/-- Format SI (R90, R133): only func2 = 0. -/
def decSmovi (w : Nat) (g : Guard) : Dec :=
  chk (field w 30 2 == 0 && fSa w == 0) (.ok (.smovi g (r7 (fSd w)) (BitVec.ofNat 64 (field w 32 64))))
def decSaddi (w : Nat) (g : Guard) : Dec :=
  chk (field w 30 2 == 0) (.ok (.saddi g (r7 (fSd w)) (r7 (fSa w)) (BitVec.ofNat 64 (field w 32 64))))

/-- Format C (R90, R142): bits 63:50 and the low three bits of the offset are zero. -/
def okC (w : Nat) : Bool := field w 50 14 == 0 && field w 16 3 == 0
def decBranch (c : Guard → Hint → Word32 → Instr) (ok : Guard → Bool) (w : Nat) (g : Guard) : Dec :=
  chk (okC w && ok g) <| opt (hint? (field w 48 2)) fun h => .ok (c g h (BitVec.ofNat 32 (field w 16 32)))
def decCall (w : Nat) (g : Guard) : Dec :=
  chk (okC w && field w 48 2 == 0) (.ok (.call g (BitVec.ofNat 32 (field w 16 32))))
def decSaOnly (c : Guard → SReg → Instr) (w : Nat) (g : Guard) : Dec :=
  chk (zS w false true false false false) (.ok (c g (r7 (fSa w))))
def decSdOnly (c : Guard → SReg → Instr) (w : Nat) (g : Guard) : Dec :=
  chk (zS w true false false false false) (.ok (c g (r7 (fSd w))))
def decBare (c : Guard → Instr) (w : Nat) (g : Guard) : Dec :=
  chk (zS w false false false false false) (.ok (c g))
def decSleep (w : Nat) (g : Guard) : Dec :=
  chk (zS w false false true true true && field (fFunc8 w) 0 7 == 0) <|
    opt (sOperand w) fun b => .ok (.sleep g b)

/-! Format V (R90, R226). -/

def vMod (w : Nat) : Nat := field w 58 3
def vType (w : Nat) : Nat := field w 55 3
def vFunc6 (w : Nat) : Nat := field w 49 6
def vNr (w : Nat) : Bool := bitAt w 61
def okV (w : Nat) : Bool := field w 62 2 == 0
/-- mod of the integer mould: .sat in bit 0 and U in bit 2 where accepted, bit 1 zero (R226). -/
def okMod (w : Nat) (sat u : Bool) : Bool :=
  (sat || !bitAt (vMod w) 0) && !bitAt (vMod w) 1 && (u || !bitAt (vMod w) 2)
/-- Operand b under U: the vb field then names a uniform register (R220). -/
def vOperand (w : Nat) : VOp :=
  if bitAt (vMod w) 2 then .uni (r7 (fVb w)) else .vec (r11 (fVb w))
def okVb (w : Nat) : Bool := !bitAt (vMod w) 2 || decide (fVb w < 128)

def decVInt (c : Guard → Bool → IntTy → Bool → VReg → VReg → VOp → Instr) (w : Nat) (g : Guard) : Dec :=
  chk (okV w && vFunc6 w == 0 && okMod w true true) <| opt (intTy? (vType w)) fun t =>
    chkOpd (okVb w) (.ok (c g (vNr w) t (bitAt (vMod w) 0) (r11 (fVd w)) (r11 (fVa w)) (vOperand w)))
def decVIntN (c : Guard → Bool → IntTy → VReg → VReg → VOp → Instr) (w : Nat) (g : Guard) : Dec :=
  chk (okV w && vFunc6 w == 0 && okMod w false true) <| opt (intTy? (vType w)) fun t =>
    chkOpd (okVb w) (.ok (c g (vNr w) t (r11 (fVd w)) (r11 (fVa w)) (vOperand w)))
def decVBit (c : Guard → Bool → VReg → VReg → VOp → Instr) (w : Nat) (g : Guard) : Dec :=
  chk (okV w && vFunc6 w == 0 && okMod w false true && vType w == 0) <|
    chkOpd (okVb w) (.ok (c g (vNr w) (r11 (fVd w)) (r11 (fVa w)) (vOperand w)))
def decVUn (c : Guard → Bool → VReg → VReg → Instr) (w : Nat) (g : Guard) : Dec :=
  chk (okV w && vFunc6 w == 0 && vMod w == 0 && vType w == 0 && fVb w == 0) <|
    .ok (c g (vNr w) (r11 (fVd w)) (r11 (fVa w)))
def decVSat (c : Guard → Bool → Bool → VReg → VReg → Instr) (w : Nat) (g : Guard) : Dec :=
  chk (okV w && vFunc6 w == 0 && okMod w true false && vType w == 0 && fVb w == 0) <|
    .ok (c g (vNr w) (bitAt (vMod w) 0) (r11 (fVd w)) (r11 (fVa w)))
def decVmovx (w : Nat) (g : Guard) : Dec :=
  chk (okV w && vFunc6 w == 0 && vMod w == 0 && vType w == 0 && fVb w == 0) <|
    chkOpd (decide (fVd w < 4)) (.ok (.vmovx g (vNr w) (BitVec.ofNat 2 (fVd w)) (r11 (fVa w))))
def decVstx (w : Nat) (g : Guard) : Dec :=
  chk (okV w && vFunc6 w == 0 && vMod w == 0 && vType w == 0 && fVb w == 0) <|
    chkOpd (decide (fVa w < 4)) (.ok (.vstx g (vNr w) (r11 (fVd w)) (BitVec.ofNat 2 (fVa w))))
def decViota (w : Nat) (g : Guard) : Dec :=
  chk (okV w && vFunc6 w == 0 && decide (vMod w < 2) && vType w == 0 && fVb w == 0 && fVa w == 0) <|
    .ok (.viota g (vNr w) (bitAt (vMod w) 0) (r11 (fVd w)))
def decVcmp (w : Nat) (g : Guard) : Dec :=
  chk (okV w && field (vFunc6 w) 3 3 == 0 && okMod w false true) <| opt (intTy? (vType w)) fun t =>
    opt (intCond? (field (vFunc6 w) 0 3)) fun c =>
      chkOpd (okVb w && decide (fVd w < 12))
        (.ok (.vcmp g (vNr w) c t (BitVec.ofNat 4 (fVd w)) (r11 (fVa w)) (vOperand w)))
def decVplog (w : Nat) (g : Guard) : Dec :=
  chk (okV w && field (vFunc6 w) 4 2 == 0 && vMod w == 0 && vType w == 0) <|
    chkOpd (decide (fVd w < 12) && decide (fVa w < 12) && decide (fVb w < 12)) <|
      .ok (.vplog g (vNr w) (BitVec.ofNat 4 (field (vFunc6 w) 0 4)) (BitVec.ofNat 4 (fVd w)) (BitVec.ofNat 4 (fVa w))
        (BitVec.ofNat 4 (fVb w)))
def decQswap (w : Nat) (g : Guard) : Dec :=
  chk (okV w && field (vFunc6 w) 2 4 == 0 && vMod w == 0 && vType w == 0 && fVb w == 0 && vFunc6 w != 0) <|
    .ok (.qswap g (vNr w) (BitVec.ofNat 2 (vFunc6 w)) (r11 (fVd w)) (r11 (fVa w)))
def decQbcast (w : Nat) (g : Guard) : Dec :=
  chk (okV w && field (vFunc6 w) 2 4 == 0 && vMod w == 0 && vType w == 0 && fVb w == 0) <|
    .ok (.qbcast g (vNr w) (BitVec.ofNat 2 (vFunc6 w)) (r11 (fVd w)) (r11 (fVa w)))
/-- AND, OR and XOR are not accepted on f32 (R242). -/
def redOk (fn : RedFn) (t : RedTy) : Bool :=
  match t, fn with
  | .f32 _, .and => false
  | .f32 _, .or => false
  | .f32 _, .xor => false
  | _, _ => true
def decVred (w : Nat) (g : Guard) : Dec :=
  chk (okV w && field (vFunc6 w) 3 3 == 0 && fVb w == 0) <| opt (redFn? (field (vFunc6 w) 0 3)) fun fn =>
    opt (redTy? (vType w) (vMod w)) fun t =>
      chk (redOk fn t) (.ok (.vred g (vNr w) fn t (r11 (fVd w)) (r11 (fVa w))))
def decVscan (w : Nat) (g : Guard) : Dec :=
  chk (okV w && field (vFunc6 w) 4 2 == 0 && fVb w == 0) <| opt (redFn? (field (vFunc6 w) 0 3)) fun fn =>
    opt (redTy? (vType w) (vMod w)) fun t =>
      chk (redOk fn t) (.ok (.vscan g (vNr w) fn (bitAt (vFunc6 w) 3) t (r11 (fVd w)) (r11 (fVa w))))
def decVballot (w : Nat) (g : Guard) : Dec :=
  chk (okV w && vFunc6 w == 0 && vMod w == 0 && vType w == 0 && fVb w == 0) <|
    chkOpd (decide (fVd w < 128) && decide (fVa w < 12)) <|
      .ok (.vballot g (vNr w) (r7 (fVd w)) (BitVec.ofNat 4 (fVa w)))
def decVtos (w : Nat) (g : Guard) : Dec :=
  chk (okV w && vFunc6 w == 0 && vType w == 0 && fVb w == 0) <| opt (vtosMode? (vMod w)) fun m =>
    chkOpd (decide (fVd w < 128)) (.ok (.vtos g (vNr w) m (r7 (fVd w)) (r11 (fVa w))))
def decStov (w : Nat) (g : Guard) : Dec :=
  chk (okV w && vFunc6 w == 0 && vType w == 0 && fVb w == 0 && decide (vMod w < 2)) <|
    chkOpd (decide (fVa w < 128)) (.ok (.stov g (vNr w) (bitAt (vMod w) 0) (r11 (fVd w)) (r7 (fVa w))))
def decPtest (w : Nat) (g : Guard) : Dec :=
  chk (okV w && vMod w == 0 && vType w == 0 && fVb w == 0) <| opt (testMode? (vFunc6 w)) fun m =>
    chkOpd (decide (fVd w < 8) && decide (fVa w < 12)) <|
      .ok (.ptest g (vNr w) m (BitVec.ofNat 3 (fVd w)) (BitVec.ofNat 4 (fVa w)))
def decVfmm (c : Guard → Bool → FloatTy → VReg → VReg → VOp → Instr) (w : Nat) (g : Guard) : Dec :=
  chk (okV w && vFunc6 w == 0 && okMod w false true) <| opt (floatTy? (vType w)) fun t =>
    chkOpd (okVb w) (.ok (c g (vNr w) t (r11 (fVd w)) (r11 (fVa w)) (vOperand w)))
def decVfun (c : Guard → Bool → FloatTy → VReg → VReg → Instr) (w : Nat) (g : Guard) : Dec :=
  chk (okV w && vFunc6 w == 0 && vMod w == 0 && fVb w == 0) <| opt (floatTy? (vType w)) fun t =>
    .ok (c g (vNr w) t (r11 (fVd w)) (r11 (fVa w)))
def decVfcmp (w : Nat) (g : Guard) : Dec :=
  chk (okV w && field (vFunc6 w) 3 3 == 0 && okMod w false true && vType w == 2) <|
    opt (floatCond? (field (vFunc6 w) 0 3)) fun c =>
      chkOpd (okVb w && decide (fVd w < 12))
        (.ok (.vfcmp g (vNr w) c (BitVec.ofNat 4 (fVd w)) (r11 (fVa w)) (vOperand w)))
def decVfexpo (w : Nat) (g : Guard) : Dec :=
  chk (okV w && vFunc6 w == 0 && vMod w == 0 && fVb w == 0 && vType w == 2) <|
    .ok (.vfexpo g (vNr w) (r11 (fVd w)) (r11 (fVa w)))
def decVfclass (w : Nat) (g : Guard) : Dec :=
  chk (okV w && vFunc6 w == 0 && vMod w == 0 && fVb w == 0) <| opt (classTy? (vType w)) fun t =>
    .ok (.vfclass g (vNr w) t (r11 (fVd w)) (r11 (fVa w)))

/-! Format V4 (R90). -/

def v4Nr (w : Nat) : Bool := bitAt w 76
def v4Ix (w : Nat) : Nat := field w 73 3
def v4Sat (w : Nat) : Bool := bitAt w 72
def v4Round (w : Nat) : Nat := field w 69 3
def v4Type (w : Nat) : Nat := field w 66 3
def v4Func6 (w : Nat) : Nat := field w 60 6
def okV4 (w : Nat) : Bool := field w 77 19 == 0
abbrev ix3 (n : Nat) : Ix := BitVec.ofNat 3 n
/-- The fields a V4 instruction leaves unused are zero; ix3 code 7 is reserved (R62). -/
def zV4 (w : Nat) (func type round sat ix vb vc : Bool) : Bool :=
  okV4 w && (func || v4Func6 w == 0) && (type || v4Type w == 0) && (round || v4Round w == 0)
    && (sat || !v4Sat w) && (if ix then v4Ix w != 7 else v4Ix w == 0) && (vb || fVb w == 0) && (vc || fVc w == 0)

def decVmov (w : Nat) (g : Guard) : Dec :=
  chk (zV4 w true false false false true false false && (v4Func6 w == 0 || v4Ix w == 0)) <|
    .ok (.vmov g (v4Nr w) (ix3 (v4Ix w)) (BitVec.ofNat 6 (v4Func6 w)) (r11 (fVd w)) (r11 (fVa w)))
def decVmad (w : Nat) (g : Guard) : Dec :=
  chk (zV4 w false true false true true true true) <| opt (intTy? (v4Type w)) fun t =>
    .ok (.vmad g (v4Nr w) (ix3 (v4Ix w)) t (v4Sat w) (r11 (fVd w)) (r11 (fVa w)) (r11 (fVb w)) (r11 (fVc w)))
def decV4Four (c : Guard → Bool → Ix → VReg → VReg → VReg → VReg → Instr) (w : Nat) (g : Guard) : Dec :=
  chk (zV4 w false false false false true true true) <|
    .ok (c g (v4Nr w) (ix3 (v4Ix w)) (r11 (fVd w)) (r11 (fVa w)) (r11 (fVb w)) (r11 (fVc w)))
def decVbfx (w : Nat) (g : Guard) : Dec :=
  chk (zV4 w false true false false true true true) <| opt (intTy? (v4Type w)) fun t =>
    .ok (.vbfx g (v4Nr w) (ix3 (v4Ix w)) t (r11 (fVd w)) (r11 (fVa w)) (r11 (fVb w)) (r11 (fVc w)))
def decVperm (w : Nat) (g : Guard) : Dec :=
  chk (zV4 w false false false false false true true) <|
    .ok (.vperm g (v4Nr w) (r11 (fVd w)) (r11 (fVa w)) (r11 (fVb w)) (r11 (fVc w)))
/-- vc is the fill register of .up and .down and unused by .xor and .rot (R240). -/
def shflMode? (w : Nat) : Option ShflMode :=
  match v4Func6 w with
  | 0 => some (.up (r11 (fVc w)))
  | 1 => some (.down (r11 (fVc w)))
  | 2 => if fVc w == 0 then some .xor else none
  | 3 => if fVc w == 0 then some .rot else none
  | _ => none
def decVshfl (w : Nat) (g : Guard) : Dec :=
  chk (zV4 w true false false false false true true) <| opt (shflMode? w) fun m =>
    .ok (.vshfl g (v4Nr w) m (r11 (fVd w)) (r11 (fVa w)) (r11 (fVb w)))
def decVf2 (c : Guard → Bool → Ix → FloatTy → Rounding → Bool → VReg → VReg → VReg → Instr) (w : Nat) (g : Guard) : Dec :=
  chk (zV4 w false true true true true true false) <| opt (floatTy? (v4Type w)) fun t =>
    opt (rounding? (v4Round w)) fun r =>
      .ok (c g (v4Nr w) (ix3 (v4Ix w)) t r (v4Sat w) (r11 (fVd w)) (r11 (fVa w)) (r11 (fVb w)))
def decVfma (w : Nat) (g : Guard) : Dec :=
  chk (zV4 w false true true true true true true) <| opt (floatTy? (v4Type w)) fun t =>
    opt (rounding? (v4Round w)) fun r =>
      .ok (.vfma g (v4Nr w) (ix3 (v4Ix w)) t r (v4Sat w) (r11 (fVd w)) (r11 (fVa w)) (r11 (fVb w)) (r11 (fVc w)))
def decVf1 (c : Guard → Bool → Ix → Rounding → Bool → VReg → VReg → Instr) (w : Nat) (g : Guard) : Dec :=
  chk (zV4 w false true true true true false false && v4Type w == 2) <| opt (rounding? (v4Round w)) fun r =>
    .ok (c g (v4Nr w) (ix3 (v4Ix w)) r (v4Sat w) (r11 (fVd w)) (r11 (fVa w)))
def decVf2f (c : Guard → Bool → Ix → Rounding → Bool → VReg → VReg → VReg → Instr) (w : Nat) (g : Guard) : Dec :=
  chk (zV4 w false true true true true true false && v4Type w == 2) <| opt (rounding? (v4Round w)) fun r =>
    .ok (c g (v4Nr w) (ix3 (v4Ix w)) r (v4Sat w) (r11 (fVd w)) (r11 (fVa w)) (r11 (fVb w)))
def decVcvt (w : Nat) (g : Guard) : Dec :=
  chk (zV4 w true true true true true false false && field (v4Func6 w) 3 3 == 0
      && field (v4Func6 w) 0 3 != v4Type w) <|
    opt (elemTy? (field (v4Func6 w) 0 3)) fun s => opt (elemTy? (v4Type w)) fun d =>
    opt (rounding? (v4Round w)) fun r =>
      .ok (.vcvt g (v4Nr w) (ix3 (v4Ix w)) s d r (v4Sat w) (r11 (fVd w)) (r11 (fVa w)))
def decVpack2 (w : Nat) (g : Guard) : Dec :=
  chk (zV4 w false true true true false true false) <| opt (halfTy? (v4Type w)) fun t =>
    opt (rounding? (v4Round w)) fun r =>
      .ok (.vpack2 g (v4Nr w) t r (v4Sat w) (r11 (fVd w)) (r11 (fVa w)) (r11 (fVb w)))
def decVunpack2 (w : Nat) (g : Guard) : Dec :=
  chk (zV4 w false true false false false false false) <| opt (halfTy? (v4Type w)) fun t =>
    .ok (.vunpack2 g (v4Nr w) t (r11 (fVd w)) (r11 (fVa w)))
def decVpack4 (w : Nat) (g : Guard) : Dec :=
  chk (zV4 w false true true true false false false) <| opt (fp8Ty? (v4Type w)) fun t =>
    opt (rounding? (v4Round w)) fun r => .ok (.vpack4 g (v4Nr w) t r (v4Sat w) (r11 (fVd w)) (r11 (fVa w)))
def decVunpack4 (w : Nat) (g : Guard) : Dec :=
  chk (zV4 w false true false false false false false) <| opt (fp8Ty? (v4Type w)) fun t =>
    .ok (.vunpack4 g (v4Nr w) t (r11 (fVd w)) (r11 (fVa w)))
def decVqpack (w : Nat) (g : Guard) : Dec :=
  chk (zV4 w false true true false false false false && v4Type w == 7) <| opt (rounding? (v4Round w)) fun r =>
    .ok (.vqpack g (v4Nr w) r (r11 (fVd w)) (r11 (fVa w)))
def decVqunpk (w : Nat) (g : Guard) : Dec :=
  chk (zV4 w false true false false false false false && v4Type w == 7) <|
    .ok (.vqunpk g (v4Nr w) (r11 (fVd w)) (r11 (fVa w)))
def decVdot2 (w : Nat) (g : Guard) : Dec :=
  chk (zV4 w false true true true false true true) <| opt (halfTy? (v4Type w)) fun t =>
    opt (rounding? (v4Round w)) fun r =>
      .ok (.vdot2 g (v4Nr w) t r (v4Sat w) (r11 (fVd w)) (r11 (fVa w)) (r11 (fVb w)) (r11 (fVc w)))
def decVdot4 (w : Nat) (g : Guard) : Dec :=
  chk (zV4 w false true true true false true true) <| opt (fp8Ty? (v4Type w)) fun t =>
    opt (rounding? (v4Round w)) fun r =>
      .ok (.vdot4 g (v4Nr w) t r (v4Sat w) (r11 (fVd w)) (r11 (fVa w)) (r11 (fVb w)) (r11 (fVc w)))

/-- Format VI (R90, R229). -/
def decVmovi (w : Nat) (g : Guard) : Dec :=
  chk (field w 54 10 == 0 && field w 47 3 == 0 && field w 38 6 == 0 && fVa w == 0
      && (field w 50 3 == 0 || field w 50 3 == 5 || field w 50 3 == 6) && decide (field w 44 3 < 3)) <|
    opt (elemTy? (field w 44 3)) fun t =>
      .ok (.vmovi g (bitAt w 53) (ix3 (field w 50 3)) t (r11 (fVd w)) (BitVec.ofNat 32 (field w 64 32)))

/-! Format M (R90, R180, R181). -/

def mOff (w : Nat) : Nat := field w 64 24
def mC (w : Nat) : Bool := bitAt w 57
def mScope (w : Nat) : Nat := field w 54 3
def mOrder (w : Nat) : Nat := field w 51 3
def mSize (w : Nat) : Nat := field w 48 3
def mSpace (w : Nat) : Nat := field w 45 3
def mVo (w : Nat) : Nat := field w 34 11
def mBase (w : Nat) : Nat := field w 27 7
def mData (w : Nat) : Nat := field w 16 11
def okM (w : Nat) : Bool := field w 88 8 == 0 && field w 58 6 == 0
/-- A vo of 0x7FF names no register (R180). -/
def mVo? (w : Nat) : Option VReg := if mVo w == 0x7FF then none else some (r11 (mVo w))
/-- .stk accepts plain order only (R181). -/
def stkOk (s : Space) (o : Ordering) : Bool :=
  match s, o with
  | .stk, .plain => true
  | .stk, _ => false
  | _, _ => true
def loadOrder (o : Ordering) : Bool :=
  match o with
  | .plain => true | .acq _ => true | .sc _ => true | _ => false
def storeOrder (o : Ordering) : Bool :=
  match o with
  | .plain => true | .rel _ => true | .sc _ => true | _ => false
def storeSize (s : Size) : Bool :=
  match s with
  | .i8 => false | .i16 => false | _ => true
def scalarSize (s : Size) : Bool :=
  match s with
  | .b128 => false | _ => true
def vldcSize (s : Size) : Bool :=
  match s with
  | .b32 => true | .b64 => true | .b128 => true | _ => false

def decVMem (store : Bool)
    (c : Guard → Space → Size → Ordering → VReg → SReg → Option VReg → BitVec 24 → Instr) (w : Nat) (g : Guard) : Dec :=
  chk (okM w && !mC w) <| opt (space? (mSpace w)) fun s => opt (size? (mSize w)) fun z =>
    opt (ordering? (mOrder w) (mScope w)) fun o =>
      chk (stkOk s o && (if store then storeOrder o && storeSize z else loadOrder o)) <|
        .ok (c g s z o (r11 (mData w)) (r7 (mBase w)) (mVo? w) (BitVec.ofNat 24 (mOff w)))
def decSMem (store : Bool)
    (c : Guard → Space → Size → Ordering → SReg → SReg → BitVec 24 → Instr) (w : Nat) (g : Guard) : Dec :=
  chk (okM w && !mC w && mVo w == 0) <| opt (space? (mSpace w)) fun s => opt (size? (mSize w)) fun z =>
    opt (ordering? (mOrder w) (mScope w)) fun o =>
      chk (stkOk s o && scalarSize z && (if store then storeOrder o && storeSize z else loadOrder o)) <|
        chkOpd (decide (mData w < 128)) <|
          .ok (c g s z o (r7 (mData w)) (r7 (mBase w)) (BitVec.ofNat 24 (mOff w)))
def decVldc (w : Nat) (g : Guard) : Dec :=
  chk (okM w && mOrder w == 0 && mScope w == 0) <| opt (wordSpace? (mSpace w)) fun s => opt (size? (mSize w)) fun z =>
    chk (vldcSize z) <|
      .ok (.vldc g (mC w) s z (r11 (mData w)) (r7 (mBase w)) (mVo? w) (BitVec.ofNat 24 (mOff w)))
/-- Atomics: sizes .b32 and .b64, and .fadd on .b32 only (R187). -/
def atomSize? (z : Nat) : Option Bool :=
  match z with
  | 2 => some false | 3 => some true | _ => none
def faddOk (fn : AtomFn) (b64 : Bool) : Bool :=
  match fn with
  | .fadd => !b64 | _ => true
def decVatom (w : Nat) (g : Guard) : Dec :=
  chk (okM w) <| opt (wordSpace? (mSpace w)) fun s => opt (atomSize? (mSize w)) fun z =>
    opt (ordering? (mOrder w) (mScope w)) fun o => opt (atomFn? (field (mOff w) 20 4)) fun fn =>
      chk (faddOk fn z) <|
        .ok (.vatom g fn (mC w) s z o (r11 (mData w)) (r7 (mBase w)) (mVo? w) (BitVec.ofNat 20 (mOff w)))
def decSatom (w : Nat) (g : Guard) : Dec :=
  chk (okM w && mVo w == 0) <| opt (wordSpace? (mSpace w)) fun s => opt (atomSize? (mSize w)) fun z =>
    opt (ordering? (mOrder w) (mScope w)) fun o => opt (atomFn? (field (mOff w) 20 4)) fun fn =>
      chk (faddOk fn z) <|
        chkOpd (decide (mData w < 128) && !(fn == .cas && mData w == 127)) <|
          .ok (.satom g fn (mC w) s z o (r7 (mData w)) (r7 (mBase w)) (BitVec.ofNat 20 (mOff w)))
def decStack (c : Guard → VReg → BitVec 24 → Instr) (w : Nat) (g : Guard) : Dec :=
  chk (okM w && !mC w && mScope w == 0 && mOrder w == 0 && mSize w == 0 && mSpace w == 3 && mVo w == 0 && mBase w == 0
      && decide (1 ≤ mOff w) && decide (mOff w ≤ 1536)) <|
    .ok (c g (r11 (mData w)) (BitVec.ofNat 24 (mOff w)))
def decFence (w : Nat) (g : Guard) : Dec :=
  chk (okM w && !mC w && mSize w == 0 && mSpace w == 0 && mVo w == 0 && mBase w == 0 && mData w == 0 && mOff w == 0) <|
    opt (fenceOrder? (mOrder w)) fun o => opt (scope? (mScope w)) fun s => .ok (.fence g o s)
def decTspawn (w : Nat) (g : Guard) : Dec :=
  chk (okM w && !mC w && mScope w == 0 && mOrder w == 0 && mSize w == 0 && mSpace w == 2) <|
    chkOpd (mBase w != 127) <|
      .ok (.tspawn g (r11 (mData w)) (r7 (mBase w)) (mVo? w) (BitVec.ofNat 24 (mOff w)))

/-! Format E (R90). -/

def eF (w k : Nat) : Nat := field w (16 + 7 * k) 7
def eFunc8 (w : Nat) : Nat := field w 58 8
def eImm (w : Nat) : Nat := field w 96 32
def okE (w : Nat) : Bool := field w 66 30 == 0
def eReg (w k : Nat) : SReg := r7 (eF w k)
def eImm32 (w : Nat) : Word32 := BitVec.ofNat 32 (eImm w)

/-- The acquire scope of WAITW: scope bits must be 0 when bit 7 of func8 is 0 (R191). -/
def waitScope? (w : Nat) : Option (Option Scope) :=
  if bitAt (eFunc8 w) 7 then (scope? (field (eFunc8 w) 4 3)).map some
  else if field (eFunc8 w) 4 3 == 0 then some none else none
def decWaitw (w : Nat) (g : Guard) : Dec :=
  chk (okE w && eF w 5 == 0) <| opt (wordSpace? (field (eFunc8 w) 0 3)) fun s => opt (waitScope? w) fun a =>
    chkOpd (decide (eF w 4 < 8)) <|
      .ok (.waitw g a s (bitAt (eFunc8 w) 3) (eReg w 0) (eReg w 1) (eReg w 2) (eReg w 3) (BitVec.ofNat 3 (eF w 4))
        (eImm32 w))
def decCbinit (w : Nat) (g : Guard) : Dec :=
  chk (okE w && field (eFunc8 w) 0 4 == 0 && field (eFunc8 w) 5 3 == 0 && eF w 3 == 0 && eF w 4 == 0 && eF w 5 == 0) <|
    .ok (.cbinit g (bitAt (eFunc8 w) 4) (eReg w 0) (eReg w 1) (eReg w 2) (eImm32 w))
def okCb (w : Nat) (bit0 : Bool) : Bool := okE w && field (eFunc8 w) 5 3 == 0 && (bit0 || !bitAt (eFunc8 w) 0)
def cbScope? (w : Nat) : Option Scope := scope? (field (eFunc8 w) 1 3)
def decCbexpect (w : Nat) (g : Guard) : Dec :=
  chk (okCb w true && (bitAt (eFunc8 w) 0 || eF w 2 == 0) && eF w 3 == 0 && eF w 4 == 0 && eF w 5 == 0) <|
    opt (cbScope? w) fun s =>
      .ok (.cbexpect g (if bitAt (eFunc8 w) 0 then some (eReg w 2) else none) s (bitAt (eFunc8 w) 4) (eReg w 0) (eReg w 1)
        (eImm32 w))
def decCbarrive (w : Nat) (g : Guard) : Dec :=
  chk (okCb w true && eF w 2 == 0 && eF w 3 == 0 && eF w 4 == 0 && eF w 5 == 0) <| opt (cbScope? w) fun s =>
    .ok (.cbarrive g (bitAt (eFunc8 w) 0) s (bitAt (eFunc8 w) 4) (eReg w 0) (eReg w 1) (eImm32 w))
def decCbwait (w : Nat) (g : Guard) : Dec :=
  chk (okCb w false && eF w 2 == 0 && eF w 3 == 0 && eF w 4 == 0 && eF w 5 == 0) <| opt (cbScope? w) fun s =>
    .ok (.cbwait g s (bitAt (eFunc8 w) 4) (eReg w 0) (eReg w 1) (eImm32 w))
def decCbtest (w : Nat) (g : Guard) : Dec :=
  chk (okCb w false && eF w 4 == 0 && eF w 5 == 0) <| opt (cbScope? w) fun s =>
    chkOpd (decide (eF w 2 < 8)) <|
      .ok (.cbtest g s (bitAt (eFunc8 w) 4) (BitVec.ofNat 3 (eF w 2)) (eReg w 3) (eReg w 0) (eReg w 1) (eImm32 w))
def decRlock (w : Nat) (g : Guard) : Dec :=
  chk (okE w && field (eFunc8 w) 3 5 == 0 && eF w 3 == 0 && eF w 4 == 0 && eF w 5 == 0) <|
    opt (wordSpace? (field (eFunc8 w) 0 3)) fun s => .ok (.rlock g s (eReg w 0) (eReg w 1) (eReg w 2) (eImm32 w))
def decRunlock (w : Nat) (g : Guard) : Dec :=
  chk (okE w && eFunc8 w == 0 && eImm w == 0 && eF w 1 == 0 && eF w 2 == 0 && eF w 3 == 0 && eF w 4 == 0 && eF w 5 == 0)
    (.ok (.runlock g (eReg w 0)))

/-- The count barrier of a copy (R259): .cb or .cbcl when bit 7 of func8 is set. -/
def cbRef? (w : Nat) : Option (Option CbRef) :=
  if bitAt (eFunc8 w) 7 then some (some ⟨bitAt (eImm w) 3, eReg w 4⟩)
  else if eF w 4 == 0 && !bitAt (eImm w) 3 then some none else none
/-- The flag register of a copy (R259). -/
def flag? (w : Nat) : Option (Option SReg) :=
  if bitAt (eFunc8 w) 6 then some (some (eReg w 5)) else if eF w 5 == 0 then some none else none
/-- S[sF + 1] holds the flag value, so sF = 127 is out of range. -/
def flagOk (f : Option SReg) : Bool := f != some 127
def decCpy (w : Nat) (g : Guard) : Dec :=
  chk (okE w && field (eImm w) 4 28 == 0) <| opt (copySpace? (field (eFunc8 w) 0 3)) fun d =>
    opt (copySpace? (field (eFunc8 w) 3 3)) fun s => opt (scope? (field (eImm w) 0 3)) fun sc =>
    opt (cbRef? w) fun cb => opt (flag? w) fun f =>
      chkOpd (flagOk f) (.ok (.cpy g d s sc (eReg w 0) (eReg w 1) (eReg w 2) (eReg w 3) cb f))
def decCpyt (w : Nat) (g : Guard) : Dec :=
  let scatter := bitAt (eImm w) 4
  let box := if scatter then field (eFunc8 w) 3 3 else field (eFunc8 w) 0 3
  let ten := if scatter then field (eFunc8 w) 0 3 else field (eFunc8 w) 3 3
  chk (okE w && field (eImm w) 5 27 == 0 && ten == 0) <| opt (boxSpace? box) fun b =>
    opt (scope? (field (eImm w) 0 3)) fun sc => opt (cbRef? w) fun cb => opt (flag? w) fun f =>
      chkOpd (flagOk f && eF w 2 != 127) (.ok (.cpyt g scatter b sc (eReg w 0) (eReg w 1) (eReg w 2) (eReg w 3) cb f))
def decCpym (w : Nat) (g : Guard) : Dec :=
  chk (okE w && field (eFunc8 w) 0 3 == 0 && field (eFunc8 w) 6 2 == 0 && field (eImm w) 4 28 == 0 && eF w 4 == 0
      && field (eFunc8 w) 3 3 != 2) <| opt (copySpace? (field (eFunc8 w) 3 3)) fun s =>
    .ok (.cpym g s (eReg w 0) (eReg w 1) (eReg w 2) (eReg w 3) (eReg w 5) (BitVec.ofNat 4 (eImm w)))
def decCpytest (w : Nat) (g : Guard) : Dec :=
  chk (zS w true true false false false) <|
    chkOpd (decide (fSd w < 8)) (.ok (.cpytest g (BitVec.ofNat 3 (fSd w)) (r7 (fSa w))))

def decMacq (w : Nat) (g : Guard) : Dec :=
  chk (zS w true false true true true && decide (1 ≤ fImm16 w) && decide (fImm16 w ≤ 6) && field (fFunc8 w) 1 7 == 0
      && (bitAt (fFunc8 w) 0 || fSb w == 0)) <|
    if bitAt (fFunc8 w) 0 then .ok (.macqTeam g (r7 (fSd w)) (BitVec.ofNat 16 (fImm16 w)) (r7 (fSb w)))
    else .ok (.macq g (r7 (fSd w)) (BitVec.ofNat 16 (fImm16 w)))
def decMgrow (w : Nat) (g : Guard) : Dec :=
  chk (zS w true false false false true && decide (1 ≤ fImm16 w) && decide (fImm16 w ≤ 5)) <|
    .ok (.mgrow g (r7 (fSd w)) (BitVec.ofNat 16 (fImm16 w)))
def decMzero (w : Nat) (g : Guard) : Dec :=
  chk (zS w true false false false true) <|
    chkOpd (decide (fImm16 w < 6)) (.ok (.mzero g (r7 (fSd w)) (BitVec.ofNat 3 (fImm16 w))))
/-- The format pairs MLOOP accepts (R284). -/
def pairOk (a b : MatTy) : Bool :=
  match a, b with
  | .bf16, .bf16 => true
  | .e4m3, .e4m3 => true | .e4m3, .e5m2 => true | .e5m2, .e4m3 => true | .e5m2, .e5m2 => true
  | .e2m1, .e2m1 => true
  | _, _ => false
def decMloop (w : Nat) (g : Guard) : Dec :=
  chk (okE w && !bitAt (eFunc8 w) 7 && field (eImm w) 25 7 == 0 && eF w 5 == 0) <|
    opt (matTy? (field (eFunc8 w) 0 3)) fun fa => opt (matTy? (field (eFunc8 w) 3 3)) fun fb =>
      chk (pairOk fa fb && (!bitAt (eFunc8 w) 6 || (fa == .e2m1 && field (eImm w) 22 3 == 0))
          && (fa == .e2m1 || eF w 3 == 0) && (fb == .e2m1 || eF w 4 == 0)) <|
        chkOpd (decide (field (eImm w) 22 3 < 6)) <|
          .ok (.mloop g fa fb (bitAt (eFunc8 w) 6) (eReg w 0) (eReg w 1) (eReg w 2) (eReg w 3) (eReg w 4)
            (r11 (field (eImm w) 0 11)) (BitVec.ofNat 11 (field (eImm w) 11 11)) (BitVec.ofNat 3 (field (eImm w) 22 3)))
def decMsacc (w : Nat) (g : Guard) : Dec :=
  chk (okE w && eFunc8 w == 0 && field (eImm w) 3 29 == 0 && eF w 4 == 0 && eF w 5 == 0) <|
    chkOpd (decide (eImm w < 6)) (.ok (.msacc g (eReg w 0) (eReg w 1) (eReg w 2) (eReg w 3) (BitVec.ofNat 3 (eImm w))))
def okMacc (w : Nat) : Bool := okE w && field (eImm w) 3 29 == 0 && eF w 3 == 0 && eF w 4 == 0 && eF w 5 == 0
def decMldacc (w : Nat) (g : Guard) : Dec :=
  chk (okMacc w && field (eFunc8 w) 3 5 == 0) <| opt (floatTy? (field (eFunc8 w) 0 3)) fun t =>
    chkOpd (decide (eImm w < 6)) (.ok (.mldacc g t (eReg w 0) (eReg w 1) (eReg w 2) (BitVec.ofNat 3 (eImm w))))
def decMstacc (w : Nat) (g : Guard) : Dec :=
  chk (okMacc w && !bitAt (eFunc8 w) 7) <| opt (floatTy? (field (eFunc8 w) 0 3)) fun t =>
    opt (rounding? (field (eFunc8 w) 3 3)) fun r =>
      chkOpd (decide (eImm w < 6))
        (.ok (.mstacc g t r (bitAt (eFunc8 w) 6) (eReg w 0) (eReg w 1) (eReg w 2) (BitVec.ofNat 3 (eImm w))))
def decTransfer (c : Guard → SReg → SReg → SReg → SReg → BitVec 4 → Instr) (w : Nat) (g : Guard) : Dec :=
  chk (okE w && eFunc8 w == 0 && eImm w == 0 && eF w 5 == 0) <|
    chkOpd (decide (eF w 4 < 16)) (.ok (c g (eReg w 0) (eReg w 1) (eReg w 2) (eReg w 3) (BitVec.ofNat 4 (eF w 4))))

/-! Names, tasks, rings, launches and the system instructions (R310, R330, R334, R358). -/

/-- These write sd + 1 too, so an sd of 127 is out of range (R310). -/
def decName (c : Guard → SReg → SReg → Instr) (w : Nat) (g : Guard) : Dec :=
  chk (zS w true true false false false) <| chkOpd (fSd w != 127) (.ok (c g (r7 (fSd w)) (r7 (fSa w))))
def decNsignal (w : Nat) (g : Guard) : Dec :=
  chk (zS w true true true true false && field (fFunc8 w) 1 7 == 0 && (!bitAt (fFunc8 w) 0 || fSb w == 0)) <|
    chkOpd (fSd w != 127) <|
      if bitAt (fFunc8 w) 0 then .ok (.nsignalKill g (r7 (fSd w)) (r7 (fSa w)))
      else .ok (.nsignal g (r7 (fSd w)) (r7 (fSa w)) (r7 (fSb w)))
def decNdeposit (w : Nat) (g : Guard) : Dec :=
  chk (zS w true true true false true && decide (fImm16 w < 8)) <| chkOpd (fSd w != 127) <|
    .ok (.ndeposit g (r7 (fSd w)) (r7 (fSa w)) (r7 (fSb w)) (BitVec.ofNat 3 (fImm16 w)))
def timeout? (w : Nat) : Option (Option SReg) :=
  if bitAt (fFunc8 w) 1 then some (some (r7 (fSb w))) else if fSb w == 0 then some none else none
def decNjoin (w : Nat) (g : Guard) : Dec :=
  chk (zS w true true true true false && field (fFunc8 w) 2 6 == 0) <| opt (timeout? w) fun t =>
    chkOpd (fSd w != 127) (.ok (.njoin g (bitAt (fFunc8 w) 0) (r7 (fSd w)) (r7 (fSa w)) t))
def decNpark (w : Nat) (g : Guard) : Dec :=
  chk (zS w true false true true false && field (fFunc8 w) 2 6 == 0 && !bitAt (fFunc8 w) 0) <|
    opt (timeout? w) fun t => .ok (.npark g (r7 (fSd w)) t)
def decTpost (w : Nat) (g : Guard) : Dec :=
  chk (zS w false true false true false && field (fFunc8 w) 1 7 == 0) (.ok (.tpost g (bitAt (fFunc8 w) 0) (r7 (fSa w))))
def decRingTake (c : Guard → Bool → Scope → WordSpace → SReg → SReg → Instr) (w : Nat) (g : Guard) : Dec :=
  chk (zS w true true false true false && field (fFunc8 w) 6 2 == 0) <|
    opt (wordSpace? (field (fFunc8 w) 0 2)) fun s => opt (scope? (field (fFunc8 w) 3 3)) fun sc =>
      chkOpd (fSd w != 127) (.ok (c g (bitAt (fFunc8 w) 2) sc s (r7 (fSd w)) (r7 (fSa w))))
def decRingGive (c : Guard → Scope → WordSpace → SReg → SReg → SReg → Instr) (w : Nat) (g : Guard) : Dec :=
  chk (zS w true true true true false && field (fFunc8 w) 6 2 == 0 && !bitAt (fFunc8 w) 2) <|
    opt (wordSpace? (field (fFunc8 w) 0 2)) fun s => opt (scope? (field (fFunc8 w) 3 3)) fun sc =>
      .ok (c g sc s (r7 (fSd w)) (r7 (fSa w)) (r7 (fSb w)))
def decImmOnly (c : Guard → BitVec 16 → Instr) (w : Nat) (g : Guard) : Dec :=
  chk (zS w false false false false true) (.ok (c g (BitVec.ofNat 16 (fImm16 w))))
def decSysrd (w : Nat) (g : Guard) : Dec :=
  chk (zS w true false false false true) <| opt (sysReg? (fImm16 w)) fun n => .ok (.sysrd g (r7 (fSd w)) n)
/-- A write of XLFLUSH or SCRRIDX is a row of its own of the table. -/
def decSyswr (w : Nat) (g : Guard) : Dec :=
  chk (zS w false true false false true) <| opt (sysReg? (fImm16 w)) fun n =>
    match n with
    | .xlflush => .ok (.syswrXlflush g (r7 (fSa w)))
    | .scrridx => .ok (.syswrScrridx g (r7 (fSa w)))
    | _ => .ok (.syswr g n (r7 (fSa w)))
def decEvpost (w : Nat) (g : Guard) : Dec :=
  chk (okE w && eFunc8 w == 0 && eF w 4 == 0 && eF w 5 == 0 && field (eImm w) 16 16 == 0)
    (.ok (.evpost g (eReg w 0) (eReg w 1) (eReg w 2) (eReg w 3) (BitVec.ofNat 16 (eImm w))))
def decFretry (w : Nat) (g : Guard) : Dec :=
  chk (zS w true true false true false) <|
    match fFunc8 w with
    | 0 => .ok (.fretry g (r7 (fSd w)) (r7 (fSa w)))
    | 1 => .ok (.fretryExhaust g (r7 (fSd w)) (r7 (fSa w)))
    | 2 => .ok (.fretryFatal g (r7 (fSd w)) (r7 (fSa w)))
    | _ => .error .illegalEncoding

/-! ## The opcode map (R97, R99) -/

/-- One row: opcode, length in bytes, guard class U, and the decoder of its fields. -/
structure OpRow where
  op     : Nat
  len    : Nat
  classU : Bool
  dec    : Nat → Guard → Dec

def brGuard (g : Guard) : Bool := g.code != 15

def scalarRows : List OpRow :=
  [⟨0x000, 8, true, decSmov⟩, ⟨0x001, 12, true, decSmovi⟩, ⟨0x002, 8, true, decInt .sadd⟩, ⟨0x003, 12, true, decSaddi⟩,
   ⟨0x004, 8, true, decInt .ssub⟩, ⟨0x005, 8, true, decInt .smul⟩, ⟨0x006, 8, true, decIntU .smulhi⟩,
   ⟨0x007, 8, true, decIntU .sdiv⟩, ⟨0x008, 8, true, decIntU .srem⟩, ⟨0x009, 8, true, decInt .sand⟩,
   ⟨0x00A, 8, true, decInt .sor⟩, ⟨0x00B, 8, true, decInt .sxor⟩, ⟨0x00C, 8, true, decInt .sshl⟩,
   ⟨0x00D, 8, true, decInt .sshr⟩, ⟨0x00E, 8, true, decInt .sshra⟩, ⟨0x00F, 8, true, decIntU .smin⟩,
   ⟨0x010, 8, true, decIntU .smax⟩,
   ⟨0x011, 8, true, fun w g => decMould w false true fun _ k sd sa b => .ok (.ssel g (BitVec.ofNat 3 k) sd sa b)⟩,
   ⟨0x012, 8, true, decScmp⟩, ⟨0x013, 8, true, decSplog⟩,
   ⟨0x014, 8, true, fun w g => decMould w false true fun _ k sd sa b => .ok (.slea g (BitVec.ofNat 3 k) sd sa b)⟩,
   ⟨0x015, 8, true, decSbfx⟩, ⟨0x016, 8, true, decSbfi⟩, ⟨0x017, 8, true, decTwo .sclz⟩, ⟨0x018, 8, true, decTwo .spopc⟩,
   ⟨0x020, 8, true, decSf3 .sfadd⟩, ⟨0x021, 8, true, decSf3 .sfmul⟩, ⟨0x022, 8, true, decSf3 .sfma⟩,
   ⟨0x023, 8, true, decSfcmp⟩, ⟨0x024, 8, true, decSfcvt⟩]
def controlRows : List OpRow :=
  [⟨0x040, 8, true, decBranch .br brGuard⟩, ⟨0x041, 8, false, decBranch .vbr fun _ => true⟩,
   ⟨0x042, 8, true, decBranch .jmp fun _ => true⟩, ⟨0x043, 8, true, decSaOnly .jmpr⟩, ⟨0x044, 8, true, decCall⟩,
   ⟨0x045, 8, true, decSaOnly .callr⟩, ⟨0x046, 8, true, decSaOnly .ret⟩, ⟨0x047, 8, true, decBare .meet⟩,
   ⟨0x048, 8, false, decBare .fend⟩, ⟨0x049, 8, true, decSaOnly .gexit⟩, ⟨0x04A, 8, true, decBare .yield⟩,
   ⟨0x04B, 8, true, decSleep⟩, ⟨0x05F, 8, false, decBare .nop⟩]
def vectorRows : List OpRow :=
  [⟨0x060, 12, false, decVmov⟩, ⟨0x061, 12, false, decVmovi⟩, ⟨0x062, 8, false, decVmovx⟩, ⟨0x063, 8, false, decVstx⟩,
   ⟨0x064, 8, false, decViota⟩, ⟨0x065, 8, false, decVInt .vadd⟩, ⟨0x066, 8, false, decVInt .vsub⟩,
   ⟨0x067, 8, false, decVInt .vmul⟩, ⟨0x068, 8, false, decVIntN .vmulhi⟩, ⟨0x069, 12, false, decVmad⟩,
   ⟨0x06A, 8, false, decVIntN .vdiv⟩, ⟨0x06B, 8, false, decVIntN .vrem⟩, ⟨0x06C, 8, false, decVBit .vand⟩,
   ⟨0x06D, 8, false, decVBit .vor⟩, ⟨0x06E, 8, false, decVBit .vxor⟩, ⟨0x06F, 8, false, decVUn .vnot⟩,
   ⟨0x070, 8, false, decVBit .vshl⟩, ⟨0x071, 8, false, decVBit .vshr⟩, ⟨0x072, 8, false, decVBit .vshra⟩,
   ⟨0x073, 8, false, decVIntN .vmin⟩, ⟨0x074, 8, false, decVIntN .vmax⟩, ⟨0x075, 8, false, decVSat .vabs⟩,
   ⟨0x076, 8, false, decVSat .vneg⟩, ⟨0x077, 12, false, decV4Four .vsel⟩, ⟨0x078, 8, false, decVcmp⟩,
   ⟨0x079, 8, false, decVplog⟩, ⟨0x07A, 8, false, decVUn .vclz⟩, ⟨0x07B, 8, false, decVUn .vpopc⟩,
   ⟨0x07C, 12, false, decVbfx⟩, ⟨0x07D, 12, false, decV4Four .vbfi⟩, ⟨0x07E, 12, false, decVperm⟩,
   ⟨0x07F, 12, false, decVshfl⟩, ⟨0x080, 8, false, decQswap⟩, ⟨0x081, 8, false, decQbcast⟩, ⟨0x082, 8, false, decVred⟩,
   ⟨0x083, 8, false, decVscan⟩, ⟨0x084, 8, false, decVballot⟩, ⟨0x085, 8, false, decVtos⟩, ⟨0x086, 8, false, decStov⟩,
   ⟨0x087, 8, false, decPtest⟩]
def floatRows : List OpRow :=
  [⟨0x100, 12, false, decVf2 .vfadd⟩, ⟨0x101, 12, false, decVf2 .vfsub⟩, ⟨0x102, 12, false, decVf2 .vfmul⟩,
   ⟨0x103, 12, false, decVfma⟩, ⟨0x104, 8, false, decVfmm .vfmin⟩, ⟨0x105, 8, false, decVfmm .vfmax⟩,
   ⟨0x106, 8, false, decVfun .vfabs⟩, ⟨0x107, 8, false, decVfun .vfneg⟩, ⟨0x108, 8, false, decVfcmp⟩,
   ⟨0x109, 12, false, decVf1 .vfrcp⟩, ⟨0x10A, 12, false, decVf1 .vfrsq⟩, ⟨0x10B, 12, false, decVf1 .vfsqrt⟩,
   ⟨0x10C, 12, false, decVf2f .vfdiv⟩, ⟨0x10D, 12, false, decVf1 .vfexp2⟩, ⟨0x10E, 12, false, decVf1 .vflog2⟩,
   ⟨0x10F, 12, false, decVf2f .vfscl⟩, ⟨0x110, 8, false, decVfexpo⟩, ⟨0x111, 8, false, decVfclass⟩,
   ⟨0x120, 12, false, decVcvt⟩, ⟨0x121, 12, false, decVpack2⟩, ⟨0x122, 12, false, decVunpack2⟩,
   ⟨0x123, 12, false, decVpack4⟩, ⟨0x124, 12, false, decVunpack4⟩, ⟨0x125, 12, false, decVqpack⟩,
   ⟨0x126, 12, false, decVqunpk⟩, ⟨0x130, 12, false, decVdot2⟩, ⟨0x131, 12, false, decVdot4⟩]
def memoryRows : List OpRow :=
  [⟨0x180, 12, false, decVMem false .vld⟩, ⟨0x181, 12, false, decVMem true .vst⟩, ⟨0x182, 12, false, decVldc⟩,
   ⟨0x183, 12, true, decSMem false .sld⟩, ⟨0x184, 12, true, decSMem true .sst⟩, ⟨0x185, 12, false, decVatom⟩,
   ⟨0x186, 12, true, decSatom⟩, ⟨0x187, 12, false, decStack .spushv⟩, ⟨0x188, 12, false, decStack .spopv⟩,
   ⟨0x189, 12, true, decFence⟩, ⟨0x18A, 16, true, decWaitw⟩, ⟨0x18B, 8, true, decBare .bar⟩,
   ⟨0x18C, 8, true, decBare .bara⟩, ⟨0x18D, 8, true, decBare .barw⟩, ⟨0x18E, 16, true, decCbinit⟩,
   ⟨0x18F, 16, true, decCbexpect⟩, ⟨0x190, 16, true, decCbarrive⟩, ⟨0x191, 16, true, decCbwait⟩,
   ⟨0x192, 16, true, decCbtest⟩, ⟨0x193, 16, true, decRlock⟩, ⟨0x194, 16, true, decRunlock⟩]
def engineRows : List OpRow :=
  [⟨0x1C0, 16, true, decCpy⟩, ⟨0x1C1, 16, true, decCpyt⟩, ⟨0x1C2, 16, true, decCpym⟩, ⟨0x1C3, 8, true, decCpytest⟩,
   ⟨0x1C4, 8, true, decMacq⟩, ⟨0x1C5, 8, true, decBare .mrel⟩, ⟨0x1C6, 8, true, decMgrow⟩, ⟨0x1C7, 8, true, decMzero⟩,
   ⟨0x1C8, 16, true, decMloop⟩, ⟨0x1C9, 16, true, decMsacc⟩, ⟨0x1CA, 16, true, decMldacc⟩, ⟨0x1CB, 16, true, decMstacc⟩,
   ⟨0x1CC, 16, true, decTransfer .tsend⟩, ⟨0x1CD, 16, true, decTransfer .trecv⟩]
def threadRows : List OpRow :=
  [⟨0x1E0, 8, true, decSdOnly .nself⟩, ⟨0x1E1, 8, true, decName .nwake⟩, ⟨0x1E2, 8, true, decNsignal⟩,
   ⟨0x1E3, 8, true, decNdeposit⟩, ⟨0x1E4, 8, true, decNjoin⟩, ⟨0x1E5, 8, true, decNpark⟩, ⟨0x1E6, 8, true, decName .nstat⟩,
   ⟨0x1E7, 12, false, decTspawn⟩, ⟨0x1E8, 8, true, decTpost⟩, ⟨0x1E9, 8, true, decBare .tdone⟩,
   ⟨0x1EA, 8, true, decRingTake .rgacq⟩, ⟨0x1EB, 8, true, decRingGive .rgcommit⟩, ⟨0x1EC, 8, true, decRingTake .rgpeek⟩,
   ⟨0x1ED, 8, true, decRingGive .rgrel⟩, ⟨0x1EE, 8, true, decSaOnly .wdnext⟩, ⟨0x1EF, 8, true, decTwo .launch⟩]
def systemRows : List OpRow :=
  [⟨0x1F8, 8, true, decImmOnly .trap⟩, ⟨0x1F9, 8, true, decBare .xret⟩, ⟨0x1FA, 8, true, decSysrd⟩,
   ⟨0x1FB, 8, true, decSyswr⟩, ⟨0x1FC, 8, true, decImmOnly .bkpt⟩, ⟨0x1FD, 8, true, decSaOnly .logmark⟩,
   ⟨0x1FE, 16, true, decEvpost⟩, ⟨0x1FF, 8, true, decFretry⟩]

def opRows : List OpRow :=
  scalarRows ++ controlRows ++ vectorRows ++ floatRows ++ memoryRows ++ engineRows ++ threadRows ++ systemRows

def rowOf (op : Nat) : Option OpRow := opRows.find? (fun r => r.op == op)

/-- The length that LEN encodes (R83). -/
def lenOf (l : Nat) : Option Nat :=
  match l with
  | 0 => some 8 | 1 => some 12 | 2 => some 16 | _ => none

/-- The checks of R101 on the instruction at byte offset `o` of a 32-byte fetch block, up to the register ranges that
do not depend on the budget; the answer is the instruction and its length in bytes. -/
def decodeAt (block : List Byte) (o : Nat) : Except DecodeCause (Instr × Nat) :=
  let lo := ofBytes ((block.drop o).take 2)
  match lenOf (field lo 0 2) with
  | none => .error .illegalEncoding
  | some len =>
    if o + len > 32 then .error .fetchAlign else
    match rowOf (field lo 7 9) with
    | none => .error .illegalOpcode
    | some row =>
      if row.len != len then .error .illegalEncoding else
      let g : Guard := ⟨BitVec.ofNat 4 (field lo 2 4), bitAt lo 6⟩
      if row.classU && decide (g.code.toNat < 12) then .error .illegalEncoding else
      match row.dec (ofBytes ((block.drop o).take len)) g with
      | .error c => .error c
      | .ok i => .ok (i, len)

/-- The decoder on a byte string that begins with the instruction, as at offset 0 of a block. -/
def decode (bytes : List Byte) : Except DecodeCause (Instr × Nat) := decodeAt bytes 0

/-- The instruction the decoder reads from an instruction whose bits are `w`, numbered from bit 0 of its lowest byte
(R82); bits at and above `nbits` are zero. -/
def decodeTableWord (nbits w : Nat) : Option Instr :=
  match decode (toBytes 32 (w % 2 ^ nbits)) with
  | .ok (i, _) => some i
  | .error _ => none

/-! ## The encoder -/

/-- The common fields (R83); `l` is the LEN code. -/
def packLo (op l : Nat) (g : Guard) : Nat := l + g.code.toNat * 2 ^ 2 + b2n g.sense * 2 ^ 6 + op * 2 ^ 7
def packS (op : Nat) (g : Guard) (sd sa sb func imm : Nat) : Nat × Nat :=
  (8, packLo op 0 g + sd * 2 ^ 16 + sa * 2 ^ 23 + sb * 2 ^ 30 + func * 2 ^ 37 + imm * 2 ^ 48)
def packSI (op : Nat) (g : Guard) (sd sa imm : Nat) : Nat × Nat :=
  (12, packLo op 1 g + sd * 2 ^ 16 + sa * 2 ^ 23 + imm * 2 ^ 32)
def packC (op : Nat) (g : Guard) (off hint : Nat) : Nat × Nat := (8, packLo op 0 g + off * 2 ^ 16 + hint * 2 ^ 48)
def packV (op : Nat) (g : Guard) (nr : Bool) (vd va vb func ty mod : Nat) : Nat × Nat :=
  (8, packLo op 0 g + vd * 2 ^ 16 + va * 2 ^ 27 + vb * 2 ^ 38 + func * 2 ^ 49 + ty * 2 ^ 55 + mod * 2 ^ 58
    + b2n nr * 2 ^ 61)
def packV4 (op : Nat) (g : Guard) (nr : Bool) (vd va vb vc func ty rnd : Nat) (sat : Bool) (ix : Nat) : Nat × Nat :=
  (12, packLo op 1 g + vd * 2 ^ 16 + va * 2 ^ 27 + vb * 2 ^ 38 + vc * 2 ^ 49 + func * 2 ^ 60 + ty * 2 ^ 66
    + rnd * 2 ^ 69 + b2n sat * 2 ^ 72 + ix * 2 ^ 73 + b2n nr * 2 ^ 76)
def packVI (op : Nat) (g : Guard) (nr : Bool) (vd ty ix imm : Nat) : Nat × Nat :=
  (12, packLo op 1 g + vd * 2 ^ 16 + ty * 2 ^ 44 + ix * 2 ^ 50 + b2n nr * 2 ^ 53 + imm * 2 ^ 64)
def packM (op : Nat) (g : Guard) (data base vo space size order scope : Nat) (c : Bool) (off : Nat) : Nat × Nat :=
  (12, packLo op 1 g + data * 2 ^ 16 + base * 2 ^ 27 + vo * 2 ^ 34 + space * 2 ^ 45 + size * 2 ^ 48 + order * 2 ^ 51
    + scope * 2 ^ 54 + b2n c * 2 ^ 57 + off * 2 ^ 64)
def packE (op : Nat) (g : Guard) (a b c d e f func imm : Nat) : Nat × Nat :=
  (16, packLo op 2 g + a * 2 ^ 16 + b * 2 ^ 23 + c * 2 ^ 30 + d * 2 ^ 37 + e * 2 ^ 44 + f * 2 ^ 51 + func * 2 ^ 58
    + imm * 2 ^ 96)

/-- The sb field, bit I and imm16 of operand b (R128). -/
def SOp.sb : SOp → Nat | .reg r => r.toNat | .imm _ => 0
def SOp.i : SOp → Nat | .reg _ => 0 | .imm _ => 128
def SOp.immField : SOp → Nat | .reg _ => 0 | .imm i => i.toNat
def encInt (op : Nat) (g : Guard) (u : Bool) (k sd sa : Nat) (b : SOp) : Nat × Nat :=
  packS op g sd sa b.sb (b.i + b2n u * 8 + k) b.immField
/-- The vb field and bit U of operand b (R220). -/
def VOp.vb : VOp → Nat | .vec r => r.toNat | .uni r => r.toNat
def VOp.u : VOp → Nat | .vec _ => 0 | .uni _ => 4
def encV (op : Nat) (g : Guard) (nr : Bool) (ty func : Nat) (sat : Bool) (vd va : Nat) (b : VOp) : Nat × Nat :=
  packV op g nr vd va b.vb func ty (b2n sat + b.u)
def encVo : Option VReg → Nat | none => 0x7FF | some r => r.toNat
def encFlag : Option SReg → Nat | none => 0 | some r => r.toNat
def encCbReg : Option CbRef → Nat | none => 0 | some c => c.reg.toNat
def encCbBit : Option CbRef → Nat | none => 0 | some c => b2n c.cl * 8
def encWaitScope : Option Scope → Nat | none => 0 | some s => 128 + s.code * 16
def ShflMode.code : ShflMode → Nat | .up _ => 0 | .down _ => 1 | .xor => 2 | .rot => 3
def ShflMode.fill : ShflMode → Nat | .up r => r.toNat | .down r => r.toNat | .xor => 0 | .rot => 0

def encField (pos : BitVec 6) (width : BitVec 7) : Nat := pos.toNat + width.toNat * 64
def encTimeout (t : Option SReg) : Nat := encFlag t
def encMem (op : Nat) (g : Guard) (ms size : Nat) (o : Ordering) (c : Bool) (data base vo off : Nat) : Nat × Nat :=
  packM op g data base vo ms size o.orderCode o.scopeCode c off
def encCopy (op : Nat) (g : Guard) (d s : Nat) (scp : Scope) (scatter : Nat) (a b c e : SReg) (cb : Option CbRef)
    (flag : Option SReg) : Nat × Nat :=
  packE op g a.toNat b.toNat c.toNat e.toNat (encCbReg cb) (encFlag flag)
    (d + s * 8 + b2n flag.isSome * 64 + b2n cb.isSome * 128) (scp.code + encCbBit cb + scatter * 16)
def encCb (op : Nat) (g : Guard) (bit0 : Bool) (scp : Scope) (cl : Bool) (a b c d : Nat) (off : Word32) : Nat × Nat :=
  packE op g a b c d 0 0 (b2n bit0 + scp.code * 2 + b2n cl * 16) off.toNat
def encRing (op : Nat) (g : Guard) (try? : Bool) (scp : Scope) (ms : WordSpace) (sd sa sb : Nat) : Nat × Nat :=
  packS op g sd sa sb (ms.code + b2n try? * 4 + scp.code * 8) 0

/-- The length in bytes and the bits of an instruction, written from the field tables of its entry. The events and host
calls have no encoding. -/
def encode (i : Instr) : Nat × Nat :=
  match i with
  | .smov g sd sa => packS 0x000 g sd.toNat sa.toNat 0 0 0
  | .smovGetp g sd => packS 0x000 g sd.toNat 0 0 1 0
  | .smovSetp g sa => packS 0x000 g 0 sa.toNat 0 2 0
  | .smovi g sd imm => packSI 0x001 g sd.toNat 0 imm.toNat
  | .sadd g sd sa b => encInt 0x002 g false 0 sd.toNat sa.toNat b
  | .saddi g sd sa imm => packSI 0x003 g sd.toNat sa.toNat imm.toNat
  | .ssub g sd sa b => encInt 0x004 g false 0 sd.toNat sa.toNat b
  | .smul g sd sa b => encInt 0x005 g false 0 sd.toNat sa.toNat b
  | .smulhi g uns sd sa b => encInt 0x006 g uns 0 sd.toNat sa.toNat b
  | .sdiv g uns sd sa b => encInt 0x007 g uns 0 sd.toNat sa.toNat b
  | .srem g uns sd sa b => encInt 0x008 g uns 0 sd.toNat sa.toNat b
  | .sand g sd sa b => encInt 0x009 g false 0 sd.toNat sa.toNat b
  | .sor g sd sa b => encInt 0x00A g false 0 sd.toNat sa.toNat b
  | .sxor g sd sa b => encInt 0x00B g false 0 sd.toNat sa.toNat b
  | .sshl g sd sa b => encInt 0x00C g false 0 sd.toNat sa.toNat b
  | .sshr g sd sa b => encInt 0x00D g false 0 sd.toNat sa.toNat b
  | .sshra g sd sa b => encInt 0x00E g false 0 sd.toNat sa.toNat b
  | .smin g uns sd sa b => encInt 0x00F g uns 0 sd.toNat sa.toNat b
  | .smax g uns sd sa b => encInt 0x010 g uns 0 sd.toNat sa.toNat b
  | .ssel g k sd sa b => encInt 0x011 g false k.toNat sd.toNat sa.toNat b
  | .scmp g c uns spd sa b => encInt 0x012 g uns c.code spd.toNat sa.toNat b
  | .splog g t spd spa spb => packS 0x013 g spd.toNat spa.toNat spb.toNat t.toNat 0
  | .slea g k sd sa b => encInt 0x014 g false k.toNat sd.toNat sa.toNat b
  | .sbfx g sx sd sa pos width => packS 0x015 g sd.toNat sa.toNat 0 (b2n sx * 8) (encField pos width)
  | .sbfi g sd sa pos width => packS 0x016 g sd.toNat sa.toNat 0 0 (encField pos width)
  | .sclz g sd sa => packS 0x017 g sd.toNat sa.toNat 0 0 0
  | .spopc g sd sa => packS 0x018 g sd.toNat sa.toNat 0 0 0
  | .sfadd g rnd sd sa sb => packS 0x020 g sd.toNat sa.toNat sb.toNat rnd.code 0
  | .sfmul g rnd sd sa sb => packS 0x021 g sd.toNat sa.toNat sb.toNat rnd.code 0
  | .sfma g rnd sd sa sb => packS 0x022 g sd.toNat sa.toNat sb.toNat rnd.code 0
  | .sfcmp g c spd sa sb => packS 0x023 g spd.toNat sa.toNat sb.toNat c.code 0
  | .sfcvt g src dst rnd sat sd sa => packS 0x024 g sd.toNat sa.toNat 0 (rnd.code + b2n sat * 8) (dst.code + src.code * 8)
  | .br g hint off => packC 0x040 g off.toNat hint.code
  | .vbr g hint off => packC 0x041 g off.toNat hint.code
  | .jmp g hint off => packC 0x042 g off.toNat hint.code
  | .jmpr g sa => packS 0x043 g 0 sa.toNat 0 0 0
  | .call g off => packC 0x044 g off.toNat 0
  | .callr g sa => packS 0x045 g 0 sa.toNat 0 0 0
  | .ret g sa => packS 0x046 g 0 sa.toNat 0 0 0
  | .meet g => packS 0x047 g 0 0 0 0 0
  | .fend g => packS 0x048 g 0 0 0 0 0
  | .gexit g sa => packS 0x049 g 0 sa.toNat 0 0 0
  | .yield g => packS 0x04A g 0 0 0 0 0
  | .sleep g b => packS 0x04B g 0 0 b.sb b.i b.immField
  | .nop g => packS 0x05F g 0 0 0 0 0
  | .vmov g nr ix more vd va => packV4 0x060 g nr vd.toNat va.toNat 0 0 more.toNat 0 0 false ix.toNat
  | .vmovi g nr ix ty vd imm => packVI 0x061 g nr vd.toNat ty.code ix.toNat imm.toNat
  | .vmovx g nr xd va => packV 0x062 g nr xd.toNat va.toNat 0 0 0 0
  | .vstx g nr vd xa => packV 0x063 g nr vd.toNat xa.toNat 0 0 0 0
  | .viota g nr rank vd => packV 0x064 g nr vd.toNat 0 0 0 0 (b2n rank)
  | .vadd g nr ty sat vd va b => encV 0x065 g nr ty.code 0 sat vd.toNat va.toNat b
  | .vsub g nr ty sat vd va b => encV 0x066 g nr ty.code 0 sat vd.toNat va.toNat b
  | .vmul g nr ty sat vd va b => encV 0x067 g nr ty.code 0 sat vd.toNat va.toNat b
  | .vmulhi g nr ty vd va b => encV 0x068 g nr ty.code 0 false vd.toNat va.toNat b
  | .vmad g nr ix ty sat vd va vb vc => packV4 0x069 g nr vd.toNat va.toNat vb.toNat vc.toNat 0 ty.code 0 sat ix.toNat
  | .vdiv g nr ty vd va b => encV 0x06A g nr ty.code 0 false vd.toNat va.toNat b
  | .vrem g nr ty vd va b => encV 0x06B g nr ty.code 0 false vd.toNat va.toNat b
  | .vand g nr vd va b => encV 0x06C g nr 0 0 false vd.toNat va.toNat b
  | .vor g nr vd va b => encV 0x06D g nr 0 0 false vd.toNat va.toNat b
  | .vxor g nr vd va b => encV 0x06E g nr 0 0 false vd.toNat va.toNat b
  | .vnot g nr vd va => packV 0x06F g nr vd.toNat va.toNat 0 0 0 0
  | .vshl g nr vd va b => encV 0x070 g nr 0 0 false vd.toNat va.toNat b
  | .vshr g nr vd va b => encV 0x071 g nr 0 0 false vd.toNat va.toNat b
  | .vshra g nr vd va b => encV 0x072 g nr 0 0 false vd.toNat va.toNat b
  | .vmin g nr ty vd va b => encV 0x073 g nr ty.code 0 false vd.toNat va.toNat b
  | .vmax g nr ty vd va b => encV 0x074 g nr ty.code 0 false vd.toNat va.toNat b
  | .vabs g nr sat vd va => packV 0x075 g nr vd.toNat va.toNat 0 0 0 (b2n sat)
  | .vneg g nr sat vd va => packV 0x076 g nr vd.toNat va.toNat 0 0 0 (b2n sat)
  | .vsel g nr ix vd va vb vc => packV4 0x077 g nr vd.toNat va.toNat vb.toNat vc.toNat 0 0 0 false ix.toNat
  | .vcmp g nr c ty pd va b => encV 0x078 g nr ty.code c.code false pd.toNat va.toNat b
  | .vplog g nr t pd pa pb => packV 0x079 g nr pd.toNat pa.toNat pb.toNat t.toNat 0 0
  | .vclz g nr vd va => packV 0x07A g nr vd.toNat va.toNat 0 0 0 0
  | .vpopc g nr vd va => packV 0x07B g nr vd.toNat va.toNat 0 0 0 0
  | .vbfx g nr ix ty vd va vb vc => packV4 0x07C g nr vd.toNat va.toNat vb.toNat vc.toNat 0 ty.code 0 false ix.toNat
  | .vbfi g nr ix vd va vb vc => packV4 0x07D g nr vd.toNat va.toNat vb.toNat vc.toNat 0 0 0 false ix.toNat
  | .vperm g nr vd va vb vc => packV4 0x07E g nr vd.toNat va.toNat vb.toNat vc.toNat 0 0 0 false 0
  | .vshfl g nr mode vd va vb => packV4 0x07F g nr vd.toNat va.toNat vb.toNat mode.fill mode.code 0 0 false 0
  | .qswap g nr m vd va => packV 0x080 g nr vd.toNat va.toNat 0 m.toNat 0 0
  | .qbcast g nr k vd va => packV 0x081 g nr vd.toNat va.toNat 0 k.toNat 0 0
  | .vred g nr fn ty vd va => packV 0x082 g nr vd.toNat va.toNat 0 fn.code ty.code ty.modCode
  | .vscan g nr fn excl ty vd va => packV 0x083 g nr vd.toNat va.toNat 0 (fn.code + b2n excl * 8) ty.code ty.modCode
  | .vballot g nr sd pa => packV 0x084 g nr sd.toNat pa.toNat 0 0 0 0
  | .vtos g nr mode sd va => packV 0x085 g nr sd.toNat va.toNat 0 0 0 mode.code
  | .stov g nr hi vd sa => packV 0x086 g nr vd.toNat sa.toNat 0 0 0 (b2n hi)
  | .ptest g nr mode spd pa => packV 0x087 g nr spd.toNat pa.toNat 0 mode.code 0 0
  | .vfadd g nr ix ty rnd sat vd va vb => packV4 0x100 g nr vd.toNat va.toNat vb.toNat 0 0 ty.code rnd.code sat ix.toNat
  | .vfsub g nr ix ty rnd sat vd va vb => packV4 0x101 g nr vd.toNat va.toNat vb.toNat 0 0 ty.code rnd.code sat ix.toNat
  | .vfmul g nr ix ty rnd sat vd va vb => packV4 0x102 g nr vd.toNat va.toNat vb.toNat 0 0 ty.code rnd.code sat ix.toNat
  | .vfma g nr ix ty rnd sat vd va vb vc => packV4 0x103 g nr vd.toNat va.toNat vb.toNat vc.toNat 0 ty.code rnd.code sat ix.toNat
  | .vfmin g nr ty vd va b => encV 0x104 g nr ty.code 0 false vd.toNat va.toNat b
  | .vfmax g nr ty vd va b => encV 0x105 g nr ty.code 0 false vd.toNat va.toNat b
  | .vfabs g nr ty vd va => packV 0x106 g nr vd.toNat va.toNat 0 0 ty.code 0
  | .vfneg g nr ty vd va => packV 0x107 g nr vd.toNat va.toNat 0 0 ty.code 0
  | .vfcmp g nr c pd va b => encV 0x108 g nr 2 c.code false pd.toNat va.toNat b
  | .vfrcp g nr ix rnd sat vd va => packV4 0x109 g nr vd.toNat va.toNat 0 0 0 2 rnd.code sat ix.toNat
  | .vfrsq g nr ix rnd sat vd va => packV4 0x10A g nr vd.toNat va.toNat 0 0 0 2 rnd.code sat ix.toNat
  | .vfsqrt g nr ix rnd sat vd va => packV4 0x10B g nr vd.toNat va.toNat 0 0 0 2 rnd.code sat ix.toNat
  | .vfdiv g nr ix rnd sat vd va vb => packV4 0x10C g nr vd.toNat va.toNat vb.toNat 0 0 2 rnd.code sat ix.toNat
  | .vfexp2 g nr ix rnd sat vd va => packV4 0x10D g nr vd.toNat va.toNat 0 0 0 2 rnd.code sat ix.toNat
  | .vflog2 g nr ix rnd sat vd va => packV4 0x10E g nr vd.toNat va.toNat 0 0 0 2 rnd.code sat ix.toNat
  | .vfscl g nr ix rnd sat vd va vb => packV4 0x10F g nr vd.toNat va.toNat vb.toNat 0 0 2 rnd.code sat ix.toNat
  | .vfexpo g nr vd va => packV 0x110 g nr vd.toNat va.toNat 0 0 2 0
  | .vfclass g nr ty vd va => packV 0x111 g nr vd.toNat va.toNat 0 0 ty.code 0
  | .vcvt g nr ix src dst rnd sat vd va => packV4 0x120 g nr vd.toNat va.toNat 0 0 src.code dst.code rnd.code sat ix.toNat
  | .vpack2 g nr ty rnd sat vd va vb => packV4 0x121 g nr vd.toNat va.toNat vb.toNat 0 0 ty.code rnd.code sat 0
  | .vunpack2 g nr ty vd va => packV4 0x122 g nr vd.toNat va.toNat 0 0 0 ty.code 0 false 0
  | .vpack4 g nr ty rnd sat vd va => packV4 0x123 g nr vd.toNat va.toNat 0 0 0 ty.code rnd.code sat 0
  | .vunpack4 g nr ty vd va => packV4 0x124 g nr vd.toNat va.toNat 0 0 0 ty.code 0 false 0
  | .vqpack g nr rnd vd va => packV4 0x125 g nr vd.toNat va.toNat 0 0 0 7 rnd.code false 0
  | .vqunpk g nr vd va => packV4 0x126 g nr vd.toNat va.toNat 0 0 0 7 0 false 0
  | .vdot2 g nr ty rnd sat vd va vb vc => packV4 0x130 g nr vd.toNat va.toNat vb.toNat vc.toNat 0 ty.code rnd.code sat 0
  | .vdot4 g nr ty rnd sat vd va vb vc => packV4 0x131 g nr vd.toNat va.toNat vb.toNat vc.toNat 0 ty.code rnd.code sat 0
  | .vld g ms sz o data base vo off => encMem 0x180 g ms.code sz.code o false data.toNat base.toNat (encVo vo) off.toNat
  | .vst g ms sz o data base vo off => encMem 0x181 g ms.code sz.code o false data.toNat base.toNat (encVo vo) off.toNat
  | .vldc g nr ms sz data base vo off => packM 0x182 g data.toNat base.toNat (encVo vo) ms.code sz.code 0 0 nr off.toNat
  | .sld g ms sz o sd base off => encMem 0x183 g ms.code sz.code o false sd.toNat base.toNat 0 off.toNat
  | .sst g ms sz o sd base off => encMem 0x184 g ms.code sz.code o false sd.toNat base.toNat 0 off.toNat
  | .vatom g fn fetch ms b64 o data base vo off => encMem 0x185 g ms.code (2 + b2n b64) o fetch data.toNat base.toNat (encVo vo) (off.toNat + fn.code * 2 ^ 20)
  | .satom g fn fetch ms b64 o sd base off => encMem 0x186 g ms.code (2 + b2n b64) o fetch sd.toNat base.toNat 0 (off.toNat + fn.code * 2 ^ 20)
  | .spushv g data n => packM 0x187 g data.toNat 0 0 3 0 0 0 false n.toNat
  | .spopv g data n => packM 0x188 g data.toNat 0 0 3 0 0 0 false n.toNat
  | .fence g o sc => packM 0x189 g 0 0 0 0 0 o.code sc.code false 0
  | .waitw g acq ms b64 base sv sc st spd off => packE 0x18A g base.toNat sv.toNat sc.toNat st.toNat spd.toNat 0 (ms.code + b2n b64 * 8 + encWaitScope acq) off.toNat
  | .bar g => packS 0x18B g 0 0 0 0 0
  | .bara g => packS 0x18C g 0 0 0 0 0
  | .barw g => packS 0x18D g 0 0 0 0 0
  | .cbinit g cl base qa qk off => packE 0x18E g base.toNat qa.toNat qk.toNat 0 0 0 (b2n cl * 16) off.toNat
  | .cbexpect g arrive scp cl base cnt off => encCb 0x18F g arrive.isSome scp cl base.toNat cnt.toNat (encFlag arrive) 0 off
  | .cbarrive g ack scp cl base tok off => encCb 0x190 g ack scp cl base.toNat tok.toNat 0 0 off
  | .cbwait g scp cl base tok off => encCb 0x191 g false scp cl base.toNat tok.toNat 0 0 off
  | .cbtest g scp cl spd sf base tok off => encCb 0x192 g false scp cl base.toNat tok.toNat spd.toNat sf.toNat off
  | .rlock g ms base len hd off => packE 0x193 g base.toNat len.toNat hd.toNat 0 0 0 ms.code off.toNat
  | .runlock g hd => packE 0x194 g hd.toNat 0 0 0 0 0 0 0
  | .cpy g dsp ssp scp sd dA sA lA cb flag => encCopy 0x1C0 g dsp.code ssp.code scp 0 sd dA sA lA cb flag
  | .cpyt g scatter box scp sd xA tA cA cb flag => encCopy 0x1C1 g (if scatter then 0 else box.copyCode) (if scatter then box.copyCode else 0) scp (b2n scatter) sd xA tA cA cb flag
  | .cpym g ssp sd fA sA lA aA mask => packE 0x1C2 g sd.toNat fA.toNat sA.toNat lA.toNat 0 aA.toNat (ssp.code * 8) mask.toNat
  | .cpytest g spd sa => packS 0x1C3 g spd.toNat sa.toNat 0 0 0
  | .macq g sd n => packS 0x1C4 g sd.toNat 0 0 0 n.toNat
  | .macqTeam g sd n sm => packS 0x1C4 g sd.toNat 0 sm.toNat 1 n.toNat
  | .mrel g => packS 0x1C5 g 0 0 0 0 0
  | .mgrow g sd n => packS 0x1C6 g sd.toNat 0 0 0 n.toNat
  | .mzero g sd k => packS 0x1C7 g sd.toNat 0 0 0 k.toNat
  | .mloop g fa fb part sd aA iA xA yA vb step k => packE 0x1C8 g sd.toNat aA.toNat iA.toNat xA.toNat yA.toNat 0 (fa.code + fb.code * 8 + b2n part * 64) (vb.toNat + step.toNat * 2 ^ 11 + k.toNat * 2 ^ 22)
  | .msacc g sd pA qA nA k => packE 0x1C9 g sd.toNat pA.toNat qA.toNat nA.toNat 0 0 0 k.toNat
  | .mldacc g ty sd aA rA k => packE 0x1CA g sd.toNat aA.toNat rA.toNat 0 0 0 ty.code k.toNat
  | .mstacc g ty rnd sat sd aA rA k => packE 0x1CB g sd.toNat aA.toNat rA.toNat 0 0 0 (ty.code + rnd.code * 8 + b2n sat * 64) k.toNat
  | .tsend g sd tA lA bA c => packE 0x1CC g sd.toNat tA.toNat lA.toNat bA.toNat c.toNat 0 0 0
  | .trecv g sd tA lA bA c => packE 0x1CD g sd.toNat tA.toNat lA.toNat bA.toNat c.toNat 0 0 0
  | .nself g sd => packS 0x1E0 g sd.toNat 0 0 0 0
  | .nwake g sd sa => packS 0x1E1 g sd.toNat sa.toNat 0 0 0
  | .nsignal g sd sa sb => packS 0x1E2 g sd.toNat sa.toNat sb.toNat 0 0
  | .nsignalKill g sd sa => packS 0x1E2 g sd.toNat sa.toNat 0 1 0
  | .ndeposit g sd sa sb k => packS 0x1E3 g sd.toNat sa.toNat sb.toNat 0 k.toNat
  | .njoin g reap sd sa t => packS 0x1E4 g sd.toNat sa.toNat (encTimeout t) (b2n reap + b2n t.isSome * 2) 0
  | .npark g sd t => packS 0x1E5 g sd.toNat 0 (encTimeout t) (b2n t.isSome * 2) 0
  | .nstat g sd sa => packS 0x1E6 g sd.toNat sa.toNat 0 0 0
  | .tspawn g tag base vo off => packM 0x1E7 g tag.toNat base.toNat (encVo vo) 2 0 0 0 false off.toNat
  | .tpost g pkg sa => packS 0x1E8 g 0 sa.toNat 0 (b2n pkg) 0
  | .tdone g => packS 0x1E9 g 0 0 0 0 0
  | .rgacq g try1 scp ms sd sa => encRing 0x1EA g try1 scp ms sd.toNat sa.toNat 0
  | .rgcommit g scp ms sd sa sb => encRing 0x1EB g false scp ms sd.toNat sa.toNat sb.toNat
  | .rgpeek g try1 scp ms sd sa => encRing 0x1EC g try1 scp ms sd.toNat sa.toNat 0
  | .rgrel g scp ms sd sa sb => encRing 0x1ED g false scp ms sd.toNat sa.toNat sb.toNat
  | .wdnext g sa => packS 0x1EE g 0 sa.toNat 0 0 0
  | .launch g sd sa => packS 0x1EF g sd.toNat sa.toNat 0 0 0
  | .trap g code => packS 0x1F8 g 0 0 0 0 code.toNat
  | .xret g => packS 0x1F9 g 0 0 0 0 0
  | .sysrd g sd n => packS 0x1FA g sd.toNat 0 0 0 n.number
  | .syswr g n sa => packS 0x1FB g 0 sa.toNat 0 0 n.number
  | .syswrXlflush g sa => packS 0x1FB g 0 sa.toNat 0 0 68
  | .syswrScrridx g sa => packS 0x1FB g 0 sa.toNat 0 0 83
  | .bkpt g code => packS 0x1FC g 0 0 0 0 code.toNat
  | .logmark g sa => packS 0x1FD g 0 sa.toNat 0 0 0
  | .evpost g sd nA aA lA code => packE 0x1FE g sd.toNat nA.toNat aA.toNat lA.toNat 0 0 0 code.toNat
  | .fretry g sd sa => packS 0x1FF g sd.toNat sa.toNat 0 0 0
  | .fretryExhaust g sd sa => packS 0x1FF g sd.toNat sa.toNat 0 1 0
  | .fretryFatal g sd sa => packS 0x1FF g sd.toNat sa.toNat 0 2 0
  | .strokeReformation => (0, 0)
  | .groupUrgent _ => (0, 0)
  | .meetRelease _ => (0, 0)
  | .waitwWake _ _ => (0, 0)
  | .waitwTimeout _ _ => (0, 0)
  | .sleepExpiry _ => (0, 0)
  | .nparkTimeout _ _ => (0, 0)
  | .njoinTimeout _ _ => (0, 0)
  | .copyPiece _ _ => (0, 0)
  | .faultQueuePost _ _ => (0, 0)
  | .layoutRecordRead _ => (0, 0)
  | .copyAck _ _ => (0, 0)
  | .copyCompletion _ => (0, 0)
  | .transferPiece _ _ => (0, 0)
  | .transferCompletion _ => (0, 0)
  | .macqQueueGrant _ => (0, 0)
  | .mrelRelease _ _ => (0, 0)
  | .matrixLoopStart _ => (0, 0)
  | .matrixLoopWaitExpiry _ => (0, 0)
  | .matrixBudgetRefill _ => (0, 0)
  | .matrixOpCompletion _ => (0, 0)
  | .deliverWake _ => (0, 0)
  | .deliverSignal _ => (0, 0)
  | .deliverDeposit _ => (0, 0)
  | .deliverKill _ => (0, 0)
  | .deliverJoin _ => (0, 0)
  | .deliverStat _ => (0, 0)
  | .launchAcceptance _ _ => (0, 0)
  | .clusterAdmission _ _ _ _ _ => (0, 0)
  | .admissionWaitExpiry => (0, 0)
  | .preemptStop _ => (0, 0)
  | .cohortSave _ => (0, 0)
  | .registerWriteback _ _ => (0, 0)
  | .groupWritebackComplete _ => (0, 0)
  | .imageSwapOut _ => (0, 0)
  | .imageSwapIn _ => (0, 0)
  | .groupEndFinalise _ => (0, 0)
  | .wdAnswer _ => (0, 0)
  | .taskDispatch _ _ _ => (0, 0)
  | .svcReadBlocks _ _ _ _ => (0, 0)
  | .svcWriteBlocks _ _ _ => (0, 0)
  | .svcFlush _ _ => (0, 0)
  | .svcSendFrame _ _ _ => (0, 0)
  | .svcPostReceive _ _ _ => (0, 0)
  | .contextFatalFault _ _ _ _ => (0, 0)
  | .watchdogExpiry _ => (0, 0)
  | .replayWaitTimeout _ _ _ => (0, 0)
  | .remoteTimeout _ => (0, 0)
  | .counterFlush _ _ => (0, 0)
  | .tracePost _ _ _ _ => (0, 0)
  | .packageReset _ _ _ _ _ => (0, 0)
  | .governorTick _ _ _ => (0, 0)
  | .criticalTemperature _ => (0, 0)
  | .hostOpen _ _ _ => (0, 0)
  | .hostClose _ => (0, 0)
  | .hostCloseKill _ => (0, 0)
  | .hostMap _ _ _ _ _ => (0, 0)
  | .hostWrite _ _ _ _ => (0, 0)
  | .hostRead _ _ _ _ => (0, 0)
  | .hostLaunch _ _ => (0, 0)
  | .hostServiceLaunch _ _ => (0, 0)
  | .nameWake _ _ => (0, 0)
  | .nameSignal _ _ _ => (0, 0)
  | .nameSignalKill _ _ => (0, 0)
  | .nameDeposit _ _ _ _ => (0, 0)
  | .nameJoin _ _ _ _ => (0, 0)
  | .nameGrant _ _ _ _ _ => (0, 0)
  | .nameExit _ _ _ _ => (0, 0)
  | .connect _ _ _ _ => (0, 0)
  | .scrollCtl _ _ _ => (0, 0)
  | .scrollCtlKill _ _ => (0, 0)
  | .scrollCtlContinue _ _ => (0, 0)
  | .eventRead _ _ => (0, 0)
  | .dumpRead _ _ _ => (0, 0)
  | .softErrorCorrected _ => (0, 0)
  | .unassignedOpcode _ => (0, 0)
  | .badcallMessage _ => (0, 0)

/-- An instruction's length in bytes (R90). -/
def Instr.len (i : Instr) : Nat := (encode i).1
/-- The opcode in an encoding (R83). -/
def Instr.opcode (i : Instr) : Nat := field (encode i).2 7 9

/-- The decoder on an encoding. -/
def decodeWord (e : Nat × Nat) : Except DecodeCause (Instr × Nat) := decode (toBytes 32 e.2)

end Sys2Proof
end

