-- ==== Sys2Proof/Config.lean ====
section
/-! DEFINITION. What the package fixes (counts and sizes of "The Quill at a Glance", R15 to R18) and the values the
spec leaves open: constants with no body, so that no proof can see what they are. -/

namespace Sys2Proof.Config

def coresPerPackage : Nat := 256
def diesPerPackage : Nat := 8
def schedulersPerCore : Nat := 4
def groupsPerCore : Nat := 64
def groupsPerScheduler : Nat := 16
def cohortsPerCore : Nat := 16
def sharedPerCore : Nat := 524288
def tileSlots : Nat := 6
def rangeLocks : Nat := 64
def readOnlyLocks : Nat := 32
def copiesPerCore : Nat := 64
def matrixOpsPerCore : Nat := 32
def ownershipQueue : Nat := 16
def faultBuffer : Nat := 512
def readyTable : Nat := 16384
def joinTable : Nat := 1024
def scratchpadPerDie : Nat := 100663296
def inkSets : Nat := 1536
def inkWays : Nat := 4
def blotterSets : Nat := 512
def blotterWays : Nat := 4
def eventQueue : Nat := 4096
def urgentCycles : Nat := 224
def admissionTicks : Nat := 105000
def loopWaitTicks : Nat := 67200
def ticksPerMicrosecond : Nat := 1050

/-- DEVREV FORM of a part, from its fuses (R357). UNVERIFIED: the spec gives no value; log 6. -/
opaque fuseForm : Nat → BitVec 8
/-- DEVREV REV of a part, from its fuses (R357); log 6. -/
opaque fuseRev : Nat → BitVec 8
/-- The serial number of a part, from its fuses (R404); log 6. -/
opaque serial : Nat → BitVec 128
/-- MXBUDGET UNITS that firmware derives from an island's power limit in milliwatts (R294, R400); log 9. -/
opaque mxBudget : Nat → BitVec 32
/-- The limits of the RQ-480M (R400): the power of an island in milliwatts, and the throttle temperature in millidegrees. -/
def islandPower : Nat := 337500
def islandThrottle : Nat := 95000
/-- The pad by which a byte of a confidential context's page is encrypted in memory (R165), for its context, the owner's key
and the physical address; log 51. -/
opaque pagePad : Nat → List (BitVec 8) → Nat → BitVec 8
/-- Where the mailbox of a name entry lies in its window (R298, R299): die and offset / 256; log 12. -/
opaque mailboxPlace : Nat → BitVec 32
/-- The order in which the lanes of one atomic instruction reach a sector (R168), for the n-th such choice; log 10. -/
opaque laneOrder : Nat → List Nat
/-- A 64-bit value the spec leaves open, for the n-th use; log 10. -/
opaque freeValue : Nat → BitVec 64
/-- The hash by which the blotter chooses a set (R72 fixes no function); log 14. -/
opaque blotterHash : List Nat → Nat
/-- The package of the domain that answers at an IPv6 address and port (R388); none for a peer outside it. -/
opaque etherPackage : Nat → Nat → Option Nat
/-- The scratchpad slice (0 to 31, taken modulo 32) that owns an offset of a window (R158 fixes no interleave); log 20. -/
opaque sliceOf : Nat → Nat
/-- How many messages a service holds before it answers FULL (R361 fixes no number; log 31). -/
opaque serviceQueue : Nat
/-- The pad that AES-256-GCM adds to a byte of a dump, for an owner key and the byte's offset (R370); log 43. -/
opaque dumpPad : List Byte → Nat → Byte
/-- SHA-512 of a byte string, and the ECDSA P-521 signature of a part's attestation key over a digest (R404). -/
opaque sha512 : List Byte → Nat
opaque signReport : Nat → Nat → Nat × Nat

end Sys2Proof.Config
end

