-- ==== Sys2Proof/Machine/Table.lean ====
section
/-! DEFINITION. Sparse tables by key: one form for memory, register files and every other collection of numbered things.
The canonical form has strictly rising keys; in a table with a default, no entry equal to that default. -/

namespace Sys2Proof

/-- Entries by key, first match wins. -/
abbrev Tbl (α : Type) := List (Nat × α)

namespace Tbl

variable {α : Type}

def get? : Tbl α → Nat → Option α
  | [], _ => none
  | (j, a) :: t, k => if j = k then some a else get? t k

def put : Tbl α → Nat → α → Tbl α
  | [], k, v => [(k, v)]
  | (j, a) :: t, k, v =>
    if k < j then (k, v) :: (j, a) :: t
    else if k = j then (k, v) :: t
    else (j, a) :: put t k v

def erase : Tbl α → Nat → Tbl α
  | [], _ => []
  | (j, a) :: t, k => if j = k then erase t k else (j, a) :: erase t k

/-- Changes the entry at `k`, if there is one. -/
def adjust (t : Tbl α) (k : Nat) (f : α → α) : Tbl α :=
  match t.get? k with
  | none => t
  | some a => t.put k (f a)

def read (d : α) (t : Tbl α) (k : Nat) : α := (t.get? k).getD d

/-- Writes into a table with default `d`: writing `d` removes the entry. -/
def write [DecidableEq α] (d : α) (t : Tbl α) (k : Nat) (v : α) : Tbl α :=
  if v = d then t.erase k else t.put k v

/-- Strictly rising keys, all at or above `lo`. -/
def risingFrom : Nat → Tbl α → Bool
  | _, [] => true
  | lo, (j, _) :: t => decide (lo ≤ j) && risingFrom (j + 1) t

def rising (t : Tbl α) : Bool := risingFrom 0 t

/-- The canonical form of a table with default `d`. -/
def wf [DecidableEq α] (d : α) (t : Tbl α) : Bool := t.rising && t.all (fun e => decide (e.2 ≠ d))

def keys (t : Tbl α) : List Nat := t.map (·.1)
def values (t : Tbl α) : List α := t.map (·.2)

/-- Applies `f` to every entry. -/
def update (t : Tbl α) (f : Nat → α → α) : Tbl α := t.map fun e => (e.1, f e.1 e.2)

/-- The entries that satisfy `p`. -/
def keep (t : Tbl α) (p : Nat → α → Bool) : Tbl α := t.filter fun e => p e.1 e.2

end Tbl
end Sys2Proof
end

