-- ==== Sys2Proof/Machine/State.lean ====
section
/-! DEFINITION. The state of a Quill package and of its load-store domain, as plain data: everything the spec gives the
machine, and three fields of the model's own (the issuing stroke, the agenda of inputs, the counter of free values). -/

namespace Sys2Proof.Machine

/-! ## Fibres and groups -/

/-- The wait reasons of R54, in the order of their codes. -/
inductive Wait where
  | none | meet | barrier | cbwait | waitw | rgacq | rgpeek | npark | njoin | sleep | trapSplit | scrollFull | engine
  deriving DecidableEq, Repr

/-- What a fibre slot was created as (R30, R32, R48). -/
inductive Slot32 where
  | empty | fibre | helper
  deriving DecidableEq, Repr

/-- A trap that waits under R352; its XADDR is the fibre's wait operand (R54). -/
structure HeldTrap where
  cause : Byte
  plus8 : Bool
  order : Nat
  deriving DecidableEq, Repr

/-- One fibre (R28, R54). `stroke` names the stroke it belongs to by that stroke's lowest fibre at its formation;
`instr` is the instruction that a parked fibre waits in; `skipBp` is the suppression of XSTAT.BPSKIP (R395). -/
structure Fibre where
  kind     : Slot32 := .empty
  ended    : Bool := false
  pc       : Word64 := 0
  wait     : Wait := .none
  operand  : Word64 := 0
  deadline : Nat := 0
  priv     : Bool := false
  inTrap   : Bool := false
  held     : Option HeldTrap := none
  stroke   : Nat := 0
  skipBp   : Bool := false
  instr    : Option Instr := none
  deriving DecidableEq, Repr

/-- The per-group system registers that have storage (R356). -/
structure SysRegs where
  fstat   : Word64 := 0
  psig    : Word64 := 0
  depmask : Word64 := 0
  stkp    : Word64 := 0
  xbound  : Tbl Word64 := []
  argloc  : Word64 := 0
  xpc     : Word64 := 0
  xcause  : Word64 := 0
  xstat   : Word64 := 0
  xaddr   : Word64 := 0
  xscr0   : Word64 := 0
  xscr1   : Word64 := 0
  deriving DecidableEq, Repr

/-- Where a group stands in its life (R51, R152, R299): accepted and never resident; resident; ended with work still in
flight; stopped with its image being written; saved; moved to the second tier; dead. -/
inductive Phase where
  | waiting | resident | ending | stopping | parked | swapped | dead
  deriving DecidableEq, Repr

/-- How a group ended, by the codes of CAUSE (R298). -/
inductive EndCause where
  | none | exit | faulted | killed
  deriving DecidableEq, Repr

/-- A slot of the register map (R64). -/
structure MapSlot where
  entry : Nat
  dirty : Bool
  deriving DecidableEq, Repr

/-- A vector register range held as a source by an engine operation (R78). -/
structure HeldRange where
  first : Nat
  count : Nat
  op    : Nat
  deriving DecidableEq, Repr

/-- A group (R28 to R54). `pending` maps a uniform register to the work whose answer it waits for (R78), `late` holds the
writes of strokes that have returned from a wait meanwhile (R256) and `deposits` the deposits that wait for such a write
(R79), `held` the source ranges of engine operations, `part` an MLOOP.part that waits
for its MSACC (R290); `fresh` says that it has been restored and its strokes have not re-formed since (R405). -/
structure Group where
  ctx       : Nat
  launch    : Nat
  cohort    : Nat
  index     : Nat
  role      : Nat
  name      : Word64 := 0
  phase     : Phase := .waiting
  core      : Nat := 0
  sched     : Nat := 0
  slot      : Nat := 0
  age       : Nat := 0
  lastIssue : Nat := 0
  readyFrom : Nat := 0
  urgent    : Bool := false
  stallFrom : Nat := 0
  favour    : Option (BitVec 32) := none
  fresh     : Bool := false
  budget    : Nat := 1
  stack     : Nat := 0
  s         : Tbl Word64 := []
  v         : Tbl (Lanes 32) := []
  p         : Tbl (BitVec 32) := []
  sp        : BitVec 8 := 0
  x         : Tbl (Lanes 16) := []
  sys       : SysRegs := {}
  fibres    : List Fibre := []
  pending   : Tbl Nat := []
  late      : Tbl Word64 := []
  deposits  : Tbl Word64 := []
  held      : List HeldRange := []
  map       : Tbl MapSlot := []
  evictable : Bool := false
  part      : Option Nat := none
  exit      : Word64 := 0
  cause     : EndCause := .none
  image     : Nat := 0
  deriving DecidableEq, Repr

/-! ## Cohorts, clusters, launches -/

/-- A cohort (R26). `begun` says that it has been resident, `saved` that its image is written, `doneSet` that its completion
bit has been set (R326). -/
structure Cohort where
  ctx     : Nat
  launch  : Nat
  num     : Nat
  cluster : Nat
  member  : Nat
  core    : Option Nat := none
  shared  : Nat := 0
  groups  : List Nat := []
  task    : Bool := false
  phase   : Bool := false
  arrived : Tbl (BitVec 32) := []
  owed    : BitVec 16 := 0
  image   : Nat := 0
  begun   : Bool := false
  saved   : Bool := false
  doneSet : Bool := false
  deriving DecidableEq, Repr

/-- Residency of a cluster (R46, R51). -/
inductive Residency where
  | waiting | resident | stopped | ended
  deriving DecidableEq, Repr

/-- A cluster (R26, R46). `die` bounds where a task group may stand (R331); `target` is the hardware cluster chosen for it
while others stop to make room (R47); `blocking` says that it has waited 100 microseconds as the first (R50); `unlogged`
that REPLAY saw a stop that the log does not hold (R346). -/
structure Cluster where
  ctx      : Nat
  launch   : Nat
  num      : Nat
  cohorts  : List Nat
  pkg      : Nat := 0
  die      : Option Nat := none
  state    : Residency := .waiting
  hw       : Option Nat := none
  target   : Option Nat := none
  waitFrom : Nat := 0
  blocking : Bool := false
  elig     : Bool := false
  unlogged : Bool := false
  since    : Nat := 0
  deriving DecidableEq, Repr

/-- A role entry (R319). -/
structure RoleEntry where
  entry  : Word64
  budget : Nat
  groups : Nat
  fibres : Nat
  team   : Bool
  deriving DecidableEq, Repr

/-- The values of the debug control block that a launch keeps (R393); a feature that is off holds none. -/
structure Debug where
  ring     : Option (Nat × Nat) := none
  sample   : Nat := 0
  breaks   : Option (Nat × Nat) := none
  counters : Option Nat := none
  deriving DecidableEq, Repr

/-- An entry of a process-group table (R385). -/
structure Rank where
  pkg  : Nat
  rank : Nat
  deriving DecidableEq, Repr

/-- An accepted launch (R318, R321); `age` orders launches by acceptance (R47). -/
structure Launch where
  ctx      : Nat
  num      : Nat
  age      : Nat
  prio     : Nat
  creator  : Word64
  service  : Bool
  cluster  : Nat
  depKind  : Nat
  radius   : Nat
  gx : Nat
  gy : Nat
  gz : Nat
  stack    : Nat
  shared   : Nat
  roles    : List RoleEntry
  tx : Nat
  ty : Nat
  tz : Nat
  doneMap  : Option Nat
  prodMap  : Nat
  px : Nat
  py : Nat
  pz : Nat
  ranks    : List Rank := []
  pkg      : Nat := 0
  nextTile : Nat := 0
  dispatched : Nat := 0
  debugOpts : Debug := {}
  deriving DecidableEq, Repr

/-! ## Contexts -/

/-- A record of the host event queue (R379); `body` is its bytes 16 to 31. -/
structure HostEvent where
  kind    : Nat
  pkg     : Nat
  time    : Nat
  body    : List Byte
  message : List Byte := []
  deriving DecidableEq, Repr

/-- A connection register (R388): its peer, the counts of matched transfers since it became UP (R390), and of an end outside
the domain the lengths of the transfers that it has posted since then. -/
structure Conn where
  peer  : Peer
  up    : Bool := false
  sends : Nat := 0
  recvs : Nat := 0
  farSends : List Nat := []
  farRecvs : List Nat := []
  deriving DecidableEq, Repr

/-- A run of issues that RECORD has not closed yet (R341 SCHED). -/
structure Run where
  gid  : Nat
  thread : Word64
  mask : BitVec 32
  pc   : Word64
  len  : Nat
  deriving DecidableEq, Repr

/-- An act that waits for a slot of a full scroll, by the fields of its record (R344); that of a residency names no core, since it
may be offered on several. -/
structure HeldAct where
  source  : Nat
  kind    : Nat
  subject : Word64
  operand : Word64
  deriving DecidableEq, Repr

/-- The scroll registers of a context on one package (R337) and what RECORD and REPLAY keep (R342, R345): the sequence of
each source, the runs of its schedulers, the records consumed out of ring order, and when each source began to wait; and `held`,
the acts of units that came due while the scroll was full, in their order (R344; log 16).
`early` is the first act that came before its record, or found no slot for it, and `clash` says that one met another record, by
index and source; `step` leaves no such act done (R344, R347, R348). -/
structure Scroll where
  mode    : Nat := 0
  noReuse : Bool := false
  frozen  : Bool := false
  high    : Bool := false
  logSize : Nat := 20
  base    : Nat := 0
  widx    : Word32 := 0
  ridx    : Word32 := 0
  seqs    : Tbl Nat := []
  runs    : Tbl Run := []
  taken   : List Nat := []
  waits   : Tbl Nat := []
  held    : List HeldAct := []
  early   : Option HeldAct := none
  clash   : Option (Nat × Nat) := none
  deriving DecidableEq, Repr

/-- What a context has on one package (R380). -/
structure Presence where
  root     : Nat
  poolAt   : Nat := 0
  poolSize : Nat := 0
  alloc    : List (Nat × Nat) := []
  spwin    : Tbl Word64 := []
  conns    : Tbl Conn := []
  scroll   : Scroll := {}
  deriving DecidableEq, Repr

/-- A context (R55, R162, R364, R376). `issued` and `copied` are the counts that the administrator of a confidential context sees (R370). -/
structure Context where
  home      : Nat
  nametab   : Nat := 0
  nametabN  : Nat := 10
  xvec      : Word64 := 0
  wdlimit   : Nat := 0
  faultq    : Nat := 0
  dumpAt    : Nat := 0
  dumpSize  : Nat := 0
  dumpLen   : Nat := 0
  confidential : Bool := false
  ownerKey  : List Byte := []
  ended     : Option Byte := none
  fatalCount : Nat := 0
  launches  : Nat := 0
  events    : List HostEvent := []
  sites     : Tbl Presence := []
  issued    : Nat := 0
  copied    : Nat := 0
  deriving DecidableEq, Repr

/-! ## Cores -/

/-- An inkstone entry (R64); `used` orders entries by their last use. -/
structure InkEntry where
  ctx   : Nat
  value : Lanes 32
  tag   : Word64
  refs  : Nat
  pins  : Nat := 0
  used  : Nat := 0
  deriving DecidableEq, Repr

/-- A blotter entry (R72): its key, the inkstone entries that it names, its result entries and flags, and the
read-only lock of a VLDC (R75). -/
structure BlotEntry where
  ctx    : Nat
  key    : List Nat
  names  : List Nat
  result : List Nat
  flags  : Nat
  lock   : Option (Nat × Nat) := none
  used   : Nat := 0
  deriving DecidableEq, Repr

/-- A request that sampling has tagged (R397). -/
structure Tagged where
  ctx    : Nat
  launch : Nat
  kind   : Nat
  thread : Word64
  addr   : Word64
  deriving DecidableEq, Repr

/-- A waiting MACQ (R278). -/
structure QueueEntry where
  gid   : Nat
  mask  : BitVec 32
  n     : Nat
  sd    : SReg
  team  : Option (BitVec 16)
  deriving DecidableEq, Repr

/-- A team or solo holder of tile slots (R276): members by group index, physical slots in grant order, and for each
member the counts of its team loops and of its MSACCs since the grant (R288). -/
structure Holder where
  cohort  : Nat
  leader  : Nat
  members : BitVec 16
  team    : Bool
  slots   : List Nat
  loops   : Tbl Nat := []
  saccs   : Tbl Nat := []
  closing : Bool := false
  deriving DecidableEq, Repr

structure Core where
  ink    : Tbl InkEntry := []
  blot   : Tbl BlotEntry := []
  queue  : List QueueEntry := []
  clock  : Nat := 0
  counts : Tbl (Tbl Nat) := []
  requests : Tbl Nat := []
  tagged : List Tagged := []
  deriving DecidableEq, Repr

/-! ## Range locks -/

inductive LockKind where
  | read | write | readOnly
  deriving DecidableEq, Repr

/-- The owner of a lock: an engine operation, or an RLOCK of a cohort with its handle (R176, R197). -/
inductive LockOwner where
  | op (id : Nat)
  | rlock (cohort handle : Nat)
  deriving DecidableEq, Repr

/-- An entry of a range-lock table (R176). `core` is the core whose table holds it and `place` the memory that its
sectors lie in. -/
structure Lock where
  ctx   : Nat
  core  : Nat
  place : Nat
  first : Nat
  last  : Nat
  kind  : LockKind
  owner : LockOwner
  deriving DecidableEq, Repr

/-! ## Work in flight -/

/-- A count barrier that an engine updates: the cohort whose shared memory holds it, and its address in the .sh or the
.cl layout (R259, R264). -/
structure BarAt where
  cohort : Nat
  cl     : Bool
  addr   : Nat
  deriving DecidableEq, Repr

/-- One receiver of a CPYM: its cohort, the offset of the data, its count barrier, and whether it has been acknowledged
(R264, R265). -/
structure Receiver where
  cohort : Nat
  off    : Nat
  bar    : BarAt
  acked  : Bool := false
  deriving DecidableEq, Repr

/-- A dimension of a layout record (R261). -/
structure Dim where
  extent : Nat
  box    : Nat
  stride : Int
  deriving DecidableEq, Repr

structure Layout where
  ty   : ElemTy
  z    : Nat
  fill : List Byte
  rot  : Nat
  dims : List Dim
  deriving DecidableEq, Repr

/-- A range that a copy names: its memory, and the offset there (for .vm, a virtual address). -/
inductive Range where
  | vm (va : Nat)
  | chip (place off : Nat)
  deriving DecidableEq, Repr

inductive CopyKind where
  | linear
  | tensor (scatter : Bool) (record : Nat) (coords : List Int) (layout : Option Layout)
  | fanout (receivers : List Receiver) (ack : BarAt)
  deriving DecidableEq, Repr

/-- A copy in flight. For CPYT `src` and `dst` are the tensor's base and the box. `done` lists the pieces written, `flying`
those that FRETRY has freed, `buffer` the parts of the source that were read ahead, by page. `box` names the box before
it is locked, in the layout of R262, and `boxWindow` the size at issue of the window that holds it (R159). `uncounted`
lists the pieces that have moved while the scroll has no slot for their count (R344), `issued` those that have been counted as
requests, and `tags` the tagged ones of them (R397). -/
structure CopyOp where
  kind   : CopyKind
  scope  : Scope
  core   : Nat
  dst    : Range
  src    : Range
  len    : Nat
  bar    : Option BarAt := none
  flag   : Option (Nat × Word64) := none
  box    : Option (WordSpace × Nat) := none
  boxWindow : Nat := 0
  uncounted : List Nat := []
  issued : List Nat := []
  tags   : List Nat := []
  thread : Word64
  done   : List Nat := []
  flying : List Nat := []
  bytes  : Nat := 0
  retry  : Nat := 0
  code   : Option Nat := none
  barBad : Bool := false
  buffer : Tbl (List Byte) := []
  flagWritten : Bool := false
  deriving DecidableEq, Repr

/-- A matrix operation with the operands read at issue: for a loop the step count, the increment, the bases of A and of
the extra streams, and the B registers (R284); for MSACC the scale streams (R289); for moves the address and stride
(R292). -/
inductive MatKind where
  | zero
  | loop (fa fb : MatTy) (part : Bool) (n inc a x y vb step : Nat)
  | sacc (p q n : Nat)
  | load (ty : FloatTy) (a stride : Nat)
  | store (ty : FloatTy) (rnd : Rounding) (sat : Bool) (a stride : Nat)
  deriving DecidableEq, Repr

/-- A matrix operation in flight (R282). `slot` is its k and `member` its group's ordinal in `holder`; `turn` counts a
team's loops or MSACCs (R288); `entered` is its place in the slot order once it has entered; `team` lists the operations
that it is joined with, itself included, and `partner` the other half of a block-scaled pair (R290). -/
structure MatOp where
  kind     : MatKind
  core     : Nat
  cohort   : Nat
  holder   : Option Nat
  slot     : Nat
  member   : Nat := 0
  turn     : Nat := 0
  entered  : Option Nat := none
  team     : List Nat := []
  partner  : Option Nat := none
  readyAt  : Option Nat := none
  started  : Bool := false
  computed : Bool := false
  units    : Nat := 0
  steps    : Nat := 0
  flags    : Nat := 0
  code     : Option Nat := none
  thread   : Word64
  deriving DecidableEq, Repr

/-- A TSEND or TRECV in flight (R389, R390). `turn` is its place in the match order, `mate` the matched operation at the
other end, `moves` the bytes that the pair moves, `done` its pieces by the receiver's sectors, `uncounted` those of them
whose count waits for a slot of the scroll (R344). -/
structure XferOp where
  send   : Bool
  pkg    : Nat
  reg    : Nat
  core   : Nat
  tile   : Nat × Nat
  len    : Nat
  bar    : BarAt
  thread : Word64
  turn   : Option Nat
  mate   : Option Nat := none
  moves  : Option Nat := none
  truncated : Bool := false
  done   : List Nat := []
  bytes  : Nat := 0
  acked  : Bool := false
  uncounted : List Nat := []
  code   : Option Nat := none
  barBad : Bool := false
  deriving DecidableEq, Repr

/-- The operations on names (R306, R341). -/
inductive NameAct where
  | wake
  | signal (m : Word32)
  | deposit (k : BitVec 3) (value : Word64)
  | kill
  | join (reap : Bool) (deadline : Nat)
  | stat
  deriving DecidableEq, Repr

/-- A name operation on its way to its home (R312). `launch` is the launch number of an issuing group (R302); `host` is set
for a host call; `home` is the context and index of the entry on which a join is registered, and `found` the cause and the exit
word of its target, which died while the joiner was saved (R313). -/
structure NameOp where
  issuer : Word64
  launch : Nat := 0
  target : Word64
  act    : NameAct
  host   : Option Call := none
  mask   : BitVec 32 := 0
  home   : Option (Nat × Nat) := none
  /-- The context of the entry on which this join is registered has been freed (log 29). -/
  adrift : Bool := false
  found  : Option (Nat × Word64) := none
  deriving DecidableEq, Repr

structure LaunchOp where
  creator : Word64
  record  : Word64
  service : Bool
  cap     : Option Nat
  pkg     : Nat
  host    : Option Call := none
  deriving DecidableEq, Repr

structure TileOp where
  launch : Nat
  addr   : Word64
  thread : Word64
  deriving DecidableEq, Repr

/-- A message that a service has accepted, with the name it was posted to (R361, R384). -/
structure PostOp where
  service : Nat
  name    : Word64
  message : List Byte
  pkg     : Nat
  deriving DecidableEq, Repr

/-- A host WRITE or READ of a window that may wait for a lock to drop (R177): the bytes to write, or the length to read, and the
size of the window when it was issued (R159). -/
structure HostAccess where
  call  : Call
  addr  : Word64
  data  : List Byte
  len   : Nat
  window : Nat
  deriving DecidableEq, Repr

inductive Work where
  | copy (c : CopyOp)
  | matrix (m : MatOp)
  | xfer (x : XferOp)
  | name (n : NameOp)
  | launch (l : LaunchOp)
  | tile (t : TileOp)
  | post (p : PostOp)
  | access (a : HostAccess)
  deriving DecidableEq, Repr

/-- Work in flight: its context, its issuing group, and the status register that its answer lands in. -/
structure Op where
  ctx  : Nat
  gid  : Option Nat
  sd   : Option SReg
  work : Work
  deriving DecidableEq, Repr

/-! ## Dies -/

/-- An entry of a fault buffer (R270, R272); pieces are pairs of an operation and a piece number. -/
structure FaultEntry where
  ctx    : Nat
  pkg    : Nat
  page   : Nat
  access : Nat
  pieces : List (Nat × Nat)
  merge  : Nat
  thread : Word64
  seq    : Nat
  posted : Option Nat := none
  deriving DecidableEq, Repr

/-- An entry of a ready table (R329). -/
structure Task where
  ctx    : Nat
  launch : Nat
  role   : Nat
  entry  : Word64
  tag    : Word32
  ready  : Bool
  argPkg : Nat
  argDie : Nat
  argOff : Nat
  spawn  : Nat
  deriving DecidableEq, Repr

structure Die where
  faults   : Tbl FaultEntry := []
  faultSeq : Nat := 0
  tasks    : List Task := []
  /-- The tasks that each context has entered in the ready table (R341; log 39). -/
  spawned  : Tbl Nat := []
  deriving DecidableEq, Repr

/-- A voltage and frequency island (R24, R401): its clock in MHz, the microseconds for which both measurements have
stayed below 90 percent, its balance and units (R294). -/
structure Island where
  clock   : Nat := 1050
  cool    : Nat := 0
  balance : Int := 0
  units   : BitVec 32 := 0
  refillAt : Nat := 0
  deriving DecidableEq, Repr

/-! ## The host side -/

/-- A reply to a host call (R373); `call` is the call code with bit 7 set, as its header carries it. -/
structure Reply where
  ctx    : Nat
  caller : Word64
  seq    : Nat
  call   : Nat
  status : Nat
  data   : List Byte := []
  deriving DecidableEq, Repr

/-- A message to libbilier about a host thread (R315), or to a service endpoint that is not present. -/
structure Notice where
  ctx    : Nat
  target : Word64
  issuer : Word64
  act    : NameAct
  deriving DecidableEq, Repr

/-- The stroke that issues: its group, its fibres and their program counter (R34). -/
structure Issue where
  gid  : Nat
  mask : BitVec 32
  pc   : Word64
  deriving DecidableEq, Repr

/-- What the other end of a connection does when its package is none of this domain (R388, R390): it names this end; it is
unbound or ends; it posts its next TSEND or TRECV; a piece of what it sends is there; all that it receives is visible there. -/
inductive FarAct where
  | names
  | leaves
  | posts (send : Bool) (len : Nat)
  | piece (turn k : Nat) (data : List Byte)
  | took (turn : Nat)
  deriving DecidableEq, Repr

/-- What the outside world, or time, does next (log 3): cycles pass; a stroke issues before any unit acts; an event; or an act
of the far end of a context's connection register on a package. -/
inductive Input where
  | pass (cycles : Nat)
  | issue
  | event (i : Instr)
  | far (ctx pkg reg : Nat) (act : FarAct)
  deriving DecidableEq, Repr

/-- A translation that a cache may still hold (R166): the 64 KiB page, its leaf entry and the leaf's page shift. -/
structure XlEntry where
  ctx   : Nat
  pkg   : Nat
  page  : Nat
  leaf  : Nat
  shift : Nat
  deriving DecidableEq, Repr

/-- A WAITW that is parked (R191): the sector it watches, by key / 32, and whether a write has reached it since it last
read. For a parked RGACQ or RGPEEK `seen` is the block that its last step found (R335). -/
structure Watcher where
  sector : Nat
  hit    : Bool
  seen   : Nat := 0
  deriving DecidableEq, Repr

/-- What a part shows of its boot (R383, R398): its strap, the last step, its BOOTERR pin, and since step 4 its package
number. -/
structure Boot where
  rootcplx : Bool := false
  step     : Nat := 0
  err      : Bool := false
  num      : Option Nat := none
  deriving DecidableEq, Repr

/-- The machine: one load-store domain. `boots` and `fuses` hold what each part shows of its boot and its minimum version (R398),
by the number of the part; `booted` says that some package of the domain has booted, `packages` are those that have, `stopped`
those of them that R402 holds stopped, and `linked` says that the domain has a scale-up link (R399). By package number,
`firmware` is the image that each has booted, `services` its namespaces and network controllers (R383), and `origins` the
domain's tick at its reset, from which its TIMEBASE counts (R357). `watches` holds the parked WAITWs and ring steps by 32 · group + lowest
fibre; `calls`, by the context number of their headers, the number after that of each caller's last call (R373, R374). -/
structure State where
  mem      : Tbl Byte
  watches  : Tbl Watcher
  groups   : Tbl Group
  cohorts  : Tbl Cohort
  clusters : Tbl Cluster
  launches : Tbl Launch
  contexts : Tbl Context
  ops      : Tbl Op
  nextOp   : Nat
  cores    : Tbl Core
  holders  : Tbl Holder
  dies     : Tbl Die
  islands  : Tbl Island
  locks    : List Lock
  xlat     : List XlEntry
  replies  : List Reply
  notices  : List Notice
  calls    : Tbl (List (Word64 × Nat))
  packages : List Nat
  linked   : Bool
  boots    : Tbl Boot
  fuses    : Tbl Nat
  firmware : Tbl Firmware
  services : Tbl (Nat × Nat)
  origins  : Tbl Word64
  timebase : Word64
  cycle    : Nat
  booted   : Bool
  stopped  : List Nat
  expanders : Tbl Nat
  corrected : Tbl Nat
  served   : Nat
  issuing  : Option Issue
  agenda   : List Input
  freeTick : Nat
  deriving DecidableEq, Repr

/-- The machine right after package reset: before boot step 1 (R398). Memory lists nothing, an unlisted byte reads zero
(log 5); no context exists; every package register is at its reset value (R357, R401). -/
def State.reset : State where
  mem := []
  watches := []
  groups := []
  cohorts := []
  clusters := []
  launches := []
  contexts := []
  ops := []
  nextOp := 0
  cores := []
  holders := []
  dies := []
  islands := []
  locks := []
  xlat := []
  replies := []
  notices := []
  calls := []
  packages := []
  linked := false
  boots := []
  fuses := []
  firmware := []
  services := []
  origins := []
  timebase := 0
  cycle := 0
  booted := false
  stopped := []
  expanders := []
  corrected := []
  served := 0
  issuing := none
  agenda := []
  freeTick := 0

/-- Why the machine stops with a fault. -/
inductive Fault where
  /-- Raised by an instruction that is handed to `exec` while no stroke issues, or while the issuing group does not
  exist. `step` never does so: it sets the issuing stroke first. Safe. -/
  | noIssuingStroke
  deriving DecidableEq, Repr

/-- Why the model gives no next state. -/
inductive Refusal where
  /-- Raised by an arm of `exec` whose instruction has no meaning yet. Safe. -/
  | notModelled (mnemonic : String)
  deriving DecidableEq, Repr

end Sys2Proof.Machine
end

