-- ==== Sys2Proof/Machine/Mem.lean ====
section
/-! DEFINITION. Memory: the places that hold bytes, reads and writes of byte ranges, and the translation of virtual
addresses (R157 to R167). -/

namespace Sys2Proof.Machine

/-! ## Lookups and changes of the state's tables -/

namespace State

def group? (s : State) (g : Nat) : Option Group := s.groups.get? g
def cohort? (s : State) (c : Nat) : Option Cohort := s.cohorts.get? c
def cluster? (s : State) (c : Nat) : Option Cluster := s.clusters.get? c
def launch? (s : State) (l : Nat) : Option Launch := s.launches.get? l
def context? (s : State) (c : Nat) : Option Context := s.contexts.get? c
def op? (s : State) (o : Nat) : Option Op := s.ops.get? o
def core (s : State) (c : Nat) : Core := s.cores.read {} c
def die (s : State) (d : Nat) : Die := s.dies.read {} d

/-- The image that a package has booted, and the part that it is (R398). -/
def image (s : State) (pkg : Nat) : Firmware := s.firmware.read {} pkg
def partOf (s : State) (pkg : Nat) : Nat := (s.image pkg).part

/-- The board record's entry of an island counts on an RQ-480P only, and never above the RQ-480M's values (R357, R400). -/
def boardLimit (s : State) (i : Nat) : Nat × Nat :=
  let b := (s.image (i / 16)).board.getD (i % 16) (Config.islandPower, Config.islandThrottle)
  if Config.fuseForm (s.partOf (i / 16)) = 0 then (min b.1 Config.islandPower, min b.2 Config.islandThrottle)
  else (Config.islandPower, Config.islandThrottle)

/-- The limits that firmware loads for an island at boot step 5 (R400). -/
def powerLimit (s : State) (i : Nat) : Nat := (s.boardLimit i).1
def throttleLimit (s : State) (i : Nat) : Nat := (s.boardLimit i).2

/-- An island that nothing has changed since boot: full clock, and the units of its power limit (R294, R400, R401). -/
def island (s : State) (i : Nat) : Island :=
  let u := Config.mxBudget (s.powerLimit i)
  s.islands.read { units := u, balance := u.toNat, refillAt := 1 } i

/-- TIMEBASE of a package: the ticks since its reset (R357). -/
def ticks (s : State) (pkg : Nat) : Word64 := s.timebase - s.origins.read 0 pkg

def modGroup (s : State) (g : Nat) (f : Group → Group) : State := { s with groups := s.groups.adjust g f }
def modCohort (s : State) (c : Nat) (f : Cohort → Cohort) : State := { s with cohorts := s.cohorts.adjust c f }
def modCluster (s : State) (c : Nat) (f : Cluster → Cluster) : State := { s with clusters := s.clusters.adjust c f }
def modLaunch (s : State) (l : Nat) (f : Launch → Launch) : State := { s with launches := s.launches.adjust l f }
def modContext (s : State) (c : Nat) (f : Context → Context) : State := { s with contexts := s.contexts.adjust c f }
def modOp (s : State) (o : Nat) (f : Op → Op) : State := { s with ops := s.ops.adjust o f }
def modHolder (s : State) (h : Nat) (f : Holder → Holder) : State := { s with holders := s.holders.adjust h f }
def setCore (s : State) (c : Nat) (k : Core) : State := { s with cores := s.cores.put c k }
def modCore (s : State) (c : Nat) (f : Core → Core) : State := s.setCore c (f (s.core c))
def setDie (s : State) (d : Nat) (k : Die) : State := { s with dies := s.dies.put d k }
def modDie (s : State) (d : Nat) (f : Die → Die) : State := s.setDie d (f (s.die d))
def setIsland (s : State) (i : Nat) (k : Island) : State := { s with islands := s.islands.put i k }

/-- Enters work in flight under the next number. -/
def addOp (s : State) (o : Op) : State := { s with ops := s.ops.put s.nextOp o, nextOp := s.nextOp + 1 }
def dropOp (s : State) (o : Nat) : State := { s with ops := s.ops.erase o }

/-- What a context has on a package (R380). -/
def site? (s : State) (c p : Nat) : Option Presence := (s.context? c).bind (·.sites.get? p)
def modSite (s : State) (c p : Nat) (f : Presence → Presence) : State :=
  s.modContext c fun x => { x with sites := x.sites.adjust p f }

/-- The next free value (log 10), and the state that has used it up. -/
def free (s : State) : Word64 × State := (Config.freeValue s.freeTick, { s with freeTick := s.freeTick + 1 })

end State

/-! ## Places -/

/-- A memory that holds bytes: physical memory, the tile slots, a scratchpad window, a cohort's shared memory, a group's
spill stack. Places lie 2^80 apart in the one list of cells (log 4). -/
def placePhys : Nat := 0
def placeSlots : Nat := 2 ^ 80
def placeWindow (ctx pkg die : Nat) : Nat := 2 ^ 80 * (3 * ((ctx * 256 + pkg) * 8 + die) + 2)
def placeShared (cohort : Nat) : Nat := 2 ^ 80 * (3 * cohort + 3)
def placeStack (gid : Nat) : Nat := 2 ^ 80 * (3 * gid + 4)
/-- Byte 0 of a physical tile slot of a core: 64 KiB each (R275). -/
def slotAt (core n : Nat) : Nat := placeSlots + (core * 8 + n) * 65536

/-! ## Bytes -/

/-- What a byte that nothing has written reads as: zero (log 5; R160 and R273 for windows and shared memory). -/
def unlisted : Byte := 0

namespace State

def readByte (s : State) (a : Nat) : Byte := s.mem.read unlisted a
/-- Sets a byte that no party writes: what a restore brings back. -/
def loadByte (s : State) (a : Nat) (b : Byte) : State := { s with mem := s.mem.write unlisted a b }
/-- The watches on a byte's sector after a write to it (R191). -/
def touched (w : Tbl Watcher) (a : Nat) : Tbl Watcher :=
  w.update fun _ x => if x.sector == a / 32 then { x with hit := true } else x
def writeByte (s : State) (a : Nat) (b : Byte) : State :=
  { s with mem := s.mem.write unlisted a b, watches := touched s.watches a }

/-- `n` bytes from `a` upward. -/
def readBytes (s : State) (a : Nat) : Nat → List Byte
  | 0 => []
  | n + 1 => s.readByte a :: readBytes s (a + 1) n

def writeBytes (s : State) (a : Nat) : List Byte → State
  | [] => s
  | b :: bs => (s.writeByte a b).writeBytes (a + 1) bs

def loadBytes (s : State) (a : Nat) : List Byte → State
  | [] => s
  | b :: bs => (s.loadByte a b).loadBytes (a + 1) bs

/-- A little-endian number of `n` bytes (R5). -/
def readNat (s : State) (a n : Nat) : Nat := ofBytes (s.readBytes a n)
def writeNat (s : State) (a n v : Nat) : State := s.writeBytes a (toBytes n v)

/-- Discards every byte of a place at and above an offset (R160). -/
def clearFrom (s : State) (place off : Nat) : State :=
  { s with mem := s.mem.keep fun a _ => decide (a < place + off) || decide (place + 2 ^ 80 ≤ a) }

/-- Every byte of a range reads as an unlisted one. -/
def clearRange (s : State) (a n : Nat) : State :=
  { s with mem := s.mem.keep fun k _ => decide (k < a) || decide (a + n ≤ k) }

def memWf (s : State) : Bool := s.mem.wf unlisted

end State

/-! ## Physical addresses (R165) -/

/-- The local ranges of a package: HBM4E and the second tier. -/
def inMemory (pa : Nat) : Bool :=
  let l := pa % 2 ^ 48
  decide (pa < 2 ^ 56) &&
    (decide (l < 0x00C000000000) ||
     (decide (0x100000000000 ≤ l) && decide (l < 0x100000000000 + 16 * 0x010000000000)))

/-- The CXL port behind a second-tier address, and the offset there. -/
def tierPort? (pa : Nat) : Option (Nat × Nat) :=
  let l := pa % 2 ^ 48
  if 0x100000000000 ≤ l && l < 0x100000000000 + 16 * 0x010000000000 then
    some ((l - 0x100000000000) / 0x010000000000, (l - 0x100000000000) % 0x010000000000)
  else none

/-- A frame with no expander capacity behind it (R21, R267). -/
def absentTier (s : State) (pa : Nat) : Bool :=
  match tierPort? pa with
  | none => false
  | some (p, o) => decide (s.expanders.read 0 (pa / 2 ^ 48 * 16 + p) ≤ o)

/-! ## The walk (R162 to R164) -/

/-- Who makes an access to virtual memory (the columns of R164). -/
inductive Who where
  | copyRead | copyWrite | imageRead | imageWrite | fetch | hostRead | hostWrite
  deriving DecidableEq, Repr

/-- The rows of R164 in their order, and success. -/
inductive Walk where
  | badVa | invalid | malformed | imagePage | noPermission
  | ok (pa : Nat)
  deriving DecidableEq, Repr

def pteV (e : Nat) : Bool := bitAt e 0
def pteImg (e : Nat) : Bool := bitAt e 1
def pteRd (e : Nat) : Bool := bitAt e 2
def pteWr (e : Nat) : Bool := bitAt e 3
def pteEx (e : Nat) : Bool := bitAt e 4
def pteLeaf (e : Nat) : Bool := bitAt e 7
def pteAddr (e : Nat) : Nat := field e 13 43 * 8192

/-- A level of the walk: the shift of its index bits, and whether a leaf may and must stand there (R162, R163). -/
structure Level where
  shift : Nat
  may   : Bool
  must  : Bool

def levels : List Level := [⟨46, false, false⟩, ⟨36, false, false⟩, ⟨26, true, false⟩, ⟨16, true, true⟩]

/-- What a walk finds before permissions: V = 0, a malformed entry, or a leaf with its page shift. -/
inductive Leaf where
  | invalid | malformed
  | leaf (pte shift : Nat)
  deriving DecidableEq, Repr

/-- The walk from table `t`, level by level; at each level V is tested before the form of the entry (R164). DESIGN CHOICE (log 52): a
table in a second-tier frame with no capacity is read as if the capacity were present; R21 states no outcome. -/
def walkFrom (s : State) (va : Nat) : List Level → Nat → Leaf
  | [], _ => .malformed
  | l :: ls, t =>
    let e := s.readNat (t + 8 * field va l.shift 10) 8
    if !pteV e then .invalid
    else if pteLeaf e then
      if l.may && field (pteAddr e) 0 l.shift == 0 && inMemory (pteAddr e) then .leaf e l.shift else .malformed
    else if l.must || !inMemory (pteAddr e) then .malformed
    else walkFrom s va ls (pteAddr e)

def permitted (w : Who) (e : Nat) : Bool :=
  match w with
  | .copyRead => pteRd e | .imageRead => pteRd e | .hostRead => pteRd e
  | .copyWrite => pteWr e | .imageWrite => pteWr e | .hostWrite => pteWr e
  | .fetch => pteEx e

/-- The rows of R164 after a leaf has been found; `busy` says that a group of the context is neither DEAD nor FREE. -/
def leafOutcome (w : Who) (busy : Bool) (va e shift : Nat) : Walk :=
  if pteImg e && (match w with | .copyRead => true | .copyWrite => true | .hostWrite => busy | _ => false) then .imagePage
  else if !permitted w e then .noPermission
  else .ok (pteAddr e + va % 2 ^ shift)

/-- Groups that are neither DEAD nor FREE (R378). -/
def State.busy (s : State) (ctx : Nat) : Bool := s.groups.any fun e => e.2.ctx == ctx && e.2.phase != .dead

/-- The translation of one virtual address of a context on a package. It looks at no expander: for an image, a fetch or a host
access to a second-tier frame with no capacity behind it the spec states no outcome, and the bytes there are read and written
as if it were present (R21; log 52). -/
def State.walk (s : State) (ctx pkg : Nat) (w : Who) (va : Nat) : Walk :=
  if 2 ^ 56 ≤ va then .badVa else
  match s.site? ctx pkg with
  | none => .invalid
  | some p =>
    match walkFrom s va levels p.root with
    | .invalid => .invalid
    | .malformed => .malformed
    | .leaf e sh => leafOutcome w (s.busy ctx) va e sh

/-- Splits a virtual range at the boundaries of 64 KiB pages. -/
def pageChunks : Nat → Nat → Nat → List (Nat × Nat)
  | 0, _, _ => []
  | fuel + 1, va, n =>
    if n = 0 then []
    else if n ≤ 65536 - va % 65536 then [(va, n)]
    else (va, 65536 - va % 65536) :: pageChunks fuel (va + (65536 - va % 65536)) (n - (65536 - va % 65536))

def chunksOf (va n : Nat) : List (Nat × Nat) := pageChunks (n / 65536 + 2) va n

/-! ## Pages of confidential contexts (R165) -/

/-- The pad of a byte in memory for a context's accesses: zero unless the context is confidential (log 51). -/
def State.pad (s : State) (ctx pa : Nat) : Byte :=
  match s.context? ctx with
  | some c => if c.confidential then Config.pagePad ctx c.ownerKey pa else 0
  | none => 0

/-- Bytes at a physical address, from plaintext to what memory holds and back. -/
def State.padBytes (s : State) (ctx pa : Nat) : List Byte → List Byte
  | [] => []
  | b :: bs => (b ^^^ s.pad ctx pa) :: s.padBytes ctx (pa + 1) bs

/-- What a context reads in its pages, as plaintext. -/
def State.readPage (s : State) (ctx pa n : Nat) : List Byte := s.padBytes ctx pa (s.readBytes pa n)
def State.writePage (s : State) (ctx pa : Nat) (bs : List Byte) : State := s.writeBytes pa (s.padBytes ctx pa bs)

/-- The outcome of an access to a virtual range: the first failing walk and its address, or a result. -/
inductive VmResult (α : Type) where
  | fail (why : Walk) (va : Nat)
  | ok (a : α)

namespace State

/-- Reads a virtual range page by page. -/
def vmReadChunks (s : State) (ctx pkg : Nat) (w : Who) : List (Nat × Nat) → VmResult (List Byte)
  | [] => .ok []
  | (va, n) :: cs =>
    match s.walk ctx pkg w va with
    | .ok pa =>
      match vmReadChunks s ctx pkg w cs with
      | .ok bs => .ok (s.readPage ctx pa n ++ bs)
      | .fail e a => .fail e a
    | e => .fail e va

def vmRead (s : State) (ctx pkg : Nat) (w : Who) (va n : Nat) : VmResult (List Byte) :=
  s.vmReadChunks ctx pkg w (chunksOf va n)

/-- Writes a virtual range page by page up to the first failing page; answers the state and the failure, if any. -/
def vmWriteChunks (s : State) (ctx pkg : Nat) (w : Who) : List (Nat × Nat) → List Byte → State × Option (Walk × Nat)
  | [], _ => (s, none)
  | (va, n) :: cs, bs =>
    match s.walk ctx pkg w va with
    | .ok pa => vmWriteChunks (s.writePage ctx pa (bs.take n)) ctx pkg w cs (bs.drop n)
    | e => (s, some (e, va))

def vmWrite (s : State) (ctx pkg : Nat) (w : Who) (va : Nat) (bs : List Byte) : State × Option (Walk × Nat) :=
  s.vmWriteChunks ctx pkg w (chunksOf va bs.length) bs

end State

/-! ## Scratchpad windows (R158, R159) -/

/-- The SPWIN value of a window: SEQ in bit 37, SIZE below (R159). -/
def State.spwin (s : State) (ctx pkg die : Nat) : Word64 :=
  match s.site? ctx pkg with
  | none => 0
  | some p => p.spwin.read 0 die

def State.windowSize (s : State) (ctx pkg die : Nat) : Nat := field (s.spwin ctx pkg die).toNat 0 37
def State.windowSeq (s : State) (ctx pkg die : Nat) : Bool := bitAt (s.spwin ctx pkg die).toNat 37

end Sys2Proof.Machine
end

