-- ==== Sys2Proof/Machine/Regs.lean ====
section
/-! DEFINITION. The registers and fibres of a group: accessors, masks over fibres, guards, and program counters
(R28, R34, R48, R52, R80, R87). -/

namespace Sys2Proof.Machine

/-- A core that no table belongs to: that of the table entries which stand nowhere while their cohort is stopped or saved. -/
def noCore : Nat := 2 ^ 32

/-- The fibres of a set, in ascending order (R9). -/
def lanesOf (m : BitVec 32) : List Nat := (List.range 32).filter fun f => m.getLsbD f

/-- The lowest fibre of a set; 0 for the empty set. -/
def lowest (m : BitVec 32) : Nat := (lanesOf m).headD 0

namespace Group

def fibre (g : Group) (f : Nat) : Fibre := g.fibres.getD f {}

/-- The set of fibre slots that satisfy `p`. -/
def fibresWhere (g : Group) (p : Fibre → Bool) : BitVec 32 := maskOf fun f => p (g.fibre f)

/-- Live fibres: created and not ended; helpers are live (R3). -/
def live (g : Group) : BitVec 32 := g.fibresWhere fun x => x.kind != .empty && !x.ended
/-- The helper slots; fixed when the fibres are created (R48). -/
def helpers (g : Group) : BitVec 32 := g.fibresWhere fun x => x.kind == .helper
def trapMask (g : Group) : BitVec 32 := g.fibresWhere fun x => x.inTrap
def running (g : Group) : BitVec 32 := g.fibresWhere fun x => x.kind != .empty && !x.ended && x.wait == .none
def parkedFor (g : Group) (w : Wait) : BitVec 32 := g.fibresWhere fun x => x.kind != .empty && !x.ended && x.wait == w

/-- Changes the fibres of a set. -/
def onFibres (g : Group) (m : BitVec 32) (h : Fibre → Fibre) : Group :=
  { g with fibres := (List.range 32).map fun f => if m.getLsbD f then h (g.fibre f) else g.fibre f }

/-- Changes every fibre by its number. -/
def mapFibres (g : Group) (h : Nat → Fibre → Fibre) : Group :=
  { g with fibres := (List.range 32).map fun f => h f (g.fibre f) }

/-! Register files: an unlisted register holds zero (R30). -/

def rdS (g : Group) (n : SReg) : Word64 := g.s.read 0 n.toNat
def wrS (g : Group) (n : SReg) (v : Word64) : Group := { g with s := g.s.write 0 n.toNat v }
def rdV (g : Group) (n : Nat) : Lanes 32 := g.v.read (Lanes.zero 32) n
def wrV (g : Group) (n : Nat) (v : Lanes 32) : Group := { g with v := g.v.write (Lanes.zero 32) n v }
def rdP (g : Group) (n : PReg) : BitVec 32 := g.p.read 0 n.toNat
def wrP (g : Group) (n : PReg) (v : BitVec 32) : Group := { g with p := g.p.write 0 n.toNat v }
def rdSp (g : Group) (k : UPred) : Bool := g.sp.getLsbD k.toNat
def wrSp (g : Group) (k : UPred) (b : Bool) : Group :=
  { g with sp := BitVec.ofNat 8 (setField g.sp.toNat k.toNat 1 (b2n b)) }
def rdX (g : Group) (n : XReg) : Lanes 16 := g.x.read (Lanes.zero 16) n.toNat
def wrX (g : Group) (n : XReg) (v : Lanes 16) : Group := { g with x := g.x.write (Lanes.zero 16) n.toNat v }

/-- A vector result (R80): the computed value in active lanes, the prior contents in lanes of live fibres that are not
active, zero in lanes that hold no live fibre. -/
def merged {w : Nat} (g : Group) (active : BitVec 32) (prior : Lanes w) (r : Nat → BitVec w) : Lanes w :=
  Lanes.build fun f => if active.getLsbD f then r f else if g.live.getLsbD f then prior.lane f else 0

/-- ORs sticky flags into FSTAT (R138, R208). -/
def orFlags (g : Group) (fl : Nat) : Group :=
  { g with sys := { g.sys with fstat := g.sys.fstat ||| BitVec.ofNat 64 fl } }

/-- The guard value of fibre `f`, after SENSE (R87). -/
def guardAt (g : Group) (gd : Guard) (f : Nat) : Bool :=
  let c := gd.code.toNat
  let v := if c < 12 then (g.rdP gd.code).getLsbD f else if c < 15 then g.sp.getLsbD (c - 12) else true
  xor v gd.sense

/-- The active fibres of an issuing stroke (R3, R87). -/
def active (g : Group) (m : BitVec 32) (gd : Guard) : BitVec 32 :=
  maskOf fun f => m.getLsbD f && g.live.getLsbD f && g.guardAt gd f

/-- A group is convergent when one stroke holds all of its live fibres (R34). -/
def convergent (g : Group) (m : BitVec 32) : Bool := g.live &&& ~~~m == 0

/-- Moves the program counters of a set of fibres. -/
def setPc (g : Group) (m : BitVec 32) (pc : Word64) : Group := g.onFibres m fun x => { x with pc := pc }

/-- A set of fibres becomes a stroke of its own: it takes the number of its lowest fibre. -/
def asStroke (g : Group) (m : BitVec 32) : Group := g.onFibres m fun x => { x with stroke := lowest m }

/-- Parks a set of fibres (R29), with the wait operand and deadline of R54. -/
def park (g : Group) (m : BitVec 32) (w : Wait) (operand : Word64) (deadline : Nat) (i : Option Instr) : Group :=
  g.onFibres m fun x => { x with wait := w, operand := operand, deadline := deadline, instr := i }

/-- Releases a set of fibres from their wait. -/
def unpark (g : Group) (m : BitVec 32) : Group :=
  g.onFibres m fun x => { x with wait := .none, operand := 0, deadline := 0, instr := none }

/-- The fibres of the stroke that fibre `f` belongs to and that share its wait. -/
def strokeOf (g : Group) (f : Nat) : BitVec 32 :=
  let y := g.fibre f
  g.fibresWhere fun x => x.kind != .empty && !x.ended && x.stroke == y.stroke && x.wait == y.wait && x.pc == y.pc

/-- Two running fibres share a stroke at a re-formation (R34). -/
def together (x y : Fibre) : Bool := x.pc == y.pc && x.priv == y.priv && x.inTrap == y.inTrap

/-- The running strokes, each by its set of fibres, in ascending order of their lowest fibre. -/
def strokes (g : Group) : List (BitVec 32) :=
  ((lanesOf g.running).map fun f => g.strokeOf f).eraseDups

/-- The strokes of the running fibres as a re-formation joins them (R34). -/
def joined (g : Group) : Group :=
  let run := g.running
  g.mapFibres fun f x =>
    if run.getLsbD f then
      { x with stroke := ((lanesOf run).find? fun h => together (g.fibre h) x).getD f }
    else x

/-- The fibres of strokes that stand in `h` and not in `g`: a re-formation that leads from `g` to `h` has formed them. -/
def formedIn (g h : Group) : BitVec 32 := (h.strokes.filter fun k => !g.strokes.contains k).foldl (· ||| ·) 0

/-- Re-forms the strokes of the running fibres (R34). A stroke that is formed keeps no hint, whatever pieces it is made of (R156);
that other strokes keep theirs is log 48. A restored group issues from here on (R405). -/
def reform (g : Group) : Group :=
  let h := { g.joined with fresh := false }
  { h with favour := (g.favour.map (· &&& ~~~g.formedIn h)).filter (· != 0) }

def anyLiveNonHelper (g : Group) (m : BitVec 32) : Bool := m &&& ~~~g.helpers != 0

end Group

namespace State

/-- Moves the stroke past an instruction of `n` bytes. -/
def advance (s : State) (u : Issue) (n : Nat) : State :=
  s.modGroup u.gid fun g => g.setPc u.mask (u.pc + BitVec.ofNat 64 n)

end State

/-! ## Where a group is and what it belongs to -/

namespace State

def launchOf (s : State) (g : Group) : Option Launch := s.launch? g.launch

/-- The package of a core number of the domain: 256 cores to a package (R16). -/
def pkgOf (core : Nat) : Nat := core / 256
/-- The compute die of a core, counted through the domain: 8 dies to a package (R16). -/
def dieOf (core : Nat) : Nat := core / 32
/-- The island of a core, counted through the domain: 16 islands to a package (R24). -/
def islandOf (core : Nat) : Nat := core / 16

/-- The logical thread of a group with a given fibre field (R392, R339). -/
def thread (s : State) (g : Group) (fibre : Nat) : Word64 :=
  let num := match s.cohort? g.cohort with | some c => c.num | none => 0
  let ln := match s.launch? g.launch with | some l => l.num | none => 0
  BitVec.ofNat 64 (ln % 2 ^ 24 * 2 ^ 40 + num % 2 ^ 24 * 2 ^ 16 + g.index * 256 + fibre)

/-- The logical thread of a stroke: its lowest fibre (R339). -/
def strokeThread (s : State) (g : Group) (m : BitVec 32) : Word64 := s.thread g (lowest m)

end State
end Sys2Proof.Machine
end

