-- ==== Sys2Proof/Machine/Scroll.lean ====
section
/-! DEFINITION. The scroll (R337 to R349): writing records, holding acts while it is full, and matching acts against the
log in REPLAY; and the host event queue (R379). -/

namespace Sys2Proof.Machine

/-- A record to be written or matched (R339): kind, source class and id, subject, operand and payload. -/
structure Entry where
  kind    : Nat
  cls     : Nat
  src     : Nat
  subject : Word64 := 0
  operand : Word64 := 0
  payload : Word64 := 0
  seq     : Nat := 0

namespace Entry

/-- The 32 bytes of a record (R339). -/
def bytes (e : Entry) (seq : Nat) : List Byte :=
  toBytes 1 e.kind ++ toBytes 1 e.cls ++ toBytes 2 e.src ++ toBytes 4 seq ++ toBytes 8 e.subject.toNat
    ++ toBytes 8 e.operand.toNat ++ toBytes 8 e.payload.toNat

/-- The number of a source: class and id (R340). -/
def source (e : Entry) : Nat := e.cls * 65536 + e.src

/-- A record read back. Bits 7:0 of the names in a NAME record are ignored (R8, R341). -/
def ofBytes (b : List Byte) : Entry :=
  let n := Sys2Proof.ofBytes b
  let name := fun (x : Word64) => if field n 0 8 = 4 then x &&& ~~~255#64 else x
  { kind := field n 0 8, cls := field n 8 8, src := field n 16 16, seq := field n 32 32
    subject := name (BitVec.ofNat 64 (n / 2 ^ 64)), operand := name (BitVec.ofNat 64 (n / 2 ^ 128))
    payload := BitVec.ofNat 64 (n / 2 ^ 192) }

/-- What names an act that is held (R344). -/
def held (e : Entry) : HeldAct :=
  { source := if e.kind = 1 ∧ e.operand = 4 then 0 else e.source, kind := e.kind, subject := e.subject, operand := e.operand }

/-- Kind, subject and operand agree (R348). -/
def sameEvent (a b : Entry) : Bool :=
  a.kind == b.kind && a.subject == b.subject && a.operand == b.operand && a.source == b.source

end Entry

/-- The code of a wait reason in the record of a fibre (R54). -/
def Wait.code : Wait → Nat
  | .none => 0 | .meet => 1 | .barrier => 2 | .cbwait => 3 | .waitw => 4 | .rgacq => 5 | .rgpeek => 6 | .npark => 7
  | .njoin => 8 | .sleep => 9 | .trapSplit => 10 | .scrollFull => 11 | .engine => 12

namespace Scroll

/-- The capacity in records (R337). -/
def cap (x : Scroll) : Nat := 2 ^ (x.logSize - 5)
/-- The fill, modulo 2^32 (R337). -/
def fill (x : Scroll) : Nat := (x.widx - x.ridx).toNat
def full (x : Scroll) : Bool := decide (x.cap ≤ x.fill)
def slotVa (x : Scroll) (i : Word32) : Nat := x.base + 32 * (i.toNat % x.cap)

/-- SCRRIDX advances past every consumed record at its front (R345). -/
def settle : Nat → Scroll → Scroll
  | 0, x => x
  | n + 1, x =>
    if x.taken.contains x.ridx.toNat then
      settle n { x with taken := x.taken.filter (fun i => i != x.ridx.toNat), ridx := x.ridx + 1 }
    else x

end Scroll

namespace State

def scroll (s : State) (ctx pkg : Nat) : Scroll :=
  match s.site? ctx pkg with
  | none => {}
  | some p => p.scroll

def modScroll (s : State) (ctx pkg : Nat) (f : Scroll → Scroll) : State :=
  s.modSite ctx pkg fun p => { p with scroll := f p.scroll }

/-- A context has ended, or is none: nothing of it is replayed any more (R364), and it launches nothing (R377). -/
def hasEnded (s : State) (ctx : Nat) : Bool := match s.context? ctx with | some c => c.ended.isSome | none => true

/-- A context that goes on is frozen while any of its scrolls is (R348). -/
def frozen (s : State) (ctx : Nat) : Bool :=
  match s.context? ctx with
  | none => false
  | some c => c.ended.isNone && c.sites.any fun e => e.2.scroll.frozen

/-- Posts a record to the host event queue; one slot of its 4,096 is kept for CONTEXT_FATAL (R379). -/
def postEvent (s : State) (ctx : Nat) (e : HostEvent) : State :=
  s.modContext ctx fun c =>
    if c.events.length < Config.eventQueue - 1 || e.kind == 1 then { c with events := c.events ++ [e] } else c

def eventRoom (s : State) (ctx : Nat) : Bool :=
  match s.context? ctx with
  | none => false
  | some c => decide (c.events.length < Config.eventQueue - 1)

/-- Puts an act before everything else that the machine has to do. -/
def soon (s : State) (i : Instr) : State := { s with agenda := .event i :: s.agenda }

/-- Sets HIGH and posts SCROLL_HIGH at a moment when the fill reaches 7/8 of the capacity from `old` while HIGH is 0
(R344). -/
def scrollHigh (s : State) (ctx pkg old : Nat) : State :=
  let x := s.scroll ctx pkg
  let mark := (7 * x.cap + 7) / 8
  if !x.high && decide (old < mark) && decide (mark ≤ x.fill) then
    (s.modScroll ctx pkg fun x => { x with high := true }).postEvent ctx
      { kind := 2, pkg := pkg, time := (s.ticks pkg).toNat, body := zeros 16 }
  else s

/-- The act that is being performed has no record to match, or no slot for one: it is not to be performed yet. -/
def tooEarly (s : State) (ctx pkg : Nat) (e : Entry) : State :=
  s.modScroll ctx pkg fun x => { x with early := x.early <|> some e.held }

/-- The page of a scroll slot has RD and WR (R337). -/
def slotOk (s : State) (ctx pkg va : Nat) : Bool :=
  (match s.walk ctx pkg .imageRead va with | .ok _ => true | _ => false)
    && (match s.walk ctx pkg .imageWrite va with | .ok _ => true | _ => false)

/-- Writes a record in RECORD mode (R339, R342), for which there must be a slot (R344); a failing walk is
CONTEXT_IMAGE_FAULT (R337). -/
def append (s : State) (ctx pkg : Nat) (e : Entry) : State :=
  let x := s.scroll ctx pkg
  if x.full then s.tooEarly ctx pkg e else
  let va := x.slotVa x.widx
  if s.slotOk ctx pkg va then
    ((s.vmWrite ctx pkg .imageWrite va (e.bytes (x.seqs.read 0 e.source))).1.modScroll ctx pkg fun x =>
      { x with widx := x.widx + 1, held := x.held.erase e.held, seqs := x.seqs.put e.source ((x.seqs.read 0 e.source + 1) % 2 ^ 32) }).scrollHigh ctx pkg x.fill
  else s.soon (.contextFatalFault ctx 0x82 (BitVec.ofNat 64 va) e.subject)

/-- The records that REPLAY has not consumed, in ring order, among `n` records from index `i`, up to the first slot whose
page does not translate (R345). -/
def pendingRecords (s : State) (ctx pkg : Nat) : Nat → Word32 → List (Nat × Entry)
  | 0, _ => []
  | n + 1, i =>
    let x := s.scroll ctx pkg
    if x.taken.contains i.toNat then s.pendingRecords ctx pkg n (i + 1)
    else if s.slotOk ctx pkg (x.slotVa i) then
      match s.vmRead ctx pkg .imageRead (x.slotVa i) 32 with
      | .ok b => (i.toNat, Entry.ofBytes b) :: s.pendingRecords ctx pkg n (i + 1)
      | .fail _ _ => []
    else []

/-- Every record that a replay has not consumed. -/
def pendingAll (s : State) (ctx pkg : Nat) : List (Nat × Entry) :=
  let x := s.scroll ctx pkg
  s.pendingRecords ctx pkg x.fill x.ridx

/-- The first slot of a replay's records whose page does not translate. -/
def badSlot (s : State) (ctx pkg : Nat) : Option Nat :=
  let x := s.scroll ctx pkg
  ((List.range x.fill).map fun n => x.slotVa (x.ridx + BitVec.ofNat 32 n)).find? fun va => !s.slotOk ctx pkg va

/-- The records of a source that REPLAY has not consumed, in the order of SEQ (R345): none while the next one has not
arrived. The first record of a source in the ring begins its sequence (log 16). -/
def sourceRecords (s : State) (ctx pkg source : Nat) : List (Nat × Entry) :=
  let l := (s.pendingAll ctx pkg).filter fun r => r.2.source == source
  match (s.scroll ctx pkg).seqs.get? source with
  | none => l
  | some q =>
    let ahead := fun (r : Nat × Entry) => (r.2.seq + 2 ^ 32 - q) % 2 ^ 32
    match sortBy (fun a b => decide (ahead a ≤ ahead b)) l with
    | r :: rest => if r.2.seq == q then r :: rest else []
    | [] => []

/-- A divergence (R348): FROZEN is set and REPLAY_DIVERGENCE is posted. -/
def diverge (s : State) (ctx pkg index source : Nat) : State :=
  (s.modScroll ctx pkg fun x => { x with frozen := true }).postEvent ctx
    { kind := 3, pkg := pkg, time := (s.ticks pkg).toNat,
      body := toBytes 4 index ++ toBytes 1 (source / 65536) ++ [0] ++ toBytes 2 (source % 65536) ++ zeros 8 }

/-- REPLAY consumes a record (R345). -/
def consume (s : State) (ctx pkg source : Nat) (r : Nat × Entry) : State :=
  s.modScroll ctx pkg fun x =>
    Scroll.settle (x.taken.length + 1)
      { x with taken := r.1 :: x.taken, waits := x.waits.erase source, seqs := x.seqs.put source ((r.2.seq + 1) % 2 ^ 32) }

end State

/-- Whether an act that produces a record may take effect now (R344, R347, R348). -/
inductive Gate where
  | go | hold
  | diverge (index : Nat)
  deriving DecidableEq, Repr

/-- A record is that of an act, or of the same release with the other of its two causes: which one it was comes from the log
(R347). -/
def Entry.mayBe (r e : Entry) : Bool := r.sameEvent e || (e.kind == 3 && r.sameEvent { e with operand := e.operand ^^^ 256#64 })

namespace State

/-- In RECORD an act waits while the scroll is full; in REPLAY it acts when its record is its source's next one, is held
while a later record of the source is its own, or shows its release with another cause, and diverges when no record of the source
does (R347, R348; log 16). -/
def gate (s : State) (ctx pkg : Nat) (e : Entry) : Gate :=
  let x := s.scroll ctx pkg
  if s.frozen ctx then .hold
  else if x.mode == 1 then (if x.full then .hold else .go)
  else if x.mode == 2 && !s.hasEnded ctx then
    match s.sourceRecords ctx pkg e.source with
    | [] => .hold
    | (i, r) :: rest =>
      if r.sameEvent e then .go
      else if ((i, r) :: rest).any (fun y => y.2.mayBe e) then .hold
      else .diverge i
  else .go

/-- The payload that the log holds for an act whose value is taken from it (R347); none outside REPLAY. -/
def logged (s : State) (ctx pkg : Nat) (e : Entry) : Option Word64 :=
  if (s.scroll ctx pkg).mode == 2 then
    match s.sourceRecords ctx pkg e.source with
    | (_, r) :: _ => some r.payload
    | [] => none
  else none

/-- Logs an act that has taken effect: RECORD writes its record; REPLAY consumes it and, when `compare` is set, a
differing payload is a divergence (R347, R348). A frozen context's records are not checked. -/
def log (s : State) (ctx pkg : Nat) (e : Entry) (compare : Bool := true) : State :=
  let x := s.scroll ctx pkg
  if x.mode == 1 then s.append ctx pkg e
  else if x.mode == 2 && !s.frozen ctx && !s.hasEnded ctx then
    match s.gate ctx pkg e, s.sourceRecords ctx pkg e.source with
    | .go, r :: _ =>
      let t := s.consume ctx pkg e.source r
      if compare && r.2.payload != e.payload then t.diverge ctx pkg r.1 e.source else t
    | .diverge i, _ => s.modScroll ctx pkg fun x => { x with clash := some (i, e.source) }
    | _, _ => s.tooEarly ctx pkg e
  else s

/-- No act was performed before its record (R344, R347). -/
def onTime (s : State) : Bool := s.contexts.all fun c => c.2.sites.all fun p => p.2.scroll.early.isNone

/-- The record that an act has met in place of its own: context, package, index and source. -/
def clash? (s : State) : Option (Nat × Nat × Nat × Nat) :=
  s.contexts.findSome? fun c => c.2.sites.findSome? fun p => p.2.scroll.clash.map fun k => (c.1, p.1, k.1, k.2)

/-- A source of a replay begins to wait for the record of an act (R348). -/
def noteWait (s : State) (ctx pkg source : Nat) : State :=
  if (s.scroll ctx pkg).mode == 2 && !s.frozen ctx && ((s.scroll ctx pkg).waits.get? source).isNone then
    s.modScroll ctx pkg fun y => { y with waits := y.waits.put source (s.timebase.toNat + 1) }
  else s

/-- An act of a unit is held, behind those that are held already (R344). -/
def noteHeld (s : State) (ctx pkg : Nat) (a : HeldAct) : State :=
  if (s.scroll ctx pkg).held.contains a then s else s.modScroll ctx pkg fun x => { x with held := x.held ++ [a] }

/-- Another act has been held for longer (R344). -/
def outOfTurn (s : State) (ctx pkg : Nat) (a : HeldAct) : Bool :=
  let x := s.scroll ctx pkg
  x.mode == 1 && (match x.held with | b :: _ => b != a | [] => false)

/-- The gate of an act of a unit: in RECORD the acts that a full scroll has held happen in their pending order (R344). -/
def unitGate (s : State) (ctx pkg : Nat) (e : Entry) : Gate :=
  if s.outOfTurn ctx pkg e.held then .hold else s.gate ctx pkg e

/-- An act of a unit that is held takes its place among the held ones, and in REPLAY its source begins to wait. -/
def await (s : State) (ctx pkg : Nat) (e : Entry) : State :=
  if (s.scroll ctx pkg).mode == 1 && !s.frozen ctx then s.noteHeld ctx pkg e.held else s.noteWait ctx pkg e.source

/-- The act of the first record that `t` has and `s` has not, or which found no slot in `t`. -/
def firstAct (s t : State) (ctx pkg : Nat) : Option HeldAct :=
  let x := s.scroll ctx pkg
  let y := t.scroll ctx pkg
  if y.widx = x.widx then y.early
  else match t.vmRead ctx pkg .imageRead (x.slotVa x.widx) 32 with
    | .ok b => some (Entry.ofBytes b).held
    | .fail _ _ => none

/-- In RECORD a step from `s` to `t` is an act of a unit that has to wait: a record of it finds no slot, or another act has been held
for longer (R344). What ends a context waits for nothing (R364). -/
def mustWait (s t : State) : Option (Nat × Nat × HeldAct) :=
  s.contexts.findSome? fun c => c.2.sites.findSome? fun p =>
    let y := t.scroll c.1 p.1
    if p.2.scroll.mode != 1 || y.mode != 1 || t.hasEnded c.1 then none
    else match s.firstAct t c.1 p.1 with
      | some a => if y.early.isSome || s.outOfTurn c.1 p.1 a then some (c.1, p.1, a) else none
      | none => none

/-- The first held act of a scroll that has room again has not come up: it is no longer due, or takes more slots, and no other waits
for it (log 16). -/
def dropHeld (s : State) : State :=
  { s with contexts := s.contexts.update fun _ c => { c with sites := c.sites.update fun _ p =>
      if p.scroll.mode == 1 && !p.scroll.full then { p with scroll := { p.scroll with held := p.scroll.held.tail } } else p } }

/-- What comes of an act that leads from `s` to `t`: the freeze when it has met another record, and the act is not performed
(R348); nothing yet when it comes before its record or finds no slot (R344, R347); otherwise `t`. -/
def settled (s t : State) : Option State :=
  match t.clash? with
  | some (c, p, i, source) => some (s.diverge c p i source)
  | none => if t.onTime then some t else none

/-- Performs an act of a unit under its gate: one that is held waits, and a divergence freezes the context. -/
def gated (s : State) (ctx pkg : Nat) (e : Entry) (act : State → State) : State :=
  match s.unitGate ctx pkg e with
  | .go => act s
  | .hold => s.await ctx pkg e
  | .diverge i => s.diverge ctx pkg i e.source

/-! ## Records of strokes -/

/-- The scheduler source of a group: 4c + k on its package (R340). -/
def schedSource (g : Group) : Nat := g.core % 256 * 4 + g.sched

/-- Logs a uniform-file write by a stroke of a group that is not convergent (R42, R341); class 0 a uniform register, 1 a
uniform predicate, 2 STKP. -/
def logStrk (s : State) (u : Issue) (g : Group) (cls n : Nat) (value : Word64) : State :=
  if g.convergent u.mask then s
  else s.log g.ctx (pkgOf g.core)
    { kind := 9, cls := 1, src := schedSource g, subject := s.strokeThread g u.mask
      operand := BitVec.ofNat 64 (cls * 256 + n), payload := value }

/-- Logs the release of a parked stroke (R341 WAKE). -/
def logWake (s : State) (g : Group) (m : BitVec 32) (w : Wait) (byDeadline : Bool) (value : Word64) : State :=
  s.log g.ctx (pkgOf g.core)
    { kind := 3, cls := 1, src := schedSource g, subject := s.strokeThread g m
      operand := BitVec.ofNat 64 (w.code + 256 * b2n byDeadline), payload := value }

/-- The gate of such a release. -/
def gatedWake (s : State) (g : Group) (m : BitVec 32) (w : Wait) (byDeadline : Bool) (act : State → State) : State :=
  s.gated g.ctx (pkgOf g.core)
    { kind := 3, cls := 1, src := schedSource g, subject := s.strokeThread g m
      operand := BitVec.ofNat 64 (w.code + 256 * b2n byDeadline) } act

/-- Closes the open run of a scheduler with its SCHED record (R341). -/
def closeRun (s : State) (ctx pkg sched : Nat) : State :=
  match (s.scroll ctx pkg).runs.get? sched with
  | none => s
  | some r =>
    (s.append ctx pkg { kind := 8, cls := 1, src := sched, subject := r.thread, operand := r.pc
                        payload := BitVec.ofNat 64 (r.mask.toNat + 2 ^ 32 * r.len) }).modScroll ctx pkg fun x =>
      { x with runs := x.runs.erase sched }

/-- The issue continues the scheduler's open run (R341). -/
def continuesRun (s : State) (g : Group) (u : Issue) : Bool :=
  match (s.scroll g.ctx (pkgOf g.core)).runs.get? (schedSource g) with
  | none => false
  | some r => r.gid == u.gid && r.mask == u.mask && decide (r.len < 2 ^ 32 - 1)

/-- The issues that a replayed run has had (R346). -/
def runDone (s : State) (ctx pkg source : Nat) : Nat :=
  match (s.scroll ctx pkg).runs.get? source with | some r => r.len | none => 0

/-! ## SCHED records of a replay (R346) -/

def schedMask (e : Entry) : BitVec 32 := BitVec.ofNat 32 e.payload.toNat
def schedLen (e : Entry) : Nat := field e.payload.toNat 32 32

/-- The group that a record's thread names. -/
def namedBy (s : State) (e : Entry) (g : Group) : Bool := (s.thread g 0).toNat / 256 == e.subject.toNat / 256

/-- The next SCHED record of a scheduler, with its index in the ring. -/
def nextSched (s : State) (ctx pkg source : Nat) : Option (Nat × Entry) :=
  (s.sourceRecords ctx pkg source).find? fun r => r.2.kind == 8

/-- RECORD counts an issue into a run (R341), and REPLAY into the run of its scheduler's next record (R346). -/
def countRun (s : State) (g : Group) (u : Issue) : State :=
  let pkg := pkgOf g.core
  if (s.scroll g.ctx pkg).mode == 1 then
    if s.continuesRun g u then
      s.modScroll g.ctx pkg fun x => { x with runs := x.runs.adjust (schedSource g) fun r => { r with len := r.len + 1 } }
    else
      (s.closeRun g.ctx pkg (schedSource g)).modScroll g.ctx pkg fun x =>
        { x with runs := x.runs.put (schedSource g)
                  { gid := u.gid, thread := s.strokeThread g u.mask, mask := u.mask, pc := u.pc, len := 1 } }
  else if (s.scroll g.ctx pkg).mode == 2 then
    let source := 65536 + schedSource g
    s.modScroll g.ctx pkg fun x =>
      { x with waits := x.waits.erase source
               runs := x.runs.put source
                 { gid := u.gid, thread := 0, mask := u.mask, pc := 0, len := s.runDone g.ctx pkg source + 1 } }
  else s

end State
end Sys2Proof.Machine
end

