-- ==== Sys2Proof/Machine/Ink.lean ====
section
/-! DEFINITION. The inkstone, the register maps and the blotter (R64 to R75), and the private counters of a core (R394).
The value of a register is held in its group; these structures decide what is shared, counted, evicted and reused. -/

namespace Sys2Proof.Machine

/-- The counters of R394 by their offset / 8. -/
inductive Counter where
  | issued | blotHit | blotMiss | dedup | collision | inkFill | inkWb | copyBytes | returns | trLost
  deriving DecidableEq, Repr

def Counter.index : Counter → Nat
  | .issued => 0 | .blotHit => 1 | .blotMiss => 2 | .dedup => 3 | .collision => 4 | .inkFill => 5 | .inkWb => 6
  | .copyBytes => 7 | .returns => 8 | .trLost => 9

namespace State

/-- Adds to the private count of a core for a launch (R394). -/
def count (s : State) (core launch : Nat) (c : Counter) (n : Nat) : State :=
  s.modCore core fun k =>
    let t : Tbl Nat := k.counts.read [] launch
    { k with counts := k.counts.put launch (t.put c.index (t.read 0 c.index + n)) }

end State

/-! ## Tags (R65) -/

/-- Rotation left within 64 bits. -/
def rotL64 (x n : Nat) : Nat := x * 2 ^ n % 2 ^ 64 + x / 2 ^ (64 - n)

/-- Word `i` of a 128-byte value: lanes 2i and 2i + 1 (R65). -/
def inkWord (v : Lanes 32) (i : Nat) : Nat := (v.lane (2 * i)).toNat + 2 ^ 32 * (v.lane (2 * i + 1)).toNat

/-- InkHash (R65). -/
def inkHash (v : Lanes 32) : Word64 :=
  let h := (List.range 16).foldl
    (fun h i => rotL64 (Nat.xor h (inkWord v i)) 27 * 0x8F3D2B71E6A45C19 % 2 ^ 64) 0x6A1C3F07B25E94D1
  let h := Nat.xor h (h / 2 ^ 31) * 0x5D17A3E90C6BF2C3 % 2 ^ 64
  BitVec.ofNat 64 (Nat.xor h (h / 2 ^ 29))

namespace Core

/-- The ways of a set in order: entry 4·set + way. -/
def setWays (set : Nat) : List Nat := [4 * set, 4 * set + 1, 4 * set + 2, 4 * set + 3]

def entry? (k : Core) (e : Nat) : Option InkEntry := k.ink.get? e

/-- A free way has reference count and pin count zero (R64). -/
def freeWay (k : Core) (e : Nat) : Bool :=
  match k.entry? e with
  | none => true
  | some x => x.refs == 0 && x.pins == 0

/-- The valid way of a set that holds the value for a context: tag and full compare (R66). -/
def match? (k : Core) (ctx : Nat) (tag : Word64) (v : Lanes 32) : Option Nat :=
  (setWays (tag.toNat % 1536)).find? fun e =>
    match k.entry? e with
    | none => false
    | some x => x.ctx == ctx && x.tag == tag && x.value == v

/-- Some way of the set holds the tag for the context (R66 COLLISION). -/
def tagged? (k : Core) (ctx : Nat) (tag : Word64) : Bool :=
  (setWays (tag.toNat % 1536)).any fun e =>
    match k.entry? e with
    | none => false
    | some x => x.ctx == ctx && x.tag == tag

/-- Frees an entry and every blotter entry that names it (R66, R74). -/
def freeEntry (k : Core) (e : Nat) : Core :=
  { k with ink := k.ink.erase e, blot := k.blot.keep fun _ b => !(b.names.contains e || b.result.contains e) }

/-- Release (R66). -/
def release (k : Core) (e : Nat) : Core :=
  match k.entry? e with
  | none => k
  | some x =>
    if x.refs ≤ 1 && x.pins == 0 then k.freeEntry e
    else { k with ink := k.ink.put e { x with refs := x.refs - 1 } }

def touch (k : Core) (e : Nat) : Core :=
  { k with ink := k.ink.adjust e (fun x => { x with used := k.clock }), clock := k.clock + 1 }

/-- The least recently used of some ways. -/
def oldest (k : Core) (ws : List Nat) : Option Nat :=
  ws.foldl (fun b e =>
    match b, k.entry? e with
    | none, _ => some e
    | some c, some x => match k.entry? c with | some y => if x.used < y.used then some e else some c | none => some c
    | some c, none => some c) none

end Core

namespace State

/-- The image slot of a vector register (R54). -/
def lineVa (g : Group) (n : Nat) : Nat := g.image + 0x1000 + 128 * n

/-- The lanes that 128 bytes of an image slot hold: lane f at byte 4f (R54). -/
def lineLanes (b : List Byte) : Lanes 32 := Lanes.build fun f => BitVec.ofNat 32 (ofBytes ((b.drop (4 * f)).take 4))

/-- The groups whose register maps on a core name an entry, with the registers that map it. -/
def mappers (s : State) (core e : Nat) : List (Nat × List Nat) :=
  (s.groups.filter (fun g => g.2.core == core)).map fun g =>
    (g.1, (g.2.map.filter fun m => m.2.entry == e).map (·.1))

/-- The value of the inkstone entry that a register maps (R64); the register's own where it maps none. -/
def entryValue (s : State) (g : Group) (n : Nat) : Lanes 32 :=
  match (g.map.get? n).bind fun m => (s.core g.core).entry? m.entry with
  | some x => x.value
  | none => g.rdV n

/-- Writes one register of a group to its image slot, from the entry that it maps (R54, R68, R70); a failing walk ends the
image's own context (R368). -/
def writeBack (s : State) (gid n : Nat) : State :=
  match s.group? gid with
  | none => s
  | some g =>
    let va := lineVa g n
    let (t, bad) := s.vmWrite g.ctx (pkgOf g.core) .imageWrite va ((s.entryValue g n).flatMap fun x => toBytes 4 x.toNat)
    match bad with
    | some _ => s.soon (.contextFatalFault g.ctx 0x82 (BitVec.ofNat 64 va) (s.thread g 0xFF))
    | none => t.count g.core g.launch .inkWb 1

/-- Removes a mapping; a dirty one is written to its image first (R68). -/
def unmap (s : State) (gid n : Nat) : State :=
  match s.group? gid with
  | none => s
  | some g =>
    match g.map.get? n with
    | none => s
    | some m =>
      let t := if m.dirty then s.writeBack gid n else s
      t.modGroup gid fun g => { g with map := g.map.erase n }

/-- Takes an entry away from everyone who maps it (R68). -/
def evict (s : State) (core e : Nat) : State :=
  let t := (s.mappers core e).foldl (fun s gm => gm.2.foldl (fun s n => s.unmap gm.1 n) s) s
  t.modCore core fun k => k.freeEntry e

/-- Every mapping of the entry belongs to a group marked evictable (R68). -/
def allEvictable (s : State) (core e : Nat) : Bool :=
  (s.mappers core e).all fun gm =>
    gm.2.isEmpty || (match s.group? gm.1 with | some g => g.evictable | none => true)

/-- The victim that AllocEntry takes in a set: a free way, then an unpinned way whose mappings are all evictable, then
the least recently used unpinned way (R68). Of several free ways, and of several whose mappings are all evictable, it is the lowest:
DESIGN CHOICE (log 17). -/
def victim (s : State) (core set : Nat) : Nat :=
  let k := s.core core
  let ways := Core.setWays set
  let loose := ways.filter fun e => match k.entry? e with | some x => x.pins == 0 | none => true
  match ways.find? k.freeWay with
  | some e => e
  | none =>
    match loose.find? (s.allEvictable core) with
    | some e => e
    | none => (k.oldest loose).getD (4 * set)

/-- Finds or allocates the entry of a value for a context on a core (R66, R68), with DEDUP and COLLISION counted for a
launch. -/
def internValue (s : State) (core ctx launch : Nat) (v : Lanes 32) (counting : Bool) : State × Nat :=
  let tag := inkHash v
  let k := s.core core
  match k.match? ctx tag v with
  | some e => ((if counting then s.count core launch .dedup 1 else s).modCore core (·.touch e), e)
  | none =>
    let s := if counting && k.tagged? ctx tag then s.count core launch .collision 1 else s
    let e := s.victim core (tag.toNat % 1536)
    let s := s.evict core e
    ((s.modCore core fun k =>
        ({ k with ink := k.ink.put e { ctx := ctx, value := v, tag := tag, refs := 0 } } : Core).touch e), e)

/-- Maps a register to an entry (R66, R67). -/
def mapTo (s : State) (gid n e : Nat) (dirty : Bool) : State :=
  match s.group? gid with
  | none => s
  | some g =>
    match g.map.get? n with
    | some m =>
      if m.entry = e then s
      else
        ((s.modCore g.core fun k => { k with ink := k.ink.adjust e fun x => { x with refs := x.refs + 1 } }).modCore g.core
          (·.release m.entry)).modGroup gid fun g => { g with map := g.map.put n { entry := e, dirty := dirty } }
    | none =>
      (s.modCore g.core fun k => { k with ink := k.ink.adjust e fun x => { x with refs := x.refs + 1 } }).modGroup gid
        fun g => { g with map := g.map.put n { entry := e, dirty := dirty } }

/-- WriteResult (R66): the register takes its value, and its mapping the entry of that value. -/
def writeResult (s : State) (gid n : Nat) (v : Lanes 32) : State :=
  match s.group? gid with
  | none => s
  | some g =>
    let s := s.modGroup gid fun g => g.wrV n v
    let (s, e) := s.internValue g.core g.ctx g.launch v true
    s.mapTo gid n e true

/-- A register with no valid map slot takes the line of its image, clean (R67). Whether a line that matches an entry, or
collides with one, counts DEDUP or COLLISION is left open: a fill counts neither (log 14). -/
def fillLine (s : State) (gid n : Nat) (g : Group) (v : Lanes 32) : State :=
  let t := (s.count g.core g.launch .inkFill 1).modGroup gid fun h => h.wrV n v
  let (t, e) := t.internValue g.core g.ctx g.launch v false
  t.mapTo gid n e false

/-- A read of a register: its entry is used, or its line is filled from the image; the answer names the slot whose walk
fails (R55, R67). -/
def fill (s : State) (gid n : Nat) : State × Option Nat :=
  match s.group? gid with
  | none => (s, none)
  | some g =>
    match g.map.get? n with
    | some m => (s.modCore g.core (·.touch m.entry), none)
    | none =>
      match s.vmRead g.ctx (pkgOf g.core) .imageRead (lineVa g n) 128 with
      | .ok b => (s.fillLine gid n g (lineLanes b), none)
      | .fail _ _ => (s, some (lineVa g n))

/-- Reads of some registers in order, up to the first slot whose walk fails. -/
def fillAll (s : State) (gid : Nat) : List Nat → State × Option Nat
  | [] => (s, none)
  | n :: ns =>
    match s.fill gid n with
    | (t, some va) => (t, some va)
    | (t, none) => t.fillAll gid ns

/-- Drops every mapping of a group with Release and writes nothing back (R67). -/
def dropMap (s : State) (gid : Nat) : State :=
  match s.group? gid with
  | none => s
  | some g =>
    (s.modCore g.core fun k => g.map.foldl (fun k m => k.release m.2.entry) k).modGroup gid fun g => { g with map := [] }

end State

/-! ## The blotter (R71 to R75) -/

namespace State

/-- The inkstone entry that a register maps. -/
def entryOf (s : State) (gid n : Nat) : Nat :=
  match s.group? gid with
  | none => 0
  | some g => match g.map.get? n with | some m => m.entry + 1 | none => 0

/-- The blotter set of a key (R72); the hash is the hardware's own (log 14). -/
def blotSet (key : List Nat) : Nat := Config.blotterHash key % Config.blotterSets

/-- The blotter entry of a key on a core, with one result for each of `n` destinations (R73). -/
def blotLookup (s : State) (core : Nat) (ctx : Nat) (key : List Nat) (n : Nat) : Option BlotEntry :=
  ((s.core core).blot.values.find? fun b => b.ctx == ctx && b.key == key && b.result.length == n)

/-- Changes the blotter entry of a key, which counts as its use (R72). -/
def blotAdjust (s : State) (core ctx : Nat) (key : List Nat) (f : BlotEntry → BlotEntry) : State :=
  s.modCore core fun k =>
    { k with blot := k.blot.update fun _ b => if b.ctx == ctx && b.key == key then { f b with used := k.clock } else b
             clock := k.clock + 1 }

/-- Enters a key in its set: over its own old entry, in a free way, or in place of the least recently used one (R72, R73). -/
def blotEnter (s : State) (core : Nat) (b : BlotEntry) : State :=
  let set := blotSet b.key
  s.modCore core fun k =>
    let ways := Core.setWays set
    let own := ways.find? fun w => (k.blot.get? w).any fun x => x.ctx == b.ctx && x.key == b.key
    let way := match own.orElse fun _ => ways.find? fun w => (k.blot.get? w).isNone with
      | some w => w
      | none => ways.foldl (fun c w =>
          match k.blot.get? c, k.blot.get? w with
          | some x, some y => if y.used < x.used then w else c
          | _, _ => c) (4 * set)
    { k with blot := k.blot.put way { b with used := k.clock }, clock := k.clock + 1 }

/-- Invalidates the entries that recorded a VLDC under a read-only lock (R74). -/
def blotUnlock (s : State) (lock : Nat × Nat) : State :=
  { s with cores := s.cores.update fun _ k => { k with blot := k.blot.keep fun _ b => b.lock != some lock } }

end State
end Sys2Proof.Machine
end

