-- ==== Sys2Proof/Machine/Names.lean ====
section
/-! DEFINITION. Names and the name table (R296 to R305, R307): entries as fields of the context's own memory, checks and
rights, and the mailbox. -/

namespace Sys2Proof.Machine

/-! ## Names (R296) -/

def nameIndex (n : Word64) : Nat := field n.toNat 40 24
def nameGen (n : Word64) : Nat := field n.toNat 16 24
def nameKind (n : Word64) : Nat := field n.toNat 8 8
def mkName (index gen kind : Nat) : Word64 :=
  BitVec.ofNat 64 (index % 2 ^ 24 * 2 ^ 40 + gen % 2 ^ 24 * 2 ^ 16 + kind % 256 * 256)

/-- A name as it is written: bits 7:0 are ignored on read and written as zero (R8, R296). -/
def cleanName (n : Word64) : Word64 := n &&& ~~~255#64

/-- Two names that differ in the ignored bits at most (R296). -/
def sameName (a b : Word64) : Bool := cleanName a == cleanName b

/-- An entry of a name table (R298). -/
structure NameEntry where
  loc    : Nat := 0
  mbox   : Nat := 0
  launch : Nat := 0
  cridx  : Nat := 0
  crgen  : Nat := 0
  qcount : Nat := 0
  alias_ : Bool := false
  elig   : Bool := false
  cause  : Nat := 0
  gen    : Nat := 0
  kind   : Nat := 0
  rights : Nat := 0
  state  : Nat := 0
  deriving DecidableEq, Repr

/-- The values of STATE (R298). -/
def stFree : Nat := 0
def stRunning : Nat := 1
def stParked : Nat := 2
def stMigrating : Nat := 3
def stSwapped : Nat := 4
def stDead : Nat := 5

namespace NameEntry

def ofNat (w : Nat) : NameEntry :=
  { state := field w 0 3, rights := field w 3 5, kind := field w 8 8, gen := field w 16 24, cause := field w 40 2
    elig := bitAt w 42, alias_ := bitAt w 43, qcount := field w 44 8, crgen := field w 88 24, cridx := field w 112 24
    launch := field w 136 24, mbox := field w 160 32, loc := field w 192 64 }

def toNat (e : NameEntry) : Nat :=
  e.state % 8 + e.rights % 32 * 2 ^ 3 + e.kind % 256 * 2 ^ 8 + e.gen % 2 ^ 24 * 2 ^ 16 + e.cause % 4 * 2 ^ 40
    + b2n e.elig * 2 ^ 42 + b2n e.alias_ * 2 ^ 43 + e.qcount % 256 * 2 ^ 44 + e.crgen % 2 ^ 24 * 2 ^ 88
    + e.cridx % 2 ^ 24 * 2 ^ 112 + e.launch % 2 ^ 24 * 2 ^ 136 + e.mbox % 2 ^ 32 * 2 ^ 160 + e.loc % 2 ^ 64 * 2 ^ 192

def name (e : NameEntry) (i : Nat) : Word64 := mkName i e.gen e.kind

end NameEntry

def EndCause.code : EndCause → Nat | .none => 0 | .exit => 1 | .faulted => 2 | .killed => 3

namespace State

def homeOf (s : State) (ctx : Nat) : Nat := match s.context? ctx with | some c => c.home | none => 0
def tableAt (s : State) (ctx : Nat) : Nat := match s.context? ctx with | some c => c.nametab | none => 0
def tableSize (s : State) (ctx : Nat) : Nat := match s.context? ctx with | some c => 2 ^ c.nametabN | none => 0

/-- The die of the domain that is home to an entry (R301). -/
def homeDie (s : State) (ctx i : Nat) : Nat := s.homeOf ctx * 8 + i % 8

def entryVa (s : State) (ctx i : Nat) : Nat := s.tableAt ctx + 32 * i

/-- Reads an entry; a walk failure gives none (R297). -/
def entry? (s : State) (ctx i : Nat) : Option NameEntry :=
  match s.vmRead ctx (s.homeOf ctx) .imageRead (s.entryVa ctx i) 32 with
  | .ok b => some (NameEntry.ofNat (ofBytes b))
  | .fail _ _ => none

/-- A failed walk of the table is CONTEXT_IMAGE_FAULT (R297). -/
def tableFault (s : State) (ctx i : Nat) : State :=
  s.soon (.contextFatalFault ctx 0x82 (BitVec.ofNat 64 (s.entryVa ctx i)) 0)

def putEntry (s : State) (ctx i : Nat) (e : NameEntry) : State :=
  match s.vmWrite ctx (s.homeOf ctx) .imageWrite (s.entryVa ctx i) (toBytes 32 e.toNat) with
  | (t, none) => t
  | (_, some _) => s.tableFault ctx i

def modEntry (s : State) (ctx i : Nat) (f : NameEntry → NameEntry) : State :=
  match s.entry? ctx i with
  | some e => s.putEntry ctx i (f e)
  | none => s.tableFault ctx i

/-- Reaping (R299): STATE FREE, GEN one higher, every other field clear. -/
def reapEntry (s : State) (ctx i : Nat) : State :=
  s.modEntry ctx i fun e => { gen := (e.gen + 1) % 2 ^ 24 }

/-- The entries of a table that an allocation may take, lowest first, and those whose walk fails, which it meets on its
way (R297): for the default schedule only (log 17). -/
def freeEntries (s : State) (ctx : Nat) : List Nat :=
  (List.range (s.tableSize ctx)).filter fun i =>
    i != 0 && (match s.entry? ctx i with | some e => e.state == stFree | none => true)

/-- The first of some entries whose walk fails (R297). -/
def unreadable (s : State) (ctx : Nat) (is : List Nat) : Option Nat :=
  is.find? fun i => i != 0 && decide (i < s.tableSize ctx) && (s.entry? ctx i).isNone

/-- Entries that are distinct, in range and FREE. -/
def allFree (s : State) (ctx : Nat) (is : List Nat) : Bool :=
  decide is.Nodup && is.all fun i =>
    i != 0 && decide (i < s.tableSize ctx) && (match s.entry? ctx i with | some e => e.state == stFree | none => false)

end State

/-! ## Status words (R304) -/

inductive NameCode where
  | ok | queued | dead | stale | denied | nosuch | full | busy | timeout | badlen
  deriving DecidableEq, Repr

def NameCode.code : NameCode → Nat
  | .ok => 0 | .queued => 1 | .dead => 2 | .stale => 3 | .denied => 4 | .nosuch => 5 | .full => 6 | .busy => 7
  | .timeout => 8 | .badlen => 9

/-- The status word of a name operation (R304). -/
def nameStatus (c : NameCode) (state cause : Nat) : Word64 :=
  BitVec.ofNat 64 (c.code + state % 8 * 256 + cause % 4 * 4096)

/-! ## Rights (R302) -/

def rightWake : Nat := 1
def rightSignal : Nat := 2
def rightDeposit : Nat := 4
def rightJoin : Nat := 8
def rightKill : Nat := 16

namespace State

/-- Rights(I, e) (R302); `launch` is the launch number of an issuer that is a device group. -/
def rights (issuer : Word64) (launch : Nat) (e : NameEntry) : Nat :=
  if e.alias_ then e.rights
  else if nameIndex issuer == e.cridx && nameGen issuer == e.crgen then 31
  else if nameKind issuer == 1 && e.kind == 1 && launch == e.launch then
    rightWake + rightSignal + rightDeposit + rightJoin
  else e.rights

end State

/-- The outcome of steps 1 and 2 of R305. -/
inductive Found where
  | fail (c : NameCode)
  | fault
  | entry (i : Nat) (e : NameEntry)

namespace State

/-- Steps 1 and 2 of R305: NOSUCH, then STALE. -/
def findName (s : State) (ctx : Nat) (n : Word64) : Found :=
  let i := nameIndex n
  if i = 0 ∨ s.tableSize ctx ≤ i then .fail .nosuch
  else
    match s.entry? ctx i with
    | none => .fault
    | some e =>
      if e.state = stFree then .fail .nosuch
      else if e.gen ≠ nameGen n ∨ e.kind ≠ nameKind n then .fail .stale
      else .entry i e

/-- The foreign entry that an alias stands for, with its context (R303): STALE when its generation or kind differs, and NOSUCH when
its table has no such index or the entry is FREE (step 1 of R305). -/
def foreign (s : State) (e : NameEntry) : Nat × Found :=
  let c := field e.loc 48 12
  let i := field e.loc 24 24
  (c, match s.context? c with
    | none => .fail .stale
    | some _ =>
      if i = 0 ∨ s.tableSize c ≤ i then .fail .nosuch
      else
        match s.entry? c i with
        | none => .fault
        | some f =>
          if f.gen ≠ field e.loc 0 24 ∨ f.kind ≠ e.kind then .fail .stale
          else if f.state = stFree then .fail .nosuch
          else .entry i f)

/-- The walk of the table that an alias's foreign entry stands in has failed (R297). -/
def foreignFault (s : State) (e : NameEntry) : State := s.tableFault (field e.loc 48 12) (field e.loc 24 24)

/-- The context and index of the entry that a name reaches: an alias stands for a foreign one (R303). -/
def targetKey (s : State) (ctx : Nat) (n : Word64) : Nat × Nat :=
  match s.entry? ctx (nameIndex n) with
  | some e => if e.alias_ then (field e.loc 48 12, field e.loc 24 24) else (ctx, nameIndex n)
  | none => (ctx, nameIndex n)

/-- The group that a device-group name of a context names. -/
def groupNamed (s : State) (ctx : Nat) (n : Word64) : Option Nat :=
  (s.groups.find? fun g => g.2.ctx == ctx && g.2.name.toNat / 256 == n.toNat / 256 && g.2.phase != .dead).map (·.1)

end State

/-! ## The mailbox (R298, R307) -/

/-- The operation byte and value of an item (R307). -/
inductive Item where
  | wake
  | signal (m : Word32)
  | deposit (k : BitVec 3) (value : Word64)
  | kill
  deriving DecidableEq, Repr

def Item.bytes : Item → List Byte
  | .wake => [1] ++ zeros 15
  | .signal m => [2] ++ zeros 7 ++ toBytes 8 m.toNat
  | .deposit k v => [3, BitVec.ofNat 8 k.toNat] ++ zeros 6 ++ toBytes 8 v.toNat
  | .kill => [4] ++ zeros 15

/-- An item whose operation byte is not 1 to 4 is skipped (R307). -/
def Item.ofBytes (b : List Byte) : Option Item :=
  let n := Sys2Proof.ofBytes b
  match field n 0 8 with
  | 1 => some .wake
  | 2 => some (.signal (BitVec.ofNat 32 (field n 64 32)))
  | 3 => some (.deposit (BitVec.ofNat 3 (field n 8 8)) (BitVec.ofNat 64 (field n 64 64)))
  | 4 => some .kill
  | _ => none

def NameAct.item? : NameAct → Option Item
  | .wake => some .wake
  | .signal m => some (.signal m)
  | .deposit k v => some (.deposit k v)
  | .kill => some .kill
  | _ => none

namespace State

/-- Where the mailbox of an entry that is taken lies (R298, R299): at the hardware's own place for its index. One that no window
holds at that moment lies above every window, where no MAP reaches (log 12). -/
def mailboxFor (s : State) (ctx i : Nat) : Nat :=
  let p := (Config.mailboxPlace i).toNat
  if (field p 0 29 + 1) * 256 ≤ s.windowSize ctx (s.homeOf ctx) (field p 29 3) then p else setField p 28 1 1

/-- Byte 0 of an entry's mailbox, in the home package's windows (R298). -/
def mailboxAt (s : State) (ctx : Nat) (e : NameEntry) : Nat :=
  placeWindow ctx (s.homeOf ctx) (field e.mbox 29 3) + field e.mbox 0 29 * 256

def mailItem (s : State) (ctx : Nat) (e : NameEntry) (q : Nat) : Option Item :=
  Item.ofBytes (s.readBytes (s.mailboxAt ctx e + 16 * q) 16)

/-- Queues one item, or answers FULL at the seventeenth (R307). -/
def queueItem (s : State) (ctx i : Nat) (e : NameEntry) (it : Item) : State × NameCode :=
  if 16 ≤ e.qcount then (s, .full)
  else ((s.writeBytes (s.mailboxAt ctx e + 16 * e.qcount) it.bytes).putEntry ctx i { e with qcount := e.qcount + 1 }, .queued)

end State
end Sys2Proof.Machine
end

