-- ==== Sys2Proof/Machine/Image.lean ====
section
/-! DEFINITION. Context images and cohort images (R54, R55, R366), and the register values that an image saves (R356 to
R361, R58 to R61). -/

namespace Sys2Proof.Machine

/-! ## Per-group system registers -/

/-- GHELP (R48). -/
def Group.ghelp (g : Group) : Word64 := BitVec.ofNat 64 g.helpers.toNat
def Group.regBudget (g : Group) : Word64 := BitVec.ofNat 64 (field g.budget 0 11)
def Group.stkLim (g : Group) : Word64 := BitVec.ofNat 64 (field g.stack 0 32)
/-- XBOUNDn: UPPER in bits 26:16, LOWER in bits 10:0; UPPER resets to budget - 1 (R59). -/
def Group.xbound (g : Group) (n : Nat) : Word64 :=
  g.sys.xbound.read (BitVec.ofNat 64 ((g.budget - 1) % 2 ^ 11 * 2 ^ 16)) n

def State.launchNum (s : State) (g : Group) : Nat := match s.launch? g.launch with | some l => l.num | none => 0

/-- The value of the per-group register numbered `k`; slots with no register hold zero (R54, R356). -/
def State.groupSys (s : State) (g : Group) (k : Nat) : Word64 :=
  match k with
  | 0 => g.sys.fstat | 1 => g.sys.psig | 2 => g.sys.depmask | 3 => g.ghelp | 4 => g.regBudget | 5 => g.sys.stkp
  | 6 => g.stkLim | 7 => g.xbound 0 | 8 => g.xbound 1 | 9 => g.xbound 2 | 10 => g.xbound 3
  | 11 => BitVec.ofNat 64 (s.launchNum g) | 12 => g.sys.argloc
  | 16 => g.sys.xpc | 17 => g.sys.xcause | 18 => g.sys.xstat | 19 => g.sys.xaddr | 20 => g.sys.xscr0 | 21 => g.sys.xscr1
  | _ => 0

/-! ## The fibre record (R54) -/

def Fibre.statusCode (f : Fibre) : Nat :=
  match f.kind with
  | .empty => 0xFF
  | .helper => if f.ended then 2 else 3
  | .fibre => if f.ended then 2 else if f.wait == .none then 0 else 1

/-- The 32 bytes of a fibre record. -/
def Fibre.bytes (f : Fibre) : List Byte :=
  let held := f.held.isSome
  let cause := match f.held with | some h => h.cause.toNat | none => 0
  let plus8 := match f.held with | some h => h.plus8 | none => false
  let order := match f.held with | some h => h.order | none => f.deadline
  toBytes 8 f.pc.toNat ++ toBytes 1 f.statusCode ++ toBytes 1 f.wait.code
    ++ toBytes 1 (b2n f.priv + 2 * b2n f.inTrap + 4 * b2n held) ++ toBytes 1 cause ++ toBytes 1 (b2n plus8)
    ++ [0, 0, 0] ++ toBytes 8 f.operand.toNat ++ toBytes 8 order

def waitOf : Nat → Wait
  | 1 => .meet | 2 => .barrier | 3 => .cbwait | 4 => .waitw | 5 => .rgacq | 6 => .rgpeek | 7 => .npark | 8 => .njoin
  | 9 => .sleep | 10 => .trapSplit | 11 => .scrollFull | 12 => .engine | _ => .none

/-- A fibre rebuilt from its record (R405); a helper that has ended keeps its kind from the group's GHELP. -/
def Fibre.ofBytes (b : List Byte) (helper : Bool) : Fibre :=
  let n := Sys2Proof.ofBytes b
  let st := field n 64 8
  let flags := field n 80 8
  let held := bitAt flags 2
  { kind := if st == 0xFF then .empty else if helper || st == 3 then .helper else .fibre
    ended := st == 2
    pc := BitVec.ofNat 64 (field n 0 64)
    wait := waitOf (field n 72 8)
    operand := BitVec.ofNat 64 (field n 128 64)
    deadline := if held then 0 else field n 192 64
    priv := bitAt flags 0
    inTrap := bitAt flags 1
    held := if held then some ⟨BitVec.ofNat 8 (field n 88 8), bitAt (field n 96 8) 0, field n 192 64⟩ else none }

/-! ## The part of the image below 0x1000 -/

namespace State

/-- The first 4 KiB of a group's context image (R54). -/
def imageHead (s : State) (g : Group) : List Byte :=
  toBytes 2 0x1A6E ++ toBytes 2 g.budget ++ toBytes 4 g.stack ++ toBytes 8 g.name.toNat ++ zeros 112
    ++ (List.range 128).flatMap (fun n => toBytes 8 (g.s.read 0 n).toNat)
    ++ (List.range 12).flatMap (fun n => toBytes 4 (g.p.read 0 n).toNat)
    ++ (List.range 8).map (fun n => BitVec.ofNat 8 (b2n (g.sp.getLsbD n)))
    ++ zeros 72
    ++ (List.range 4).flatMap (fun n => (List.range 32).flatMap fun f => toBytes 2 ((g.x.read (Lanes.zero 16) n).lane f).toNat)
    ++ (List.range 64).flatMap (fun k => toBytes 8 (s.groupSys g k).toNat)
    ++ (List.range 32).flatMap (fun f => (g.fibre f).bytes)
    ++ zeros 1024

/-- One register as bytes: lane f at byte 4f (R54). -/
def regBytes (g : Group) (n : Nat) : List Byte := (g.rdV n).flatMap fun x => toBytes 4 x.toNat

/-- A whole image as bytes, for a dump (R369). -/
def imageBytes (s : State) (gid : Nat) (g : Group) : List Byte :=
  s.imageHead g ++ (List.range g.budget).flatMap (regBytes g) ++ s.readBytes (placeStack gid) g.stack

def slice (b : List Byte) (off n : Nat) : List Byte := (b.drop off).take n
def num (b : List Byte) (off n : Nat) : Nat := ofBytes (slice b off n)

/-- A register file entry list built from a function, without its zeros. -/
def sparse {α : Type} [DecidableEq α] (d : α) (n : Nat) (r : Nat → α) : Tbl α :=
  ((List.range n).map fun i => (i, r i)).filter fun e => decide (e.2 ≠ d)

/-- A group with the registers and fibres of an image head (R54, R57, R405). -/
def loadHead (g : Group) (b : List Byte) : Group :=
  let helpers := g.helpers
  { g with
    s := sparse 0 128 fun n => BitVec.ofNat 64 (num b (0x80 + 8 * n) 8)
    p := sparse 0 12 fun n => BitVec.ofNat 32 (num b (0x480 + 4 * n) 4)
    sp := BitVec.ofNat 8 ((List.range 8).foldr (fun n acc => num b (0x4B0 + n) 1 % 2 * 2 ^ n + acc) 0)
    x := sparse (Lanes.zero 16) 4 fun n => Lanes.build fun f => BitVec.ofNat 16 (num b (0x500 + 64 * n + 2 * f) 2)
    sys :=
      { fstat := BitVec.ofNat 64 (num b 0x600 8), psig := BitVec.ofNat 64 (num b 0x608 8)
        depmask := BitVec.ofNat 64 (num b 0x610 8), stkp := BitVec.ofNat 64 (num b 0x628 8)
        xbound := (List.range 4).map fun n => (n, BitVec.ofNat 64 (num b (0x638 + 8 * n) 8))
        argloc := g.sys.argloc
        xpc := BitVec.ofNat 64 (num b 0x680 8), xcause := BitVec.ofNat 64 (num b 0x688 8)
        xstat := BitVec.ofNat 64 (num b 0x690 8), xaddr := BitVec.ofNat 64 (num b 0x698 8)
        xscr0 := BitVec.ofNat 64 (num b 0x6A0 8), xscr1 := BitVec.ofNat 64 (num b 0x6A8 8) }
    fibres := (List.range 32).map fun f => Fibre.ofBytes (slice b (0x800 + 32 * f) 32) (helpers.getLsbD f) }

/-- Strokes are rebuilt from the fibre records alone: parked fibres that agree in program counter, mode flags and wait form one
stroke, and running fibres join at the next re-formation (R405). So two strokes that were parked alike are one after a restore, which
takes one place where they took two, as in WAITERS: DEDUCED (log 48). -/
def rebuildStrokes (g : Group) : Group :=
  let same := fun (x y : Fibre) => x.wait != .none && Group.together x y && x.wait == y.wait && x.operand == y.operand
    && x.deadline == y.deadline
  g.mapFibres fun f x => { x with stroke := ((List.range 32).find? fun h => same (g.fibre h) x).getD f }

/-- Writes part of a saved group's image; a failing walk ends its context (R55). -/
def pokeImage (s : State) (gid off : Nat) (b : List Byte) : State :=
  match s.group? gid with
  | none => s
  | some g =>
    match s.vmWrite g.ctx (pkgOf g.core) .imageWrite (g.image + off) b with
    | (t, none) => t
    | (_, some e) => s.soon (.contextFatalFault g.ctx 0x82 (BitVec.ofNat 64 e.2) (s.thread g 0xFF))

/-- A group whose registers lie in its image (R51). -/
def saved (g : Group) : Bool := g.phase == .stopping || g.phase == .parked || g.phase == .swapped

/-- A saved group's image follows its registers and fibre records (R54, R366). -/
def syncImage (s : State) (gid : Nat) : State :=
  match s.group? gid with
  | none => s
  | some g => if saved g then s.pokeImage gid 0 (s.imageHead g) else s

/-- Lands a value in a uniform register of a group that may be stopped: it then lands in the image too (R38, R256). -/
def landS (s : State) (gid : Nat) (n : SReg) (v : Word64) : State :=
  match s.group? gid with
  | none => s
  | some g =>
    let t := s.modGroup gid fun g => g.wrS n v
    if saved g then t.pokeImage gid (0x80 + 8 * n.toNat) (toBytes 8 v.toNat) else t

end State

/-! ## The cohort image (R366) -/

/-- The space code, member or die of a locked place, from the view of a cohort: the owner word of R366. -/
structure LockPlace where
  space : Nat
  owner : Nat

namespace State

/-- Where a lock's bytes lie, as R366 writes it. -/
def lockPlace (s : State) (coh : Nat) (c : Cohort) (place : Nat) : LockPlace :=
  if place == placeShared coh then ⟨0, 0⟩
  else
    let members := match s.cluster? c.cluster with | some k => k.cohorts | none => []
    match members.findIdx? (fun m => placeShared m == place) with
    | some m => ⟨1, m * 2 ^ 19⟩
    | none =>
      let k := (place / 2 ^ 80 - 2) / 3
      ⟨2, k / 8 % 256 * 2 ^ 40 + k % 8 * 2 ^ 37⟩

/-- The read-only locks of a cohort, by handle. -/
def rlocks (s : State) (coh : Nat) : List (Nat × Lock) :=
  s.locks.filterMap fun l => match l.owner with | .rlock c h => if c == coh then some (h, l) else none | _ => none

/-- The tile slots that the holders of a cohort hold on its core, in grant order. -/
def heldSlots (s : State) (coh : Nat) : List Nat :=
  (s.holders.filter fun h => h.2.cohort == coh).flatMap fun h => h.2.slots

/-- The bytes of a cohort image that holds something: with no slots it ends with shared memory (R366; log 18). -/
def cohortImageUsed (shared slots : Nat) : Nat :=
  if slots = 0 then 0x400 + shared else roundUp (0x400 + shared) 4096 + 65536 * slots

/-- The first 1 KiB of a cohort image: header, barrier, names and read-only locks (R366). -/
def cohortHead (s : State) (coh : Nat) (c : Cohort) : List Byte :=
  let slots := s.heldSlots coh
  let locks := s.rlocks coh
  let thread := c.num % 2 ^ 24 * 2 ^ 16 + 0xFFFF
    + (match s.launch? c.launch with | some l => l.num % 2 ^ 24 * 2 ^ 40 | none => 0)
  let lockWord := fun i => match locks[i]? with
    | none => 2 ^ 64 - 1
    | some (h, l) => (s.lockPlace coh c l.place).space * 2 ^ 56 + h * 2 ^ 48 + l.first % 2 ^ 24 * 2 ^ 24 + l.last % 2 ^ 24
  let ownerWord := fun i => match locks[i]? with
    | none => 0
    | some (_, l) => (s.lockPlace coh c l.place).owner
  toBytes 2 0xC0E1 ++ toBytes 1 c.groups.length ++ toBytes 1 slots.length ++ toBytes 4 c.shared ++ toBytes 8 thread
    ++ zeros 48
    ++ toBytes 16 (b2n c.phase) ++ toBytes 2 c.owed.toNat ++ zeros 14
    ++ (List.range 16).flatMap (fun i => toBytes 4 (c.arrived.read 0 i).toNat) ++ zeros 32
    ++ (List.range 16).flatMap (fun i =>
        toBytes 8 (match c.groups[i]? with | some g => (match s.group? g with | some g => g.name.toNat | none => 0) | none => 0))
    ++ (List.range 32).flatMap (fun i => toBytes 8 (lockWord i))
    ++ (List.range 32).flatMap (fun i => toBytes 8 (ownerWord i))
    ++ zeros 192

/-- The cohort image as bytes: its head, shared memory, slots (R366). -/
def cohortBytes (s : State) (coh : Nat) (c : Cohort) : List Byte :=
  let slots := s.heldSlots coh
  s.cohortHead coh c ++ s.readBytes (placeShared coh) c.shared ++ zeros (if slots.isEmpty then 0 else roundUp (0x400 + c.shared) 4096 - (0x400 + c.shared))
    ++ slots.flatMap (fun n => s.readBytes (slotAt (c.core.getD 0) n) 65536)

/-- A saved cohort's image follows its barrier and its locks (R192, R366); a failing walk ends its context (R55). -/
def syncCohort (s : State) (coh : Nat) : State :=
  match s.cohort? coh with
  | none => s
  | some c =>
    if c.saved then
      let pkg := match s.cluster? c.cluster with | some k => k.pkg | none => 0
      match s.vmWrite c.ctx pkg .imageWrite c.image (s.cohortHead coh c) with
      | (t, none) => t
      | (_, some e) => s.soon (.contextFatalFault c.ctx 0x82 (BitVec.ofNat 64 e.2) 0)
    else s

/-- The bytes that a group's image takes (R54). -/
def imageSize (budget stack : Nat) : Nat := roundUp (0x1000 + 128 * budget + stack) 4096
/-- The bytes that a cohort's image takes, sized for six slots (R55, R366). -/
def cohortImageSize (shared : Nat) : Nat := roundUp (0x400 + shared) 4096 + 6 * 65536

end State
end Sys2Proof.Machine
end

