-- ==== Sys2Proof/Machine/Dump.lean ====
section
/-! DEFINITION. The dump of a context-fatal fault (R369 to R372). -/

namespace Sys2Proof.Machine

/-- A section of a dump: its kind and its bytes (R369). -/
structure Section where
  kind  : Nat
  bytes : List Byte

/-- What the header of a dump says (R369); `fatal` is the cause itself, `cause` the code that the header shows (R370). `faults` holds
the fault-buffer entries as they stood at step 1 of R364 (R371). -/
structure DumpInfo where
  ctx    : Nat
  fatal  : Byte
  cause  : Byte
  after  : Nat
  freeze : Nat
  time   : Nat
  addr   : Word64
  thread : Word64
  faults : List Byte

namespace State

/-- Bytes of an image through translation; a byte that cannot be obtained is 0xFF (R372). -/
def imageOrFF (s : State) (ctx pkg va n : Nat) : List Byte :=
  (chunksOf va n).flatMap fun c =>
    match s.walk ctx pkg .imageRead c.1 with
    | .ok pa => s.readPage ctx pa c.2
    | _ => List.replicate c.2 0xFF

/-- A group's image for a dump: each byte from on-chip state where it is held there, otherwise from the image; a group that has
never been resident, or whose cohort's images have gone back to the pool, has neither (R55, R372). -/
def groupSection (s : State) (gid : Nat) (g : Group) : List Byte :=
  let pkg := pkgOf g.core
  let freed := match s.cohort? g.cohort with
    | some c => c.groups.all fun h => (match s.group? h with | some h => h.phase == .dead | none => true)
    | none => true
  if g.phase == .waiting || (g.phase == .dead && freed) then List.replicate (0x1000 + 128 * g.budget + g.stack) 0xFF
  else
    let onChip := g.phase == .resident || g.phase == .ending || g.phase == .stopping
    let head := if onChip then s.imageHead g else s.imageOrFF g.ctx pkg g.image 0x1000
    let reg := fun n => if (g.map.get? n).isSome then regBytes g n else s.imageOrFF g.ctx pkg (g.image + 0x1000 + 128 * n) 128
    let stack := if onChip then s.readBytes (placeStack gid) g.stack
      else s.imageOrFF g.ctx pkg (g.image + 0x1000 + 128 * g.budget) g.stack
    head ++ (List.range g.budget).flatMap reg ++ stack

/-- A cohort's image for a dump, after its locks have dropped and its slots are released (R364). -/
def cohortSection (s : State) (coh : Nat) (c : Cohort) : List Byte :=
  if c.core.isSome then s.cohortBytes coh c
  else
    match s.cluster? c.cluster with
    | some k =>
      let b := s.imageOrFF c.ctx k.pkg c.image (cohortImageUsed c.shared (s.heldSlots coh).length)
      match s.walk c.ctx k.pkg .imageRead c.image with
      | .ok _ => s.cohortHead coh c ++ b.drop 0x400
      | _ => b
    | none => []

/-- A fault-queue entry (R272). -/
def faultBytes (die idx : Nat) (e : FaultEntry) : List Byte :=
  toBytes 8 (e.page * 65536) ++ toBytes 1 e.access ++ toBytes 1 (die % 8) ++ toBytes 2 idx ++ toBytes 2 e.merge ++ zeros 2
    ++ toBytes 8 e.thread.toNat ++ toBytes 4 e.seq ++ zeros 4

/-- SCRCTL (R337). -/
def scrctl (x : Scroll) : Word64 :=
  BitVec.ofNat 64 (x.mode % 4 + b2n x.noReuse * 4 + b2n x.frozen * 8 + b2n x.high * 16 + x.logSize % 64 * 256)

/-- The groups that a dump shows, by launch number and then group index (R371): those that have an image, and for
CONTEXT_IMAGE_FAULT every group of the context (R372; log 18). -/
def dumpGroups (s : State) (ctx : Nat) (every : Bool) : List (Nat × Group) :=
  let key := fun (g : Group) => [s.launchNum g, g.index, match s.cohort? g.cohort with | some c => c.num | none => 0]
  sortBy (fun a b => lexLe (key a.2) (key b.2)) (s.groups.filter fun g =>
    g.2.ctx == ctx && (every || g.2.phase == .resident || g.2.phase == .ending || saved g.2))

/-- The fault-buffer entries of a context. -/
def faultSection (s : State) (ctx : Nat) : List Byte :=
  s.dies.flatMap fun d => (d.2.faults.filter fun e => e.2.ctx == ctx).flatMap fun e => faultBytes d.1 e.1 e.2

/-- The sections of a context's dump in the order of R371. -/
def dumpSections (s : State) (ctx : Nat) (every : Bool) (faults : List Byte) : List Section :=
  let groups := (s.dumpGroups ctx every).map fun g => ⟨1, s.groupSection g.1 g.2⟩
  let num := fun (c : Cohort) => [match s.launch? c.launch with | some l => l.num | none => 0, c.num]
  let cohorts := (sortBy (fun a b => lexLe (num a.2) (num b.2)) (s.cohorts.filter fun c =>
    c.2.ctx == ctx && (c.2.core.isSome || c.2.saved))).map fun c => ⟨2, s.cohortSection c.1 c.2⟩
  let scrolls := match s.context? ctx with
    | none => []
    | some c => c.sites.filterMap fun p =>
        if p.2.scroll.mode == 0 then none
        else some (⟨5, toBytes 8 (scrctl p.2.scroll).toNat ++ toBytes 8 p.2.scroll.base
          ++ toBytes 8 p.2.scroll.widx.toNat ++ toBytes 8 p.2.scroll.ridx.toNat⟩ : Section)
  groups ++ cohorts ++ (if faults.isEmpty then [] else [⟨4, faults⟩]) ++ scrolls

/-- A section-table entry: kind in bytes 0 and 1, offset in bytes 8 to 15 (R369). -/
def tableEntry (e : Nat × Nat) : List Byte := toBytes 2 e.1 ++ zeros 6 ++ toBytes 8 e.2

/-- The section table of a header: at most 13 entries; with more, the thirteenth names the continuation table (R371). -/
def headerTable (written : List (Nat × Nat)) (cont : Nat) : List Byte :=
  let t := if 13 < written.length then (written.take 12).flatMap tableEntry ++ tableEntry (0xFF, cont)
    else written.flatMap tableEntry
  t ++ zeros (208 - t.length)

/-- The 256 bytes of a header; `flags` as in byte 14 (R369). -/
def dumpHeader (d : DumpInfo) (written : List (Nat × Nat)) (flags cont : Nat) : List Byte :=
  toBytes 4 0xD0E5A1C3 ++ toBytes 2 1 ++ [d.cause] ++ toBytes 1 (min d.after 255) ++ toBytes 4 d.ctx
    ++ toBytes 2 written.length ++ toBytes 1 flags ++ [0] ++ toBytes 8 d.freeze ++ toBytes 8 d.time
    ++ toBytes 8 d.addr.toNat ++ toBytes 8 d.thread.toNat ++ headerTable written cont

/-- The parts of a dump behind its header, each with its offset. -/
def placeParts : Nat → List (List Byte) → List (Nat × List Byte)
  | _, [] => []
  | off, x :: xs => (off, x) :: placeParts (off + x.length) xs

/-- Everything after header byte 15 of a confidential context's dump is encrypted (R370): AES-256-GCM adds a pad to the
plaintext, byte by byte (log 43). -/
def sealPart (key : Option (List Byte)) (off : Nat) (b : List Byte) : List Byte :=
  match key with
  | none => b
  | some k => b.zipIdx.map fun x => if off + x.2 < 16 then x.1 else x.1 ^^^ Config.dumpPad k (off + x.2)

/-- How a dump comes to its end: whole, cut short by the end of the area, or by a write that failed (R369). -/
inductive DumpEnd where
  | whole | cut | failed
  deriving DecidableEq, Repr

/-- Writes parts until one would pass the end of the area or a write fails; answers how many were written (R369). -/
def writeParts (ctx pkg at_ size : Nat) (key : Option (List Byte)) : State → List (Nat × List Byte) → State × Nat × DumpEnd
  | s, [] => (s, 0, .whole)
  | s, x :: xs =>
    if size < x.1 + x.2.length then (s, 0, .cut)
    else
      match s.vmWrite ctx pkg .imageWrite (at_ + x.1) (sealPart key x.1 x.2) with
      | (t, none) => let r := writeParts ctx pkg at_ size key t xs; (r.1, r.2.1 + 1, r.2.2)
      | (_, some _) => (s, 0, .failed)

/-- The continuation table of `n` bytes for some written sections: those that the header does not name, and an all-zero
entry (R371). -/
def contTable (written : List (Nat × Nat)) (n : Nat) : List Byte :=
  let t := if 13 < written.length then (written.drop 12).flatMap tableEntry else []
  t ++ zeros (n - t.length)

/-- Writes the dump of a context and sets its size (R369, R371). The continuation table, when one is needed, stands after
the header (log 18); a dump that ends early has its tables written again. -/
def writeDump (s : State) (d : DumpInfo) : State :=
  match s.context? d.ctx with
  | none => s
  | some c =>
    let key := if c.confidential then some c.ownerKey else none
    let all := s.dumpSections d.ctx (d.fatal == 0x82) d.faults
    let cont := if 13 < all.length then 16 * (all.length - 12 + 1) else 0
    let lead := if cont = 0 then 0 else 1
    let places := placeParts (256 + cont) (all.map (·.bytes))
    let table := (all.map (·.kind)).zip (places.map (·.1))
    let put := fun (s : State) (off : Nat) (b : List Byte) => s.vmWrite d.ctx c.home .imageWrite (c.dumpAt + off) (sealPart key off b)
    if c.dumpSize < 256 then s
    else
      match put s 0 (dumpHeader d table 0 256) with
      | (_, some _) => s
      | (s1, none) =>
        let parts := (if cont = 0 then [] else [(256, contTable table cont)]) ++ places
        let (s2, n, how) := writeParts d.ctx c.home c.dumpAt c.dumpSize key s1 parts
        let written := table.take (n - lead)
        let s3 := if how = .whole then s2
          else
            let t := (put s2 0 (dumpHeader d written (if how = .cut then 1 else 2) 256)).1
            if cont ≠ 0 ∧ n ≠ 0 then (put t 256 (contTable written cont)).1 else t
        let size := match (parts.take n).getLast? with | some x => x.1 + x.2.length | none => 256
        s3.modContext d.ctx fun c => { c with dumpLen := size }

/-- The cause class that the administrator of a confidential context sees (R370). -/
def causeClass (cause : Byte) : Byte :=
  let c := cause.toNat
  if c == 0x85 then 4 else if c == 0x83 then 3 else if c == 0x80 || c == 0x81 || c == 0x82 then 2 else 1

end State
end Sys2Proof.Machine
end

