-- ==== Sys2Proof/Machine/Ops.lean ====
section
/-! DEFINITION. Shared operations: landing a status word, replies, the barrier and MEET, the ends of fibres, groups and
cohorts (R31, R39, R152, R192), taking a trap and returning from it (R351 to R354, R359), and the context-fatal fault
(R364). -/

namespace Sys2Proof.Machine

namespace State

/-! ## Status words and deposits -/

/-- The fibres of a group that wait in the ownership queue of their core (R278). -/
def queuedMask (s : State) (gid : Nat) (g : Group) : BitVec 32 :=
  (s.core g.core).queue.foldl (fun m e => if e.gid == gid then m ||| e.mask else m) 0

/-- A deposit lands in its register and DEPMASK bit, as one update (R61, R306). -/
def putDeposit (s : State) (gid k : Nat) (v : Word64) : State :=
  let t := s.landS gid (BitVec.ofNat 7 (112 + k)) v
  let t := t.modGroup gid fun g => { g with sys := { g.sys with depmask := g.sys.depmask ||| BitVec.ofNat 64 (2 ^ k) } }
  match t.group? gid with
  | some g => if saved g then t.pokeImage gid 0x610 (toBytes 8 g.sys.depmask.toNat) else t
  | none => t

/-- The write of a stroke that returned from its wait lands after the one that it waited for (R78, R256). -/
def applyLate (s : State) (gid reg : Nat) : State :=
  match (s.group? gid).bind fun g => g.late.get? reg with
  | some v => (s.modGroup gid fun g => { g with late := g.late.erase reg }).landS gid (BitVec.ofNat 7 reg) v
  | none => s

/-- A deposit that waited for the answer of work in flight is applied after it (R79). -/
def applyDeposit (s : State) (gid reg : Nat) : State :=
  match (s.group? gid).bind fun g => g.deposits.get? reg with
  | some v => (s.modGroup gid fun g => { g with deposits := g.deposits.erase reg }).putDeposit gid (reg - 112) v
  | none => s

/-- A write of work in flight lands in a register that waits for it, unless it was discarded (R152, R256); with no value
the register keeps what it held. -/
def landIn (s : State) (gid o : Nat) (sd : SReg) (v : Option Word64) : State :=
  match s.group? gid with
  | none => s
  | some g =>
    if g.pending.get? sd.toNat = some o then
      let t := s.modGroup gid fun g => { g with pending := g.pending.erase sd.toNat }
      let t := match v with | some w => t.landS gid sd w | none => t
      (t.applyLate gid sd.toNat).applyDeposit gid sd.toNat
    else s

/-- The status word of work in flight lands in its register. -/
def land (s : State) (o : Nat) (v : Word64) : State :=
  match s.op? o with
  | none => s
  | some op =>
    match op.gid, op.sd with
    | some gid, some sd => s.landIn gid o sd (some v)
    | _, _ => s

/-- The registers of a group that work holds as sources are released (R78). -/
def releaseHeld (s : State) (gid o : Nat) : State :=
  s.modGroup gid fun g => { g with held := g.held.filter fun h => h.op != o }

/-! ## Replies (R373) -/

/-- A reply: its header carries the call code with bit 7 set. -/
def reply (s : State) (c : Call) (code status : Nat) (data : List Byte := []) : State :=
  { s with replies := s.replies ++
      [{ ctx := c.ctx, caller := c.caller, seq := c.seq, call := code ||| 128, status := status, data := data }] }

/-- The call code of a name operation (R375). -/
def nameCall : NameAct → Nat
  | .wake => 7 | .signal _ => 8 | .kill => 8 | .deposit _ _ => 9 | .join _ _ => 10 | .stat => 0

/-- A stroke that returns from its wait writes a register, behind the write of work in flight that the register waits for (R78,
R256). -/
def returnS (s : State) (u : Issue) (g : Group) (r : SReg) (v : Word64) : State :=
  (s.modGroup u.gid fun h =>
    if (h.pending.get? r.toNat).isSome then { h with late := h.late.put r.toNat v } else h.wrS r v).logStrk u g 0 r.toNat v

/-- The stroke goes on once such writes of its instruction have landed: until then it waits with the engine-wait reason (R29,
R78). -/
def afterWrites (s : State) (u : Issue) (i : Option Instr) (rs : List SReg) : State :=
  s.modGroup u.gid fun h =>
    if rs.any fun r => (h.late.get? r.toNat).isSome then (h.park u.mask .engine 0 0 i).asStroke u.mask else h

/-- A parked NJOIN returns: it writes its registers and goes on (R313). -/
def joinReturns (s : State) (gid : Nat) (g : Group) (n : NameOp) (sd : SReg) (status : Word64) (exit : Option Word64) : State :=
  let m := g.parkedFor .njoin &&& n.mask
  let u : Issue := { gid := gid, mask := m, pc := (g.fibre (lowest m)).pc }
  let i := (g.fibre (lowest m)).instr
  let t := (s.logWake g m .njoin (field status.toNat 0 8 == 8) status).modGroup gid fun g =>
    (g.unpark m).onFibres m fun x => { x with pc := x.pc + 8 }
  let t := t.returnS u g sd status
  (match exit with | some w => t.returnS u g (sd + 1) w | none => t).afterWrites u i [sd, sd + 1]

/-- Answers a name operation: a reply to a host, the status register of a group and the one after it, or the return of a
parked NJOIN; a DEAD answer carries the exit word (R304, R312, R313). -/
def answer (s : State) (o : Nat) (status : Word64) (exit : Option Word64) : State :=
  match s.op? o with
  | none => s
  | some op =>
    match op.work with
    | .name n =>
      let t := match n.host, op.gid, op.sd with
        | some c, _, _ => s.reply c (nameCall n.act) status.toNat (match exit with | some w => toBytes 8 w.toNat | none => [])
        | none, some gid, some sd =>
          (match n.act, s.group? gid with
            | .join _ _, some g => s.joinReturns gid g n sd status exit
            | _, some _ => (s.land o status).landIn gid o (sd + 1) exit
            | _, none => s)
        | _, _, _ => s
      t.dropOp o
    | _ => s

/-! ## MEET (R39) -/

/-- Releases every MEET of a group once all of its live fibres are parked at MEETs; each goes on at its MEET's program
counter + 8, as its own stroke for each mode (R39, R149). -/
def meetRelease (s : State) (gid : Nat) : State :=
  match s.group? gid with
  | none => s
  | some g =>
    let m := g.live
    if m ≠ 0 ∧ g.parkedFor .meet = m then
      s.modGroup gid fun g =>
        let h := (g.unpark m).onFibres m fun x => { x with pc := x.pc + 8 }
        h.reform
    else s

/-! ## The cohort barrier (R192) -/

/-- The groups of a cohort that count at its barrier, with their numbers. -/
def barrierGroups (s : State) (c : Cohort) : List (Nat × Group) :=
  c.groups.filterMap fun gid =>
    match s.group? gid with
    | some g => if g.phase == .dead || g.phase == .ending then none else some (gid, g)
    | none => none

def barrierDone (s : State) (c : Cohort) : Bool :=
  let gs := s.barrierGroups c
  gs.any (fun e => e.2.live != 0) && gs.all fun e => e.2.live &&& ~~~(c.arrived.read 0 e.2.index) == 0

/-- A group's fibres go on from the barrier; those of a saved group in its image too (R192, R366). -/
def barrierLeave (s : State) (gid : Nat) (g : Group) : State :=
  if g.parkedFor .barrier = 0 then s
  else (s.modGroup gid fun g => g.unpark (g.parkedFor .barrier)).syncImage gid

/-- Completion: the phase flips, arrived and owed bits clear, and every parked fibre of every group of the cohort is
released (R192). -/
def barrierComplete (s : State) (coh : Nat) (c : Cohort) : State :=
  let t := (s.modCohort coh fun c => { c with phase := !c.phase, arrived := [], owed := 0 }).syncCohort coh
  let t := (s.barrierGroups c).foldl (fun t e => t.barrierLeave e.1 e.2) t
  let core := c.core.getD 0
  let num := c.num % 2 ^ 24 * 2 ^ 16 + 0xFFFF
    + (match s.launch? c.launch with | some l => l.num % 2 ^ 24 * 2 ^ 40 | none => 0)
  t.log c.ctx (pkgOf core)
    { kind := 1, cls := 2, src := core % 256, subject := BitVec.ofNat 64 num, operand := 1
      payload := BitVec.ofNat 64 (b2n (!c.phase)) }

def barrierCheck (s : State) (coh : Nat) : State :=
  match s.cohort? coh with
  | none => s
  | some c => if s.barrierDone c then s.barrierComplete coh c else s

/-! ## Completion bitmaps and eligibility (R325 to R327) -/

/-- The memory key of an address in the .sp layout, for a context (R158). -/
def spKey (ctx a : Nat) : Nat := placeWindow ctx (field a 40 8) (field a 37 3) + field a 0 37

/-- The producer coordinates that a cohort needs (R325). -/
def producers (l : Launch) (n : Nat) : List Nat :=
  let x := n % l.gx
  let y := n / l.gx % l.gy
  let z := n / l.gx / l.gy
  let bit := fun a b c => a + l.px * (b + l.py * c)
  let inside := fun a b c => decide (a < l.px) && decide (b < l.py) && decide (c < l.pz)
  match l.depKind with
  | 1 => if inside x y z then [bit x y z] else []
  | 2 => (List.range l.px).filterMap fun p => if inside p y z then some (bit p y z) else none
  | 3 => (List.range l.py).filterMap fun p => if inside x p z then some (bit x p z) else none
  | 4 => List.range (l.px * l.py * l.pz)
  | 5 => (List.range (2 * l.radius + 1)).flatMap fun i => (List.range (2 * l.radius + 1)).filterMap fun j =>
      if l.radius ≤ x + i ∧ l.radius ≤ y + j ∧ inside (x + i - l.radius) (y + j - l.radius) z then
        some (bit (x + i - l.radius) (y + j - l.radius) z) else none
  | _ => []

/-- Every producer bit that a cohort needs is 1 (R327). -/
def cohortEligible (s : State) (l : Launch) (n : Nat) : Bool :=
  l.depKind == 0 || (producers l n).all fun b => bitAt (s.readByte (spKey l.ctx l.prodMap + b / 8)).toNat (b % 8)

/-- Evaluates the eligibility of the waiting clusters of the launches that `p` selects (R327). -/
def evalEligible (s : State) (p : Launch → Bool) : State :=
  { s with clusters := s.clusters.update fun _ k =>
      if k.state == .waiting && !k.elig then
        match s.launch? k.launch with
        | none => k
        | some l =>
          if p l then
            { k with
              waitFrom := s.timebase.toNat
              elig := k.cohorts.all fun c =>
                match s.cohort? c with | some c => c.task || s.cohortEligible l c.num | none => true }
          else k
      else k }

/-- A lock that stands in a table covers a byte of a place. -/
def locked (s : State) (key : Nat) : Bool :=
  s.locks.any fun l => l.core != noCore && decide (l.place + 32 * l.first ≤ key) && decide (key < l.place + 32 * (l.last + 1))

/-- The bytes that a launch names as a PRODMAP hold some byte of another launch's DONEMAP: they name one bitmap. -/
def sameBitmap (l q : Launch) : Bool :=
  match l.doneMap with
  | none => false
  | some a => q.ctx == l.ctx && q.depKind != 0 && decide (q.prodMap < a + (l.gx * l.gy * l.gz + 7) / 8)
      && decide (a < q.prodMap + (q.px * q.py * q.pz + 7) / 8)

/-- Sets a cohort's bit in its launch's bitmap. A set in a bitmap that the PRODMAP of some accepted launch names evaluates
every launch of the context (R326, R327). -/
def setDone (s : State) (l : Launch) (n : Nat) : State :=
  match l.doneMap with
  | none => s
  | some a =>
    let k := spKey l.ctx a + n / 8
    let t := s.writeByte k (s.readByte k ||| BitVec.ofNat 8 (2 ^ (n % 8)))
    if t.launches.any fun q => sameBitmap l q.2 then t.evalEligible fun q => q.ctx == l.ctx else t

/-- The hardware's own set at the end of a cohort: it waits while a lock covers its byte (R326). -/
def cohortDone (s : State) (coh : Nat) : State :=
  match s.cohort? coh with
  | none => s
  | some c =>
    match s.launch? c.launch with
    | none => s
    | some l =>
      match l.doneMap with
      | none => s
      | some a =>
        if c.doneSet || c.task || s.locked (spKey l.ctx a + c.num / 8) then s
        else (s.setDone l c.num).modCohort coh fun c => { c with doneSet := true }

/-- The cohorts that have ended by their groups' own ends or by KILL, and whose bit is still to be set; the end of a context
sets none (R326, R364). -/
def owedDone (s : State) : List Nat :=
  (s.cohorts.filter fun c => c.2.begun && !c.2.doneSet && !c.2.task
    && (match s.context? c.2.ctx with | some x => x.ended.isNone | none => false)
    && c.2.groups.all (fun g => match s.group? g with | some g => g.phase == .dead | none => true)).map (·.1)

/-- Retries the sets that waited for a lock (R326). -/
def retryDone (s : State) : State := s.owedDone.foldl cohortDone s

/-! ## The end of an entry (R299, R313) -/

/-- The joins registered on an entry. -/
def joinsOn (s : State) (ctx i : Nat) : List Nat :=
  (s.ops.filter fun o => match o.2.work with | .name n => n.home == some (ctx, i) && !n.adrift | _ => false).map (·.1)

/-- A join whose group is saved makes its group eligible and reaches the home again after the restore (R309, R313). -/
def joinerSaved (s : State) (o : Nat) : Option Group :=
  match s.op? o with
  | some op => match op.gid with
    | some gid => match s.group? gid with | some g => if saved g then some g else none | none => none
    | none => none
  | none => none

/-- Sets ELIG in a saved group's entry and makes its cluster eligible for residency (R309). -/
def setElig (s : State) (g : Group) : State :=
  let t := s.modEntry g.ctx (nameIndex g.name) fun e => { e with elig := true }
  match s.cohort? g.cohort with
  | some c => t.modCluster c.cluster fun k => if k.elig then k else { k with elig := true, waitFrom := s.timebase.toNat }
  | none => t

/-- Answers every join registered on an entry that has become DEAD. One whose group is saved is released too: its answer waits
for the restore (R313). -/
def releaseJoins (s : State) (exit : Word64) (cause : Nat) : List Nat → State
  | [] => s
  | o :: os =>
    match s.joinerSaved o with
    | some g =>
      ((s.setElig g).modOp o fun op =>
        match op.work with
        | .name n => { op with work := .name { n with home := none, found := some (cause, exit) } }
        | _ => op).releaseJoins exit cause os
    | none => (s.answer o (nameStatus .dead stDead cause) (some exit)).releaseJoins exit cause os

/-- The entry becomes DEAD with an exit word and a cause, its joins are released in the same step, and it is reaped when
one of those that are answered, or the end of a task group, asks for it (R298, R313, R331). -/
def deadEntry (s : State) (ctx i : Nat) (exit : Word64) (cause : EndCause) (reap : Bool) : State :=
  let joins := s.joinsOn ctx i
  let asked := (joins.filter fun o => (s.joinerSaved o).isNone).any fun o => match s.op? o with
    | some op => (match op.work with | .name n => (match n.act with | .join r _ => r | _ => false) | _ => false)
    | none => false
  let t := s.modEntry ctx i fun e =>
    { e with state := stDead, loc := exit.toNat, cause := cause.code, qcount := 0, elig := false }
  let t := t.releaseJoins exit cause.code joins
  if asked || reap then t.reapEntry ctx i else t

/-! ## The ends of groups and cohorts (R152) -/

/-- The cohort that owns an address of the .sh or the .cl layout, seen from a cohort, and the offset there (R158). -/
def clPlace (s : State) (coh : Nat) (cl : Bool) (a : Nat) : Nat × Nat :=
  if cl then
    match (s.cohort? coh).bind (fun c => s.cluster? c.cluster) with
    | some k => (k.cohorts.getD (field a 19 2) coh, field a 0 19)
    | none => (coh, field a 0 19)
  else (coh, field a 0 19)

/-- Lowers WAITERS of a count barrier, never below 0; the object of a saved cohort lies in the cohort's image (R366). -/
def lowerWaiters (s : State) (at_ : Nat × Nat) : State :=
  let key := placeShared at_.1 + at_.2
  match s.cohort? at_.1 with
  | none => s
  | some c =>
    if c.saved then
      let pkg := match s.cluster? c.cluster with | some k => k.pkg | none => 0
      let va := c.image + 0x400 + at_.2 + 30
      match s.vmRead c.ctx pkg .imageRead va 2 with
      | .ok b => (s.vmWrite c.ctx pkg .imageWrite va (toBytes 2 (ofBytes b - 1))).1
      | .fail _ _ => s.soon (.contextFatalFault c.ctx 0x82 (BitVec.ofNat 64 va) 0)
    else s.writeNat (key + 30) 2 (s.readNat (key + 30) 2 - 1)

/-- The memory key of an address in the .cl layout (.sh is member 0 of the own cohort), for a cohort (R158). -/
def clKey (s : State) (coh : Nat) (cl : Bool) (a : Nat) : Nat :=
  placeShared (s.clPlace coh cl a).1 + (s.clPlace coh cl a).2

/-- A cancelled CBWAIT of a group's stroke, which fibre `f` stands for, no longer counts as a waiter (R196): an update of the
barrier, with its record (R341). -/
def uncountWaiter (g : Group) (s : State) (f : Nat) : State :=
  let x := g.fibre f
  let cl := match x.instr with | some (.cbwait _ _ cl _ _ _) => cl | _ => false
  let at_ := s.clPlace g.cohort cl x.operand.toNat
  let core := match s.cohort? at_.1 with | some c => c.core.getD g.core | none => g.core
  (s.lowerWaiters at_).log g.ctx (pkgOf core)
    { kind := 2, cls := 2, src := core % 256, subject := s.thread g f
      operand := BitVec.ofNat 64 ((if cl then Space.cl else Space.sh).code * 2 ^ 56 + x.operand.toNat % 2 ^ 56) }

/-- The strokes that a group has parked in CBWAIT, each by its lowest fibre. -/
def cbWaits (g : Group) : List Nat := (lanesOf (g.parkedFor .cbwait)).filter fun f => lowest (g.strokeOf f) == f

/-- The image of a cohort and those of its groups return to the pool (R55). -/
def freeImages (s : State) (ctx pkg : Nat) (ats : List Nat) : State :=
  s.modSite ctx pkg fun p => { p with alloc := p.alloc.filter fun a => !ats.contains a.1 }

/-- A cluster whose cohorts have all ended gives up its cores and its shared memory (R161). -/
def clusterEnd (s : State) (k : Nat) : State :=
  match s.cluster? k with
  | none => s
  | some c =>
    let ended := c.cohorts.all fun h => match s.cohort? h with
      | some h => h.groups.all fun g => (match s.group? g with | some g => g.phase == .dead | none => true)
      | none => true
    if ended then
      let t := c.cohorts.foldl (fun s h => (s.clearFrom (placeShared h) 0).modCohort h fun h => { h with core := none }) s
      t.modCluster k fun c => { c with state := .ended, hw := none }
    else s

/-- A saved cohort whose last group has died keeps its shared memory, which leaves its image (R55, R161). -/
def keepShared (s : State) (coh : Nat) (c : Cohort) (pkg : Nat) : State :=
  if c.saved then
    match s.vmRead c.ctx pkg .imageRead (c.image + 0x400) c.shared with
    | .ok b => (s.loadBytes (placeShared coh) b).modCohort coh fun c => { c with saved := false }
    | .fail _ va => s.soon (.contextFatalFault c.ctx 0x82 (BitVec.ofNat 64 va) 0)
  else s

/-- When the last group of a cohort is DEAD: its read-only locks drop, its bit is set, its images return to the pool, and
its cluster may end (R55, R161, R197, R326). -/
def cohortEnd (s : State) (coh : Nat) : State :=
  match s.cohort? coh with
  | none => s
  | some c =>
    let gs := c.groups.filterMap s.group?
    if gs.all (fun g => g.phase == .dead) then
      let pkg := match s.cluster? c.cluster with | some k => k.pkg | none => 0
      let s := s.keepShared coh c pkg
      let t := { s with locks := s.locks.filter fun l => match l.owner with | .rlock h _ => h != coh | _ => true }
      let t := if c.begun then t.freeImages c.ctx pkg (c.image :: gs.map (·.image)) else t
      t.retryDone.clusterEnd c.cluster
    else s

/-- What the parked WAITWs of a group watch is forgotten. -/
def dropWatches (s : State) (gid : Nat) : State := { s with watches := s.watches.keep fun k _ => k / 32 != gid }

/-- Step 5 of R152: the mappings are dropped and the entry becomes DEAD. -/
def makeDead (s : State) (gid : Nat) : State :=
  match s.group? gid with
  | none => s
  | some g =>
    let t := (s.dropMap gid).dropWatches gid
    let t := t.modGroup gid fun g => { g with phase := .dead, fibres := g.fibres.map fun x => { x with ended := true, wait := .none } }
    let t := { t with mem := (t.clearFrom (placeStack gid) 0).mem }
    let task := match s.cohort? g.cohort with | some c => c.task | none => false
    (t.deadEntry g.ctx (nameIndex g.name) g.exit g.cause task).cohortEnd g.cohort

/-- The holders that a group belongs to. -/
def holdersOf (s : State) (g : Group) : List Nat :=
  (s.holders.filter fun h => h.2.cohort == g.cohort && h.2.members.getLsbD g.index).map (·.1)

/-- A matrix operation that still waits for a member or for its other half; one that has started, or has run, waits for
nobody (R295). -/
def unjoined (s : State) (m : MatOp) : Bool :=
  m.code.isNone && !m.started && !m.computed && (m.entered.isNone ||
    (match m.kind with
      | .loop _ _ part _ _ _ _ _ _ _ => part && (match m.partner.bind s.op? with
          | some op => (match op.work with | .matrix p => p.entered.isNone | _ => true)
          | none => true)
      | _ => false))

/-- The operations of a holder that wait for one of its members complete with TEAM_BROKEN, those of a solo holder with
NO_SACC (R280, R290; log 24). -/
def breakTeam (s : State) (h : Nat) (team : Bool) : State :=
  { s with ops := s.ops.update fun _ o =>
      match o.work with
      | .matrix m =>
        if m.holder == some h && s.unjoined m then
          { o with work := .matrix { m with code := some (if team then 0x32 else 0x34) } }
        else o
      | _ => o }

/-- The slots of a holder are to be released (R152, R280). -/
def closeHolder (s : State) (h : Nat) : State :=
  match s.holders.get? h with
  | none => s
  | some x => (s.breakTeam h x.team).modHolder h fun x => { x with closing := true }

/-- Steps 1 and 3 of R152: the group stops issuing, its waits and any handler are abandoned, its status words to come are
discarded, its place in the ownership queue is withdrawn and its slots are to be released. A group that has ended keeps the
exit word and the cause of its first end while its work completes (R31; log 53). -/
def beginEnd (s : State) (gid : Nat) (exit : Word64) (cause : EndCause) : State :=
  match s.group? gid with
  | none => s
  | some g =>
    if g.phase = .ending then s else
    let t := (cbWaits g).foldl (uncountWaiter g) s
    let t := (s.holdersOf g).foldl closeHolder t
    let t := t.modCore g.core fun k => { k with queue := k.queue.filter fun e => e.gid != gid }
    let t := { t with ops := t.ops.keep fun _ o =>
      !(o.gid == some gid && (match o.work with | .name n => (match n.act with | .join _ _ => true | _ => false) | _ => false)) }
    let t := t.modGroup gid fun g =>
      { g with phase := .ending, exit := exit, cause := cause, pending := [], late := [], part := none
               fibres := g.fibres.map fun x => { x with ended := true, wait := .none, held := none, inTrap := false, instr := none } }
    t.barrierCheck g.cohort

/-- A holder's slots are given up. In the image of a saved cohort the slots behind them move up over their bytes, so that it
holds those of the remaining holders in their order (R366). -/
def dropHolder (s : State) (h : Nat) : State :=
  match s.holders.get? h with
  | none => s
  | some x =>
    let t := { s with holders := s.holders.erase h }
    match s.cohort? x.cohort with
    | none => t
    | some c =>
      if !c.saved then t else
      let pkg := match s.cluster? c.cluster with | some k => k.pkg | none => 0
      let before := (((s.holders.filter fun y => y.2.cohort == x.cohort).takeWhile fun y => y.1 != h).map (·.2.slots.length)).sum
      let after := (s.heldSlots x.cohort).length - before - x.slots.length
      let va := c.image + roundUp (0x400 + c.shared) 4096 + 65536 * before
      let failed := fun (t : State) (va : Nat) => t.soon (.contextFatalFault c.ctx 0x82 (BitVec.ofNat 64 va) 0)
      match s.vmRead c.ctx pkg .imageRead (va + 65536 * x.slots.length) (65536 * after) with
      | .fail _ va => failed t va
      | .ok b =>
        match t.vmWrite c.ctx pkg .imageWrite va b with
        | (t, none) => t.syncCohort x.cohort
        | (t, some e) => failed t e.2

/-- The slots of a saved group's holders are given up (R306). -/
def dropHolders (s : State) (g : Group) : State := (s.holdersOf g).foldl dropHolder s

/-- Copies, matrix operations and transfers of a group (step 2 of R152). -/
def ownWork (gid : Nat) (o : Op) : Bool :=
  o.gid == some gid && (match o.work with | .copy _ => true | .matrix _ => true | .xfer _ => true | _ => false)

/-- Work of a group that its end waits for: a matrix operation that still waits for a team member or for its other half is
broken by the end itself (R152, R280). -/
def busyWork (s : State) (gid : Nat) (o : Op) : Bool :=
  ownWork gid o && (match o.work with | .matrix m => !s.unjoined m | _ => true)

/-- The work of a group that is left is gone, with its locks. -/
def dropWork (s : State) (gid : Nat) : State :=
  let gone := fun o => match s.op? o with | some op => ownWork gid op | none => false
  { s with ops := s.ops.keep fun _ o => !ownWork gid o
           locks := s.locks.filter fun l => match l.owner with | .op o => !gone o | _ => true }

/-- A KILL of a saved group, whose operations have completed: it ends in this step (R306, PARKED row). -/
def killSaved (s : State) (gid : Nat) : State :=
  match s.group? gid with
  | none => s
  | some g => (((s.beginEnd gid 0 .killed).dropWork gid).dropHolders g).makeDead gid

/-! ## Taking a trap (R351 to R353) -/

/-- The pieces of work that a context-fatal fault leaves: calls of hosts (log 19). -/
def survives (ctx : Nat) (o : Op) : Bool :=
  o.ctx != ctx || (o.gid.isNone && (match o.work with | .name _ => true | .launch _ => true | .access _ => true | _ => false))

/-- The other ends of the transfers of a context complete with PEER_LOST (R388). -/
def loseMates (s : State) (ctx : Nat) : State :=
  { s with ops := s.ops.update fun _ o =>
      match o.work with
      | .xfer x =>
        match x.mate with
        | some m => if (s.op? m).any (fun y => y.ctx == ctx) && o.ctx != ctx
            then { o with work := .xfer { x with code := some 0x1B, mate := none } } else o
        | none => o
      | _ => o }

/-- The other end of a connection, when it lies in this domain: context, package and register (R388). -/
def peerEnd : Peer → Option (Nat × Nat × Nat)
  | .none => none
  | .fabric p c r => some (c, p, r)
  | .ether a port c r => (Config.etherPackage a port).map fun p => (c, p, r)

/-- The connection registers of other contexts that are joined to a context go down, and their transfers are lost. -/
def losePeers (s : State) (ctx : Nat) : State :=
  let joins := fun (c : Conn) => (peerEnd c.peer).any fun e => e.1 == ctx
  let t := s.loseMates ctx
  let t := { t with contexts := t.contexts.update fun n c =>
    if n == ctx then c else { c with sites := c.sites.update fun _ p => { p with conns := p.conns.update fun _ k => if joins k then { k with up := false } else k } } }
  { t with ops := t.ops.update fun _ o =>
      match o.work with
      | .xfer x =>
        let down := ((t.site? o.ctx x.pkg).bind fun p => p.conns.get? x.reg).any joins
        if down && o.ctx != ctx && x.turn.isSome && x.code.isNone then { o with work := .xfer { x with code := some 0x1B } } else o
      | _ => o }

/-- Step 2 of R364: what a context had in flight is discarded; locks drop, slots and queue entries are released. -/
def discard (s : State) (ctx : Nat) : State :=
  let mine := fun gid => match s.group? gid with | some g => g.ctx == ctx | none => false
  let t := s.losePeers ctx
  { t with
    ops := t.ops.keep fun _ o => survives ctx o
    dies := t.dies.update fun _ d =>
      { d with faults := d.faults.keep fun _ e => e.ctx != ctx, tasks := d.tasks.filter fun k => k.ctx != ctx }
    cores := t.cores.update fun _ k =>
      { k with queue := k.queue.filter fun e => !mine e.gid, tagged := k.tagged.filter fun x => x.ctx != ctx }
    holders := t.holders.keep fun _ h => (match s.cohort? h.cohort with | some c => c.ctx != ctx | none => true)
    locks := t.locks.filter fun l => l.ctx != ctx }

/-- A debug area that is used lies in pages with RD and WR and without IMG (R393). -/
def debugPages (s : State) (ctx pkg va n : Nat) : Bool :=
  (chunksOf va n).all fun c =>
    (match s.walk ctx pkg .copyRead c.1 with | .ok _ => true | _ => false)
      && (match s.walk ctx pkg .copyWrite c.1 with | .ok _ => true | _ => false)

/-- Adds the private counts of a context's launches into their counter blocks (R394). -/
def flushCounts (s : State) (core : Nat) (ctx : Nat) : State :=
  let k := s.core core
  let t := k.counts.foldl (fun s e =>
    match s.launch? e.1 with
    | none => s
    | some l =>
      if l.ctx != ctx then s else
      match l.debugOpts.counters with
      | none => s
      | some at_ => (e.2 : Tbl Nat).foldl (fun s c =>
          match s.vmRead ctx (pkgOf core) .copyRead (at_ + 8 * c.1) 8, s.debugPages ctx (pkgOf core) at_ 128 with
          | .ok b, true => (s.vmWrite ctx (pkgOf core) .copyWrite (at_ + 8 * c.1) (toBytes 8 (ofBytes b + c.2))).1
          | _, _ => s.modLaunch e.1 fun l => { l with debugOpts := { l.debugOpts with counters := none } }) s) s
  let others := fun (l : Nat) => match s.launch? l with
    | some l => l.ctx != ctx
    | none => true
  t.modCore core fun k => { k with counts := k.counts.keep fun l _ => others l }

/-- Step 4 of R364: every group becomes DEAD with the exit word and cause of R317. -/
def endGroups (s : State) (ctx : Nat) (cause : Byte) : State :=
  let how : EndCause := if cause == 0x85 then .killed else .faulted
  let gids := (s.groups.filter fun g => g.2.ctx == ctx && g.2.phase != .dead).map (·.1)
  gids.foldl (fun s gid =>
    match s.group? gid with
    | none => s
    | some g =>
      let t := (s.dropMap gid).dropWatches gid
      let t := t.modGroup gid fun g =>
        { g with phase := .dead, exit := BitVec.ofNat 64 cause.toNat, cause := how, pending := [], late := [], held := [], part := none
                 fibres := g.fibres.map fun x => { x with ended := true, wait := .none, held := none, inTrap := false, instr := none } }
      t.deadEntry ctx (nameIndex g.name) (BitVec.ofNat 64 cause.toNat) how false) s

/-- The shared memory of a context's cohorts is given up (R161, R273). -/
def clearShared (s : State) (ctx : Nat) : State :=
  (s.cohorts.filter fun c => c.2.ctx == ctx).foldl (fun t c => t.clearFrom (placeShared c.1) 0) s

/-- The clusters of an ended context give up their cores and their shared memory, and cohorts count as saved nowhere. -/
def endClusters (s : State) (ctx : Nat) : State :=
  let s := s.clearShared ctx
  { s with
    clusters := s.clusters.update fun _ k => if k.ctx == ctx then { k with state := .ended, hw := none } else k
    cohorts := s.cohorts.update fun _ c => if c.ctx == ctx then { c with core := none, saved := false } else c }

/-- The scroll of an ended context: its open runs end with their records, each while one slot more is left, and the GAP record
follows, unless the scroll is full (R341, R344, R364; log 39). -/
def endScroll (s : State) (ctx pkg : Nat) (cause : Byte) : State :=
  if (s.scroll ctx pkg).mode == 1 then
    let put := fun (n : Nat) (t : State) (f : State → State) =>
      if (t.scroll ctx pkg).fill + n ≤ (t.scroll ctx pkg).cap then f t else t
    let t := (s.scroll ctx pkg).runs.foldl (fun t r => put 2 t fun t => t.closeRun ctx pkg r.1) s
    let t := put 1 t fun t => t.append ctx pkg { kind := 11, cls := 0, src := 0, operand := 2, payload := BitVec.ofNat 64 cause.toNat }
    t.modScroll ctx pkg fun x => { x with runs := [] }
  else s

/-- A context-fatal fault (R364): freeze, discard, dump, end, notify. A context that has ended only counts the cause, in
byte 7 of its dump's header (R365). -/
def contextFatal (s : State) (ctx : Nat) (cause : Byte) (addr thread : Word64) : State :=
  match s.context? ctx with
  | none => s
  | some c =>
    match c.ended with
    | some _ =>
      let t := s.modContext ctx fun c => { c with fatalCount := c.fatalCount + 1 }
      if c.dumpLen = 0 then t
      else (t.vmWrite ctx c.home .imageWrite (c.dumpAt + 7) (toBytes 1 (min (c.fatalCount + 1) 255))).1
    | none =>
      let now := (s.ticks c.home).toNat
      let code := if c.confidential then causeClass cause else cause
      let t := s.modContext ctx fun c => { c with ended := some cause }
      let t := (s.cores.keys).foldl (fun t k => t.flushCounts k ctx) t
      let faults := s.faultSection ctx
      let t := (t.discard ctx).writeDump
        { ctx := ctx, fatal := cause, cause := code, after := 0, freeze := now, time := now, addr := addr, thread := thread, faults := faults }
      let t := (t.endGroups ctx cause).endClusters ctx
      let t := c.sites.keys.foldl (fun t p => t.endScroll ctx p cause) t
      let size := match t.context? ctx with | some c => c.dumpLen | none => 0
      (t.postEvent ctx
        { kind := 1, pkg := c.home, time := now, body := toBytes 8 now ++ toBytes 4 size ++ [code] ++ zeros 3 })

/-- The handler address of a context (R357). -/
def xvec (s : State) (ctx : Nat) : Word64 := match s.context? ctx with | some c => c.xvec | none => 0

/-- XSTAT as a trap writes it: the trap stroke's fibres and the mode before the trap (R351, R357). -/
def xstatOf (mask : BitVec 32) (priv : Bool) : Word64 := BitVec.ofNat 64 (mask.toNat + b2n priv * 2 ^ 32)

/-- Some fibre of a set is privileged. -/
def privilegedAt (g : Group) (mask : BitVec 32) : Bool := mask &&& g.fibresWhere (·.priv) != 0

/-- The fibres enter the handler as the trap stroke (R351, steps 2 to 4). -/
def enterHandler (s : State) (gid : Nat) (mask : BitVec 32) (cause : Byte) (xpc xaddr : Word64) : State :=
  match s.group? gid with
  | none => s
  | some g =>
    let entry := s.xvec g.ctx
    let priv := privilegedAt g mask
    s.modGroup gid fun g =>
      let g := { g with sys := { g.sys with
                  xpc := xpc, xcause := BitVec.ofNat 64 cause.toNat, xstat := xstatOf mask priv, xaddr := xaddr } }
      ((g.unpark mask).onFibres mask fun x => { x with pc := entry, priv := true, inTrap := true, held := none }).asStroke mask

/-- The number of traps that a group holds back (R352). -/
def heldTraps (g : Group) : Nat :=
  (g.fibres.filterMap fun x => x.held.map (·.order)).foldl (fun n o => max n (o + 1)) 0

/-- The fibres wait with the trap-split reason, and the hardware holds their trap (R352, R54). -/
def holdTrap (s : State) (gid : Nat) (mask : BitVec 32) (cause : Byte) (xaddr : Word64) (plus8 : Bool) : State :=
  s.modGroup gid fun g =>
    let n := heldTraps g
    ((g.park mask .trapSplit xaddr 0 none).onFibres mask fun x => { x with held := some ⟨cause, plus8, n⟩ }).asStroke mask

/-- A restartable cause in a set of fibres of the issuing stroke (R351): the rest of the stroke stays a stroke. With no
handler, or raised by a trap stroke, it is context-fatal (R353); while another trap stroke is in its handler it is held
(R352). -/
def trap (s : State) (u : Issue) (mask : BitVec 32) (cause : Byte) (xaddr : Word64) (plus8 : Bool := false) : State :=
  match s.group? u.gid with
  | none => s
  | some g =>
    if s.xvec g.ctx = 0 ∨ mask &&& g.trapMask ≠ 0 then s.contextFatal g.ctx cause xaddr (s.strokeThread g mask)
    else
      let t := s.modGroup u.gid fun g => g.asStroke (u.mask &&& ~~~mask)
      if g.trapMask ≠ 0 then t.holdTrap u.gid mask cause xaddr plus8
      else t.enterHandler u.gid mask cause (if plus8 then u.pc + 8 else u.pc) xaddr

/-- The oldest held trap enters the handler (R352). -/
def admitHeld (s : State) (gid : Nat) : State :=
  match s.group? gid with
  | none => s
  | some g =>
    let m := g.fibresWhere fun x => match x.held with | some h => h.order == 0 | none => false
    match (lanesOf m).head? with
    | none => s
    | some f =>
      let x := g.fibre f
      match x.held with
      | none => s
      | some h =>
        let t := s.modGroup gid fun g => g.mapFibres fun i y =>
          if m.getLsbD i then y else { y with held := y.held.map fun k => { k with order := k.order - 1 } }
        t.enterHandler gid m h.cause (if h.plus8 then x.pc + 8 else x.pc) x.operand

/-- Fibres leave the trap stroke: their bits of XSTAT.MASK clear, and when none is left the oldest held trap enters
(R352, R359). -/
def leaveTrap (s : State) (gid : Nat) (mask : BitVec 32) : State :=
  let t := s.modGroup gid fun g =>
    { (g.onFibres mask fun x => { x with inTrap := false }) with
      sys := { g.sys with xstat := g.sys.xstat &&& ~~~(BitVec.ofNat 64 (mask &&& g.trapMask).toNat) } }
  match s.group? gid, t.group? gid with
  | some g, some h => if g.trapMask ≠ 0 ∧ h.trapMask = 0 then t.admitHeld gid else t
  | _, _ => t

/-- XRet for a part of the trap stroke (R359): the fibres resume at XPC in the mode that PRIVPREV holds; BPSKIP covers
their first issue there (R395). -/
def xretOp (s : State) (u : Issue) (g : Group) : State :=
  let prev := bitAt g.sys.xstat.toNat 32
  let skip := bitAt g.sys.xstat.toNat 33
  let t := s.modGroup u.gid fun h => h.onFibres u.mask fun x => { x with pc := g.sys.xpc, priv := prev, skipBp := skip }
  t.leaveTrap u.gid u.mask

/-- Fibres end (R31): a part of a trap stroke leaves it; the end of the last non-helper fibre ends the group with exit
word 0 and cause EXIT; otherwise the end may open a MEET or complete the barrier (R39, R192). -/
def endFibres (s : State) (gid : Nat) (mask : BitVec 32) : State :=
  let t := s.modGroup gid fun g => g.onFibres mask fun x => { x with ended := true, wait := .none }
  match t.group? gid with
  | none => t
  | some g =>
    if g.live &&& ~~~g.helpers = 0 then t.beginEnd gid 0 .exit
    else ((t.leaveTrap gid mask).meetRelease gid).barrierCheck g.cohort

end State
end Sys2Proof.Machine
end

