-- ==== Sys2Proof/Machine/Operands.lean ====
section
/-! DEFINITION. Operand forms: which registers an instruction reads and writes, the checks that every issued instruction
passes before it acts (R53, R89), scalar and vector operand values, indexed operands (R62, R63), and the retirement of
results (R42, R66, R73, R80, R221). -/

namespace Sys2Proof

/-! ## Registers named by an instruction -/

def SOp.regs : SOp → List SReg | .reg r => [r] | .imm _ => []
def VOp.sregs : VOp → List SReg | .vec _ => [] | .uni r => [r]
def VOp.vregs : VOp → List (Nat × Nat) | .vec r => [(r.toNat, 1)] | .uni _ => []
def optV : Option VReg → List (Nat × Nat) | none => [] | some r => [(r.toNat, 1)]
def cbRegs : Option CbRef → List SReg | none => [] | some c => [c.reg]
/-- A completion flag names its address register and the next one, its value (R259). -/
def flagRegs : Option SReg → List SReg | none => [] | some f => [f, f + 1]
/-- The coordinate registers of a CPYT: those from sC that exist, at most ten (R261, R262). -/
def coordRegs (sC : SReg) : List SReg := ((List.range 10).filter fun i => sC.toNat + i < 128).map fun i => sC + BitVec.ofNat 7 i
def ShflMode.regs : ShflMode → List (Nat × Nat)
  | .up r => [(r.toNat, 1)] | .down r => [(r.toNat, 1)] | .xor => [] | .rot => []

def Size.bytes : Size → Nat | .b8 => 1 | .b16 => 2 | .b32 => 4 | .b64 => 8 | .b128 => 16 | .i8 => 1 | .i16 => 2
/-- The vector registers that an access of a size moves (R182). -/
def Size.words : Size → Nat | .b64 => 2 | .b128 => 4 | _ => 1

/-- Uniform registers read and written, and vector register ranges read and written (first, count). -/
structure Regs where
  sr : List SReg := []
  sw : List SReg := []
  vr : List (Nat × Nat) := []
  vw : List (Nat × Nat) := []

/-- The registers that an instruction names, by its entry. Events name none. -/
def Instr.regs : Instr → Regs
  | .smov _ sd sa => { sr := [sa], sw := [sd] }
  | .smovGetp _ sd => { sw := [sd] }
  | .smovSetp _ sa => { sr := [sa] }
  | .smovi _ sd _ => { sw := [sd] }
  | .sadd _ sd sa b => { sr := [sa] ++ b.regs, sw := [sd] }
  | .saddi _ sd sa _ => { sr := [sa], sw := [sd] }
  | .ssub _ sd sa b => { sr := [sa] ++ b.regs, sw := [sd] }
  | .smul _ sd sa b => { sr := [sa] ++ b.regs, sw := [sd] }
  | .smulhi _ _ sd sa b => { sr := [sa] ++ b.regs, sw := [sd] }
  | .sdiv _ _ sd sa b => { sr := [sa] ++ b.regs, sw := [sd] }
  | .srem _ _ sd sa b => { sr := [sa] ++ b.regs, sw := [sd] }
  | .sand _ sd sa b => { sr := [sa] ++ b.regs, sw := [sd] }
  | .sor _ sd sa b => { sr := [sa] ++ b.regs, sw := [sd] }
  | .sxor _ sd sa b => { sr := [sa] ++ b.regs, sw := [sd] }
  | .sshl _ sd sa b => { sr := [sa] ++ b.regs, sw := [sd] }
  | .sshr _ sd sa b => { sr := [sa] ++ b.regs, sw := [sd] }
  | .sshra _ sd sa b => { sr := [sa] ++ b.regs, sw := [sd] }
  | .smin _ _ sd sa b => { sr := [sa] ++ b.regs, sw := [sd] }
  | .smax _ _ sd sa b => { sr := [sa] ++ b.regs, sw := [sd] }
  | .ssel _ _ sd sa b => { sr := [sa] ++ b.regs, sw := [sd] }
  | .scmp _ _ _ _ sa b => { sr := [sa] ++ b.regs }
  | .splog _ _ _ _ _ => {}
  | .slea _ _ sd sa b => { sr := [sa] ++ b.regs, sw := [sd] }
  | .sbfx _ _ sd sa _ _ => { sr := [sa], sw := [sd] }
  | .sbfi _ sd sa _ _ => { sr := [sa, sd], sw := [sd] }
  | .sclz _ sd sa => { sr := [sa], sw := [sd] }
  | .spopc _ sd sa => { sr := [sa], sw := [sd] }
  | .sfadd _ _ sd sa sb => { sr := [sa, sb], sw := [sd] }
  | .sfmul _ _ sd sa sb => { sr := [sa, sb], sw := [sd] }
  | .sfma _ _ sd sa sb => { sr := [sa, sb, sd], sw := [sd] }
  | .sfcmp _ _ _ sa sb => { sr := [sa, sb] }
  | .sfcvt _ _ _ _ _ sd sa => { sr := [sa], sw := [sd] }
  | .br _ _ _ => {}
  | .vbr _ _ _ => {}
  | .jmp _ _ _ => {}
  | .jmpr _ sa => { sr := [sa] }
  | .call _ _ => { sw := [127] }
  | .callr _ sa => { sr := [sa], sw := [127] }
  | .ret _ sa => { sr := [sa] }
  | .meet _ => {}
  | .fend _ => {}
  | .gexit _ sa => { sr := [sa] }
  | .yield _ => {}
  | .sleep _ b => { sr := b.regs }
  | .nop _ => {}
  | .vmov _ _ _ more vd va => { vr := [(va.toNat, more.toNat + 1)], vw := [(vd.toNat, more.toNat + 1)] }
  | .vmovi _ _ _ _ vd _ => { vw := [(vd.toNat, 1)] }
  | .vmovx _ _ _ va => { vr := [(va.toNat, 1)] }
  | .vstx _ _ vd _ => { vw := [(vd.toNat, 1)] }
  | .viota _ _ _ vd => { vw := [(vd.toNat, 1)] }
  | .vadd _ _ _ _ vd va b => { sr := b.sregs, vr := [(va.toNat, 1)] ++ b.vregs, vw := [(vd.toNat, 1)] }
  | .vsub _ _ _ _ vd va b => { sr := b.sregs, vr := [(va.toNat, 1)] ++ b.vregs, vw := [(vd.toNat, 1)] }
  | .vmul _ _ _ _ vd va b => { sr := b.sregs, vr := [(va.toNat, 1)] ++ b.vregs, vw := [(vd.toNat, 1)] }
  | .vmulhi _ _ _ vd va b => { sr := b.sregs, vr := [(va.toNat, 1)] ++ b.vregs, vw := [(vd.toNat, 1)] }
  | .vmad _ _ _ _ _ vd va vb vc => { vr := [(va.toNat, 1), (vb.toNat, 1), (vc.toNat, 1)], vw := [(vd.toNat, 1)] }
  | .vdiv _ _ _ vd va b => { sr := b.sregs, vr := [(va.toNat, 1)] ++ b.vregs, vw := [(vd.toNat, 1)] }
  | .vrem _ _ _ vd va b => { sr := b.sregs, vr := [(va.toNat, 1)] ++ b.vregs, vw := [(vd.toNat, 1)] }
  | .vand _ _ vd va b => { sr := b.sregs, vr := [(va.toNat, 1)] ++ b.vregs, vw := [(vd.toNat, 1)] }
  | .vor _ _ vd va b => { sr := b.sregs, vr := [(va.toNat, 1)] ++ b.vregs, vw := [(vd.toNat, 1)] }
  | .vxor _ _ vd va b => { sr := b.sregs, vr := [(va.toNat, 1)] ++ b.vregs, vw := [(vd.toNat, 1)] }
  | .vnot _ _ vd va => { vr := [(va.toNat, 1)], vw := [(vd.toNat, 1)] }
  | .vshl _ _ vd va b => { sr := b.sregs, vr := [(va.toNat, 1)] ++ b.vregs, vw := [(vd.toNat, 1)] }
  | .vshr _ _ vd va b => { sr := b.sregs, vr := [(va.toNat, 1)] ++ b.vregs, vw := [(vd.toNat, 1)] }
  | .vshra _ _ vd va b => { sr := b.sregs, vr := [(va.toNat, 1)] ++ b.vregs, vw := [(vd.toNat, 1)] }
  | .vmin _ _ _ vd va b => { sr := b.sregs, vr := [(va.toNat, 1)] ++ b.vregs, vw := [(vd.toNat, 1)] }
  | .vmax _ _ _ vd va b => { sr := b.sregs, vr := [(va.toNat, 1)] ++ b.vregs, vw := [(vd.toNat, 1)] }
  | .vabs _ _ _ vd va => { vr := [(va.toNat, 1)], vw := [(vd.toNat, 1)] }
  | .vneg _ _ _ vd va => { vr := [(va.toNat, 1)], vw := [(vd.toNat, 1)] }
  | .vsel _ _ _ vd va vb vc => { vr := [(va.toNat, 1), (vb.toNat, 1), (vc.toNat, 1)], vw := [(vd.toNat, 1)] }
  | .vcmp _ _ _ _ _ va b => { sr := b.sregs, vr := [(va.toNat, 1)] ++ b.vregs }
  | .vplog _ _ _ _ _ _ => {}
  | .vclz _ _ vd va => { vr := [(va.toNat, 1)], vw := [(vd.toNat, 1)] }
  | .vpopc _ _ vd va => { vr := [(va.toNat, 1)], vw := [(vd.toNat, 1)] }
  | .vbfx _ _ _ _ vd va vb vc => { vr := [(va.toNat, 1), (vb.toNat, 1), (vc.toNat, 1)], vw := [(vd.toNat, 1)] }
  | .vbfi _ _ _ vd va vb vc =>
      { vr := [(va.toNat, 1), (vb.toNat, 1), (vc.toNat, 1), (vd.toNat, 1)], vw := [(vd.toNat, 1)] }
  | .vperm _ _ vd va vb vc => { vr := [(va.toNat, 1), (vb.toNat, 1), (vc.toNat, 1)], vw := [(vd.toNat, 1)] }
  | .vshfl _ _ mode vd va vb => { vr := [(va.toNat, 1), (vb.toNat, 1)] ++ mode.regs, vw := [(vd.toNat, 1)] }
  | .qswap _ _ _ vd va => { vr := [(va.toNat, 1)], vw := [(vd.toNat, 1)] }
  | .qbcast _ _ _ vd va => { vr := [(va.toNat, 1)], vw := [(vd.toNat, 1)] }
  | .vred _ _ _ _ vd va => { vr := [(va.toNat, 1)], vw := [(vd.toNat, 1)] }
  | .vscan _ _ _ _ _ vd va => { vr := [(va.toNat, 1)], vw := [(vd.toNat, 1)] }
  | .vballot _ _ sd _ => { sw := [sd] }
  | .vtos _ _ mode sd va => { sr := (if mode = .hi then [sd] else []), sw := [sd], vr := [(va.toNat, 1)] }
  | .stov _ _ _ vd sa => { sr := [sa], vw := [(vd.toNat, 1)] }
  | .ptest _ _ _ _ _ => {}
  | .vfadd _ _ _ _ _ _ vd va vb => { vr := [(va.toNat, 1), (vb.toNat, 1)], vw := [(vd.toNat, 1)] }
  | .vfsub _ _ _ _ _ _ vd va vb => { vr := [(va.toNat, 1), (vb.toNat, 1)], vw := [(vd.toNat, 1)] }
  | .vfmul _ _ _ _ _ _ vd va vb => { vr := [(va.toNat, 1), (vb.toNat, 1)], vw := [(vd.toNat, 1)] }
  | .vfma _ _ _ _ _ _ vd va vb vc => { vr := [(va.toNat, 1), (vb.toNat, 1), (vc.toNat, 1)], vw := [(vd.toNat, 1)] }
  | .vfmin _ _ _ vd va b => { sr := b.sregs, vr := [(va.toNat, 1)] ++ b.vregs, vw := [(vd.toNat, 1)] }
  | .vfmax _ _ _ vd va b => { sr := b.sregs, vr := [(va.toNat, 1)] ++ b.vregs, vw := [(vd.toNat, 1)] }
  | .vfabs _ _ _ vd va => { vr := [(va.toNat, 1)], vw := [(vd.toNat, 1)] }
  | .vfneg _ _ _ vd va => { vr := [(va.toNat, 1)], vw := [(vd.toNat, 1)] }
  | .vfcmp _ _ _ _ va b => { sr := b.sregs, vr := [(va.toNat, 1)] ++ b.vregs }
  | .vfrcp _ _ _ _ _ vd va => { vr := [(va.toNat, 1)], vw := [(vd.toNat, 1)] }
  | .vfrsq _ _ _ _ _ vd va => { vr := [(va.toNat, 1)], vw := [(vd.toNat, 1)] }
  | .vfsqrt _ _ _ _ _ vd va => { vr := [(va.toNat, 1)], vw := [(vd.toNat, 1)] }
  | .vfdiv _ _ _ _ _ vd va vb => { vr := [(va.toNat, 1), (vb.toNat, 1)], vw := [(vd.toNat, 1)] }
  | .vfexp2 _ _ _ _ _ vd va => { vr := [(va.toNat, 1)], vw := [(vd.toNat, 1)] }
  | .vflog2 _ _ _ _ _ vd va => { vr := [(va.toNat, 1)], vw := [(vd.toNat, 1)] }
  | .vfscl _ _ _ _ _ vd va vb => { vr := [(va.toNat, 1), (vb.toNat, 1)], vw := [(vd.toNat, 1)] }
  | .vfexpo _ _ vd va => { vr := [(va.toNat, 1)], vw := [(vd.toNat, 1)] }
  | .vfclass _ _ _ vd va => { vr := [(va.toNat, 1)], vw := [(vd.toNat, 1)] }
  | .vcvt _ _ _ _ _ _ _ vd va => { vr := [(va.toNat, 1)], vw := [(vd.toNat, 1)] }
  | .vpack2 _ _ _ _ _ vd va vb => { vr := [(va.toNat, 1), (vb.toNat, 1)], vw := [(vd.toNat, 1)] }
  | .vunpack2 _ _ _ vd va => { vr := [(va.toNat, 1)], vw := [(vd.toNat, 2)] }
  | .vpack4 _ _ _ _ _ vd va => { vr := [(va.toNat, 4)], vw := [(vd.toNat, 1)] }
  | .vunpack4 _ _ _ vd va => { vr := [(va.toNat, 1)], vw := [(vd.toNat, 4)] }
  | .vqpack _ _ _ vd va => { vr := [(va.toNat, 1)], vw := [(vd.toNat, 1)] }
  | .vqunpk _ _ vd va => { vr := [(va.toNat, 1)], vw := [(vd.toNat, 1)] }
  | .vdot2 _ _ _ _ _ vd va vb vc => { vr := [(va.toNat, 1), (vb.toNat, 1), (vc.toNat, 1)], vw := [(vd.toNat, 1)] }
  | .vdot4 _ _ _ _ _ vd va vb vc => { vr := [(va.toNat, 1), (vb.toNat, 1), (vc.toNat, 1)], vw := [(vd.toNat, 1)] }
  | .vld _ _ sz _ data base vo _ => { sr := [base], vr := optV vo, vw := [(data.toNat, sz.words)] }
  | .vst _ _ sz _ data base vo _ => { sr := [base], vr := [(data.toNat, sz.words)] ++ optV vo }
  | .vldc _ _ _ sz data base vo _ => { sr := [base], vr := optV vo, vw := [(data.toNat, sz.words)] }
  | .sld _ _ _ _ sd base _ => { sr := [base], sw := [sd] }
  | .sst _ _ _ _ sd base _ => { sr := [base, sd] }
  | .vatom _ fn fetch _ b64 _ data base vo _ =>
      { sr := [base], vr := [(data.toNat, (1 + b2n b64) * (1 + b2n (fn == AtomFn.cas)))] ++ optV vo,
        vw := (if fetch then [(data.toNat, 1 + b2n b64)] else []) }
  | .satom _ fn fetch _ _ _ sd base _ =>
      { sr := [base, sd] ++ (if fn = .cas then [sd + 1] else []), sw := (if fetch then [sd] else []) }
  | .spushv _ data n => { vr := [(data.toNat, n.toNat)] }
  | .spopv _ data n => { vw := [(data.toNat, n.toNat)] }
  | .fence _ _ _ => {}
  | .waitw _ _ _ _ base sv sc st _ _ => { sr := [base, sc, st], sw := [sv] }
  | .bar _ => {}
  | .bara _ => {}
  | .barw _ => {}
  | .cbinit _ _ base qa qk _ => { sr := [base, qa, qk] }
  | .cbexpect _ arrive _ _ base cnt _ => { sr := [base, cnt], sw := arrive.toList }
  | .cbarrive _ _ _ _ base tok _ => { sr := [base], sw := [tok] }
  | .cbwait _ _ _ base tok _ => { sr := [base, tok] }
  | .cbtest _ _ _ _ sf base tok _ => { sr := [base, tok], sw := [sf] }
  | .rlock _ _ base len hd _ => { sr := [base, len], sw := [hd] }
  | .runlock _ hd => { sr := [hd] }
  | .cpy _ _ _ _ sd dA sA lA cb flag => { sr := [dA, sA, lA] ++ cbRegs cb ++ flagRegs flag, sw := [sd] }
  | .cpyt _ _ _ _ sd xA tA cA cb flag => { sr := [xA, tA, tA + 1] ++ coordRegs cA ++ cbRegs cb ++ flagRegs flag, sw := [sd] }
  | .cpym _ _ sd fA sA lA aA _ => { sr := [fA, sA, lA, aA], sw := [sd] }
  | .cpytest _ _ _ => {}
  | .macq _ sd _ => { sw := [sd] }
  | .macqTeam _ sd _ sm => { sr := [sm], sw := [sd] }
  | .mrel _ => {}
  | .mgrow _ sd _ => { sw := [sd] }
  | .mzero _ sd _ => { sw := [sd] }
  | .mloop _ _ _ _ sd aA iA xA yA vb _ _ => { sr := [aA, iA, xA, yA], sw := [sd], vr := [(vb.toNat, 1)] }
  | .msacc _ sd pA qA nA _ => { sr := [pA, qA, nA], sw := [sd] }
  | .mldacc _ _ sd aA rA _ => { sr := [aA, rA], sw := [sd] }
  | .mstacc _ _ _ _ sd aA rA _ => { sr := [aA, rA], sw := [sd] }
  | .tsend _ sd tA lA bA _ => { sr := [tA, lA, bA], sw := [sd] }
  | .trecv _ sd tA lA bA _ => { sr := [tA, lA, bA], sw := [sd] }
  | .nself _ sd => { sw := [sd] }
  | .nwake _ sd sa => { sr := [sa], sw := [sd, sd + 1] }
  | .nsignal _ sd sa sb => { sr := [sa, sb], sw := [sd, sd + 1] }
  | .nsignalKill _ sd sa => { sr := [sa], sw := [sd, sd + 1] }
  | .ndeposit _ sd sa sb _ => { sr := [sa, sb], sw := [sd, sd + 1] }
  | .njoin _ _ sd sa t => { sr := [sa] ++ t.toList, sw := [sd, sd + 1] }
  | .npark _ sd t => { sr := t.toList, sw := [sd] }
  | .nstat _ sd sa => { sr := [sa], sw := [sd, sd + 1] }
  | .tspawn _ tag base vo _ => { sr := [base, base + 1], vr := [(tag.toNat, 1)] ++ optV vo }
  | .tpost _ _ sa => { sr := [sa] }
  | .tdone _ => {}
  | .rgacq _ _ _ _ sd sa => { sr := [sa], sw := [sd, sd + 1] }
  | .rgcommit _ _ _ sd sa sb => { sr := [sa, sb], sw := [sd] }
  | .rgpeek _ _ _ _ sd sa => { sr := [sa], sw := [sd, sd + 1] }
  | .rgrel _ _ _ sd sa sb => { sr := [sa, sb], sw := [sd] }
  | .wdnext _ sa => { sr := [sa] }
  | .launch _ sd sa => { sr := [sa], sw := [sd] }
  | .trap _ _ => {}
  | .xret _ => {}
  | .sysrd _ sd _ => { sw := [sd] }
  | .syswr _ _ sa => { sr := [sa] }
  | .syswrXlflush _ sa => { sr := [sa] }
  | .syswrScrridx _ sa => { sr := [sa] }
  | .bkpt _ _ => {}
  | .logmark _ sa => { sr := [sa] }
  | .evpost _ sd nA aA lA _ => { sr := [nA, aA, lA], sw := [sd] }
  | .fretry _ sd sa => { sr := [sa], sw := [sd] }
  | .fretryExhaust _ sd sa => { sr := [sa], sw := [sd] }
  | .fretryFatal _ sd sa => { sr := [sa], sw := [sd] }
  | _ => {}

/-- Every vector register of every operand lies within a budget (R53). -/
def Instr.inBudget (i : Instr) (budget : Nat) : Bool :=
  (i.regs.vr ++ i.regs.vw).all fun r => decide (r.1 + r.2 ≤ budget)

/-- Operand b of a scalar instruction: a register, or imm16 sign-extended or (R128) zero-extended. -/
def SOp.value (g : Machine.Group) (zext : Bool) : SOp → Word64
  | .reg r => g.rdS r
  | .imm i => if zext then i.setWidth 64 else i.signExtend 64

/-- Operand b of a format V instruction in lane `f` (R226). -/
def VOp.lane (g : Machine.Group) (f : Nat) : VOp → Word32
  | .vec r => (g.rdV r.toNat).lane f
  | .uni r => (g.rdS r).setWidth 32

/-- The guard of an instruction, from its common fields (R83, R87). -/
def Instr.guard (i : Instr) : Guard := ⟨BitVec.ofNat 4 (field (encode i).2 2 4), bitAt (encode i).2 6⟩

namespace Machine

/-- A lane of a vector register as an instruction reads it: zero where no live fibre is (R80, R223). -/
def Group.laneAt (g : Group) (n f : Nat) : Word32 := if g.live.getLsbD f then (g.rdV n).lane f else 0

/-- The outcome of one meaning. -/
abbrev Out := Host.Outcome State Fault Refusal

/-- The checks that come before an issued instruction acts: its registers lie within the budget, or ILLEGAL_OPERAND takes
the whole stroke (R53, R102); with no active fibre only the program counters move (R89). -/
def onStroke (i : Instr) (gd : Guard) (s : State) (body : Issue → Group → BitVec 32 → State → State) : Out :=
  match s.issuing with
  | none => .fault .noIssuingStroke
  | some u =>
    match s.group? u.gid with
    | none => .fault .noIssuingStroke
    | some g =>
      .next
        (if !i.inBudget g.budget then s.trap u u.mask 0x03 0
         else if g.active u.mask gd = 0 then s.advance u i.len
         else body u g (g.active u.mask gd) s)

/-- The active fibres are all helpers (R32). -/
def Group.helperOnly (g : Group) (a : BitVec 32) : Bool := a &&& ~~~g.helpers == 0

namespace State

/-- An instruction reads vector registers: those with no map slot are filled first, and it goes on with the group as it then
is; a slot of the image that does not translate is CONTEXT_IMAGE_FAULT (R55, R67). -/
def withRegs (s : State) (u : Issue) (ns : List Nat) (go : Group → State → State) : State :=
  match s.fillAll u.gid ns with
  | (t, some va) =>
    (match t.group? u.gid with
      | some g => t.contextFatal g.ctx 0x82 (BitVec.ofNat 64 va) (t.strokeThread g u.mask)
      | none => t)
  | (t, none) => match t.group? u.gid with | some g => go g t | none => t

/-- A write of a uniform register by a stroke, with its STRK record (R42). -/
def writeS (s : State) (u : Issue) (g : Group) (sd : SReg) (v : Word64) : State :=
  (s.modGroup u.gid fun h => h.wrS sd v).logStrk u g 0 sd.toNat v

/-- A write of a uniform predicate by a stroke (R42). -/
def writeSp (s : State) (u : Issue) (g : Group) (k : UPred) (b : Bool) : State :=
  (s.modGroup u.gid fun h => h.wrSp k b).logStrk u g 1 k.toNat (BitVec.ofNat 64 (b2n b))

def orFlags (s : State) (gid : Nat) (fl : Nat) : State := s.modGroup gid fun g => g.orFlags fl

end State

/-- A scalar instruction that writes one uniform register and may set flags (R126). -/
def scalarOp (i : Instr) (gd : Guard) (sd : SReg) (f : Group → Word64 × Nat) (s : State) : Out :=
  onStroke i gd s fun u g _ s =>
    let r := f g
    ((s.orFlags u.gid r.2).writeS u g sd r.1).advance u i.len

/-- A scalar instruction that writes one uniform predicate. -/
def scalarPred (i : Instr) (gd : Guard) (k : UPred) (f : Group → Bool × Nat) (s : State) : Out :=
  onStroke i gd s fun u g _ s =>
    let r := f g
    ((s.orFlags u.gid r.2).writeSp u g k r.1).advance u i.len

/-! ## Indexed operands (R62, R63) -/

/-- The index register of an ix3 code: 1 to 4 through x0 to x3, 5 and 6 through x0 and x1. -/
def ixReg (ix : Ix) : XReg := if ix.toNat < 5 then BitVec.ofNat 2 (ix.toNat - 1) else BitVec.ofNat 2 (ix.toNat - 5)
def ixSource (ix : Ix) : Bool := 1 ≤ ix.toNat && ix.toNat ≤ 4
def ixDest (ix : Ix) : Bool := ix.toNat == 5 || ix.toNat == 6

/-- The register number that fibre `f` uses for field `F`. -/
def Group.indexed (g : Group) (ix : Ix) (F f : Nat) : Int := (F : Int) + ((g.rdX (ixReg ix)).lane f).toInt

/-- It lies within XBOUNDn and the budget. -/
def Group.indexedOk (g : Group) (ix : Ix) (F f : Nat) : Bool :=
  let b := (g.xbound (ixReg ix).toNat).toNat
  let n := g.indexed ix F f
  decide ((field b 0 11 : Nat) ≤ n) && decide (n ≤ (field b 16 11 : Nat)) && decide (n < g.budget)

/-- The active fibres that raise REG_INDEX. -/
def Group.indexBad (g : Group) (ix : Ix) (vd va : VReg) (a : BitVec 32) : BitVec 32 :=
  if ix = 0 then 0
  else maskOf fun f => a.getLsbD f && !g.indexedOk ix (if ixSource ix then va.toNat else vd.toNat) f

/-- The source register of fibre `f`, and its destination register. -/
def Group.srcReg (g : Group) (ix : Ix) (va : VReg) (f : Nat) : Nat :=
  if ixSource ix then (g.indexed ix va.toNat f).toNat else va.toNat
def Group.dstReg (g : Group) (ix : Ix) (vd : VReg) (f : Nat) : Nat :=
  if ixDest ix then (g.indexed ix vd.toNat f).toNat else vd.toNat

/-! ## Retirement of vector results -/

/-- One destination register: its number, the fibres that write it, and their values. -/
structure VResult where
  reg  : Nat
  mask : BitVec 32
  val  : Nat → Word32

/-- The registers of a range. -/
def rangeRegs (r : Nat × Nat) : List Nat := (List.range r.2).map (r.1 + ·)

/-- The fields of an instruction that a blotter key holds: everything but guard, nr and registers (R72). -/
def opFields (i : Instr) : Nat :=
  let w := (encode i).2
  let hi := match i with
    | .vldc .. => 45
    | .vmovi .. => 38
    | _ => if i.len = 8 then 49 else 60
  field w 7 9 + w / 2 ^ hi * 2 ^ hi

/-- Some live fibre is not active, so that a destination's prior value counts (R72, R80). -/
def Group.partial? (g : Group) (a : BitVec 32) : Bool := g.live &&& ~~~a != 0

namespace State

/-- Reuse is disabled by REPLAY with NOREUSE (R71). -/
def reuseOff (s : State) (g : Group) : Bool :=
  let x := s.scroll g.ctx (pkgOf g.core)
  x.mode == 2 && x.noReuse

/-- The value of the uniform predicate that guards an instruction, if one does (R72, R87). -/
def guardValue (g : Group) (i : Instr) : List Nat :=
  let c := i.guard.code.toNat
  if 12 ≤ c ∧ c < 15 then [c, b2n (g.sp.getLsbD (c - 12))] else []

/-- One component of a key, with its length in front: keys are alike only when every component is. -/
def keyPart (l : List Nat) : List Nat := l.length :: l

/-- The blotter key of an execution, component by component (R72); `extra` is what R75 adds. -/
def blotKey (s : State) (u : Issue) (g : Group) (i : Instr) (a : BitVec 32) (extra : List Nat) : List Nat :=
  [opFields i, a.toNat] ++ keyPart (guardValue g i) ++ keyPart ((i.regs.vr.flatMap rangeRegs).map (s.entryOf u.gid))
    ++ keyPart (i.regs.sr.map (fun n => (g.rdS n).toNat))
    ++ keyPart (if g.partial? a then (i.regs.vw.flatMap rangeRegs).map (s.entryOf u.gid) else []) ++ extra

/-- The entries that a key names. -/
def keyEntries (s : State) (u : Issue) (g : Group) (i : Instr) (a : BitVec 32) : List Nat :=
  (((i.regs.vr.flatMap rangeRegs) ++ (if g.partial? a then i.regs.vw.flatMap rangeRegs else [])).map
    (s.entryOf u.gid)).map (· - 1)

/-- Writes destination registers through WriteResult (R66, R80). -/
def writeV (s : State) (u : Issue) (g : Group) (rs : List VResult) : State :=
  rs.foldl (fun s r => s.writeResult u.gid r.reg (g.merged r.mask (g.rdV r.reg) r.val)) s

/-- Writes the destination registers of a key that has missed: each entry joins the results that its blotter entry names,
unless an allocation on the way has freed an entry that it names (R73, R74). -/
def writeKeyed (s : State) (u : Issue) (g : Group) (key : List Nat) (rs : List VResult) : State :=
  rs.foldl (fun s r =>
    let t := s.writeResult u.gid r.reg (g.merged r.mask (g.rdV r.reg) r.val)
    t.blotAdjust g.core g.ctx key fun b => { b with result := b.result ++ [t.entryOf u.gid r.reg - 1] }) s

/-- A blotter entry's results hold what an execution computes. They may not when the entry was recorded with other live fibres, of
which R72's key tells nothing: R73 wants the state after a hit to be that after an execution, and such a match is a miss
(R80; log 14). -/
def recorded (s : State) (g : Group) (b : BlotEntry) (rs : List VResult) : Bool :=
  (rs.zip b.result).all fun r =>
    ((s.core g.core).entry? r.2).any fun x => x.value == g.merged r.1.mask (g.rdV r.1.reg) r.1.val

/-- A blotter hit (R73): each destination takes the recorded entry, and FSTAT the recorded flags; the values are those of
an execution. That a hit counts BLOTHIT and no DEDUP is the model's choice (log 14). -/
def blotHit (s : State) (u : Issue) (g : Group) (b : BlotEntry) (rs : List VResult) : State :=
  let s := (s.count g.core g.launch .blotHit 1).blotAdjust g.core g.ctx b.key id
  let s := (rs.zip b.result).foldl (fun s r =>
    (((s.modGroup u.gid fun h => h.wrV r.1.reg (g.merged r.1.mask (g.rdV r.1.reg) r.1.val)).modCore g.core
      (·.touch r.2)).mapTo u.gid r.1.reg r.2 true)) s
  s.orFlags u.gid b.flags

/-- The blotter entry that a qualifying instruction finds under its key (R71, R73). -/
def reusable (s : State) (u : Issue) (g : Group) (i : Instr) (a : BitVec 32) (qualifies : Bool) (extra : List Nat)
    (rs : List VResult) : Option BlotEntry :=
  if qualifies && !s.reuseOff g then
    (s.blotLookup g.core g.ctx (s.blotKey u g i a extra) rs.length).filter fun b => s.recorded g b rs
  else none

/-- Retires vector results whose operands have been read: a qualifying instruction looks its key up (R73); otherwise, and
on a miss, it writes its results and flags. -/
def retireV (s : State) (u : Issue) (g : Group) (i : Instr) (a : BitVec 32) (qualifies : Bool)
    (lock : Option (Nat × Nat)) (extra : List Nat) (rs : List VResult) (fl : Nat) : State :=
  match s.reusable u g i a qualifies extra rs with
  | some b => s.blotHit u g b rs
  | none =>
    if qualifies && !s.reuseOff g then
      let key := s.blotKey u g i a extra
      let b : BlotEntry := { ctx := g.ctx, key := key, names := s.keyEntries u g i a, result := [], flags := fl, lock := lock }
      (((s.count g.core g.launch .blotMiss 1).blotEnter g.core b).writeKeyed u g key rs).orFlags u.gid fl
    else (s.writeV u g rs).orFlags u.gid fl

end State

/-- The fibres that complete an instruction advance; the faulting ones become the trap stroke (R351, R63, R183). -/
def State.split (s : State) (u : Issue) (bad : BitVec 32) (cause : Byte) (xaddr : Word64) (len : Nat) : State :=
  let t := s.modGroup u.gid fun g => g.setPc (u.mask &&& ~~~bad) (u.pc + BitVec.ofNat 64 len)
  if bad = 0 then t else t.trap u bad cause xaddr

/-- The lanes of one vector result: for each lane its value and its flags, from the group, the active fibres, lane by lane
the indexed or plain operand va, and the prior destination. -/
abbrev LaneFn := Group → BitVec 32 → (Nat → Word32) → (Nat → Word32) → Nat → Nat × Nat

/-- The plain vector registers that an instruction reads. -/
def plainReads (i : Instr) : List Nat := i.regs.vr.flatMap rangeRegs

/-- The registers that some fibres write. -/
def destRegs (g : Group) (ix : Ix) (vd : VReg) (a : BitVec 32) : List Nat := ((lanesOf a).map (g.dstReg ix vd)).eraseDups

/-- The vector registers that an instruction with one destination reads for some fibres: its sources, the indexed one by the
register of each fibre, and its destinations where they keep lanes (R62, R80). -/
def vectorReads (i : Instr) (g : Group) (ix : Ix) (vd va : VReg) (a : BitVec 32) : List Nat :=
  let srcs := if ixSource ix then ((lanesOf a).map (g.srcReg ix va)).eraseDups ++ ((i.regs.vr.drop 1).flatMap rangeRegs)
    else (if ixDest ix then i.regs.vr.take 3 else i.regs.vr).flatMap rangeRegs
  if a = 0 then [] else if g.partial? a || ixDest ix then srcs ++ destRegs g ix vd a else srcs

/-- Those of an instruction with a range of destinations. -/
def rangeReads (i : Instr) (g : Group) (vd : VReg) (n : Nat) (a : BitVec 32) : List Nat :=
  if g.partial? a then plainReads i ++ rangeRegs (vd.toNat, n) else plainReads i

/-- A vector instruction with one destination (R219, R223 to R225). -/
def vectorOp (i : Instr) (gd : Guard) (nr : Bool) (ix : Ix) (vd va : VReg) (fn : LaneFn) (s : State) : Out :=
  onStroke i gd s fun u g a0 s =>
    let bad := g.indexBad ix vd va a0
    let a := a0 &&& ~~~bad
    let dests := destRegs g ix vd a
    s.withRegs u (vectorReads i g ix vd va a) fun g s =>
    let A := fun f => g.laneAt (g.srcReg ix va f) f
    let D := fun f => (g.rdV (g.dstReg ix vd f)).lane f
    let h := fn g a A D
    let lanes := (List.range 32).map fun f => if a.getLsbD f then h f else (0, 0)
    let val := fun f => BitVec.ofNat 32 (lanes.getD f (0, 0)).1
    let fl := lanes.foldl (fun x l => orFl x l.2) 0
    let rs := dests.map fun d => VResult.mk d (maskOf fun f => a.getLsbD f && g.dstReg ix vd f == d) val
    let s := if a = 0 then s else s.retireV u g i a (!nr && ix == 0) none [] rs fl
    s.split u bad 0x10 (BitVec.ofInt 64 (g.indexed ix (if ixSource ix then va.toNat else vd.toNat) (lowest bad))) i.len

/-- A vector instruction with a range of destinations (R228, R249). -/
def vectorMulti (i : Instr) (gd : Guard) (nr : Bool) (vd : VReg) (n : Nat) (fn : Group → Nat → Nat → Nat × Nat)
    (s : State) : Out :=
  onStroke i gd s fun u g a s =>
    s.withRegs u (rangeReads i g vd n a) fun g s =>
    let rs := (List.range n).map fun k => VResult.mk (vd.toNat + k) a fun f => BitVec.ofNat 32 (fn g k f).1
    let fl := (List.range n).foldl (fun x k => (lanesOf a).foldl (fun x f => orFl x (fn g k f).2) x) 0
    (s.retireV u g i a (!nr) none [] rs fl).advance u i.len

/-- A result in a vector predicate (R221). -/
def predOp (i : Instr) (gd : Guard) (pd : PReg) (fn : Group → Nat → Bool × Nat) (s : State) : Out :=
  onStroke i gd s fun u _ a s =>
    s.withRegs u (plainReads i) fun g s =>
    let v := maskOf fun f => if a.getLsbD f then (fn g f).1 else g.live.getLsbD f && (g.rdP pd).getLsbD f
    let fl := (lanesOf a).foldl (fun x f => orFl x (fn g f).2) 0
    ((s.modGroup u.gid fun h => h.wrP pd v).orFlags u.gid fl).advance u i.len

end Machine
end Sys2Proof
end

