-- ==== Sys2Proof/Machine/Access.lean ====
section
/-! DEFINITION. Accesses to the addressable memories: layouts and bounds (R158), range locks (R176 to R179), the checks of
R183, the request counts of R397, the records of read-modify-writes (R341), and host accesses that wait for locks. -/

namespace Sys2Proof

def WordSpace.space : WordSpace → Space | .sh => .sh | .cl => .cl | .sp => .sp

namespace Machine

/-! ## Layouts and bounds (R158) -/

namespace State

/-- The cohort that a .sh or .cl address reaches: the own one, or a member of the cluster (R158). -/
def ownerCohort (s : State) (g : Group) (ms : Space) (A : Nat) : Option Nat :=
  match ms with
  | .sh => some g.cohort
  | .cl => (s.cohort? g.cohort).bind fun c => (s.cluster? c.cluster).bind fun k => k.cohorts[field A 19 2]?
  | _ => none

/-- The memory key of `n` bytes at address `A` for a group, or the cause that R158 gives. -/
def resolve (s : State) (gid : Nat) (g : Group) (ms : Space) (A n : Nat) : Except Byte Nat :=
  match ms with
  | .stk => if A < 2 ^ 32 ∧ A + n ≤ g.stack then .ok (placeStack gid + A) else .error 0x11
  | .sp =>
    if A < 2 ^ 48 ∧ field A 0 37 + n ≤ s.windowSize g.ctx (field A 40 8) (field A 37 3) then .ok (spKey g.ctx A)
    else .error 0x21
  | _ =>
    if A < 2 ^ (if ms = .cl then 21 else 19) then
      match s.ownerCohort g ms A with
      | none => .error 0x23
      | some h =>
        match s.cohort? h with
        | none => .error 0x23
        | some c => if field A 0 19 + n ≤ c.shared then .ok (placeShared h + field A 0 19) else .error 0x23
    else .error 0x23

/-! ## Locks (R176 to R178) -/

end State

/-- A lock covers some of `n` bytes from a key. -/
def Lock.covers (l : Lock) (key n : Nat) : Bool :=
  decide (l.place + 32 * l.first < key + n) && decide (key < l.place + 32 * (l.last + 1))

namespace State

/-- Some lock of a kind that `p` selects covers some of `n` bytes. -/
def meets (s : State) (key n : Nat) (p : LockKind → Bool) : Bool :=
  s.locks.any fun l => l.core != noCore && p l.kind && l.covers key n

/-- A thread load meets write locks; a store or an atomic meets every lock (R178). -/
def meetsThread (s : State) (key n : Nat) (writes : Bool) : Bool := s.meets key n fun k => writes || k == .write

/-- The place of a key: places lie 2^80 apart. -/
def placeOf (key : Nat) : Nat := key / 2 ^ 80 * 2 ^ 80

/-- A lock of a range: widened outward to whole sectors (R176). -/
def mkLock (ctx core key n : Nat) (kind : LockKind) (owner : LockOwner) : Lock :=
  let p := placeOf key
  { ctx := ctx, core := core, place := p, first := (key - p) / 32, last := (key - p + (n - 1)) / 32, kind := kind, owner := owner }

/-- Entries in use in the lock table of a core (R176). -/
def tableUse (s : State) (core : Nat) : Nat := (s.locks.filter fun l => l.core == core).length
def tableReadOnly (s : State) (core : Nat) : Nat :=
  (s.locks.filter fun l => l.core == core && l.kind == .readOnly).length

/-- CheckAccess (R183): bounds, then alignment of an atomic, then locks. -/
def checkAccess (s : State) (gid : Nat) (g : Group) (ms : Space) (A n : Nat) (aligned writes : Bool) : Except Byte Nat :=
  match s.resolve gid g ms A n with
  | .error c => .error c
  | .ok key =>
    if aligned ∧ A % n ≠ 0 then .error 0x22
    else if s.meetsThread key n writes then .error 0x20
    else .ok key

/-- A failed check of a scalar instruction: SPAD_BOUNDS ends the context, every other cause traps the stroke (R183). -/
def raise (s : State) (u : Issue) (g : Group) (mask : BitVec 32) (cause : Byte) (addr : Nat) : State :=
  if cause = 0x21 then s.contextFatal g.ctx 0x21 (BitVec.ofNat 64 addr) (s.strokeThread g mask)
  else s.trap u mask cause (BitVec.ofNat 64 addr)

/-! ## Host accesses to a window (R177, R378) -/

/-- The size of the window that an address names. -/
def windowOf (s : State) (ctx : Nat) (a : Nat) : Nat :=
  if a < 2 ^ 48 then s.windowSize ctx (field a 40 8) (field a 37 3) else 0

/-- What a host access to a window does now: answered, or still waiting (R177). A range that leaves the window is FAULT (6)
with the first byte outside it, and a WRITE has then written what lies below it; DENIED is 3 (R377, R378). The window is that of
the moment when the call was issued, and bytes that a MAP has discarded since are not written (R159, R160). A WRITE that meets a
read-only lock is DENIED at once, whatever else holds for its range: DESIGN CHOICE (log 56). -/
def tryAccess (s : State) (a : HostAccess) : Option State :=
  let A := a.addr.toNat
  let key := spKey a.call.ctx A
  let left := a.window - field A 0 37
  let fault := toBytes 8 (A + left)
  if a.data.isEmpty then
    if left < a.len then some (s.reply a.call 5 6 fault)
    else if s.meets key a.len (· == .write) then none
    else some (s.reply a.call 5 0 (s.readBytes key a.len))
  else
    let d := a.data.take left
    if !d.isEmpty && s.meets key d.length (· == .readOnly) then some (s.reply a.call 4 3)
    else if !d.isEmpty && s.meets key d.length (fun _ => true) then none
    else
      let t := s.writeBytes key (d.take (s.windowOf a.call.ctx A - field A 0 37))
      some (if left < a.data.length then t.reply a.call 4 6 fault else t.reply a.call 4 0)

/-- Retries the waiting host accesses in order. -/
def retryAccesses (s : State) : State :=
  s.ops.foldl (fun s o =>
    match o.2.work with
    | .access a => match s.tryAccess a with | some t => t.dropOp o.1 | none => s
    | _ => s) s

/-- The locks of a piece of work drop (R179): strokes, host accesses and bitmap sets that waited for them go on. -/
def dropLocks (s : State) (o : Nat) : State :=
  let t := { s with locks := s.locks.filter fun l => decide (l.owner ≠ LockOwner.op o) }
  t.retryDone.retryAccesses

/-! ## Requests (R397) -/

/-- Counts one request of a context on a core as it is issued, and says whether its launch samples it: every N-th is tagged. -/
def countRequest (s : State) (core ctx launch : Nat) : State × Bool :=
  let n := (s.core core).requests.read 0 ctx + 1
  (s.modCore core fun k => { k with requests := k.requests.put ctx n },
    match s.launch? launch with
    | none => false
    | some l => l.debugOpts.sample != 0 && n % l.debugOpts.sample == 0 && l.debugOpts.ring.isSome)

/-- A tagged request has completed: its record is to be posted. -/
def tagRequest (s : State) (core ctx launch kind : Nat) (thread : Word64) (space A : Nat) : State :=
  s.modCore core fun k => { k with tagged := k.tagged ++
    [{ ctx := ctx, launch := launch, kind := kind, thread := thread, addr := BitVec.ofNat 64 (space * 2 ^ 56 + A % 2 ^ 56) }] }

/-- A lane's request, which completes in the step that issues it (R397). -/
def request (s : State) (g : Group) (kind : Nat) (fibre : Nat) (space A : Nat) : State :=
  let r := s.countRequest g.core g.ctx g.launch
  if r.2 then r.1.tagRequest g.core g.ctx g.launch kind (s.thread g fibre) space A else r.1

/-! ## Records of read-modify-writes (R340, R341) -/

/-- The package and record of an atomic step at a sector's home: a core for shared memory, a slice for scratchpad. -/
def atomEntry (s : State) (g : Group) (ms : Space) (A : Nat) (subject payload : Word64) : Nat × Entry :=
  let op := BitVec.ofNat 64 (ms.code * 2 ^ 56 + A % 2 ^ 56)
  match ms with
  | .sp =>
    (field A 40 8, { kind := 2, cls := 3, src := 32 * field A 37 3 + Config.sliceOf (field A 0 37) % 32, subject := subject
                     operand := op, payload := payload })
  | _ =>
    let core := match (s.ownerCohort g ms A).bind s.cohort? with | some c => c.core.getD g.core | none => g.core
    (pkgOf core, { kind := 2, cls := 2, src := core % 256, subject := subject, operand := op, payload := payload })

def logAtom (s : State) (g : Group) (ms : Space) (A : Nat) (subject payload : Word64) : State :=
  let e := s.atomEntry g ms A subject payload
  s.log g.ctx e.1 e.2

end State
end Machine
end Sys2Proof
end

