-- ==== Sys2Proof/Machine/Barrier.lean ====
section
/-! DEFINITION. Parked strokes and their releases, and the count barrier object (R193 to R196), which threads and engines
update alike. -/

namespace Sys2Proof.Machine

/-! ## Parking and releasing strokes -/

/-- The strokes of a group that wait for a reason, each by its fibres. -/
def Group.waiting (g : Group) (w : Wait) : List (BitVec 32) :=
  let m := g.parkedFor w
  ((lanesOf m).filter fun f => lowest (g.strokeOf f) == f).map g.strokeOf

namespace State

/-- The stroke parks at its instruction (R29). -/
def parkStroke (s : State) (u : Issue) (w : Wait) (operand : Word64) (deadline : Nat) (i : Instr) : State :=
  s.modGroup u.gid fun g => (g.park u.mask w operand deadline (some i)).asStroke u.mask

/-- The stroke waits for a unit, or for a register that the instruction `i` names, and issues the instruction again
(R78). -/
def parkEngine (s : State) (u : Issue) (i : Option Instr := none) : State :=
  s.modGroup u.gid fun g => (g.park u.mask .engine 0 0 i).asStroke u.mask

/-- Parked fibres go on `n` bytes after their instruction. -/
def resume (s : State) (gid : Nat) (m : BitVec 32) (n : Nat) : State :=
  s.modGroup gid fun g => (g.unpark m).onFibres m fun x => { x with pc := x.pc + BitVec.ofNat 64 n }

/-- The last tick that TIMEBASE and a fibre record hold. -/
def lastTick : Nat := 2 ^ 64 - 1

/-- The deadline of a wait with a timeout, computed once in its package's TIMEBASE; a timeout of 0 is none. A sum that 64 bits do not hold is the last
tick (R54; log 50). -/
def deadlineAfter (s : State) (pkg : Nat) (timeout : Word64) : Nat :=
  if timeout = 0 then 0 else min ((s.ticks pkg).toNat + timeout.toNat) lastTick

/-- A wait with a deadline ends by it: when TIMEBASE has reached it, or in REPLAY when the log says so (R154, R347). -/
def deadlineReached (s : State) (g : Group) (m : BitVec 32) (w : Wait) (deadline : Nat) : Bool :=
  let pkg := pkgOf g.core
  if (s.scroll g.ctx pkg).mode = 2 then
    decide (s.gate g.ctx pkg { kind := 3, cls := 1, src := schedSource g, subject := s.strokeThread g m
                               operand := BitVec.ofNat 64 (w.code + 256) } = .go)
  else decide (deadline ≠ 0) && decide (deadline ≤ (s.ticks pkg).toNat)

end State

/-- The number of a parked WAITW, RGACQ or RGPEEK: its group and the lowest fibre of its stroke. -/
def watchKey (gid fibre : Nat) : Nat := 32 * gid + fibre

/-- The layout of a count barrier's address (R195). -/
def cbSpace (cl : Bool) : Space := if cl then .cl else .sh

/-! ## The count barrier object, as 256 bits (R193) -/

namespace Cb

def magic (o : Nat) : Nat := field o 0 16
def flags (o : Nat) : Nat := field o 32 8
def epoch (o : Nat) : Nat := field o 80 16
def arrLeft (o : Nat) : Nat := field o 112 16
def ackLeft (o : Nat) : Nat := field o 144 16
def byteBal (o : Nat) : Int := signed 32 (field o 160 32)
def waiters (o : Nat) : Nat := field o 240 16
def setFault (o : Nat) : Nat := setField o 33 1 1

/-- What CBINIT writes (R196). -/
def init (arr ack : Nat) : Nat :=
  0x5CB1 + arr % 2 ^ 16 * (2 ^ 96 + 2 ^ 112) + ack % 2 ^ 16 * (2 ^ 128 + 2 ^ 144)

/-- The balance moves, held to its limits (R194). -/
def move (o : Nat) (d : Int) : Nat :=
  let b := byteBal o + d
  if 2147483647 < b then setFault (setField o 160 32 0x7FFFFFFF)
  else if b < -2147483648 then setFault (setField o 160 32 0x80000000)
  else setField o 160 32 (wrap 32 b)

def expect (o n : Nat) : Nat := move (setField o 32 1 1) n
def bytes (o n : Nat) : Nat := move o (-(n : Int))
def arrive (o : Nat) : Nat := if arrLeft o = 0 then setFault o else setField o 112 16 (arrLeft o - 1)
def ack (o : Nat) : Nat := if ackLeft o = 0 then setFault o else setField o 144 16 (ackLeft o - 1)

def settles (o : Nat) : Bool := arrLeft o == 0 && ackLeft o == 0 && decide (byteBal o ≤ 0)

/-- Settlement (R194): the epoch advances, quotas reload, the balance and the waiters clear. -/
def settle (o : Nat) : Nat :=
  let o := setField o 80 16 (epoch o + 1)
  let o := setField o 32 1 0
  let o := setField o 112 16 (field o 96 16)
  let o := setField o 144 16 (field o 128 16)
  setField (setField o 160 32 0) 240 16 0

/-- The epoch has passed a token (R196). -/
def passed (o token : Nat) : Bool :=
  let d := (epoch o + 2 ^ 16 - token % 2 ^ 16) % 2 ^ 16
  decide (1 ≤ d) && decide (d ≤ 32767)

end Cb

namespace State

def readCb (s : State) (key : Nat) : Nat := s.readNat key 32
def writeCb (s : State) (key o : Nat) : State := s.writeNat key 32 o

/-- The parked CBWAITs on an object test again after a settlement: those whose epoch has passed go on, and the others
wait again, which is an update of WAITERS with its own record (R196, R341). -/
def cbRetest (s : State) (key gid : Nat) (m : BitVec 32) : State :=
  match s.group? gid with
  | none => s
  | some g =>
    match (g.fibre (lowest m)).instr with
    | some (.cbwait _ _ cl _ tok _) =>
      if s.clKey g.cohort cl (g.fibre (lowest m)).operand.toNat = key then
        let o := s.readCb key
        if Cb.passed o (g.rdS tok).toNat then ((s.logWake g m .cbwait false 0).resume gid m 16).syncImage gid
        else
          (s.logAtom g (cbSpace cl) (g.fibre (lowest m)).operand.toNat (s.strokeThread g m) 0).writeCb key
            (setField o 240 16 (Cb.waiters o + 1))
      else s
    | _ => s

def cbRelease (s : State) (key : Nat) : State :=
  s.groups.keys.eraseDups.foldl (fun s gid =>
    match s.group? gid with
    | some g => (g.waiting .cbwait).foldl (fun s m => s.cbRetest key gid m) s
    | none => s) s

/-- Writes an updated object, with its settlement when one is due (R194). -/
def cbCommit (s : State) (key o : Nat) : State :=
  if Cb.settles o then (s.writeCb key (Cb.settle o)).cbRelease key else s.writeCb key o

end State
end Sys2Proof.Machine
end

