-- ==== Sys2Proof/Machine/Engine.lean ====
section
/-! DEFINITION. What the engines share: the name an operation is issued in, its ranges and their locks, counts at count
barriers, and the landing of status words (R76, R175 to R179, R194, R256, R266, R341). -/

namespace Sys2Proof

/-- The key of a count barrier's byte 0. -/
def Machine.BarAt.key (b : Machine.BarAt) : Nat := Machine.placeShared b.cohort + b.addr % 2 ^ 19

/-- The layout of an on-chip copy space; none for .vm (R257). -/
def CopySpace.chip? : CopySpace → Option Space | .vm => none | .sh => some .sh | .cl => some .cl | .sp => some .sp

namespace Machine

/-- The leader of a stroke: its lowest active fibre that is not a helper (R254). -/
def Group.leader (g : Group) (a : BitVec 32) : Nat := lowest (a &&& ~~~g.helpers)

/-! ## Ranges that an operation registers (R176 to R178) -/

/-- A range that an operation is to register: its first key, its bytes, its kind, the core whose table holds it, and the
address that names it. -/
structure LockReq where
  key  : Nat
  n    : Nat
  kind : LockKind
  core : Nat
  addr : Nat

namespace State

/-- The first destination range that meets a read-only lock: RANGE_LOCKED at issue (R178). -/
def lockTrap (s : State) (l : List LockReq) : Option Nat :=
  (l.find? fun r => r.kind == .write && s.meets r.key r.n (· == .readOnly)).map (·.addr)

/-- A range waits: a destination for any lock, a source for a write lock, and every range for free entries (R177,
R178). -/
def lockWait (s : State) (l : List LockReq) : Bool :=
  l.any fun r =>
    (match r.kind with
      | .write => s.meets r.key r.n fun _ => true
      | _ => s.meets r.key r.n (· == .write))
    || decide (Config.rangeLocks < s.tableUse r.core + (l.filter fun q => q.core == r.core).length)

def register (s : State) (ctx o : Nat) (l : List LockReq) : State :=
  { s with locks := s.locks ++ l.map fun r => mkLock ctx r.core r.key r.n r.kind (.op o) }

/-- The first of some on-chip ranges (layout, address, bytes) that fails its bounds, with the cause (R158). -/
def firstBad (s : State) (gid : Nat) (g : Group) : List (Space × Nat × Nat) → Option (Byte × Nat)
  | [] => none
  | (ms, A, n) :: rs =>
    match s.resolve gid g ms A n with
    | .error c => some (c, A)
    | .ok _ => s.firstBad gid g rs

/-- The core that owns an on-chip address, or the issuing core for scratchpad (R177). -/
def lockCore (s : State) (g : Group) (ms : Space) (A : Nat) : Nat :=
  match (s.ownerCohort g ms A).bind s.cohort? with | some c => c.core.getD g.core | none => g.core

/-- An on-chip range as it is to be registered; it has passed its bounds. -/
def lockReq (s : State) (gid : Nat) (g : Group) (ms : Space) (A n : Nat) (kind : LockKind) : List LockReq :=
  match s.resolve gid g ms A n with
  | .ok key => if n = 0 then [] else [⟨key, n, kind, s.lockCore g ms A, A⟩]
  | .error _ => []

/-- A range of an operation as it keeps it: .vm by virtual address, on-chip ranges by place and offset. -/
def rangeOf (s : State) (gid : Nat) (g : Group) (cs : CopySpace) (A n : Nat) : Range :=
  match cs.chip? with
  | none => .vm A
  | some ms =>
    match s.resolve gid g ms A n with
    | .ok key => .chip (placeOf key) (key - placeOf key)
    | .error _ => .vm A

/-- A count-barrier address in the .sh or .cl layout of a group; it has passed its bounds. -/
def barAt (s : State) (g : Group) (cl : Bool) (A : Nat) : BarAt :=
  { cohort := (s.ownerCohort g (if cl then .cl else .sh) A).getD g.cohort, cl := cl, addr := A }

/-- An operation enters: its status register holds a pending write (R78, R256), its ranges are registered, and the stroke
goes on. -/
def enterOp (s : State) (u : Issue) (g : Group) (sd : SReg) (w : Work) (locks : List LockReq) (len : Nat) : State :=
  let o := s.nextOp
  let t := (s.addOp { ctx := g.ctx, gid := some u.gid, sd := some sd, work := w }).register g.ctx o locks
  (t.modGroup u.gid fun g => { g with pending := g.pending.put sd.toNat o }).advance u len

/-! ## Counts at count barriers (R194) -/

/-- The package and record of an engine's count at a barrier: the count added is the payload (R341). -/
def countEntry (s : State) (core : Nat) (b : BarAt) (thread : Word64) (n : Nat) : Nat × Entry :=
  let home := match s.cohort? b.cohort with | some c => c.core.getD core | none => core
  (pkgOf home,
   { kind := 2, cls := 2, src := home % 256, subject := thread
     operand := BitVec.ofNat 64 (b2n b.cl * 2 ^ 56 + b.addr % 2 ^ 56), payload := BitVec.ofNat 64 n })

/-- The barrier carries its magic. -/
def barValid (s : State) (b : BarAt) : Bool := Cb.magic (s.readCb b.key) == 0x5CB1

/-- An engine's CbUpdate; a barrier without the magic counts nothing. -/
def engineCount (s : State) (ctx core : Nat) (b : BarAt) (thread : Word64) (n : Nat) (f : Nat → Nat) : State :=
  if s.barValid b then
    let e := s.countEntry core b thread n
    (s.log ctx e.1 e.2).cbCommit b.key (f (s.readCb b.key))
  else s

/-- An act of an engine under the gate of its record (R347); in a frozen context what is in flight completes, and its records
are not checked (R348). -/
def gatedEngine (s : State) (ctx pkg : Nat) (e : Entry) (act : State → State) : State :=
  if s.frozen ctx then act s else s.gated ctx pkg e act

/-- The count of an engine waits: its barrier's scroll records, and has no slot or holds other acts (R344). -/
def countWaits (s : State) (ctx core : Nat) (b : BarAt) (thread : Word64) : Bool :=
  let e := s.countEntry core b thread 0
  let x := s.scroll ctx e.1
  s.barValid b && x.mode == 1 && (x.full || s.outOfTurn ctx e.1 e.2.held)

/-- Such a count takes its place among the held acts; every count has one of its own. -/
def holdCount (s : State) (ctx core : Nat) (b : BarAt) (thread : Word64) : State :=
  let e := s.countEntry core b thread 0
  s.modScroll ctx e.1 fun x => { x with held := x.held ++ [e.2.held] }

/-- An act of an engine that ends in such a count, under the gate of its record (R347). -/
def gatedCount (s : State) (ctx core : Nat) (b : BarAt) (thread : Word64) (n : Nat) (act : State → State) : State :=
  if s.barValid b then
    let e := s.countEntry core b thread n
    s.gatedEngine ctx e.1 e.2 act
  else act s

/-! ## Landing (R256, R266, R341 COPY) -/

/-- The status word of an operation still has a register to land in. -/
def lands (s : State) (o : Nat) (op : Op) : Bool :=
  match op.gid, op.sd with
  | some gid, some sd =>
    (match s.group? gid with | some g => g.pending.get? sd.toNat == some o | none => false)
  | _, _ => false

def statusEntry (core : Nat) (sd : SReg) (thread word : Word64) : Entry :=
  { kind := 7, cls := 2, src := core % 256, subject := thread, operand := BitVec.ofNat 64 sd.toNat, payload := word }

/-- An operation leaves: its sources are released, its locks drop, and it is forgotten (R78, R179). -/
def leave (s : State) (o : Nat) (op : Op) : State :=
  let t := match op.gid with | some gid => s.releaseHeld gid o | none => s
  (t.dropOp o).dropLocks o

/-- The status word lands and the operation leaves; a discarded word is not written and not logged (R152, R266). -/
def finish (s : State) (o : Nat) (op : Op) (core : Nat) (thread word : Word64) (extra : State → State := id) : State :=
  match s.lands o op, op.sd with
  | true, some sd =>
    let e := statusEntry core sd thread word
    s.gatedEngine op.ctx (pkgOf core) e fun s => ((extra (s.log op.ctx (pkgOf core) e)).land o word).leave o op
  | _, _ => s.leave o op

/-- The issuing group of an operation, and its launch. -/
def opGroup (s : State) (op : Op) : Option Group := op.gid.bind s.group?

end State
end Machine
end Sys2Proof
end

