-- ==== Sys2Proof/Machine/NameOps.lean ====
section
/-! DEFINITION. The instructions on names (R310 to R316) and their delivery at the home of an entry (R301 to R309): each
delivery is one home step. -/

namespace Sys2Proof.Machine

namespace State

/-- A name operation leaves for its home: sd and the register after it wait for the answer (R78, R312). -/
def sendName (s : State) (u : Issue) (g : Group) (sd : SReg) (target : Word64) (act : NameAct) : State :=
  let o := s.nextOp
  let t := s.addOp { ctx := g.ctx, gid := some u.gid, sd := some sd
                     work := .name { issuer := g.name, launch := s.launchNum g, target := target, act := act } }
  (t.modGroup u.gid fun g => { g with pending := (g.pending.put sd.toNat o).put (sd + 1).toNat o }).advance u 8

end State

/-- NSELF (R311). -/
def execNself (g : Guard) (sd : SReg) (s : State) : Out :=
  onStroke (.nself g sd) g s fun u grp _ s => (s.writeS u grp sd grp.name).advance u 8

/-- A name operation that a stroke of helpers only does not send (R310, R32). -/
def nameStroke (i : Instr) (gd : Guard) (sd : SReg) (target : SReg) (act : Group → NameAct) (s : State) : Out :=
  onStroke i gd s fun u g a s =>
    if g.helperOnly a then s.advance u 8 else s.sendName u g sd (g.rdS target) (act g)

def execNwake (g : Guard) (sd sa : SReg) (s : State) : Out := nameStroke (.nwake g sd sa) g sd sa (fun _ => .wake) s

def execNsignal (g : Guard) (sd sa sb : SReg) (s : State) : Out :=
  nameStroke (.nsignal g sd sa sb) g sd sa (fun grp => .signal ((grp.rdS sb).setWidth 32)) s

def execNsignalKill (g : Guard) (sd sa : SReg) (s : State) : Out :=
  nameStroke (.nsignalKill g sd sa) g sd sa (fun _ => .kill) s

def execNdeposit (g : Guard) (sd sa sb : SReg) (k : BitVec 3) (s : State) : Out :=
  nameStroke (.ndeposit g sd sa sb k) g sd sa (fun grp => .deposit k (grp.rdS sb)) s

/-- NSTAT (R311): it executes in a stroke of helpers too. -/
def execNstat (g : Guard) (sd sa : SReg) (s : State) : Out :=
  onStroke (.nstat g sd sa) g s fun u grp _ s => s.sendName u grp sd (grp.rdS sa) .stat

/-- The deadline of a .t timeout; none, or a timeout of 0, is no deadline (R310). -/
def State.timeLimit (s : State) (g : Group) (t : Option SReg) : Nat :=
  match t with
  | none => 0
  | some r => s.deadlineAfter (State.pkgOf g.core) (g.rdS r)

/-- NJOIN (R313): the stroke parks with its target as the wait operand until its home answers. -/
def execNjoin (g : Guard) (reap : Bool) (sd sa : SReg) (t : Option SReg) (s : State) : Out :=
  onStroke (.njoin g reap sd sa t) g s fun u grp a s =>
    if grp.helperOnly a then s.advance u 8
    else
      let limit := s.timeLimit grp t
      let v := s.addOp { ctx := grp.ctx, gid := some u.gid, sd := some sd
                         work := .name { issuer := grp.name, launch := s.launchNum grp, target := grp.rdS sa
                                         act := .join reap limit, mask := u.mask } }
      v.parkStroke u .njoin (cleanName (grp.rdS sa)) limit (.njoin g reap sd sa t)

/-- NPARK's value when its deadline has passed (R314). -/
def nparkTimedOut : Word64 := BitVec.ofNat 64 (2 ^ 33)

/-- NPARK (R314). -/
def execNpark (g : Guard) (sd : SReg) (t : Option SReg) (s : State) : Out :=
  onStroke (.npark g sd t) g s fun u grp _ s =>
    if grp.sys.psig ≠ 0 then
      ((s.modGroup u.gid fun g => { g with sys := { g.sys with psig := 0 } }).writeS u grp sd grp.sys.psig).advance u 8
    else s.parkStroke u .npark 0 (s.timeLimit grp t) (.npark g sd t)

namespace State

/-! ## PSIG and NPARK (R308, R314) -/

/-- One parked NPARK returns a value. -/
def nparkReturn (s : State) (gid : Nat) (m : BitVec 32) (late : Bool) (v : Word64) : State :=
  match s.group? gid with
  | none => s
  | some g =>
    match (g.fibre (lowest m)).instr with
    | some (.npark _ sd _) =>
      let u : Issue := { gid := gid, mask := m, pc := (g.fibre (lowest m)).pc }
      (((s.logWake g m .npark late v).returnS u g sd v).resume gid m 8).afterWrites u (g.fibre (lowest m)).instr [sd]
    | _ => s

/-- Every stroke parked in NPARK is released with the value of PSIG, which is cleared once (R314). -/
def nparkRelease (s : State) (gid : Nat) : State :=
  match s.group? gid with
  | none => s
  | some g =>
    let waiting := g.waiting .npark
    if g.sys.psig = 0 ∨ waiting.isEmpty ∨ g.phase ≠ .resident then s
    else
      let t := s.modGroup gid fun g => { g with sys := { g.sys with psig := 0 } }
      waiting.foldl (fun t m => t.nparkReturn gid m false g.sys.psig) t

/-- Bits arrive in PSIG; in a saved group they arrive in its image too (R306). -/
def addPsig (s : State) (gid : Nat) (bits : Word64) : State :=
  let t := s.modGroup gid fun g => { g with sys := { g.sys with psig := g.sys.psig ||| bits } }
  match t.group? gid with
  | some g => if saved g then t.pokeImage gid 0x608 (toBytes 8 g.sys.psig.toNat) else t.nparkRelease gid
  | none => t

def wakeBit : Word64 := BitVec.ofNat 64 (2 ^ 32)

/-- A deposit into a resident group: at once, or after the write that its register waits for (R79, R306). R79 names the status
words of engines; the answer of a name operation or of LAUNCH is waited for as well (log 26). -/
def deposit (s : State) (gid : Nat) (g : Group) (k : Nat) (v : Word64) : State :=
  if (g.pending.get? (112 + k)).isSome then s.modGroup gid fun g => { g with deposits := g.deposits.put (112 + k) v }
  else s.putDeposit gid k v

/-! ## Delivery by state (R306) -/

/-- The RUNNING row for a resident group, and the items of a first residency (R300). -/
def liveItem (s : State) (gid : Nat) (g : Group) (it : Item) : State :=
  match it with
  | .wake => s.addPsig gid wakeBit
  | .signal m => s.addPsig gid (m.setWidth 64)
  | .deposit k v => s.deposit gid g k.toNat v
  | .kill => s.beginEnd gid 0 .killed

/-- The PARKED row for a saved group. -/
def savedItem (s : State) (gid : Nat) (g : Group) (it : Item) : State :=
  match it with
  | .wake => (s.addPsig gid wakeBit).setElig g
  | .signal m => if m = 0 then s else (s.addPsig gid (m.setWidth 64)).setElig g
  | .deposit k v => s.putDeposit gid k.toNat v
  | .kill => s.killSaved gid

/-- Items of a mailbox in order; items after a KILL are discarded, and so is one that is no operation (R307). -/
def applyItems (step : State → Item → State) : State → List (Option Item) → State
  | s, [] => s
  | s, none :: is => applyItems step s is
  | s, some .kill :: _ => step s .kill
  | s, some it :: is => applyItems step (step s it) is

/-- The items that an entry holds. -/
def mailItems (s : State) (ctx : Nat) (e : NameEntry) : List (Option Item) :=
  (List.range (min e.qcount 16)).map (s.mailItem ctx e)

/-- What the mailbox of a saved group holds may be applied: a KILL waits for the group's work in flight (R152, R306). -/
def mailReady (s : State) (gid : Nat) (g : Group) : Bool :=
  match s.entry? g.ctx (nameIndex g.name) with
  | some e => !((s.mailItems g.ctx e).any fun it => it == some .kill) || !(s.ops.any fun o => s.busyWork gid o.2)
  | none => true

/-- What a home step answers: the state, the code, the entry's state and cause, and the exit word of a DEAD entry. -/
structure Answer where
  code  : NameCode
  state : Nat := 0
  cause : Nat := 0
  exit  : Option Word64 := none
  hold  : Bool := false

def rightOf : NameAct → Nat
  | .wake => rightWake | .signal _ => rightSignal | .deposit _ _ => rightDeposit | .kill => rightKill
  | .join _ _ => rightJoin | .stat => 31

/-- Joins registered at a home die (R313). -/
def joinsAt (s : State) (die : Nat) : Nat :=
  (s.ops.filter fun o => match o.2.work with
    | .name n => (match n.home with | some (c, i) => s.homeDie c i == die && !n.adrift | none => false)
    | _ => false).length

/-- A join parks at its entry, or finds its home's table full (R313). -/
def registerJoin (s : State) (o ctx i : Nat) (e : NameEntry) : State × Answer :=
  if Config.joinTable ≤ s.joinsAt (s.homeDie ctx i) then (s, { code := .busy, state := e.state })
  else
    (s.modOp o fun op => match op.work with
      | .name n => { op with work := .name { n with home := some (ctx, i) } }
      | _ => op, { code := .ok, state := e.state, hold := true })

/-- The DEAD row (R306): the exit word is answered, and a reaping join frees the entry in the same step. -/
def deadRow (s : State) (ctx i : Nat) (e : NameEntry) (act : NameAct) : State × Answer :=
  let t := match act with | .join true _ => s.reapEntry ctx i | _ => s
  (t, { code := .dead, state := e.state, cause := e.cause, exit := some (BitVec.ofNat 64 e.loc) })

/-- A delivery to a device group that is not DEAD (R306). -/
def groupRow (s : State) (ctx i : Nat) (e : NameEntry) (it : Item) : State × Answer :=
  if e.state = stRunning ∨ e.state = stParked then
    match s.groupNamed ctx (e.name i) with
    | some gid =>
      (match s.group? gid with
        | some g => if e.state = stRunning then s.liveItem gid g it else s.savedItem gid g it
        | none => s, { code := .ok, state := e.state })
    | none => (s, { code := .ok, state := e.state })
  else
    let r := s.queueItem ctx i e it
    (r.1, { code := r.2, state := e.state })

/-- Step 4 of R305, by kind and state (R306, R313, R315). -/
def stateStep (s : State) (o ctx i : Nat) (e : NameEntry) (n : NameOp) : State × Answer :=
  match n.act with
  | .join r d =>
    if n.issuer.toNat / 256 = n.target.toNat / 256 then (s, { code := .denied })
    else if e.state = stDead then s.deadRow ctx i e (.join r d)
    else s.registerJoin o ctx i e
  | .stat =>
    if e.state = stDead then s.deadRow ctx i e .stat else (s, { code := .ok, state := e.state })
  | act =>
    if e.state = stDead then s.deadRow ctx i e act
    else if e.kind = 1 then
      match act.item? with
      | some it => s.groupRow ctx i e it
      | none => (s, { code := .ok, state := e.state })
    else
      ({ s with notices := s.notices ++ [{ ctx := ctx, target := e.name i, issuer := cleanName n.issuer, act := act }] },
       { code := .queued, state := e.state })

/-- Steps 3 and 4 of R305 with given rights. A service endpoint accepts SIGNAL only (R315). -/
def rightStep (s : State) (o ctx i : Nat) (e : NameEntry) (rights : Nat) (n : NameOp) : State × Answer :=
  let signal := match n.act with | .signal _ => true | _ => false
  if Nat.land rights (rightOf n.act) = 0 ∨ (e.kind = 3 ∧ !signal) then (s, { code := .denied })
  else s.stateStep o ctx i e n

/-- An alias's operation at the foreign entry (R303). When the walk of the foreign table fails, its context ends and the operation
is answered STALE (log 29). -/
def aliasStep (s : State) (o : Nat) (e : NameEntry) (n : NameOp) : State × Answer :=
  match s.foreign e with
  | (_, .fail k) => (s, { code := k })
  | (_, .fault) => (s.foreignFault e, { code := .stale })
  | (c, .entry i f) => s.rightStep o c i f e.rights n

/-- The home step of an operation (R305). -/
def homeStep (s : State) (ctx o : Nat) (n : NameOp) : State × Answer :=
  match s.findName ctx n.target with
  | .fail c => (s, { code := c })
  | .fault => (s.tableFault ctx (nameIndex n.target), { code := .nosuch })
  | .entry i e =>
    if e.alias_ then s.aliasStep o e n else s.rightStep o ctx i e (rights n.issuer n.launch e) n

/-- The operation codes of NAME records (R341). -/
def recordCode : NameAct → Nat
  | .wake => 1 | .signal _ => 2 | .deposit _ _ => 3 | .kill => 4 | .join _ _ => 5 | .stat => 6

/-- The NAME record of a home step. -/
def nameEntry (s : State) (ctx : Nat) (target issuer : Word64) (op code k : Nat) : Nat × Entry :=
  (s.homeOf ctx,
   { kind := 4, cls := 4, src := nameIndex target % 8, subject := cleanName target, operand := cleanName issuer
     payload := BitVec.ofNat 64 (op + code * 256 + k * 65536) })

/-- A KILL waits while its target is saved and still has operations in flight: they complete before the group ends (R152,
R306). -/
def killReady (s : State) (ctx : Nat) (n : NameOp) : Bool :=
  match n.act with
  | .kill =>
    let k := s.targetKey ctx n.target
    (match s.entry? k.1 k.2 with
      | some e => e.state != stParked || (match s.groupNamed k.1 (e.name k.2) with
          | some gid => !(s.ops.any fun o => s.busyWork gid o.2)
          | none => true)
      | none => true)
  | _ => true

/-- Operations of one issuer to one target reach the home in issue order, and calls of one host caller take effect in
their order (R316, R374). -/
def firstOf (s : State) (o : Nat) (op : Op) (n : NameOp) : Bool :=
  s.ops.all fun q => match q.2.work with
    | .name m => o ≤ q.1 || q.2.ctx != op.ctx || m.home.isSome ||
        !((sameName m.issuer n.issuer && s.targetKey op.ctx m.target == s.targetKey op.ctx n.target) ||
          (match m.host, n.host with | some a, some b => sameName a.caller b.caller | _, _ => false))
    | _ => true

/-- A group that is saved has its joins registered again only after its restore (R313). -/
def joinHome (s : State) (op : Op) (n : NameOp) : Bool :=
  match n.act with
  | .join _ _ => n.home.isNone && (match op.gid.bind s.group? with | some g => g.phase == .resident | none => op.gid.isNone)
  | _ => true

/-- The status word that an answer carries (R304). -/
def Answer.word (a : Answer) : Word64 := nameStatus a.code a.state (if a.exit.isSome then a.cause else 0)

def nameK : NameAct → Nat | .deposit k _ => k.toNat | _ => 0

/-- The answer of a join that a restore has brought back: its target's end stands even if the entry has been reaped since (R313).
-/
def Answer.orFound (a : Answer) (n : NameOp) : Answer :=
  match n.found with
  | some (cause, exit) =>
    if a.code == .dead then a else { code := .dead, state := stDead, cause := cause, exit := some exit }
  | none => a

/-- One home step, logged with its code, and its answer (R301, R341). -/
def deliver (s : State) (o : Nat) (op : Op) (n : NameOp) : State :=
  if s.firstOf o op n && s.joinHome op n && s.killReady op.ctx n then
    let e := s.nameEntry op.ctx n.target n.issuer (recordCode n.act) 0 (nameK n.act)
    s.gated op.ctx e.1 e.2 fun s =>
      let h := s.homeStep op.ctx o n
      let r := (h.1, h.2.orFound n)
      let t := r.1.log op.ctx e.1 (s.nameEntry op.ctx n.target n.issuer (recordCode n.act) r.2.code.code (nameK n.act)).2
      if r.2.hold then t else t.answer o r.2.word r.2.exit
  else s

def deliverIf (s : State) (o : Nat) (p : NameAct → Bool) : State :=
  match s.op? o with
  | some op => (match op.work with | .name n => if p n.act then s.deliver o op n else s | _ => s)
  | none => s

/-- A join is registered on an entry whose context has been freed since: only its timeout returns it (R315; log 29). -/
def isAdrift (s : State) (o : Nat) : Bool :=
  match s.op? o with
  | some op => (match op.work with | .name n => n.adrift | _ => false)
  | none => false

/-- A registered join is withdrawn with TIMEOUT and the state found (R313). -/
def joinTimeout (s : State) (o ctx i : Nat) : State :=
  if s.isAdrift o then s.answer o (nameStatus .timeout 0 0) none
  else
  match s.entry? ctx i with
  | some e => s.answer o (nameStatus .timeout e.state 0) none
  | none => s.tableFault ctx i

end State

def execDeliverWake (o : Nat) (s : State) : Out := .next (s.deliverIf o fun a => match a with | .wake => true | _ => false)
def execDeliverSignal (o : Nat) (s : State) : Out := .next (s.deliverIf o fun a => match a with | .signal _ => true | _ => false)
def execDeliverDeposit (o : Nat) (s : State) : Out :=
  .next (s.deliverIf o fun a => match a with | .deposit _ _ => true | _ => false)
def execDeliverKill (o : Nat) (s : State) : Out := .next (s.deliverIf o fun a => match a with | .kill => true | _ => false)
def execDeliverStat (o : Nat) (s : State) : Out := .next (s.deliverIf o fun a => match a with | .stat => true | _ => false)

/-- The home registers or answers a join; a host's registered join is answered TIMEOUT at its deadline (R313, R315). -/
def execDeliverJoin (o : Nat) (s : State) : Out :=
  .next (match s.op? o with
    | some op =>
      match op.work with
      | .name n =>
        match n.act, n.home with
        | .join _ d, some (c, i) =>
          if n.host.isSome && d != 0 && decide (d ≤ (s.ticks (s.homeOf op.ctx)).toNat) then s.joinTimeout o c i else s
        | .join _ _, none => s.deliver o op n
        | _, _ => s
      | _ => s
    | none => s)

/-- The stroke of a fibre that waits for a reason, with its group. -/
def waiting? (s : State) (gid fibre : Nat) (w : Wait) : Option (Group × BitVec 32 × Nat) :=
  match s.group? gid with
  | none => none
  | some g =>
    let x := g.fibre fibre
    if x.wait == w && !x.ended && x.kind != .empty then some (g, g.strokeOf fibre, x.deadline) else none

/-- A deadline passes in a saved group: the group becomes eligible (R309). -/
def State.eligibleAt (s : State) (g : Group) (deadline : Nat) : State :=
  if (g.phase == .parked || g.phase == .swapped) && decide (deadline ≠ 0) && decide (deadline ≤ (s.ticks (State.pkgOf g.core)).toNat) then s.setElig g else s

/-- An NPARK's deadline passes with PSIG zero (R314). -/
def execNparkTimeout (gid fibre : Nat) (s : State) : Out :=
  .next (match waiting? s gid fibre .npark with
    | some (g, m, d) =>
      if g.phase == .resident then
        if g.sys.psig == 0 && s.deadlineReached g m .npark d then
          s.gatedWake g m .npark true fun s => s.nparkReturn gid m true nparkTimedOut
        else s
      else s.eligibleAt g d
    | none => s)

/-- The registered join of a stroke. -/
def joinOf (s : State) (gid : Nat) (m : BitVec 32) : Option (Nat × Nat × Nat) :=
  (s.ops.filterMap fun o => match o.2.work with
    | .name n => (match n.home with
        | some (c, i) => if o.2.gid == some gid && n.mask &&& m != 0 then some (o.1, c, i) else none
        | none => none)
    | _ => none).head?

/-- An NJOIN's deadline passes: the join is withdrawn with TIMEOUT (R313). -/
def execNjoinTimeout (gid fibre : Nat) (s : State) : Out :=
  .next (match waiting? s gid fibre .njoin with
    | some (g, m, d) =>
      if g.phase == .resident then
        if s.deadlineReached g m .njoin d then
          match joinOf s gid m with
          | some (o, c, i) => s.gatedWake g m .njoin true fun s => s.joinTimeout o c i
          | none => s
        else s
      else s.eligibleAt g d
    | none => s)

end Sys2Proof.Machine
end

