-- ==== Sys2Proof/Machine/Launch.lean ====
section
/-! DEFINITION. LAUNCH, the acceptance of a launch record, and the dispatch of tasks (R299, R318 to R324, R331, R332,
R385, R386, R393). -/

namespace Sys2Proof.Machine

/-! ## The record (R318, R319) -/

def recRoles (b : List Byte) : Nat := State.num b 5 1
def recRolesPresent (b : List Byte) : List Nat := List.range (min (recRoles b) 4)
def recCohorts (b : List Byte) : Nat := State.num b 8 4 * State.num b 12 4 * State.num b 16 4
def recRole (b : List Byte) (i : Nat) : RoleEntry :=
  { entry := BitVec.ofNat 64 (State.num b (32 + 16 * i) 8), budget := State.num b (40 + 16 * i) 2
    groups := State.num b (42 + 16 * i) 1, fibres := State.num b (43 + 16 * i) 1, team := bitAt (State.num b (44 + 16 * i) 1) 0 }
def recGroups (b : List Byte) : Nat := ((recRolesPresent b).map fun i => (recRole b i).groups).sum

def allZero (b : List Byte) (off n : Nat) : Bool := (State.slice b off n).all (· == 0)

/-- The checks of BAD_RECORD that follow the read (R320). -/
def badRecord (b : List Byte) : Bool :=
  State.num b 0 2 != 0x1A57 || State.num b 2 1 != 1
    || !(allZero b 28 4 && allZero b 103 1 && allZero b 132 4 && allZero b 144 112)
    || decide (8 ≤ State.num b 3 1) || decide (4 ≤ State.num b 102 1)
    || (recRolesPresent b).any (fun i => !allZero b (45 + 16 * i) 3 || decide (2 ≤ State.num b (44 + 16 * i) 1))
    || (decide (1 ≤ recRoles b) && decide (recRoles b ≤ 4)
        && !allZero b (32 + 16 * recRoles b) (16 * (4 - recRoles b)))

/-- BAD_GRID; a cluster size outside 1 to 4 breaks R318 as well. -/
def badGrid (b : List Byte) : Bool :=
  let c := State.num b 4 1
  let t := [State.num b 96 2, State.num b 98 2, State.num b 100 2]
  recCohorts b == 0 || decide (2 ^ 32 < recCohorts b) || c == 0 || decide (4 < c) || recCohorts b % c != 0
    || State.num b 20 4 % 128 != 0 || decide (Config.sharedPerCore < State.num b 24 4)
    || (t.any (· != 0) && t.any (· == 0))

def badRole (b : List Byte) : Bool :=
  recRoles b == 0 || decide (4 < recRoles b) || decide (16 < recGroups b)
    || (recRolesPresent b).any fun i =>
        let r := recRole b i
        r.entry.toNat % 4 != 0 || r.budget == 0 || decide (1536 < r.budget) || r.groups == 0 || r.fibres == 0
          || decide (32 < r.fibres)

def badTeam (b : List Byte) : Bool := (recRolesPresent b).any fun i => (recRole b i).team && decide ((recRole b i).groups < 2)

namespace State

/-- A range of bytes lies wholly in a window of a context. -/
def inWindow (s : State) (ctx a n : Nat) : Bool :=
  decide (a < 2 ^ 48) && decide (field a 0 37 + n ≤ s.windowSize ctx (field a 40 8) (field a 37 3))

/-- A bitmap that is used is 8-byte aligned and lies in a window. -/
def badBitmap (s : State) (ctx a bits : Nat) : Bool := a % 8 != 0 || !s.inWindow ctx a ((bits + 7) / 8)

def badDepend (s : State) (ctx : Nat) (b : List Byte) : Bool :=
  let k := num b 6 1
  let r := num b 7 1
  let p := [num b 120 4, num b 124 4, num b 128 4]
  decide (5 < k) || (if k == 5 then r == 0 else r != 0) || (if k == 0 then p.any (· != 0) else p.any (· == 0))
    || (bitAt (num b 102 1) 0 && s.badBitmap ctx (num b 104 8) (recCohorts b))
    || (k != 0 && s.badBitmap ctx (num b 112 8) (num b 120 4 * num b 124 4 * num b 128 4))

/-! ## The process-group table (R385) -/

def pgRanks (b : List Byte) : List Rank :=
  (List.range (num b 4 2)).map fun i => { pkg := num b (32 + 32 * i) 1, rank := num b (34 + 32 * i) 2 }

/-- The checks of a table's own bytes. -/
def pgForm (b : List Byte) : Bool :=
  let p := num b 4 2
  let es := List.range p
  num b 0 2 == 0x9C07 && num b 2 1 == 1 && allZero b 3 1 && allZero b 6 26 && decide (1 ≤ p) && decide (p ≤ 256)
    && es.all (fun i => allZero b (33 + 32 * i) 1 && allZero b (44 + 32 * i) 20)
    && (pgRanks b).all (fun r => decide (r.rank < p)) && decide ((pgRanks b).map (·.rank)).Nodup
    && decide ((pgRanks b).map (·.pkg)).Nodup
    && es.all (fun i => (List.range 4).all fun j =>
        let n := num b (36 + 32 * i + 2 * j) 2
        n == 0xFFFF || decide (n < p))

/-- The table as one package reads it. -/
def pgRead (s : State) (ctx pkg va : Nat) : Option (List Byte) :=
  match s.vmRead ctx pkg .imageRead va 32 with
  | .fail _ _ => none
  | .ok h =>
    match s.vmRead ctx pkg .imageRead va (32 + 32 * num h 4 2) with
    | .fail _ _ => none
    | .ok b => if pgForm b then some b else none

/-- The ranks of a launch with a table: every listed package checks its own copy and takes the rank that it finds there beside
its own number, the context is open on each, and the accepting package is listed (R385, R386). -/
def pgTable (s : State) (ctx home va : Nat) : Option (List Rank) :=
  if va % 32 ≠ 0 then none
  else
    match s.pgRead ctx home va with
    | none => none
    | some b =>
      if (pgRanks b).any fun r => r.pkg == home then
        (pgRanks b).mapM fun r => (s.site? ctx r.pkg).bind fun _ => (s.pgRead ctx r.pkg va).bind fun t =>
          (pgRanks t).find? fun q => q.pkg == r.pkg
      else none

/-! ## The checks in their order (R320) -/

/-- The package that accepts a record: the home package with a process-group table (R386), else the issuing package. -/
def acceptPkg (s : State) (ctx pkg : Nat) (b : List Byte) : Nat := if bitAt (num b 102 1) 1 then s.homeOf ctx else pkg

/-- The code of the first failing check, or the record with its ranks. -/
def checkRecord (s : State) (ctx pkg : Nat) (va : Word64) : Except Nat (List Byte × List Rank) :=
  if va.toNat % 256 ≠ 0 then .error 1
  else
    match s.vmRead ctx pkg .imageRead va.toNat 256 with
    | .fail _ _ => .error 2
    | .ok b =>
      if badRecord b then .error 1
      else if badGrid b then .error 3
      else if badRole b then .error 4
      else if badTeam b then .error 5
      else if s.badDepend ctx b then .error 6
      else
        let ranks := if bitAt (num b 102 1) 1 then s.pgTable ctx (s.homeOf ctx) (num b 136 8) else some []
        match ranks with
        | none => .error 7
        | some r =>
          if (s.freeEntries ctx).length < recGroups b * recCohorts b then .error 8
          else if 2 ^ 24 - 1 ≤ (match s.context? ctx with | some c => c.launches | none => 0) then .error 9
          else .ok (b, r)

/-! ## The debug control block (R393) -/

def debugOf (b : List Byte) : Debug :=
  let w := num b 0 8
  let t := field w 56 5
  { ring := if w ≠ 0 ∧ field w 61 3 = 0 ∧ 12 ≤ t ∧ t ≤ 30 ∧ field w 0 56 % 2 ^ t = 0 then some (field w 0 56, t) else none
    sample := num b 8 4
    breaks := if num b 12 1 ≠ 0 ∧ num b 12 1 ≤ 16 ∧ num b 13 3 = 0 ∧ num b 16 8 % 32 = 0 then some (num b 16 8, num b 12 1) else none
    counters := if num b 24 8 ≠ 0 ∧ num b 24 8 % 128 = 0 then some (num b 24 8) else none }

def debugBlock (s : State) (ctx : Nat) : Debug :=
  match s.vmRead ctx (s.homeOf ctx) .imageRead (s.tableAt ctx) 32 with
  | .ok b => debugOf b
  | .fail _ _ => {}

/-! ## Groups, cohorts and clusters come into being (R30, R32, R43, R299) -/

def launchKey (ctx num : Nat) : Nat := ctx * 2 ^ 24 + num
def cohortKey (lk n : Nat) : Nat := lk * 2 ^ 34 + n
def gidOf (coh index : Nat) : Nat := coh * 16 + index

end State

/-- The first slot above the last helper of a group of `n` fibres (R32). -/
def fibreTop (n : Nat) : Nat := (n + 3) / 4 * 4

/-- The fibres of a new group (R30, R32). -/
def newFibres (n : Nat) (entry : Word64) (priv : Bool) : List Fibre :=
  (List.range 32).map fun f =>
    if f < n then { kind := .fibre, pc := entry, priv := priv }
    else if f < fibreTop n then { kind := .helper, pc := entry, priv := priv }
    else {}

/-- The lanes of v0: a value for each fibre; a helper copies the lowest fibre of its quad, and an empty slot holds zero
(R30). -/
def newLanes (n : Nat) (value : Nat → Nat) : Lanes 32 :=
  Lanes.build fun f =>
    if f < n then BitVec.ofNat 32 (value f) else if f < fibreTop n then BitVec.ofNat 32 (value (4 * (f / 4))) else 0

/-- A new group with its registers zero but for v0 and the given uniform values (R30). -/
def newGroup (l : Launch) (lk coh index role n : Nat) (name : Word64) (r : RoleEntry) (entry argloc : Word64)
    (value : Nat → Nat) (uniform : List Nat) : Group :=
  let g : Group :=
    { ctx := l.ctx, launch := lk, cohort := coh, index := index, role := role, name := name, budget := r.budget
      stack := l.stack, sys := { argloc := argloc }, fibres := newFibres n entry l.service }
  let g := g.wrV 0 (newLanes n value)
  { g with s := (List.range uniform.length).foldl (fun t k => t.write 0 k (BitVec.ofNat 64 (uniform.getD k 0))) g.s }

namespace State

/-- Takes a FREE entry for a group: MIGRATING, with its launch, its creator and a mailbox; GEN is kept (R299). -/
def takeEntry (s : State) (ctx i : Nat) (launch : Nat) (creator : Word64) : State :=
  s.modEntry ctx i fun e =>
    { gen := e.gen, kind := 1, state := stMigrating, launch := launch, cridx := nameIndex creator
      crgen := nameGen creator, mbox := s.mailboxFor ctx i }

/-- The device-group name that an entry gives. -/
def entryName (s : State) (ctx i : Nat) : Word64 :=
  match s.entry? ctx i with | some e => mkName i e.gen 1 | none => mkName i 0 1

/-- The roles of a cohort's groups in index order (R43). -/
def roleList : Nat → List RoleEntry → List (Nat × RoleEntry)
  | _, [] => []
  | k, r :: rs => (List.replicate r.groups (k, r)) ++ roleList (k + 1) rs

/-- One group of a launch's cohort. -/
def addGroup (s : State) (l : Launch) (lk n index i role : Nat) (r : RoleEntry) : State :=
  let coh := cohortKey lk n
  let name := s.entryName l.ctx i
  let g := newGroup l lk coh index role r.fibres name r r.entry 0 id
    [n, n % l.gx, n / l.gx % l.gy, n / l.gx / l.gy, index, role]
  let t := s.takeEntry l.ctx i l.num l.creator
  { t with groups := t.groups.put (gidOf coh index) g }

/-- The groups of one cohort, with the entries that they take. -/
def addGroups (s : State) (l : Launch) (lk n : Nat) : Nat → List (Nat × RoleEntry) → List Nat → State
  | _, [], _ => s
  | _, _ :: _, [] => s
  | k, (role, r) :: rs, i :: is => (s.addGroup l lk n k i role r).addGroups l lk n (k + 1) rs is

/-- The package whose rank takes cluster `q` of `total` (R386). -/
def clusterPkg (l : Launch) (q total : Nat) : Nat :=
  match l.ranks.find? fun r =>
    decide (r.rank * total / l.ranks.length ≤ q) && decide (q < (r.rank + 1) * total / l.ranks.length) with
  | some r => r.pkg
  | none => l.pkg

def addCohort (s : State) (l : Launch) (lk n : Nat) (is : List Nat) : State :=
  let roles := roleList 0 l.roles
  let t := s.addGroups l lk n 0 roles is
  let c : Cohort :=
    { ctx := l.ctx, launch := lk, num := n, cluster := cohortKey lk (n / l.cluster), member := n % l.cluster
      shared := l.shared, groups := (List.range roles.length).map (gidOf (cohortKey lk n)) }
  { t with cohorts := t.cohorts.put (cohortKey lk n) c }

/-- Cohort by cohort, each with its share of the entries. -/
def addCohorts (l : Launch) (lk per : Nat) : List Nat → List Nat → State → State
  | [], _, s => s
  | n :: ns, is, s => addCohorts l lk per ns (is.drop per) (s.addCohort l lk n (is.take per))

def addCluster (s : State) (l : Launch) (lk total q : Nat) : State :=
  let k : Cluster :=
    { ctx := l.ctx, launch := lk, num := q, pkg := clusterPkg l q total, waitFrom := s.timebase.toNat
      cohorts := (List.range l.cluster).map fun m => cohortKey lk (q * l.cluster + m) }
  { s with clusters := s.clusters.put (cohortKey lk q) k }

/-- The launch that an accepted record describes. -/
def launchOfRecord (s : State) (o : Op) (l : LaunchOp) (b : List Byte) (ranks : List Rank) : Launch :=
  let rec3 := num b 3 1
  { ctx := o.ctx, num := (match s.context? o.ctx with | some c => c.launches | none => 0) + 1, age := s.nextOp
    prio := match l.cap with | some p => min p rec3 | none => rec3
    creator := l.creator, service := l.service, cluster := num b 4 1, depKind := num b 6 1, radius := num b 7 1
    gx := num b 8 4, gy := num b 12 4, gz := num b 16 4, stack := num b 20 4, shared := num b 24 4
    roles := (recRolesPresent b).map (recRole b), tx := num b 96 2, ty := num b 98 2, tz := num b 100 2
    doneMap := if bitAt (num b 102 1) 0 then some (num b 104 8) else none
    prodMap := num b 112 8, px := num b 120 4, py := num b 124 4, pz := num b 128 4, ranks := ranks
    pkg := s.acceptPkg o.ctx l.pkg b, debugOpts := s.debugBlock o.ctx }

/-- The status word of LAUNCH (R324). -/
def launchStatus (number code : Nat) : Word64 := BitVec.ofNat 64 (number * 2 ^ 40 + code)

/-- Everything that an acceptance creates (R299, R321, R327). -/
def startLaunch (s : State) (l : Launch) (indices : List Nat) : State :=
  let lk := launchKey l.ctx l.num
  let n := l.gx * l.gy * l.gz
  let per := (l.roles.map (·.groups)).sum
  let t := { s with nextOp := s.nextOp + 1, launches := s.launches.put lk l }
  let t := t.modContext l.ctx fun c => { c with launches := l.num }
  let t := addCohorts l lk per (List.range n) indices t
  let t := (List.range (n / l.cluster)).foldl (fun t q => t.addCluster l lk (n / l.cluster) q) t
  t.evalEligible fun q => q.ctx == l.ctx && q.num == l.num

/-- The answer of a launch: a host reply, or the status word in sd. -/
def answerLaunch (s : State) (o : Nat) (l : LaunchOp) (status : Word64) : State :=
  let t := match l.host with | some c => s.reply c 6 status.toNat | none => s.land o status
  t.dropOp o

/-- The SYNC record of an acceptance (R341). -/
def launchEntry (status : Word64) : Entry := { kind := 1, cls := 0, src := 0, operand := 6, payload := status }

/-- The control cores accept or refuse one launch; `indices` are the FREE entries that it takes. A walk of the name table that
fails on the way, in the search for FREE entries or at the debug control block, is CONTEXT_IMAGE_FAULT (R297, R393). -/
def acceptLaunch (s : State) (o : Nat) (op : Op) (l : LaunchOp) (indices : List Nat) : State :=
  match s.checkRecord op.ctx l.pkg l.record with
  | .error code =>
    match if code = 8 then s.unreadable op.ctx (List.range (s.tableSize op.ctx)) else none with
    | some i => s.tableFault op.ctx i
    | none => s.answerLaunch o l (launchStatus 0 code)
  | .ok (b, ranks) =>
    match if (s.entry? op.ctx 0).isNone then some 0 else s.unreadable op.ctx indices with
    | some i => s.tableFault op.ctx i
    | none =>
    if indices.length = recGroups b * recCohorts b && s.allFree op.ctx indices then
      let k := s.launchOfRecord op l b ranks
      let e := launchEntry (launchStatus k.num 0)
      s.gated op.ctx k.pkg e fun s =>
        ((s.log op.ctx k.pkg e false).startLaunch k indices).answerLaunch o l (launchStatus k.num 0)
    else s

end State

/-- LAUNCH (R324). -/
def execLaunch (g : Guard) (sd sa : SReg) (s : State) : Out :=
  onStroke (.launch g sd sa) g s fun u grp _ s =>
    let cap := match s.launchOf grp with | some l => l.prio | none => 0
    s.enterOp u grp sd
      (.launch { creator := grp.name, record := grp.rdS sa, service := false, cap := some cap, pkg := State.pkgOf grp.core }) [] 8

def execLaunchAcceptance (req : Nat) (indices : List Nat) (s : State) : Out :=
  .next (match s.op? req with
    | some op =>
      match op.work with
      | .launch l =>
        if s.frozen op.ctx then s
        else if s.hasEnded op.ctx then s.answerLaunch req l (BitVec.ofNat 64 8)
        else s.acceptLaunch req op l indices
      | _ => s
    | none => s)

/-! ## Task dispatch (R331) -/

namespace State

/-- Tasks that one group may hold: all ready, with one key. -/
def gatherable : List Task → Bool
  | [] => false
  | t :: ts => (t :: ts).all fun k =>
      k.ready && k.ctx == t.ctx && k.launch == t.launch && k.role == t.role && k.entry == t.entry && k.argPkg == t.argPkg
        && k.argDie == t.argDie

/-- The TASK records of a gathering, one for each lane (R341). -/
def taskEntries (l : Launch) (num die : Nat) : Nat → List Task → List Entry
  | _, [] => []
  | f, k :: ks =>
    { kind := 5, cls := 5, src := die % 8
      subject := BitVec.ofNat 64 (l.num % 2 ^ 24 * 2 ^ 40 + num % 2 ^ 24 * 2 ^ 16 + f), operand := k.entry
      payload := BitVec.ofNat 64 (k.spawn % 2 ^ 32 + k.tag.toNat * 2 ^ 32) } :: taskEntries l num die (f + 1) ks

/-- The scroll has room for some records (R344). -/
def room (s : State) (ctx pkg n : Nat) : Bool :=
  let x := s.scroll ctx pkg
  x.mode != 1 || decide (x.fill + n ≤ x.cap)

/-- An act with several records waits for their slots (R344). -/
def awaitFirst (s : State) (ctx pkg : Nat) (es : List Entry) : State :=
  match es.head? with | some e => s.await ctx pkg e | none => s

/-- Several records may be logged in order: in REPLAY each is its source's next one, with its own payload, for the choices
that are taken from the log (R347). -/
def gateAll (ctx pkg : Nat) : List Entry → State → Bool
  | [], _ => true
  | e :: es, s => s.gate ctx pkg e == .go && (match s.logged ctx pkg e with | some v => v == e.payload | none => true)
      && gateAll ctx pkg es (s.log ctx pkg e)

def logAll (ctx pkg : Nat) (s : State) (es : List Entry) : State := es.foldl (fun s e => s.log ctx pkg e) s

/-- A task group: a cohort of one group and a cluster of one. -/
def addTaskGroup (s : State) (l : Launch) (lk num die i role : Nat) (r : RoleEntry) (ts : List Task) : State :=
  let coh := cohortKey lk num
  let t0 := ts.headD { ctx := 0, launch := 0, role := 0, entry := 0, tag := 0, ready := true, argPkg := 0, argDie := 0, argOff := 0, spawn := 0 }
  let name := s.entryName l.ctx i
  let g := newGroup l lk coh 0 role ts.length name r t0.entry
    (BitVec.ofNat 64 (t0.argPkg * 2 ^ 40 + t0.argDie * 2 ^ 37)) (fun f => match ts[f]? with | some k => k.argOff | none => 0) []
  let t := s.takeEntry l.ctx i l.num l.creator
  let c : Cohort :=
    { ctx := l.ctx, launch := lk, num := num, cluster := coh, member := 0, groups := [gidOf coh 0], task := true }
  let k : Cluster :=
    { ctx := l.ctx, launch := lk, num := num, pkg := die / 8, die := some die, elig := true, waitFrom := s.timebase.toNat
      cohorts := [coh] }
  { t with
    groups := t.groups.put (gidOf coh 0) g
    cohorts := t.cohorts.put coh c
    clusters := t.clusters.put coh k }

/-- The tasks at some positions of a table. -/
def tasksAt (d : Die) (ps : List Nat) : Option (List Task) := ps.mapM fun p => d.tasks[p]?

/-- The dispatcher gathers the ready tasks at positions `ps` of a die's table into one group. -/
def dispatch (s : State) (die : Nat) (ps : List Nat) (i : Nat) : State :=
  match tasksAt (s.die die) ps with
  | none => s
  | some ts =>
    match ts.head? with
    | none => s
    | some t0 =>
      match s.launch? t0.launch with
      | none => s
      | some l =>
        match l.roles[t0.role]? with
        | none => s
        | some r =>
          match s.unreadable t0.ctx [i] with
          | some i => s.tableFault t0.ctx i
          | none =>
          let num := l.gx * l.gy * l.gz + l.dispatched
          let es := taskEntries l num die 0 ts
          if !(gatherable ts && decide (ps.Nodup) && decide (ts.length ≤ 32) && s.allFree t0.ctx [i]) then s
          else if !s.room t0.ctx (die / 8) ts.length then s.awaitFirst t0.ctx (die / 8) es
          else if gateAll t0.ctx (die / 8) es s then
            let t := logAll t0.ctx (die / 8) s es
            let t := t.addTaskGroup l t0.launch num die i t0.role r ts
            let t := t.modLaunch t0.launch fun l => { l with dispatched := l.dispatched + 1 }
            (t.modDie die fun d =>
              { d with tasks := (d.tasks.zipIdx.filter fun e => !ps.contains e.2).map (·.1) })
          else s

end State

def execTaskDispatch (die : Nat) (tasks : List Nat) (index : Nat) (s : State) : Out := .next (s.dispatch die tasks index)

end Sys2Proof.Machine
end

