-- ==== Sys2Proof/Machine/Matrix.lean ====
section
/-! DEFINITION. The matrix engine (R274 to R295): ownership of tile slots, engine operations on them, team loops,
block-scaled pairs, and the arbitration of the power governor. -/

namespace Sys2Proof.Machine

/-! ## Codes -/

def macqGranted : Nat := 0
def macqBusy : Nat := 1
def macqNoSlot : Nat := 2
def macqBadTeam : Nat := 3
def macqNotHeld : Nat := 4

/-- The result word of MACQ and MGROW (R277). -/
def macqWord (held code : Nat) : Word64 := BitVec.ofNat 64 (held * 256 + code)

def matSlotNotHeld : Nat := 0x30
def matTeamMismatch : Nat := 0x31
def matTeamBroken : Nat := 0x32
def matBadShape : Nat := 0x33
def matNoSacc : Nat := 0x34
def matSaccMismatch : Nat := 0x35

/-! ## Ownership (R276 to R280) -/

namespace State

/-- The physical slots of a core that no holder holds. -/
def freeSlots (s : State) (core : Nat) : List Nat :=
  let held := s.holders.flatMap fun h =>
    match s.cohort? h.2.cohort with | some c => if c.core == some core then h.2.slots else [] | none => []
  (List.range Config.tileSlots).filter fun n => !held.contains n

/-- The holder that a group belongs to, with its number. -/
def holderOf (s : State) (g : Group) : Option (Nat × Holder) :=
  match s.holdersOf g with
  | h :: _ => (s.holders.get? h).map fun x => (h, x)
  | [] => none

/-- A group, or a team that it belongs to, has a queued MACQ (R278). -/
def queuedFor (s : State) (g : Group) (gid : Nat) : Bool :=
  (s.core g.core).queue.any fun e =>
    e.gid == gid || (match e.team, s.group? e.gid with
      | some m, some h => h.cohort == g.cohort && m.getLsbD g.index
      | _, _ => false)

/-- A granted slot holds +0 in every element (R275). -/
def clearSlots (s : State) (core : Nat) (ns : List Nat) : State := ns.foldl (fun s n => s.clearRange (slotAt core n) 65536) s

/-- Grants n slots to a new holder. -/
def grantNew (s : State) (g : Group) (members : BitVec 16) (team : Bool) (n : Nat) : State :=
  let ns := (s.freeSlots g.core).take n
  let t := s.clearSlots g.core ns
  { t with
    holders := t.holders.put t.nextOp { cohort := g.cohort, leader := g.index, members := members, team := team, slots := ns }
    nextOp := t.nextOp + 1 }

/-- The operations that have entered slots of a holder and have not completed (R280). -/
def enteredOn (s : State) (h : Nat) : Bool :=
  s.ops.any fun o => match o.2.work with
    | .matrix m => m.holder == some h && m.entered.isSome && m.code.isNone &&
        (match m.kind with | .loop _ _ part _ _ _ _ _ _ _ => !part | _ => true)
    | _ => false

/-- A holder's slots are released and their contents discarded (R280). -/
def releaseHolder (s : State) (h : Nat) : State :=
  match s.holders.get? h with
  | none => s
  | some x =>
    let t := s.breakTeam h x.team
    let t := match (s.cohort? x.cohort).bind (·.core) with | some k => t.clearSlots k x.slots | none => t
    { t with holders := t.holders.erase h }

/-- The team-role mark of a group's role (R276). -/
def teamRole (s : State) (g : Group) : Bool :=
  match s.launch? g.launch with
  | some l => (match l.roles[g.role]? with | some r => r.team | none => false)
  | none => false

/-- A mask of members is legal for a team that a group forms (R278). -/
def teamOk (s : State) (g : Group) (M : Nat) : Bool :=
  let n := popCount 16 M
  M < 2 ^ 16 && (n == 2 || n == 4) && bitAt M g.index &&
  ((List.range 16).filter (bitAt M)).all fun i =>
    match (s.cohort? g.cohort).bind fun c => c.groups[i]? with
    | none => false
    | some gid =>
      match s.group? gid with
      | none => false
      | some h => h.phase == .resident && h.role == g.role && (s.holderOf h).isNone && !s.queuedFor h gid

def matrix? (s : State) (o : Nat) : Option MatOp :=
  match s.op? o with | some op => (match op.work with | .matrix m => some m | _ => none) | none => none

/-- Operations with those that they are joined with (R288). -/
def withTeam (s : State) (os : List Nat) : List Nat :=
  (os.flatMap fun o => match s.matrix? o with
    | some m => if m.entered.isSome && !m.team.isEmpty then m.team else [o]
    | none => [o]).eraseDups

/-- Operations with those that they are joined with, the other halves of all their pairs, and so on. -/
def tiedTo (s : State) (os : List Nat) : List Nat :=
  s.ops.foldl (fun l _ => s.withTeam (l ++ l.filterMap fun o => (s.matrix? o).bind (·.partner))) (s.withTeam os)

/-- A loop has started, or the loop of an MSACC has: it meets no error any more (R295). -/
def begun (s : State) (m : MatOp) : Bool := m.computed || m.started || (m.partner.bind s.matrix?).any (·.started)

/-- Marks operations as failed, with all that they are tied to: a team loop or a pair completes as one (R288, R290; log 24). -/
def failMat (s : State) (code : Nat) (os : List Nat) : State :=
  (s.tiedTo os).foldl (fun t o => t.modOp o fun op => match op.work with
    | .matrix m => if m.code.isNone && !s.begun m then { op with work := .matrix { m with code := some code } } else op
    | _ => op) s

/-- The group's MLOOP.part that waits for its MSACC completes with NO_SACC when another matrix instruction issues
(R290). -/
def dropPart (s : State) (gid : Nat) : State :=
  match (s.group? gid).bind (·.part) with
  | none => s
  | some o =>
    (if (s.matrix? o).any (·.partner.isNone) then s.failMat matNoSacc [o] else s).modGroup gid fun g => { g with part := none }

def grantEntry (s : State) (g : Group) (kind : Nat) (word : Word64) : Entry :=
  { kind := 1, cls := 2, src := g.core % 256, subject := s.thread g 0xFF, operand := BitVec.ofNat 64 kind, payload := word }

/-- A SCHED record of some issue of a stroke. -/
def schedOfStroke (s : State) (g : Group) (mask : BitVec 32) (e : Entry) : Bool :=
  e.kind == 8 && e.source == 65536 + schedSource g && (s.thread g 0).toNat / 256 == e.subject.toNat / 256
    && BitVec.ofNat 32 e.payload.toNat &&& mask != 0

/-- The records of a replay that stand in the ring before the SCHED record which the next issue of a stroke belongs to: the first
one of the stroke that has an issue left. -/
def beforeNext (s : State) (g : Group) (mask : BitVec 32) : List (Nat × Entry) :=
  let pkg := pkgOf g.core
  let l := s.pendingAll g.ctx pkg
  match (s.sourceRecords g.ctx pkg (65536 + schedSource g)).find? (fun r => r.2.kind == 8) with
  | none => l
  | some (i, r) =>
    let spent := decide (field r.payload.toNat 32 32 ≤ s.runDone g.ctx pkg (65536 + schedSource g))
    l.takeWhile fun x => !(s.schedOfStroke g mask x.2 && !(spent && x.1 == i))

/-- A record is that of a stroke: it names it, or the stroke is its whole group. -/
def ofStroke (s : State) (g : Group) (mask : BitVec 32) (r : Entry) : Bool :=
  r.subject == s.strokeThread g mask || (g.convergent mask && s.namedBy r g)

/-- Work of a group in flight that writes records by itself. -/
def ownOps (s : State) (gid : Nat) (p : Work → Bool) : Bool := s.ops.any fun o => o.2.gid == some gid && p o.2.work

/-- A record that a stroke which waits in a MACQ cannot have made: that of a later issue, of the release from a later wait, or of the
completion of a barrier at which it has still to arrive. -/
def madeLater (s : State) (gid : Nat) (g : Group) (mask : BitVec 32) (r : Entry) : Bool :=
  match r.kind with
  | 1 => (r.operand == 3 && s.ofStroke g mask r)
      || (r.operand == 1 && (r.subject.toNat / 2 ^ 16 == (s.thread g 0).toNat / 2 ^ 16)
        && (match s.cohort? g.cohort with | some c => mask &&& ~~~(c.arrived.read 0 g.index) != 0 | none => false))
  | 2 => s.ofStroke g mask r && !s.ownOps gid fun w => match w with | .copy _ => true | .matrix _ => true | .xfer _ => true | _ => false
  | 3 => s.ofStroke g mask r
  | 6 => s.ofStroke g mask r && !s.ownOps gid fun w => match w with | .tile _ => true | _ => false
  | 7 => s.ofStroke g mask r && (g.pending.get? r.operand.toNat).isNone
  | 9 => s.ofStroke g mask r
  | 10 => s.ofStroke g mask r
  | _ => false

/-- In REPLAY a MACQ waited in the queue when the log holds its queue grant, in the ring before the stroke's next issue, and before
it no record that the stroke can have made only after this MACQ (R347; log 16). -/
def grantLogged (s : State) (gid : Nat) (g : Group) (mask : BitVec 32) (n : Nat) : Bool :=
  let e := s.grantEntry g 2 (macqWord n macqGranted)
  let grant := fun (r : Nat × Entry) => r.2.source == e.source && r.2.sameEvent e && r.2.payload == e.payload
  let l := s.beforeNext g mask
  (s.scroll g.ctx (pkgOf g.core)).mode == 2 && l.any grant
    && !((l.takeWhile fun r => !grant r).any fun r => s.madeLater gid g mask r.2)

/-- No entry of a part of the queue keeps a MACQ of a context from its slots: none is there; in REPLAY those of its own context
follow their records (R278, R347). -/
def queueOpen (s : State) (g : Group) (q : List QueueEntry) : Bool :=
  q.isEmpty || ((s.scroll g.ctx (pkgOf g.core)).mode == 2
    && q.all fun e => match s.group? e.gid with | some h => h.ctx == g.ctx | none => true)

/-- MAcq (R278). `team` is the member mask of a .team form. -/
def macq (s : State) (u : Issue) (g : Group) (sd : SReg) (n : Nat) (team : Option Nat) : State :=
  let write := fun (t : State) w => (t.writeS u g sd w).advance u 8
  let members := match team with | some M => BitVec.ofNat 16 M | none => BitVec.ofNat 16 (2 ^ g.index)
  if (s.holderOf g).isSome ∨ s.queuedFor g u.gid then s.trap u u.mask 0x25 0
  else
    let s := s.dropPart u.gid
    if team.isSome ≠ s.teamRole g ∨ team.any (fun M => !s.teamOk g M) then write s (macqWord 0 macqBadTeam)
    else
      let q := (s.core g.core).queue
      if s.queueOpen g q ∧ n ≤ (s.freeSlots g.core).length ∧ !s.grantLogged u.gid g u.mask n then
        write (s.grantNew g members team.isSome n) (macqWord n macqGranted)
      else if Config.ownershipQueue ≤ q.length then write s (macqWord 0 macqBusy)
      else
        (s.modCore g.core fun k => { k with queue := k.queue ++
          [{ gid := u.gid, mask := u.mask, n := n, sd := sd, team := if team.isSome then some members else none }] }).parkEngine u

/-- A queued MACQ may be granted now: it is the head of its queue, or in REPLAY the first of its context that the log grants next or
had granted at once; its group is resident and its slots are free (R278, R347; log 16). -/
def grantable (s : State) (core at_ : Nat) (e : QueueEntry) : Bool :=
  match s.group? e.gid with
  | none => false
  | some g =>
    let pkg := pkgOf core
    g.phase == .resident && decide (e.n ≤ (s.freeSlots core).length) && s.queueOpen g ((s.core core).queue.take at_)
      && (!s.grantLogged e.gid g e.mask e.n || decide (s.gate g.ctx pkg (s.grantEntry g 2 (macqWord e.n macqGranted)) = .go))

/-- A queued MACQ is granted (R278); in REPLAY one that the log does not show as queued has no record. -/
def grantQueued (s : State) (e : QueueEntry) (g : Group) : State :=
  let word := macqWord e.n macqGranted
  let entry := s.grantEntry g 2 word
  let atOnce := (s.scroll g.ctx (pkgOf g.core)).mode == 2 && !s.grantLogged e.gid g e.mask e.n && !s.frozen g.ctx
  let gated := fun (act : State → State) => if atOnce then act s else s.gated g.ctx (pkgOf g.core) entry act
  gated fun s =>
    let u : Issue := { gid := e.gid, mask := e.mask, pc := (g.fibre (lowest e.mask)).pc }
    let t := if atOnce then s else s.log g.ctx (pkgOf g.core) entry
    let t := t.modCore g.core fun k => { k with queue := k.queue.filter fun q => q.gid != e.gid }
    let members := e.team.getD (BitVec.ofNat 16 (2 ^ g.index))
    (((t.grantNew g members e.team.isSome e.n).returnS u g e.sd word).resume e.gid e.mask 8).afterWrites u
      (g.fibre (lowest e.mask)).instr [e.sd]

end State

open State

def execMacq (g : Guard) (sd : SReg) (n : BitVec 16) (s : State) : Out :=
  onStroke (.macq g sd n) g s fun u grp _ s => s.macq u grp sd n.toNat none

def execMacqTeam (g : Guard) (sd : SReg) (n : BitVec 16) (sm : SReg) (s : State) : Out :=
  onStroke (.macqTeam g sd n sm) g s fun u grp _ s => s.macq u grp sd n.toNat (some (grp.rdS sm).toNat)

/-- MREL (R280). -/
def execMrel (g : Guard) (s : State) : Out :=
  onStroke (.mrel g) g s fun u grp _ s =>
    match s.holderOf grp with
    | none => (s.dropPart u.gid).advance u 8
    | some (h, _) =>
      if s.enteredOn h then s.parkEngine u else ((s.dropPart u.gid).releaseHolder h).advance u 8

namespace State

/-- Slots that MGROW's group holds, whether n more are there, and whether they can be granted now (R279). -/
def heldCount (s : State) (g : Group) : Nat :=
  match s.holderOf g with | some (_, x) => if x.closing then 0 else x.slots.length | none => 0
def growRoom (s : State) (g : Group) (n : Nat) : Bool :=
  decide (n ≤ (s.freeSlots g.core).length) && decide (s.heldCount g + n ≤ Config.tileSlots)
def growFits (s : State) (g : Group) (n : Nat) : Bool := (s.core g.core).queue.isEmpty && s.growRoom g n

/-- Slots are added to a group's holder, cleared (R275, R279). -/
def growHolder (s : State) (g : Group) (n : Nat) : State :=
  match s.holderOf g with
  | some (h, _) =>
    let ns := (s.freeSlots g.core).take n
    (s.clearSlots g.core ns).modHolder h fun x => { x with slots := x.slots ++ ns }
  | none => s

/-- MGROW with its outcome, which is logged (R341). -/
def growAs (s : State) (u : Issue) (g : Group) (sd : SReg) (n : Nat) (grant : Bool) : State :=
  let held := s.heldCount g
  let word := if held = 0 then macqWord 0 macqNotHeld
    else if grant then macqWord (held + n) macqGranted else macqWord held macqNoSlot
  let t := s.log g.ctx (pkgOf g.core) (s.grantEntry g 3 word)
  let t := if held ≠ 0 ∧ grant then t.growHolder g n else t
  (t.writeS u g sd word).advance u 8

end State

/-- MGROW (R279). In REPLAY the outcome is the logged one, and a logged grant waits for its slots, not for the queue (R347). -/
def execMgrow (g : Guard) (sd : SReg) (n : BitVec 16) (s : State) : Out :=
  onStroke (.mgrow g sd n) g s fun u grp _ s =>
    let fits := s.growFits grp n.toNat
    match s.logged grp.ctx (pkgOf grp.core) (s.grantEntry grp 3 0) with
    | some w =>
      let want := field w.toNat 0 8 == macqGranted
      let room := s.growRoom grp n.toNat
      if want && !room && s.heldCount grp != 0 then s.parkEngine u
      else (s.dropPart u.gid).growAs u grp sd n.toNat (want && room)
    | none => (s.dropPart u.gid).growAs u grp sd n.toNat fits

/-- The head of the ownership queue is granted once enough slots are free (R278). -/
def execMacqQueueGrant (core : Nat) (s : State) : Out :=
  .next (match (s.core core).queue.zipIdx.find? fun e => s.grantable core e.2 e.1 with
    | some (e, _) => (match s.group? e.gid with | some g => s.grantQueued e g | none => s)
    | none => s)

/-- The slots of a holder that has lost a member are released once its entered operations have completed (R152, R280). -/
def execMrelRelease (core holder : Nat) (s : State) : Out :=
  .next (match s.holders.get? holder with
    | some x =>
      if x.closing && !s.enteredOn holder && (match s.cohort? x.cohort with | some c => c.core.getD core == core | none => false)
      then s.releaseHolder holder else s
    | none => s)

/-! ## Issue of engine operations (R282 to R292) -/

namespace State

/-- Engine operations in flight on a core (R282). -/
def matrixOps (s : State) (core : Nat) : Nat :=
  (s.ops.filter fun o => match o.2.work with | .matrix m => m.core == core | _ => false).length

/-- The holder and physical slot that operand k names for a group; none when it is not held. -/
def slotHeld (s : State) (g : Group) (k : Nat) : Option (Nat × Holder) :=
  match s.holderOf g with
  | some (h, x) => if !x.closing && decide (k < x.slots.length) then some (h, x) else none
  | none => none

/-- The ordinal of a group in a holder: ascending order of group index (R276). -/
def ordinal (x : Holder) (index : Nat) : Nat := popCount index x.members.toNat

/-- The members of a holder. -/
def teamSize (x : Holder) : Nat := popCount 16 x.members.toNat

/-- A matrix operation of a group, before it enters. -/
def matOp (s : State) (u : Issue) (g : Group) (kind : MatKind) (k : Nat) (code : Option Nat) : MatOp :=
  let h := s.slotHeld g k
  { kind := kind, core := g.core, cohort := g.cohort, holder := h.map (·.1), slot := k
    member := match h with | some (_, x) => ordinal x g.index | none => 0
    entered := if code.isNone then some s.nextOp else none, team := [s.nextOp]
    code := code, thread := s.strokeThread g u.mask }

def isLoop (m : MatOp) : Bool := match m.kind with | .loop .. => true | _ => false
def isPart (m : MatOp) : Bool := match m.kind with | .loop _ _ part _ _ _ _ _ _ _ => part | _ => false
def isSacc (m : MatOp) : Bool := match m.kind with | .sacc .. => true | _ => false

/-- The memory key of an operation's slot. -/
def slotKey (s : State) (m : MatOp) : Option Nat :=
  match m.holder.bind s.holders.get? with
  | some x => (x.slots[m.slot]?).map (slotAt m.core)
  | none => none

/-- No earlier-entered operation on the slot is still to run (R282); the loop of a pair names no slot of its own. -/
def slotClear (s : State) (m : MatOp) : Bool :=
  s.ops.all fun o => match o.2.work with
    | .matrix q => q.code.isSome || q.computed || isPart q || s.slotKey q != s.slotKey m ||
        (match q.entered, m.entered with | some a, some b => decide (b ≤ a) | _, _ => true)
    | _ => true

/-- A loop is ready to start: joined, its pair complete, and first on its slot (R282, R290). -/
def loopReady (s : State) (m : MatOp) : Bool :=
  isLoop m && m.code.isNone && m.entered.isSome && !m.started &&
  (if isPart m then
    (match m.partner.bind s.matrix? with | some p => p.code.isNone && p.entered.isSome && s.slotClear p | none => false)
  else s.slotClear m)

/-- Loops that have become ready begin to wait for the governor. -/
def markReady (s : State) : State :=
  { s with ops := s.ops.update fun _ o =>
      match o.work with
      | .matrix m =>
        if s.loopReady m && m.readyAt.isNone then { o with work := .matrix { m with readyAt := some s.timebase.toNat } } else o
      | _ => o }

/-- What comes before every engine operation: at most 32 of a core are in flight (R282). -/
def matLimit (s : State) (u : Issue) (g : Group) (go : State → State) : State :=
  if Config.matrixOpsPerCore ≤ s.matrixOps g.core then s.parkEngine u else go s

/-- A span that an operation reads or writes: bounds as a trap, locks as a trap or a wait, then entry (R286, R292). -/
def matSpans (s : State) (u : Issue) (g : Group) (spans : List (Nat × Nat)) (kind : LockKind)
    (go : State → List LockReq → State) : State :=
  match s.firstBad u.gid g (spans.map fun r => (.sh, r.1, r.2)) with
  | some (c, A) => s.trap u u.mask c (BitVec.ofNat 64 A)
  | none =>
    let locks := spans.flatMap fun r => s.lockReq u.gid g .sh r.1 r.2 kind
    match s.lockTrap locks with
    | some A => s.trap u u.mask 0x20 (BitVec.ofNat 64 A)
    | none => if s.lockWait locks then s.parkEngine u else go s locks

/-- An operation of one group enters at issue (R282). -/
def enterMat (s : State) (u : Issue) (g : Group) (sd : SReg) (m : MatOp) (locks : List LockReq) (len : Nat) : State :=
  (s.dropPart u.gid).enterOp u g sd (.matrix m) locks len

/-- What the members of a team must agree in: all but their own B operands (R288). -/
def agreed (m : MatOp) : MatKind × Nat :=
  match m.kind with
  | .loop fa fb part n inc a x y _ _ => (.loop fa fb part n inc a x y 0 0, m.slot)
  | k => (k, m.slot)

/-- The operations of one turn of a holder's team loops, or of its MSACCs. -/
def turnOps (s : State) (h j : Nat) (sacc : Bool) : List (Nat × MatOp) :=
  s.ops.filterMap fun o => match o.2.work with
    | .matrix m => if m.holder == some h && m.turn == j && (if sacc then isSacc m else isLoop m) then some (o.1, m) else none
    | _ => none

/-- The last member has issued: the operations of the turn are joined, or they mismatch (R282, R288). MSACCs join only over
the loops of one joined turn (R290; log 24). -/
def joinTurn (s : State) (h j : Nat) (x : Holder) (sacc : Bool) : State :=
  let l := s.turnOps h j sacc
  let ids := l.map (·.1)
  let loops := fun (m : MatOp) => ((m.partner.bind s.matrix?).map (·.team)).getD []
  let same := match l with
    | a :: r => (!sacc || !(loops a.2).isEmpty)
        && r.all fun b => decide (agreed b.2 = agreed a.2) && (!sacc || loops b.2 == loops a.2)
    | [] => false
  if l.length == teamSize x && l.all (fun e => e.2.code.isNone) && same then
    ids.foldl (fun s o => s.modOp o fun op => match op.work with
      | .matrix m => { op with work := .matrix { m with entered := some (s.nextOp - 1), team := ids } }
      | _ => op) s
  else s.failMat matTeamMismatch (l.filter (fun e => e.2.code.isNone) |>.map (·.1))

/-- A team member's loop or MSACC takes its turn; the turn is joined when every member has issued it. -/
def takeTurn (s : State) (h : Nat) (index : Nat) (sacc : Bool) : State :=
  match s.holders.get? h with
  | none => s
  | some x =>
    if !x.team then s
    else
      let counts := if sacc then x.saccs else x.loops
      let j := counts.read 0 index
      let counts := counts.put index (j + 1)
      let t := s.modHolder h fun x => if sacc then { x with saccs := counts } else { x with loops := counts }
      if ((List.range 16).filter (bitAt x.members.toNat)).all fun i => decide (j < counts.read 0 i) then t.joinTurn h j x sacc else t

/-- The turn that a group's next loop or MSACC takes. -/
def turnOf (x : Holder) (index : Nat) (sacc : Bool) : Nat := (if sacc then x.saccs else x.loops).read 0 index

/-- The holder's operation as it enters: a member's waits for the others (R282). -/
def teamOp (m : MatOp) (x : Holder) (index : Nat) (sacc : Bool) : MatOp :=
  if x.team then { m with entered := none, team := [], turn := turnOf x index sacc } else m

end State

/-- MZERO (R291). -/
def execMzero (g : Guard) (sd : SReg) (k : Slot) (s : State) : Out :=
  onStroke (.mzero g sd k) g s fun u grp _ s => s.matLimit u grp fun s =>
    let code := if (s.slotHeld grp k.toNat).isNone then some matSlotNotHeld else none
    s.enterMat u grp sd (s.matOp u grp .zero k.toNat code) [] 8

/-- The registers of B per step that a group supplies (R285); a group without a holder counts as solo (log 24). -/
def State.bWidth (s : State) (g : Group) : Nat := match s.holderOf g with | some (_, x) => 16 / max 1 (teamSize x) | none => 16

/-- The holder whose team loops a group's MLOOPs and MSACCs count among, whether or not their slot is held (R288). -/
def State.turnHolder (s : State) (g : Group) : Option (Nat × Holder) :=
  match s.holderOf g with | some (h, x) => if x.closing then none else some (h, x) | none => none

/-- A member's loop or MSACC, in its turn. -/
def State.inTurnOf (s : State) (g : Group) (sacc : Bool) (m : MatOp) : MatOp :=
  match s.turnHolder g with
  | some (h, x) => State.teamOp { m with holder := some h } x g.index sacc
  | none => m

/-- The operands of an MLOOP as they stand at issue. -/
def loopKind (g : Group) (fa fb : MatTy) (part : Bool) (aA iA xA yA : SReg) (vb : VReg) (step : BitVec 11) : MatKind :=
  .loop fa fb part (field (g.rdS iA).toNat 0 32) (field (g.rdS iA).toNat 32 32) (g.rdS aA).toNat
    (if fa = .e2m1 then (g.rdS xA).toNat else 0) (if fb = .e2m1 then (g.rdS yA).toNat else 0) vb.toNat step.toNat

/-- The shared-memory spans of a loop: A and the extra streams (R286). -/
def loopSpans (fa fb : MatTy) : MatKind → List (Nat × Nat)
  | .loop _ _ _ n inc a x y _ _ =>
    [(a, (n - 1) * inc + 2048)] ++ (if fa = .e2m1 then [(x, 128 * n)] else []) ++ (if fb = .e2m1 then [(y, 128 * n)] else [])
  | _ => []

/-- An MLOOP enters: its B registers are held, its turn is taken, and a .part waits for its MSACC (R78, R288, R290). -/
def State.enterLoop (s : State) (u : Issue) (g : Group) (sd : SReg) (m : MatOp) (locks : List LockReq) (part : Bool)
    (held : List (Nat × Nat)) : State :=
  let o := s.nextOp
  let t := s.enterMat u g sd m locks 16
  let t := t.modGroup u.gid fun g =>
    { g with held := g.held ++ held.map (fun r => ⟨r.1, r.2, o⟩), part := if part && m.code.isNone then some o else none }
  match m.holder with
  | some h => (t.takeTurn h g.index false).markReady
  | none => t

/-- MLOOP (R284 to R288). -/
def execMloop (g : Guard) (fa fb : MatTy) (part : Bool) (sd aA iA xA yA : SReg) (vb : VReg) (step : BitVec 11) (k : Slot)
    (s : State) : Out :=
  onStroke (.mloop g fa fb part sd aA iA xA yA vb step k) g s fun u grp _ s => s.matLimit u grp fun s =>
    let kind := loopKind grp fa fb part aA iA xA yA vb step
    let n := field (grp.rdS iA).toNat 0 32
    let inc := field (grp.rdS iA).toNat 32 32
    let w := s.bWidth grp
    let held := s.slotHeld grp k.toNat
    let team := s.inTurnOf grp false
    if n = 0 ∨ 4096 < n ∨ inc % 16 ≠ 0 then
      s.enterLoop u grp sd (team (s.matOp u grp kind k.toNat (some matBadShape))) [] part []
    else if grp.budget ≤ vb.toNat + step.toNat * (n - 1) + w - 1 then s.trap u u.mask 0x03 0
    else
      match held with
      | none => s.enterLoop u grp sd (team (s.matOp u grp kind k.toNat (some matSlotNotHeld))) [] part []
      | some _ =>
        s.matSpans u grp (loopSpans fa fb kind) .read fun s locks =>
          s.enterLoop u grp sd (team (s.matOp u grp kind k.toNat none)) locks part
            ((List.range n).map fun i => (vb.toNat + step.toNat * i, w))

namespace State

/-- The MLOOP.part that an MSACC of a group pairs with (R290). -/
def pairOf (s : State) (g : Group) : Option (Nat × Nat) :=
  match g.part with
  | none => none
  | some o =>
    match s.op? o with
    | some op =>
      match op.work with
      | .matrix m => (match m.kind with
          | .loop _ _ true n _ _ _ _ _ _ => if m.code.isNone && m.partner.isNone then some (o, n) else none
          | _ => none)
      | _ => none
    | none => none

/-- An MSACC enters, with the fate of its partner: paired, or ended with a code (R290). -/
def enterSacc (s : State) (u : Issue) (g : Group) (sd : SReg) (m : MatOp) (locks : List LockReq) (pair : Option Nat)
    (bad : Option Nat) : State :=
  let o := s.nextOp
  let t := s.enterOp u g sd (.matrix { m with partner := if bad.isNone then pair else none }) locks 16
  let t := t.modGroup u.gid fun g => { g with part := none }
  let t := match pair, bad with
    | some p, none => t.modOp p fun op => match op.work with
        | .matrix l => { op with work := .matrix { l with partner := some o } }
        | _ => op
    | some p, some c => t.failMat c [p]
    | none, _ => t
  match m.holder with
  | some h => (t.takeTurn h g.index true).markReady
  | none => t

end State

/-- MSACC (R289, R290). -/
def execMsacc (g : Guard) (sd pA qA nA : SReg) (k : Slot) (s : State) : Out :=
  onStroke (.msacc g sd pA qA nA k) g s fun u grp _ s => s.matLimit u grp fun s =>
    let n := field (grp.rdS nA).toNat 0 32
    let P := (grp.rdS pA).toNat
    let Q := (grp.rdS qA).toNat
    let kind := MatKind.sacc P Q n
    let held := s.slotHeld grp k.toNat
    let pair := s.pairOf grp
    let team := s.inTurnOf grp true
    let op := fun code => s.matOp u grp kind k.toNat code
    if n = 0 ∨ 4096 < n then
      s.enterSacc u grp sd (team (op (some matBadShape))) [] (pair.map (·.1)) (some matSaccMismatch)
    else
      match held with
      | none => s.enterSacc u grp sd (team (op (some matSlotNotHeld))) [] (pair.map (·.1)) (some matNoSacc)
      | some _ =>
        s.matSpans u grp [(P, 128 * n), (Q, 128 * n)] .read fun s locks =>
          if pair.any (fun p => p.2 == n) then s.enterSacc u grp sd (team (op none)) locks (pair.map (·.1)) none
          else s.enterSacc u grp sd (team (op (some matSaccMismatch))) [] (pair.map (·.1)) (some matSaccMismatch)

/-- Bytes of one element of a moved tile. -/
def moveSize : FloatTy → Nat | .f32 => 4 | .f16 => 2 | .bf16 => 2

/-- MLDACC and MSTACC: the stride, the slot, the span (R292). -/
def State.matMove (s : State) (u : Issue) (g : Group) (sd : SReg) (kind : MatKind) (z A stride k : Nat) (lock : LockKind) :
    State :=
  let op := fun code => s.matOp u g kind k code
  if stride % 16 ≠ 0 ∨ stride < 128 * z then s.enterMat u g sd (op (some matBadShape)) [] 16
  else if (s.slotHeld g k).isNone then s.enterMat u g sd (op (some matSlotNotHeld)) [] 16
  else s.matSpans u g [(A, 127 * stride + 128 * z)] lock fun s locks => s.enterMat u g sd (op none) locks 16

def execMldacc (g : Guard) (ty : FloatTy) (sd aA rA : SReg) (k : Slot) (s : State) : Out :=
  onStroke (.mldacc g ty sd aA rA k) g s fun u grp _ s => s.matLimit u grp fun s =>
    let A := (grp.rdS aA).toNat
    let stride := field (grp.rdS rA).toNat 0 32
    s.matMove u grp sd (.load ty A stride) (moveSize ty) A stride k.toNat .read

/-- MSTACC (R292). It stores to memory that others read, so that of a stroke of helpers is suppressed like any store (R32, R99;
log 24). -/
def execMstacc (g : Guard) (ty : FloatTy) (rnd : Rounding) (sat : Bool) (sd aA rA : SReg) (k : Slot) (s : State) : Out :=
  onStroke (.mstacc g ty rnd sat sd aA rA k) g s fun u grp a s =>
    if grp.helperOnly a then s.advance u 16 else s.matLimit u grp fun s =>
    let A := (grp.rdS aA).toNat
    let stride := field (grp.rdS rA).toNat 0 32
    s.matMove u grp sd (.store ty rnd sat A stride) (moveSize ty) A stride k.toNat .write

/-! ## Order on a slot, and the governor (R282, R293, R294) -/

namespace State

/-- Word r of column j of B in step k, from the registers of the member that holds the column (R285). -/
def bWord (s : State) (team : List Nat) (k j r : Nat) : Word32 :=
  let size := max 1 team.length
  let per := 128 / size
  let own := team.find? fun o => match s.matrix? o with | some m => m.member == j / per | none => false
  match own with
  | none => 0
  | some o =>
    match s.op? o with
    | none => 0
    | some op =>
      match op.work, op.gid.bind s.group? with
      | .matrix m, some g =>
        (match m.kind with
          | .loop _ _ _ _ _ _ _ _ vb step => (g.rdV (vb + step * k + 4 * (j % per / 32) + r)).lane (j % per % 32)
          | _ => 0)
      | _, _ => 0

/-- Byte t of row i of A in step k. -/
def aByte (s : State) (coh a inc k i t : Nat) : Nat := (s.readByte (placeShared coh + a + k * inc + 16 * i + t)).toNat

/-- Differing bits between steps k - 1 and k, over A and B (R293). -/
def toggles (s : State) (m : MatOp) (a inc k : Nat) : Nat :=
  ((List.range 2048).foldl (fun n t =>
    n + popCount 8 (Nat.xor (s.aByte m.cohort a inc k 0 t) (s.aByte m.cohort a inc (k - 1) 0 t))) 0)
  + ((List.range 128).foldl (fun n j => (List.range 4).foldl (fun n r =>
    n + popCount 32 (Nat.xor (s.bWord m.team k j r).toNat (s.bWord m.team (k - 1) j r).toNat)) n) 0)

/-- Estimate (R293). -/
def estimate (s : State) (m : MatOp) : Nat :=
  match m.kind with
  | .loop _ _ _ n inc a _ _ _ _ =>
    let c := min n 8
    if c = 1 then 15
    else
      let T := (List.range (c - 1)).foldl (fun x k => x + s.toggles m a inc (k + 1)) 0
      min 15 (16 * T / (32768 * (c - 1)))
  | _ => 0

def loopSteps (m : MatOp) : Nat :=
  match m.kind with | .loop _ _ _ n _ _ _ _ _ _ => n | .sacc _ _ n => n | _ => 0

/-- The loop starts and its island is charged; every member's loop reports the charge. A refill leaves a full balance as it
is, so from a full balance the next one that counts is that of the next microsecond (R294). -/
def startLoop (s : State) (m : MatOp) : State :=
  let units := loopSteps m * s.estimate m
  let i := islandOf m.core
  let k := s.island i
  let full := decide (k.balance = (k.units.toNat : Int))
  let t := s.setIsland i { k with
    balance := k.balance - (units : Int)
    refillAt := if full then (s.ticks (i / 16)).toNat / Config.ticksPerMicrosecond + 1 else k.refillAt }
  m.team.foldl (fun t o => t.modOp o fun op => match op.work with
    | .matrix q => { op with work := .matrix { q with started := true, units := units } }
    | _ => op) t

/-- The loops of an island that wait to start: estimate and entry, which order them (R294). -/
def waitingLoops (s : State) (island : Nat) : List (Nat × Nat) :=
  s.ops.filterMap fun o => match o.2.work with
    | .matrix m => if islandOf m.core == island && m.readyAt.isSome && s.loopReady m then some (s.estimate m, m.entered.getD 0) else none
    | _ => none

/-- No waiting loop of the island comes before this one. -/
def firstToStart (s : State) (m : MatOp) : Bool :=
  let mine := (s.estimate m, m.entered.getD 0)
  (s.waitingLoops (islandOf m.core)).all fun w => decide (mine.1 < w.1 ∨ (mine.1 = w.1 ∧ mine.2 ≤ w.2))

end State

/-- A ready loop starts when the governor's balance allows (R294). -/
def execMatrixLoopStart (o : Nat) (s : State) : Out :=
  .next (match s.matrix? o with
    | some m =>
      let i := s.island (islandOf m.core)
      let need := min (loopSteps m * s.estimate m) i.units.toNat
      if s.loopReady m && m.readyAt.isSome && s.firstToStart m && decide ((need : Int) ≤ i.balance) then s.startLoop m else s
    | none => s)

/-- A loop that has waited 64 µs starts at once (R294). -/
def execMatrixLoopWaitExpiry (o : Nat) (s : State) : Out :=
  .next (match s.matrix? o with
    | some m =>
      match m.readyAt with
      | some t => if s.loopReady m && decide (t + Config.loopWaitTicks ≤ s.timebase.toNat) then s.startLoop m else s
      | none => s
    | none => s)

/-- The balance is refilled at each microsecond (R294); the islands of a stopped package rest (R402). -/
def execMatrixBudgetRefill (island : Nat) (s : State) : Out :=
  .next (let i := s.island island
    if i.refillAt ≤ (s.ticks (island / 16)).toNat / Config.ticksPerMicrosecond && decide (0 < i.refillAt)
        && !s.stopped.contains (island / 16) then
      s.setIsland island
        { i with balance := min (i.balance + (i.units.toNat : Int)) (i.units.toNat : Int), refillAt := i.refillAt + 1 }
    else s)

/-! ## What the operations compute (R287, R290 to R292) -/

/-- The bits of one element of a matrix format. -/
def MatTy.width : MatTy → Nat | .bf16 => 16 | .e4m3 => 8 | .e5m2 => 8 | .e2m1 => 4

/-- An element as an exact value; an e2m1 code is read with its row's or column's extra (R212). -/
def MatTy.val (t : MatTy) (x extra : Nat) : Val :=
  match t with
  | .bf16 => fmtBf16.decode x
  | .e4m3 => fmtE4m3.decode x
  | .e5m2 => fmtE5m2.decode x
  | .e2m1 => qf4Val x extra

namespace State

/-- Element t of row i of A in step k. -/
def aElem (s : State) (m : MatOp) (fa : MatTy) (a inc x k i t : Nat) : Val :=
  let w := MatTy.width fa
  let bits := ofBytes (s.readBytes (placeShared m.cohort + a + k * inc + 16 * i) 16)
  let extra := if fa = .e2m1 then (s.readByte (placeShared m.cohort + x + 128 * k + i)).toNat else 0
  MatTy.val fa (field bits (w * t) w) extra

/-- Element t of column j of B in step k. -/
def bElem (s : State) (m : MatOp) (fb : MatTy) (y k j t : Nat) : Val :=
  let w := MatTy.width fb
  let per := 32 / w
  let extra := if fb = .e2m1 then (s.readByte (placeShared m.cohort + y + 128 * k + j)).toNat else 0
  MatTy.val fb (field (s.bWord m.team k j (t / per)).toNat (w * (t % per)) w) extra

/-- The element pairs of one step for element (i, j): 8, 16 or 32 (R274). -/
def stepPairs (s : State) (m : MatOp) (k i j : Nat) : List (Val × Val) :=
  match m.kind with
  | .loop fa fb _ _ inc a x y _ _ =>
    (List.range (128 / MatTy.width fa)).map fun t => (s.aElem m fa a inc x k i t, s.bElem m fb y k j t)
  | _ => []

/-- One step on an accumulator: one fused sum, rounded once (R217, R287). -/
def stepElem (s : State) (m : MatOp) (k i j : Nat) (c : Nat × Nat) : Nat × Nat :=
  let r := fusedSum .rne (fmtF32.decode c.1) (s.stepPairs m k i j)
  let q := roundF32 .rne r.1
  (q.1, orFl c.2 (orFl r.2 q.2))

/-- The exact partial of a block-scaled step (R287). -/
def partial? (s : State) (m : MatOp) (k i j : Nat) : Val × Nat :=
  let ps := (s.stepPairs m k i j).map fun p => mulVal p.1 p.2
  let r := sumVals .rne (ps.map (·.1))
  (r.1, (ps.map (·.2)).foldl orFl r.2)

/-- A value times a power of two, exactly. -/
def scaleVal (v : Val) (n : Int) : Val := match v with | .num neg m e => .num neg m (e + n) | x => x

/-- One step of MSACC on an accumulator (R290). -/
def saccElem (s : State) (l m : MatOp) (p q k i j : Nat) (c : Nat × Nat) : Nat × Nat :=
  let ea := (s.readByte (placeShared m.cohort + p + 128 * k + i)).toNat
  let eb := (s.readByte (placeShared m.cohort + q + 128 * k + j)).toNat
  if ea = 0xFF ∨ eb = 0xFF then (fmtF32.nan, orFl c.2 flNV)
  else
    let P := s.partial? l k i j
    let r := sumVals .rne [fmtF32.decode c.1, scaleVal P.1 ((ea : Int) + (eb : Int) - 254)]
    let w := roundF32 .rne r.1
    (w.1, orFl c.2 (orFl r.2 w.2))

/-- Element (i, j) of a tile (R275). -/
def tileElem (s : State) (key i j : Nat) : Nat := s.readNat (key + 4 * (128 * i + j)) 4

/-- A whole tile, row by row, from a value and flags for each element. -/
def tileOf (f : Nat → Nat → Nat × Nat) : List (Nat × Nat) :=
  (List.range 128).flatMap fun i => (List.range 128).map fun j => f i j

def tileFlags (t : List (Nat × Nat)) : Nat := t.foldl (fun x e => orFl x e.2) 0
def writeTile (s : State) (key : Nat) (t : List (Nat × Nat)) : State := s.writeBytes key (t.flatMap fun e => toBytes 4 e.1)

/-- The B registers that one operation of a team loop streams. A group that stops or ends while its loop runs still has its map
and its image (R67, R68, R366). -/
def streamed (s : State) (team o : Nat) : Option (Nat × List Nat) :=
  match s.op? o with
  | some op =>
    match op.work, op.gid with
    | .matrix m, some gid =>
      (match m.kind, s.group? gid with
        | .loop _ _ _ n _ _ _ _ vb step, some g =>
          if g.phase == .resident || g.phase == .stopping || g.phase == .ending then
            some (gid, (List.range n).flatMap fun k => (List.range (16 / max 1 team)).map (vb + step * k + ·))
          else none
        | _, _ => none)
    | _, _ => none
  | none => none

/-- Every B register that a loop streams is read, and filled where no map slot holds it (R67, R68); then `go`. A slot of an
image that does not translate is CONTEXT_IMAGE_FAULT (R55). -/
def fillB (go : State → State) (n : Nat) : List Nat → State → State
  | [], s => go s
  | o :: os, s =>
    match s.streamed n o with
    | none => fillB go n os s
    | some (gid, rs) =>
      match s.fillAll gid rs with
      | (t, none) => fillB go n os t
      | (t, some va) =>
        (match t.group? gid with
          | some g => t.contextFatal g.ctx 0x82 (BitVec.ofNat 64 va) (t.thread g 0xFF)
          | none => t)

/-- Operations have run: their steps and flags are set. -/
def ran (s : State) (os : List Nat) (steps flags : Nat) : State :=
  os.foldl (fun s o => s.modOp o fun op => match op.work with
    | .matrix m => { op with work := .matrix { m with computed := true, steps := steps, flags := flags } }
    | _ => op) s

/-- A loop runs its steps in ascending order on its slot (R287). -/
def runLoop (s : State) (m : MatOp) (key : Nat) : State :=
  fillB (fun s =>
    let n := loopSteps m
    let t := tileOf fun i j => (List.range n).foldl (fun c k => s.stepElem m k i j c) (s.tileElem key i j, 0)
    (s.writeTile key t).ran m.team n (tileFlags t)) m.team.length m.team s

/-- A block-scaled pair runs in lockstep (R290); the partials are exact, so only the products' own flags are the
loop's. -/
def runPair (s : State) (l m : MatOp) (p q key : Nat) : State :=
  fillB (fun s =>
    let n := loopSteps l
    let t := tileOf fun i j => (List.range n).foldl (fun c k => s.saccElem l m p q k i j c) (s.tileElem key i j, 0)
    let lf := tileFlags (tileOf fun i j => (0, (List.range n).foldl (fun x k => orFl x (s.partial? l k i j).2) 0))
    ((s.writeTile key t).ran l.team n lf).ran m.team n (tileFlags t)) l.team.length l.team s

/-- An element widened to f32, which is exact; a NaN becomes the canonical one, and a signalling one sets NV (R201, R207,
R292). -/
def widen (ty : FloatTy) (x : Nat) : Nat × Nat :=
  match ty with
  | .f32 => convert .f32 .f32 .rne false x
  | .f16 => convert .f16 .f32 .rne false x
  | .bf16 => convert .bf16 .f32 .rne false x

def runLoad (s : State) (o : Nat) (m : MatOp) (ty : FloatTy) (a stride key : Nat) : State :=
  let z := moveSize ty
  let t := tileOf fun i j => widen ty (s.readNat (placeShared m.cohort + a + i * stride + j * z) z)
  (s.writeTile key t).ran [o] 0 (tileFlags t)

def runStore (s : State) (o : Nat) (m : MatOp) (ty : FloatTy) (rnd : Rounding) (sat : Bool) (a stride key : Nat) : State :=
  let z := moveSize ty
  let row := fun i => (List.range 128).map fun j => roundElem ty rnd sat (s.tileElem key i j)
  let t := (List.range 128).foldl (fun t i =>
    t.writeBytes (placeShared m.cohort + a + i * stride) ((row i).flatMap fun e => toBytes z e.1)) s
  t.ran [o] 0 ((List.range 128).foldl (fun x i => orFl x (tileFlags (row i))) 0)
where
  /-- RoundToFormat of an accumulator element (R205, R206). -/
  roundElem (ty : FloatTy) (rnd : Rounding) (sat : Bool) (x : Nat) : Nat × Nat :=
    let v := fmtF32.decode x
    let r := roundTo (FloatTy.fmt ty) rnd sat v
    (r.1, orFl r.2 (sigFlag [v]))

/-- The operation may run now (R282, R287, R290). -/
def runnable (s : State) (m : MatOp) : Bool :=
  m.code.isNone && !m.computed &&
  (match m.kind with
    | .loop .. => m.started
    | .sacc .. => false
    | _ => m.entered.isSome && s.slotClear m)

/-- Runs an operation: a loop with its team, a pair together. -/
def runMat (s : State) (o : Nat) (m : MatOp) : State :=
  match m.kind with
  | .zero => match s.slotKey m with | some key => (s.clearRange key 65536).ran [o] 0 0 | none => s
  | .load ty a stride => match s.slotKey m with | some key => s.runLoad o m ty a stride key | none => s
  | .store ty rnd sat a stride => match s.slotKey m with | some key => s.runStore o m ty rnd sat a stride key | none => s
  | .loop _ _ part _ _ _ _ _ _ _ =>
    if part then
      match m.partner.bind s.matrix? with
      | some q =>
        (match q.kind, s.slotKey q with
          | .sacc a b _, some key => s.runPair m q a b key
          | _, _ => s)
      | none => s
    else match s.slotKey m with | some key => s.runLoop m key | none => s
  | .sacc .. => s

/-- The matrix status word (R283, R295). -/
def matStatus (m : MatOp) : Word64 :=
  match m.code with
  | some c => BitVec.ofNat 64 (3 + c * 256)
  | none => BitVec.ofNat 64 (1 + m.flags % 32 * 2 ^ 16 + m.steps % 2 ^ 16 * 2 ^ 32 + m.units % 2 ^ 16 * 2 ^ 48)

end State

/-- An engine operation runs, and at its next event writes its status word and drops its locks (R282, R283). -/
def execMatrixOpCompletion (o : Nat) (s : State) : Out :=
  .next (match s.op? o with
    | some op =>
      match op.work with
      | .matrix m =>
        if s.runnable m then (s.runMat o m).markReady
        else if m.code.isSome || m.computed then (s.finish o op m.core m.thread (matStatus m)).markReady
        else s
      | _ => s
    | none => s)

end Sys2Proof.Machine
end

