-- ==== Sys2Proof/Machine/Admission.lean ====
section
/-! DEFINITION. Residency (R44 to R51, R55 to R57, R70, R300, R309, R322, R366, R367, R405): the admission of clusters, the
stop, the save and the restore, and the last step of a group's end (R152). -/

namespace Sys2Proof.Machine

namespace State

/-! ## What a cluster needs and what a core has (R45) -/

def clusterCohorts (s : State) (k : Cluster) : List (Nat × Cohort) :=
  k.cohorts.filterMap fun c => (s.cohort? c).map fun x => (c, x)

/-- The groups of a cohort that have not ended. -/
def liveGroups (s : State) (c : Cohort) : List (Nat × Group) :=
  c.groups.filterMap fun gid =>
    match s.group? gid with | some g => if g.phase == .dead then none else some (gid, g) | none => none

/-- A group takes room on its core until its cohort is saved or it is DEAD. -/
def onCore (g : Group) (core : Nat) : Bool :=
  g.core == core && (g.phase == .resident || g.phase == .ending || g.phase == .stopping)

/-- What a cluster takes of one core, through its member there. -/
structure Need where
  groups  : Nat := 0
  cohorts : Nat := 0
  shared  : Nat := 0
  slots   : Nat := 0
  locks   : Nat := 0
  frozen  : Nat := 0

def Need.add (a b : Need) : Need :=
  { groups := a.groups + b.groups, cohorts := a.cohorts + b.cohorts, shared := a.shared + b.shared
    slots := a.slots + b.slots, locks := a.locks + b.locks, frozen := a.frozen + b.frozen }

/-- The cohort that a table entry belongs to: the one whose RLOCK it is, or that of the operation's group. -/
def lockCohort (s : State) (l : Lock) : Option Nat :=
  match l.owner with
  | .rlock c _ => some c
  | .op o => ((s.op? o).bind fun q => q.gid.bind s.group?).map (·.cohort)

/-- The member of a cluster whose core takes an entry that travels: the owner of a shared-memory range, or else the entry's own
cohort (R177, R197, R281). -/
def lockMember (s : State) (k : Cluster) (l : Lock) : Option Nat :=
  match s.lockCohort l with
  | none => none
  | some c =>
    match k.cohorts.findIdx? (· == c) with
    | none => none
    | some own => some ((k.cohorts.findIdx? fun m => placeShared m == l.place).getD own)

def lockNeed (ls : List Lock) : Need := { locks := ls.length, frozen := (ls.filter fun l => l.kind == .readOnly).length }

def needOf (s : State) (coh : Nat) (c : Cohort) : Need :=
  { groups := (s.liveGroups c).length, cohorts := 1, shared := c.shared, slots := (s.heldSlots coh).length }

/-- The need of some clusters on member `m` of a hardware cluster. -/
def needAt (s : State) (ks : List Nat) (m : Nat) : Need :=
  (ks.filterMap s.cluster?).foldl (fun n k =>
    (s.clusterCohorts k).foldl (fun n c => if c.2.member == m then n.add (s.needOf c.1 c.2) else n)
      (n.add (lockNeed (s.locks.filter fun l => l.core == noCore && s.lockMember k l == some m)))) {}

/-- What a core holds, without the cohorts of the clusters in `gone`. -/
def loadOf (s : State) (core : Nat) (gone : List Nat) : Need :=
  let cs := s.cohorts.filter fun c => c.2.core == some core && !gone.contains c.2.cluster
  let stays := fun (l : Lock) => match (s.lockCohort l).bind s.cohort? with | some c => !gone.contains c.cluster | none => true
  (lockNeed (s.locks.filter fun l => l.core == core && stays l)).add
  { groups := (s.groups.filter fun g => onCore g.2 core &&
      (match s.cohort? g.2.cohort with | some c => !gone.contains c.cluster | none => true)).length
    cohorts := cs.length, shared := (cs.map (·.2.shared)).sum
    slots := (cs.map fun c => (s.heldSlots c.1).length).sum }

def Need.within (n : Need) : Bool :=
  decide (n.groups ≤ Config.groupsPerCore) && decide (n.cohorts ≤ Config.cohortsPerCore)
    && decide (n.shared ≤ Config.sharedPerCore) && decide (n.slots ≤ Config.tileSlots)
    && decide (n.locks ≤ Config.rangeLocks) && decide (n.frozen ≤ Config.readOnlyLocks)

/-- Some clusters fit together on a hardware cluster once those in `gone` have left it (R45, R46, R176, R197, R281). -/
def fits (s : State) (ks : List Nat) (hw : Nat) (gone : List Nat) : Bool :=
  (List.range 4).all fun m =>
    let n := s.needAt ks m
    n.cohorts == 0 || (n.add (s.loadOf (4 * hw + m) gone)).within

/-! ## The image pool (R55) -/

/-- The first free place of a pool for an image. -/
def poolFind (at_ size n : Nat) : Nat → Nat → List (Nat × Nat) → Option Nat
  | 0, _, _ => none
  | fuel + 1, va, alloc =>
    if at_ + size < va + n then none
    else
      match alloc.find? fun a => decide (a.1 < va + n) && decide (va < a.1 + a.2) with
      | some a => poolFind at_ size n fuel (roundUp (a.1 + a.2) 4096) alloc
      | none => some va

/-- Allocates images of given sizes one after another; none when the pool cannot hold them all. -/
def poolTake (p : Presence) : List Nat → Option (Presence × List Nat)
  | [] => some (p, [])
  | n :: ns =>
    match poolFind p.poolAt p.poolSize n (p.alloc.length + 1) (roundUp p.poolAt 4096) p.alloc with
    | none => none
    | some va => (poolTake { p with alloc := p.alloc ++ [(va, n)] } ns).map fun r => (r.1, va :: r.2)

/-- The sizes of a cohort's image and of its groups' images. -/
def imageSizes (s : State) (c : Cohort) : List Nat :=
  cohortImageSize c.shared :: c.groups.map fun gid =>
    match s.group? gid with | some g => imageSize g.budget g.stack | none => 4096

def needsImages (s : State) (k : Cluster) : List Nat :=
  (s.clusterCohorts k).flatMap fun c => if c.2.begun then [] else s.imageSizes c.2

/-- The image pool can hold a cluster's images. -/
def imagesFit (s : State) (k : Cluster) : Bool :=
  match s.site? k.ctx k.pkg with
  | none => false
  | some p => (poolTake p (s.needsImages k)).isSome

/-! ## The admission order (R47, R50, R322) -/

/-- Every group of a stopped cluster is saved (R366); its image may be in the second tier (R367). -/
def savedWhole (s : State) (k : Cluster) : Bool :=
  (s.clusterCohorts k).all fun c => c.2.core.isNone
    && (s.liveGroups c.2).all fun g => g.2.phase == .parked || g.2.phase == .swapped

/-- Some image of a cluster is in the second tier: it has to come back first (R367). -/
def swappedOut (s : State) (k : Cluster) : Bool :=
  (s.clusterCohorts k).any fun c => (s.liveGroups c.2).any fun g => g.2.phase == .swapped

/-- A cluster waits for residency: eligible, and not held up by its own save. -/
def waits (s : State) (k : Cluster) : Bool :=
  k.elig && (k.state == .waiting || (k.state == .stopped && s.savedWhole k))

/-- Higher priority, then the older launch, then the lower cluster number. -/
def before (s : State) (a b : Cluster) : Bool :=
  match s.launch? a.launch, s.launch? b.launch with
  | some x, some y =>
    decide (y.prio < x.prio) ||
      (x.prio == y.prio && (decide (x.age < y.age) || (x.age == y.age && decide (a.num < b.num))))
  | _, _ => false

/-- The clusters that wait on a package, in the admission order. -/
def waitingOn (s : State) (pkg : Nat) : List (Nat × Cluster) :=
  sortBy (fun a b => !s.before b.2 a.2) (s.clusters.filter fun k => k.2.pkg == pkg && s.waits k.2)

/-- The hardware clusters that a cluster may take (R46, R331). -/
def places (k : Cluster) : List Nat :=
  match k.die with
  | some d => (List.range 8).map (8 * d + ·)
  | none => (List.range 64).map (64 * k.pkg + ·)

/-- The clusters that are leaving a hardware cluster. -/
def leaving (s : State) (hw : Nat) : List Nat :=
  (s.clusters.filter fun k => k.2.hw == some hw && k.2.state == .stopped && !s.savedWhole k.2).map (·.1)

/-- The other clusters for which room on a hardware cluster is held (R47). -/
def heldFor (s : State) (k hw : Nat) : List Nat :=
  (s.clusters.filter fun w => w.1 != k && w.2.target == some hw && s.waits w.2).map (·.1)

/-- A cluster fits on a hardware cluster now, without taking room that is held for another (R45, R47). -/
def roomAt (s : State) (n : Nat) (k : Cluster) (hw : Nat) : Bool :=
  (match k.target with | some h => h == hw | none => true)
    && s.fits [n] hw [] && ((s.heldFor n hw).isEmpty || s.fits (n :: s.heldFor n hw) hw (s.leaving hw))

/-- The RESIDE record of a group that a replay has not consumed (R346). -/
def resideRecord (s : State) (ctx pkg : Nat) (subject : Word64) : Option Entry :=
  (List.range 256).findSome? fun c =>
    ((s.sourceRecords ctx pkg (2 * 65536 + c)).find? fun r => r.2.kind == 1 && r.2.operand == 4 && r.2.subject == subject).map (·.2)

/-- Where a cluster is to stand in REPLAY: by its records, or where it stood before a stop that the log does not hold. -/
def loggedPlace (s : State) (k : Cluster) : Option (Nat × List Nat) :=
  let gs := (s.clusterCohorts k).flatMap fun c => (s.liveGroups c.2).map (·.2)
  if k.unlogged then
    (gs.head?).map fun g => (g.core / 4, gs.map fun g => 64 * g.sched + g.slot)
  else
    (gs.mapM fun g => s.resideRecord k.ctx k.pkg (s.thread g 0xFF)).bind fun rs =>
      (rs.head?).map fun r =>
        (64 * k.pkg + field r.payload.toNat 0 8 / 4,
         rs.map fun r => 64 * field r.payload.toNat 8 2 + field r.payload.toNat 10 6)

/-- The hardware clusters that a cluster may take now: in REPLAY its records name the one (R346). -/
def placesNow (s : State) (k : Cluster) : List Nat :=
  if (s.scroll k.ctx k.pkg).mode == 2 then (match s.loggedPlace k with | some (hw, _) => [hw] | none => []) else places k

/-- A cluster can become resident now. -/
def admissible (s : State) (n : Nat) (k : Cluster) : Bool :=
  s.imagesFit k && !s.swappedOut k && (s.placesNow k).any (s.roomAt n k)

/-- A cluster has waited 100 microseconds (R50); a stopped one counts from the end of its save (log 38). -/
def waitedLong (s : State) (k : Cluster) : Bool := decide (k.waitFrom + Config.admissionTicks ≤ s.timebase.toNat)

/-- The first waiting cluster of a package has waited 100 microseconds: it holds back every later one, until it is resident,
whatever comes before it meanwhile (R50). -/
def holdsBack (s : State) (w : Nat × Cluster) : Bool :=
  w.2.blocking || (s.waitedLong w.2 && (s.waitingOn w.2.pkg).head?.any fun h => h.1 == w.1)

/-- Two clusters of the grid of one launch, which are admitted in their order (R322); the clusters of task groups are
dispatched one by one (R331). -/
def sameGrid (a b : Cluster) : Bool := a.launch == b.launch && a.die.isNone && b.die.isNone

end State

/-- After 100 microseconds the first waiting cluster of a package blocks the later ones (R50). -/
def execAdmissionWaitExpiry (s : State) : Out :=
  .next (((s.clusters.map fun k => k.2.pkg).eraseDups).foldl (fun t p =>
    match (s.waitingOn p).head? with
    | some w =>
      if !w.2.blocking && s.waitedLong w.2 then
        t.modCluster w.1 fun k => { k with blocking := true }
      else t
    | none => t) s)

namespace State

/-! ## Residency (R44, R51, R300) -/

/-- A placement: scheduler and group slot (R33, R298), as 64 · scheduler + slot. -/
structure Place where
  gid   : Nat
  core  : Nat
  sched : Nat
  slot  : Nat

/-- The groups of a cluster with the schedulers and slots that they take, cohort by cohort. -/
def placesOf (s : State) (hw : Nat) (k : Cluster) (binds : List Nat) : List Place :=
  let gs := (s.clusterCohorts k).flatMap fun c => (s.liveGroups c.2).map fun g => (g.1, 4 * hw + c.2.member)
  gs.zipIdx.map fun e =>
    let b := binds.getD e.2 0
    { gid := e.1.1, core := e.1.2, sched := b / 64 % 4, slot := b % 64 }

/-- Slots are free and schedulers have room (R33, R45). -/
def bindsFit (s : State) (ps : List Place) : Bool :=
  ps.all fun p =>
    let here := (s.groups.filter fun g => onCore g.2 p.core).map (·.2)
    !(here.any fun g => g.slot == p.slot) && (ps.filter fun q => q.core == p.core && q.slot == p.slot).length == 1
      && decide ((here.filter fun g => g.sched == p.sched).length
          + (ps.filter fun q => q.core == p.core && q.sched == p.sched).length ≤ Config.groupsPerScheduler)

/-- The SYNC records of a group's residency and of its stop (R341). -/
def resideEntry (s : State) (p : Place) : Entry :=
  { kind := 1, cls := 2, src := p.core % 256, operand := 4
    subject := match s.group? p.gid with | some g => s.thread g 0xFF | none => 0
    payload := BitVec.ofNat 64 (p.core % 256 + p.sched * 256 + p.slot * 1024) }

def stopEntry (s : State) (g : Group) : Entry :=
  { kind := 1, cls := 2, src := g.core % 256, subject := s.thread g 0xFF, operand := 5 }

/-- LOC of a RUNNING group (R298). -/
def runningLoc (p : Place) : Nat := p.core / 256 * 2 ^ 56 + p.core % 256 / 32 * 2 ^ 53 + p.core % 256 * 2 ^ 45 + p.slot * 2 ^ 39

/-- Writes bytes to an image of a context; a failing walk ends it with CONTEXT_IMAGE_FAULT (R55). -/
def writeImage (s : State) (ctx pkg va : Nat) (b : List Byte) : State :=
  match s.vmWrite ctx pkg .imageWrite va b with
  | (t, none) => t
  | (_, some e) => s.soon (.contextFatalFault ctx 0x82 (BitVec.ofNat 64 e.2) 0)

/-- The images of a cohort are allocated, its shared memory reads as zero (R273), and its groups' initial registers stand in
the images as far as their pages translate (R54, R55): a page that does not is met by the first fill or write-back (log 29). -/
def beginCohort (s : State) (pkg coh : Nat) : State :=
  match s.cohort? coh with
  | none => s
  | some c =>
    if c.begun then s
    else
      match (s.site? c.ctx pkg).bind fun p => poolTake p (s.imageSizes c) with
      | none => s
      | some (p, vas) =>
        let t := s.modSite c.ctx pkg fun _ => p
        let t := (t.clearFrom (placeShared coh) 0).modCohort coh fun c => { c with begun := true, image := vas.headD 0 }
        (c.groups.zipIdx).foldl (fun t e =>
          let t := t.modGroup e.1 fun g => { g with image := vas.getD (e.2 + 1) 0 }
          match t.group? e.1 with
          | some g => (t.vmWrite c.ctx pkg .imageWrite g.image (t.imageBytes e.1 g)).1
          | none => t) t

/-- The slots of a cohort's holders are taken on its new core, each one of the `free` ones, and loaded from the cohort image
(R281, R366). -/
def loadSlots (s : State) (core : Nat) (b : List Byte) : Nat → List Nat → List Nat → State
  | _, _, [] => s
  | i, free, h :: hs =>
    match s.holders.get? h with
    | none => s.loadSlots core b i free hs
    | some x =>
      let ns := free.take x.slots.length
      let t := (ns.zipIdx).foldl (fun t e => t.loadBytes (slotAt core e.1) (slice b (65536 * (i + e.2)) 65536)) s
      (t.modHolder h fun x => { x with slots := ns }).loadSlots core b (i + x.slots.length) (free.drop x.slots.length) hs

/-- The holders of a cohort. -/
def cohortHolders (s : State) (coh : Nat) : List Nat := (s.holders.filter fun h => h.2.cohort == coh).map (·.1)

/-- The table entries of a saved cohort move to the tables of its new cores (R197, R281): a shared-memory range to the core
that owns the memory, a scratchpad range to the cohort's own. -/
def placeLocks (s : State) (coh core hw : Nat) (members : List Nat) : State :=
  { s with locks := s.locks.map fun l =>
      let mine := match l.owner with
        | .rlock c _ => c == coh
        | .op o => (match s.op? o with
            | some q => (match q.work with | .matrix m => m.cohort == coh | _ => false)
            | none => false)
      if mine then
        match members.findIdx? (fun m => placeShared m == l.place) with
        | some m => { l with core := 4 * hw + m }
        | none => { l with core := core }
      else l }

/-- Restore of a cohort: shared memory, slots and table entries are back before any of its groups issues (R281, R366). -/
def restoreCohort (s : State) (pkg hw coh : Nat) (members : List Nat) : State :=
  match s.cohort? coh with
  | none => s
  | some c =>
    let core := 4 * hw + c.member
    if !c.saved then s.modCohort coh fun c => { c with core := some core }
    else
      let holders := s.cohortHolders coh
      let slots := (holders.filterMap fun h => (s.holders.get? h).map fun x => x.slots.length).sum
      let tail := roundUp (0x400 + c.shared) 4096
      match s.vmRead c.ctx pkg .imageRead c.image (tail + 65536 * slots) with
      | .fail _ va => s.soon (.contextFatalFault c.ctx 0x82 (BitVec.ofNat 64 va) 0)
      | .ok b =>
        let t := s.loadBytes (placeShared coh) (slice b 0x400 c.shared)
        let t := t.loadSlots core (b.drop tail) 0 (s.freeSlots core) holders
        let t := { t with ops := t.ops.update fun _ o =>
          match o.work with
          | .matrix m => if m.cohort == coh then { o with work := .matrix { m with core := core } } else o
          | _ => o }
        (t.placeLocks coh core hw members).modCohort coh fun c => { c with core := some core, saved := false }

/-- A group's registers and fibres as its image holds them; a parked fibre keeps the instruction that it waits in, and one that
waited for a ring issues again (R56, R57, R336, R405). No hint is kept, and its strokes re-form before any issues. -/
def reload (g : Group) (b : List Byte) : Group :=
  let h := rebuildStrokes (loadHead g b)
  let h := h.mapFibres fun f x => { x with instr := (g.fibre f).instr, skipBp := (g.fibre f).skipBp }
  { h.unpark (h.parkedFor .rgacq ||| h.parkedFor .rgpeek) with favour := none, fresh := true }

/-- A group reads its image; a page of it that does not translate ends the context, and the group has not come back. -/
def readBack (s : State) (gid : Nat) (g : Group) (pkg : Nat) : State × Bool :=
  match s.vmRead g.ctx pkg .imageRead g.image 0x1000,
        s.vmRead g.ctx pkg .imageRead (g.image + 0x1000 + 128 * g.budget) g.stack with
  | .ok b, .ok k => ((s.modGroup gid fun g => reload g b).loadBytes (placeStack gid) k, true)
  | .fail _ va, _ => (s.soon (.contextFatalFault g.ctx 0x82 (BitVec.ofNat 64 va) 0), false)
  | _, .fail _ va => (s.soon (.contextFatalFault g.ctx 0x82 (BitVec.ofNat 64 va) 0), false)

/-- A group of a resident cluster takes its place; a restored group reads its image, and on another core starts with an
empty map (R70, R405). -/
def seat (s : State) (p : Place) : State :=
  match s.group? p.gid with
  | none => s
  | some g =>
    let t := if g.core ≠ p.core then s.dropMap p.gid else s
    let r := if g.phase == .parked then t.readBack p.gid g (pkgOf p.core) else (t, true)
    let t := if !r.2 then r.1 else r.1.modGroup p.gid fun g =>
      { g with phase := .resident, core := p.core, sched := p.sched, slot := p.slot, age := s.cycle, lastIssue := s.cycle
               readyFrom := 0, urgent := false, evictable := false }
    { t with ops := t.ops.update fun _ o =>
        match o.work with
        | .name n => if o.gid == some p.gid then { o with work := .name { n with home := none, adrift := false } } else o
        | _ => o }

/-- The entry turns RUNNING, and what its mailbox holds is applied in the same step (R57, R300, R307). -/
def runEntry (s : State) (p : Place) : State :=
  match s.group? p.gid with
  | none => s
  | some g =>
    let i := nameIndex g.name
    match s.entry? g.ctx i with
    | none => s.tableFault g.ctx i
    | some e =>
      let items := s.mailItems g.ctx e
      let t := s.putEntry g.ctx i { e with state := stRunning, loc := runningLoc p, elig := false, qcount := 0 }
      let t := applyItems (fun t it => match t.group? p.gid with | some g => t.liveItem p.gid g it | none => t) t items
      t.nparkRelease p.gid

/-- A cluster becomes resident whole, in one cycle (R44, R46). -/
def reside (s : State) (n : Nat) (k : Cluster) (hw : Nat) (ps : List Place) : State :=
  let t := k.cohorts.foldl (fun t c => t.restoreCohort k.pkg hw c k.cohorts) s
  let t := k.cohorts.foldl (fun t c => t.beginCohort k.pkg c) t
  let t := ps.foldl seat t
  let t := t.modCluster n fun k =>
    { k with state := .resident, hw := some hw, target := none, blocking := false, unlogged := false
             since := s.cycle }
  let t := ps.foldl runEntry t
  k.cohorts.foldl barrierCheck t

/-- The placement that REPLAY asks for: that of the RESIDE records, or after a stop that the log does not hold the one
before it (R346). -/
def placedAsLogged (s : State) (k : Cluster) (ps : List Place) : Bool :=
  if k.unlogged then
    ps.all fun p => match s.group? p.gid with
      | some g => g.core == p.core && g.sched == p.sched && g.slot == p.slot
      | none => false
  else gateAll k.ctx k.pkg (ps.map s.resideEntry) s

/-- The groups of a cluster that have not ended. -/
def clusterGroups (s : State) (k : Cluster) : List (Nat × Group) := (s.clusterCohorts k).flatMap fun c => s.liveGroups c.2

/-- The clusters ahead of one in the admission order of its package. -/
def aheadOf (s : State) (n : Nat) (k : Cluster) : List (Nat × Cluster) := (s.waitingOn k.pkg).takeWhile fun w => w.1 != n

/-- Something other than room keeps a cluster from its place: a frozen context, a full scroll, a RESIDE record that is not next
(R344, R346, R348), or an earlier cluster of its own grid (R322). -/
def barred (s : State) (n : Nat) (k : Cluster) : Bool :=
  s.frozen k.ctx || !s.room k.ctx k.pkg (s.clusterGroups k).length || (s.aheadOf n k).any (fun w => sameGrid w.2 k)
    || ((s.scroll k.ctx k.pkg).mode == 2
        && !((s.loggedPlace k).any fun l => s.placedAsLogged k (s.placesOf l.1 k l.2)))

/-- A cluster that waits ahead lets later ones pass: it does not hold them back, and it does not fit, or it is not the first and
something other than room keeps it from its place (R50). A first cluster that fits is passed by none (log 38). -/
def letsPass (s : State) (w : Nat × Cluster) : Bool :=
  !s.holdsBack w && (!s.admissible w.1 w.2 || (!(s.aheadOf w.1 w.2).isEmpty && s.barred w.1 w.2))

/-- A cluster may become resident: every one ahead of it lets it pass, and none of those is of its own grid (R50, R322). -/
def mayPass (s : State) (n : Nat) (k : Cluster) : Bool :=
  (s.aheadOf n k).all fun w => s.letsPass w && !sameGrid w.2 k

/-- Admission of a waiting cluster to a hardware cluster. -/
def takeIn (s : State) (n : Nat) (k : Cluster) (hw : Nat) (binds : List Nat) : State :=
  let ps := s.placesOf hw k binds
  let es := ps.map s.resideEntry
  if !(s.waits k && !s.swappedOut k && (places k).contains hw && s.imagesFit k && s.roomAt n k hw && s.mayPass n k
      && binds.length == ps.length && s.bindsFit ps && !s.frozen k.ctx) then s
  else if !s.room k.ctx k.pkg ps.length then s.awaitFirst k.ctx k.pkg es
  else if s.placedAsLogged k ps then
    (if k.unlogged then s else logAll k.ctx k.pkg s es).reside n k hw ps
  else s

end State

def execClusterAdmission (ctx launch cluster hw : Nat) (binds : List Nat) (s : State) : Out :=
  let n := State.cohortKey (State.launchKey ctx launch) cluster
  .next (match s.cluster? n with
    | some k => s.takeIn n k hw binds
    | none => s)

namespace State

/-! ## The stop (R38, R47, R309) -/

/-- Every join of a group is registered at its home: until then its stroke is not parked in NJOIN (R313). -/
def joinsIn (s : State) (gid : Nat) : Bool :=
  s.ops.all fun o => match o.2.work with
    | .name n => o.2.gid != some gid || (match n.act with | .join _ _ => n.home.isSome | _ => true)
    | _ => true

/-- Every live fibre of a resident cluster is parked in NPARK or NJOIN, and there is one; a group that has ended and still
completes its work has none (R309). -/
def isIdle (s : State) (k : Cluster) : Bool :=
  let gs := s.clusterGroups k
  gs.any (fun e => e.2.live != 0) && gs.all fun e => e.2.phase == .ending || (e.2.phase == .resident && s.joinsIn e.1
    && e.2.live &&& ~~~(e.2.parkedFor .npark ||| e.2.parkedFor .njoin) == 0)

/-- The clusters that may be stopped on a hardware cluster for a waiting one, in their order: idle ones, then strictly lower
priority, lowest level and then youngest first (R47), those of a frozen context too. -/
def victims (s : State) (w : Cluster) (hw : Nat) : List Nat :=
  let prio := fun (k : Cluster) => match s.launch? k.launch with | some l => l.prio | none => 0
  let here := s.clusters.filter fun k => k.2.hw == some hw && k.2.state == .resident
  let idle := here.filter fun k => s.isIdle k.2
  let low := here.filter fun k => !s.isIdle k.2 && decide (prio k.2 < prio w)
  let order := fun (l : List (Nat × Cluster)) => sortBy (fun a b =>
    decide (prio a.2 < prio b.2) || (prio a.2 == prio b.2 && decide (b.2.since ≤ a.2.since))) l
  (order idle ++ order low).map (·.1)

/-- Takes victims in order until the waiting cluster fits. -/
def takeVictims (s : State) (ks : List Nat) (hw : Nat) : List Nat → List Nat → Option (List Nat)
  | gone, [] => if s.fits ks hw gone then some [] else none
  | gone, v :: vs => if s.fits ks hw gone then some [] else (s.takeVictims ks hw (v :: gone) vs).map (v :: ·)

/-- The clusters to be stopped on a hardware cluster so that a waiting one fits there: as many of its victims, in their order,
as that takes. -/
def stopPlan (s : State) (n : Nat) (w : Cluster) (hw : Nat) : List Nat :=
  (s.takeVictims (n :: s.heldFor n hw) hw (s.leaving hw) (s.victims w hw)).getD []

/-- The waiting cluster for which a cluster is to be stopped next: the first in the admission order that does not fit, whose
chosen hardware cluster this is, and whose next victim is this cluster (R47). -/
def stopFor (s : State) (c : Nat) (k : Cluster) : Option Nat :=
  match k.hw with
  | some hw =>
    ((s.waitingOn k.pkg).find? fun w => !s.admissible w.1 w.2 && s.imagesFit w.2 && !s.swappedOut w.2 && (s.placesNow w.2).contains hw
      && (match w.2.target with | some h => h == hw | none => true)
      && (s.stopPlan w.1 w.2 hw).head? == some c).map (·.1)
  | none => none

/-- A group stops: its entry turns MIGRATING, its map is marked evictable, and what its core holds whole is written to its
image (R51, R56, R70). A queued MACQ is withdrawn (R278). -/
def stopGroup (idle : Bool) (s : State) (gid : Nat) : State :=
  match s.group? gid with
  | none => s
  | some g =>
    if g.phase ≠ .resident then s
    else
      let t := s.modCore g.core fun k => { k with queue := k.queue.filter fun e => e.gid != gid }
      let t := t.modGroup gid fun g => { g with phase := .stopping, evictable := true }
      let t := t.modEntry g.ctx (nameIndex g.name) fun e => { e with state := stMigrating, loc := g.image, elig := !idle }
      let t := t.writeImage g.ctx (pkgOf g.core) g.image (t.imageHead g)
      t.writeImage g.ctx (pkgOf g.core) (g.image + 0x1000 + 128 * g.budget) (t.readBytes (placeStack gid) g.stack)

/-- Table entries leave their cores: they stand in no table until their cohort is restored (R281; log 28). -/
def liftLocks (s : State) (mine : LockOwner → Bool) : State :=
  { s with locks := s.locks.map fun l => if mine l.owner then { l with core := noCore } else l }

/-- The owner of a lock is a matrix operation of some cohorts that has not begun: its locks drop at the stop (R281). -/
def waitingLock (s : State) (cohorts : List Nat) : LockOwner → Bool
  | .rlock _ _ => false
  | .op o => match s.op? o with
    | some q => (match q.work with | .matrix m => cohorts.contains m.cohort && s.unjoined m | _ => false)
    | none => false

/-- A cluster stops whole at an instruction boundary (R38, R46). -/
def stopCluster (s : State) (c : Nat) (k : Cluster) (gs : List (Nat × Group)) (logged : Bool) : State :=
  let idle := s.isIdle k
  let t := if logged then logAll k.ctx k.pkg s (gs.map fun g => s.stopEntry g.2) else s
  let t := gs.foldl (fun t g => stopGroup idle t g.1) (t.liftLocks (t.waitingLock k.cohorts))
  t.modCluster c fun k => { k with state := .stopped, elig := !idle, unlogged := !logged }

/-- A group's next residency on its core and scheduler begins with this record (R341). -/
def isReturn (s : State) (g : Group) (r : Entry) : Bool :=
  r.kind == 1 && r.operand == 4 && r.source == 2 * 65536 + g.core % 256 && field r.payload.toNat 8 2 == g.sched
    && r.subject == s.thread g 0xFF

/-- What the log still holds for a group on its scheduler before it stops: the issues of its SCHED records before its next residency
there, since a run's record may come after the STOP, and the releases recorded before the STOP (R341, R346). -/
def issuesLeft (s : State) (g : Group) : Bool :=
  let pkg := pkgOf g.core
  let source := 65536 + schedSource g
  let all := (s.pendingAll g.ctx pkg).filter fun r => r.2.source == source && s.namedBy r.2 g || r.2.source == 2 * 65536 + g.core % 256
  let finished := match s.nextSched g.ctx pkg source with
    | some r => if schedLen r.2 ≤ s.runDone g.ctx pkg source then some r.1 else none
    | none => none
  (all.takeWhile fun r => !s.isReturn g r.2).any (fun r => r.2.kind == 8 && some r.1 != finished)
    || (all.takeWhile fun r => !r.2.sameEvent (s.stopEntry g)).any fun r => r.2.kind == 3 && r.2.source == source

/-- A stop that room for a waiting cluster asks for, or that REPLAY finds in the log: the latter at its logged point, once the
issues that came before it are done, and the former is not checked (R346). -/
def preempt (s : State) (c : Nat) (k : Cluster) : State :=
  let gs := (s.clusterGroups k).filter fun g => g.2.phase == .resident
  let replay := (s.scroll k.ctx k.pkg).mode == 2
  let logged := gateAll k.ctx k.pkg (gs.map fun g => s.stopEntry g.2) s && !(replay && gs.any fun g => s.issuesLeft g.2)
  let due := s.stopFor c k
  if k.state != .resident then s
  else if !s.room k.ctx k.pkg gs.length then
    if due.isSome then s.awaitFirst k.ctx k.pkg (gs.map fun g => s.stopEntry g.2) else s
  else
    match due with
    | some n => (s.stopCluster c k gs (!replay || logged)).modCluster n fun w => { w with target := k.hw }
    | none => if replay && logged && !gs.isEmpty then s.stopCluster c k gs true else s

/-! ## The save (R366) -/

/-- A range lies in the shared memory of a cohort. -/
def rangeIn (coh : Nat) : Range → Bool
  | .vm _ => false
  | .chip p _ => p == placeShared coh

/-- An engine operation reads or writes the shared memory or the slots of a cohort and has not completed (R179, R281). -/
def holdsUp (s : State) (coh : Nat) (o : Op) : Bool :=
  match o.work with
  | .copy c =>
    rangeIn coh c.dst || rangeIn coh c.src || (match c.bar with | some b => b.cohort == coh | none => false)
      || (match c.kind with
          | .fanout rs ack => ack.cohort == coh || rs.any fun r => r.cohort == coh || r.bar.cohort == coh
          | _ => false)
      || (match c.box, o.gid.bind s.group? with
          | some (.sp, _), _ => false
          | some (ms, A), some g => (s.clPlace g.cohort (ms == .cl) A).1 == coh
          | _, _ => false)
  | .matrix m => m.cohort == coh && !s.unjoined m
  | .xfer x => x.tile.1 == placeShared coh || x.bar.cohort == coh
  | _ => false

/-- The cohort image is written, its read-only locks travel (R179, R281), and the cohort leaves its core. A member whose groups have
all ended has no image any more (R55); its shared memory is kept as it is (R161; log 28). -/
def saveCohort (s : State) (coh : Nat) (c : Cohort) (pkg : Nat) : State :=
  if (s.liveGroups c).isEmpty then s.modCohort coh fun c => { c with core := none }
  else match s.vmWrite c.ctx pkg .imageWrite c.image (s.cohortBytes coh c) with
  | (_, some e) => s.contextFatal c.ctx 0x82 (BitVec.ofNat 64 e.2) 0
  | (t, none) =>
    let t := t.liftLocks fun w => match w with | .rlock c _ => c == coh | .op _ => t.waitingLock [coh] w
    let t := t.clearFrom (placeShared coh) 0
    t.modCohort coh fun c => { c with core := none, saved := true }

end State

/-- A cluster is stopped to make room (R38, R47). -/
def execPreemptStop (cid : Nat) (s : State) : Out :=
  .next (match s.cluster? cid with
    | some k => s.preempt cid k
    | none => s)

/-- Once the engines are done with it, a stopped cohort's image is written (R366). -/
def execCohortSave (coh : Nat) (s : State) : Out :=
  .next (match s.cohort? coh with
    | some c =>
      match s.cluster? c.cluster with
      | some k =>
        if k.state == .stopped && c.core.isSome && !(s.ops.any fun o => s.holdsUp coh o.2)
            && (s.liveGroups c).all (fun g => g.2.phase != .ending) then s.saveCohort coh c k.pkg
        else s
      | none => s
    | none => s)

/-- The cohort images of a group's cluster are all written (R366). -/
def State.clusterSaved (s : State) (g : Group) : Bool :=
  match (s.cohort? g.cohort).bind fun c => s.cluster? c.cluster with
  | some k => (s.clusterCohorts k).all fun c => c.2.core.isNone
  | none => false

/-- A dirty mapping of a stopped group is written back; the mapping stays, clean (R70). -/
def execRegisterWriteback (gid reg : Nat) (s : State) : Out :=
  .next (match s.group? gid with
    | some g =>
      match g.map.get? reg with
      | some m =>
        if g.phase == .stopping && m.dirty && s.clusterSaved g then
          (s.writeBack gid reg).modGroup gid fun g => { g with map := g.map.put reg { m with dirty := false } }
        else s
      | none => s
    | none => s)

namespace State

/-- The entry of a saved group turns PARKED with its image's address, and what its mailbox holds is applied (R51, R307). -/
def parkEntry (s : State) (gid : Nat) (g : Group) : State :=
  let i := nameIndex g.name
  match s.entry? g.ctx i with
  | none => s.tableFault g.ctx i
  | some e =>
    let items := s.mailItems g.ctx e
    let t := s.putEntry g.ctx i { e with state := stParked, loc := g.image, qcount := 0 }
    let t := t.modGroup gid fun g => { g with phase := .parked }
    applyItems (fun t it => match t.group? gid with | some g => t.savedItem gid g it | none => t) t items

/-- A cluster whose last group is saved waits again from now: its 100 microseconds begin at the end of its save (log 38). -/
def markSaved (s : State) (g : Group) : State :=
  match s.cohort? g.cohort with
  | none => s
  | some c =>
    match s.cluster? c.cluster with
    | some k => if s.savedWhole k then s.modCluster c.cluster fun k => { k with waitFrom := s.timebase.toNat } else s
    | none => s

end State

/-- No dirty mapping remains: the entry turns PARKED (R70, R307). -/
def execGroupWritebackComplete (gid : Nat) (s : State) : Out :=
  .next (match s.group? gid with
    | some g =>
      if g.phase == .stopping && g.map.all (fun m => !m.2.dirty) && s.clusterSaved g && s.mailReady gid g then
        (s.parkEntry gid g).markSaved g
      else s
    | none => s)

/-- Firmware moves a PARKED group's image to the second tier: the entry reads SWAPPED (R367). -/
def execImageSwapOut (gid : Nat) (s : State) : Out :=
  .next (match s.group? gid with
    | some g =>
      if g.phase == .parked then
        (s.modEntry g.ctx (nameIndex g.name) fun e => { e with state := stSwapped }).modGroup gid fun g => { g with phase := .swapped }
      else s
    | none => s)

/-- The image is back, and the entry is PARKED again (R367). -/
def execImageSwapIn (gid : Nat) (s : State) : Out :=
  .next (match s.group? gid with
    | some g => if g.phase == .swapped && s.mailReady gid g then s.parkEntry gid g else s
    | none => s)

/-! ## The last steps of a group's end (R152) -/

/-- Steps 4 and 5 of R152, once the group's work is done and its slots are released. -/
def execGroupEndFinalise (gid : Nat) (s : State) : Out :=
  .next (match s.group? gid with
    | some g =>
      if g.phase == .ending && !(s.ops.any fun o => State.ownWork gid o.2) && (s.holdersOf g).isEmpty then
        s.makeDead gid
      else s
    | none => s)

end Sys2Proof.Machine
end

