-- ==== Sys2Proof/Machine/Control.lean ====
section
/-! DEFINITION. Control instructions (R142 to R155): branches, jumps, calls, MEET, the ends of fibres and groups, and the
instructions that change only timing. -/

namespace Sys2Proof.Machine

/-- The target of a format C transfer: the 8-byte boundary at or below pc, plus the offset (R85). -/
def branchTarget (pc : Word64) (off : Word32) : Word64 := (pc &&& ~~~7) + off.signExtend 64

/-- The whole stroke goes to an address. -/
def State.goto (s : State) (u : Issue) (pc : Word64) : State := s.modGroup u.gid fun g => g.setPc u.mask pc

/-- A branch that splits its stroke: the hint names the part that rule 4 of R35 favours (R36). -/
def favoured (h : Hint) (taken fall : BitVec 32) : Option (BitVec 32) :=
  if taken = 0 ∨ fall = 0 then none
  else match h with | .none => none | .likely => some taken | .uniform => some taken | .unlikely => some fall

/-- A uniform transfer to the target of format C (R143). -/
def uniformBranch (i : Instr) (g : Guard) (off : Word32) (s : State) : Out :=
  onStroke i g s fun u _ _ s => s.goto u (branchTarget u.pc off)

def execBr (g : Guard) (hint : Hint) (off : Word32) (s : State) : Out := uniformBranch (.br g hint off) g off s

def execJmp (g : Guard) (hint : Hint) (off : Word32) (s : State) : Out := uniformBranch (.jmp g hint off) g off s

def execVbr (g : Guard) (hint : Hint) (off : Word32) (s : State) : Out :=
  onStroke (.vbr g hint off) g s fun u _ a s =>
    let fall := u.mask &&& ~~~a
    s.modGroup u.gid fun h =>
      let h := ((h.setPc a (branchTarget u.pc off)).setPc fall (u.pc + 8))
      let h := (h.asStroke a).asStroke fall
      match favoured hint a fall with
      | some m => { h with favour := some m }
      | none => if fall = 0 then h else { h with favour := none }

def execCall (g : Guard) (off : Word32) (s : State) : Out :=
  onStroke (.call g off) g s fun u grp _ s =>
    (s.writeS u grp 127 (u.pc + 8)).goto u (branchTarget u.pc off)

/-- A transfer to a register's value: FETCH_ALIGN when it is not a multiple of 4, with nothing done (R85, R145). -/
def registerTransfer (i : Instr) (g : Guard) (sa : SReg) (act : Issue → Group → State → State) (s : State) : Out :=
  onStroke i g s fun u grp _ s =>
    let t := grp.rdS sa
    if t.toNat % 4 ≠ 0 then s.trap u u.mask 0x04 t else (act u grp s).goto u t

def execJmpr (g : Guard) (sa : SReg) (s : State) : Out := registerTransfer (.jmpr g sa) g sa (fun _ _ s => s) s

def execCallr (g : Guard) (sa : SReg) (s : State) : Out :=
  registerTransfer (.callr g sa) g sa (fun u grp s => s.writeS u grp 127 (u.pc + 8)) s

/-- RET, which the counters see as a return (R145, R394). -/
def execRet (g : Guard) (sa : SReg) (s : State) : Out :=
  registerTransfer (.ret g sa) g sa (fun _ grp s => s.count grp.core grp.launch .returns 1) s

/-- MEET: the stroke parks at the MEET, which may open at once (R39, R149). -/
def execMeet (g : Guard) (s : State) : Out :=
  onStroke (.meet g) g s fun u _ _ s =>
    (s.modGroup u.gid fun h => (h.park u.mask .meet u.pc 0 (some (.meet g))).asStroke u.mask).meetRelease u.gid

/-- FEND: the active fibres end, and the others of the stroke go on (R31, R150). -/
def execFend (g : Guard) (s : State) : Out :=
  onStroke (.fend g) g s fun u _ a s => (s.advance u 8).endFibres u.gid a

/-- GEXIT: the group ends; a helper-only stroke ends only those helpers (R31, R151). -/
def execGexit (g : Guard) (sa : SReg) (s : State) : Out :=
  onStroke (.gexit g sa) g s fun u grp a s =>
    if grp.helperOnly a then (s.advance u 8).endFibres u.gid a else s.beginEnd u.gid (grp.rdS sa) .exit

/-- YIELD: the group's age becomes this cycle (R153). -/
def execYield (g : Guard) (s : State) : Out :=
  onStroke (.yield g) g s fun u _ _ s => (s.modGroup u.gid fun h => { h with age := s.cycle }).advance u 8

/-- SLEEP: parks until TIMEBASE + b (R154). DESIGN CHOICE (log 2): the record of a fibre that sleeps shows the program counter behind
the instruction, as it does for BARW, since SLEEP has nothing left to do. -/
def execSleep (g : Guard) (b : SOp) (s : State) : Out :=
  onStroke (.sleep g b) g s fun u grp _ s =>
    let n := b.value grp true
    let t := s.advance u 8
    if n = 0 then t
    else t.modGroup u.gid fun h =>
      (h.park u.mask .sleep (BitVec.ofNat 64 (s.deadlineAfter (State.pkgOf grp.core) n)) 0 none).asStroke u.mask

def execNop (g : Guard) (s : State) : Out := onStroke (.nop g) g s fun u _ _ s => s.advance u 8

end Sys2Proof.Machine
end

