-- ==== Sys2Proof/Machine/Copy.lean ====
section
/-! DEFINITION. The copy engine (R254 to R272): issue of CPY, CPYT, CPYM and CPYTEST, layout records, pieces, translation
faults and the fault queue, acknowledgements and completion. -/

namespace Sys2Proof.Machine

/-! ## Error codes (R267) -/

def copyImagePage : Nat := 0x10
def copyNoMemory : Nat := 0x11
def copyBarInvalid : Nat := 0x12
def copyBadLayout : Nat := 0x13
def copyBadAddress : Nat := 0x14
def copyMemberAbsent : Nat := 0x15
def copyBadLength : Nat := 0x16
def copyBoxRange : Nat := 0x17
def copyBoxLocked : Nat := 0x18

namespace State

/-! ## Issue (R254 to R258) -/

/-- Copies in flight from a core (R255). -/
def copiesFrom (s : State) (core : Nat) : Nat :=
  (s.ops.filter fun o => match o.2.work with | .copy c => c.core == core | _ => false).length

/-- The scope at which a copy acts: at least .clu when its destination or its barrier lies in .cl (R257). -/
def copyScope (scp : Scope) (cl : Bool) : Scope :=
  match cl, scp with
  | true, .grp => .clu
  | true, .coh => .clu
  | _, _ => scp

/-- A .vm range with an address above 56 bits or an end above 2^56 - 1 (R258). -/
def vmBad (cs : CopySpace) (A n : Nat) : Bool := cs == .vm && decide (2 ^ 56 < A + n || 2 ^ 56 ≤ A)

/-- A scratchpad address of another package, which engines do not reach (R381). -/
def farAway (pkg : Nat) (cs : CopySpace) (A : Nat) : Bool := cs == .sp && field A 40 8 != pkg % 256

/-- A flag word in another package's window, which engines do not reach (R381). -/
def farFlag (pkg : Nat) (flag : Option (Nat × Word64)) : Bool :=
  match flag with | some (A, _) => farAway pkg .sp A | none => false

/-- The failures that are found after issue: the length first, then addresses (R258, R381). -/
def lateCode (pkg L : Nat) (ranges : List (CopySpace × Nat)) (flag : Option (Nat × Word64)) : Option Nat :=
  if 2 ^ 32 ≤ L then some copyBadLength
  else if L ≠ 0 ∧ ranges.any (fun r => vmBad r.1 r.2 L || farAway pkg r.1 r.2) then some copyBadAddress
  else if farFlag pkg flag then some copyBadAddress
  else none

/-- The on-chip ranges of a list of named ranges; only a length register of zero skips them (R258). -/
def chipRanges (l : List (CopySpace × Nat)) (L : Nat) : List (Space × Nat × Nat) :=
  if L = 0 then [] else l.filterMap fun r => r.1.chip?.map fun ms => (ms, r.2, L % 2 ^ 32)

/-- Checks 1 and 2 of R258 over on-chip ranges and aligned addresses, in order. -/
def issueChecks (s : State) (u : Issue) (g : Group) (ranges : List (Space × Nat × Nat)) (aligned : List (Nat × Nat))
    (go : State → State) : State :=
  match s.firstBad u.gid g ranges with
  | some (c, A) => s.raise u g u.mask c A
  | none =>
    match aligned.find? fun a => a.1 % a.2 != 0 with
    | some a => s.trap u u.mask 0x22 (BitVec.ofNat 64 a.1)
    | none => go s

/-- Checks 3 and 4 of R258, and entry. -/
def issueLocked (s : State) (u : Issue) (g : Group) (sd : SReg) (c : CopyOp) (locks : List LockReq) : State :=
  match s.lockTrap locks with
  | some A => s.trap u u.mask 0x20 (BitVec.ofNat 64 A)
  | none => if s.lockWait locks then s.parkEngine u else s.enterOp u g sd (.copy c) locks 16

/-- The barrier of a copy as a range and an aligned address, and its flag word. -/
def barRange (cb : Option (Bool × Nat)) : List (Space × Nat × Nat) :=
  match cb with | some (cl, A) => [(if cl then .cl else .sh, A, 32)] | none => []
def flagRange (flag : Option (Nat × Word64)) : List (Space × Nat × Nat) :=
  match flag with | some (A, _) => [(.sp, A, 8)] | none => []
def alignedBar (cb : Option (Bool × Nat)) : List (Nat × Nat) := match cb with | some (_, A) => [(A, 32)] | none => []
def alignedFlag (flag : Option (Nat × Word64)) : List (Nat × Nat) := match flag with | some (A, _) => [(A, 8)] | none => []

end State

open State

/-- The values of a barrier operand and of a flag operand at issue (R255, R259). -/
def Group.cbValue (g : Group) (cb : Option CbRef) : Option (Bool × Nat) := cb.map fun c => (c.cl, (g.rdS c.reg).toNat)
def Group.flagValue (g : Group) (flag : Option SReg) : Option (Nat × Word64) :=
  flag.map fun r => ((g.rdS r).toNat, g.rdS (r + 1))

/-- What comes before the checks of every copy: a stroke of helpers issues nothing (R254), and a core with 64 copies in
flight makes it wait (R255). -/
def copyStroke (i : Instr) (gd : Guard) (s : State) (body : Issue → Group → BitVec 32 → State → State) : Out :=
  onStroke i gd s fun u g a s =>
    if g.helperOnly a then s.advance u i.len
    else if Config.copiesPerCore ≤ s.copiesFrom g.core then s.parkEngine u
    else body u g a s

def execCpy (g : Guard) (dsp ssp : CopySpace) (scp : Scope) (sd dA sA lA : SReg) (cb : Option CbRef) (flag : Option SReg)
    (s : State) : Out :=
  copyStroke (.cpy g dsp ssp scp sd dA sA lA cb flag) g s fun u grp a s =>
    let D := (grp.rdS dA).toNat
    let S := (grp.rdS sA).toNat
    let L := (grp.rdS lA).toNat
    let n := L % 2 ^ 32
    let bar := grp.cbValue cb
    let fl := grp.flagValue flag
    s.issueChecks u grp (chipRanges [(dsp, D), (ssp, S)] L ++ barRange bar ++ flagRange fl) (alignedBar bar ++ alignedFlag fl)
      fun s =>
        let req := fun (cs : CopySpace) A kind => match cs.chip? with
          | some ms => s.lockReq u.gid grp ms A n kind | none => []
        s.issueLocked u grp sd
          { kind := .linear, scope := copyScope scp (dsp == .cl || cb.any (·.cl)), core := grp.core
            dst := s.rangeOf u.gid grp dsp D n, src := s.rangeOf u.gid grp ssp S n, len := n
            bar := bar.map fun b => s.barAt grp b.1 b.2, flag := fl, thread := s.thread grp (grp.leader a)
            code := lateCode (pkgOf grp.core) L [(dsp, D), (ssp, S)] fl }
          (req dsp D .write ++ req ssp S .read)

/-- The coordinates of a CPYT (R261, R262). -/
def Group.coords (g : Group) (sC : SReg) : List Int := (coordRegs sC).map fun r => signed 32 (g.rdS r).toNat

/-- The bytes of a layout record (R261). -/
def layoutBytes : Nat := 256

def execCpyt (g : Guard) (scatter : Bool) (box : WordSpace) (scp : Scope) (sd xA tA cA : SReg) (cb : Option CbRef)
    (flag : Option SReg) (s : State) : Out :=
  copyStroke (.cpyt g scatter box scp sd xA tA cA cb flag) g s fun u grp a s =>
    let base := (grp.rdS tA).toNat
    let record := (grp.rdS (tA + 1)).toNat
    let X := (grp.rdS xA).toNat
    let bar := grp.cbValue cb
    let fl := grp.flagValue flag
    s.issueChecks u grp (barRange bar ++ flagRange fl) (alignedBar bar ++ alignedFlag fl) fun s =>
      s.issueLocked u grp sd
        { kind := .tensor scatter record (grp.coords cA) none
          scope := copyScope scp ((box == .cl && !scatter) || cb.any (·.cl)), core := grp.core
          dst := .vm base, src := .vm base, len := 0, bar := bar.map fun b => s.barAt grp b.1 b.2, flag := fl
          box := some (box, X), thread := s.thread grp (grp.leader a)
          boxWindow := if box == .sp then s.windowSize grp.ctx (field X 40 8) (field X 37 3) else 0
          code := if vmBad .vm base 1 || vmBad .vm record layoutBytes || farFlag (pkgOf grp.core) fl
            || (box == .sp && farAway (pkgOf grp.core) .sp X) then some copyBadAddress else none } []

namespace State

/-- The members of a group's cluster, in order. -/
def membersOf (s : State) (g : Group) : List Nat :=
  match (s.cohort? g.cohort).bind fun c => s.cluster? c.cluster with | some k => k.cohorts | none => [g.cohort]

/-- An offset in a member's shared memory, in the .sh layout (R264). -/
def memberOk (s : State) (coh A n : Nat) : Bool :=
  match s.cohort? coh with | some c => decide (A < 2 ^ 19) && decide (A + n ≤ c.shared) | none => false

end State

/-- A selected entry of a fan-out record: member, destination offset, barrier offset (R264). -/
structure FanEntry where
  cohort : Nat
  member : Nat
  off    : Nat
  bar    : Nat

/-- The selected entries of a 32-byte record. -/
def fanEntries (members : List Nat) (mask : BitVec 4) (record : Nat) : List FanEntry :=
  (List.range 4).filterMap fun m =>
    match mask.getLsbD m, members[m]? with
    | true, some c => some ⟨c, m, field record (64 * m) 32, field record (64 * m + 32) 32⟩
    | _, _ => none

/-- The first offset of the entries that does not lie in its member's shared memory. -/
def State.fanBad (s : State) (es : List FanEntry) (L : Nat) : Option Nat :=
  (es.flatMap fun e => (if L = 0 then [] else [(e.cohort, e.off, L % 2 ^ 32)]) ++ [(e.cohort, e.bar, 32)]).find? (fun r =>
    !s.memberOk r.1 r.2.1 r.2.2) |>.map (·.2.1)

/-- CPYM once its record has been read: checks of the entries, locks, and entry (R258, R264). -/
def State.fanIssue (s : State) (u : Issue) (g : Group) (a : BitVec 32) (ssp : CopySpace) (sd : SReg) (S L A : Nat)
    (es : List FanEntry) : State :=
  let n := L % 2 ^ 32
  match s.fanBad es L with
  | some x => s.trap u u.mask 0x23 (BitVec.ofNat 64 x)
  | none =>
    s.issueChecks u g [] (es.map (fun e => (e.bar, 32)) ++ [(A, 32)]) fun s =>
      let write := fun e : FanEntry => LockReq.mk (placeShared e.cohort + e.off) n .write
        (match s.cohort? e.cohort with | some c => c.core.getD g.core | none => g.core) e.off
      let src := match ssp.chip? with | some ms => s.lockReq u.gid g ms S n .read | none => []
      let rs := es.map fun e => Receiver.mk e.cohort e.off ⟨e.cohort, true, e.member * 2 ^ 19 + e.bar⟩ false
      s.issueLocked u g sd
        { kind := .fanout (if n = 0 then [] else rs) ⟨g.cohort, false, A⟩, scope := .clu, core := g.core
          dst := .vm 0, src := s.rangeOf u.gid g ssp S n, len := n
          thread := s.thread g (g.leader a), code := lateCode (pkgOf g.core) L [(ssp, S)] none }
        (if n = 0 then [] else es.map write ++ src)

/-- CPYM (R264): an absent member or an empty mask completes at once; otherwise the record is read as a load. -/
def execCpym (g : Guard) (ssp : CopySpace) (sd fA sA lA aA : SReg) (mask : BitVec 4) (s : State) : Out :=
  copyStroke (.cpym g ssp sd fA sA lA aA mask) g s fun u grp a s =>
    let members := s.membersOf grp
    let R := (grp.rdS fA).toNat
    let S := (grp.rdS sA).toNat
    let L := (grp.rdS lA).toNat
    let A := (grp.rdS aA).toNat
    let absent := (List.range 4).any fun m => mask.getLsbD m && decide (members.length ≤ m)
    if absent ∨ mask = 0 then
      s.enterOp u grp sd (.copy
        { kind := .fanout [] ⟨grp.cohort, false, A⟩, scope := .clu, core := grp.core, dst := .vm 0, src := .vm 0, len := 0
          thread := s.thread grp (grp.leader a), code := if absent then some copyMemberAbsent else none }) [] 16
    else
      s.issueChecks u grp ([(.sh, R, 32)] ++ chipRanges [(ssp, S)] L ++ [(.sh, A, 32)]) [(R, 32)] fun s =>
        match s.checkAccess u.gid grp .sh R 32 false false with
        | .error c => s.raise u grp u.mask c R
        | .ok key => s.fanIssue u grp a ssp sd S L A (fanEntries members mask (s.readNat key 32))

/-- CPYTEST (R268). -/
def execCpytest (g : Guard) (spd : UPred) (sa : SReg) (s : State) : Out :=
  onStroke (.cpytest g spd sa) g s fun u grp _ s =>
    let busy := match (grp.pending.get? sa.toNat).bind s.op? with
      | some op => (match op.work with | .copy _ => true | _ => false)
      | none => false
    (s.writeSp u grp spd (!busy)).advance u 8

/-! ## Translation by the engines (R164 to R166) -/

/-- What a copy's access to a page meets. -/
inductive CopyWalk where
  | park | fatal
  | err (code : Nat)
  | ok (pa : Nat)
  deriving DecidableEq, Repr

namespace State

/-- A copy's column of R164, and R267's NO_MEMORY. -/
def copyOutcome (s : State) (w : Walk) : CopyWalk :=
  match w with
  | .badVa => .err copyBadAddress
  | .invalid => .park
  | .malformed => .fatal
  | .imagePage => .err copyImagePage
  | .noPermission => .fatal
  | .ok pa => if absentTier s pa then .err copyNoMemory else .ok pa

/-- The leaf that the tables hold now for a page. -/
def leafNow (s : State) (ctx pkg va : Nat) : Leaf :=
  match s.site? ctx pkg with | some p => walkFrom s va levels p.root | none => .invalid

def dropXlat (s : State) (ctx pkg page : Nat) : State :=
  { s with xlat := s.xlat.filter fun e => !(e.ctx == ctx && e.pkg == pkg && e.page == page) }

/-- A walk that the translation caches remember: only entries with V = 1 are held (R166). -/
def freshWalk (s : State) (ctx pkg : Nat) (w : Who) (va : Nat) : State × CopyWalk :=
  let t := s.dropXlat ctx pkg (va / 65536)
  match s.leafNow ctx pkg va with
  | .leaf e sh => ({ t with xlat := ⟨ctx, pkg, va / 65536, e, sh⟩ :: t.xlat }, s.copyOutcome (s.walk ctx pkg w va))
  | _ => (t, s.copyOutcome (s.walk ctx pkg w va))

/-- Translates the page of an address: where a cache still holds another entry than the tables, a copy may use either
(R166; log 15). -/
def xlate (s : State) (ctx pkg : Nat) (w : Who) (va : Nat) : State × CopyWalk :=
  match s.xlat.find? fun e => e.ctx == ctx && e.pkg == pkg && e.page == va / 65536 with
  | none => s.freshWalk ctx pkg w va
  | some e =>
    if s.leafNow ctx pkg va = .leaf e.leaf e.shift then (s, s.copyOutcome (s.walk ctx pkg w va))
    else
      let (v, t) := s.free
      if v.getLsbD 0 then (t, t.copyOutcome (leafOutcome w (t.busy ctx) va e.leaf e.shift))
      else t.freshWalk ctx pkg w va

end State

/-- The frames of some pages, or the first page that fails. -/
inductive Frames where
  | fail (page : Nat) (why : CopyWalk)
  | ok (t : Tbl Nat)

namespace State

/-- Translates pages in order. -/
def frames (s : State) (ctx pkg : Nat) (w : Who) : List Nat → Tbl Nat → State × Frames
  | [], acc => (s, .ok acc)
  | p :: ps, acc =>
    match s.xlate ctx pkg w (p * 65536) with
    | (t, .ok pa) => t.frames ctx pkg w ps (acc.put p pa)
    | (t, why) => (t, .fail p why)

/-- The memory key of a virtual address under translated pages. -/
def frameKey (t : Tbl Nat) (va : Nat) : Nat := t.read 0 (va / 65536) + va % 65536

/-- The pages of some addresses. -/
def pagesOf (l : List Nat) : List Nat := (l.map (· / 65536)).eraseDups

end State

/-! ## Layout records (R261) -/

/-- The fill bytes of an element. -/
def fillBytes (ty : ElemTy) (z kind pattern : Nat) : List Byte :=
  match kind, ty.fmt? with
  | 1, some F => toBytes z F.nan
  | 2, _ => toBytes z pattern
  | _, _ => zeros z

def elemSize : ElemTy → Nat
  | .i32 => 2 | .n32 => 2 | .f32 => 2 | .f16 => 1 | .bf16 => 1 | .e4m3 => 0 | .e5m2 => 0 | .e2m1 => 0

def dimOf (r i : Nat) : Dim :=
  let b := 8 * (32 + 16 * i)
  { extent := field r b 32, box := field r (b + 32) 16, stride := signed 64 (field r (b + 64) 64) }

/-- The floating formats that have a canonical NaN. -/
def nanFormat : ElemTy → Bool
  | .f32 => true | .f16 => true | .bf16 => true | .e4m3 => true | .e5m2 => true | _ => false

def rotPeriod (code : Nat) : Nat := match code with | 1 => 4 | 2 => 8 | 3 => 16 | _ => 0

def boxCount (ds : List Dim) : Nat := ds.foldl (fun n d => n * d.box) 1

/-- Reads a record; none is BAD_LAYOUT. `coords` is the number of coordinate registers that exist. -/
def readLayout (r coords : Nat) : Option Layout :=
  let rank := field r 16 8
  let rot := field r 48 8
  let kind := field r 40 8
  match elemTy? (field r 24 8) with
  | none => none
  | some ty =>
    let z : Nat := 2 ^ elemSize ty
    let ds := (List.range rank).map (dimOf r)
    let strides := (ds.drop 1).all fun d => d.stride % (z : Int) == 0
    let first := match ds with | d :: _ => d.stride == (z : Int) | [] => false
    let line := (match ds with | d :: _ => d.box | [] => 0) * z
    if field r 0 16 ≠ 0x5A17 ∨ rank = 0 ∨ 10 < rank ∨ field r 32 8 ≠ elemSize ty ∨ 2 < kind
        ∨ (kind = 1 ∧ !nanFormat ty) ∨ 3 < rot ∨ ds.any (fun d => d.extent == 0 || d.box == 0) ∨ !first ∨ !strides
        ∨ 2 ^ 32 ≤ boxCount ds * z ∨ (rot ≠ 0 ∧ line % (8 * rotPeriod rot) ≠ 0) ∨ coords < rank then none
    else some { ty := ty, z := z, fill := fillBytes ty z kind (field r 64 64), rot := rotPeriod rot, dims := ds }

namespace Layout

/-- The bytes of the whole box. -/
def boxBytes (L : Layout) : Nat := boxCount L.dims * L.z

/-- The tensor index of box element `e`, dimension 0 fastest. -/
def index : List Dim → List Int → Nat → List Int
  | d :: ds, c :: cs, e => (c + (e % d.box : Nat)) :: index ds cs (e / d.box)
  | _, _, _ => []

/-- The address of element `e` of the box in the tensor, when it is in range (R263). -/
def element (L : Layout) (base : Nat) (coords : List Int) (e : Nat) : Option Int :=
  let t := index L.dims coords e
  let pairs := L.dims.zip t
  if pairs.all fun p => decide (0 ≤ p.2) && decide (p.2 < (p.1.extent : Int)) then
    some ((base : Int) + pairs.foldl (fun a p => a + p.2 * p.1.stride) 0)
  else none

/-- The offset of element `e` in the box after rotation (R263). -/
def boxOffset (L : Layout) (e : Nat) : Nat :=
  let o := e * L.z
  let ln := (match L.dims with | d :: _ => d.box | [] => 1) * L.z
  if L.rot = 0 then o
  else
    let line := o / ln
    line * ln + (o % ln + 8 * (line % L.rot)) % ln

/-- The element whose bytes stand at an offset of the box: the inverse of `boxOffset`. -/
def elementAt (L : Layout) (off : Nat) : Nat :=
  let ln := (match L.dims with | d :: _ => d.box | [] => 1) * L.z
  if L.rot = 0 then off / L.z
  else
    let line := off / ln
    (line * ln + (off % ln + ln - 8 * (line % L.rot) % ln) % ln) / L.z

/-- The lowest and the highest in-range index of each dimension give the extreme addresses; none when no element is in
range. -/
def extremes : List Dim → List Int → Option (Int × Int)
  | d :: ds, c :: cs =>
    let lo := max c 0
    let hi := min (c + (d.box : Int) - 1) ((d.extent : Int) - 1)
    if hi < lo then none
    else (extremes ds cs).map fun r => (r.1 + min (lo * d.stride) (hi * d.stride), r.2 + max (lo * d.stride) (hi * d.stride))
  | _, _ => some (0, 0)

/-- Every in-range element lies below 2^56 (R258). -/
def inSpace (L : Layout) (base : Nat) (coords : List Int) : Bool :=
  match extremes L.dims coords with
  | none => true
  | some (lo, hi) => decide (0 ≤ (base : Int) + lo) && decide ((base : Int) + hi + (L.z : Int) ≤ (2 ^ 56 : Nat))

/-- The in-range elements with their addresses. -/
def elements (L : Layout) (base : Nat) (coords : List Int) : List (Nat × Nat) :=
  (List.range (boxCount L.dims)).filterMap fun e => (L.element base coords e).map fun a => (e, a.toNat)

end Layout

/-! ## Pieces (R260, R263, R265) -/

/-- The piece number by which a layout-record read parks. -/
def recordPiece : Nat := 2 ^ 64

/-- The sector pieces of `n` bytes at an offset. -/
def sectorPieces (off n : Nat) : Nat := if n = 0 then 0 else (off % 32 + n + 31) / 32

/-- The bytes of the range that sector piece `k` holds: first byte and end. -/
def sectorSpan (off n k : Nat) : Nat × Nat := (32 * k - off % 32, min n (32 * (k + 1) - off % 32))

def Range.off : Range → Nat | .vm a => a | .chip _ o => o

namespace CopyOp

/-- The pieces of a copy by number: for a fan-out, 2^32 · receiver + sector; for a scatter, the number of the sector. -/
def pieces (c : CopyOp) : List Nat :=
  match c.kind with
  | .linear => List.range (sectorPieces c.dst.off c.len)
  | .fanout rs _ =>
    (List.range rs.length).flatMap fun r =>
      (List.range (sectorPieces (rs.getD r ⟨0, 0, ⟨0, false, 0⟩, false⟩).off c.len)).map (2 ^ 32 * r + ·)
  | .tensor scatter _ coords L =>
    match L with
    | none => []
    | some L =>
      if c.box.isSome then []
      else if scatter then
        ((L.elements c.dst.off coords).flatMap fun e => [e.2 / 32, (e.2 + L.z - 1) / 32]).eraseDups
      else List.range (sectorPieces c.dst.off c.len)

/-- The pieces for receiver `r`. -/
def piecesFor (c : CopyOp) (r : Nat) : List Nat := c.pieces.filter fun k => k / 2 ^ 32 == r

/-- Every piece has been written. -/
def written (c : CopyOp) : Bool :=
  (match c.kind with | .tensor _ _ _ L => L.isSome && c.box.isNone | _ => true) && c.pieces.all c.done.contains

/-- Source and destination overlap as named (R260). -/
def overlaps (c : CopyOp) : Bool :=
  match c.src, c.dst with
  | .vm a, .vm b => decide (a < b + c.len) && decide (b < a + c.len)
  | .chip p a, .chip q b => p == q && decide (a < b + c.len) && decide (b < a + c.len)
  | _, _ => false

/-- The whole source is read before a byte of it is written (R260), or each of its pages is read once (R265). -/
def buffered (c : CopyOp) : Bool := match c.kind with | .linear => c.overlaps | .fanout _ _ => true | _ => false

/-- The barrier that counts a piece. -/
def counter (c : CopyOp) (k : Nat) : Option BarAt :=
  match c.kind with
  | .fanout rs _ => rs[k / 2 ^ 32]?.map (·.bar)
  | _ => c.bar

end CopyOp

/-- What the source of a piece answers: its bytes, or the page that fails. -/
inductive Fetched where
  | fail (page : Nat) (why : CopyWalk)
  | ok (bytes : List Byte)

namespace State

/-- Reads source addresses of a copy. -/
def fetchAddrs (s : State) (ctx pkg : Nat) (src : Range) (l : List Nat) : State × Fetched :=
  match src with
  | .chip p _ => (s, .ok (l.map fun a => s.readByte (p + a)))
  | .vm _ =>
    match s.frames ctx pkg .copyRead (pagesOf l) [] with
    | (t, .ok fr) => (t, .ok (l.map fun a => t.readByte (frameKey fr a) ^^^ t.pad ctx (frameKey fr a)))
    | (t, .fail p why) => (t, .fail p why)

/-- The source's part in a 64 KiB page, as addresses. -/
def pagePart (c : CopyOp) (page : Nat) : List Nat :=
  let lo := max c.src.off (page * 65536)
  let hi := min (c.src.off + c.len) ((page + 1) * 65536)
  (List.range (hi - lo)).map (lo + ·)

/-- Reads pages of the source that are not yet buffered, each once. -/
def fillPages (s : State) (ctx pkg o : Nat) : CopyOp → List Nat → State × CopyOp × Option (Nat × CopyWalk)
  | c, [] => (s, c, none)
  | c, p :: ps =>
    if (c.buffer.get? p).isSome then s.fillPages ctx pkg o c ps
    else
      match s.fetchAddrs ctx pkg c.src (pagePart c p) with
      | (t, .ok b) => t.fillPages ctx pkg o { c with buffer := c.buffer.put p b } ps
      | (t, .fail q why) => (t, c, some (q, why))

/-- A byte of a buffered source. -/
def buffered (c : CopyOp) (a : Nat) : Byte :=
  (c.buffer.read [] (a / 65536)).getD (a - max c.src.off (a / 65536 * 65536)) 0

/-- The source bytes of a piece at source addresses, through the buffer where the copy has one. -/
def fetchPiece (s : State) (ctx pkg o : Nat) (c : CopyOp) (l : List Nat) : State × CopyOp × Fetched :=
  if c.buffered then
    let need := match c.kind with
      | .linear => pagesOf ((List.range c.len).map (c.src.off + ·))
      | _ => match c.src with | .vm _ => pagesOf l | .chip _ _ => pagesOf ((List.range c.len).map (c.src.off + ·))
    match s.fillPages ctx pkg o c need with
    | (t, d, none) => (t, d, .ok (l.map (buffered d)))
    | (t, d, some (p, why)) => (t, d, .fail p why)
  else
    match s.fetchAddrs ctx pkg c.src l with
    | (t, f) => (t, c, f)

/-- The bytes that a piece writes: for a gather, fill outside the tensor (R263). -/
def gatherAddrs (c : CopyOp) (L : Layout) (coords : List Int) (lo hi : Nat) : List (Option Nat × Byte) :=
  (List.range (hi - lo)).map fun i =>
    let e := L.elementAt (lo + i)
    let k := lo + i - L.boxOffset e
    match L.element c.src.off coords e with
    | some a => (some (a.toNat + k), 0)
    | none => (none, L.fill.getD k 0)

/-- Fills the bytes that lie in the tensor from what was fetched, in order. -/
def weave : List (Option Nat × Byte) → List Byte → List Byte
  | [], _ => []
  | (some _, _) :: r, b :: bs => b :: weave r bs
  | (some _, x) :: r, [] => x :: weave r []
  | (none, x) :: r, bs => x :: weave r bs

end State

/-- What a piece is to write: where (an offset of the destination), the bytes, and how many of them it counts. -/
structure Write where
  off   : Nat
  bytes : List Byte

namespace State

/-- The elements of a scatter that reach a sector. -/
def reaching (L : Layout) (base : Nat) (coords : List Int) (sector : Nat) : List (Nat × Nat) :=
  (L.elements base coords).filter fun e => e.2 / 32 == sector || (e.2 + L.z - 1) / 32 == sector

/-- Two elements reach one byte. -/
def collide (L : Layout) (es : List (Nat × Nat)) : Bool :=
  es.any fun a => es.any fun b => a.1 != b.1 && decide (a.2 < b.2 + L.z) && decide (b.2 < a.2 + L.z)

/-- Elements in the order in which they are written: unordered where they collide (R263; log 10). -/
def elementOrder (s : State) (L : Layout) (es : List (Nat × Nat)) : List (Nat × Nat) :=
  if collide L es then (((Config.laneOrder s.freeTick).filterMap fun i => es[i]?) ++ es).eraseDups else es

/-- Piece `k` has been written in such an order: the next one draws another. -/
def spendOrder (s : State) (c : CopyOp) (k : Nat) : State :=
  match c.kind with
  | .tensor true _ coords (some L) =>
    if collide L (reaching L c.dst.off coords k) then { s with freeTick := s.freeTick + 1 } else s
  | _ => s

/-- The bytes of an element that lie in a sector: address, and the offset in the box. -/
def elementBytes (L : Layout) (sector : Nat) (e : Nat × Nat) : List (Nat × Nat) :=
  ((List.range L.z).filter fun i => (e.2 + i) / 32 == sector).map fun i => (e.2 + i, L.boxOffset e.1 + i)

/-- Fetches what piece `k` writes. -/
def pieceWrites (s : State) (ctx pkg o : Nat) (c : CopyOp) (k : Nat) : State × CopyOp × (Except (Nat × CopyWalk) (List Write)) :=
  match c.kind with
  | .tensor true _ coords (some L) =>
    let parts := (s.elementOrder L (reaching L c.dst.off coords k)).map (elementBytes L k)
    match s.fetchAddrs ctx pkg c.src ((parts.flatMap id).map fun x => c.src.off + x.2) with
    | (t, .ok bs) => (t, c, .ok (((parts.flatMap id).zip bs).map fun x => ⟨x.1.1, [x.2]⟩))
    | (t, .fail p why) => (t, c, .error (p, why))
  | .tensor false _ coords (some L) =>
    let (lo, hi) := sectorSpan c.dst.off c.len k
    let l := gatherAddrs c L coords lo hi
    match s.fetchAddrs ctx pkg c.src (l.filterMap (·.1)) with
    | (t, .ok bs) => (t, c, .ok [⟨c.dst.off + lo, weave l bs⟩])
    | (t, .fail p why) => (t, c, .error (p, why))
  | .fanout rs _ =>
    let off := (rs.getD (k / 2 ^ 32) ⟨0, 0, ⟨0, false, 0⟩, false⟩).off
    let (lo, hi) := sectorSpan off c.len (k % 2 ^ 32)
    match s.fetchPiece ctx pkg o c ((List.range (hi - lo)).map (c.src.off + lo + ·)) with
    | (t, d, .ok bs) => (t, d, .ok [⟨off + lo, bs⟩])
    | (t, d, .fail p why) => (t, d, .error (p, why))
  | _ =>
    let (lo, hi) := sectorSpan c.dst.off c.len k
    match s.fetchPiece ctx pkg o c ((List.range (hi - lo)).map (c.src.off + lo + ·)) with
    | (t, d, .ok bs) => (t, d, .ok [⟨c.dst.off + lo, bs⟩])
    | (t, d, .fail p why) => (t, d, .error (p, why))

def writeAll (s : State) (at_ : Nat → Nat) (ws : List Write) : State :=
  ws.foldl (fun s w => s.writeBytes (at_ w.off) w.bytes) s

/-- The same into pages of a context (R165). -/
def writePages (s : State) (ctx : Nat) (fr : Tbl Nat) (ws : List Write) : State :=
  ws.foldl (fun s w => s.writePage ctx (frameKey fr w.off) w.bytes) s

def bytesOf (ws : List Write) : Nat := ws.foldl (fun n w => n + w.bytes.length) 0
def firstOff (ws : List Write) : Nat := match ws with | w :: _ => w.off | [] => 0

/-- Keeps what has become of a copy. -/
def keepCopy (s : State) (o : Nat) (c : CopyOp) : State := s.modOp o fun x => { x with work := .copy c }

/-! ## Translation faults (R270 to R272) -/

/-- A piece is parked in a fault buffer. -/
def parkedPiece (s : State) (o k : Nat) : Bool := s.dies.any fun d => d.2.faults.any fun e => e.2.pieces.contains (o, k)

/-- Some piece of an operation is parked. -/
def anyParked (s : State) (o : Nat) : Bool :=
  s.dies.any fun d => d.2.faults.any fun e => e.2.pieces.any fun p => p.1 == o

/-- The lowest free entry of a die's fault buffer (R270). -/
def freeFault (d : Die) : Option Nat := (List.range Config.faultBuffer).find? fun i => (d.faults.get? i).isNone

/-- Rewrites a posted entry in place (R272). -/
def rewriteFault (s : State) (die slot : Nat) (e : FaultEntry) : State :=
  match e.posted with
  | none => s
  | some A =>
    if field A 0 37 + 32 ≤ s.windowSize e.ctx (field A 40 8) (field A 37 3) then
      s.writeBytes (spKey e.ctx A) (faultBytes die slot e)
    else s

/-- A piece that parks in a fault buffer is no longer in flight (R266, R272). -/
def landed (s : State) (o k : Nat) (c : CopyOp) : State := s.keepCopy o { c with flying := c.flying.erase k }

/-- The buffer of a copy's die has an entry for a page, or a free one. -/
def canPark (s : State) (op : Op) (c : CopyOp) (page : Nat) : Bool :=
  let die := s.die (dieOf c.core)
  die.faults.any (fun e => e.2.ctx == op.ctx && e.2.page == page) || (freeFault die).isSome

/-- A piece parks on a page: it joins the entry of its context and page, or takes a free one (R270). -/
def parkPiece (s : State) (op : Op) (o k : Nat) (c : CopyOp) (page access : Nat) : State :=
  let d := dieOf c.core
  let die := s.die d
  match die.faults.find? fun e => e.2.ctx == op.ctx && e.2.page == page with
  | some (i, e) =>
    let e' := { e with pieces := e.pieces ++ [(o, k)], merge := min (e.merge + 1) 65535
                       access := e.access ||| access }
    ((s.landed o k c).setDie d { die with faults := die.faults.put i e' }).rewriteFault d i e'
  | none =>
    match freeFault die with
    | none => s
    | some i =>
      (s.landed o k c).setDie d
        { die with
          faults := die.faults.put i
            { ctx := op.ctx, pkg := pkgOf c.core, page := page, access := access, pieces := [(o, k)], merge := 0
              thread := c.thread, seq := die.faultSeq }
          faultSeq := (die.faultSeq + 1) % 2 ^ 32 }

/-- A failed translation of a piece: it parks, ends the context, or ends the copy's issue with an error (R164, R266). A piece for
which the buffer has no entry waits in its engine as in `back`, the state before its attempt (R270). -/
def pieceFault (s back : State) (op : Op) (o k : Nat) (c : CopyOp) (page access : Nat) (why : CopyWalk) : State :=
  match why with
  | .park => if s.canPark op c page then s.parkPiece op o k c page access else back
  | .fatal => s.contextFatal op.ctx 0x81 (BitVec.ofNat 64 (page * 65536)) c.thread
  | .err code => s.keepCopy o { c with code := some (c.code.getD code), flying := c.flying.erase k }
  | .ok _ => s

/-- The address of a place and offset in its space's layout, with the space code of R96, as a cohort sees it (R397). -/
def layoutAddr (s : State) (coh place off : Nat) : Nat × Nat :=
  match s.cohort? coh with
  | some c => let l := s.lockPlace coh c place; (l.space, l.owner + off)
  | none => (0, off)

/-- A piece is one of its core's requests, and counts when it is first issued (R397). -/
def issuePiece (s : State) (op : Op) (o k : Nat) (c : CopyOp) : State × CopyOp :=
  match s.opGroup op with
  | none => (s, c)
  | some g =>
    if c.issued.contains k then (s, c)
    else
      let r := s.countRequest c.core op.ctx g.launch
      let d := { c with issued := c.issued ++ [k], tags := if r.2 then c.tags ++ [k] else c.tags }
      (r.1.keepCopy o d, d)

/-- A tagged piece has completed, in the name of the copy's leader (R254, R397); its address is that of what it writes. -/
def tagPiece (s : State) (op : Op) (c : CopyOp) (k off : Nat) : State :=
  match s.opGroup op with
  | none => s
  | some g =>
    let a := match c.kind, c.dst with
      | .fanout rs _, _ => s.layoutAddr g.cohort (placeShared (rs.getD (k / 2 ^ 32) ⟨0, 0, ⟨0, false, 0⟩, false⟩).cohort) off
      | _, .chip p _ => s.layoutAddr g.cohort p off
      | _, .vm _ => (0xFF, off)
    if c.tags.contains k then s.tagRequest c.core op.ctx g.launch 4 c.thread a.1 a.2 else s

/-- The piece has been written: it is counted on its barrier once visible (R260, R265), or later when the scroll is full
(R344). -/
def pieceDone (s : State) (op : Op) (o k : Nat) (c : CopyOp) (n off : Nat) : State :=
  let bad := match c.counter k with | some b => !s.barValid b | none => false
  let waits := match c.counter k with | some b => s.countWaits op.ctx c.core b c.thread | none => false
  let t := (s.spendOrder c k).keepCopy o { c with
    done := c.done ++ [k], flying := c.flying.erase k, bytes := (c.bytes + n) % 2 ^ 32
    barBad := c.barBad || bad, uncounted := if waits then c.uncounted ++ [k] else c.uncounted }
  let t := t.tagPiece op c k off
  match c.counter k with
  | some b =>
    if waits then t.holdCount op.ctx c.core b c.thread
    else t.engineCount op.ctx c.core b c.thread n fun x => Cb.bytes x n
  | none => t

/-- Writes a fetched piece: one sector, translated once for a .vm destination (R166, R167). -/
def landPiece (s back : State) (op : Op) (o k : Nat) (c : CopyOp) (ws : List Write) : State :=
  match c.kind, c.dst with
  | .fanout rs _, _ =>
    let coh := (rs.getD (k / 2 ^ 32) ⟨0, 0, ⟨0, false, 0⟩, false⟩).cohort
    (s.writeAll (placeShared coh + ·) ws).pieceDone op o k c (bytesOf ws) (firstOff ws)
  | _, .chip p _ => (s.writeAll (p + ·) ws).pieceDone op o k c (bytesOf ws) (firstOff ws)
  | _, .vm _ =>
    match s.frames op.ctx (pkgOf c.core) .copyWrite (pagesOf (ws.map (·.off))) [] with
    | (t, .ok fr) => (t.writePages op.ctx fr ws).pieceDone op o k c (bytesOf ws) (firstOff ws)
    | (t, .fail p why) => t.pieceFault back op o k c p 2 why

/-- A piece may act: it exists, is neither written nor parked, and the copy has met no error, or the piece is in flight
(R266). -/
def pieceReady (s : State) (o k : Nat) (c : CopyOp) : Bool :=
  c.pieces.contains k && !c.done.contains k && !s.parkedPiece o k && (c.code.isNone || c.flying.contains k)

def pieceAct (s : State) (op : Op) (o k : Nat) (c : CopyOp) : State :=
  let i := s.issuePiece op o k c
  match i.1.pieceWrites op.ctx (pkgOf c.core) o i.2 k with
  | (t, d, .ok ws) => (t.keepCopy o d).landPiece i.1 op o k d ws
  | (t, d, .error (p, why)) => (t.keepCopy o d).pieceFault i.1 op o k d p 1 why

/-- The bytes that piece `k` counts. -/
def pieceSize (c : CopyOp) (k : Nat) : Nat :=
  match c.kind with
  | .tensor true _ coords (some L) => ((reaching L c.dst.off coords k).flatMap (elementBytes L k)).length
  | .fanout rs _ =>
    let (lo, hi) := sectorSpan (rs.getD (k / 2 ^ 32) ⟨0, 0, ⟨0, false, 0⟩, false⟩).off c.len (k % 2 ^ 32)
    hi - lo
  | _ => let (lo, hi) := sectorSpan c.dst.off c.len k; hi - lo

end State

/-- A piece that moved while the scroll was full is counted (R344). -/
def State.countLate (s : State) (op : Op) (o k : Nat) (c : CopyOp) (b : BarAt) : State :=
  let n := pieceSize c k
  s.gatedCount op.ctx c.core b c.thread n fun s =>
    let bad := !s.barValid b
    (s.keepCopy o { c with uncounted := c.uncounted.erase k, barBad := c.barBad || bad }).engineCount
      op.ctx c.core b c.thread n fun x => Cb.bytes x n

/-- An engine writes one destination sector piece and counts it (R260, R263, R265); while the scroll is full it moves the
data and holds the count (R344). -/
def execCopyPiece (o k : Nat) (s : State) : Out :=
  .next (match s.op? o with
    | some op =>
      match op.work with
      | .copy c =>
        match c.counter k with
        | some b =>
          if c.uncounted.contains k then s.countLate op o k c b
          else if !s.pieceReady o k c then s
          else if s.countWaits op.ctx c.core b c.thread then s.pieceAct op o k c
          else s.gatedCount op.ctx c.core b c.thread (pieceSize c k) fun s => s.pieceAct op o k c
        | none => if s.pieceReady o k c then s.pieceAct op o k c else s
      | _ => s
    | none => s)

namespace State

/-! ## The record of a CPYT and its box (R261, R262) -/

/-- Ends the issue of a copy with an error before a byte has moved. -/
def copyError (s : State) (o : Nat) (c : CopyOp) (code : Nat) : State :=
  s.keepCopy o { c with code := some code, flying := [] }

/-- The box of a copy under R158; a window counts as it stood at issue (R159). -/
def boxKey (s : State) (gid : Nat) (g : Group) (c : CopyOp) (ms : WordSpace) (X n : Nat) : Except Byte Nat :=
  match ms with
  | .sp => if X < 2 ^ 48 ∧ field X 0 37 + n ≤ c.boxWindow then .ok (spKey g.ctx X) else .error 0x21
  | _ => s.resolve gid g ms.space X n

/-- Checks and locks the box, whose extent the record has given (R262), a scratchpad box in the table of the issuing core (R177). A
box that meets a read-only lock ends the copy in both directions, as R262 says of any box range (log 54). -/
def lockBox (s : State) (op : Op) (o : Nat) (g : Group) (c : CopyOp) (scatter : Bool) (L : Layout) (ms : WordSpace) (X : Nat) :
    State :=
  let gid := op.gid.getD 0
  let n := L.boxBytes
  match s.boxKey gid g c ms X n with
  | .error cause =>
    if cause = 0x21 then s.contextFatal op.ctx 0x21 (BitVec.ofNat 64 X) c.thread else s.copyError o c copyBoxRange
  | .ok key =>
    let req := LockReq.mk key n (if scatter then .read else .write) (if ms = .sp then c.core else s.lockCore g ms.space X) X
    if s.meets key n (· == .readOnly) then s.copyError o c copyBoxLocked
    else if s.lockWait [req] then s
    else
      let r := Range.chip (placeOf key) (key - placeOf key)
      (s.register op.ctx o [req]).keepCopy o
        (if scatter then { c with src := r, len := n, box := none } else { c with dst := r, len := n, box := none })

/-- The record has been read: BAD_LAYOUT, BAD_ADDRESS, or the box is checked and locked. -/
def takeLayout (s : State) (op : Op) (o : Nat) (g : Group) (c : CopyOp) (scatter : Bool) (record : Nat) (coords : List Int)
    (ms : WordSpace) (X bits : Nat) : State :=
  match readLayout bits coords.length with
  | none => s.copyError o c copyBadLayout
  | some L =>
    if !L.inSpace c.src.off coords then s.copyError o c copyBadAddress
    else
      let d := { c with kind := .tensor scatter record coords (some L), flying := [] }
      (s.keepCopy o d).lockBox op o g d scatter L ms X

/-- Reads the record through translation as a source fill (R261). -/
def readRecord (s : State) (op : Op) (o : Nat) (g : Group) (c : CopyOp) (scatter : Bool) (record : Nat) (coords : List Int)
    (ms : WordSpace) (X : Nat) : State :=
  match s.fetchAddrs op.ctx (pkgOf c.core) (.vm record) ((List.range layoutBytes).map (record + ·)) with
  | (t, .ok bs) => t.takeLayout op o g c scatter record coords ms X (ofBytes bs)
  | (t, .fail p why) => t.pieceFault s op o recordPiece c p 1 why

end State

/-- CPYT reads its layout record, then checks and locks the box; a box that must wait for locks keeps what was read
(R178, R262). -/
def execLayoutRecordRead (o : Nat) (s : State) : Out :=
  .next (match s.op? o with
    | some op =>
      match op.work, s.opGroup op with
      | .copy c, some g =>
        match c.kind, c.box with
        | .tensor scatter record coords L, some (ms, X) =>
          if c.code.isSome || s.parkedPiece o recordPiece then s
          else
            match L with
            | none => s.readRecord op o g c scatter record coords ms X
            | some L => s.lockBox op o g c scatter L ms X
        | _, _ => s
      | _, _ => s
    | none => s)

/-! ## The fault queue (R271) -/

/-- The address of the slot that the next post writes, with the producer index; none when the queue is full or not
valid. -/
def faultSlot (s : State) (ctx : Nat) : Option (Nat × Nat) :=
  match s.context? ctx with
  | none => none
  | some c =>
    let Q := c.faultq
    let size := s.windowSize ctx (field Q 40 8) (field Q 37 3)
    if Q < 2 ^ 48 ∧ field Q 0 37 + 32 ≤ size then
      let h := s.readNat (spKey ctx Q) 12
      let n := field h 0 32
      let prod := field h 32 32
      let used := (prod + 2 ^ 32 - field h 64 32) % 2 ^ 32
      if (List.range 13).any (fun k => n == 2 ^ (k + 4)) && decide (used < n)
          && decide (field Q 0 37 + 32 + 32 * (prod % n) + 32 ≤ size) then
        some (Q + 32 + 32 * (prod % n), prod)
      else none
    else none

/-- Posts an entry: the slot first, then the producer index (R271). -/
def execFaultQueuePost (die slot : Nat) (s : State) : Out :=
  .next (match (s.die die).faults.get? slot with
    | none => s
    | some e =>
      if e.posted.isSome then s
      else
        match faultSlot s e.ctx, s.context? e.ctx with
        | some (A, prod), some c =>
          let t := s.writeBytes (spKey e.ctx A) (faultBytes die slot e)
          let t := t.writeNat (spKey e.ctx c.faultq + 4) 4 (prod + 1)
          t.setDie die { t.die die with faults := (t.die die).faults.put slot { e with posted := some A } }
        | _, _ => s)

/-- A copy with pieces in a freed entry: one more round, and those pieces are in flight again (R272). -/
def retryOp (o : Nat) (e : FaultEntry) (op : Op) : Op :=
  match op.work with
  | .copy c =>
    let again := (e.pieces.filter fun p => p.1 == o && p.2 != recordPiece).map (·.2)
    { op with work := .copy { c with retry := min (c.retry + 1) 255, flying := c.flying ++ again } }
  | _ => op

/-- Frees the fault-buffer entries of a context and page on a package: their pieces are walked again, and each copy with a
piece there counts one round (R272, R360). Answers the number of entries. -/
def State.retryPage (s : State) (ctx pkg page : Nat) : State × Nat :=
  let hit := fun e : FaultEntry => e.ctx == ctx && e.page == page
  let dies := s.dies.filter fun d => d.1 / 8 == pkg
  let entries := dies.flatMap fun d => (d.2.faults.filter fun e => hit e.2).map (·.2)
  let t := { s with dies := s.dies.update fun n d =>
    if n / 8 == pkg then { d with faults := d.faults.keep fun _ e => !hit e } else d }
  let retry := fun (t : State) (e : FaultEntry) => (e.pieces.map (·.1)).eraseDups.foldl (fun t o => t.modOp o (retryOp o e)) t
  (entries.foldl retry t, entries.length)

/-! ## Acknowledgement and completion (R265, R266) -/

/-- Once every byte for a receiver is visible and counted, an acknowledgement is counted on the sender's barrier (R265, R266). -/
def execCopyAck (o r : Nat) (s : State) : Out :=
  .next (match s.op? o with
    | some op =>
      match op.work with
      | .copy c =>
        match c.kind with
        | .fanout rs ack =>
          match rs[r]? with
          | some x =>
            if x.acked || !(c.piecesFor r).all fun k => c.done.contains k && !c.uncounted.contains k then s
            else s.gatedCount op.ctx c.core ack c.thread 1 fun s =>
              let bad := !s.barValid ack
              (s.keepCopy o { c with kind := .fanout (rs.set r { x with acked := true }) ack
                                     barBad := c.barBad || bad }).engineCount
                  op.ctx c.core ack c.thread 1 Cb.ack
          | none => s
        | _ => s
      | _ => s
    | none => s)

namespace State

/-- Steps 1 and 2 of R266 are done: every piece is written, or an error has stopped their issue and none is in flight;
every receiver that has all its bytes is acknowledged. -/
def copyReady (s : State) (o : Nat) (c : CopyOp) : Bool :=
  !s.anyParked o && c.flying.isEmpty && c.uncounted.isEmpty && (c.code.isSome || c.written) &&
  (match c.kind with
    | .fanout rs _ => (List.range rs.length).all fun r =>
        (rs.getD r ⟨0, 0, ⟨0, false, 0⟩, true⟩).acked || !(c.piecesFor r).all c.done.contains
    | _ => true)

/-- The status word (R266). -/
def copyStatus (c : CopyOp) : Word64 :=
  let code := c.code.getD (if c.barBad then copyBarInvalid else 0)
  BitVec.ofNat 64 (1 + b2n (decide (code ≠ 0)) * 2 + code * 2 ^ 8 + c.bytes % 2 ^ 32 * 2 ^ 16 + min c.retry 255 * 2 ^ 48)

/-- The scroll of a copy's status word records and is full: its flag waits too (R344). -/
def flagWaits (s : State) (op : Op) (c : CopyOp) : Bool :=
  let x := s.scroll op.ctx (pkgOf c.core)
  x.mode == 1 && x.full

/-- Step 3: the flag, in a window of the context on the engine's package (R266, R381). -/
def writeFlag (s : State) (op : Op) (o : Nat) (c : CopyOp) (A : Nat) (v : Word64) : State :=
  if s.flagWaits op c then s
  else
    (if !farAway (pkgOf c.core) .sp A && decide (field A 0 37 + 8 ≤ s.windowSize op.ctx (field A 40 8) (field A 37 3)) then
      s.writeNat (spKey op.ctx A) 8 v.toNat else s).keepCopy o { c with flagWritten := true }

/-- Step 4: the status word lands and the locks drop; the bytes are counted (R266, R394). -/
def copyLand (s : State) (op : Op) (o : Nat) (c : CopyOp) : State :=
  s.finish o op c.core c.thread (copyStatus c) fun s =>
    let t := s.modContext op.ctx fun x => { x with copied := x.copied + c.bytes }
    match s.opGroup op with
    | some g => t.count c.core g.launch .copyBytes c.bytes
    | none => t

end State

/-- A copy writes its flag, and at its next event its status word (R266). -/
def execCopyCompletion (o : Nat) (s : State) : Out :=
  .next (match s.op? o with
    | some op =>
      match op.work with
      | .copy c =>
        if s.copyReady o c then
          match c.flag, c.flagWritten with
          | some (A, v), false => s.writeFlag op o c A v
          | _, _ => s.copyLand op o c
        else s
      | _ => s
    | none => s)

end Sys2Proof.Machine
end

