-- ==== Sys2Proof/Machine/System.lean ====
section
/-! DEFINITION. The trap and system instructions (R356 to R361): TRAP, BKPT, XRET, SYSRD, SYSWR, LOGMARK, FRETRY, EVPOST. -/

namespace Sys2Proof.Machine

/-- A privileged instruction: in user mode it raises PRIVILEGE in the whole stroke, before its registers are checked and
before its guard is read (R100, R101). -/
def onPrivileged (i : Instr) (gd : Guard) (s : State)
    (body : Issue → Group → BitVec 32 → State → State) : Out :=
  match s.issuing with
  | none => .fault .noIssuingStroke
  | some u =>
    match s.group? u.gid with
    | none => .fault .noIssuingStroke
    | some g =>
      if !State.privilegedAt g u.mask then .next (s.trap u u.mask 0x05 0)
      else onStroke i gd s body

/-- TRAP (R359): USER_TRAP, which resumes after the instruction. -/
def execTrap (g : Guard) (code : BitVec 16) (s : State) : Out :=
  onStroke (.trap g code) g s fun u _ _ s => s.trap u u.mask 0x40 (code.setWidth 64) true

/-- BKPT (R359): BREAKPOINT. -/
def execBkpt (g : Guard) (code : BitVec 16) (s : State) : Out :=
  onStroke (.bkpt g code) g s fun u _ _ s => s.trap u u.mask 0x41 (code.setWidth 64) true

/-- XRET (R359): outside a trap stroke it does nothing. -/
def execXret (g : Guard) (s : State) : Out :=
  onPrivileged (.xret g) g s fun u grp _ s =>
    if u.mask &&& grp.trapMask = 0 then s.advance u 8
    else if grp.sys.xpc.toNat % 4 ≠ 0 then s.trap u u.mask 0x04 grp.sys.xpc
    else s.xretOp u grp

/-! ## System registers (R356, R357) -/

namespace State

/-- SPBASE (R253) and the package and die fields that ARGLOC shares with it. -/
def spBase (core : Nat) : Word64 := BitVec.ofNat 64 (pkgOf core * 2 ^ 40 + dieOf core % 8 * 2 ^ 37)

/-- PGRANK (R387). -/
def pgRank (s : State) (g : Group) : Word64 :=
  let pkg := pkgOf g.core
  let ranks := match s.launchOf g with | some l => l.ranks | none => []
  let rank := match ranks.find? fun r => r.pkg == pkg with | some r => r.rank | none => 0
  BitVec.ofNat 64 (pkg % 256 * 2 ^ 32 + rank % 2 ^ 16 * 2 ^ 16 + (if ranks.isEmpty then 1 else ranks.length % 2 ^ 16))

def devRev (s : State) (pkg : Nat) : Word64 :=
  BitVec.ofNat 64 (0x0480 * 2 ^ 16 + (Config.fuseForm (s.partOf pkg)).toNat * 2 ^ 8 + (Config.fuseRev (s.partOf pkg)).toNat)

/-- A context register (R357). -/
def ctxReg (s : State) (ctx : Nat) (f : Context → Nat) : Word64 :=
  BitVec.ofNat 64 (match s.context? ctx with | some c => f c | none => 0)

/-- Read(n) (R356). -/
def readSys (s : State) (g : Group) (n : SysReg) : Word64 :=
  let pkg := pkgOf g.core
  match n with
  | .fstat => s.groupSys g 0 | .psig => s.groupSys g 1 | .depmask => s.groupSys g 2 | .ghelp => s.groupSys g 3
  | .regbudget => s.groupSys g 4 | .stkp => s.groupSys g 5 | .stklim => s.groupSys g 6
  | .xbound k => s.groupSys g (7 + k.toNat) | .launchid => s.groupSys g 11 | .argloc => s.groupSys g 12
  | .xpc => s.groupSys g 16 | .xcause => s.groupSys g 17 | .xstat => s.groupSys g 18 | .xaddr => s.groupSys g 19
  | .xscr0 => s.groupSys g 20 | .xscr1 => s.groupSys g 21
  | .xvec => s.xvec g.ctx
  | .wdlimit => s.ctxReg g.ctx fun c => field c.wdlimit 0 32
  | .nametab => s.ctxReg g.ctx fun c => field c.nametab 0 56 + c.nametabN % 256 * 2 ^ 56
  | .faultq => s.ctxReg g.ctx fun c => field c.faultq 0 48
  | .xlflush => 0
  | .spwin d => s.spwin g.ctx pkg d.toNat
  | .scrctl => scrctl (s.scroll g.ctx pkg)
  | .scrbase => BitVec.ofNat 64 (field (s.scroll g.ctx pkg).base 0 56)
  | .scrwidx => (s.scroll g.ctx pkg).widx.setWidth 64
  | .scrridx => (s.scroll g.ctx pkg).ridx.setWidth 64
  | .timebase => s.ticks pkg
  | .pgrank => s.pgRank g
  | .mxbudget => (s.island (islandOf g.core)).units.setWidth 64
  | .spbase => spBase g.core
  | .devrev => s.devRev pkg

end State

/-- Registers whose access is privileged (R356). -/
def SysReg.privRead : SysReg → Bool
  | .xpc => true | .xcause => true | .xstat => true | .xaddr => true | .xscr0 => true | .xscr1 => true | _ => false

def SysReg.privWrite (n : SysReg) : Bool :=
  SysReg.privRead n || (match n with
    | .xvec => true | .xlflush => true | .scrctl => true | .scrbase => true | .scrwidx => true | .scrridx => true | _ => false)

/-- Write(n, v) to a per-group register, under the access codes of R7; the others are unchanged. -/
def writeGroupSys (n : SysReg) (v : Word64) (g : Group) : Group :=
  let r := g.sys
  let w := v.toNat
  match n with
  | .fstat => { g with sys := { r with fstat := r.fstat &&& ~~~(v &&& 0x1F) } }
  | .psig => { g with sys := { r with psig := r.psig &&& ~~~(v &&& 0x1FFFFFFFF) } }
  | .depmask => { g with sys := { r with depmask := r.depmask &&& ~~~(v &&& 0xFF) } }
  | .stkp => { g with sys := { r with stkp := BitVec.ofNat 64 (field w 0 32) } }
  | .xbound k =>
    { g with sys := { r with xbound := r.xbound.put k.toNat (BitVec.ofNat 64 (field w 0 11 + field w 16 11 * 2 ^ 16)) } }
  | .xpc => { g with sys := { r with xpc := v } }
  | .xcause => { g with sys := { r with xcause := BitVec.ofNat 64 (field w 0 8) } }
  | .xstat => { g with sys := { r with xstat := BitVec.ofNat 64 (field r.xstat.toNat 0 32 + field w 32 2 * 2 ^ 32) } }
  | .xaddr => { g with sys := { r with xaddr := v } }
  | .xscr0 => { g with sys := { r with xscr0 := v } }
  | .xscr1 => { g with sys := { r with xscr1 := v } }
  | _ => g

namespace State

/-- A write to SCRRIDX that would make the fill exceed the capacity leaves it unchanged (R337). -/
def setRidx (x : Scroll) (v : Word64) : Scroll :=
  let r : Word32 := v.setWidth 32
  if x.cap < (x.widx - r).toNat then x else { x with ridx := r }

/-- Writes to the scroll registers that a program may write; HIGH follows the fill (R337, R344). -/
def writeScroll (s : State) (ctx pkg : Nat) (f : Scroll → Scroll) : State :=
  (s.modScroll ctx pkg f).scrollHigh ctx pkg (s.scroll ctx pkg).fill

/-- Write(n, v) (R356, R357). XLFLUSH drops every translation that a cache of the package may hold for the context. -/
def writeSys (s : State) (u : Issue) (g : Group) (n : SysReg) (v : Word64) : State :=
  let pkg := pkgOf g.core
  match n with
  | .xvec => s.modContext g.ctx fun c => { c with xvec := v &&& ~~~7 }
  | .scrctl => s.modScroll g.ctx pkg fun x => if v.getLsbD 4 then { x with high := false } else x
  | .scrridx => s.writeScroll g.ctx pkg fun x => setRidx x v
  | .stkp =>
    (s.modGroup u.gid (writeGroupSys n v)).logStrk u g 2 n.number (BitVec.ofNat 64 (field v.toNat 0 32))
  | .xlflush => { s with xlat := s.xlat.filter fun e => !(e.ctx == g.ctx && e.pkg == pkg) }
  | _ => s.modGroup u.gid (writeGroupSys n v)

end State

/-- The number of a register, as XADDR of PRIVILEGE holds it (R355). -/
def sysXaddr (n : SysReg) : Word64 := BitVec.ofNat 64 n.number

/-- An access to a system register checks privilege when it executes: in user mode one that needs it raises PRIVILEGE in the
whole stroke (R100, R356; log 36). -/
def onSysReg (i : Instr) (gd : Guard) (needs : Bool) (n : SysReg) (s : State) (body : Issue → Group → State → State) : Out :=
  onStroke i gd s fun u grp _ s =>
    if needs && !State.privilegedAt grp u.mask then s.trap u u.mask 0x05 (sysXaddr n) else body u grp s

/-- SYSRD (R359). -/
def execSysrd (g : Guard) (sd : SReg) (n : SysReg) (s : State) : Out :=
  onSysReg (.sysrd g sd n) g (SysReg.privRead n) n s fun u grp s =>
    (s.writeS u grp sd (s.readSys grp n)).advance u 8

/-- SYSWR (R359). -/
def execSyswr (g : Guard) (n : SysReg) (sa : SReg) (s : State) : Out :=
  onSysReg (.syswr g n sa) g (SysReg.privWrite n) n s fun u grp s =>
    (s.writeSys u grp n (grp.rdS sa)).advance u 8

/-- SYSWR to XLFLUSH (R357). -/
def execSyswrXlflush (g : Guard) (sa : SReg) (s : State) : Out :=
  onSysReg (.syswrXlflush g sa) g true .xlflush s fun u grp s =>
    (s.writeSys u grp .xlflush (grp.rdS sa)).advance u 8

/-- SYSWR to SCRRIDX (R337, R344). -/
def execSyswrScrridx (g : Guard) (sa : SReg) (s : State) : Out :=
  onSysReg (.syswrScrridx g sa) g true .scrridx s fun u grp s =>
    (s.writeSys u grp .scrridx (grp.rdS sa)).advance u 8

/-! ## LOGMARK (R359) -/

/-- The MARK record of an issue (R341). -/
def State.markEntry (s : State) (u : Issue) (g : Group) (v : Word64) : Entry :=
  { kind := 10, cls := 1, src := State.schedSource g, subject := s.strokeThread g u.mask, operand := v
    payload := s.ticks (State.pkgOf g.core) }

def execLogmark (g : Guard) (sa : SReg) (s : State) : Out :=
  onStroke (.logmark g sa) g s fun u grp _ s =>
    (s.log grp.ctx (State.pkgOf grp.core) (s.markEntry u grp (grp.rdS sa)) false).advance u 8

/-! ## FRETRY (R360) -/

/-- Plain FRETRY: sd takes the number of fault-buffer entries freed. -/
def execFretry (g : Guard) (sd sa : SReg) (s : State) : Out :=
  onPrivileged (.fretry g sd sa) g s fun u grp _ s =>
    let r := s.retryPage grp.ctx (State.pkgOf grp.core) ((grp.rdS sa).toNat / 65536)
    (r.1.writeS u grp sd (BitVec.ofNat 64 r.2)).advance u 8

/-- FRETRY.exhaust and .fatal end the context, with the page as the fault address. -/
def fretryEnds (i : Instr) (g : Guard) (sa : SReg) (cause : Byte) (s : State) : Out :=
  onPrivileged i g s fun u grp _ s =>
    s.contextFatal grp.ctx cause (grp.rdS sa &&& ~~~0xFFFF) (s.strokeThread grp u.mask)

def execFretryExhaust (g : Guard) (sd sa : SReg) (s : State) : Out := fretryEnds (.fretryExhaust g sd sa) g sa 0x80 s

def execFretryFatal (g : Guard) (sd sa : SReg) (s : State) : Out := fretryEnds (.fretryFatal g sd sa) g sa 0x81 s

/-! ## EVPOST (R361) -/

/-- The length and address operands of EVPOST (R361). -/
structure Message where
  space : Space
  addr  : Nat
  len   : Nat

namespace State

/-- The messages that a service has accepted and not answered. -/
def queuedFor? (s : State) (service : Nat) : Nat :=
  (s.ops.filter fun o => match o.2.work with | .post p => p.service == service | _ => false).length

/-- The checks of a post to a name: its status, and the service that takes the message (R305, R315, R361). -/
def postCheck (s : State) (rights : Nat) (e : NameEntry) : NameCode × Nat × Option Nat :=
  if Nat.land rights rightSignal = 0 ∨ e.kind ≠ 3 then (.denied, 0, none)
  else if Config.serviceQueue ≤ s.queuedFor? (field e.loc 0 16) then (.full, e.state, none)
  else (.ok, e.state, some (field e.loc 0 16))

/-- The service endpoint that a name reaches, through an alias as R303 states. -/
def postTarget (s : State) (ctx : Nat) (issuer : Word64) (launch : Nat) (name : Word64) : NameCode × Nat × Option Nat :=
  match s.findName ctx name with
  | .fail c => (c, 0, none)
  | .fault => (.nosuch, 0, none)
  | .entry _ e =>
    if e.alias_ then
      match (s.foreign e).2 with
      | .fail k => (k, 0, none)
      | .fault => (.stale, 0, none)
      | .entry _ f => s.postCheck e.rights f
    else s.postCheck (rights issuer launch e) e

/-- A table that cannot be walked ends its context: the issuer's own, or that of an alias's foreign entry (R297, R303). -/
def postFault (s : State) (ctx : Nat) (name : Word64) : State :=
  match s.findName ctx name with
  | .fault => s.tableFault ctx (nameIndex name)
  | .entry _ e => if e.alias_ then (match (s.foreign e).2 with | .fault => s.foreignFault e | _ => s) else s
  | .fail _ => s

/-- The message is handed over, or turned away with a status. -/
def post (s : State) (u : Issue) (g : Group) (sd : SReg) (name : Word64) (code : BitVec 16) (m : List Byte) : State :=
  let pkg := pkgOf g.core
  if cleanName name = 0 then
    if s.eventRoom g.ctx then
      ((s.postEvent g.ctx
        { kind := 4, pkg := pkg, time := (s.ticks pkg).toNat
          body := toBytes 2 code.toNat ++ toBytes 2 m.length ++ zeros 4 ++ toBytes 8 g.name.toNat, message := m }).writeS u g sd 0).advance
        u 16
    else (s.writeS u g sd (nameStatus .full 0 0)).advance u 16
  else
    let r := s.postTarget g.ctx g.name (s.launchNum g) name
    match r.2.2 with
    | some service =>
      ((s.addOp { ctx := g.ctx, gid := some u.gid, sd := none
                  work := .post { service := service, name := name, message := m, pkg := pkg } }).writeS u g sd 0).advance u 16
    | none => ((s.postFault g.ctx name).writeS u g sd (nameStatus r.1 r.2.1 0)).advance u 16

/-- The message range, checked as a copy source: bounds, then write locks and a free table entry (R177, R258, R361). -/
def postRange (s : State) (u : Issue) (g : Group) (m : Message) (go : List Byte → State) : State :=
  if m.len = 0 then go []
  else
    match s.resolve u.gid g m.space m.addr m.len with
    | .error c => s.raise u g u.mask c m.addr
    | .ok key =>
      if s.lockWait [⟨key, m.len, .read, s.lockCore g m.space m.addr, m.addr⟩] then s.parkEngine u
      else go (s.readBytes key m.len)

end State

/-- EVPOST: the post is accepted or turned away in this step (log 31). -/
def execEvpost (g : Guard) (sd nA aA lA : SReg) (code : BitVec 16) (s : State) : Out :=
  onStroke (.evpost g sd nA aA lA code) g s fun u grp a s =>
    let len := (grp.rdS lA).toNat
    let w := (grp.rdS aA).toNat
    if grp.helperOnly a then s.advance u 16
    else if len % 8 ≠ 0 ∨ 256 < len then (s.writeS u grp sd (nameStatus .badlen 0 0)).advance u 16
    else
      match field w 56 8 with
      | 1 => s.postRange u grp ⟨.sh, field w 0 56, len⟩ fun m => s.post u grp sd (grp.rdS nA) code m
      | 3 => s.postRange u grp ⟨.sp, field w 0 56, len⟩ fun m => s.post u grp sd (grp.rdS nA) code m
      | _ => s.trap u u.mask 0x23 (grp.rdS aA)

end Sys2Proof.Machine
end

