-- ==== Sys2Proof/Machine/Events.lean ====
section
/-! DEFINITION. Events of the schedulers and of the watchdogs, counters and traces, context-fatal faults, and the causes of
words that do not decode (R34, R35, R39, R69, R98, R154, R348, R363, R364, R382, R394, R397). -/

namespace Sys2Proof.Machine

namespace State

/-! ## Schedulers (R34, R35) -/

/-- A context of a package is in REPLAY, where strokes are formed by the records (R346). -/
def replays (s : State) (ctx pkg : Nat) : Bool := (s.scroll ctx pkg).mode == 2

/-- Every resident group re-forms its strokes. -/
def reformAll (s : State) : State :=
  { s with groups := s.groups.update fun _ g =>
      if g.phase == .resident && !s.replays g.ctx (pkgOf g.core) then g.reform else g }

end State

/-- The re-formation at the start of a cycle that is a multiple of 4 (R34). -/
def execStrokeReformation (s : State) : Out :=
  .next (if s.cycle % 4 = 0 && s.served == 0 then s.reformAll else s)

/-- A stroke has stayed ready for 224 cycles since the group last issued (R35). -/
def execGroupUrgent (gid : Nat) (s : State) : Out :=
  .next (match s.group? gid with
    | some g =>
      if g.phase == .resident && g.readyFrom != 0 && decide (g.readyFrom - 1 + Config.urgentCycles ≤ s.cycle) then
        s.modGroup gid fun g => { g with urgent := true }
      else s
    | none => s)

def execMeetRelease (gid : Nat) (s : State) : Out := .next (s.meetRelease gid)

namespace State

/-- TIMEBASE has reached a sleep's deadline, or in REPLAY the log releases it (R154, R347). -/
def sleepOver (s : State) (g : Group) (m : BitVec 32) : Bool :=
  if s.replays g.ctx (pkgOf g.core) then s.deadlineReached g m .sleep 1
  else decide ((g.fibre (lowest m)).operand.toNat ≤ (s.ticks (pkgOf g.core)).toNat)

/-- A sleeping stroke goes on; its release is logged as one by deadline (R341 WAKE). -/
def wakeSleeper (s : State) (gid : Nat) (m : BitVec 32) : State :=
  match s.group? gid with
  | none => s
  | some g =>
    if s.sleepOver g m then
      s.gatedWake g m .sleep true fun s => (s.logWake g m .sleep true 0).modGroup gid fun g => g.unpark m
    else s

end State

/-- Every sleep of a resident group that is over ends (R154). -/
def execSleepExpiry (gid : Nat) (s : State) : Out :=
  .next (match s.group? gid with
    | some g => if g.phase == .resident then (g.waiting .sleep).foldl (fun s m => s.wakeSleeper gid m) s else s
    | none => s)

/-! ## Context-fatal faults, watchdogs (R348, R363, R364, R382) -/

namespace State

/-- A soft error in the newest record of a scroll loses it: a GAP record stands in its slot, with class and id of the lost one
in bits 11:8 and 23:12 (R341, R342; log 16). -/
def loseRecord (s : State) (ctx : Nat) (addr : Word64) : State :=
  (match s.context? ctx with | some c => if c.ended.isNone then c.sites.keys else [] | none => []).foldl (fun t pkg =>
    let x := t.scroll ctx pkg
    let va := x.slotVa (x.widx - 1)
    match t.vmRead ctx pkg .imageRead va 32 with
    | .ok b =>
      if x.mode == 1 && x.fill != 0 && va == addr.toNat then
        let e := Entry.ofBytes b
        (t.modScroll ctx pkg fun x => { x with widx := x.widx - 1 }).append ctx pkg
          { kind := 11, cls := 0, src := 0, operand := BitVec.ofNat 64 (3 + e.cls % 2 ^ 4 * 2 ^ 8 + e.src % 2 ^ 12 * 2 ^ 12)
            payload := BitVec.ofNat 64 e.seq }
      else t
    | .fail _ _ => t) s

end State

def execContextFatalFault (ctx : Nat) (cause : BitVec 8) (addr thread : Word64) (s : State) : Out :=
  .next ((if cause = 0x83 then s.loseRecord ctx addr else s).contextFatal ctx cause addr thread)

/-- A wait that the watchdog does not count (R363). -/
def Fibre.excused (x : Fibre) : Bool :=
  x.wait == .npark || x.wait == .njoin || x.wait == .sleep || x.wait == .scrollFull || (x.wait == .waitw && x.deadline != 0)

/-- All live fibres of a group are parked, and none of them for an excused reason (R363). -/
def Group.stalled (g : Group) : Bool :=
  g.live != 0 && g.running == 0 && (g.live &&& g.fibresWhere Fibre.excused) == 0
    && (g.phase == .resident || g.phase == .stopping || g.phase == .parked || g.phase == .swapped)

namespace State

/-- WDLIMIT in ticks of TIMEBASE; 0 is no limit (R357). -/
def watchTicks (s : State) (ctx : Nat) : Nat :=
  match s.context? ctx with | some c => c.wdlimit * Config.ticksPerMicrosecond | none => 0

/-- A moment kept as tick + 1 lies the context's limit back. -/
def limitPassed (s : State) (ctx from_ : Nat) : Bool :=
  decide (s.watchTicks ctx ≠ 0) && decide (from_ ≠ 0) && decide (from_ - 1 + s.watchTicks ctx ≤ s.timebase.toNat)

end State

/-- A group has been stalled for WDLIMIT microseconds (R363). -/
def execWatchdogExpiry (gid : Nat) (s : State) : Out :=
  .next (match s.group? gid with
    | some g =>
      if g.stalled && s.limitPassed g.ctx g.stallFrom then s.contextFatal g.ctx 0x84 0 (s.thread g 0xFF) else s
    | none => s)

/-- The schedulers of a replay with a stroke to issue and no SCHED record left for it (R346). -/
def State.idleScheds (s : State) (ctx pkg : Nat) : List Nat :=
  (s.groups.filterMap fun e =>
    let source := 65536 + State.schedSource e.2
    if e.2.ctx == ctx && e.2.phase == .resident && State.pkgOf e.2.core == pkg && e.2.running != 0
        && (s.sourceRecords ctx pkg source).isEmpty then some source else none).eraseDups

/-- A source waits: its next record is there without its event, a unit has noted an act that has no record, or its scheduler has a
stroke to issue and none. -/
def State.waitsOn (s : State) (ctx pkg source : Nat) : Bool :=
  !(s.sourceRecords ctx pkg source).isEmpty || source / 65536 != 1 || (s.idleScheds ctx pkg).contains source

/-- A source of a replay has waited longer than the watchdog's limit for its next record's event (R348); one that has no record
left names the index of the next one (log 16). -/
def execReplayWaitTimeout (ctx cls src : Nat) (s : State) : Out :=
  let source := cls * 65536 + src
  .next (((match s.context? ctx with | some c => c.sites.keys | none => [])).foldl (fun t pkg =>
    let x := t.scroll ctx pkg
    let i := match t.sourceRecords ctx pkg source with | (i, _) :: _ => i | [] => x.widx.toNat
    if x.mode == 2 && !t.frozen ctx && !t.hasEnded ctx && t.waitsOn ctx pkg source && t.limitPassed ctx (x.waits.read 0 source) then
      t.diverge ctx pkg i source
    else t) s)

/-- A remote access or a copy piece has had no answer for 1 ms (R382). -/
def execRemoteTimeout (ctx : Nat) (s : State) : Out := .next (s.contextFatal ctx 0x83 0 0)

/-! ## Counters, traces and soft errors (R69, R394, R397) -/

/-- A core adds its private counts into the counter block (R394). -/
def execCounterFlush (ctx core : Nat) (s : State) : Out := .next (s.flushCounts core ctx)

/-- A trace record (R397): bits 7:6 of the visited points name none, and the queue time of a point that was not visited is 0. -/
def traceRecord (x : Tagged) (visited : Byte) (times : List (BitVec 16)) : List Byte :=
  [1, visited &&& 0x3F] ++ toBytes 1 x.kind ++ [0]
    ++ (List.range 6).flatMap (fun i => toBytes 2 (if visited.getLsbD i then (times.getD i 0).toNat else 0))
    ++ toBytes 8 x.thread.toNat ++ toBytes 8 x.addr.toNat

namespace State

def ringOff (s : State) (launch : Nat) : State := s.modLaunch launch fun l => { l with debugOpts := { l.debugOpts with ring := none } }

def countersOff (s : State) (launch : Nat) : State :=
  s.modLaunch launch fun l => { l with debugOpts := { l.debugOpts with counters := none } }

/-- A record is posted to the trace ring at TRWIDX, or dropped when the ring is full. A walk that fails disables the feature
whose page it is for the launch (R393), and a launch with no counter block has no TRWIDX (log 32). -/
def postTrace (s : State) (core : Nat) (x : Tagged) (b : List Byte) : State :=
  let pkg := pkgOf core
  match (s.launch? x.launch).map (·.debugOpts) with
  | none => s
  | some d =>
    match d.ring, d.counters with
    | some (base, tlog), some at_ =>
      if s.debugPages x.ctx pkg (at_ + 0x50) 8 then
        match s.vmRead x.ctx pkg .copyRead (at_ + 0x50) 8 with
        | .fail _ _ => s.countersOff x.launch
        | .ok w =>
          let widx := num w 0 4
          let cap := 2 ^ (tlog - 5)
          if (widx + 2 ^ 32 - num w 4 4) % 2 ^ 32 = cap then s.count core x.launch .trLost 1
          else if s.debugPages x.ctx pkg (base + 32 * (widx % cap)) 32 then
            let t := (s.vmWrite x.ctx pkg .copyWrite (at_ + 0x50) (toBytes 4 (widx + 1))).1
            (t.vmWrite x.ctx pkg .copyWrite (base + 32 * (widx % cap)) b).1
          else s.ringOff x.launch
      else s.countersOff x.launch
    | _, _ => s

end State

/-- The oldest tagged request of a context on a core completes (R397); `visited` and `times` are what its path saw. -/
def execTracePost (ctx core : Nat) (visited : Byte) (times : List (BitVec 16)) (s : State) : Out :=
  .next (match (s.core core).tagged.find? fun x => x.ctx == ctx with
    | some x =>
      (s.modCore core fun k => { k with tagged := k.tagged.erase x }).postTrace core x (traceRecord x visited times)
    | none => s)

/-- A correctable soft error is corrected and counted (R69). -/
def execSoftErrorCorrected (core : Nat) (s : State) : Out :=
  .next { s with corrected := s.corrected.put core (s.corrected.read 0 core + 1) }

/-! ## Words that do not decode (R98, R101, R102) -/

def causeCode : DecodeCause → Byte
  | .illegalEncoding => 0x01 | .illegalOpcode => 0x02 | .illegalOperand => 0x03 | .fetchAlign => 0x04

/-- The whole issuing stroke raises a decode cause; XADDR holds the pc for FETCH_ALIGN, else 0 (R101, R355). -/
def execUnassignedOpcode (c : DecodeCause) (s : State) : Out :=
  match s.issuing with
  | none => .fault .noIssuingStroke
  | some u =>
    match s.group? u.gid with
    | none => .fault .noIssuingStroke
    | some _ => .next (s.trap u u.mask (causeCode c) (if c = .fetchAlign then u.pc else 0))

end Sys2Proof.Machine
end

