-- ==== Sys2Proof/Machine/Scalar.lean ====
section
/-! DEFINITION. Scalar instructions (R126 to R141): each executes once for its stroke when its guard is true. -/

namespace Sys2Proof.Machine

/-! ## Shared arithmetic -/

/-- IntDiv on `w`-bit operands (R130, R211): quotient and remainder modulo 2^w, and DZ. -/
def intDiv (w : Nat) (uns : Bool) (a b : Nat) : Nat × Nat × Nat :=
  if b % 2 ^ w = 0 then (2 ^ w - 1, a, flDZ)
  else if uns then (a / b, a % b, 0)
  else
    let x := signed w a
    let y := signed w b
    (wrap w (Int.tdiv x y), wrap w (Int.tmod x y), 0)

/-- Bits 2w - 1 : w of a product (R128, R233). -/
def mulHigh (w : Nat) (uns : Bool) (a b : Nat) : Nat :=
  if uns then a * b / 2 ^ w else wrap w (signed w a * signed w b / (2 ^ w : Nat))

/-- Shifts with a count that may reach or pass the width (R128, R233). -/
def shiftL (w a b : Nat) : Nat := if w ≤ b then 0 else a * 2 ^ b % 2 ^ w
def shiftR (w a b : Nat) : Nat := if w ≤ b then 0 else a / 2 ^ b
def shiftRA (w a b : Nat) : Nat := wrap w (signed w a / (2 ^ min b w : Nat))

/-- `a < b`, signed or unsigned. -/
def lessThan (w : Nat) (uns : Bool) (a b : Nat) : Bool :=
  if uns then decide (a < b) else decide (signed w a < signed w b)

/-- The conditions of R131. -/
def intCmp (w : Nat) (c : IntCond) (uns : Bool) (a b : Nat) : Bool :=
  match c with
  | .eq => a == b
  | .ne => a != b
  | .lt => lessThan w uns a b
  | .le => !lessThan w uns b a
  | .gt => lessThan w uns b a
  | .ge => !lessThan w uns a b
  | .tst => Nat.land a b != 0

/-- A row of the integer mould with a result of its two operands (R128, R129). -/
def intRow (i : Instr) (g : Guard) (sd sa : SReg) (b : SOp) (zext : Bool) (f : Nat → Nat → Nat × Nat) (s : State) : Out :=
  scalarOp i g sd (fun grp =>
    let r := f (grp.rdS sa).toNat (b.value grp zext).toNat
    (BitVec.ofNat 64 r.1, r.2)) s

/-! ## Moves and predicates (R132 to R134) -/

def execSmov (g : Guard) (sd sa : SReg) (s : State) : Out :=
  scalarOp (.smov g sd sa) g sd (fun grp => (grp.rdS sa, 0)) s

def execSmovGetp (g : Guard) (sd : SReg) (s : State) : Out :=
  scalarOp (.smovGetp g sd) g sd (fun grp => (grp.sp.setWidth 64, 0)) s

def execSmovSetp (g : Guard) (sa : SReg) (s : State) : Out :=
  onStroke (.smovSetp g sa) g s fun u grp _ s =>
    let v := (grp.rdS sa).setWidth 8
    let t := s.modGroup u.gid fun h => { h with sp := v }
    ((List.range 8).foldl (fun t k => t.logStrk u grp 1 k (BitVec.ofNat 64 (b2n (v.getLsbD k)))) t).advance u 8

def execSmovi (g : Guard) (sd : SReg) (imm : Word64) (s : State) : Out :=
  scalarOp (.smovi g sd imm) g sd (fun _ => (imm, 0)) s

def execSplog (g : Guard) (t : BitVec 4) (spd spa spb : UPred) (s : State) : Out :=
  scalarPred (.splog g t spd spa spb) g spd (fun grp => (t.getLsbD (2 * b2n (grp.rdSp spa) + b2n (grp.rdSp spb)), 0)) s

/-! ## Integer operations (R128 to R131) -/

def execSadd (g : Guard) (sd sa : SReg) (b : SOp) (s : State) : Out :=
  intRow (.sadd g sd sa b) g sd sa b false (fun x y => (x + y, 0)) s

def execSaddi (g : Guard) (sd sa : SReg) (imm : Word64) (s : State) : Out :=
  scalarOp (.saddi g sd sa imm) g sd (fun grp => (grp.rdS sa + imm, 0)) s

def execSsub (g : Guard) (sd sa : SReg) (b : SOp) (s : State) : Out :=
  intRow (.ssub g sd sa b) g sd sa b false (fun x y => (x + 2 ^ 64 - y, 0)) s

def execSmul (g : Guard) (sd sa : SReg) (b : SOp) (s : State) : Out :=
  intRow (.smul g sd sa b) g sd sa b false (fun x y => (x * y, 0)) s

def execSmulhi (g : Guard) (uns : Bool) (sd sa : SReg) (b : SOp) (s : State) : Out :=
  intRow (.smulhi g uns sd sa b) g sd sa b uns (fun x y => (mulHigh 64 uns x y, 0)) s

def execSdiv (g : Guard) (uns : Bool) (sd sa : SReg) (b : SOp) (s : State) : Out :=
  intRow (.sdiv g uns sd sa b) g sd sa b uns (fun x y => let r := intDiv 64 uns x y; (r.1, r.2.2)) s

def execSrem (g : Guard) (uns : Bool) (sd sa : SReg) (b : SOp) (s : State) : Out :=
  intRow (.srem g uns sd sa b) g sd sa b uns (fun x y => let r := intDiv 64 uns x y; (r.2.1, r.2.2)) s

def execSand (g : Guard) (sd sa : SReg) (b : SOp) (s : State) : Out :=
  intRow (.sand g sd sa b) g sd sa b false (fun x y => (Nat.land x y, 0)) s

def execSor (g : Guard) (sd sa : SReg) (b : SOp) (s : State) : Out :=
  intRow (.sor g sd sa b) g sd sa b false (fun x y => (Nat.lor x y, 0)) s

def execSxor (g : Guard) (sd sa : SReg) (b : SOp) (s : State) : Out :=
  intRow (.sxor g sd sa b) g sd sa b false (fun x y => (Nat.xor x y, 0)) s

def execSshl (g : Guard) (sd sa : SReg) (b : SOp) (s : State) : Out :=
  intRow (.sshl g sd sa b) g sd sa b true (fun x y => (shiftL 64 x y, 0)) s

def execSshr (g : Guard) (sd sa : SReg) (b : SOp) (s : State) : Out :=
  intRow (.sshr g sd sa b) g sd sa b true (fun x y => (shiftR 64 x y, 0)) s

def execSshra (g : Guard) (sd sa : SReg) (b : SOp) (s : State) : Out :=
  intRow (.sshra g sd sa b) g sd sa b true (fun x y => (shiftRA 64 x y, 0)) s

def execSmin (g : Guard) (uns : Bool) (sd sa : SReg) (b : SOp) (s : State) : Out :=
  intRow (.smin g uns sd sa b) g sd sa b uns (fun x y => (if lessThan 64 uns x y then x else y, 0)) s

def execSmax (g : Guard) (uns : Bool) (sd sa : SReg) (b : SOp) (s : State) : Out :=
  intRow (.smax g uns sd sa b) g sd sa b uns (fun x y => (if lessThan 64 uns x y then y else x, 0)) s

def execSsel (g : Guard) (k : UPred) (sd sa : SReg) (b : SOp) (s : State) : Out :=
  scalarOp (.ssel g k sd sa b) g sd (fun grp => (if grp.rdSp k then grp.rdS sa else b.value grp false, 0)) s

/-- SCMP (R131). With .u an immediate is zero-extended under every condition, those that U leaves alone included: DEDUCED (log 55). -/
def execScmp (g : Guard) (c : IntCond) (uns : Bool) (spd : UPred) (sa : SReg) (b : SOp) (s : State) : Out :=
  scalarPred (.scmp g c uns spd sa b) g spd
    (fun grp => (intCmp 64 c uns (grp.rdS sa).toNat (b.value grp uns).toNat, 0)) s

def execSlea (g : Guard) (k : BitVec 3) (sd sa : SReg) (b : SOp) (s : State) : Out :=
  intRow (.slea g k sd sa b) g sd sa b false (fun x y => (x + y * 2 ^ k.toNat, 0)) s

/-! ## Bit fields and counts (R135, R136) -/

def execSbfx (g : Guard) (sx : Bool) (sd sa : SReg) (pos : BitVec 6) (width : BitVec 7) (s : State) : Out :=
  scalarOp (.sbfx g sx sd sa pos width) g sd (fun grp =>
    let v := field (grp.rdS sa).toNat pos.toNat width.toNat
    (BitVec.ofNat 64 (if sx then wrap 64 (signed width.toNat v) else v), 0)) s

def execSbfi (g : Guard) (sd sa : SReg) (pos : BitVec 6) (width : BitVec 7) (s : State) : Out :=
  scalarOp (.sbfi g sd sa pos width) g sd (fun grp =>
    (BitVec.ofNat 64 (setField (grp.rdS sd).toNat pos.toNat width.toNat (grp.rdS sa).toNat), 0)) s

def execSclz (g : Guard) (sd sa : SReg) (s : State) : Out :=
  scalarOp (.sclz g sd sa) g sd (fun grp => (BitVec.ofNat 64 (leadingZeros 64 (grp.rdS sa).toNat), 0)) s

def execSpopc (g : Guard) (sd sa : SReg) (s : State) : Out :=
  scalarOp (.spopc g sd sa) g sd (fun grp => (BitVec.ofNat 64 (popCount 64 (grp.rdS sa).toNat), 0)) s

/-! ## Scalar floating point (R137 to R141) -/

/-- The f32 value in the low bits of a uniform register (R137). -/
def sF32 (g : Group) (n : SReg) : Val := fmtF32.decode (field (g.rdS n).toNat 0 32)

/-- Rounds an exact result to f32 and joins the flags of both steps (R138). -/
def sRound (rnd : Rounding) (r : Val × Nat) : Word64 × Nat :=
  let x := roundF32 rnd r.1
  (BitVec.ofNat 64 x.1, orFl r.2 x.2)

def execSfadd (g : Guard) (rnd : Rounding) (sd sa sb : SReg) (s : State) : Out :=
  scalarOp (.sfadd g rnd sd sa sb) g sd (fun grp => sRound rnd (sumVals rnd [sF32 grp sa, sF32 grp sb])) s

def execSfmul (g : Guard) (rnd : Rounding) (sd sa sb : SReg) (s : State) : Out :=
  scalarOp (.sfmul g rnd sd sa sb) g sd (fun grp => sRound rnd (mulVal (sF32 grp sa) (sF32 grp sb))) s

def execSfma (g : Guard) (rnd : Rounding) (sd sa sb : SReg) (s : State) : Out :=
  scalarOp (.sfma g rnd sd sa sb) g sd
    (fun grp => sRound rnd (fusedSum rnd (sF32 grp sd) [(sF32 grp sa, sF32 grp sb)])) s

def execSfcmp (g : Guard) (c : FloatCond) (spd : UPred) (sa sb : SReg) (s : State) : Out :=
  scalarPred (.sfcmp g c spd sa sb) g spd (fun grp => fcmp c (sF32 grp sa) (sF32 grp sb)) s

/-- Place for a uniform register: an i32 result is sign-extended (R137). -/
def placeS (dst : ElemTy) (x : Nat) : Word64 :=
  if dst = .i32 then BitVec.ofNat 64 (wrap 64 (signed 32 x)) else BitVec.ofNat 64 x

def execSfcvt (g : Guard) (src dst : ElemTy) (rnd : Rounding) (sat : Bool) (sd sa : SReg) (s : State) : Out :=
  scalarOp (.sfcvt g src dst rnd sat sd sa) g sd (fun grp =>
    let r := convert src dst rnd sat (grp.rdS sa).toNat
    (placeS dst r.1, r.2)) s

end Sys2Proof.Machine
end

