-- ==== Sys2Proof/Machine/Vector.lean ====
section
/-! DEFINITION. Vector moves, integers, predicates, lane exchange and reductions (R219 to R243). -/

namespace Sys2Proof.Machine

/-! ## Lane functions -/

/-- A lane of a plain vector operand. -/
def Group.lane (g : Group) (r : VReg) (f : Nat) : Nat := (g.laneAt r.toNat f).toNat

/-- The value of a lane read as i32 or n32. -/
def laneInt (t : IntTy) (x : Nat) : Int := match t with | .i32 => signed 32 x | .n32 => (x : Nat)

/-- SatInt (R211). -/
def satInt (t : IntTy) (x : Int) : Nat :=
  match t with
  | .i32 => wrap 32 (max (-2147483648) (min x 2147483647))
  | .n32 => wrap 32 (max 0 (min x 4294967295))

/-- Narrows an exact result, saturating or wrapping (R234). -/
def narrow (t : IntTy) (sat : Bool) (x : Int) : Nat := if sat then satInt t x else wrap 32 x

def unsTy (t : IntTy) : Bool := match t with | .i32 => false | .n32 => true

/-- A row of the integer mould with operands va and b (R233, R234). -/
def vInt (i : Instr) (g : Guard) (nr : Bool) (vd va : VReg) (b : VOp) (f : Nat → Nat → Nat × Nat) (s : State) : Out :=
  vectorOp i g nr 0 vd va (fun grp _ A _ l => f (A l).toNat (b.lane grp l).toNat) s

/-- A row with one operand. -/
def vUn (i : Instr) (g : Guard) (nr : Bool) (vd va : VReg) (f : Nat → Nat) (s : State) : Out :=
  vectorOp i g nr 0 vd va (fun _ _ A _ l => (f (A l).toNat, 0)) s

/-! ## Moves and lane identity (R228 to R232) -/

def execVmov (g : Guard) (nr : Bool) (ix : Ix) (more : BitVec 6) (vd va : VReg) (s : State) : Out :=
  if more = 0 then vectorOp (.vmov g nr ix more vd va) g nr ix vd va (fun _ _ A _ f => ((A f).toNat, 0)) s
  else vectorMulti (.vmov g nr ix more vd va) g nr vd (more.toNat + 1)
    (fun grp k f => (((grp.rdV (va.toNat + k)).lane f).toNat, 0)) s

def execVmovi (g : Guard) (nr : Bool) (ix : Ix) (ty : ElemTy) (vd : VReg) (imm : Word32) (s : State) : Out :=
  vectorOp (.vmovi g nr ix ty vd imm) g nr ix vd 0 (fun _ _ _ _ _ => (imm.toNat, 0)) s

def execVmovx (g : Guard) (nr : Bool) (xd : XReg) (va : VReg) (s : State) : Out :=
  onStroke (.vmovx g nr xd va) g s fun u _ a s =>
    s.withRegs u [va.toNat] fun grp s =>
    (s.modGroup u.gid fun h => h.wrX xd (grp.merged a (grp.rdX xd) fun f => BitVec.ofNat 16 (grp.lane va f))).advance u 8

/-- VSTX never qualifies for reuse (R225). -/
def execVstx (g : Guard) (nr : Bool) (vd : VReg) (xa : XReg) (s : State) : Out :=
  vectorOp (.vstx g nr vd xa) g true 0 vd vd (fun grp _ _ _ f => (wrap 32 ((grp.rdX xa).lane f).toInt, 0)) s

def execViota (g : Guard) (nr : Bool) (rank : Bool) (vd : VReg) (s : State) : Out :=
  vectorOp (.viota g nr rank vd) g nr 0 vd vd
    (fun _ a _ _ f => (if rank then popCount f a.toNat else f, 0)) s

def execStov (g : Guard) (nr : Bool) (hi : Bool) (vd : VReg) (sa : SReg) (s : State) : Out :=
  vectorOp (.stov g nr hi vd sa) g nr 0 vd vd
    (fun grp _ _ _ _ => (field (grp.rdS sa).toNat (if hi then 32 else 0) 32, 0)) s

/-- VTOS reads the lowest active lane, helpers included (R232). -/
def execVtos (g : Guard) (nr : Bool) (mode : VtosMode) (sd : SReg) (va : VReg) (s : State) : Out :=
  onStroke (.vtos g nr mode sd va) g s fun u _ a s =>
    s.withRegs u [va.toNat] fun grp s =>
    let x := grp.lane va (lowest a)
    let v := match mode with
      | .zext => BitVec.ofNat 64 x
      | .sext => BitVec.ofNat 64 (wrap 64 (signed 32 x))
      | .hi => BitVec.ofNat 64 (setField (grp.rdS sd).toNat 32 32 x)
    (s.writeS u grp sd v).advance u 8

/-! ## The integer mould (R233 to R239) -/

def execVadd (g : Guard) (nr : Bool) (ty : IntTy) (sat : Bool) (vd va : VReg) (b : VOp) (s : State) : Out :=
  vInt (.vadd g nr ty sat vd va b) g nr vd va b (fun x y => (narrow ty sat (laneInt ty x + laneInt ty y), 0)) s

def execVsub (g : Guard) (nr : Bool) (ty : IntTy) (sat : Bool) (vd va : VReg) (b : VOp) (s : State) : Out :=
  vInt (.vsub g nr ty sat vd va b) g nr vd va b (fun x y => (narrow ty sat (laneInt ty x - laneInt ty y), 0)) s

def execVmul (g : Guard) (nr : Bool) (ty : IntTy) (sat : Bool) (vd va : VReg) (b : VOp) (s : State) : Out :=
  vInt (.vmul g nr ty sat vd va b) g nr vd va b (fun x y => (narrow ty sat (laneInt ty x * laneInt ty y), 0)) s

def execVmulhi (g : Guard) (nr : Bool) (ty : IntTy) (vd va : VReg) (b : VOp) (s : State) : Out :=
  vInt (.vmulhi g nr ty vd va b) g nr vd va b (fun x y => (mulHigh 32 (unsTy ty) x y, 0)) s

def execVmad (g : Guard) (nr : Bool) (ix : Ix) (ty : IntTy) (sat : Bool) (vd va vb vc : VReg) (s : State) : Out :=
  vectorOp (.vmad g nr ix ty sat vd va vb vc) g nr ix vd va
    (fun grp _ A _ f =>
      (narrow ty sat (laneInt ty (A f).toNat * laneInt ty (grp.lane vb f) + laneInt ty (grp.lane vc f)), 0)) s

def execVdiv (g : Guard) (nr : Bool) (ty : IntTy) (vd va : VReg) (b : VOp) (s : State) : Out :=
  vInt (.vdiv g nr ty vd va b) g nr vd va b (fun x y => let r := intDiv 32 (unsTy ty) x y; (r.1, r.2.2)) s

def execVrem (g : Guard) (nr : Bool) (ty : IntTy) (vd va : VReg) (b : VOp) (s : State) : Out :=
  vInt (.vrem g nr ty vd va b) g nr vd va b (fun x y => let r := intDiv 32 (unsTy ty) x y; (r.2.1, r.2.2)) s

def execVand (g : Guard) (nr : Bool) (vd va : VReg) (b : VOp) (s : State) : Out :=
  vInt (.vand g nr vd va b) g nr vd va b (fun x y => (Nat.land x y, 0)) s

def execVor (g : Guard) (nr : Bool) (vd va : VReg) (b : VOp) (s : State) : Out :=
  vInt (.vor g nr vd va b) g nr vd va b (fun x y => (Nat.lor x y, 0)) s

def execVxor (g : Guard) (nr : Bool) (vd va : VReg) (b : VOp) (s : State) : Out :=
  vInt (.vxor g nr vd va b) g nr vd va b (fun x y => (Nat.xor x y, 0)) s

def execVnot (g : Guard) (nr : Bool) (vd va : VReg) (s : State) : Out :=
  vUn (.vnot g nr vd va) g nr vd va (fun x => 2 ^ 32 - 1 - x) s

def execVshl (g : Guard) (nr : Bool) (vd va : VReg) (b : VOp) (s : State) : Out :=
  vInt (.vshl g nr vd va b) g nr vd va b (fun x y => (shiftL 32 x y, 0)) s

def execVshr (g : Guard) (nr : Bool) (vd va : VReg) (b : VOp) (s : State) : Out :=
  vInt (.vshr g nr vd va b) g nr vd va b (fun x y => (shiftR 32 x y, 0)) s

def execVshra (g : Guard) (nr : Bool) (vd va : VReg) (b : VOp) (s : State) : Out :=
  vInt (.vshra g nr vd va b) g nr vd va b (fun x y => (shiftRA 32 x y, 0)) s

def execVmin (g : Guard) (nr : Bool) (ty : IntTy) (vd va : VReg) (b : VOp) (s : State) : Out :=
  vInt (.vmin g nr ty vd va b) g nr vd va b (fun x y => (if lessThan 32 (unsTy ty) x y then x else y, 0)) s

def execVmax (g : Guard) (nr : Bool) (ty : IntTy) (vd va : VReg) (b : VOp) (s : State) : Out :=
  vInt (.vmax g nr ty vd va b) g nr vd va b (fun x y => (if lessThan 32 (unsTy ty) x y then y else x, 0)) s

def execVabs (g : Guard) (nr : Bool) (sat : Bool) (vd va : VReg) (s : State) : Out :=
  vUn (.vabs g nr sat vd va) g nr vd va (fun x => narrow .i32 sat (signed 32 x).natAbs) s

def execVneg (g : Guard) (nr : Bool) (sat : Bool) (vd va : VReg) (s : State) : Out :=
  vUn (.vneg g nr sat vd va) g nr vd va (fun x => narrow .i32 sat (-signed 32 x)) s

def execVclz (g : Guard) (nr : Bool) (vd va : VReg) (s : State) : Out :=
  vUn (.vclz g nr vd va) g nr vd va (leadingZeros 32) s

def execVpopc (g : Guard) (nr : Bool) (vd va : VReg) (s : State) : Out :=
  vUn (.vpopc g nr vd va) g nr vd va (popCount 32) s

def execVsel (g : Guard) (nr : Bool) (ix : Ix) (vd va vb vc : VReg) (s : State) : Out :=
  vectorOp (.vsel g nr ix vd va vb vc) g nr ix vd va
    (fun grp _ A _ f => (if grp.lane vc f ≠ 0 then (A f).toNat else grp.lane vb f, 0)) s

def execVcmp (g : Guard) (nr : Bool) (c : IntCond) (ty : IntTy) (pd : PReg) (va : VReg) (b : VOp) (s : State) : Out :=
  predOp (.vcmp g nr c ty pd va b) g pd
    (fun grp f => (intCmp 32 c (unsTy ty) (grp.lane va f) (b.lane grp f).toNat, 0)) s

def execVplog (g : Guard) (nr : Bool) (t : BitVec 4) (pd pa pb : PReg) (s : State) : Out :=
  predOp (.vplog g nr t pd pa pb) g pd
    (fun grp f => (t.getLsbD (2 * b2n ((grp.rdP pa).getLsbD f) + b2n ((grp.rdP pb).getLsbD f)), 0)) s

/-- The field of a lane (R237): position, and width cut to the lane. -/
def laneField (b c : Nat) : Nat × Nat := (b % 32, min (c % 64) (32 - b % 32))

def execVbfx (g : Guard) (nr : Bool) (ix : Ix) (ty : IntTy) (vd va vb vc : VReg) (s : State) : Out :=
  vectorOp (.vbfx g nr ix ty vd va vb vc) g nr ix vd va
    (fun grp _ A _ f =>
      let p := laneField (grp.lane vb f) (grp.lane vc f)
      let v := field (A f).toNat p.1 p.2
      (if p.2 = 0 then 0 else match ty with | .i32 => wrap 32 (signed p.2 v) | .n32 => v, 0)) s

def execVbfi (g : Guard) (nr : Bool) (ix : Ix) (vd va vb vc : VReg) (s : State) : Out :=
  vectorOp (.vbfi g nr ix vd va vb vc) g nr ix vd va
    (fun grp _ A D f =>
      let p := laneField (grp.lane vb f) (grp.lane vc f)
      (setField (D f).toNat p.1 p.2 (A f).toNat, 0)) s

/-! ## Lane exchange (R240, R241) -/

def execVperm (g : Guard) (nr : Bool) (vd va vb vc : VReg) (s : State) : Out :=
  vectorOp (.vperm g nr vd va vb vc) g nr 0 vd va
    (fun grp _ A _ f =>
      let i := grp.lane vb f
      (if bitAt i 5 then grp.lane vc (i % 32) else (A (i % 32)).toNat, 0)) s

def execVshfl (g : Guard) (nr : Bool) (mode : ShflMode) (vd va vb : VReg) (s : State) : Out :=
  vectorOp (.vshfl g nr mode vd va vb) g nr 0 vd va
    (fun grp _ A _ f =>
      let k := grp.lane vb f % 32
      (match mode with
        | .up vc => if k ≤ f then (A (f - k)).toNat else grp.lane vc f
        | .down vc => if f + k ≤ 31 then (A (f + k)).toNat else grp.lane vc f
        | .xor => (A (Nat.xor f k)).toNat
        | .rot => (A ((f + k) % 32)).toNat, 0)) s

def execQswap (g : Guard) (nr : Bool) (m : BitVec 2) (vd va : VReg) (s : State) : Out :=
  vectorOp (.qswap g nr m vd va) g nr 0 vd va (fun _ _ A _ f => ((A (Nat.xor f m.toNat)).toNat, 0)) s

def execQbcast (g : Guard) (nr : Bool) (k : BitVec 2) (vd va : VReg) (s : State) : Out :=
  vectorOp (.qbcast g nr k vd va) g nr 0 vd va (fun _ _ A _ f => ((A (f / 4 * 4 + k.toNat)).toNat, 0)) s

/-! ## Reductions and scans (R216, R242) -/

/-- The identity of a combination. -/
def redIdentity (fn : RedFn) (ty : RedTy) : Nat :=
  match ty with
  | .f32 _ => match fn with | .min => 0x7F800000 | .max => 0xFF800000 | .mul => 0x3F800000 | _ => 0x80000000
  | .i32 => match fn with | .min => 0x7FFFFFFF | .max => 0x80000000 | .and => 0xFFFFFFFF | .mul => 1 | _ => 0
  | .n32 => match fn with | .min => 0xFFFFFFFF | .max => 0 | .and => 0xFFFFFFFF | .mul => 1 | _ => 0

/-- Rounds an exact value into a format and joins flags. -/
def finish (F : Fmt) (rnd : Rounding) (sat : Bool) (r : Val × Nat) : Nat × Nat :=
  let x := roundTo F rnd sat r.1
  (x.1, orFl r.2 x.2)

/-- One combination, the left operand first. -/
def redCombine (fn : RedFn) (ty : RedTy) (a b : Nat) : Nat × Nat :=
  match ty with
  | .f32 rnd =>
    match fn with
    | .min => fminmax fmtF32 false a b
    | .max => fminmax fmtF32 true a b
    | .mul => finish fmtF32 rnd false (mulVal (fmtF32.decode a) (fmtF32.decode b))
    | _ => finish fmtF32 rnd false (sumVals rnd [fmtF32.decode a, fmtF32.decode b])
  | _ =>
    let uns := match ty with | .n32 => true | _ => false
    (match fn with
      | .add => (a + b) % 2 ^ 32
      | .min => if lessThan 32 uns a b then a else b
      | .max => if lessThan 32 uns a b then b else a
      | .and => Nat.land a b
      | .or => Nat.lor a b
      | .xor => Nat.xor a b
      | .mul => a * b % 2 ^ 32, 0)

/-- One level of the tree: neighbours combine, the lower-indexed on the left. -/
def treePairs (fn : RedFn) (ty : RedTy) : List Nat → List Nat × Nat
  | a :: b :: rest =>
    let c := redCombine fn ty a b
    let r := treePairs fn ty rest
    (c.1 :: r.1, orFl c.2 r.2)
  | xs => (xs, 0)

/-- TreeReduce over 2 ^ n lanes (R216). -/
def treeReduce (fn : RedFn) (ty : RedTy) : Nat → List Nat → Nat → Nat × Nat
  | 0, xs, fl => (xs.headD 0, fl)
  | n + 1, xs, fl =>
    let r := treePairs fn ty xs
    treeReduce fn ty n r.1 (orFl fl r.2)

/-- The sequential fold of a scan (R216): the value before and after each lane. -/
def scanFold (fn : RedFn) (ty : RedTy) : List Nat → Nat → Nat → List (Nat × Nat) × Nat
  | [], _, fl => ([], fl)
  | a :: rest, acc, fl =>
    let c := redCombine fn ty acc a
    let r := scanFold fn ty rest c.1 (orFl fl c.2)
    ((acc, c.1) :: r.1, r.2)

/-- The lanes of a reduction: the identity where a fibre is not active. -/
def redLanes (fn : RedFn) (ty : RedTy) (a : BitVec 32) (A : Nat → Word32) : List Nat :=
  (List.range 32).map fun f => if a.getLsbD f then (A f).toNat else redIdentity fn ty

def execVred (g : Guard) (nr : Bool) (fn : RedFn) (ty : RedTy) (vd va : VReg) (s : State) : Out :=
  vectorOp (.vred g nr fn ty vd va) g nr 0 vd va
    (fun _ a A _ =>
      let t := treeReduce fn ty 5 (redLanes fn ty a A) 0
      fun _ => t) s

def execVscan (g : Guard) (nr : Bool) (fn : RedFn) (excl : Bool) (ty : RedTy) (vd va : VReg) (s : State) : Out :=
  vectorOp (.vscan g nr fn excl ty vd va) g nr 0 vd va
    (fun _ a A _ =>
      let t := scanFold fn ty (redLanes fn ty a A) (redIdentity fn ty) 0
      fun f =>
        let r := t.1.getD f (0, 0)
        (if excl then r.1 else r.2, t.2)) s

/-! ## Predicates into the uniform file (R243) -/

def execVballot (g : Guard) (nr : Bool) (sd : SReg) (pa : PReg) (s : State) : Out :=
  onStroke (.vballot g nr sd pa) g s fun u grp a s =>
    (s.writeS u grp sd ((a &&& grp.rdP pa).setWidth 64)).advance u 8

def execPtest (g : Guard) (nr : Bool) (mode : TestMode) (spd : UPred) (pa : PReg) (s : State) : Out :=
  onStroke (.ptest g nr mode spd pa) g s fun u grp a s =>
    let m := a &&& grp.rdP pa
    (s.writeSp u grp spd (match mode with | .any => m != 0 | .all => m == a | .none => m == 0)).advance u 8

end Sys2Proof.Machine
end

