-- ==== Sys2Proof/Machine/Float.lean ====
section
/-! DEFINITION. Vector floating point, conversion, packing and dot products (R244 to R252). -/

namespace Sys2Proof.Machine

/-! ## Element-wise application (R227) -/

/-- An operation on the elements of a lane: one element for f32, two for the 16-bit types (R227). -/
def perElement (ty : FloatTy) (op : Nat → Nat × Nat) : Nat × Nat :=
  match ty with
  | .f32 => op 0
  | _ =>
    let lo := op 0
    let hi := op 1
    (lo.1 + hi.1 * 2 ^ 16, orFl lo.2 hi.2)

/-- The encoding of element `k` of a lane of a type. -/
def elemBits (ty : FloatTy) (x k : Nat) : Nat := match ty with | .f32 => x | _ => field x (16 * k) 16

def elemOf (ty : FloatTy) (x k : Nat) : Val := ty.fmt.decode (elemBits ty x k)

/-- A row of the mould of R244 with two operands. -/
def vf2 (i : Instr) (g : Guard) (nr : Bool) (ix : Ix) (ty : FloatTy) (rnd : Rounding) (sat : Bool) (vd va vb : VReg)
    (f : Val → Val → Val × Nat) (s : State) : Out :=
  vectorOp i g nr ix vd va
    (fun grp _ A _ l => perElement ty fun k =>
      finish ty.fmt rnd sat (f (elemOf ty (A l).toNat k) (elemOf ty (grp.lane vb l) k))) s

/-- A row with one f32 operand. -/
def vf1 (i : Instr) (g : Guard) (nr : Bool) (ix : Ix) (rnd : Rounding) (sat : Bool) (vd va : VReg)
    (f : Val → Val × Nat) (s : State) : Out :=
  vectorOp i g nr ix vd va (fun _ _ A _ l => finish fmtF32 rnd sat (f (fmtF32.decode (A l).toNat))) s

def execVfadd (g : Guard) (nr : Bool) (ix : Ix) (ty : FloatTy) (rnd : Rounding) (sat : Bool) (vd va vb : VReg)
    (s : State) : Out :=
  vf2 (.vfadd g nr ix ty rnd sat vd va vb) g nr ix ty rnd sat vd va vb (fun a b => sumVals rnd [a, b]) s

def execVfsub (g : Guard) (nr : Bool) (ix : Ix) (ty : FloatTy) (rnd : Rounding) (sat : Bool) (vd va vb : VReg)
    (s : State) : Out :=
  vf2 (.vfsub g nr ix ty rnd sat vd va vb) g nr ix ty rnd sat vd va vb (fun a b => sumVals rnd [a, b.negate]) s

def execVfmul (g : Guard) (nr : Bool) (ix : Ix) (ty : FloatTy) (rnd : Rounding) (sat : Bool) (vd va vb : VReg)
    (s : State) : Out :=
  vf2 (.vfmul g nr ix ty rnd sat vd va vb) g nr ix ty rnd sat vd va vb mulVal s

def execVfma (g : Guard) (nr : Bool) (ix : Ix) (ty : FloatTy) (rnd : Rounding) (sat : Bool) (vd va vb vc : VReg)
    (s : State) : Out :=
  vectorOp (.vfma g nr ix ty rnd sat vd va vb vc) g nr ix vd va
    (fun grp _ A _ l => perElement ty fun k =>
      finish ty.fmt rnd sat (fusedSum rnd (elemOf ty (grp.lane vc l) k)
        [(elemOf ty (A l).toNat k, elemOf ty (grp.lane vb l) k)])) s

def execVfrcp (g : Guard) (nr : Bool) (ix : Ix) (rnd : Rounding) (sat : Bool) (vd va : VReg) (s : State) : Out :=
  vf1 (.vfrcp g nr ix rnd sat vd va) g nr ix rnd sat vd va (divVal (.num false 1 0)) s

def execVfrsq (g : Guard) (nr : Bool) (ix : Ix) (rnd : Rounding) (sat : Bool) (vd va : VReg) (s : State) : Out :=
  vf1 (.vfrsq g nr ix rnd sat vd va) g nr ix rnd sat vd va rsqrtVal s

def execVfsqrt (g : Guard) (nr : Bool) (ix : Ix) (rnd : Rounding) (sat : Bool) (vd va : VReg) (s : State) : Out :=
  vf1 (.vfsqrt g nr ix rnd sat vd va) g nr ix rnd sat vd va sqrtVal s

def execVfdiv (g : Guard) (nr : Bool) (ix : Ix) (rnd : Rounding) (sat : Bool) (vd va vb : VReg) (s : State) : Out :=
  vf2 (.vfdiv g nr ix rnd sat vd va vb) g nr ix .f32 rnd sat vd va vb divVal s

def execVfexp2 (g : Guard) (nr : Bool) (ix : Ix) (rnd : Rounding) (sat : Bool) (vd va : VReg) (s : State) : Out :=
  vf1 (.vfexp2 g nr ix rnd sat vd va) g nr ix rnd sat vd va exp2Val s

def execVflog2 (g : Guard) (nr : Bool) (ix : Ix) (rnd : Rounding) (sat : Bool) (vd va : VReg) (s : State) : Out :=
  vf1 (.vflog2 g nr ix rnd sat vd va) g nr ix rnd sat vd va log2Val s

/-- a × 2^n (R244). -/
def sclVal (n : Int) (a : Val) : Val × Nat :=
  match a with
  | .num neg m e => (.num neg m (e + n), 0)
  | x => (x, sigFlag [x])

def execVfscl (g : Guard) (nr : Bool) (ix : Ix) (rnd : Rounding) (sat : Bool) (vd va vb : VReg) (s : State) : Out :=
  vectorOp (.vfscl g nr ix rnd sat vd va vb) g nr ix vd va
    (fun grp _ A _ l => finish fmtF32 rnd sat (sclVal (signed 32 (grp.lane vb l)) (fmtF32.decode (A l).toNat))) s

/-! ## Minimum, maximum, sign and comparison (R245 to R247) -/

def execVfmin (g : Guard) (nr : Bool) (ty : FloatTy) (vd va : VReg) (b : VOp) (s : State) : Out :=
  vInt (.vfmin g nr ty vd va b) g nr vd va b
    (fun x y => perElement ty fun k => fminmax ty.fmt false (elemBits ty x k) (elemBits ty y k)) s

def execVfmax (g : Guard) (nr : Bool) (ty : FloatTy) (vd va : VReg) (b : VOp) (s : State) : Out :=
  vInt (.vfmax g nr ty vd va b) g nr vd va b
    (fun x y => perElement ty fun k => fminmax ty.fmt true (elemBits ty x k) (elemBits ty y k)) s

/-- The sign of an element set by a function of it; a NaN becomes the canonical NaN (R245). -/
def signOp (F : Fmt) (f : Bool → Bool) (x : Nat) : Nat × Nat :=
  let v := F.decode x
  if v.isNan then (F.nan, sigFlag [v])
  else (F.signed (f (bitAt x (F.bits - 1))) (field x 0 (F.bits - 1)), 0)

def execVfabs (g : Guard) (nr : Bool) (ty : FloatTy) (vd va : VReg) (s : State) : Out :=
  vectorOp (.vfabs g nr ty vd va) g nr 0 vd va
    (fun _ _ A _ l => perElement ty fun k => signOp ty.fmt (fun _ => false) (elemBits ty (A l).toNat k)) s

def execVfneg (g : Guard) (nr : Bool) (ty : FloatTy) (vd va : VReg) (s : State) : Out :=
  vectorOp (.vfneg g nr ty vd va) g nr 0 vd va
    (fun _ _ A _ l => perElement ty fun k => signOp ty.fmt (fun n => !n) (elemBits ty (A l).toNat k)) s

def execVfcmp (g : Guard) (nr : Bool) (c : FloatCond) (pd : PReg) (va : VReg) (b : VOp) (s : State) : Out :=
  predOp (.vfcmp g nr c pd va b) g pd
    (fun grp f => fcmp c (fmtF32.decode (grp.lane va f)) (fmtF32.decode (b.lane grp f).toNat)) s

def execVfexpo (g : Guard) (nr : Bool) (vd va : VReg) (s : State) : Out :=
  vectorOp (.vfexpo g nr vd va) g nr 0 vd va (fun _ _ A _ f => expoOf (A f).toNat) s

def execVfclass (g : Guard) (nr : Bool) (ty : ClassTy) (vd va : VReg) (s : State) : Out :=
  vUn (.vfclass g nr ty vd va) g nr vd va (classOf ty.fmt) s

/-! ## Conversion and packing (R248, R249) -/

def execVcvt (g : Guard) (nr : Bool) (ix : Ix) (src dst : ElemTy) (rnd : Rounding) (sat : Bool) (vd va : VReg)
    (s : State) : Out :=
  vectorOp (.vcvt g nr ix src dst rnd sat vd va) g nr ix vd va
    (fun _ _ A _ f => convert src dst rnd sat (A f).toNat) s

def HalfTy.elem : HalfTy → ElemTy | .f16 => .f16 | .bf16 => .bf16
def Fp8Ty.elem : Fp8Ty → ElemTy | .e4m3 => .e4m3 | .e5m2 => .e5m2

def execVpack2 (g : Guard) (nr : Bool) (ty : HalfTy) (rnd : Rounding) (sat : Bool) (vd va vb : VReg) (s : State) : Out :=
  vectorOp (.vpack2 g nr ty rnd sat vd va vb) g nr 0 vd va
    (fun grp _ A _ f =>
      let lo := convert .f32 (HalfTy.elem ty) rnd sat (A f).toNat
      let hi := convert .f32 (HalfTy.elem ty) rnd sat (grp.lane vb f)
      (hi.1 * 2 ^ 16 + lo.1, orFl lo.2 hi.2)) s

def execVunpack2 (g : Guard) (nr : Bool) (ty : HalfTy) (vd va : VReg) (s : State) : Out :=
  vectorMulti (.vunpack2 g nr ty vd va) g nr vd 2
    (fun grp k f => convert (HalfTy.elem ty) .f32 .rne false (field (grp.lane va f) (16 * k) 16)) s

def execVpack4 (g : Guard) (nr : Bool) (ty : Fp8Ty) (rnd : Rounding) (sat : Bool) (vd va : VReg) (s : State) : Out :=
  vectorMulti (.vpack4 g nr ty rnd sat vd va) g nr vd 1
    (fun grp _ f => (List.range 4).foldl (fun acc j =>
      let c := convert .f32 (Fp8Ty.elem ty) rnd sat ((grp.rdV (va.toNat + j)).lane f).toNat
      (acc.1 + c.1 * 2 ^ (8 * j), orFl acc.2 c.2)) (0, 0)) s

def execVunpack4 (g : Guard) (nr : Bool) (ty : Fp8Ty) (vd va : VReg) (s : State) : Out :=
  vectorMulti (.vunpack4 g nr ty vd va) g nr vd 4
    (fun grp k f => convert (Fp8Ty.elem ty) .f32 .rne false (field (grp.lane va f) (8 * k) 8)) s

/-! ## QF4 blocks (R250, R251) -/

/-- `m · 2 ^ e` as an exact fraction over 2 ^ 160 (every f32 value is one). -/
def fix160 (neg : Bool) (m : Nat) (e : Int) : Int := scaled neg m (e + 160) 0

/-- What VQPACK knows of an element: its code, the flags of its conversion, and for a finite value the quarter count, the
gain over 2 ^ 160, and whether the quarters are exact. -/
structure QElem where
  code  : Nat
  fl    : Nat
  q     : Int := 0
  gain  : Int := 0
  exact : Bool := true

def qElem (rnd : Rounding) (v : Val) : QElem :=
  let r := roundTo fmtE2m1 rnd false v
  let code := if r.1 = 8 then 0 else r.1
  match v with
  | .num n m e =>
    let x := fix160 n m e
    let q := max (-128) (min (roundInt rnd n m (e + 2)) 127)
    let c := qf4Quarters code 0 * (2 ^ 158 : Nat)
    let y := q * (2 ^ 158 : Nat)
    { code := code, fl := orFl r.2 (sigFlag [v]), q := q, gain := ((x - c).natAbs : Int) - (x - y).natAbs, exact := x == y }
  | _ => { code := code, fl := orFl r.2 (sigFlag [v]) }

/-- The element with the largest gain above zero; ties keep the lower index. -/
def qBest (es : List QElem) : Option Nat :=
  ((List.range es.length).foldl (fun b i =>
    let gi := match es[i]? with | some x => x.gain | none => 0
    if b.2 < gi then (some i, gi) else b) ((none, 0) : Option Nat × Int)).1

/-- VQPACK's five lanes, and its flags. -/
def qPack (rnd : Rounding) (vs : List Val) : List Nat × Nat :=
  let es := vs.map (qElem rnd)
  let best := qBest es
  let code := fun i => match es[i]? with | some x => if best = some i then 8 else x.code | none => 0
  let x := match best with
    | none => 0
    | some i => (match es[i]? with | some x => x.q | none => 0)
  let fl := (List.range es.length).foldl (fun a i =>
    match es[i]? with
    | some x => if best = some i then orFl a (if x.exact then 0 else flNX) else orFl a x.fl
    | none => a) 0
  ((List.range 4).map (fun j => (List.range 8).foldl (fun a k => a + code (8 * j + k) * 16 ^ k) 0) ++ [wrap 8 x], fl)

def execVqpack (g : Guard) (nr : Bool) (rnd : Rounding) (vd va : VReg) (s : State) : Out :=
  vectorOp (.vqpack g nr rnd vd va) g nr 0 vd va
    (fun _ a A _ =>
      let r := qPack rnd ((List.range 32).map fun i => if a.getLsbD i then fmtF32.decode (A i).toNat else .num false 0 0)
      fun f => (r.1.getD f 0, r.2)) s

def execVqunpk (g : Guard) (nr : Bool) (vd va : VReg) (s : State) : Out :=
  vectorOp (.vqunpk g nr vd va) g nr 0 vd va
    (fun _ _ A _ f =>
      ((roundTo fmtF32 .rne false (qf4Val (field (A (f / 8)).toNat (4 * (f % 8)) 4) (field (A 4).toNat 0 8))).1, 0)) s

/-! ## Dot products (R252) -/

/-- A lane of a dot product: an f32 addend plus `n` products of elements of `w` bits. -/
def dotLane (F : Fmt) (n : Nat) (rnd : Rounding) (sat : Bool) (a b c : Nat) : Nat × Nat :=
  finish fmtF32 rnd sat (fusedSum rnd (fmtF32.decode c)
    ((List.range n).map fun j => (F.decode (field a (F.bits * j) F.bits), F.decode (field b (F.bits * j) F.bits))))

def execVdot2 (g : Guard) (nr : Bool) (ty : HalfTy) (rnd : Rounding) (sat : Bool) (vd va vb vc : VReg) (s : State) : Out :=
  vectorOp (.vdot2 g nr ty rnd sat vd va vb vc) g nr 0 vd va
    (fun grp _ A _ f => dotLane ty.fmt 2 rnd sat (A f).toNat (grp.lane vb f) (grp.lane vc f)) s

def execVdot4 (g : Guard) (nr : Bool) (ty : Fp8Ty) (rnd : Rounding) (sat : Bool) (vd va vb vc : VReg) (s : State) : Out :=
  vectorOp (.vdot4 g nr ty rnd sat vd va vb vc) g nr 0 vd va
    (fun grp _ A _ f => dotLane ty.fmt 4 rnd sat (A f).toNat (grp.lane vb f) (grp.lane vc f)) s

end Sys2Proof.Machine
end

