-- ==== Sys2Proof/Machine/Transfer.lean ====
section
/-! DEFINITION. Connections, TSEND and TRECV (R388 to R391). -/

namespace Sys2Proof.Machine

def xferNotConnected : Nat := 0x19
def xferTruncated : Nat := 0x1A
def xferPeerLost : Nat := 0x1B

namespace State

def conn? (s : State) (ctx pkg reg : Nat) : Option Conn := (s.site? ctx pkg).bind fun p => p.conns.get? reg
def modConn (s : State) (ctx pkg reg : Nat) (f : Conn → Conn) : State :=
  s.modSite ctx pkg fun p => { p with conns := p.conns.adjust reg f }

def connUp (s : State) (ctx pkg reg : Nat) : Bool := match s.conn? ctx pkg reg with | some c => c.up | none => false

def xfer? (s : State) (o : Nat) : Option (Op × XferOp) :=
  match s.op? o with | some op => (match op.work with | .xfer x => some (op, x) | _ => none) | none => none

/-- The transfers of one direction in flight on a connection register. -/
def xfersOn (s : State) (ctx pkg reg : Nat) (send : Bool) : List (Nat × XferOp) :=
  s.ops.filterMap fun o => match o.2.work with
    | .xfer x => if o.2.ctx == ctx && x.pkg == pkg && x.reg == reg && x.send == send then some (o.1, x) else none
    | _ => none

/-- The operation at the other end with the same turn (R390). -/
def mateOf (s : State) (ctx : Nat) (x : XferOp) : Option (Nat × XferOp) :=
  match x.turn, ((s.conn? ctx x.pkg x.reg).bind fun c => peerEnd c.peer) with
  | some k, some (c, p, r) => (s.xfersOn c p r (!x.send)).find? fun y => y.2.turn == some k && y.2.code.isNone
  | _, _ => none

def modXfer (s : State) (o : Nat) (f : XferOp → XferOp) : State :=
  s.modOp o fun op => match op.work with | .xfer x => { op with work := .xfer (f x) } | _ => op

/-- A transfer matched with one of another length at the other end: the bytes it moves, and TRUNCATED when the send is longer
(R390). -/
def matched (len : Nat) (x : XferOp) : XferOp :=
  { x with moves := some (min x.len len), truncated := if x.send then decide (len < x.len) else decide (x.len < len) }

/-- A pair of this domain is matched. -/
def pairUp (s : State) (o : Nat) (x : XferOp) (m : Nat) (y : XferOp) : State :=
  (s.modXfer o fun z => { matched y.len z with mate := some m }).modXfer m fun z => { matched x.len z with mate := some o }

/-- The length of the transfer that a far end has posted for the same turn. -/
def farLength (s : State) (ctx : Nat) (x : XferOp) : Option Nat :=
  (s.conn? ctx x.pkg x.reg).bind fun c => x.turn.bind fun k => (if x.send then c.farRecvs else c.farSends)[k]?

/-- The status word, in the layout of R266 with RETRY 0. -/
def xferStatus (x : XferOp) : Word64 :=
  let code := x.code.getD (if x.truncated then xferTruncated else if x.barBad then copyBarInvalid else 0)
  BitVec.ofNat 64 (1 + b2n (decide (code ≠ 0)) * 2 + code * 2 ^ 8 + x.bytes % 2 ^ 32 * 2 ^ 16)

/-- The status word of a transfer lands, as soon as its record has a slot (R344). -/
def landXfer (s : State) (o : Nat) : State :=
  match s.xfer? o with
  | some (op, x) => s.finish o op x.core x.thread (xferStatus x)
  | none => s

/-- Enters a transfer in the match order and matches it when its mate is there. -/
def enterXfer (s : State) (u : Issue) (g : Group) (sd : SReg) (x : XferOp) (locks : List LockReq) : State :=
  let o := s.nextOp
  let t := s.enterOp u g sd (.xfer x) locks 16
  match x.turn with
  | none => t
  | some _ =>
    let t := t.modConn g.ctx x.pkg x.reg fun c => if x.send then { c with sends := c.sends + 1 } else { c with recvs := c.recvs + 1 }
    match t.mateOf g.ctx x, t.farLength g.ctx x with
    | some (m, y), _ => t.pairUp o x m y
    | none, some len => t.modXfer o (matched len)
    | none, none => t

/-- The code with which a transfer completes at issue (R258, R381, R389). -/
def xferCode (pkg L T : Nat) (up : Bool) : Option Nat :=
  if L = 0 then none
  else if 2 ^ 24 < L then some copyBadLength
  else if farAway pkg .sp T then some copyBadAddress
  else if !up then some xferNotConnected
  else none

/-- TSEND and TRECV (R389): the checks of a copy, with the tile as its range; a length of zero completes at once. -/
def transfer (s : State) (u : Issue) (g : Group) (a : BitVec 32) (send : Bool) (sd : SReg) (T L B reg : Nat) : State :=
  let pkg := pkgOf g.core
  let n := L % 2 ^ 32
  let up := s.connUp g.ctx pkg reg
  let code := xferCode pkg L T up
  if Config.copiesPerCore / 4 ≤ (s.xfersOn g.ctx pkg reg send).length then s.parkEngine u
  else
    s.issueChecks u g (chipRanges [(.sp, T)] L ++ [(.sh, B, 32)]) [(B, 32)] fun s =>
      let counted := L ≠ 0 ∧ code.isNone
      let turn := match s.conn? g.ctx pkg reg with
        | some c => if counted then some (if send then c.sends else c.recvs) else none
        | none => none
      let locks := if L ≠ 0 then s.lockReq u.gid g .sp T n (if send then .read else .write) else []
      match s.lockTrap locks with
      | some A => s.trap u u.mask 0x20 (BitVec.ofNat 64 A)
      | none =>
        if s.lockWait locks then s.parkEngine u
        else
          let o := s.nextOp
          let t := s.enterXfer u g sd
            { send := send, pkg := pkg, reg := reg, core := g.core, tile := (placeOf (spKey g.ctx T), spKey g.ctx T - placeOf (spKey g.ctx T))
              len := n, bar := s.barAt g false B, thread := s.thread g (g.leader a), turn := turn, code := code } locks
          if L = 0 then t.landXfer o else t

end State

def execTsend (g : Guard) (sd tA lA bA : SReg) (c : BitVec 4) (s : State) : Out :=
  onStroke (.tsend g sd tA lA bA c) g s fun u grp a s =>
    if grp.helperOnly a then s.advance u 16
    else s.transfer u grp a true sd (grp.rdS tA).toNat (grp.rdS lA).toNat (grp.rdS bA).toNat c.toNat

def execTrecv (g : Guard) (sd tA lA bA : SReg) (c : BitVec 4) (s : State) : Out :=
  onStroke (.trecv g sd tA lA bA c) g s fun u grp a s =>
    if grp.helperOnly a then s.advance u 16
    else s.transfer u grp a false sd (grp.rdS tA).toNat (grp.rdS lA).toNat (grp.rdS bA).toNat c.toNat

namespace State

/-- The pieces of a matched receive: the sectors of its tile that hold the bytes moved. -/
def xferPieces (x : XferOp) : Nat := sectorPieces x.tile.2 (x.moves.getD 0)

def xferDone (x : XferOp) : Bool :=
  x.moves.isSome && x.uncounted.isEmpty && (List.range (xferPieces x)).all x.done.contains

/-- A piece of a receive that is still to come: no error at its end, matched, and not there yet. -/
def pieceWanted (x : XferOp) (k : Nat) : Bool :=
  !x.send && x.code.isNone && decide (k < xferPieces x) && !x.done.contains k

/-- A piece is written into the receiver's tile, and counted on its barrier unless the count waits (R390). -/
def putPiece (s : State) (o : Nat) (op : Op) (x : XferOp) (k : Nat) (data : List Byte) (waits : Bool) : State :=
  let (lo, hi) := sectorSpan x.tile.2 (x.moves.getD 0) k
  let bad := !s.barValid x.bar
  let t := (s.writeBytes (x.tile.1 + x.tile.2 + lo) data).modXfer o fun z =>
    { z with done := z.done ++ [k], bytes := z.bytes + (hi - lo), barBad := z.barBad || bad
             uncounted := if waits then z.uncounted ++ [k] else z.uncounted }
  if waits then t.holdCount op.ctx x.core x.bar x.thread
  else t.engineCount op.ctx x.core x.bar x.thread (hi - lo) fun b => Cb.bytes b (hi - lo)

/-- A piece of a pair of this domain moves from the sender's tile. -/
def movePiece (s : State) (o : Nat) (op : Op) (x : XferOp) (m : Nat) (y : XferOp) (k : Nat) : State :=
  let (lo, hi) := sectorSpan x.tile.2 (x.moves.getD 0) k
  (s.modXfer m fun z => { z with bytes := z.bytes + (hi - lo) }).putPiece o op x k
    (s.readBytes (y.tile.1 + y.tile.2 + lo) (hi - lo)) (s.countWaits op.ctx x.core x.bar x.thread)

/-- A piece that moved while the scroll was full is counted (R344). -/
def countMoved (s : State) (o : Nat) (op : Op) (x : XferOp) (k : Nat) : State :=
  let (lo, hi) := sectorSpan x.tile.2 (x.moves.getD 0) k
  s.gatedCount op.ctx x.core x.bar x.thread (hi - lo) fun s =>
    let bad := !s.barValid x.bar
    (s.modXfer o fun z => { z with uncounted := z.uncounted.erase k, barBad := z.barBad || bad }).engineCount
      op.ctx x.core x.bar x.thread (hi - lo) fun b => Cb.bytes b (hi - lo)

end State

open State

/-- A matched pair writes a piece into the receiver's tile; the event names the receive (R390). While the scroll is full the
data moves and the count is held (R344). -/
def execTransferPiece (o k : Nat) (s : State) : Out :=
  .next (match s.xfer? o with
    | some (op, x) =>
      if x.uncounted.contains k then s.countMoved o op x k else
      match x.mate.bind s.xfer? with
      | some (_, y) =>
        if pieceWanted x k && y.code.isNone then
          let (lo, hi) := sectorSpan x.tile.2 (x.moves.getD 0) k
          if s.countWaits op.ctx x.core x.bar x.thread then s.movePiece o op x (x.mate.getD 0) y k
          else s.gatedCount op.ctx x.core x.bar x.thread (hi - lo) fun s => s.movePiece o op x (x.mate.getD 0) y k
        else s
      | none => s
    | none => s)

namespace State

/-- Every byte of a transfer has been moved: known at the receive, or from it at the send. -/
def xferMoved (s : State) (x : XferOp) : Bool :=
  if x.send then
    match x.mate.bind s.xfer? with
    | some (_, y) => xferDone y
    | none => x.moves.isSome && x.bytes == x.moves.getD 0
  else xferDone x

/-- No transfer that entered the match order earlier on the same end is still to land, one of an earlier connection included
(R388, R390). -/
def xferFirst (s : State) (ctx o : Nat) (x : XferOp) : Bool :=
  x.turn.isNone || (s.xfersOn ctx x.pkg x.reg x.send).all fun y => y.2.turn.isNone || decide (o ≤ y.1)

/-- Step 2 of R390: the sender's barrier is acknowledged. -/
def ackSender (s : State) (o : Nat) (op : Op) (x : XferOp) : State :=
  s.gatedCount op.ctx x.core x.bar x.thread 1 fun s =>
    let bad := !s.barValid x.bar
    (s.modXfer o fun z => { z with acked := true, barBad := z.barBad || bad }).engineCount op.ctx x.core x.bar x.thread 1 Cb.ack

end State

/-- A transfer acknowledges its sender, and lands its status words, in match order (R390). A length of zero or an error
completes at once. -/
def execTransferCompletion (o : Nat) (s : State) : Out :=
  .next (match s.xfer? o with
    | some (op, x) =>
      if x.code.isSome || x.turn.isNone then
        if s.xferFirst op.ctx o x then s.landXfer o else s
      else if s.xferMoved x then
        if x.send && !x.acked then s.ackSender o op x
        else if s.xferFirst op.ctx o x then s.landXfer o
        else s
      else s
    | none => s)

/-! ## Far ends: the package at an Ethernet address that is none of this domain (R388, R390) -/

namespace State

/-- The transfers of a register end with PEER_LOST (R388); one of length zero transfers no message (R390). -/
def loseTransfers (s : State) (ctx pkg reg : Nat) : State :=
  { s with ops := s.ops.update fun _ o =>
      match o.work with
      | .xfer x =>
        if o.ctx == ctx && x.pkg == pkg && x.reg == reg && x.turn.isSome && x.code.isNone then
          { o with work := .xfer { x with code := some xferPeerLost, mate := none } }
        else o
      | _ => o }

/-- The transfer of a turn and a direction on a register that no error has ended. -/
def transferAt (s : State) (ctx pkg reg : Nat) (send : Bool) (k : Nat) : Option (Nat × XferOp) :=
  (s.xfersOn ctx pkg reg send).find? fun y => y.2.turn == some k && y.2.code.isNone

/-- A piece that a far sender's message brings; in REPLAY its count may have to wait for its record (R347). -/
def farPiece (s : State) (o k : Nat) (data : List Byte) : State :=
  match s.xfer? o with
  | some (op, x) =>
    let (lo, hi) := sectorSpan x.tile.2 (x.moves.getD 0) k
    if pieceWanted x k && x.mate.isNone && data.length == hi - lo then
      let e := s.countEntry x.core x.bar x.thread (hi - lo)
      let held := s.barValid x.bar && !s.frozen op.ctx && s.gate op.ctx e.1 e.2 != .go
      s.putPiece o op x k data held
    else s
  | none => s

/-- The peer of a register is none of this domain's packages. -/
def outside (s : State) (c : Conn) : Bool :=
  match c.peer with
  | .ether a port _ _ => (Config.etherPackage a port).all fun p => !s.packages.contains p
  | _ => false

/-- An act of the far end of a register: it comes UP, it goes down, the next transfer of the other direction is matched, a
piece comes, or a send has arrived whole (R388, R390). -/
def farAct (s : State) (ctx pkg reg : Nat) (act : FarAct) : State :=
  match s.conn? ctx pkg reg with
  | none => s
  | some c =>
    match act with
    | .names => if s.outside c && !c.up then s.modConn ctx pkg reg fun c => { peer := c.peer, up := true } else s
    | .leaves => if s.outside c then (s.loseTransfers ctx pkg reg).modConn ctx pkg reg fun c => { peer := c.peer } else s
    | .posts send len =>
      if s.outside c && c.up then
        let k := (if send then c.farSends else c.farRecvs).length
        let t := s.modConn ctx pkg reg fun c =>
          if send then { c with farSends := c.farSends ++ [len] } else { c with farRecvs := c.farRecvs ++ [len] }
        match t.transferAt ctx pkg reg (!send) k with
        | some (o, _) => t.modXfer o (matched len)
        | none => t
      else s
    | .piece k n data => match s.transferAt ctx pkg reg false k with | some (o, _) => s.farPiece o n data | none => s
    | .took k =>
      match s.transferAt ctx pkg reg true k with
      | some (o, x) => if x.mate.isNone then s.modXfer o fun z => { z with bytes := z.moves.getD 0 } else s
      | none => s

end State
end Sys2Proof.Machine
end

