-- ==== Sys2Proof/Machine/Host.lean ====
section
/-! DEFINITION. The host's remote procedure calls (R373 to R380): contexts, windows, memory, launches, names, connections,
the scroll, events and dumps. Transports are outside the machine: a call is one message that has arrived whole (log 33). -/

namespace Sys2Proof.Machine

/-! ## Status codes (R377) -/

def stOk : Nat := 0
def stNoContext : Nat := 1
def stBadCall : Nat := 2
def stDenied : Nat := 3
def stRefused : Nat := 4
def stNoResource : Nat := 5
def stFault : Nat := 6
def stBusy : Nat := 7
def stEnded : Nat := 8

/-- A package that has not finished booting, or that R402 has stopped, receives no call (R399). -/
def State.listening (s : State) (pkg : Nat) : Bool := s.packages.contains pkg && !s.stopped.contains pkg

/-- A context that is open on a package. -/
def State.openOn? (s : State) (ctx pkg : Nat) : Option Context :=
  (s.context? ctx).bind fun x => if (x.sites.get? pkg).isSome then some x else none

/-- A call to a context that is open on the package which receives it: NOCONTEXT and ENDED come first (R377). -/
def onContext (s : State) (c : Call) (code : Nat) (ended : Bool) (act : Context → State) : Out :=
  .next (if s.listening c.pkg then
      match s.openOn? c.ctx c.pkg with
      | none => s.reply c code stNoContext
      | some x => if x.ended.isSome && !ended then s.reply c code stEnded else act x
    else s)

/-- A reply as a message (R373): the header of its call with bit 7 of the code set, then an 8-byte status and what follows it. -/
def Reply.message (r : Reply) : List Byte :=
  toBytes 2 0x7B1C ++ [1] ++ toBytes 1 r.call ++ toBytes 4 r.ctx ++ toBytes 8 (cleanName r.caller).toNat ++ toBytes 8 r.seq
    ++ toBytes 4 (8 + r.data.length) ++ zeros 4 ++ toBytes 8 r.status ++ r.data

/-- A call that names a package: the context must be open there. -/
def onSite (s : State) (c : Call) (code pkg : Nat) (act : Context → Presence → State) : Out :=
  onContext s c code false fun x =>
    match x.sites.get? pkg with
    | none => s.reply c code stNoContext
    | some p => act x p

namespace State

/-! ## OPEN (R376, R380, R404) -/

/-- What an OPEN must hold: tables and pool on their boundaries, and a name table of 2^10 to 2^24 entries (R55, R162,
R297). -/
def openOk (a : OpenArgs) : Bool :=
  decide (10 ≤ a.nametabN) && decide (a.nametabN ≤ 24) && a.nametab % (32 * 2 ^ a.nametabN) == 0 && a.root % 8192 == 0
    && a.poolAt % 4096 == 0

/-- A number that no context holds: the given one, or else the lowest (R376; log 17). -/
def freeNumber (s : State) (num : Nat) : Option Nat :=
  let free := fun n => (s.contexts.get? n).isNone
  if num < 4096 ∧ free num then some num else (List.range 4096).find? free

/-- The name table starts with every entry FREE (log 29): its bytes read zero in every page that translates. -/
def clearTable (s : State) (ctx : Nat) : State :=
  let sealed := match s.context? ctx with | some c => c.confidential | none => false
  (chunksOf (s.tableAt ctx) (32 * s.tableSize ctx)).foldl (fun t c =>
    match t.walk ctx (t.homeOf ctx) .imageWrite c.1 with
    | .ok pa => if sealed then t.writePage ctx pa (zeros c.2) else t.clearRange pa c.2
    | _ => t) s

/-- The signed part of a report by a package (R404). -/
def reportBody (s : State) (pkg num : Nat) (a : OpenArgs) : List Byte :=
  toBytes 4 0x5E71A7C1 ++ toBytes 2 1 ++ zeros 2 ++ toBytes 8 (s.devRev pkg).toNat
    ++ toBytes 16 (Config.serial (s.partOf pkg)).toNat ++ toBytes 8 (s.image pkg).version
    ++ toBytes 64 (Config.sha512 (s.image pkg).bytes) ++ toBytes 64 (Config.sha512 a.ownerKey)
    ++ (if a.nonce.length = 32 then a.nonce else zeros 32) ++ toBytes 4 num ++ zeros 4 ++ toBytes 8 (s.ticks pkg).toNat ++ zeros 32

/-- The report that a confidential OPEN is answered with. -/
def report (s : State) (pkg num : Nat) (a : OpenArgs) : List Byte :=
  if a.confidential then
    let b := s.reportBody pkg num a
    let g := Config.signReport (s.partOf pkg) (Config.sha512 b)
    b ++ toBytes 66 g.1 ++ toBytes 66 g.2 ++ zeros 4
  else []

/-- The context that an OPEN creates, at home on the package that receives it. -/
def newContext (pkg : Nat) (a : OpenArgs) : Context :=
  { home := pkg, nametab := a.nametab % 2 ^ 56, nametabN := a.nametabN, xvec := a.xvec &&& ~~~7
    wdlimit := a.wdlimit.toNat, faultq := a.faultq % 2 ^ 48, dumpAt := a.dumpAt, dumpSize := a.dumpSize
    confidential := a.confidential, ownerKey := a.ownerKey
    sites := [(pkg, { root := a.root, poolAt := a.poolAt, poolSize := a.poolSize })] }

def openNew (s : State) (c : Call) (num : Nat) (a : OpenArgs) : State :=
  match s.freeNumber num with
  | none => s.reply c 1 stNoResource
  | some n =>
    if openOk a then
      let t : State := { s with contexts := s.contexts.put n (newContext c.pkg a) }
      (t.clearTable n).reply c 1 stOk (toBytes 4 n ++ s.report c.pkg n a)
    else s.reply c 1 stBadCall

/-- Opens an existing context's presence on the package that receives the call (R380). -/
def openJoin (s : State) (c : Call) (ctx : Nat) (a : OpenArgs) : State :=
  match s.context? ctx with
  | none => s.reply c 1 stNoContext
  | some x =>
    if x.ended.isSome then s.reply c 1 stEnded
    else if (x.sites.get? c.pkg).isSome then s.reply c 1 stRefused
    else if a.root % 8192 != 0 || a.poolAt % 4096 != 0 then s.reply c 1 stBadCall
    else
      (s.modContext ctx fun x =>
        { x with sites := x.sites.put c.pkg { root := a.root, poolAt := a.poolAt, poolSize := a.poolSize } }).reply c 1 stOk
        (toBytes 4 ctx ++ s.report c.pkg ctx a)

/-! ## CLOSE (R375) -/

/-- Replies to the calls of a context that still wait when it is freed: no such context any more. -/
def answerWaiting (s : State) (ctx : Nat) : State :=
  s.ops.foldl (fun t o =>
    if o.2.ctx != ctx then t
    else match o.2.work with
      | .name n => (match n.host with | some c => t.reply c (nameCall n.act) stNoContext | none => t)
      | .launch l => (match l.host with | some c => t.reply c 6 stNoContext | none => t)
      | .access a => t.reply a.call (if a.data.isEmpty then 5 else 4) stNoContext
      | _ => t) s

/-- A context's windows are discarded (R160). -/
def clearWindows (s : State) (ctx : Nat) : State :=
  match s.context? ctx with
  | none => s
  | some x =>
    x.sites.keys.foldl (fun t p => (List.range 8).foldl (fun t d => t.clearFrom (placeWindow ctx p d) 0) t) s

/-- The joins of other contexts on entries of a context that is freed stay without an entry (R315; log 29). -/
def setAdrift (s : State) (ctx : Nat) : State :=
  { s with ops := s.ops.update fun _ o =>
      match o.work with
      | .name n => if n.home.any (fun h => h.1 == ctx) then { o with work := .name { n with adrift := true } } else o
      | _ => o }

/-- A context is freed on every package: nothing that belongs to it is left. -/
def freeContext (s : State) (ctx : Nat) : State :=
  let t := (((s.answerWaiting ctx).discard ctx).clearWindows ctx).clearShared ctx
  let mineLaunch := fun n => (match s.launch? n with | some l => l.ctx == ctx | none => false)
  let t : State := { t with
    groups := t.groups.keep fun _ g => g.ctx != ctx
    cohorts := t.cohorts.keep fun _ c => c.ctx != ctx
    clusters := t.clusters.keep fun _ k => k.ctx != ctx
    launches := t.launches.keep fun _ l => l.ctx != ctx
    ops := t.ops.keep fun _ o => o.ctx != ctx
    xlat := t.xlat.filter fun e => e.ctx != ctx
    cores := t.cores.update fun _ k =>
      { k with ink := k.ink.keep fun _ e => e.ctx != ctx, blot := k.blot.keep fun _ b => b.ctx != ctx
               counts := k.counts.keep fun l _ => !mineLaunch l, requests := k.requests.erase ctx }
    dies := t.dies.update fun _ d => { d with spawned := d.spawned.erase ctx }
    contexts := t.contexts.erase ctx }
  (t.setAdrift ctx).retryAccesses

/-! ## MAP (R159, R160) -/

/-- Ranges of keys overlap. -/
def overlap (a n b m : Nat) : Bool := decide (a < b + m) && decide (b < a + n)

/-- The keys of a window that work in flight uses. -/
def workRanges (o : Op) : List (Nat × Nat) :=
  match o.work with
  | .copy c =>
    let at_ := fun (r : Range) => match r with | .vm _ => [] | .chip p x => [(p + x, c.len)]
    at_ c.dst ++ at_ c.src ++ (match c.flag with | some (A, _) => [(spKey o.ctx A, 8)] | none => [])
      ++ (match c.box with | some (.sp, A) => [(spKey o.ctx A, c.boxWindow - field A 0 37)] | _ => [])
  | .xfer x => [(x.tile.1 + x.tile.2, x.len)]
  | .tile t => [(spKey o.ctx t.addr.toNat, 8)]
  | _ => []

/-- What a parked fibre waits on in a window. -/
def waitRange (ctx : Nat) (x : Fibre) : List (Nat × Nat) :=
  match x.instr with
  | some (.waitw _ _ .sp b64 _ _ _ _ _ _) => if x.wait == .waitw then [(spKey ctx x.operand.toNat, if b64 then 8 else 4)] else []
  | some (.rgacq _ _ _ .sp _ _) => if x.wait == .rgacq then [(spKey ctx x.operand.toNat, 32)] else []
  | some (.rgpeek _ _ _ .sp _ _) => if x.wait == .rgpeek then [(spKey ctx x.operand.toNat, 32)] else []
  | _ => []

/-- The bitmaps that a launch names while one of its groups is not DEAD. -/
def bitmapRanges (s : State) (n : Nat) (l : Launch) : List (Nat × Nat) :=
  if s.groups.any fun g => g.2.launch == n && g.2.phase != .dead then
    (match l.doneMap with | some a => [(spKey l.ctx a, (l.gx * l.gy * l.gz + 7) / 8)] | none => [])
      ++ (if l.depKind = 0 then [] else [(spKey l.ctx l.prodMap, (l.px * l.py * l.pz + 7) / 8)])
  else []

/-- The fault queue: its header, and its slots when the slot count is valid. -/
def queueRange (s : State) (ctx : Nat) (x : Context) : Nat × Nat :=
  let k := spKey ctx x.faultq
  let n := s.readNat k 4
  (k, 32 + (if (List.range 13).any (fun j => n == 2 ^ (j + 4)) then 32 * n else 0))

/-- A range of keys of a context's window is in use (R160). -/
def rangeInUse (s : State) (ctx : Nat) (x : Context) (key n : Nat) : Bool :=
  let hit := fun (r : Nat × Nat) => overlap r.1 r.2 key n
  s.meets key n (fun _ => true)
    || s.ops.any (fun o => o.2.ctx == ctx && (workRanges o.2).any hit)
    || s.groups.any (fun g => g.2.ctx == ctx && g.2.fibres.any fun f => !f.ended && (waitRange ctx f).any hit)
    || s.launches.any (fun l => l.2.ctx == ctx && (s.bitmapRanges l.1 l.2).any hit)
    || hit (s.queueRange ctx x)

/-- The scratchpad of a die that windows of other contexts take. -/
def windowsElse (s : State) (ctx pkg die : Nat) : Nat :=
  ((s.contexts.filter fun c => c.1 != ctx).map fun c => s.windowSize c.1 pkg die).sum

/-- MAP on an open package: bytes below the old and the new size are kept, and every other byte reads zero (R160). -/
def mapWindow (s : State) (c : Call) (x : Context) (pkg die size : Nat) (seq : Bool) : State :=
  let old := s.windowSize c.ctx pkg die
  let w := placeWindow c.ctx pkg die
  if decide (7 < die) || size % 65536 != 0 then s.reply c 3 stBadCall
  else if decide (size < old) && s.rangeInUse c.ctx x (w + size) (old - size) then s.reply c 3 stRefused
  else if Config.scratchpadPerDie < s.windowsElse c.ctx pkg die + size then s.reply c 3 stNoResource
  else
    let v : Word64 := if size = 0 then 0 else BitVec.ofNat 64 (size + b2n seq * 2 ^ 37)
    let kept := min old size
    ((s.clearRange (w + kept) (2 ^ 36 - kept)).modSite c.ctx pkg fun p => { p with spwin := p.spwin.write 0 die v }).reply c 3 stOk

/-! ## WRITE and READ (R177, R378) -/

/-- A host access to a window, which may have to wait for locks. -/
def windowAccess (s : State) (a : HostAccess) : State :=
  match s.tryAccess a with
  | some t => t
  | none => s.addOp { ctx := a.call.ctx, gid := none, sd := none, work := .access a }

def writeVm (s : State) (c : Call) (va : Nat) (b : List Byte) : State :=
  match s.vmWrite c.ctx c.pkg .hostWrite va b with
  | (t, none) => t.reply c 4 stOk
  | (t, some (.imagePage, _)) => t.reply c 4 stDenied
  | (t, some (_, a)) => t.reply c 4 stFault (toBytes 8 a)

def readVm (s : State) (c : Call) (va n : Nat) : State :=
  match s.vmRead c.ctx c.pkg .hostRead va n with
  | .ok b => s.reply c 5 stOk b
  | .fail _ a => s.reply c 5 stFault (toBytes 8 a)

/-! ## Launches and names (R302, R303, R315, R375) -/

def sendLaunch (s : State) (c : Call) (record : Word64) (service : Bool) : State :=
  s.addOp { ctx := c.ctx, gid := none, sd := none
            work := .launch { creator := c.caller, record := record, service := service, cap := none
                              pkg := c.pkg, host := some c } }

/-- A name call leaves for the home as an instruction's operation does, with the calling host thread as issuer. -/
def callName (s : State) (c : Call) (target : Word64) (act : NameAct) : State :=
  s.addOp { ctx := c.ctx, gid := none, sd := none
            work := .name { issuer := c.caller, target := target, act := act, host := some c } }

/-- The alias entry that a grant creates; a grant of an alias names the same foreign entry (R303; log 29). -/
def aliasEntry (ctx i : Nat) (e f : NameEntry) (mask : Nat) : NameEntry :=
  { gen := f.gen, kind := e.kind, state := stRunning, alias_ := true, rights := mask
    loc := if e.alias_ then e.loc else e.gen + i * 2 ^ 24 + ctx * 2 ^ 48 }

/-- The FREE entry that a grant takes: the given one, or else the first (R303; log 17). -/
def grantIndex (s : State) (ctx index : Nat) : Option Nat :=
  if s.allFree ctx [index] then some index else (s.freeEntries ctx).head?

/-- NAME_GRANT after its checks: sets RIGHTS, or creates an alias. -/
def grant (s : State) (c : Call) (i : Nat) (e : NameEntry) (mask : Nat) (grantee : Option Nat) (index : Nat) : State :=
  match grantee with
  | none => (s.putEntry c.ctx i { e with rights := mask }).reply c 11 (nameStatus .ok e.state 0).toNat
  | some b =>
    match s.context? b with
    | none => s.reply c 11 (nameStatus .nosuch 0 0).toNat
    | some _ =>
      match s.grantIndex b index with
      | none => s.reply c 11 (nameStatus .full e.state 0).toNat
      | some j =>
        match s.entry? b j with
        | none => (s.tableFault b j).reply c 11 (nameStatus .full e.state 0).toNat
        | some f =>
          (s.putEntry b j (aliasEntry c.ctx i e f mask)).reply c 11 (nameStatus .ok e.state 0).toNat
            (toBytes 8 (mkName j f.gen e.kind).toNat)

/-- NAME_EXIT at the entry of a host thread, which `may` allows. -/
def exitAt (s : State) (ctx i : Nat) (e : NameEntry) (may : Bool) (exit : Word64) (killed : Bool) : State × NameCode × Nat × Nat :=
  if !may then (s, .denied, 0, 0)
  else if e.state = stDead then (s, .dead, e.state, e.cause)
  else (s.deadEntry ctx i exit (if killed then .killed else .exit) false, .ok, e.state, 0)

/-- NAME_EXIT's home step: the state after it, its code, and the STATE and CAUSE that it answers (R304, R315, R375); through an
alias it is carried to the foreign entry (R303). -/
def exitStep (s : State) (c : Call) (target exit : Word64) (killed : Bool) : State × NameCode × Nat × Nat :=
  match s.findName c.ctx target with
  | .fail k => (s, k, 0, 0)
  | .fault => (s.tableFault c.ctx (nameIndex target), .nosuch, 0, 0)
  | .entry i e =>
    let may := sameName c.caller target || Nat.land (rights c.caller 0 e) rightKill != 0
    if e.alias_ then
      match s.foreign e with
      | (_, .fail k) => (s, k, 0, 0)
      | (_, .fault) => (s.foreignFault e, .stale, 0, 0)
      | (b, .entry j f) => s.exitAt b j f (e.kind == 2 && may) exit killed
    else s.exitAt c.ctx i e (e.kind == 2 && may) exit killed

/-! ## CONNECT (R388) -/

/-- The end that a register names, when that end names the register too. -/
def joined (s : State) (ctx pkg reg : Nat) : Option (Nat × Nat × Nat) :=
  match (s.conn? ctx pkg reg).bind fun k => peerEnd k.peer with
  | none => none
  | some (c, p, r) =>
    if ((s.conn? c p r).bind fun k => peerEnd k.peer) == some (ctx, pkg, reg) then some (c, p, r) else none

/-- A register stops being joined: both ends go down, and what they had in flight is lost. -/
def part (s : State) (ctx pkg reg : Nat) : State :=
  match s.joined ctx pkg reg with
  | none => s.loseTransfers ctx pkg reg
  | some (c, p, r) =>
    ((s.loseTransfers ctx pkg reg).loseTransfers c p r).modConn c p r fun k => { k with up := false }

/-- A register takes a new peer; both ends come UP once each names the other (R388, R390). -/
def bind (s : State) (ctx pkg reg : Nat) (peer : Peer) : State :=
  let t := (s.part ctx pkg reg).modSite ctx pkg fun p => { p with conns := p.conns.put reg { peer := peer } }
  match t.joined ctx pkg reg with
  | none => t
  | some (c, p, r) =>
    let up := fun (k : Conn) => ({ peer := k.peer, up := true } : Conn)
    (t.modConn ctx pkg reg up).modConn c p r up

/-- A context leaves a package other than its home: its windows there are discarded, its connections unbound, and its tables and
scroll are gone (R160, R380). -/
def leavePackage (s : State) (ctx pkg : Nat) : State :=
  let t := match s.site? ctx pkg with | some p => p.conns.keys.foldl (fun (t : State) r => t.part ctx pkg r) s | none => s
  let t := (List.range 8).foldl (fun t d => t.clearFrom (placeWindow ctx pkg d) 0) t
  { t.modContext ctx fun x => { x with sites := x.sites.erase pkg } with
    xlat := t.xlat.filter fun e => !(e.ctx == ctx && e.pkg == pkg) }

/-! ## SCROLL_CTL (R338, R345, R348) -/

/-- The settings change while the context still has a group or a launch that waits. -/
def scrollBusy (s : State) (ctx : Nat) : Bool :=
  s.busy ctx || s.ops.any fun o => o.2.ctx == ctx && (match o.2.work with | .launch _ => true | _ => false)

def scrollSame (x : Scroll) (a : ScrollArgs) : Bool :=
  x.mode == a.mode && x.logSize == a.logSize && x.base == a.base && x.noReuse == a.noReuse

/-- The indices that a call sets; while MODE stays RECORD the hardware alone moves SCRWIDX (log 34). -/
def setIndices (x : Scroll) (a : ScrollArgs) (staysRecord : Bool) : Scroll :=
  setRidx (if staysRecord then x else { x with widx := BitVec.ofNat 32 a.widx }) (BitVec.ofNat 64 a.ridx)

/-- SCROLL_CTL's settings; entering RECORD clears the sequences and writes the GAP record, for which there must be a slot
(log 34). -/
def scrollSet (s : State) (c : Call) (pkg : Nat) (a : ScrollArgs) : State :=
  let x := s.scroll c.ctx pkg
  let old := if x.mode != a.mode || x.logSize != a.logSize then 0 else x.fill
  if decide (3 ≤ a.mode) || decide (a.logSize < 20) || decide (32 < a.logSize) || a.base % 2 ^ a.logSize != 0
      || (!scrollSame x a && s.scrollBusy c.ctx) then s.reply c 13 stRefused
  else
    let enters := x.mode != a.mode
    let y := setIndices { x with mode := a.mode, logSize := a.logSize, base := a.base, noReuse := a.noReuse } a
      (!enters && a.mode == 1)
    if enters && a.mode == 1 && y.full then s.reply c 13 stRefused else
    let t := s.modScroll c.ctx pkg fun _ => if enters then { y with seqs := [], runs := [], taken := [], waits := [], held := [] } else y
    let t := t.scrollHigh c.ctx pkg old
    let t := if enters && a.mode == 1 then t.append c.ctx pkg { kind := 11, cls := 0, src := 0, operand := 1 } else t
    t.reply c 13 stOk

end State

/-! ## The calls -/

def execHostOpen (c : Call) (num : Nat) (args : OpenArgs) (s : State) : Out :=
  .next (if s.listening c.pkg then
      match args.join with
      | none => s.openNew c num args
      | some ctx => s.openJoin c ctx args
    else s)

/-- CLOSE without the kill flag (R375): on the home package it frees the context everywhere, on another its presence there
(R380). -/
def execHostClose (c : Call) (s : State) : Out :=
  onContext s c 2 true fun x =>
    if s.busy c.ctx then s.reply c 2 stRefused
    else if c.pkg = x.home then (s.freeContext c.ctx).reply c 2 stOk
    else (s.leavePackage c.ctx c.pkg).reply c 2 stOk

/-- CLOSE with the kill flag: the context ends with KILLED (R375). -/
def execHostCloseKill (c : Call) (s : State) : Out :=
  onContext s c 2 true fun _ => (s.contextFatal c.ctx 0x85 0 0).reply c 2 stOk

def execHostMap (c : Call) (pkg die size : Nat) (seq : Bool) (s : State) : Out :=
  onSite s c 3 pkg fun x _ => s.mapWindow c x pkg die size seq

def execHostWrite (c : Call) (ms : HostSpace) (addr : Word64) (data : List Byte) (s : State) : Out :=
  onContext s c 4 false fun _ =>
    if 65536 < data.length then s.reply c 4 stBadCall
    else if data.isEmpty then s.reply c 4 stOk
    else match ms with
      | .vm => s.writeVm c addr.toNat data
      | .sp => s.windowAccess { call := c, addr := addr, data := data, len := 0, window := s.windowOf c.ctx addr.toNat }

def execHostRead (c : Call) (ms : HostSpace) (addr : Word64) (len : Nat) (s : State) : Out :=
  onContext s c 5 true fun _ =>
    if 65536 < len then s.reply c 5 stBadCall
    else if len = 0 then s.reply c 5 stOk
    else match ms with
      | .vm => s.readVm c addr.toNat len
      | .sp => s.windowAccess { call := c, addr := addr, data := [], len := len, window := s.windowOf c.ctx addr.toNat }

def execHostLaunch (c : Call) (record : Word64) (s : State) : Out :=
  onContext s c 6 false fun _ => s.sendLaunch c record false

def execHostServiceLaunch (c : Call) (record : Word64) (s : State) : Out :=
  onContext s c 6 false fun _ => s.sendLaunch c record true

def execNameWake (c : Call) (target : Word64) (s : State) : Out := onContext s c 7 false fun _ => s.callName c target .wake

def execNameSignal (c : Call) (target : Word64) (bits : Word32) (s : State) : Out :=
  onContext s c 8 false fun _ => s.callName c target (.signal bits)

def execNameSignalKill (c : Call) (target : Word64) (s : State) : Out :=
  onContext s c 8 false fun _ => s.callName c target .kill

def execNameDeposit (c : Call) (target : Word64) (k : BitVec 3) (value : Word64) (s : State) : Out :=
  onContext s c 9 false fun _ => s.callName c target (.deposit k value)

def execNameJoin (c : Call) (target : Word64) (reap : Bool) (timeout : Word64) (s : State) : Out :=
  onContext s c 10 false fun _ =>
    s.callName c target (.join reap (s.deadlineAfter (s.homeOf c.ctx) timeout))

/-- NAME_GRANT (R302, R303, R375): NOSUCH and STALE, then a mask beyond the caller's rights. -/
def execNameGrant (c : Call) (target : Word64) (mask : BitVec 5) (grantee : Option Nat) (index : Nat) (s : State) : Out :=
  onContext s c 11 false fun _ =>
    match s.findName c.ctx target with
    | .fail k => s.reply c 11 (nameStatus k 0 0).toNat
    | .fault => (s.tableFault c.ctx (nameIndex target)).reply c 11 (nameStatus .nosuch 0 0).toNat
    | .entry i e =>
      if mask &&& ~~~(BitVec.ofNat 5 (State.rights c.caller 0 e)) ≠ 0 then s.reply c 11 (nameStatus .denied 0 0).toNat
      else s.grant c i e mask.toNat grantee index

/-- NAME_EXIT, one home step with its record (R315, R341, R375). -/
def execNameExit (c : Call) (target exit : Word64) (killed : Bool) (s : State) : Out :=
  onContext s c 16 false fun _ =>
    let e := s.nameEntry c.ctx target c.caller 7 0 0
    s.gated c.ctx e.1 e.2 fun s =>
      let r := s.exitStep c target exit killed
      (r.1.log c.ctx e.1 (s.nameEntry c.ctx target c.caller 7 r.2.1.code 0).2).reply c 16 (nameStatus r.2.1 r.2.2.1 r.2.2.2).toNat

/-- CONNECT (R388): a peer on a register with transfers in flight is BUSY; no peer unbinds it. -/
def execConnect (c : Call) (pkg : Nat) (reg : BitVec 4) (peer : Peer) (s : State) : Out :=
  onSite s c 12 pkg fun _ _ =>
    let r := reg.toNat
    match peer with
    | .none =>
      ((s.part c.ctx pkg r).modSite c.ctx pkg fun p => { p with conns := p.conns.erase r }).reply c 12 stOk
    | _ =>
      if (s.xfersOn c.ctx pkg r true).isEmpty && (s.xfersOn c.ctx pkg r false).isEmpty then
        (s.bind c.ctx pkg r peer).reply c 12 stOk
      else s.reply c 12 stBusy

def execScrollCtl (c : Call) (pkg : Nat) (args : ScrollArgs) (s : State) : Out :=
  onSite s c 13 pkg fun _ _ => s.scrollSet c pkg args

/-- A context frozen by a divergence is killed (R348). -/
def execScrollCtlKill (c : Call) (pkg : Nat) (s : State) : Out :=
  onSite s c 13 pkg fun _ p =>
    if p.scroll.frozen then (s.contextFatal c.ctx 0x85 0 0).reply c 13 stOk else s.reply c 13 stRefused

/-- It goes on unlogged: MODE OFF and FROZEN 0 (R348). -/
def execScrollCtlContinue (c : Call) (pkg : Nat) (s : State) : Out :=
  onSite s c 13 pkg fun _ p =>
    if p.scroll.frozen then
      (s.modScroll c.ctx pkg fun x => { x with mode := 0, frozen := false, runs := [], taken := [], waits := [] }).reply c 13 stOk
    else s.reply c 13 stRefused

/-- A record of the event queue, with the message of a POST behind it (R379). -/
def eventBytes (ctx : Nat) (e : HostEvent) : List Byte :=
  toBytes 1 e.kind ++ [0] ++ toBytes 2 e.pkg ++ toBytes 4 ctx ++ toBytes 8 e.time ++ e.body ++ e.message

/-- EVENT_READ: the oldest records (R379). -/
def execEventRead (c : Call) (max : Nat) (s : State) : Out :=
  onContext s c 14 true fun x =>
    (s.modContext c.ctx fun x => { x with events := x.events.drop max }).reply c 14 stOk
      ((x.events.take max).flatMap (eventBytes c.ctx))

/-- DUMP_READ (R369, R375). -/
def execDumpRead (c : Call) (off len : Nat) (s : State) : Out :=
  onContext s c 15 true fun x =>
    if x.dumpLen < off + len then s.reply c 15 stBadCall
    else match s.vmRead c.ctx x.home .imageRead (x.dumpAt + off) len with
      | .ok b => s.reply c 15 stOk b
      | .fail _ a => s.reply c 15 stFault (toBytes 8 a)

/-- A message that breaks R373: magic, version, call code, length, or the Zero field. -/
def malformed (b : List Byte) : Bool :=
  decide (b.length < 32) || State.num b 0 2 != 0x7B1C || State.num b 2 1 != 1
    || decide (State.num b 3 1 = 0) || decide (16 < State.num b 3 1) || State.num b 24 4 != b.length - 32 || State.num b 28 4 != 0

/-- A malformed message is answered BADCALL and has no effect (R374). -/
def execBadcallMessage (bytes : List Byte) (s : State) : Out :=
  .next (if s.packages.any s.listening && malformed bytes then
      s.reply { ctx := State.num bytes 4 4, caller := BitVec.ofNat 64 (State.num bytes 8 8), seq := State.num bytes 16 8 }
        (State.num bytes 3 1) stBadCall
    else s)

end Sys2Proof.Machine
end

