-- ==== Sys2Proof/Machine/Memory.lean ====
section
/-! DEFINITION. Loads, stores, VLDC, atomics, spill-stack moves and fences (R180 to R190). -/

namespace Sys2Proof.Machine

/-- The value that a size gives a loaded number, in `w` bits (R182). -/
def loadValue (sz : Size) (w x : Nat) : Nat :=
  match sz with
  | .i8 => wrap w (signed 8 x)
  | .i16 => wrap w (signed 16 x)
  | _ => x

/-- LaneAddress of a vector access (R180). -/
def laneAddress (g : Group) (base : SReg) (vo : Option VReg) (off f : Nat) : Nat :=
  ((g.rdS base).toNat + off + (match vo with | none => 0 | some r => ((g.rdV r.toNat).lane f).toNat)) % 2 ^ 64

/-- The address of a scalar access. -/
def scalarAddress (g : Group) (base : SReg) (off : Nat) : Nat := ((g.rdS base).toNat + off) % 2 ^ 64

/-! ## Vector accesses -/

/-- The checks of every lane (R183): for each accessing fibre its key or its cause. -/
def laneChecks (s : State) (gid : Nat) (g : Group) (ms : Space) (n : Nat) (aligned writes : Bool) (lanes : BitVec 32)
    (addr : Nat → Nat) : List (Nat × Except Byte Nat) :=
  (lanesOf lanes).map fun f => (f, s.checkAccess gid g ms (addr f) n aligned writes)

def okLane (r : Nat × Except Byte Nat) : Option (Nat × Nat) := match r.2 with | .ok k => some (r.1, k) | .error _ => none
def badLane (r : Nat × Except Byte Nat) : Option (Nat × Byte) := match r.2 with | .ok _ => none | .error c => some (r.1, c)

/-- The end of a vector access: the fibres of failed checks split off as one trap stroke (R183). -/
def State.finishLanes (s : State) (u : Issue) (bad : List (Nat × Byte)) (addr : Nat → Nat) (len : Nat) : State :=
  let m := maskOf fun f => bad.any fun b => b.1 == f
  match bad.head? with
  | none => s.split u 0 0 0 len
  | some b => s.split u m b.2 (BitVec.ofNat 64 (addr b.1)) len

/-- A vector access: the lanes whose checks pass act; then the others trap, or SPAD_BOUNDS in one of them ends the context
(R183; log 44). -/
def State.accessLanes (s : State) (u : Issue) (g : Group) (cs : List (Nat × Except Byte Nat)) (addr : Nat → Nat) (len : Nat)
    (act : List (Nat × Nat) → State) : State :=
  let bad := cs.filterMap badLane
  let t := act (cs.filterMap okLane)
  match bad.find? fun b => b.2 == 0x21 with
  | some b => t.contextFatal g.ctx 0x21 (BitVec.ofNat 64 (addr b.1)) (s.thread g b.1)
  | none => t.finishLanes u bad addr len

/-- Loads of VLD and VLDC: word `k` of a lane goes to register `data + k` (R182). A VLDC that the blotter answers makes no access
(R73, R397). -/
def vectorLoad (i : Instr) (gd : Guard) (ms : Space) (sz : Size) (data : VReg) (base : SReg) (vo : Option VReg) (off : Nat)
    (reuse : State → Issue → Group → BitVec 32 → List (Nat × Nat) → Option (Nat × Nat)) (s : State) : Out :=
  onStroke i gd s fun u _ a s =>
    s.withRegs u (plainReads i) fun g s =>
    let addr := laneAddress g base vo off
    let cs := laneChecks s u.gid g ms sz.bytes false false a addr
    let good := maskOf fun f => (cs.filterMap okLane).any fun c => c.1 == f
    s.withRegs u (if good ≠ 0 ∧ g.partial? good then rangeRegs (data.toNat, sz.words) else []) fun g s =>
    s.accessLanes u g cs addr 12 fun ok =>
    let bytes := (List.range 32).map fun f => match ok.find? (fun c => c.1 == f) with
      | some c => loadValue sz 32 (s.readNat c.2 sz.bytes)
      | none => 0
    let rs := (List.range sz.words).map fun k =>
      VResult.mk (data.toNat + k) good fun f => BitVec.ofNat 32 (field (bytes.getD f 0) (32 * k) 32)
    let lock := reuse s u g good ok
    let extra := match lock with
      | some l => [ms.code, (g.rdS base).toNat, off, l.1, l.2]
      | none => []
    let t := if (s.reusable u g i good lock.isSome extra rs).isSome then s
      else ok.foldl (fun t c => t.request g 1 c.1 ms.code (addr c.1)) s
    if good = 0 then t else t.retireV u g i good lock.isSome lock extra rs 0

def execVld (g : Guard) (ms : Space) (sz : Size) (o : Ordering) (data : VReg) (base : SReg) (vo : Option VReg)
    (off : BitVec 24) (s : State) : Out :=
  vectorLoad (.vld g ms sz o data base vo off) g ms sz data base vo off.toNat (fun _ _ _ _ _ => none) s

/-- The read-only lock of the issuing context that holds the whole access of every lane (R75), that of a saved cohort included:
DESIGN CHOICE (log 28). -/
def reuseLock (s : State) (g : Group) (n : Nat) (ok : List (Nat × Nat)) : Option (Nat × Nat) :=
  s.locks.findSome? fun l =>
    match l.owner with
    | .rlock c h =>
      if l.ctx == g.ctx && !ok.isEmpty && ok.all (fun k =>
          decide (l.place + 32 * l.first ≤ k.2) && decide (k.2 + n ≤ l.place + 32 * (l.last + 1)))
      then some (c, h) else none
    | .op _ => none

def execVldc (g : Guard) (nr : Bool) (ms : WordSpace) (sz : Size) (data : VReg) (base : SReg) (vo : Option VReg)
    (off : BitVec 24) (s : State) : Out :=
  vectorLoad (.vldc g nr ms sz data base vo off) g ms.space sz data base vo off.toNat
    (fun s _ grp _ ok => if nr then none else reuseLock s grp sz.bytes ok) s

/-- The number that a lane stores from `w` consecutive registers. -/
def laneData (g : Group) (data : VReg) (first words f : Nat) : Nat :=
  (List.range words).foldl (fun a k => a + ((g.rdV (data.toNat + first + k)).lane f).toNat * 2 ^ (32 * k)) 0

/-- VST (R185): each active fibre that is not a helper stores; on one byte the highest lane stands (R168). -/
def execVst (g : Guard) (ms : Space) (sz : Size) (o : Ordering) (data : VReg) (base : SReg) (vo : Option VReg)
    (off : BitVec 24) (s : State) : Out :=
  onStroke (.vst g ms sz o data base vo off) g s fun u _ a s =>
    s.withRegs u (plainReads (.vst g ms sz o data base vo off)) fun grp s =>
    let addr := laneAddress grp base vo off.toNat
    s.accessLanes u grp (laneChecks s u.gid grp ms sz.bytes false true (a &&& ~~~grp.helpers) addr) addr 12 fun ok =>
      ok.foldl (fun t c =>
          (t.request grp 2 c.1 ms.code (addr c.1)).writeNat c.2 sz.bytes (laneData grp data 0 sz.words c.1)) s

/-! ## Scalar loads and stores -/

def execSld (g : Guard) (ms : Space) (sz : Size) (o : Ordering) (sd base : SReg) (off : BitVec 24) (s : State) : Out :=
  onStroke (.sld g ms sz o sd base off) g s fun u grp _ s =>
    let A := scalarAddress grp base off.toNat
    match s.checkAccess u.gid grp ms A sz.bytes false false with
    | .error c => s.raise u grp u.mask c A
    | .ok key =>
      ((s.request grp 1 (lowest u.mask) ms.code A).writeS u grp sd
        (BitVec.ofNat 64 (loadValue sz 64 (s.readNat key sz.bytes)))).advance u 12

def execSst (g : Guard) (ms : Space) (sz : Size) (o : Ordering) (sd base : SReg) (off : BitVec 24) (s : State) : Out :=
  onStroke (.sst g ms sz o sd base off) g s fun u grp a s =>
    let A := scalarAddress grp base off.toNat
    if grp.helperOnly a then s.advance u 12
    else
      match s.checkAccess u.gid grp ms A sz.bytes false true with
      | .error c => s.raise u grp u.mask c A
      | .ok key =>
        ((s.request grp 2 (lowest u.mask) ms.code A).writeNat key sz.bytes (grp.rdS sd).toNat).advance u 12

/-! ## Atomics (R187, R188) -/

def atomBytes (b64 : Bool) : Nat := if b64 then 8 else 4

/-- NewValue (R187), and the flags of .fadd. -/
def newValue (fn : AtomFn) (n old a b : Nat) : Nat × Nat :=
  let w := 8 * n
  match fn with
  | .add => ((old + a) % 2 ^ w, 0)
  | .and => (Nat.land old a, 0)
  | .or => (Nat.lor old a, 0)
  | .xor => (Nat.xor old a, 0)
  | .min => (if lessThan w false old a then old else a, 0)
  | .max => (if lessThan w false old a then a else old, 0)
  | .umin => (if lessThan w true old a then old else a, 0)
  | .umax => (if lessThan w true old a then a else old, 0)
  | .xchg => (a, 0)
  | .cas => (if old = a then b else old, 0)
  | .fadd =>
    let r := sumVals .rne [fmtF32.decode old, fmtF32.decode a]
    let x := roundF32 .rne r.1
    (x.1, orFl r.2 x.2)

/-- One atomic step at a key (R188): the new state, the old value and the flags. -/
def State.atomic (s : State) (fn : AtomFn) (n key a b : Nat) : State × Nat × Nat :=
  let old := s.readNat key n
  let r := newValue fn n old a b
  (s.writeNat key n r.1, old, r.2)

/-- Puts the elements of `seq`, in their order, where the elements that satisfy `p` stand. -/
def inTurn {α : Type} (p : α → Bool) : List α → List α → List α
  | x :: xs, q :: qs => if p x then q :: inTurn p xs qs else x :: inTurn p xs (q :: qs)
  | xs, [] => xs
  | [], _ => []

/-- The lanes of an atomic in the order in which they reach memory: not promised (R168, log 10), but ascending among those
that lie in sequential windows (R174). -/
def atomicOrder (s : State) (g : Group) (ms : WordSpace) (addr : Nat → Nat) (lanes : List (Nat × Nat)) : List (Nat × Nat) :=
  let sequential := fun (c : Nat × Nat) => ms == .sp && s.windowSeq g.ctx (field (addr c.1) 40 8) (field (addr c.1) 37 3)
  let o := ((((Config.laneOrder s.freeTick).filterMap fun f => lanes.find? fun c => c.1 == f) ++ lanes)).eraseDups
  inTurn sequential o (lanes.filter sequential)

/-- The next lane to act: in REPLAY the first whose record is its source's next one (R347). -/
def nextLane (s : State) (g : Group) (ms : WordSpace) (addr : Nat → Nat) (subject : Word64) (lanes : List (Nat × Nat)) :
    Option (Nat × Nat) :=
  match lanes.find? fun c =>
    let e := s.atomEntry g ms.space (addr c.1) subject 0
    s.gate g.ctx e.1 e.2 == .go with
  | some c => some c
  | none => lanes.head?

/-- Performs the lanes one after another: the state, the old value of each lane that has acted, and the flags. A divergence ends
it: the value of a lane differs, or a lane behind the first meets another record than its own, and no further lane acts (R348). -/
def atomicLanes (g : Group) (ms : WordSpace) (fn : AtomFn) (fetch : Bool) (n : Nat) (addr : Nat → Nat) (subject : Word64)
    (a b : Nat → Nat) (first : Bool) : Nat → List (Nat × Nat) → State → State × List (Nat × Nat) × Nat
  | 0, _, s => (s, [], 0)
  | fuel + 1, lanes, s =>
    match nextLane s g ms addr subject lanes with
    | none => (s, [], 0)
    | some c =>
      let r := (s.request g 3 c.1 ms.space.code (addr c.1)).atomic fn n c.2 (a c.1) (b c.1)
      let t := r.1.logAtom g ms.space (addr c.1) subject (BitVec.ofNat 64 (if fetch then r.2.1 else 0))
      let e := s.atomEntry g ms.space (addr c.1) subject 0
      match first, (t.scroll g.ctx e.1).clash with
      | false, some (i, source) => (s.diverge g.ctx e.1 i source, [], 0)
      | _, _ =>
        if t.frozen g.ctx && !s.frozen g.ctx then (t, [(c.1, r.2.1)], r.2.2)
        else
          let rest := atomicLanes g ms fn fetch n addr subject a b false fuel (lanes.filter (· != c)) t
          (rest.1, (c.1, r.2.1) :: rest.2.1, orFl r.2.2 rest.2.2)

/-- Fibres whose lanes have not acted stay at the instruction, as a stroke of their own (R348). -/
def State.stay (s : State) (u : Issue) (m : BitVec 32) : State :=
  if m = 0 then s else s.modGroup u.gid fun g => (g.setPc m u.pc).asStroke m

def execVatom (g : Guard) (fn : AtomFn) (fetch : Bool) (ms : WordSpace) (b64 : Bool) (o : Ordering) (data : VReg) (base : SReg)
    (vo : Option VReg) (off : BitVec 20) (s : State) : Out :=
  onStroke (.vatom g fn fetch ms b64 o data base vo off) g s fun u _ act s =>
    s.withRegs u (plainReads (.vatom g fn fetch ms b64 o data base vo off)) fun grp s =>
    let n := atomBytes b64
    let words := n / 4
    let addr := laneAddress grp base vo off.toNat
    let cs := laneChecks s u.gid grp ms.space n true true (act &&& ~~~grp.helpers) addr
    let ok := cs.filterMap okLane
    let r := atomicLanes grp ms fn fetch n addr (s.strokeThread grp u.mask) (laneData grp data 0 words)
      (laneData grp data words words) true ok.length (atomicOrder s grp ms addr ok) { s with freeTick := s.freeTick + 1 }
    let good := maskOf fun f => r.2.1.any fun x => x.1 == f
    let old := fun f => match r.2.1.find? (fun x => x.1 == f) with | some x => x.2 | none => 0
    let rs := (List.range words).map fun k =>
      VResult.mk (data.toNat + k) good fun f => BitVec.ofNat 32 (field (old f) (32 * k) 32)
    let t := if fetch && good != 0 then r.1.writeV u grp rs else r.1
    (s.accessLanes u grp cs addr 12 fun _ => t.orFlags u.gid r.2.2).stay u
      (maskOf fun f => ok.any fun c => c.1 == f && !good.getLsbD f)

def execSatom (g : Guard) (fn : AtomFn) (fetch : Bool) (ms : WordSpace) (b64 : Bool) (o : Ordering) (sd base : SReg)
    (off : BitVec 20) (s : State) : Out :=
  onStroke (.satom g fn fetch ms b64 o sd base off) g s fun u grp act s =>
    let n := atomBytes b64
    let A := scalarAddress grp base off.toNat
    if grp.helperOnly act then s.advance u 12
    else
      match s.checkAccess u.gid grp ms.space A n true true with
      | .error c => s.raise u grp u.mask c A
      | .ok key =>
        let r := (s.request grp 3 (lowest u.mask) ms.space.code A).atomic fn n key ((grp.rdS sd).toNat % 2 ^ (8 * n))
          ((grp.rdS (sd + 1)).toNat % 2 ^ (8 * n))
        let t := r.1.logAtom grp ms.space A (s.strokeThread grp u.mask) (BitVec.ofNat 64 (if fetch then r.2.1 else 0))
        let t := t.orFlags u.gid r.2.2
        (if fetch then t.writeS u grp sd (BitVec.ofNat 64 r.2.1) else t).advance u 12

/-! ## Spill-stack moves (R189) -/

/-- STKP.OFFSET changes, as a uniform-file write of class 2 (R42, R341); its number is that of the register (R356). -/
def State.setStkp (s : State) (u : Issue) (g : Group) (v : Nat) : State :=
  (s.modGroup u.gid fun h => { h with sys := { h.sys with stkp := BitVec.ofNat 64 v } }).logStrk u g 2 5 (BitVec.ofNat 64 v)

def stkOffset (g : Group) : Nat := field g.sys.stkp.toNat 0 32

def execSpushv (g : Guard) (data : VReg) (n : BitVec 24) (s : State) : Out :=
  onStroke (.spushv g data n) g s fun u grp a s =>
    let base := stkOffset grp
    if grp.stack < base + 128 * n.toNat then s.trap u u.mask 0x11 (BitVec.ofNat 64 base)
    else
      s.withRegs u (rangeRegs (data.toNat, n.toNat)) fun grp s =>
      let t := (List.range n.toNat).foldl (fun t k =>
        (lanesOf (a &&& ~~~grp.helpers)).foldl (fun t f =>
          t.writeNat (placeStack u.gid + base + 128 * k + 4 * f) 4 ((grp.rdV (data.toNat + k)).lane f).toNat) t) s
      (t.setStkp u grp (base + 128 * n.toNat)).advance u 12

/-- SPOPV; bytes above SIZE are outside the stack as well (R60, log 21). -/
def execSpopv (g : Guard) (data : VReg) (n : BitVec 24) (s : State) : Out :=
  onStroke (.spopv g data n) g s fun u grp a s =>
    let base := stkOffset grp - 128 * n.toNat
    if stkOffset grp < 128 * n.toNat ∨ grp.stack < stkOffset grp then s.trap u u.mask 0x11 (BitVec.ofNat 64 (stkOffset grp))
    else
      s.withRegs u (if grp.partial? a then rangeRegs (data.toNat, n.toNat) else []) fun grp s =>
      let rs := (List.range n.toNat).map fun k => VResult.mk (data.toNat + k) a fun f =>
        BitVec.ofNat 32 (s.readNat (placeStack u.gid + base + 128 * k + 4 * f) 4)
      ((s.writeV u grp rs).setStkp u grp base).advance u 12

/-! ## Fences (R190) -/

/-- FENCE makes no access of its own; every access of this model is visible at once (log 11). -/
def execFence (g : Guard) (o : FenceOrder) (sc : Scope) (s : State) : Out :=
  onStroke (.fence g o sc) g s fun u _ _ s => s.advance u 12

end Sys2Proof.Machine
end

