-- ==== Sys2Proof/Machine/Platform.lean ====
section
/-! DEFINITION. Package reset and boot, the islands' governors, and the critical temperature (R383, R398 to R402). -/

namespace Sys2Proof.Machine

namespace State

/-- The number that step 4 gives: with every link down the package is alone in its domain, as number 0 (R399). -/
def bootNo (pkg : Option (BitVec 8)) : Nat := (pkg.map (·.toNat)).getD 0

/-- The machine with no package left of its domain. Inputs that are still to come stay on the agenda, the calls that have been
taken stay taken, and what the parts show of their boots and their fuses hold (R373, R398). -/
def alone (s : State) : State :=
  { State.reset with agenda := s.agenda, freeTick := s.freeTick, fuses := s.fuses, boots := s.boots, calls := s.calls }

/-- The calls of hosts that wait at a package are gone with it: their hosts see time-outs (R399, R402). -/
def dropCalls (s : State) (p : Nat) : State :=
  let at_ := fun (c : Option Call) => match c with | some c => c.pkg == p | none => false
  { s with ops := s.ops.keep fun _ o =>
      !(match o.work with | .name n => at_ n.host | .launch l => at_ l.host | .access a => a.call.pkg == p | _ => false) }

/-- A package of a domain leaves it at its reset: contexts open there end with MACHINE_CHECK, those at home there are gone with
it, and nothing of its registers is left (log 8). -/
def dropPackage (s : State) (p : Nat) : State :=
  let t := (s.contexts.filter fun c => (c.2.sites.get? p).isSome).foldl (fun t c => t.contextFatal c.1 0x83 0 0) (s.dropCalls p)
  let t := (s.contexts.filter fun c => c.2.home == p).foldl (fun t c => t.freeContext c.1) t
  let t := (t.contexts.filter fun c => (c.2.sites.get? p).isSome).foldl (fun t c => t.leavePackage c.1 p) t
  { t with
    packages := t.packages.filter (· != p), stopped := t.stopped.filter (· != p)
    islands := t.islands.keep fun k _ => k / 16 != p, cores := t.cores.keep fun k _ => k / 256 != p
    corrected := t.corrected.keep fun k _ => k / 256 != p, expanders := t.expanders.keep fun k _ => k / 16 != p
    services := t.services.erase p, firmware := t.firmware.erase p, origins := t.origins.erase p }

/-- The domain once a package has left it: the machine alone when no other is left. -/
def without (s : State) (p : Nat) : State := if s.packages.any (· != p) then s.dropPackage p else s.alone

/-- The domain without a part that is reset. A number that another part has in the present domain is not its own. -/
def leaveDomain (s : State) (part : Nat) : State :=
  match (s.boots.read {} part).num with
  | some p => if s.packages.contains p && s.partOf p == part then s.without p else s
  | none => s

/-- The domain that a package joins at step 4: packages that have booted and that links reach, or none when its own links or
theirs are down (R399). -/
def domainFor (s : State) (pkg : Option (BitVec 8)) : State :=
  if pkg.isSome && s.linked && !s.packages.isEmpty then (if s.packages.contains (bootNo pkg) then s.without (bootNo pkg) else s)
  else s.alone

/-- The step at which a boot fails, with BOOTERR (R398): 2 for a firmware image with a bad signature or below the fused minimum,
3 for a stack that does not train, 5 for a service that does not start. -/
def bootFails (minimum : Nat) (image : Firmware) (stacksOk : Bool) (found : Enumeration) : Option Nat :=
  if !image.signed || decide (image.version < minimum) then some 2
  else if !stacksOk then some 3
  else if !found.servicesOk then some 5
  else none

/-- What a part shows of its boot at step `n`. -/
def shows (s : State) (part : Nat) (b : Boot) : State := { s with boots := s.boots.put part b }

/-- Steps 4 and 5 (R398): the package is numbered, or left alone when every link is down (none); the expander behind each port is
found; the services start, which in root-complex personality are those that enumeration finds (R383); firmware may raise the
fused minimum. -/
def bootOn (s : State) (rootcplx : Bool) (image : Firmware) (pkg : Option (BitVec 8)) (found : Enumeration) : State :=
  let p := bootNo pkg
  let t := s.domainFor pkg
  { t with
    booted := true, linked := pkg.isSome, packages := t.packages ++ [p], origins := t.origins.put p t.timebase
    fuses := t.fuses.put image.part (max (s.fuses.read 0 image.part) image.fuseTo), firmware := t.firmware.put p image
    expanders := (found.expanders.take 16).zipIdx.foldl (fun x e => x.put (p * 16 + e.2) e.1) t.expanders
    services := if rootcplx then t.services.put p (found.namespaces, found.networks) else t.services }

/-- The boot sequence of a part (R398): the strap is sampled at step 1, and a boot that fails stops at its step with BOOTERR, numbered
from step 4 on. -/
def boot (s : State) (rootcplx : Bool) (image : Firmware) (stacksOk : Bool) (pkg : Option (BitVec 8)) (found : Enumeration) : State :=
  let t := s.leaveDomain image.part
  match bootFails (s.fuses.read 0 image.part) image stacksOk found with
  | some step =>
    t.shows image.part { rootcplx := rootcplx, step := step, err := true, num := if step = 5 then some (bootNo pkg) else none }
  | none => (t.bootOn rootcplx image pkg found).shows image.part { rootcplx := rootcplx, step := 5, num := some (bootNo pkg) }

end State

/-- Package reset and the boot steps that follow it (R398, R399). -/
def execPackageReset (rootcplx : Bool) (image : Firmware) (stacksOk : Bool) (pkg : Option (BitVec 8)) (found : Enumeration) (s : State) : Out :=
  .next (s.boot rootcplx image stacksOk pkg found)

/-- One governor tick of an island (R401): above a limit the clock falls by 25 MHz, to 350 at least; after 1 ms with both
measurements below 90 % it rises by 25 MHz, to 1,050 at most. -/
def governed (i : Island) (powerLimit tempLimit power temp : Nat) : Island :=
  if powerLimit < power ∨ tempLimit < temp then { i with clock := max 350 (i.clock - 25), cool := 0 }
  else if 10 * power < 9 * powerLimit ∧ 10 * temp < 9 * tempLimit then
    if 1000 ≤ i.cool + 10 then { i with clock := min 1050 (i.clock + 25), cool := 0 } else { i with cool := i.cool + 10 }
  else { i with cool := 0 }

/-- The governor reads the island's power in milliwatts and its hottest junction in millidegrees (R400, R401). -/
def execGovernorTick (island power temp : Nat) (s : State) : Out :=
  .next (if s.stopped.contains (island / 16) then s
    else s.setIsland island
      (governed (s.island island) (s.powerLimit island) (s.throttleLimit island) power temp))

/-- A junction of a package at 110 degrees: every context open there ends with MACHINE_CHECK, its islands stop, and calls that
wait there stay unanswered (R400, R402). -/
def execCriticalTemperature (j : Junction) (s : State) : Out :=
  .next (if j.temp < 110000 then s
    else
      let open_ := (s.contexts.filter fun c => (c.2.sites.get? j.pkg).isSome).map (·.1)
      { (open_.foldl (fun t c => t.contextFatal c 0x83 0 0) s).dropCalls j.pkg with stopped := j.pkg :: s.stopped.filter (· != j.pkg) })

end Sys2Proof.Machine
end

