-- ==== Sys2Proof/Machine/Rings.lean ====
section
/-! DEFINITION. Rings (R333 to R336): RGACQ, RGCOMMIT, RGPEEK and RGREL, each one step on its control block. -/

namespace Sys2Proof.Machine

/-! ## The control block, as 256 bits (R333) -/

namespace Ring

def base (o : Nat) : Nat := field o 0 48
def logSize (o : Nat) : Nat := field o 48 8
def logCount (o : Nat) : Nat := field o 56 8
def head (o : Nat) : Nat := field o 64 32
def vis (o : Nat) : Nat := field o 96 32
def peek (o : Nat) : Nat := field o 128 32
def tail (o : Nat) : Nat := field o 160 32
def bitmap (o : Nat) : Nat := field o 192 64
def count (o : Nat) : Nat := 2 ^ logCount o

/-- A distance between two indices, modulo 2^32. -/
def dist (a b : Nat) : Nat := (b + 2 ^ 32 - a) % 2 ^ 32

def wellFormed (o : Nat) : Bool :=
  decide (1 ≤ logCount o) && decide (logCount o ≤ 16) && decide (5 ≤ logSize o) && decide (logSize o ≤ 20)
    && bitmap o % 8 == 0
    && dist (tail o) (peek o) + dist (peek o) (vis o) + dist (vis o) (head o) == dist (tail o) (head o)
    && decide (dist (tail o) (head o) ≤ count o)

/-- The address of slot `i` (R333). -/
def slot (o i : Nat) : Nat := base o + 2 ^ logSize o * (i % count o)

/-- The two ends that an acquiring step moves between: RGACQ hands out HEAD and stops at TAIL + COUNT, RGPEEK hands out
PEEK and stops at VIS (R335). -/
def stuck (isPeek : Bool) (o : Nat) : Bool :=
  if isPeek then peek o == vis o else dist (tail o) (head o) == count o

def next (isPeek : Bool) (o : Nat) : Nat := if isPeek then peek o else head o

def take (isPeek : Bool) (o : Nat) : Nat :=
  if isPeek then setField o 128 32 (peek o + 1) else setField o 64 32 (head o + 1)

/-- The ends of a committing step: RGCOMMIT moves VIS up to HEAD, RGREL moves TAIL up to PEEK. -/
def low (isRel : Bool) (o : Nat) : Nat := if isRel then tail o else vis o
def high (isRel : Bool) (o : Nat) : Nat := if isRel then peek o else head o
def setLow (isRel : Bool) (o i : Nat) : Nat := if isRel then setField o 160 32 i else setField o 96 32 i

/-- The byte and the bit of an index in the bitmap (R325, R333). -/
def byteOf (o i : Nat) : Nat := bitmap o + i % count o / 8
def bitOf (o i : Nat) : Nat := i % count o % 8

end Ring

namespace State

/-- The block's bytes, or the failed check (R334). -/
def ringBlock (s : State) (u : Issue) (g : Group) (ms : Space) (A : Nat) : Except Byte Nat := s.checkAccess u.gid g ms A 32 true true

/-- The key of the bitmap byte of an index, or the failed check and its address (R334). -/
def ringByte (s : State) (u : Issue) (g : Group) (ms : Space) (o i : Nat) : Except (Byte × Nat) Nat :=
  match s.checkAccess u.gid g ms (Ring.byteOf o i % 2 ^ 64) 1 false true with
  | .ok k => .ok k
  | .error c => .error (c, Ring.byteOf o i % 2 ^ 64)

/-- One bit of the bitmap. -/
def ringBit (s : State) (key o i : Nat) : Bool := bitAt (s.readByte key).toNat (Ring.bitOf o i)

def putRingBit (s : State) (key o i : Nat) (b : Bool) : State :=
  s.writeByte key (BitVec.ofNat 8 (setField (s.readByte key).toNat (Ring.bitOf o i) 1 (b2n b)))

/-- The loop of RgCommit: clears set bits from `v` up to `hi`; the state, the new low end, or a failed check. -/
def ringSweep (u : Issue) (g : Group) (ms : Space) (o hi : Nat) : Nat → Nat → State → Except (Byte × Nat) (State × Nat)
  | 0, v, s => .ok (s, v)
  | fuel + 1, v, s =>
    if v = hi then .ok (s, v)
    else
      match s.ringByte u g ms o v with
      | .error e => .error e
      | .ok k =>
        if s.ringBit k o v then ringSweep u g ms o hi fuel ((v + 1) % 2 ^ 32) (s.putRingBit k o v false) else .ok (s, v)

/-- RgCommit of index `i` on a well-formed block at `key`: the result, and the state after it. Every step writes the block's sector,
be it with what stood there (R336). -/
def ringCommit (s : State) (u : Issue) (g : Group) (ms : Space) (key o i : Nat) (isRel : Bool) :
    Except (Byte × Nat) (State × Nat) :=
  let lo := Ring.low isRel o
  let hi := Ring.high isRel o
  if Ring.dist lo hi ≤ Ring.dist lo i then .ok (s.writeNat key 32 o, 1)
  else
    match s.ringByte u g ms o i with
    | .error e => .error e
    | .ok k =>
      if s.ringBit k o i then .ok (s.writeNat key 32 o, 1)
      else
        match ringSweep u g ms o hi (Ring.count o + 1) lo (s.putRingBit k o i true) with
        | .error e => .error e
        | .ok (t, v) => .ok (t.writeNat key 32 (Ring.setLow isRel o v), 0)

/-- The result registers of RGACQ and RGPEEK, the ATOM record of the step, and the WAKE record of a stroke that was parked
(R335, R336, R341). -/
def ringAnswer (s : State) (u : Issue) (g : Group) (ms : Space) (A : Nat) (w : Wait) (sd : SReg) (a b : Word64) : State :=
  let parked := (g.fibre (lowest u.mask)).wait == w
  let t := s.logAtom g ms A (s.strokeThread g u.mask) a
  if parked then
    let t := (t.logWake g u.mask w false a).modGroup u.gid fun g => g.unpark u.mask
    (((t.returnS u g sd a).returnS u g (sd + 1) b).advance u 8).afterWrites u (g.fibre (lowest u.mask)).instr [sd, sd + 1]
  else ((t.writeS u g sd a).writeS u g (sd + 1) b).advance u 8

/-- A parked RGACQ or RGPEEK waits for a change of the block `o` at `key` (R335). -/
def watchBlock (s : State) (u : Issue) (key o : Nat) : State :=
  { s with watches := s.watches.put (watchKey u.gid (lowest u.mask)) { sector := key / 32, hit := false, seen := o } }

/-- RGACQ and RGPEEK (R335): a step that finds no slot parks, or stays parked, at its instruction, with its block (R54). Every other
step writes the block's sector (R336). -/
def ringTake (s : State) (u : Issue) (g : Group) (i : Instr) (isPeek once : Bool) (ms : Space) (sd sa : SReg) : State :=
  let w : Wait := if isPeek then .rgpeek else .rgacq
  let x := g.fibre (lowest u.mask)
  let A := (if x.wait == w then x.operand else g.rdS sa).toNat
  match s.ringBlock u g ms A with
  | .error c => s.raise u g u.mask c A
  | .ok key =>
    let o := s.readNat key 32
    if !Ring.wellFormed o then (s.writeNat key 32 o).ringAnswer u g ms A w sd 0 (BitVec.ofNat 64 (2 ^ 64 - 2))
    else if Ring.stuck isPeek o then
      if once then (s.writeNat key 32 o).ringAnswer u g ms A w sd 0 (BitVec.ofNat 64 (2 ^ 64 - 1))
      else if x.wait == w then s.watchBlock u key o
      else (s.watchBlock u key o).parkStroke u w (BitVec.ofNat 64 A) 0 i
    else
      let n := Ring.next isPeek o
      (s.writeNat key 32 (Ring.take isPeek o)).ringAnswer u g ms A w sd (BitVec.ofNat 64 (Ring.slot o n)) (BitVec.ofNat 64 n)

/-- RGCOMMIT and RGREL (R335). -/
def ringPut (s : State) (u : Issue) (g : Group) (isRel : Bool) (ms : Space) (sd sa sb : SReg) : State :=
  let A := (g.rdS sa).toNat
  let done := fun (t : State) (r : Nat) =>
    ((t.logAtom g ms A (s.strokeThread g u.mask) (BitVec.ofNat 64 r)).writeS u g sd (BitVec.ofNat 64 r)).advance u 8
  match s.ringBlock u g ms A with
  | .error c => s.raise u g u.mask c A
  | .ok key =>
    let o := s.readNat key 32
    if !Ring.wellFormed o then done (s.writeNat key 32 o) 2
    else
      match s.ringCommit u g ms key o (field (g.rdS sb).toNat 0 32) isRel with
      | .error e => s.raise u g u.mask e.1 e.2
      | .ok (t, r) => done t r

end State

def execRgacq (g : Guard) (once : Bool) (scp : Scope) (ms : WordSpace) (sd sa : SReg) (s : State) : Out :=
  onStroke (.rgacq g once scp ms sd sa) g s fun u grp _ s =>
    s.ringTake u grp (.rgacq g once scp ms sd sa) false once ms.space sd sa

def execRgpeek (g : Guard) (once : Bool) (scp : Scope) (ms : WordSpace) (sd sa : SReg) (s : State) : Out :=
  onStroke (.rgpeek g once scp ms sd sa) g s fun u grp _ s =>
    s.ringTake u grp (.rgpeek g once scp ms sd sa) true once ms.space sd sa

/-- RGCOMMIT does nothing in a stroke of helpers (R32, R334). -/
def execRgcommit (g : Guard) (scp : Scope) (ms : WordSpace) (sd sa sb : SReg) (s : State) : Out :=
  onStroke (.rgcommit g scp ms sd sa sb) g s fun u grp a s =>
    if grp.helperOnly a then s.advance u 8 else s.ringPut u grp false ms.space sd sa sb

def execRgrel (g : Guard) (scp : Scope) (ms : WordSpace) (sd sa sb : SReg) (s : State) : Out :=
  onStroke (.rgrel g scp ms sd sa sb) g s fun u grp _ s => s.ringPut u grp true ms.space sd sa sb

end Sys2Proof.Machine
end

