-- ==== Sys2Proof/Machine/Services.lean ====
section
/-! DEFINITION. The services of a root-complex package (R383, R384): what an NVMe namespace or a network controller does with
a message that was posted to it, and its reply. Status, count and data are the controller's, and come with the event. -/

namespace Sys2Proof.Machine

/-- The fields of a message (R384). -/
structure Request where
  operation : Nat
  k         : Nat
  count     : Nat
  buffer    : Nat

def requestOf (m : List Byte) : Request :=
  { operation := State.num m 0 1, k := State.num m 1 1, count := State.num m 16 4, buffer := State.num m 24 8 }

namespace State

/-- The value that a reply deposits (R384). -/
def replyValue (status done : Nat) : Word64 := BitVec.ofNat 64 (status % 2 ^ 16 + done % 2 ^ 32 * 2 ^ 16)

/-- The reply reaches the posting group as a deposit that needs no right, in one home step (R306, R384). -/
def depositReply (s : State) (ctx : Nat) (target issuer : Word64) (k : Nat) (v : Word64) : State :=
  let e := s.nameEntry ctx target issuer 3 0 k
  let act := fun (s : State) =>
    match s.findName ctx target with
    | .entry i x =>
      if x.state = stDead then (s, NameCode.dead)
      else
        let r := s.groupRow ctx i x (.deposit (BitVec.ofNat 3 k) v)
        (r.1, r.2.code)
    | .fail c => (s, c)
    | .fault => (s.tableFault ctx (nameIndex target), .nosuch)
  let r := act s
  r.1.log ctx e.1 (s.nameEntry ctx target issuer 3 r.2.code k).2

/-- The gate of a reply's record; a request that is not there asks for nothing. -/
def replyEntry (s : State) (post : Nat) : Option (Nat × Nat × Entry) :=
  match s.op? post with
  | some op =>
    match op.work, s.opGroup op with
    | .post p, some g =>
      some (op.ctx, s.nameEntry op.ctx g.name p.name 3 0 ((requestOf p.message).k % 8))
    | _, _ => none
  | none => none

/-- A package in root-complex personality offers service `n` of the kind that an operation belongs to: namespaces from 0x0001
on, network controllers from 0x0100 on (R383, R384). -/
def offers (s : State) (n operation : Nat) : Bool :=
  s.services.any fun e =>
    if operation ≤ 3 then decide (1 ≤ n) && decide (n ≤ e.2.1) && decide (n < 0x100)
    else decide (0x100 ≤ n) && decide (n < 0x100 + e.2.2)

/-- A service that is offered ends one request: it has moved the data, and its reply is delivered under the gate of its record.
A message to a number that no package offers stays unanswered (log 47). -/
def serve (s : State) (post operation : Nat) (status done : Nat) (move : Op → PostOp → Request → State → State × Bool) : State :=
  match s.op? post with
  | none => s
  | some op =>
    match op.work, s.opGroup op with
    | .post p, some g =>
      let q := requestOf p.message
      if q.operation = operation && s.offers p.service operation then
        let e := s.nameEntry op.ctx g.name p.name 3 0 (q.k % 8)
        s.gated op.ctx e.1 e.2 fun s =>
          let r := move op p q s
          (r.1.depositReply op.ctx g.name p.name (q.k % 8) (replyValue (if r.2 then status else 0xFFFF) done)).dropOp post
      else s
    | _, _ => s

/-- Data that a controller writes into the buffer: up to the first page that fails its walk. DESIGN CHOICE (log 52): a buffer page in
a second-tier frame with no capacity is read and written as if the capacity were present, since R21 gives a status to copies
only. -/
def intoBuffer (data : Request → List Byte) (op : Op) (p : PostOp) (q : Request) (s : State) : State × Bool :=
  let r := s.vmWrite op.ctx p.pkg .copyWrite q.buffer (data q)
  (r.1, r.2.isNone)

/-- Data that a controller takes from the buffer: whether its walks pass. -/
def fromBuffer (len : Request → Nat) (op : Op) (p : PostOp) (q : Request) (s : State) : State × Bool :=
  (s, (chunksOf q.buffer (len q)).all fun c => match s.walk op.ctx p.pkg .copyRead c.1 with | .ok _ => true | _ => false)

end State

/-- Blocks are read into the buffer. -/
def execSvcReadBlocks (post status done : Nat) (data : List Byte) (s : State) : Out :=
  .next (s.serve post 1 status done (State.intoBuffer fun _ => data))

/-- Blocks are written from the buffer; a block's size is the namespace's, and comes with the event. -/
def execSvcWriteBlocks (post status : Nat) (done : Blocks) (s : State) : Out :=
  .next (s.serve post 2 status done.count (State.fromBuffer fun q => q.count * done.size))

def execSvcFlush (post status : Nat) (s : State) : Out := .next (s.serve post 3 status 0 fun _ _ _ s => (s, true))

def execSvcSendFrame (post status done : Nat) (s : State) : Out :=
  .next (s.serve post 4 status done (State.fromBuffer fun q => q.count))

/-- A frame that arrives is written into the buffer, up to its length. -/
def execSvcPostReceive (post status : Nat) (data : List Byte) (s : State) : Out :=
  .next (match s.op? post with
    | some op =>
      match op.work with
      | .post p => s.serve post 5 status (min data.length (requestOf p.message).count) (State.intoBuffer fun q => data.take q.count)
      | _ => s
    | none => s)

end Sys2Proof.Machine
end

