-- ==== Sys2Proof/Machine/Sync.lean ====
section
/-! DEFINITION. WAITW, the cohort barrier, the count-barrier instructions and read-only range locks (R191 to R197). -/

namespace Sys2Proof.Machine

/-! ## WAITW (R191) -/

/-- The comparison value: its low 4 bytes for .b32. -/
def waitCompare (g : Group) (b64 : Bool) (sc : SReg) : Nat := (g.rdS sc).toNat % 2 ^ (8 * atomBytes b64)

/-- WAITW returns at its issue: sv takes the word and spk says whether it changed. -/
def State.waitReturn (s : State) (u : Issue) (g : Group) (sv : SReg) (k : UPred) (w : Nat) (changed : Bool) : State :=
  (s.writeS u g sv (BitVec.ofNat 64 w)).writeSp u g k changed

/-- The stroke watches a sector from now on. -/
def State.watchSector (s : State) (u : Issue) (sector : Nat) : State :=
  { s with watches := s.watches.put (watchKey u.gid (lowest u.mask)) { sector := sector, hit := false } }

/-- A write has reached the sector of a parked WAITW since it last read. -/
def State.watchHit (s : State) (gid fibre : Nat) : Bool :=
  match s.watches.get? (watchKey gid fibre) with | some w => w.hit | none => false

/-- A WAITW that a fibre of a resident group waits in: its stroke, the word it watches and its address, and its fields. -/
structure Watch where
  g    : Group
  mask : BitVec 32
  word : Nat
  cmp  : Nat
  sv   : SReg
  k    : UPred
  late : Bool
  space : Nat
  addr : Nat

/-- The read that a parked WAITW makes at a wake and at its deadline is a request like its first (R191, R397). -/
def State.reread (s : State) (x : Watch) : State := s.request x.g 1 (lowest x.mask) x.space x.addr

/-- A woken WAITW finds no change and parks again. -/
def State.watchAgain (s : State) (gid fibre : Nat) : State :=
  { s with watches := s.watches.adjust (watchKey gid fibre) fun w => { w with hit := false } }

def execWaitw (g : Guard) (acq : Option Scope) (ms : WordSpace) (b64 : Bool) (base sv sc st : SReg) (spd : UPred)
    (off : Word32) (s : State) : Out :=
  onStroke (.waitw g acq ms b64 base sv sc st spd off) g s fun u grp _ s =>
    let n := atomBytes b64
    let A := scalarAddress grp base off.toNat
    match s.checkAccess u.gid grp ms.space A n true false with
    | .error c => s.raise u grp u.mask c A
    | .ok key =>
      let t := s.request grp 1 (lowest u.mask) ms.space.code A
      let w := s.readNat key n
      if w ≠ waitCompare grp b64 sc then (t.waitReturn u grp sv spd w true).advance u 16
      else
        (t.watchSector u (key / 32)).parkStroke u .waitw (BitVec.ofNat 64 A) (s.deadlineAfter (State.pkgOf grp.core) (grp.rdS st))
          (.waitw g acq ms b64 base sv sc st spd off)

def watch? (s : State) (gid fibre : Nat) : Option Watch :=
  match s.group? gid with
  | none => none
  | some g =>
    let x := g.fibre fibre
    match x.instr with
    | some (.waitw _ _ ms b64 _ sv sc _ k _) =>
      if g.phase == .resident && x.wait == .waitw then
        match s.resolve gid g ms.space x.operand.toNat (atomBytes b64) with
        | .ok key => some { g := g, mask := g.strokeOf fibre, word := s.readNat key (atomBytes b64)
                            cmp := waitCompare g b64 sc, sv := sv, k := k
                            late := s.deadlineReached g (g.strokeOf fibre) .waitw x.deadline
                            space := ms.space.code, addr := x.operand.toNat }
        | .error _ => none
      else none
    | _ => none

/-- The release of a parked WAITW by a write or by its deadline, logged with the value that it read last and writes (R341). -/
def State.endWatch (s : State) (gid fibre : Nat) (x : Watch) (byDeadline : Bool) : State :=
  s.gatedWake x.g x.mask .waitw byDeadline fun s =>
    let u : Issue := { gid := gid, mask := x.mask, pc := (x.g.fibre fibre).pc }
    let t := ((s.reread x).logWake x.g x.mask .waitw byDeadline (BitVec.ofNat 64 x.word)).returnS u x.g x.sv (BitVec.ofNat 64 x.word)
    let t := (t.writeSp u x.g x.k (x.word != x.cmp)).resume gid x.mask 16
    { t with watches := t.watches.erase (watchKey gid fibre) }.afterWrites u (x.g.fibre fibre).instr [x.sv]

/-- A write has reached the sector that a parked WAITW watches: it reads again, and goes on if the word differs (R191). -/
def execWaitwWake (gid fibre : Nat) (s : State) : Out :=
  .next (match watch? s gid fibre with
    | some x =>
      if s.watchHit gid fibre then (if x.word ≠ x.cmp then s.endWatch gid fibre x false else (s.reread x).watchAgain gid fibre) else s
    | none => s)

/-- The deadline of a parked WAITW has come: it reads once more and goes on (R191). -/
def execWaitwTimeout (gid fibre : Nat) (s : State) : Out :=
  .next (match watch? s gid fibre with
    | some x => if x.late then s.endWatch gid fibre x true else s
    | none => s)

/-! ## The cohort barrier (R192) -/

/-- BARA's effect: the arrived bits of the stroke and the group's owed bit. -/
def State.arriveBarrier (s : State) (u : Issue) (g : Group) : State :=
  s.modCohort g.cohort fun c =>
    { c with arrived := c.arrived.put g.index (c.arrived.read 0 g.index ||| u.mask)
             owed := c.owed ||| BitVec.ofNat 16 (2 ^ g.index) }

/-- The stroke parks until the barrier completes; it then goes on after the instruction. DESIGN CHOICE (log 2): its fibres' records show
the program counter behind the instruction while they wait. -/
def State.parkBarrier (s : State) (u : Issue) : State :=
  (s.advance u 8).modGroup u.gid fun g => (g.park u.mask .barrier 0 0 none).asStroke u.mask

def execBara (g : Guard) (s : State) : Out :=
  onStroke (.bara g) g s fun u grp _ s => ((s.arriveBarrier u grp).advance u 8).barrierCheck grp.cohort

def execBarw (g : Guard) (s : State) : Out :=
  onStroke (.barw g) g s fun u grp _ s =>
    match s.cohort? grp.cohort with
    | some c => if c.owed.getLsbD grp.index then s.parkBarrier u else s.advance u 8
    | none => s.advance u 8

def execBar (g : Guard) (s : State) : Out :=
  onStroke (.bar g) g s fun u grp _ s => ((s.arriveBarrier u grp).parkBarrier u).barrierCheck grp.cohort

/-! ## Count-barrier instructions (R195, R196) -/

/-- The checks of a count-barrier instruction in their order: bounds, alignment, locks, MAGIC (R196). -/
def State.cbAccess (s : State) (u : Issue) (g : Group) (cl : Bool) (A : Nat) (writes magic : Bool)
    (act : Nat → Nat → State → State) : State :=
  match s.checkAccess u.gid g (cbSpace cl) A 32 true writes with
  | .error c => s.raise u g u.mask c A
  | .ok key =>
    let o := s.readCb key
    if magic ∧ Cb.magic o ≠ 0x5CB1 then s.trap u u.mask 0x24 (BitVec.ofNat 64 A) else act key o s

def execCbinit (g : Guard) (cl : Bool) (base qa qk : SReg) (off : Word32) (s : State) : Out :=
  onStroke (.cbinit g cl base qa qk off) g s fun u grp a s =>
    let A := scalarAddress grp base off.toNat
    if grp.helperOnly a then s.advance u 16
    else s.cbAccess u grp cl A true false fun key o s =>
      if Cb.magic o = 0x5CB1 ∧ Cb.waiters o ≠ 0 then s.trap u u.mask 0x24 (BitVec.ofNat 64 A)
      else ((s.writeCb key (Cb.init (grp.rdS qa).toNat (grp.rdS qk).toNat)).logAtom grp (cbSpace cl) A
        (s.strokeThread grp u.mask) 0).advance u 16

/-- An update of an object by a stroke: the token, the epoch that it found, is written before the update, whose settlement may
release a CBWAIT that tests that register (R196). -/
def State.cbStroke (s : State) (u : Issue) (g : Group) (cl : Bool) (A key o : Nat) (tok : Option SReg) (o' : Nat) : State :=
  let token := match tok with | some _ => BitVec.ofNat 64 (Cb.epoch o) | none => 0
  let t := s.logAtom g (cbSpace cl) A (s.strokeThread g u.mask) token
  ((match tok with | some r => t.writeS u g r token | none => t).cbCommit key o').advance u 16

def execCbexpect (g : Guard) (arrive : Option SReg) (scp : Scope) (cl : Bool) (base cnt : SReg) (off : Word32)
    (s : State) : Out :=
  onStroke (.cbexpect g arrive scp cl base cnt off) g s fun u grp a s =>
    let A := scalarAddress grp base off.toNat
    if grp.helperOnly a then s.advance u 16
    else s.cbAccess u grp cl A true true fun key o s =>
      let e := Cb.expect o (field (grp.rdS cnt).toNat 0 32)
      s.cbStroke u grp cl A key o arrive (if arrive.isSome then Cb.arrive e else e)

def execCbarrive (g : Guard) (ack : Bool) (scp : Scope) (cl : Bool) (base tok : SReg) (off : Word32) (s : State) : Out :=
  onStroke (.cbarrive g ack scp cl base tok off) g s fun u grp a s =>
    let A := scalarAddress grp base off.toNat
    if grp.helperOnly a then s.advance u 16
    else s.cbAccess u grp cl A true true fun key o s =>
      s.cbStroke u grp cl A key o (some tok) (if ack then Cb.ack o else Cb.arrive o)

def execCbwait (g : Guard) (scp : Scope) (cl : Bool) (base tok : SReg) (off : Word32) (s : State) : Out :=
  onStroke (.cbwait g scp cl base tok off) g s fun u grp _ s =>
    let A := scalarAddress grp base off.toNat
    s.cbAccess u grp cl A true true fun key o s =>
      if Cb.passed o (grp.rdS tok).toNat then s.advance u 16
      else
        ((s.logAtom grp (cbSpace cl) A (s.strokeThread grp u.mask) 0).writeCb key
          (setField o 240 16 (Cb.waiters o + 1))).parkStroke u .cbwait (BitVec.ofNat 64 A) 0 (.cbwait g scp cl base tok off)

def execCbtest (g : Guard) (scp : Scope) (cl : Bool) (spd : UPred) (sf base tok : SReg) (off : Word32) (s : State) : Out :=
  onStroke (.cbtest g scp cl spd sf base tok off) g s fun u grp _ s =>
    let A := scalarAddress grp base off.toNat
    s.cbAccess u grp cl A false true fun _ o s =>
      ((s.writeSp u grp spd (Cb.passed o (grp.rdS tok).toNat)).writeS u grp sf (BitVec.ofNat 64 (Cb.flags o))).advance u 16

/-! ## Read-only range locks (R197) -/

/-- The core whose table registers a range: the owner of shared memory, the issuer for scratchpad (R177). -/
def State.tableCore (s : State) (g : Group) (ms : Space) (A : Nat) : Nat :=
  match ms with
  | .sp => g.core
  | _ => match (s.ownerCohort g ms A).bind s.cohort? with | some c => c.core.getD g.core | none => g.core

def rlockFailure : Word64 := 0xFFFFFFFFFFFFFFFF

/-- The lowest handle that no lock of a cohort holds. -/
def State.freeHandle (s : State) (coh : Nat) : Nat :=
  ((List.range 32).find? fun h => (s.rlocks coh).all fun l => l.1 != h).getD 0

/-- The parts of a range whose first and last bytes are legal, each with its first key, its bytes and the core of its table: a .cl
range has one in the memory of each member that it reaches (R158, R177; log 22). -/
def State.rlockParts (s : State) (g : Group) (ms : WordSpace) (key A n : Nat) : List (Nat × Nat × Nat) :=
  if ms = .cl then
    (List.range 4).filterMap fun m =>
      let at_ := m * 2 ^ 19
      (s.ownerCohort g .cl at_).bind fun h => (s.cohort? h).bind fun c =>
        let a := max A at_
        let b := min (A + n) (at_ + min c.shared (2 ^ 19))
        if a < b then some (placeShared h + (a - at_), b - a, c.core.getD g.core) else none
  else [(key, n, s.tableCore g ms.space A)]

/-- The tables that are to hold some parts have no entry left for them, or the cohort would hold too many (R197). -/
def State.rlockFull (s : State) (coh : Nat) (parts : List (Nat × Nat × Nat)) : Bool :=
  decide (Config.readOnlyLocks < (s.rlocks coh).length + parts.length)
    || parts.any fun p =>
        let n := (parts.filter fun q => q.2.2 == p.2.2).length
        decide (Config.rangeLocks < s.tableUse p.2.2 + n) || decide (Config.readOnlyLocks < s.tableReadOnly p.2.2 + n)

/-- RLOCK checks the first and the last byte of its range (R197). -/
def execRlock (g : Guard) (ms : WordSpace) (base len hd : SReg) (off : Word32) (s : State) : Out :=
  onStroke (.rlock g ms base len hd off) g s fun u grp _ s =>
    let n := (grp.rdS len).toNat
    let A := scalarAddress grp base off.toNat
    if n = 0 ∨ 2 ^ 32 < n then (s.writeS u grp hd rlockFailure).advance u 16
    else
      match s.resolve u.gid grp ms.space A 1, s.resolve u.gid grp ms.space (A + n - 1) 1 with
      | .error c, _ => s.raise u grp u.mask c A
      | .ok _, .error c => s.raise u grp u.mask c A
      | .ok key, .ok _ =>
        let parts := s.rlockParts grp ms key A n
        if parts.any fun p => s.meets p.1 p.2.1 (· == .write) then s.parkEngine u
        else if s.rlockFull grp.cohort parts then (s.writeS u grp hd rlockFailure).advance u 16
        else
          let h := s.freeHandle grp.cohort
          let ls := parts.map fun p => State.mkLock grp.ctx p.2.2 p.1 p.2.1 .readOnly (.rlock grp.cohort h)
          let t := { s with locks := s.locks ++ ls }
          (t.writeS u grp hd (BitVec.ofNat 64 h)).advance u 16

def execRunlock (g : Guard) (hd : SReg) (s : State) : Out :=
  onStroke (.runlock g hd) g s fun u grp _ s =>
    let h := (grp.rdS hd).toNat
    let mine := fun l : Lock => l.owner == .rlock grp.cohort h
    if s.locks.any mine then
      ((({ s with locks := s.locks.filter fun l => !mine l }).blotUnlock (grp.cohort, h)).retryDone).advance u 16
    else s.advance u 16

end Sys2Proof.Machine
end

