-- ==== Sys2Proof/Machine/Tasks.lean ====
section
/-! DEFINITION. TSPAWN, TPOST, TDONE and the work distributor (R326, R328 to R330). -/

namespace Sys2Proof.Machine

/-! ## Tasks (R329, R330) -/

/-- The task that lane `f` of a stroke enters in the ready table (R329). -/
def taskOf (g : Group) (role : Nat) (entry : Word64) (tag : Word32) (addr spawn : Nat) : Task :=
  { ctx := g.ctx, launch := g.launch, role := role, entry := entry, tag := tag, ready := tag == 0
    argPkg := field addr 40 8, argDie := field addr 37 3, argOff := field addr 0 37, spawn := spawn }

/-- Enters the tasks of some lanes in the ready table of a die, in ascending order. -/
def State.enterTasks (s : State) (die : Nat) (g : Group) (entry : Word64) (tag : Nat → Word32) (addr : Nat → Nat) :
    List Nat → State
  | [] => s
  | f :: fs =>
    (s.modDie die fun d =>
      let n := d.spawned.read 0 g.ctx
      { d with tasks := d.tasks ++ [taskOf g g.role entry (tag f) (addr f) n], spawned := d.spawned.put g.ctx (n + 1) }).enterTasks
        die g entry tag addr fs

/-- The first lane whose argument record lies outside the window of its die (R329). -/
def State.spawnBad (s : State) (gid : Nat) (g : Group) (addr : Nat → Nat) (lanes : List Nat) : Option Nat :=
  lanes.find? fun f => match s.resolve gid g .sp (addr f) 1 with | .ok _ => false | .error _ => true

/-- TSPAWN: the tasks of a stroke are entered together or not at all. -/
def execTspawn (g : Guard) (tag : VReg) (base : SReg) (vo : Option VReg) (off : BitVec 24) (s : State) : Out :=
  onStroke (.tspawn g tag base vo off) g s fun u _ a s =>
    s.withRegs u (plainReads (.tspawn g tag base vo off)) fun grp s =>
    let entry := grp.rdS (base + 1)
    let addr := laneAddress grp base vo off.toNat
    let lanes := lanesOf (a &&& ~~~grp.helpers)
    let die := State.dieOf grp.core
    if entry.toNat % 4 ≠ 0 then s.trap u u.mask 0x04 entry
    else
      match s.spawnBad u.gid grp addr lanes with
      | some f => s.contextFatal grp.ctx 0x21 (BitVec.ofNat 64 (addr f)) (s.thread grp f)
      | none =>
        if Config.readyTable < (s.die die).tasks.length + lanes.length then s.parkEngine u
        else (s.enterTasks die grp entry (fun f => (grp.rdV tag.toNat).lane f) addr lanes).advance u 12

/-- Tasks of a context that wait on a tag become ready in one ready table. -/
def State.postTag (s : State) (die ctx : Nat) (tag : Word32) : State :=
  s.modDie die fun d =>
    { d with tasks := d.tasks.map fun k => if k.ctx == ctx && k.tag == tag then { k with ready := true } else k }

/-- The dies that a TPOST reaches: the issuing core's, or with .pkg all eight of its package (R330). -/
def postDies (g : Group) (pkg : Bool) : List Nat :=
  if pkg then (List.range 8).map (8 * State.pkgOf g.core + ·) else [State.dieOf g.core]

def execTpost (g : Guard) (pkg : Bool) (sa : SReg) (s : State) : Out :=
  onStroke (.tpost g pkg sa) g s fun u grp _ s =>
    let tag : Word32 := (grp.rdS sa).setWidth 32
    let t := if tag = 0 then s else (postDies grp pkg).foldl (fun t d => t.postTag d grp.ctx tag) s
    t.advance u 8

/-! ## TDONE (R326) -/

/-- The bitmap byte that a group's TDONE sets, with its launch and its cohort's number: none without a DONEMAP, and none
for a task group. -/
def State.doneByte (s : State) (g : Group) : Option (Launch × Nat × Nat) :=
  match s.cohort? g.cohort, s.launch? g.launch with
  | some c, some l => if c.task then none else l.doneMap.map fun a => (l, c.num, (a + c.num / 8) % 2 ^ 64)
  | _, _ => none

def execTdone (g : Guard) (s : State) : Out :=
  onStroke (.tdone g) g s fun u grp a s =>
    if grp.helperOnly a then s.advance u 8
    else
      match s.doneByte grp with
      | none => s.advance u 8
      | some (l, n, A) =>
        match s.checkAccess u.gid grp .sp A 1 true true with
        | .error c => s.raise u grp u.mask c A
        | .ok _ => ((s.logAtom grp .sp A (s.strokeThread grp u.mask) 0).setDone l n).advance u 8

/-! ## The work distributor (R328) -/

/-- The requests of a group that the distributor has not answered, oldest first. -/
def State.unanswered (s : State) (gid : Nat) : List Nat :=
  (s.ops.filter fun o => o.2.gid == some gid && (match o.2.work with | .tile _ => true | _ => false)).map (·.1)

/-- WDNEXT: the request leaves; the answer comes with WD_ANSWER. Locks are not tested (log 27). -/
def execWdnext (g : Guard) (sa : SReg) (s : State) : Out :=
  onStroke (.wdnext g sa) g s fun u grp a s =>
    let A := (grp.rdS sa).toNat
    if grp.helperOnly a then s.advance u 8
    else if 8 ≤ (s.unanswered u.gid).length then s.parkEngine u
    else
      match s.resolve u.gid grp .sp A 8 with
      | .error c => s.raise u grp u.mask c A
      | .ok _ =>
        if A % 8 ≠ 0 then s.trap u u.mask 0x22 (BitVec.ofNat 64 A)
        else
          (s.addOp { ctx := grp.ctx, gid := some u.gid, sd := none
                     work := .tile { launch := grp.launch, addr := grp.rdS sa, thread := s.strokeThread grp u.mask } }).advance u 8

/-- The end token. -/
def endToken : Word64 := BitVec.ofNat 64 (2 ^ 64 - 1)

/-- The answer to the t-th request (R328). -/
def tileAnswer (l : Launch) (t : Nat) : Word64 :=
  if t < l.tx * l.ty * l.tz then
    BitVec.ofNat 64 (t % l.tx + t / l.tx % l.ty * 2 ^ 16 + t / l.tx / l.ty * 2 ^ 32 + t % 2 ^ 16 * 2 ^ 48)
  else endToken

/-- The WD record of an answer. -/
def tileEntry (l : Launch) (k : TileOp) (answer : Word64) : Entry :=
  { kind := 6, cls := 6, src := l.num % 8, subject := k.thread, operand := k.addr, payload := answer }

/-- The distributor answers a request: in REPLAY with the logged answer (R347). -/
def State.answerTile (s : State) (o : Nat) (op : Op) (k : TileOp) (l : Launch) : State :=
  let v := (s.logged op.ctx l.pkg (tileEntry l k 0)).getD (tileAnswer l l.nextTile)
  let t := (s.log op.ctx l.pkg (tileEntry l k v) false).writeNat (spKeyOf op.ctx k.addr) 8 v.toNat
  ((t.modLaunch k.launch fun l => if v = endToken then l else { l with nextTile := l.nextTile + 1 }).dropOp o)
where
  spKeyOf (ctx : Nat) (a : Word64) : Nat := State.spKey ctx a.toNat

/-- The distributor writes the next tile, or the end token, into an answer word; the requests of one group are answered in
issue order. -/
def execWdAnswer (o : Nat) (s : State) : Out :=
  .next (match s.op? o with
    | some op =>
      match op.work, op.gid with
      | .tile k, some gid =>
        match s.launch? k.launch with
        | some l =>
          if (s.unanswered gid).head? = some o then
            s.gated op.ctx l.pkg (tileEntry l k 0) fun s => s.answerTile o op k l
          else s
        | none => s
      | _, _ => s
    | none => s)

end Sys2Proof.Machine
end

