-- ==== Sys2Proof/Machine/Dispatch.lean ====
section
/-! DEFINITION. One arm per constructor of `Instr`: each calls its meaning. -/

namespace Sys2Proof.Machine

def exec (i : Instr) (s : State) : Host.Outcome State Fault Refusal :=
  match i with
  | .smov g sd sa => Sys2Proof.Machine.execSmov g sd sa s
  | .smovGetp g sd => Sys2Proof.Machine.execSmovGetp g sd s
  | .smovSetp g sa => Sys2Proof.Machine.execSmovSetp g sa s
  | .smovi g sd imm => Sys2Proof.Machine.execSmovi g sd imm s
  | .sadd g sd sa b => Sys2Proof.Machine.execSadd g sd sa b s
  | .saddi g sd sa imm => Sys2Proof.Machine.execSaddi g sd sa imm s
  | .ssub g sd sa b => Sys2Proof.Machine.execSsub g sd sa b s
  | .smul g sd sa b => Sys2Proof.Machine.execSmul g sd sa b s
  | .smulhi g uns sd sa b => Sys2Proof.Machine.execSmulhi g uns sd sa b s
  | .sdiv g uns sd sa b => Sys2Proof.Machine.execSdiv g uns sd sa b s
  | .srem g uns sd sa b => Sys2Proof.Machine.execSrem g uns sd sa b s
  | .sand g sd sa b => Sys2Proof.Machine.execSand g sd sa b s
  | .sor g sd sa b => Sys2Proof.Machine.execSor g sd sa b s
  | .sxor g sd sa b => Sys2Proof.Machine.execSxor g sd sa b s
  | .sshl g sd sa b => Sys2Proof.Machine.execSshl g sd sa b s
  | .sshr g sd sa b => Sys2Proof.Machine.execSshr g sd sa b s
  | .sshra g sd sa b => Sys2Proof.Machine.execSshra g sd sa b s
  | .smin g uns sd sa b => Sys2Proof.Machine.execSmin g uns sd sa b s
  | .smax g uns sd sa b => Sys2Proof.Machine.execSmax g uns sd sa b s
  | .ssel g k sd sa b => Sys2Proof.Machine.execSsel g k sd sa b s
  | .scmp g c uns spd sa b => Sys2Proof.Machine.execScmp g c uns spd sa b s
  | .splog g t spd spa spb => Sys2Proof.Machine.execSplog g t spd spa spb s
  | .slea g k sd sa b => Sys2Proof.Machine.execSlea g k sd sa b s
  | .sbfx g sx sd sa pos width => Sys2Proof.Machine.execSbfx g sx sd sa pos width s
  | .sbfi g sd sa pos width => Sys2Proof.Machine.execSbfi g sd sa pos width s
  | .sclz g sd sa => Sys2Proof.Machine.execSclz g sd sa s
  | .spopc g sd sa => Sys2Proof.Machine.execSpopc g sd sa s
  | .sfadd g rnd sd sa sb => Sys2Proof.Machine.execSfadd g rnd sd sa sb s
  | .sfmul g rnd sd sa sb => Sys2Proof.Machine.execSfmul g rnd sd sa sb s
  | .sfma g rnd sd sa sb => Sys2Proof.Machine.execSfma g rnd sd sa sb s
  | .sfcmp g c spd sa sb => Sys2Proof.Machine.execSfcmp g c spd sa sb s
  | .sfcvt g src dst rnd sat sd sa => Sys2Proof.Machine.execSfcvt g src dst rnd sat sd sa s
  | .br g hint off => Sys2Proof.Machine.execBr g hint off s
  | .vbr g hint off => Sys2Proof.Machine.execVbr g hint off s
  | .jmp g hint off => Sys2Proof.Machine.execJmp g hint off s
  | .jmpr g sa => Sys2Proof.Machine.execJmpr g sa s
  | .call g off => Sys2Proof.Machine.execCall g off s
  | .callr g sa => Sys2Proof.Machine.execCallr g sa s
  | .ret g sa => Sys2Proof.Machine.execRet g sa s
  | .meet g => Sys2Proof.Machine.execMeet g s
  | .fend g => Sys2Proof.Machine.execFend g s
  | .gexit g sa => Sys2Proof.Machine.execGexit g sa s
  | .yield g => Sys2Proof.Machine.execYield g s
  | .sleep g b => Sys2Proof.Machine.execSleep g b s
  | .nop g => Sys2Proof.Machine.execNop g s
  | .vmov g nr ix more vd va => Sys2Proof.Machine.execVmov g nr ix more vd va s
  | .vmovi g nr ix ty vd imm => Sys2Proof.Machine.execVmovi g nr ix ty vd imm s
  | .vmovx g nr xd va => Sys2Proof.Machine.execVmovx g nr xd va s
  | .vstx g nr vd xa => Sys2Proof.Machine.execVstx g nr vd xa s
  | .viota g nr rank vd => Sys2Proof.Machine.execViota g nr rank vd s
  | .vadd g nr ty sat vd va b => Sys2Proof.Machine.execVadd g nr ty sat vd va b s
  | .vsub g nr ty sat vd va b => Sys2Proof.Machine.execVsub g nr ty sat vd va b s
  | .vmul g nr ty sat vd va b => Sys2Proof.Machine.execVmul g nr ty sat vd va b s
  | .vmulhi g nr ty vd va b => Sys2Proof.Machine.execVmulhi g nr ty vd va b s
  | .vmad g nr ix ty sat vd va vb vc => Sys2Proof.Machine.execVmad g nr ix ty sat vd va vb vc s
  | .vdiv g nr ty vd va b => Sys2Proof.Machine.execVdiv g nr ty vd va b s
  | .vrem g nr ty vd va b => Sys2Proof.Machine.execVrem g nr ty vd va b s
  | .vand g nr vd va b => Sys2Proof.Machine.execVand g nr vd va b s
  | .vor g nr vd va b => Sys2Proof.Machine.execVor g nr vd va b s
  | .vxor g nr vd va b => Sys2Proof.Machine.execVxor g nr vd va b s
  | .vnot g nr vd va => Sys2Proof.Machine.execVnot g nr vd va s
  | .vshl g nr vd va b => Sys2Proof.Machine.execVshl g nr vd va b s
  | .vshr g nr vd va b => Sys2Proof.Machine.execVshr g nr vd va b s
  | .vshra g nr vd va b => Sys2Proof.Machine.execVshra g nr vd va b s
  | .vmin g nr ty vd va b => Sys2Proof.Machine.execVmin g nr ty vd va b s
  | .vmax g nr ty vd va b => Sys2Proof.Machine.execVmax g nr ty vd va b s
  | .vabs g nr sat vd va => Sys2Proof.Machine.execVabs g nr sat vd va s
  | .vneg g nr sat vd va => Sys2Proof.Machine.execVneg g nr sat vd va s
  | .vsel g nr ix vd va vb vc => Sys2Proof.Machine.execVsel g nr ix vd va vb vc s
  | .vcmp g nr c ty pd va b => Sys2Proof.Machine.execVcmp g nr c ty pd va b s
  | .vplog g nr t pd pa pb => Sys2Proof.Machine.execVplog g nr t pd pa pb s
  | .vclz g nr vd va => Sys2Proof.Machine.execVclz g nr vd va s
  | .vpopc g nr vd va => Sys2Proof.Machine.execVpopc g nr vd va s
  | .vbfx g nr ix ty vd va vb vc => Sys2Proof.Machine.execVbfx g nr ix ty vd va vb vc s
  | .vbfi g nr ix vd va vb vc => Sys2Proof.Machine.execVbfi g nr ix vd va vb vc s
  | .vperm g nr vd va vb vc => Sys2Proof.Machine.execVperm g nr vd va vb vc s
  | .vshfl g nr mode vd va vb => Sys2Proof.Machine.execVshfl g nr mode vd va vb s
  | .qswap g nr m vd va => Sys2Proof.Machine.execQswap g nr m vd va s
  | .qbcast g nr k vd va => Sys2Proof.Machine.execQbcast g nr k vd va s
  | .vred g nr fn ty vd va => Sys2Proof.Machine.execVred g nr fn ty vd va s
  | .vscan g nr fn excl ty vd va => Sys2Proof.Machine.execVscan g nr fn excl ty vd va s
  | .vballot g nr sd pa => Sys2Proof.Machine.execVballot g nr sd pa s
  | .vtos g nr mode sd va => Sys2Proof.Machine.execVtos g nr mode sd va s
  | .stov g nr hi vd sa => Sys2Proof.Machine.execStov g nr hi vd sa s
  | .ptest g nr mode spd pa => Sys2Proof.Machine.execPtest g nr mode spd pa s
  | .vfadd g nr ix ty rnd sat vd va vb => Sys2Proof.Machine.execVfadd g nr ix ty rnd sat vd va vb s
  | .vfsub g nr ix ty rnd sat vd va vb => Sys2Proof.Machine.execVfsub g nr ix ty rnd sat vd va vb s
  | .vfmul g nr ix ty rnd sat vd va vb => Sys2Proof.Machine.execVfmul g nr ix ty rnd sat vd va vb s
  | .vfma g nr ix ty rnd sat vd va vb vc => Sys2Proof.Machine.execVfma g nr ix ty rnd sat vd va vb vc s
  | .vfmin g nr ty vd va b => Sys2Proof.Machine.execVfmin g nr ty vd va b s
  | .vfmax g nr ty vd va b => Sys2Proof.Machine.execVfmax g nr ty vd va b s
  | .vfabs g nr ty vd va => Sys2Proof.Machine.execVfabs g nr ty vd va s
  | .vfneg g nr ty vd va => Sys2Proof.Machine.execVfneg g nr ty vd va s
  | .vfcmp g nr c pd va b => Sys2Proof.Machine.execVfcmp g nr c pd va b s
  | .vfrcp g nr ix rnd sat vd va => Sys2Proof.Machine.execVfrcp g nr ix rnd sat vd va s
  | .vfrsq g nr ix rnd sat vd va => Sys2Proof.Machine.execVfrsq g nr ix rnd sat vd va s
  | .vfsqrt g nr ix rnd sat vd va => Sys2Proof.Machine.execVfsqrt g nr ix rnd sat vd va s
  | .vfdiv g nr ix rnd sat vd va vb => Sys2Proof.Machine.execVfdiv g nr ix rnd sat vd va vb s
  | .vfexp2 g nr ix rnd sat vd va => Sys2Proof.Machine.execVfexp2 g nr ix rnd sat vd va s
  | .vflog2 g nr ix rnd sat vd va => Sys2Proof.Machine.execVflog2 g nr ix rnd sat vd va s
  | .vfscl g nr ix rnd sat vd va vb => Sys2Proof.Machine.execVfscl g nr ix rnd sat vd va vb s
  | .vfexpo g nr vd va => Sys2Proof.Machine.execVfexpo g nr vd va s
  | .vfclass g nr ty vd va => Sys2Proof.Machine.execVfclass g nr ty vd va s
  | .vcvt g nr ix src dst rnd sat vd va => Sys2Proof.Machine.execVcvt g nr ix src dst rnd sat vd va s
  | .vpack2 g nr ty rnd sat vd va vb => Sys2Proof.Machine.execVpack2 g nr ty rnd sat vd va vb s
  | .vunpack2 g nr ty vd va => Sys2Proof.Machine.execVunpack2 g nr ty vd va s
  | .vpack4 g nr ty rnd sat vd va => Sys2Proof.Machine.execVpack4 g nr ty rnd sat vd va s
  | .vunpack4 g nr ty vd va => Sys2Proof.Machine.execVunpack4 g nr ty vd va s
  | .vqpack g nr rnd vd va => Sys2Proof.Machine.execVqpack g nr rnd vd va s
  | .vqunpk g nr vd va => Sys2Proof.Machine.execVqunpk g nr vd va s
  | .vdot2 g nr ty rnd sat vd va vb vc => Sys2Proof.Machine.execVdot2 g nr ty rnd sat vd va vb vc s
  | .vdot4 g nr ty rnd sat vd va vb vc => Sys2Proof.Machine.execVdot4 g nr ty rnd sat vd va vb vc s
  | .vld g ms sz o data base vo off => Sys2Proof.Machine.execVld g ms sz o data base vo off s
  | .vst g ms sz o data base vo off => Sys2Proof.Machine.execVst g ms sz o data base vo off s
  | .vldc g nr ms sz data base vo off => Sys2Proof.Machine.execVldc g nr ms sz data base vo off s
  | .sld g ms sz o sd base off => Sys2Proof.Machine.execSld g ms sz o sd base off s
  | .sst g ms sz o sd base off => Sys2Proof.Machine.execSst g ms sz o sd base off s
  | .vatom g fn fetch ms b64 o data base vo off => Sys2Proof.Machine.execVatom g fn fetch ms b64 o data base vo off s
  | .satom g fn fetch ms b64 o sd base off => Sys2Proof.Machine.execSatom g fn fetch ms b64 o sd base off s
  | .spushv g data n => Sys2Proof.Machine.execSpushv g data n s
  | .spopv g data n => Sys2Proof.Machine.execSpopv g data n s
  | .fence g o sc => Sys2Proof.Machine.execFence g o sc s
  | .waitw g acq ms b64 base sv sc st spd off => Sys2Proof.Machine.execWaitw g acq ms b64 base sv sc st spd off s
  | .bar g => Sys2Proof.Machine.execBar g s
  | .bara g => Sys2Proof.Machine.execBara g s
  | .barw g => Sys2Proof.Machine.execBarw g s
  | .cbinit g cl base qa qk off => Sys2Proof.Machine.execCbinit g cl base qa qk off s
  | .cbexpect g arrive scp cl base cnt off => Sys2Proof.Machine.execCbexpect g arrive scp cl base cnt off s
  | .cbarrive g ack scp cl base tok off => Sys2Proof.Machine.execCbarrive g ack scp cl base tok off s
  | .cbwait g scp cl base tok off => Sys2Proof.Machine.execCbwait g scp cl base tok off s
  | .cbtest g scp cl spd sf base tok off => Sys2Proof.Machine.execCbtest g scp cl spd sf base tok off s
  | .rlock g ms base len hd off => Sys2Proof.Machine.execRlock g ms base len hd off s
  | .runlock g hd => Sys2Proof.Machine.execRunlock g hd s
  | .cpy g dsp ssp scp sd dA sA lA cb flag => Sys2Proof.Machine.execCpy g dsp ssp scp sd dA sA lA cb flag s
  | .cpyt g scatter box scp sd xA tA cA cb flag => Sys2Proof.Machine.execCpyt g scatter box scp sd xA tA cA cb flag s
  | .cpym g ssp sd fA sA lA aA mask => Sys2Proof.Machine.execCpym g ssp sd fA sA lA aA mask s
  | .cpytest g spd sa => Sys2Proof.Machine.execCpytest g spd sa s
  | .macq g sd n => Sys2Proof.Machine.execMacq g sd n s
  | .macqTeam g sd n sm => Sys2Proof.Machine.execMacqTeam g sd n sm s
  | .mrel g => Sys2Proof.Machine.execMrel g s
  | .mgrow g sd n => Sys2Proof.Machine.execMgrow g sd n s
  | .mzero g sd k => Sys2Proof.Machine.execMzero g sd k s
  | .mloop g fa fb part sd aA iA xA yA vb step k => Sys2Proof.Machine.execMloop g fa fb part sd aA iA xA yA vb step k s
  | .msacc g sd pA qA nA k => Sys2Proof.Machine.execMsacc g sd pA qA nA k s
  | .mldacc g ty sd aA rA k => Sys2Proof.Machine.execMldacc g ty sd aA rA k s
  | .mstacc g ty rnd sat sd aA rA k => Sys2Proof.Machine.execMstacc g ty rnd sat sd aA rA k s
  | .tsend g sd tA lA bA c => Sys2Proof.Machine.execTsend g sd tA lA bA c s
  | .trecv g sd tA lA bA c => Sys2Proof.Machine.execTrecv g sd tA lA bA c s
  | .nself g sd => Sys2Proof.Machine.execNself g sd s
  | .nwake g sd sa => Sys2Proof.Machine.execNwake g sd sa s
  | .nsignal g sd sa sb => Sys2Proof.Machine.execNsignal g sd sa sb s
  | .nsignalKill g sd sa => Sys2Proof.Machine.execNsignalKill g sd sa s
  | .ndeposit g sd sa sb k => Sys2Proof.Machine.execNdeposit g sd sa sb k s
  | .njoin g reap sd sa t => Sys2Proof.Machine.execNjoin g reap sd sa t s
  | .npark g sd t => Sys2Proof.Machine.execNpark g sd t s
  | .nstat g sd sa => Sys2Proof.Machine.execNstat g sd sa s
  | .tspawn g tag base vo off => Sys2Proof.Machine.execTspawn g tag base vo off s
  | .tpost g pkg sa => Sys2Proof.Machine.execTpost g pkg sa s
  | .tdone g => Sys2Proof.Machine.execTdone g s
  | .rgacq g try1 scp ms sd sa => Sys2Proof.Machine.execRgacq g try1 scp ms sd sa s
  | .rgcommit g scp ms sd sa sb => Sys2Proof.Machine.execRgcommit g scp ms sd sa sb s
  | .rgpeek g try1 scp ms sd sa => Sys2Proof.Machine.execRgpeek g try1 scp ms sd sa s
  | .rgrel g scp ms sd sa sb => Sys2Proof.Machine.execRgrel g scp ms sd sa sb s
  | .wdnext g sa => Sys2Proof.Machine.execWdnext g sa s
  | .launch g sd sa => Sys2Proof.Machine.execLaunch g sd sa s
  | .trap g code => Sys2Proof.Machine.execTrap g code s
  | .xret g => Sys2Proof.Machine.execXret g s
  | .sysrd g sd n => Sys2Proof.Machine.execSysrd g sd n s
  | .syswr g n sa => Sys2Proof.Machine.execSyswr g n sa s
  | .syswrXlflush g sa => Sys2Proof.Machine.execSyswrXlflush g sa s
  | .syswrScrridx g sa => Sys2Proof.Machine.execSyswrScrridx g sa s
  | .bkpt g code => Sys2Proof.Machine.execBkpt g code s
  | .logmark g sa => Sys2Proof.Machine.execLogmark g sa s
  | .evpost g sd nA aA lA code => Sys2Proof.Machine.execEvpost g sd nA aA lA code s
  | .fretry g sd sa => Sys2Proof.Machine.execFretry g sd sa s
  | .fretryExhaust g sd sa => Sys2Proof.Machine.execFretryExhaust g sd sa s
  | .fretryFatal g sd sa => Sys2Proof.Machine.execFretryFatal g sd sa s
  | .strokeReformation => Sys2Proof.Machine.execStrokeReformation s
  | .groupUrgent gid => Sys2Proof.Machine.execGroupUrgent gid s
  | .meetRelease gid => Sys2Proof.Machine.execMeetRelease gid s
  | .waitwWake gid fibre => Sys2Proof.Machine.execWaitwWake gid fibre s
  | .waitwTimeout gid fibre => Sys2Proof.Machine.execWaitwTimeout gid fibre s
  | .sleepExpiry gid => Sys2Proof.Machine.execSleepExpiry gid s
  | .nparkTimeout gid fibre => Sys2Proof.Machine.execNparkTimeout gid fibre s
  | .njoinTimeout gid fibre => Sys2Proof.Machine.execNjoinTimeout gid fibre s
  | .copyPiece op piece => Sys2Proof.Machine.execCopyPiece op piece s
  | .faultQueuePost die slot => Sys2Proof.Machine.execFaultQueuePost die slot s
  | .layoutRecordRead op => Sys2Proof.Machine.execLayoutRecordRead op s
  | .copyAck op member => Sys2Proof.Machine.execCopyAck op member s
  | .copyCompletion op => Sys2Proof.Machine.execCopyCompletion op s
  | .transferPiece op piece => Sys2Proof.Machine.execTransferPiece op piece s
  | .transferCompletion op => Sys2Proof.Machine.execTransferCompletion op s
  | .macqQueueGrant core => Sys2Proof.Machine.execMacqQueueGrant core s
  | .mrelRelease core holder => Sys2Proof.Machine.execMrelRelease core holder s
  | .matrixLoopStart op => Sys2Proof.Machine.execMatrixLoopStart op s
  | .matrixLoopWaitExpiry op => Sys2Proof.Machine.execMatrixLoopWaitExpiry op s
  | .matrixBudgetRefill island => Sys2Proof.Machine.execMatrixBudgetRefill island s
  | .matrixOpCompletion op => Sys2Proof.Machine.execMatrixOpCompletion op s
  | .deliverWake op => Sys2Proof.Machine.execDeliverWake op s
  | .deliverSignal op => Sys2Proof.Machine.execDeliverSignal op s
  | .deliverDeposit op => Sys2Proof.Machine.execDeliverDeposit op s
  | .deliverKill op => Sys2Proof.Machine.execDeliverKill op s
  | .deliverJoin op => Sys2Proof.Machine.execDeliverJoin op s
  | .deliverStat op => Sys2Proof.Machine.execDeliverStat op s
  | .launchAcceptance req indices => Sys2Proof.Machine.execLaunchAcceptance req indices s
  | .clusterAdmission ctx launch cluster hw binds => Sys2Proof.Machine.execClusterAdmission ctx launch cluster hw binds s
  | .admissionWaitExpiry => Sys2Proof.Machine.execAdmissionWaitExpiry s
  | .preemptStop cid => Sys2Proof.Machine.execPreemptStop cid s
  | .cohortSave coh => Sys2Proof.Machine.execCohortSave coh s
  | .registerWriteback gid reg => Sys2Proof.Machine.execRegisterWriteback gid reg s
  | .groupWritebackComplete gid => Sys2Proof.Machine.execGroupWritebackComplete gid s
  | .imageSwapOut gid => Sys2Proof.Machine.execImageSwapOut gid s
  | .imageSwapIn gid => Sys2Proof.Machine.execImageSwapIn gid s
  | .groupEndFinalise gid => Sys2Proof.Machine.execGroupEndFinalise gid s
  | .wdAnswer req => Sys2Proof.Machine.execWdAnswer req s
  | .taskDispatch die tasks index => Sys2Proof.Machine.execTaskDispatch die tasks index s
  | .svcReadBlocks post status done data => Sys2Proof.Machine.execSvcReadBlocks post status done data s
  | .svcWriteBlocks post status done => Sys2Proof.Machine.execSvcWriteBlocks post status done s
  | .svcFlush post status => Sys2Proof.Machine.execSvcFlush post status s
  | .svcSendFrame post status done => Sys2Proof.Machine.execSvcSendFrame post status done s
  | .svcPostReceive post status data => Sys2Proof.Machine.execSvcPostReceive post status data s
  | .contextFatalFault ctx cause addr thread => Sys2Proof.Machine.execContextFatalFault ctx cause addr thread s
  | .watchdogExpiry gid => Sys2Proof.Machine.execWatchdogExpiry gid s
  | .replayWaitTimeout ctx cls src => Sys2Proof.Machine.execReplayWaitTimeout ctx cls src s
  | .remoteTimeout ctx => Sys2Proof.Machine.execRemoteTimeout ctx s
  | .counterFlush ctx core => Sys2Proof.Machine.execCounterFlush ctx core s
  | .tracePost ctx core visited times => Sys2Proof.Machine.execTracePost ctx core visited times s
  | .packageReset rootcplx image stacksOk pkg found => Sys2Proof.Machine.execPackageReset rootcplx image stacksOk pkg found s
  | .governorTick island power temp => Sys2Proof.Machine.execGovernorTick island power temp s
  | .criticalTemperature j => Sys2Proof.Machine.execCriticalTemperature j s
  | .hostOpen c num args => Sys2Proof.Machine.execHostOpen c num args s
  | .hostClose c => Sys2Proof.Machine.execHostClose c s
  | .hostCloseKill c => Sys2Proof.Machine.execHostCloseKill c s
  | .hostMap c pkg die size seq => Sys2Proof.Machine.execHostMap c pkg die size seq s
  | .hostWrite c ms addr data => Sys2Proof.Machine.execHostWrite c ms addr data s
  | .hostRead c ms addr len => Sys2Proof.Machine.execHostRead c ms addr len s
  | .hostLaunch c record => Sys2Proof.Machine.execHostLaunch c record s
  | .hostServiceLaunch c record => Sys2Proof.Machine.execHostServiceLaunch c record s
  | .nameWake c target => Sys2Proof.Machine.execNameWake c target s
  | .nameSignal c target bits => Sys2Proof.Machine.execNameSignal c target bits s
  | .nameSignalKill c target => Sys2Proof.Machine.execNameSignalKill c target s
  | .nameDeposit c target k value => Sys2Proof.Machine.execNameDeposit c target k value s
  | .nameJoin c target reap timeout => Sys2Proof.Machine.execNameJoin c target reap timeout s
  | .nameGrant c target mask grantee index => Sys2Proof.Machine.execNameGrant c target mask grantee index s
  | .nameExit c target exit killed => Sys2Proof.Machine.execNameExit c target exit killed s
  | .connect c pkg reg peer => Sys2Proof.Machine.execConnect c pkg reg peer s
  | .scrollCtl c pkg args => Sys2Proof.Machine.execScrollCtl c pkg args s
  | .scrollCtlKill c pkg => Sys2Proof.Machine.execScrollCtlKill c pkg s
  | .scrollCtlContinue c pkg => Sys2Proof.Machine.execScrollCtlContinue c pkg s
  | .eventRead c max => Sys2Proof.Machine.execEventRead c max s
  | .dumpRead c off len => Sys2Proof.Machine.execDumpRead c off len s
  | .softErrorCorrected core => Sys2Proof.Machine.execSoftErrorCorrected core s
  | .unassignedOpcode c => Sys2Proof.Machine.execUnassignedOpcode c s
  | .badcallMessage bytes => Sys2Proof.Machine.execBadcallMessage bytes s

end Sys2Proof.Machine
end

