-- ==== Sys2Proof/Machine/Issue.lean ====
section
/-! DEFINITION. Issue (R34 to R37, R78, R84, R101, R148, R344, R346, R395): the fetch of a stroke's next instruction, what
keeps it from issuing, the choice of each scheduler, and the issues that a replay takes from its records. -/

namespace Sys2Proof

/-- The indexed-operand field of an instruction (R62). -/
def Instr.ix : Instr → Ix
  | .vmov _ _ ix _ _ _ => ix | .vmovi _ _ ix _ _ _ => ix | .vmad _ _ ix _ _ _ _ _ _ => ix | .vsel _ _ ix _ _ _ _ => ix
  | .vbfx _ _ ix _ _ _ _ _ => ix | .vbfi _ _ ix _ _ _ _ => ix | .vfadd _ _ ix _ _ _ _ _ _ => ix
  | .vfsub _ _ ix _ _ _ _ _ _ => ix | .vfmul _ _ ix _ _ _ _ _ _ => ix | .vfma _ _ ix _ _ _ _ _ _ _ => ix
  | .vfrcp _ _ ix _ _ _ _ => ix | .vfrsq _ _ ix _ _ _ _ => ix | .vfsqrt _ _ ix _ _ _ _ => ix
  | .vfdiv _ _ ix _ _ _ _ _ => ix | .vfexp2 _ _ ix _ _ _ _ => ix | .vflog2 _ _ ix _ _ _ _ => ix
  | .vfscl _ _ ix _ _ _ _ _ => ix | .vcvt _ _ ix _ _ _ _ _ _ => ix
  | _ => 0

namespace Machine
namespace State

/-! ## Fetch (R84, R86, R148) -/

/-- What a fetch at a program counter gives. -/
inductive Fetched where
  | fault
  | cause (c : DecodeCause)
  | instr (i : Instr)
  deriving DecidableEq, Repr

/-- Fetches the 32-byte block of a program counter and decodes the instruction in it; a walk that fails is
TRANSLATION_FATAL (R164). A running group may execute the old or the new contents of a block that has changed (R86): the
model always executes the newest (log 49). -/
def fetch (s : State) (ctx pkg : Nat) (pc : Word64) : Fetched :=
  match s.walk ctx pkg .fetch (pc.toNat / 32 * 32) with
  | .ok pa =>
    match decodeAt (s.readPage ctx pa 32) (pc.toNat % 32) with
    | .ok (i, _) => .instr i
    | .error c => .cause c
  | _ => .fault

/-! ## The scoreboard (R78) -/

/-- The vector registers that a write may reach, indexed destinations by the register of each active fibre. -/
def writtenRegs (g : Group) (i : Instr) (a : BitVec 32) : List (Nat × Nat) :=
  if ixDest i.ix then
    (i.regs.vw.take 1).flatMap fun r => (lanesOf a).map fun f => ((g.indexed i.ix r.1 f).toNat, 1)
  else i.regs.vw

/-- An instruction names a register that waits for a write, or writes one that an engine holds as a source. -/
def waitsFor (g : Group) (i : Instr) (a : BitVec 32) : Bool :=
  (i.regs.sr ++ i.regs.sw).any (fun r => (g.pending.get? r.toNat).isSome)
    || (writtenRegs g i a).any fun w => g.held.any fun h => decide (w.1 < h.first + h.count) && decide (h.first < w.1 + w.2)

/-! ## Program-counter breakpoints (R395) -/

/-- One entry of a breakpoint table matches fibre `f` at a program counter. -/
def entryMatches (s : State) (g : Group) (pc : Word64) (f : Nat) (b : List Byte) : Bool :=
  let id := s.thread g f
  bitAt (num b 24 1) 0 && num b 0 8 % 4 == 0 && num b 0 8 == pc.toNat
    && (id ^^^ BitVec.ofNat 64 (num b 8 8)) &&& BitVec.ofNat 64 (num b 16 8) == 0

/-- The fibres of a stroke that a breakpoint stops: in user mode, and not on their first issue after XRET with BPSKIP. -/
def breakMask (s : State) (u : Issue) (g : Group) : BitVec 32 :=
  match (s.launchOf g).bind (·.debugOpts.breaks) with
  | none => 0
  | some (va, n) =>
    if s.debugPages g.ctx (pkgOf g.core) va (32 * n) then
      match s.vmRead g.ctx (pkgOf g.core) .copyRead va (32 * n) with
      | .ok b =>
        maskOf fun f => u.mask.getLsbD f && !(g.fibre f).priv && !(g.fibre f).skipBp
          && (List.range n).any fun k => s.entryMatches g u.pc f (slice b (32 * k) 32)
      | .fail _ _ => 0
    else 0

/-- A table that cannot be read disables the launch's breakpoints (R393). -/
def dropBreaks (s : State) (g : Group) : State :=
  match (s.launchOf g).bind (·.debugOpts.breaks) with
  | none => s
  | some (va, n) =>
    if s.debugPages g.ctx (pkgOf g.core) va (32 * n) then s
    else s.modLaunch g.launch fun l => { l with debugOpts := { l.debugOpts with breaks := none } }

/-! ## What an issue changes beside the instruction -/

/-- The scheduler of a group, counted through the domain. -/
def schedOf (g : Group) : Nat := g.core * 4 + g.sched

/-- The issue of a stroke: its scheduler has issued in this cycle, its fibres' first issue after XRET is over, its group is
not stalled (R363), and the counts of R394 and the runs of R341 and R346 take it in. -/
def prepare (s : State) (u : Issue) (g : Group) : State :=
  let t := (s.dropBreaks g).modGroup u.gid fun g =>
    let h := g.onFibres u.mask fun x => { x with skipBp := false }
    { h with lastIssue := s.cycle, urgent := false, readyFrom := 0, stallFrom := 0 }
  let t := (t.count g.core g.launch .issued 1).modContext g.ctx fun c => { c with issued := c.issued + 1 }
  { t.countRun g u with served := schedOf g + 1, issuing := some u }

/-! ## One attempt to issue -/

/-- The instruction turned out to wait for a unit: its stroke is parked with the engine-wait reason and stands in no
queue (R78). -/
def waitsUnit (t : State) (u : Issue) : Bool :=
  match t.group? u.gid with
  | none => false
  | some g => (g.fibre (lowest u.mask)).wait == .engine && u.mask &&& t.queuedMask u.gid g == 0

/-- The stroke parks with the scroll-full reason (R344). -/
def parkScroll (s : State) (u : Issue) : State :=
  s.modGroup u.gid fun g => (g.park u.mask .scrollFull 0 0 none).asStroke u.mask

/-- Some package replays records of the context. -/
def replaying (s : State) (ctx : Nat) : Bool :=
  match s.context? ctx with | some c => c.sites.any fun p => p.2.scroll.mode == 2 | none => false

/-- Runs one meaning, unless it has to wait: for a unit, for the slots of all its records or in REPLAY for its record; such a wait is
no issue. An issue that meets another record than its own freezes the context (R348). -/
def tryRun (f : State → Out) (s : State) (u : Issue) (g : Group) : Option Out :=
  match f (s.prepare u g) with
  | .next t => (s.settled t).map fun r => .next (if r.waitsUnit u then s.parkEngine u else r)
  | o => some o

/-- The same for some fibres of a stroke; the others park with the scroll-full reason (R344). -/
def tryPart (f : State → Out) (s : State) (u : Issue) (m : BitVec 32) : Option Out :=
  let rest := u.mask &&& ~~~m
  let t := s.modGroup u.gid fun g => ((g.asStroke m).park rest .scrollFull 0 0 none).asStroke rest
  (t.group? u.gid).bind fun g => tryRun f t { u with mask := m } g

/-- The fibres of a stroke that issue a VATOM when only some of its lanes find slots: all but the highest active ones, as many of
them as can (R344; log 16). -/
def shorter (i : Instr) (u : Issue) (g : Group) : List (BitVec 32) :=
  match i with
  | .vatom .. =>
    let act := lanesOf (g.active u.mask i.guard &&& ~~~g.helpers)
    ((List.range act.length).reverse.map fun j => u.mask &&& ~~~(maskOf fun f => (act.drop j).contains f)).filter (· != 0)
  | _ => []

/-- Runs one meaning; in RECORD the fibres without slots for their records park with the scroll-full reason (R344). -/
def run (i : Option Instr) (f : State → Out) (s : State) (u : Issue) (g : Group) : Option Out :=
  match tryRun f s u g with
  | some o => some o
  | none =>
    if s.replaying g.ctx then none
    else match (i.elim [] fun i => shorter i u g).findSome? (tryPart f s u) with
      | some o => some o
      | none => some (.next (s.parkScroll u))

/-- An instruction that has been fetched: the words of R101 first, then the scoreboard. A stroke with no active fibre waits
on nothing (R89). -/
def issueInstr (i : Instr) (s : State) (u : Issue) (g : Group) : Option Out :=
  let a := g.active u.mask i.guard
  if a = 0 ∨ !i.inBudget g.budget then run none (exec i) s u g
  else if waitsFor g i a then some (.next (s.parkEngine u (some i)))
  else run (some i) (exec i) s u g

/-- Fibres of a stroke meet a breakpoint (R395): they trap and nothing issues. The handler's stroke begins a run of its own
(log 39); in REPLAY a match where the records ask for an issue is a divergence (R396). -/
def breakTrap (s : State) (u : Issue) (g : Group) (b : BitVec 32) : Option Out :=
  let pkg := pkgOf g.core
  if s.replays g.ctx pkg then
    (s.nextSched g.ctx pkg (65536 + schedSource g)).map fun r => .next (s.diverge g.ctx pkg r.1 (65536 + schedSource g))
  else
    let t := if s.continuesRun g u then s.closeRun g.ctx pkg (schedSource g) else s
    (s.settled (t.trap u b 0x41 u.pc)).map .next

/-- A stroke tries to issue at its program counter: nothing when it is not ready. While the scroll is full no new run
begins (R344); breakpoints come before decode (R395). -/
def attempt (s : State) (u : Issue) (g : Group) : Option Out :=
  let x := s.scroll g.ctx (pkgOf g.core)
  if x.mode == 1 && x.full && !s.continuesRun g u then none
  else
    let b := s.breakMask u g
    if b ≠ 0 then s.breakTrap u g b
    else
      match s.fetch g.ctx (pkgOf g.core) u.pc with
      | .fault => some (.next (s.contextFatal g.ctx 0x81 u.pc (s.strokeThread g u.mask)))
      | .cause c => run none (execUnassignedOpcode c) s u g
      | .instr i => s.issueInstr i u g

/-! ## The choice of a scheduler (R35) -/

/-- A stroke that a scheduler may issue. -/
structure Choice where
  gid  : Nat
  g    : Group
  mask : BitVec 32
  deriving DecidableEq, Repr

def Choice.issue (c : Choice) : Issue := { gid := c.gid, mask := c.mask, pc := (c.g.fibre (lowest c.mask)).pc }

/-- A group is urgent once one of its strokes has stayed ready for 224 cycles since the group last issued (R35), whether or
not the mark of that moment has been made. -/
def urgentNow (s : State) (g : Group) : Bool :=
  g.urgent || (g.readyFrom != 0 && decide (g.readyFrom - 1 + Config.urgentCycles ≤ s.cycle))

/-- The order of R35 as a list of numbers, smaller first. Of urgent groups the one that issued least lately has waited
longest; a hint favours the strokes that hold only fibres of the side that it named (DESIGN CHOICE, log 48). -/
def rank (s : State) (c : Choice) : List Nat :=
  let prio := match s.launchOf c.g with | some l => l.prio | none => 0
  let favoured := match c.g.favour with | some m => c.mask &&& ~~~m == 0 | none => false
  [if s.urgentNow c.g then 0 else 1, if s.urgentNow c.g then c.g.lastIssue else 0, 7 - prio, c.g.age, c.g.slot, c.gid,
    if favoured then 0 else 1, lowest c.mask]

/-- The strokes of a group may issue: it is resident, its context is not frozen, and since a restore they have re-formed,
which those of a replay do not (R346, R405; log 48). -/
def mayIssue (s : State) (g : Group) : Bool :=
  g.phase == .resident && !s.frozen g.ctx && (!g.fresh || s.replays g.ctx (pkgOf g.core))

/-- The groups that issue from a scheduler. -/
def groupsOn (s : State) (k : Nat) : List (Nat × Group) :=
  s.groups.filter fun e => schedOf e.2 == k && s.mayIssue e.2

/-! ## Issues of a replay (R346) -/

/-- Every fibre of a set runs and stands where the first does, and for the first issue of a run at its program counter. -/
def stands (g : Group) (m : BitVec 32) (pc : Option Word64) : Bool :=
  let x := g.fibre (lowest m)
  m != 0 && m &&& ~~~g.running == 0 && (lanesOf m).all (fun f => Group.together (g.fibre f) x)
    && (match pc with | some p => x.pc == p | none => true)

/-- The stroke that the records of a scheduler ask for next. -/
def replayChoice (s : State) (e : Nat × Group) : Option Choice :=
  let pkg := pkgOf e.2.core
  let source := 65536 + schedSource e.2
  match s.nextSched e.2.ctx pkg source with
  | none => none
  | some (_, r) =>
    let done := s.runDone e.2.ctx pkg source
    if s.namedBy r e.2 && decide (done < schedLen r) && stands e.2 (schedMask r) (if done = 0 then some r.operand else none) then
      some { gid := e.1, g := e.2, mask := schedMask r }
    else none

/-- The fibres of a replayed stroke form one stroke, and those that they leave behind another (R346). -/
def separate (g : Group) (m : BitVec 32) : Group :=
  let split := fun (h : Group) f =>
    let rest := h.fibresWhere fun x => x.stroke == (g.fibre f).stroke
    h.asStroke (rest &&& ~~~m)
  ((lanesOf m).foldl split g).asStroke m

/-- The strokes that a scheduler may issue, in the order of R35; for a context in REPLAY the one that its records ask
for. -/
def choices (s : State) (k : Nat) : List Choice :=
  sortBy (fun a b => lexLe (s.rank a) (s.rank b)) ((s.groupsOn k).flatMap fun e =>
    if s.replays e.2.ctx (pkgOf e.2.core) then (s.replayChoice e).toList
    else e.2.strokes.map fun m => { gid := e.1, g := e.2, mask := m })

/-- One choice tries to issue; in REPLAY its fibres form one stroke first. -/
def tryIssue (s : State) (c : Choice) : Option Out :=
  let t := if s.replays c.g.ctx (pkgOf c.g.core) then s.modGroup c.gid fun g => separate g c.mask else s
  match t.group? c.gid with
  | none => none
  | some g => t.attempt c.issue g

/-- The schedulers that have not issued in this cycle, in rising order. -/
def schedulersLeft (s : State) : List Nat :=
  sortBy (fun a b => decide (a ≤ b))
    (((s.groups.filter fun e => e.2.phase == .resident).map fun e => schedOf e.2).eraseDups.filter fun k => decide (s.served ≤ k))

/-- The next issue of this cycle: the first scheduler with a ready stroke issues the best of its ready strokes. -/
def nextIssue (s : State) : Option Out :=
  s.schedulersLeft.findSome? fun k => (s.choices k).findSome? s.tryIssue

end State
end Machine
end Sys2Proof
end

