-- ==== Sys2Proof/Machine/Schedule.lean ====
section
/-! DEFINITION. What the machine does by itself between issues: the events that are due, the retries of parked ring steps, the
bookkeeping of a replay, and the end of a cycle; and what holds an input back (log 3, log 17). -/

namespace Sys2Proof.Machine
namespace State

/-! ## Events of work in flight -/

/-- The pieces of a transfer that are still to be moved. -/
def xferLeft (x : XferOp) : List Nat := (List.range (xferPieces x)).filter fun k => !x.done.contains k

/-- The entries that an accepted record takes, lowest first. -/
def defaultIndices (s : State) (op : Op) (l : LaunchOp) : List Nat :=
  match s.checkRecord op.ctx l.pkg l.record with
  | .ok (b, _) => (s.freeEntries op.ctx).take (recGroups b * recCohorts b)
  | .error _ => []

/-- What one piece of work may do next. -/
def opMoves (s : State) (o : Nat) (op : Op) : List (State → Out) :=
  match op.work with
  | .copy c =>
    [execLayoutRecordRead o] ++ (((c.pieces.filter fun k => s.pieceReady o k c) ++ c.uncounted).map fun k => execCopyPiece o k)
      ++ (match c.kind with | .fanout rs _ => (List.range rs.length).map fun r => execCopyAck o r | _ => [])
      ++ [execCopyCompletion o]
  | .matrix _ => [execMatrixLoopStart o, execMatrixLoopWaitExpiry o, execMatrixOpCompletion o]
  | .xfer x => (xferLeft x ++ x.uncounted).map (fun k => execTransferPiece o k) ++ [execTransferCompletion o]
  | .name n =>
    [match n.act with
      | .wake => execDeliverWake o | .signal _ => execDeliverSignal o | .deposit _ _ => execDeliverDeposit o
      | .kill => execDeliverKill o | .join _ _ => execDeliverJoin o | .stat => execDeliverStat o]
  | .launch l => [execLaunchAcceptance o (s.defaultIndices op l)]
  | .tile _ => [execWdAnswer o]
  | .post _ => []
  | .access _ => []

/-! ## Events of groups -/

/-- What a group's waits may do next. -/
def waitMoves (gid : Nat) (g : Group) : List (State → Out) :=
  let each := fun (w : Wait) (e : Nat → State → Out) => (g.waiting w).map fun m => e (lowest m)
  (if g.parkedFor .meet = 0 then [] else [execMeetRelease gid])
    ++ each .waitw (execWaitwWake gid) ++ each .waitw (execWaitwTimeout gid)
    ++ (if g.parkedFor .sleep = 0 then [] else [execSleepExpiry gid])
    ++ each .npark (execNparkTimeout gid) ++ each .njoin (execNjoinTimeout gid)

/-- A stroke that waits for a register goes on once the scoreboard releases the registers of its instruction, and one that
waits for a unit once its issue would not wait for it (R29, R78). -/
def engineRelease (gid : Nat) (m : BitVec 32) (s : State) : State :=
  match s.group? gid with
  | none => s
  | some g =>
    let t := s.modGroup gid fun g => g.unpark m
    let u : Issue := { gid := gid, mask := m, pc := (g.fibre (lowest m)).pc }
    if !s.mayIssue g || m &&& s.queuedMask gid g != 0 then s
    else
      match (g.fibre (lowest m)).instr with
      | some i => if waitsFor g i (g.active m i.guard) then s else t
      | none =>
        match t.attempt u (g.unpark m) with
        | some (.next r) => if r.waitsUnit u then s else t
        | _ => t

def engineMoves (gid : Nat) (g : Group) : List (State → Out) :=
  (g.waiting .engine).map fun m => fun s => Host.Outcome.next (engineRelease gid m s)

/-- What a group's phase may do next. -/
def phaseMoves (s : State) (gid : Nat) (g : Group) : List (State → Out) :=
  match g.phase with
  | .stopping => ((g.map.filter fun m => m.2.dirty).map fun m => execRegisterWriteback gid m.1) ++ [execGroupWritebackComplete gid]
  | .swapped => if s.clusters.any (fun k => k.2.state == .stopped && k.2.elig) then [execImageSwapIn gid] else []
  | .ending => [execGroupEndFinalise gid]
  | _ => []

def groupMoves (s : State) (gid : Nat) (g : Group) : List (State → Out) :=
  waitMoves gid g ++ engineMoves gid g ++ s.phaseMoves gid g
    ++ (if g.readyFrom != 0 && !g.urgent then [execGroupUrgent gid] else [])
    ++ (if g.stallFrom = 0 then [] else [execWatchdogExpiry gid])

/-! ## Events of clusters -/

/-- A placement for each group of a cluster on a hardware cluster: the scheduler with the fewest groups, and the lowest free
slot. -/
def defaultBinds (s : State) (hw : Nat) (k : Cluster) : List Nat :=
  let here := (s.groups.filter fun g => onCore g.2 g.2.core).map fun g => (g.2.core, g.2.sched, g.2.slot)
  ((s.placesOf hw k []).foldl (fun (acc : List (Nat × Nat × Nat) × List Nat) p =>
    let mine := acc.1.filter fun x => x.1 == p.core
    let load := fun j => (mine.filter fun x => x.2.1 == j).length
    let sched := ((sortBy (fun a b => decide (load a ≤ load b)) [0, 1, 2, 3]).head?).getD 0
    let slot := ((List.range 64).find? fun i => mine.all fun x => x.2.2 != i).getD 0
    (acc.1 ++ [(p.core, sched, slot)], acc.2 ++ [64 * sched + slot])) (here, [])).2

/-- The admission that a waiting cluster is offered. -/
def admissionMoves (s : State) (n : Nat) (k : Cluster) : List (State → Out) :=
  let go := fun (hw : Nat) (b : List Nat) (s : State) => Host.Outcome.next (φ := Fault) (ρ := Refusal) (s.takeIn n k hw b)
  if s.replays k.ctx k.pkg then (match s.loggedPlace k with | some (hw, b) => [go hw b] | none => [])
  else ((places k).filter (s.roomAt n k)).map fun hw => go hw (s.defaultBinds hw k)

/-- What the clusters may do next; stops are looked for only while some cluster waits, or in a replay. -/
def clusterMoves (s : State) : List (State → Out) :=
  let waiting := s.clusters.filter fun k => s.waits k.2
  let replaying := s.contexts.any fun c => c.2.sites.any fun p => p.2.scroll.mode == 2
  (if waiting.isEmpty then [] else [execAdmissionWaitExpiry])
    ++ waiting.flatMap (fun k => s.admissionMoves k.1 k.2)
    ++ (if waiting.isEmpty && !replaying then []
        else (s.clusters.filter fun k => k.2.state == .resident).map fun k => execPreemptStop k.1)
    ++ (s.clusters.filter fun k => k.2.state == .stopped).flatMap fun k => k.2.cohorts.map fun c => execCohortSave c

/-! ## Events of dies, cores, islands and contexts -/

/-- The positions of ready tasks of a context that one group may hold, from the first ready one on. -/
def gather (d : Die) (ctx : Nat) : List Nat :=
  match (d.tasks.zipIdx.find? fun e => e.1.ready && e.1.ctx == ctx) with
  | none => []
  | some (t, _) =>
    ((d.tasks.zipIdx.filter fun e => gatherable [t, e.1]).map (·.2)).take 32

/-- The positions of the tasks that the log gathers next on die `n`: those of the next TASK records of one task group, by
their spawn numbers (R347). -/
def loggedGather (s : State) (n : Nat) (d : Die) (ctx : Nat) : List Nat :=
  let same := fun (a b : Entry) => a.kind == 5 && b.kind == 5 && a.subject.toNat / 256 == b.subject.toNat / 256
  match s.sourceRecords ctx (n / 8) (5 * 65536 + n % 8) with
  | [] => []
  | r :: rs =>
    (((r :: rs).takeWhile fun q => same r.2 q.2).mapM fun q =>
      d.tasks.findIdx? fun t => t.ctx == ctx && t.spawn % 2 ^ 32 == field q.2.payload.toNat 0 32).getD []

/-- The dispatches that a die may make, one for each context with tasks in its table. -/
def dispatchMoves (s : State) (n : Nat) (d : Die) : List (State → Out) :=
  ((d.tasks.map (·.ctx)).eraseDups).flatMap fun ctx =>
    match if s.replays ctx (n / 8) then s.loggedGather n d ctx else gather d ctx with
    | [] => []
    | ps => (match (s.freeEntries ctx).head? with | some i => [execTaskDispatch n ps i] | none => [])

def dieMoves (s : State) (n : Nat) (d : Die) : List (State → Out) :=
  ((d.faults.filter fun e => e.2.posted.isNone).map fun e => execFaultQueuePost n e.1) ++ s.dispatchMoves n d

def coreMoves (n : Nat) (k : Core) : List (State → Out) :=
  (if k.queue.isEmpty then [] else [execMacqQueueGrant n])

def holderMoves (s : State) (h : Nat) (x : Holder) : List (State → Out) :=
  if x.closing then [execMrelRelease ((s.cohort? x.cohort).bind (·.core) |>.getD 0) h] else []

/-- A refill of an island whose balance is not full (R294). -/
def islandMoves (i : Nat) (x : Island) : List (State → Out) :=
  if x.balance < (x.units.toNat : Int) then [execMatrixBudgetRefill i] else []

/-- The oldest tagged request of a core completes: what it saw on its way is free (log 10). -/
def traceMove (s : State) (core : Nat) (x : Tagged) : State → Out :=
  let f := s.free
  fun t => execTracePost x.ctx core (f.1.setWidth 8)
    ((List.range 6).map fun i => BitVec.ofNat 16 (f.1.toNat / 2 ^ (8 + 8 * i))) { t with freeTick := s.freeTick + 1 }

/-- Each core adds its counts into the counter blocks every 100 microseconds (R394). -/
def flushMoves (s : State) : List (State → Out) :=
  if s.timebase.toNat % Config.admissionTicks = 0 then
    s.cores.flatMap fun k => if k.2.counts.isEmpty then [] else s.contexts.keys.map fun c => execCounterFlush c k.1
  else []

/-! ## Replays (R345 to R348) -/

def pendingSources (s : State) (ctx pkg : Nat) : List Nat := ((s.pendingAll ctx pkg).map fun r => r.2.source).eraseDups

/-- A run whose issues are all done leaves its record behind, once the source has nothing before it; a fibre of a run that
has ended is a divergence (R346, R348). -/
def runMove (ctx pkg source : Nat) (s : State) : State :=
  if s.frozen ctx then s else
  match s.nextSched ctx pkg source with
  | none => s
  | some (i, r) =>
    if schedLen r ≤ s.runDone ctx pkg source then
      match s.sourceRecords ctx pkg source with
      | (j, _) :: _ =>
        if i = j then (s.consume ctx pkg source (i, r)).modScroll ctx pkg fun x => { x with runs := x.runs.erase source } else s
      | [] => s
    else
      match s.groups.find? fun g => g.2.ctx == ctx && s.namedBy r g.2 with
      | some g => if schedMask r &&& ~~~g.2.live = 0 then s else s.diverge ctx pkg i source
      | none => s

/-- A breakpoint that the recorded run met: the next record of the scheduler asks for the handler's first issue while its
fibres stand, in user mode, where a breakpoint stops them all (R395, R396). -/
def trapMove (ctx pkg source : Nat) (s : State) : State :=
  match s.nextSched ctx pkg source with
  | none => s
  | some (_, r) =>
    match s.groups.find? fun g => g.2.ctx == ctx && s.namedBy r g.2 with
    | none => s
    | some (gid, g) =>
      let m := schedMask r
      let u : Issue := { gid := gid, mask := m, pc := (g.fibre (lowest m)).pc }
      if s.mayIssue g && s.runDone ctx pkg source == 0 && r.operand == s.xvec ctx && stands g m none && u.pc != r.operand
          && s.breakMask u g == m then
        (s.modGroup gid fun g => separate g m).trap u m 0x41 u.pc
      else s

/-- What a replay reads without an event of its own: a slot whose page does not translate ends the context as an image fill
does (R164), and a GAP record is passed over (R345). -/
def scrollMove (ctx pkg : Nat) (s : State) : State :=
  if s.frozen ctx then s else
  match s.badSlot ctx pkg, s.sourceRecords ctx pkg 0 with
  | some va, _ => s.contextFatal ctx 0x82 (BitVec.ofNat 64 va) 0
  | none, r :: _ => if r.2.kind == 11 then s.consume ctx pkg 0 r else s
  | none, [] => s

/-- Every site of every context, by numbers. -/
def sitesOf (s : State) : List (Nat × Nat) := s.contexts.flatMap fun c => c.2.sites.keys.map fun p => (c.1, p)

/-- The sites whose records are being replayed; those of a context that has ended are not (R364). -/
def replaySites (s : State) : List (Nat × Nat) := s.sitesOf.filter fun x => s.replays x.1 x.2 && !s.hasEnded x.1

def replayMoves (s : State) : List (State → Out) :=
  s.replaySites.flatMap fun x =>
    let sources := (s.pendingSources x.1 x.2 ++ (s.scroll x.1 x.2).waits.keys).eraseDups
    (fun t => Host.Outcome.next (scrollMove x.1 x.2 t)) :: sources.flatMap fun source =>
      (if source / 65536 = 1 then
          [fun t => Host.Outcome.next (runMove x.1 x.2 source t), fun t => Host.Outcome.next (trapMove x.1 x.2 source t)]
        else []) ++ [execReplayWaitTimeout x.1 (source / 65536) (source % 65536)]

/-! ## Parked ring steps (R335, R336) -/

/-- The block that a parked RGACQ or RGPEEK waits for still stands as its last step found it (R335). -/
def ringWaits (s : State) (gid : Nat) (m : BitVec 32) : Bool :=
  match s.watches.get? (watchKey gid (lowest m)) with
  | some w => s.readNat (32 * w.sector) 32 == w.seen
  | none => false

/-- A parked RGACQ or RGPEEK tries its step again once its block has changed; it stays parked when the step finds no slot. -/
def ringRetry (gid : Nat) (m : BitVec 32) (s : State) : State :=
  if s.ringWaits gid m then s else
  let s := { s with watches := s.watches.erase (watchKey gid (lowest m)) }
  match s.group? gid with
  | none => s
  | some g =>
    let x := g.fibre (lowest m)
    let u : Issue := { gid := gid, mask := m, pc := x.pc }
    match x.instr with
    | some (.rgacq gd once scp ms sd sa) => s.ringTake u g (.rgacq gd once scp ms sd sa) false once ms.space sd sa
    | some (.rgpeek gd once scp ms sd sa) => s.ringTake u g (.rgpeek gd once scp ms sd sa) true once ms.space sd sa
    | _ => s

def ringMoves (s : State) : List (State → Out) :=
  s.groups.flatMap fun e =>
    if e.2.phase == .resident && !s.frozen e.2.ctx then
      (e.2.waiting .rgacq ++ e.2.waiting .rgpeek).map fun m => fun t => Host.Outcome.next (ringRetry e.1 m t)
    else []

/-! ## The next thing to happen -/

/-- Everything that the machine may do by itself in this state, in one fixed order. -/
def moves (s : State) : List (State → Out) :=
  s.ops.flatMap (fun o => s.opMoves o.1 o.2) ++ s.groups.flatMap (fun g => s.groupMoves g.1 g.2) ++ s.clusterMoves
    ++ s.dies.flatMap (fun d => s.dieMoves d.1 d.2) ++ s.cores.flatMap (fun k => coreMoves k.1 k.2)
    ++ s.holders.flatMap (fun h => s.holderMoves h.1 h.2) ++ s.islands.flatMap (fun i => islandMoves i.1 i.2)
    ++ s.cores.flatMap (fun k => (k.2.tagged.take 1).map fun x => s.traceMove k.1 x)
    ++ s.flushMoves ++ s.ringMoves ++ s.replayMoves

/-- What comes of an act of a unit that leads from `s` to `t`: it takes its place among the held ones, or is performed (R344). -/
def unitAct (s t : State) : Option State :=
  match s.mustWait t with
  | some (c, p, a) => let r := s.noteHeld c p a; if r = s then none else some r
  | none => s.settled t

/-- A move that does something now: nothing before its record or without a slot for it. -/
def due (s : State) (f : State → Out) : Option State :=
  match f s with
  | .next t => if t = s then none else s.unitAct t
  | _ => none

def firstMove (s : State) : Option State := s.moves.findSome? s.due

/-! ## The end of a cycle -/

/-- The scoreboard and the fetch let a stroke issue (R34, R35). -/
def strokeReady (s : State) (u : Issue) (g : Group) : Bool :=
  match s.fetch g.ctx (pkgOf g.core) u.pc with
  | .instr i => g.active u.mask i.guard == 0 || !i.inBudget g.budget || !waitsFor g i (g.active u.mask i.guard)
  | _ => true

def groupReady (s : State) (gid : Nat) (g : Group) : Bool :=
  s.mayIssue g && !s.replays g.ctx (pkgOf g.core)
    && g.strokes.any fun m => s.strokeReady { gid := gid, mask := m, pc := (g.fibre (lowest m)).pc } g

/-- A moment kept as number + 1: set when a condition begins, 0 when it does not hold, and moved along while the scroll is
full, since that time does not count (R344). -/
def since (old now : Nat) (holds full : Bool) : Nat :=
  if holds then (if old = 0 then now + 1 else if full then old + 1 else old) else if full && old != 0 then old + 1 else 0

/-- How long each group has been ready (R35) and stalled (R363); fibres parked for a full scroll run again once it has
room (R344). -/
def trackGroups (s : State) : State :=
  { s with groups := s.groups.update fun gid g =>
      let x := s.scroll g.ctx (pkgOf g.core)
      let full := x.mode == 1 && x.full
      let h := { g with readyFrom := since g.readyFrom s.cycle (s.groupReady gid g) full
                        stallFrom := since g.stallFrom s.timebase.toNat g.stalled full }
      if full || h.parkedFor .scrollFull == 0 then h else h.unpark (h.parkedFor .scrollFull) }

/-- When each source of a replay began to wait for its next record's event, or for a record (R348). -/
def trackReplays (s : State) : State :=
  s.replaySites.foldl (fun t x =>
    (t.pendingSources x.1 x.2 ++ t.idleScheds x.1 x.2).foldl (fun t source => t.noteWait x.1 x.2 source) t) s

/-- A run whose group has left its scheduler is closed when there is a slot for its record (log 16). -/
def closeRuns (s : State) : State :=
  (s.sitesOf.filter fun x => (s.scroll x.1 x.2).mode == 1 && !s.hasEnded x.1).foldl (fun t x =>
    (t.scroll x.1 x.2).runs.foldl (fun t r =>
      let here := match t.group? r.2.gid with | some g => g.phase == .resident && schedSource g == r.1 | none => false
      if here || (t.scroll x.1 x.2).full then t else t.closeRun x.1 x.2 r.1) t) s

/-- The first pause of the agenda counts the cycle; inputs before it are held back. -/
def passOne : List Input → List Input
  | .pass (n + 1) :: rest => .pass n :: rest
  | e :: rest => e :: passOne rest
  | [] => []

/-- A cycle ends: the counters advance, at multiples of 4 strokes re-form (R34), and waits are looked at again. -/
def endCycle (s : State) : State :=
  let t := { s with cycle := s.cycle + 1, timebase := s.timebase + 1, served := 0, agenda := passOne s.agenda }
  let t := if t.cycle % 4 = 0 then t.reformAll else t
  ((t.dropHeld.trackGroups.trackReplays.closeRuns).retryAccesses).retryDone

/-! ## Inputs -/

/-- The call that an input makes to a context, if it is one. -/
def callOf : Instr → Option Call
  | .hostOpen c _ a => a.join.map fun x => { c with ctx := x }
  | .hostClose c => some c | .hostCloseKill c => some c | .hostMap c _ _ _ _ => some c | .hostWrite c _ _ _ => some c
  | .hostRead c _ _ _ => some c | .hostLaunch c _ => some c | .hostServiceLaunch c _ => some c | .nameWake c _ => some c
  | .nameSignal c _ _ => some c | .nameSignalKill c _ => some c | .nameDeposit c _ _ _ => some c | .nameJoin c _ _ _ => some c
  | .nameGrant c _ _ _ _ => some c | .nameExit c _ _ _ => some c | .connect c _ _ _ => some c | .scrollCtl c _ _ => some c
  | .scrollCtlKill c _ => some c | .scrollCtlContinue c _ => some c | .eventRead c _ => some c | .dumpRead c _ _ => some c
  | _ => none

/-- An earlier call of the same caller to the same context has not taken effect yet (R374); a join that is registered
has. -/
def callPending (s : State) (c : Call) : Bool :=
  s.ops.any fun o => o.2.ctx == c.ctx && (match o.2.work with
    | .name n => n.home.isNone && (match n.host with | some d => sameName d.caller c.caller | none => false)
    | .launch l => (match l.host with | some d => sameName d.caller c.caller | none => false)
    | .access a => sameName a.call.caller c.caller
    | _ => false)

/-- The context number in the header of an OPEN that creates a context (R373). -/
def newNumber : Nat := 0xFFFFFFFF

/-- A call with the context number of its header. -/
def numbered : Instr → Option Call
  | .hostOpen c _ a => some { c with ctx := a.join.getD newNumber }
  | i => callOf i

/-- A caller has passed a call's number. -/
def passed (l : List (Word64 × Nat)) (c : Call) : Bool := l.any fun e => sameName e.1 c.caller && decide (c.seq < e.2)

def notePassed (l : List (Word64 × Nat)) (c : Call) : List (Word64 × Nat) :=
  (cleanName c.caller, c.seq + 1) :: l.filter fun e => !sameName e.1 c.caller

/-- A call whose number its caller has passed, under the context number of its header, is a repeat: each call executes at most
once, also when the number has gone to a later context (R373, R376; log 33). -/
def repeated (s : State) (i : Instr) : Bool :=
  (numbered i).any fun c => passed (s.calls.read [] c.ctx) c

/-- A call is taken: the next number of its caller. A package that is not listening receives nothing, and the host sends the call
again (R399). -/
def noteInput (s : State) (i : Instr) : State :=
  match numbered i with
  | some c =>
    if s.listening c.pkg then { s with calls := s.calls.put c.ctx (notePassed (s.calls.read [] c.ctx) c) } else s
  | none => s

/-- A call with a lower number of the same caller to the same context is still to come (R374). -/
def callBefore (s : State) (c : Call) : Bool :=
  s.agenda.any fun e => match e with
    | .event i => (match callOf i with
        | some d => d.ctx == c.ctx && sameName d.caller c.caller && decide (d.seq < c.seq) && !s.repeated i
        | none => false)
    | _ => false

/-- Calls of one caller to one context take effect in the order of their numbers (R374). -/
def heldBack (s : State) (i : Instr) : Bool :=
  match callOf i with | some c => s.callPending c || s.callBefore c | none => false

/-- The record of an input that is itself logged: NAME_EXIT, and the reply of a service (R341 NAME). -/
def inputEntry (s : State) (i : Instr) : Option (Nat × Nat × Entry) :=
  match i with
  | .nameExit c target _ _ => some (c.ctx, s.nameEntry c.ctx target c.caller 7 0 0)
  | .svcReadBlocks post _ _ _ => s.replyEntry post
  | .svcWriteBlocks post _ _ => s.replyEntry post
  | .svcFlush post _ => s.replyEntry post
  | .svcSendFrame post _ _ => s.replyEntry post
  | .svcPostReceive post _ _ => s.replyEntry post
  | _ => none

/-- An input is an event or a call: an instruction is issued by a stroke, and a bad word is met by one. -/
def isInput (i : Instr) : Bool := i.len == 0 && (match i with | .unassignedOpcode _ => false | _ => true)

/-- The next issue, or the end of the cycle when no stroke is ready. -/
def strokesGo (s : State) : Out := (s.nextIssue).getD (.next s.endCycle)

/-- What happens with nothing to read from outside: the boot, then the first move that is due, then the next issue, then the
end of the cycle. With no input a package boots as an endpoint, alone in its domain, with no expander (log 8). -/
def internal (s : State) : Out :=
  if !s.booted then (if s.boots.any (·.2.err) then .next s else execPackageReset false {} true none {} s)
  else
    match s.firstMove with
    | some t => .next t
    | none => s.strokesGo

/-- An input is taken, unless it has to wait. -/
def takeInput (s : State) (i : Instr) (rest : List Input) : Option Out :=
  if !isInput i || s.repeated i then some (.next { s with agenda := rest })
  else if s.heldBack i then none
  else
    let go := match exec i ({ s with agenda := rest }.noteInput i) with
      | .next t => (s.unitAct t).map .next
      | o => some o
    match s.inputEntry i with
    | none => go
    | some (c, p, e) =>
      match s.unitGate c p e with
      | .hold => let t := s.await c p e; if t = s then none else some (.next t)
      | .diverge _ => some (exec i s)
      | .go => go

/-- The first entry of the agenda that need not wait, up to a pause; `held` are those before it. With `issue` the strokes go on
while every unit is slow (log 3). -/
def takeAgenda (s : State) (held : List Input) : List Input → Option Out
  | [] => none
  | .pass 0 :: rest => some (.next { s with agenda := held ++ rest })
  | .pass (_ + 1) :: _ => none
  | .issue :: rest => some (if s.booted then { s with agenda := held ++ rest }.strokesGo else .next { s with agenda := held ++ rest })
  | .event i :: rest =>
    match s.takeInput i (held ++ rest) with
    | some o => some o
    | none => s.takeAgenda (held ++ [.event i]) rest
  | .far c p r act :: rest => some (.next ({ s with agenda := held ++ rest }.farAct c p r act))

end State
end Sys2Proof.Machine
end

