-- ==== Sys2Proof/Machine/Place.lean ====
section
/-! DEFINITION. A machine that is about to issue a given instruction word: the smallest context, launch and group that a fetch
needs (log 35). It stands for what a host does between boot and a program's first instruction. -/

namespace Sys2Proof.Machine
namespace Place

/-- Where the word stands: physical memory holds three tables and one 64 MiB page, which maps virtual addresses from 0. -/
def root : Nat := 0
def frame : Nat := 0x4000000
def code : Nat := 0x1000
def image : Nat := 0x100000
def table : Nat := 0x200000
def handler : Nat := 0x2000
def launchKey : Nat := State.launchKey 0 1
def cohort : Nat := State.cohortKey launchKey 0
def gid : Nat := State.gidOf cohort 0

/-- Entries of the tables: V in bit 0, RD, WR, EX in bits 2 to 4, LEAF in bit 7 (R163). -/
def tables (s : State) : State :=
  ((s.writeNat root 8 (0x2000 + 1)).writeNat 0x2000 8 (0x4000 + 1)).writeNat 0x4000 8 (frame + 0x9D)

def role : RoleEntry := { entry := BitVec.ofNat 64 code, budget := 1536, groups := 1, fibres := 32, team := false }

def launch : Launch :=
  { ctx := 0, num := 1, age := 0, prio := 0, creator := 0, service := true, cluster := 1, depKind := 0, radius := 0
    gx := 1, gy := 1, gz := 1, stack := 65536, shared := 65536, roles := [role], tx := 0, ty := 0, tz := 0
    doneMap := none, prodMap := 0, px := 0, py := 0, pz := 0 }

/-- One group of 32 fibres, privileged as those of a service launch, at the word. -/
def group : Group :=
  { ctx := 0, launch := launchKey, cohort := cohort, index := 0, role := 0, name := mkName 1 0 1, phase := .resident
    budget := 1536, stack := 65536, image := image
    fibres := newFibres 32 (BitVec.ofNat 64 code) true }

def cohortRec : Cohort :=
  { ctx := 0, launch := launchKey, num := 0, cluster := cohort, member := 0, core := some 0, shared := 65536, groups := [gid]
    begun := true }

def cluster : Cluster :=
  { ctx := 0, launch := launchKey, num := 0, cohorts := [cohort], state := .resident, hw := some 0, elig := true }

def context : Context :=
  { home := 0, nametab := table, xvec := BitVec.ofNat 64 handler, launches := 1
    sites := [(0, { root := root, spwin := [(0, 65536)] })] }

/-- The machine around the word. -/
def machine (s : State) : State :=
  { s with
    groups := [(gid, group)], cohorts := [(cohort, cohortRec)], clusters := [(cohort, cluster)]
    launches := [(launchKey, launch)], contexts := [(0, context)], ops := [], cores := [], holders := [], dies := []
    islands := [], locks := [], booted := true, origins := [], stopped := [], packages := [0], watches := [], served := 0
    issuing := none, agenda := [] }

/-- An instruction's 16 bytes at the group's program counter; bits at and above `nbits` are zero. -/
def word (s : State) (nbits w : Nat) : State :=
  (machine (tables s)).writeBytes (frame + code) (toBytes 16 (w % 2 ^ nbits))

end Place
end Sys2Proof.Machine
end

