-- ==== Sys2Proof/Machine/Step.lean ====
section
/-! DEFINITION. One step of the machine: an input that is due, or else what the machine does by itself (log 3). -/

namespace Sys2Proof.Machine

/-- One step. -/
def step (s : State) : Host.Outcome State Fault Refusal :=
  (s.takeAgenda [] s.agenda).getD s.internal

/-- `s` with an instruction where `step` fetches next. -/
def State.withFetchWord (s : State) (nbits w : Nat) : State := Place.word s nbits w

end Sys2Proof.Machine
end

