-- ==== Sys2Proof/Safety.lean ====
section
/-! DEFINITION. What a safe run keeps: the canonical form of memory, and the machine never stops. -/

namespace Sys2Proof.Safety

open Sys2Proof.Machine

/-- The state invariant: memory is in its one canonical form. -/
def Inv (s : State) : Prop := s.memWf = true

/-- A step that answers a next state. -/
def Goes (s : State) : Prop := ∃ t, step s = .next t

end Sys2Proof.Safety
end

