-- ==== Sys2Proof/WellFormed.lean ====
section
/-! DEFINITION. Which terms of the syntax are instructions that the decoder can answer: guard classes (R88), reserved
values (R91, R93 to R96, and each entry's own limits) and register ranges (R92). Events and host calls have no encoding
and are not well formed. -/

namespace Sys2Proof

/-- Class U accepts guard codes 12 to 15 (R88). -/
def uGuard (g : Guard) : Bool := decide (12 ≤ g.code.toNat)
/-- A branch offset is a multiple of 8 (R142). -/
def offOk (off : Word32) : Bool := off.toNat % 8 == 0
def fieldOk (pos : BitVec 6) (width : BitVec 7) : Bool := decide (1 ≤ width.toNat) && decide (pos.toNat + width.toNat ≤ 64)
def predOk (p : PReg) : Bool := decide (p.toNat < 12)
def slotOk (k : Slot) : Bool := decide (k.toNat < 6)
def voOk (v : Option VReg) : Bool := v != some 0x7FF
def countOk (n : BitVec 24) : Bool := decide (1 ≤ n.toNat) && decide (n.toNat ≤ 1536)

def Instr.wellFormed (i : Instr) : Bool :=
  match i with
  | .smov g _ _ => uGuard g
  | .smovGetp g _ => uGuard g
  | .smovSetp g _ => uGuard g
  | .smovi g _ _ => uGuard g
  | .sadd g _ _ _ => uGuard g
  | .saddi g _ _ _ => uGuard g
  | .ssub g _ _ _ => uGuard g
  | .smul g _ _ _ => uGuard g
  | .smulhi g _ _ _ _ => uGuard g
  | .sdiv g _ _ _ _ => uGuard g
  | .srem g _ _ _ _ => uGuard g
  | .sand g _ _ _ => uGuard g
  | .sor g _ _ _ => uGuard g
  | .sxor g _ _ _ => uGuard g
  | .sshl g _ _ _ => uGuard g
  | .sshr g _ _ _ => uGuard g
  | .sshra g _ _ _ => uGuard g
  | .smin g _ _ _ _ => uGuard g
  | .smax g _ _ _ _ => uGuard g
  | .ssel g _ _ _ _ => uGuard g
  | .scmp g _ _ _ _ _ => uGuard g
  | .splog g _ _ _ _ => uGuard g
  | .slea g _ _ _ _ => uGuard g
  | .sbfx g _ _ _ pos width => uGuard g && fieldOk pos width
  | .sbfi g _ _ pos width => uGuard g && fieldOk pos width
  | .sclz g _ _ => uGuard g
  | .spopc g _ _ => uGuard g
  | .sfadd g _ _ _ _ => uGuard g
  | .sfmul g _ _ _ _ => uGuard g
  | .sfma g _ _ _ _ => uGuard g
  | .sfcmp g _ _ _ _ => uGuard g
  | .sfcvt g src dst _ _ _ _ => uGuard g && src != dst
  | .br g _ off => uGuard g && g.code != 15 && offOk off
  | .vbr _ _ off => offOk off
  | .jmp g _ off => uGuard g && offOk off
  | .jmpr g _ => uGuard g
  | .call g off => uGuard g && offOk off
  | .callr g _ => uGuard g
  | .ret g _ => uGuard g
  | .meet g => uGuard g
  | .fend _ => true
  | .gexit g _ => uGuard g
  | .yield g => uGuard g
  | .sleep g _ => uGuard g
  | .nop _ => true
  | .vmov _ _ ix more _ _ => ix != 7 && (more == 0 || ix == 0)
  | .vmovi _ _ ix ty _ _ => (ix == 0 || ix == 5 || ix == 6) && decide (ty.code < 3)
  | .vmovx _ _ _ _ => true
  | .vstx _ _ _ _ => true
  | .viota _ _ _ _ => true
  | .vadd _ _ _ _ _ _ _ => true
  | .vsub _ _ _ _ _ _ _ => true
  | .vmul _ _ _ _ _ _ _ => true
  | .vmulhi _ _ _ _ _ _ => true
  | .vmad _ _ ix _ _ _ _ _ _ => ix != 7
  | .vdiv _ _ _ _ _ _ => true
  | .vrem _ _ _ _ _ _ => true
  | .vand _ _ _ _ _ => true
  | .vor _ _ _ _ _ => true
  | .vxor _ _ _ _ _ => true
  | .vnot _ _ _ _ => true
  | .vshl _ _ _ _ _ => true
  | .vshr _ _ _ _ _ => true
  | .vshra _ _ _ _ _ => true
  | .vmin _ _ _ _ _ _ => true
  | .vmax _ _ _ _ _ _ => true
  | .vabs _ _ _ _ _ => true
  | .vneg _ _ _ _ _ => true
  | .vsel _ _ ix _ _ _ _ => ix != 7
  | .vcmp _ _ _ _ pd _ _ => predOk pd
  | .vplog _ _ _ pd pa pb => predOk pd && predOk pa && predOk pb
  | .vclz _ _ _ _ => true
  | .vpopc _ _ _ _ => true
  | .vbfx _ _ ix _ _ _ _ _ => ix != 7
  | .vbfi _ _ ix _ _ _ _ => ix != 7
  | .vperm _ _ _ _ _ _ => true
  | .vshfl _ _ _ _ _ _ => true
  | .qswap _ _ m _ _ => m != 0
  | .qbcast _ _ _ _ _ => true
  | .vred _ _ fn ty _ _ => redOk fn ty
  | .vscan _ _ fn _ ty _ _ => redOk fn ty
  | .vballot _ _ _ pa => predOk pa
  | .vtos _ _ _ _ _ => true
  | .stov _ _ _ _ _ => true
  | .ptest _ _ _ _ pa => predOk pa
  | .vfadd _ _ ix _ _ _ _ _ _ => ix != 7
  | .vfsub _ _ ix _ _ _ _ _ _ => ix != 7
  | .vfmul _ _ ix _ _ _ _ _ _ => ix != 7
  | .vfma _ _ ix _ _ _ _ _ _ _ => ix != 7
  | .vfmin _ _ _ _ _ _ => true
  | .vfmax _ _ _ _ _ _ => true
  | .vfabs _ _ _ _ _ => true
  | .vfneg _ _ _ _ _ => true
  | .vfcmp _ _ _ pd _ _ => predOk pd
  | .vfrcp _ _ ix _ _ _ _ => ix != 7
  | .vfrsq _ _ ix _ _ _ _ => ix != 7
  | .vfsqrt _ _ ix _ _ _ _ => ix != 7
  | .vfdiv _ _ ix _ _ _ _ _ => ix != 7
  | .vfexp2 _ _ ix _ _ _ _ => ix != 7
  | .vflog2 _ _ ix _ _ _ _ => ix != 7
  | .vfscl _ _ ix _ _ _ _ _ => ix != 7
  | .vfexpo _ _ _ _ => true
  | .vfclass _ _ _ _ _ => true
  | .vcvt _ _ ix src dst _ _ _ _ => src != dst && ix != 7
  | .vpack2 _ _ _ _ _ _ _ _ => true
  | .vunpack2 _ _ _ _ _ => true
  | .vpack4 _ _ _ _ _ _ _ => true
  | .vunpack4 _ _ _ _ _ => true
  | .vqpack _ _ _ _ _ => true
  | .vqunpk _ _ _ _ => true
  | .vdot2 _ _ _ _ _ _ _ _ _ => true
  | .vdot4 _ _ _ _ _ _ _ _ _ => true
  | .vld _ ms _ o _ _ vo _ => voOk vo && stkOk ms o && loadOrder o
  | .vst _ ms sz o _ _ vo _ => voOk vo && stkOk ms o && storeOrder o && storeSize sz
  | .vldc _ _ _ sz _ _ vo _ => voOk vo && vldcSize sz
  | .sld g ms sz o _ _ _ => uGuard g && stkOk ms o && loadOrder o && scalarSize sz
  | .sst g ms sz o _ _ _ => uGuard g && stkOk ms o && storeOrder o && storeSize sz && scalarSize sz
  | .vatom _ fn _ _ b64 _ _ _ vo _ => voOk vo && faddOk fn b64
  | .satom g fn _ _ b64 _ sd _ _ => uGuard g && faddOk fn b64 && !(fn == .cas && sd == 127)
  | .spushv _ _ n => countOk n
  | .spopv _ _ n => countOk n
  | .fence g _ _ => uGuard g
  | .waitw g _ _ _ _ _ _ _ _ _ => uGuard g
  | .bar g => uGuard g
  | .bara g => uGuard g
  | .barw g => uGuard g
  | .cbinit g _ _ _ _ _ => uGuard g
  | .cbexpect g _ _ _ _ _ _ => uGuard g
  | .cbarrive g _ _ _ _ _ _ => uGuard g
  | .cbwait g _ _ _ _ _ => uGuard g
  | .cbtest g _ _ _ _ _ _ _ => uGuard g
  | .rlock g _ _ _ _ _ => uGuard g
  | .runlock g _ => uGuard g
  | .cpy g _ _ _ _ _ _ _ _ flag => uGuard g && flagOk flag
  | .cpyt g _ _ _ _ _ tA _ _ flag => uGuard g && flagOk flag && tA != 127
  | .cpym g ssp _ _ _ _ _ _ => uGuard g && ssp != .cl
  | .cpytest g _ _ => uGuard g
  | .macq g _ n => uGuard g && decide (1 ≤ n.toNat ∧ n.toNat ≤ 6)
  | .macqTeam g _ n _ => uGuard g && decide (1 ≤ n.toNat ∧ n.toNat ≤ 6)
  | .mrel g => uGuard g
  | .mgrow g _ n => uGuard g && decide (1 ≤ n.toNat ∧ n.toNat ≤ 5)
  | .mzero g _ k => uGuard g && slotOk k
  | .mloop g fa fb part _ _ _ xA yA _ _ k => uGuard g && slotOk k && pairOk fa fb && (!part || (fa == .e2m1 && k == 0)) && (fa == .e2m1 || xA == 0) && (fb == .e2m1 || yA == 0)
  | .msacc g _ _ _ _ k => uGuard g && slotOk k
  | .mldacc g _ _ _ _ k => uGuard g && slotOk k
  | .mstacc g _ _ _ _ _ _ k => uGuard g && slotOk k
  | .tsend g _ _ _ _ _ => uGuard g
  | .trecv g _ _ _ _ _ => uGuard g
  | .nself g _ => uGuard g
  | .nwake g sd _ => uGuard g && sd != 127
  | .nsignal g sd _ _ => uGuard g && sd != 127
  | .nsignalKill g sd _ => uGuard g && sd != 127
  | .ndeposit g sd _ _ _ => uGuard g && sd != 127
  | .njoin g _ sd _ _ => uGuard g && sd != 127
  | .npark g _ _ => uGuard g
  | .nstat g sd _ => uGuard g && sd != 127
  | .tspawn _ _ base vo _ => voOk vo && base != 127
  | .tpost g _ _ => uGuard g
  | .tdone g => uGuard g
  | .rgacq g _ _ _ sd _ => uGuard g && sd != 127
  | .rgcommit g _ _ _ _ _ => uGuard g
  | .rgpeek g _ _ _ sd _ => uGuard g && sd != 127
  | .rgrel g _ _ _ _ _ => uGuard g
  | .wdnext g _ => uGuard g
  | .launch g _ _ => uGuard g
  | .trap g _ => uGuard g
  | .xret g => uGuard g
  | .sysrd g _ _ => uGuard g
  | .syswr g n _ => uGuard g && n != .xlflush && n != .scrridx
  | .syswrXlflush g _ => uGuard g
  | .syswrScrridx g _ => uGuard g
  | .bkpt g _ => uGuard g
  | .logmark g _ => uGuard g
  | .evpost g _ _ _ _ _ => uGuard g
  | .fretry g _ _ => uGuard g
  | .fretryExhaust g _ _ => uGuard g
  | .fretryFatal g _ _ => uGuard g
  | .strokeReformation => false
  | .groupUrgent _ => false
  | .meetRelease _ => false
  | .waitwWake _ _ => false
  | .waitwTimeout _ _ => false
  | .sleepExpiry _ => false
  | .nparkTimeout _ _ => false
  | .njoinTimeout _ _ => false
  | .copyPiece _ _ => false
  | .faultQueuePost _ _ => false
  | .layoutRecordRead _ => false
  | .copyAck _ _ => false
  | .copyCompletion _ => false
  | .transferPiece _ _ => false
  | .transferCompletion _ => false
  | .macqQueueGrant _ => false
  | .mrelRelease _ _ => false
  | .matrixLoopStart _ => false
  | .matrixLoopWaitExpiry _ => false
  | .matrixBudgetRefill _ => false
  | .matrixOpCompletion _ => false
  | .deliverWake _ => false
  | .deliverSignal _ => false
  | .deliverDeposit _ => false
  | .deliverKill _ => false
  | .deliverJoin _ => false
  | .deliverStat _ => false
  | .launchAcceptance _ _ => false
  | .clusterAdmission _ _ _ _ _ => false
  | .admissionWaitExpiry => false
  | .preemptStop _ => false
  | .cohortSave _ => false
  | .registerWriteback _ _ => false
  | .groupWritebackComplete _ => false
  | .imageSwapOut _ => false
  | .imageSwapIn _ => false
  | .groupEndFinalise _ => false
  | .wdAnswer _ => false
  | .taskDispatch _ _ _ => false
  | .svcReadBlocks _ _ _ _ => false
  | .svcWriteBlocks _ _ _ => false
  | .svcFlush _ _ => false
  | .svcSendFrame _ _ _ => false
  | .svcPostReceive _ _ _ => false
  | .contextFatalFault _ _ _ _ => false
  | .watchdogExpiry _ => false
  | .replayWaitTimeout _ _ _ => false
  | .remoteTimeout _ => false
  | .counterFlush _ _ => false
  | .tracePost _ _ _ _ => false
  | .packageReset _ _ _ _ _ => false
  | .governorTick _ _ _ => false
  | .criticalTemperature _ => false
  | .hostOpen _ _ _ => false
  | .hostClose _ => false
  | .hostCloseKill _ => false
  | .hostMap _ _ _ _ _ => false
  | .hostWrite _ _ _ _ => false
  | .hostRead _ _ _ _ => false
  | .hostLaunch _ _ => false
  | .hostServiceLaunch _ _ => false
  | .nameWake _ _ => false
  | .nameSignal _ _ _ => false
  | .nameSignalKill _ _ => false
  | .nameDeposit _ _ _ _ => false
  | .nameJoin _ _ _ _ => false
  | .nameGrant _ _ _ _ _ => false
  | .nameExit _ _ _ _ => false
  | .connect _ _ _ _ => false
  | .scrollCtl _ _ _ => false
  | .scrollCtlKill _ _ => false
  | .scrollCtlContinue _ _ => false
  | .eventRead _ _ => false
  | .dumpRead _ _ _ => false
  | .softErrorCorrected _ => false
  | .unassignedOpcode _ => false
  | .badcallMessage _ => false

end Sys2Proof
end

