-- ==== Sys2Proof/Certificates/Slice0/Obligations.lean ====
section
/-! DEFINITION. The statements for the provers. `Sys2Proof.Claim` holds what they are made of: what it is to execute, the
values that the rules of the spec give, and the frames. -/

namespace Sys2Proof.Claim

open Sys2Proof.Machine Sys2Proof.Machine.State

/-! ## Who executes -/

/-- A stroke of a group issues (R34). -/
def Issues (s : State) (u : Issue) (g : Group) : Prop := s.issuing = some u ∧ s.group? u.gid = some g

/-- An instruction under a guard executes: its registers lie in the budget (R53) and some fibre is active (R89). -/
def Executes (i : Instr) (gd : Guard) (s : State) (u : Issue) (g : Group) : Prop :=
  Issues s u g ∧ i.inBudget g.budget = true ∧ g.active u.mask gd ≠ 0

/-- It executes for some fibre that is not a helper (R32). -/
def Acts (i : Instr) (gd : Guard) (s : State) (u : Issue) (g : Group) : Prop :=
  Executes i gd s u g ∧ g.helperOnly (g.active u.mask gd) = false

/-- No scroll of a context records or replays (R338). -/
def Unlogged (s : State) (ctx : Nat) : Prop := (∀ p, (s.scroll ctx p).mode = 0) ∧ s.frozen ctx = false

/-- The guard of an instruction, as its term holds it (R87). -/
def guardOf : Instr → Option Guard
  | .smov g _ _ => some g
  | .smovGetp g _ => some g
  | .smovSetp g _ => some g
  | .smovi g _ _ => some g
  | .sadd g _ _ _ => some g
  | .saddi g _ _ _ => some g
  | .ssub g _ _ _ => some g
  | .smul g _ _ _ => some g
  | .smulhi g _ _ _ _ => some g
  | .sdiv g _ _ _ _ => some g
  | .srem g _ _ _ _ => some g
  | .sand g _ _ _ => some g
  | .sor g _ _ _ => some g
  | .sxor g _ _ _ => some g
  | .sshl g _ _ _ => some g
  | .sshr g _ _ _ => some g
  | .sshra g _ _ _ => some g
  | .smin g _ _ _ _ => some g
  | .smax g _ _ _ _ => some g
  | .ssel g _ _ _ _ => some g
  | .scmp g _ _ _ _ _ => some g
  | .splog g _ _ _ _ => some g
  | .slea g _ _ _ _ => some g
  | .sbfx g _ _ _ _ _ => some g
  | .sbfi g _ _ _ _ => some g
  | .sclz g _ _ => some g
  | .spopc g _ _ => some g
  | .sfadd g _ _ _ _ => some g
  | .sfmul g _ _ _ _ => some g
  | .sfma g _ _ _ _ => some g
  | .sfcmp g _ _ _ _ => some g
  | .sfcvt g _ _ _ _ _ _ => some g
  | .br g _ _ => some g
  | .vbr g _ _ => some g
  | .jmp g _ _ => some g
  | .jmpr g _ => some g
  | .call g _ => some g
  | .callr g _ => some g
  | .ret g _ => some g
  | .meet g => some g
  | .fend g => some g
  | .gexit g _ => some g
  | .yield g => some g
  | .sleep g _ => some g
  | .nop g => some g
  | .vmov g _ _ _ _ _ => some g
  | .vmovi g _ _ _ _ _ => some g
  | .vmovx g _ _ _ => some g
  | .vstx g _ _ _ => some g
  | .viota g _ _ _ => some g
  | .vadd g _ _ _ _ _ _ => some g
  | .vsub g _ _ _ _ _ _ => some g
  | .vmul g _ _ _ _ _ _ => some g
  | .vmulhi g _ _ _ _ _ => some g
  | .vmad g _ _ _ _ _ _ _ _ => some g
  | .vdiv g _ _ _ _ _ => some g
  | .vrem g _ _ _ _ _ => some g
  | .vand g _ _ _ _ => some g
  | .vor g _ _ _ _ => some g
  | .vxor g _ _ _ _ => some g
  | .vnot g _ _ _ => some g
  | .vshl g _ _ _ _ => some g
  | .vshr g _ _ _ _ => some g
  | .vshra g _ _ _ _ => some g
  | .vmin g _ _ _ _ _ => some g
  | .vmax g _ _ _ _ _ => some g
  | .vabs g _ _ _ _ => some g
  | .vneg g _ _ _ _ => some g
  | .vsel g _ _ _ _ _ _ => some g
  | .vcmp g _ _ _ _ _ _ => some g
  | .vplog g _ _ _ _ _ => some g
  | .vclz g _ _ _ => some g
  | .vpopc g _ _ _ => some g
  | .vbfx g _ _ _ _ _ _ _ => some g
  | .vbfi g _ _ _ _ _ _ => some g
  | .vperm g _ _ _ _ _ => some g
  | .vshfl g _ _ _ _ _ => some g
  | .qswap g _ _ _ _ => some g
  | .qbcast g _ _ _ _ => some g
  | .vred g _ _ _ _ _ => some g
  | .vscan g _ _ _ _ _ _ => some g
  | .vballot g _ _ _ => some g
  | .vtos g _ _ _ _ => some g
  | .stov g _ _ _ _ => some g
  | .ptest g _ _ _ _ => some g
  | .vfadd g _ _ _ _ _ _ _ _ => some g
  | .vfsub g _ _ _ _ _ _ _ _ => some g
  | .vfmul g _ _ _ _ _ _ _ _ => some g
  | .vfma g _ _ _ _ _ _ _ _ _ => some g
  | .vfmin g _ _ _ _ _ => some g
  | .vfmax g _ _ _ _ _ => some g
  | .vfabs g _ _ _ _ => some g
  | .vfneg g _ _ _ _ => some g
  | .vfcmp g _ _ _ _ _ => some g
  | .vfrcp g _ _ _ _ _ _ => some g
  | .vfrsq g _ _ _ _ _ _ => some g
  | .vfsqrt g _ _ _ _ _ _ => some g
  | .vfdiv g _ _ _ _ _ _ _ => some g
  | .vfexp2 g _ _ _ _ _ _ => some g
  | .vflog2 g _ _ _ _ _ _ => some g
  | .vfscl g _ _ _ _ _ _ _ => some g
  | .vfexpo g _ _ _ => some g
  | .vfclass g _ _ _ _ => some g
  | .vcvt g _ _ _ _ _ _ _ _ => some g
  | .vpack2 g _ _ _ _ _ _ _ => some g
  | .vunpack2 g _ _ _ _ => some g
  | .vpack4 g _ _ _ _ _ _ => some g
  | .vunpack4 g _ _ _ _ => some g
  | .vqpack g _ _ _ _ => some g
  | .vqunpk g _ _ _ => some g
  | .vdot2 g _ _ _ _ _ _ _ _ => some g
  | .vdot4 g _ _ _ _ _ _ _ _ => some g
  | .vld g _ _ _ _ _ _ _ => some g
  | .vst g _ _ _ _ _ _ _ => some g
  | .vldc g _ _ _ _ _ _ _ => some g
  | .sld g _ _ _ _ _ _ => some g
  | .sst g _ _ _ _ _ _ => some g
  | .vatom g _ _ _ _ _ _ _ _ _ => some g
  | .satom g _ _ _ _ _ _ _ _ => some g
  | .spushv g _ _ => some g
  | .spopv g _ _ => some g
  | .fence g _ _ => some g
  | .waitw g _ _ _ _ _ _ _ _ _ => some g
  | .bar g => some g
  | .bara g => some g
  | .barw g => some g
  | .cbinit g _ _ _ _ _ => some g
  | .cbexpect g _ _ _ _ _ _ => some g
  | .cbarrive g _ _ _ _ _ _ => some g
  | .cbwait g _ _ _ _ _ => some g
  | .cbtest g _ _ _ _ _ _ _ => some g
  | .rlock g _ _ _ _ _ => some g
  | .runlock g _ => some g
  | .cpy g _ _ _ _ _ _ _ _ _ => some g
  | .cpyt g _ _ _ _ _ _ _ _ _ => some g
  | .cpym g _ _ _ _ _ _ _ => some g
  | .cpytest g _ _ => some g
  | .macq g _ _ => some g
  | .macqTeam g _ _ _ => some g
  | .mrel g => some g
  | .mgrow g _ _ => some g
  | .mzero g _ _ => some g
  | .mloop g _ _ _ _ _ _ _ _ _ _ _ => some g
  | .msacc g _ _ _ _ _ => some g
  | .mldacc g _ _ _ _ _ => some g
  | .mstacc g _ _ _ _ _ _ _ => some g
  | .tsend g _ _ _ _ _ => some g
  | .trecv g _ _ _ _ _ => some g
  | .nself g _ => some g
  | .nwake g _ _ => some g
  | .nsignal g _ _ _ => some g
  | .nsignalKill g _ _ => some g
  | .ndeposit g _ _ _ _ => some g
  | .njoin g _ _ _ _ => some g
  | .npark g _ _ => some g
  | .nstat g _ _ => some g
  | .tspawn g _ _ _ _ => some g
  | .tpost g _ _ => some g
  | .tdone g => some g
  | .rgacq g _ _ _ _ _ => some g
  | .rgcommit g _ _ _ _ _ => some g
  | .rgpeek g _ _ _ _ _ => some g
  | .rgrel g _ _ _ _ _ => some g
  | .wdnext g _ => some g
  | .launch g _ _ => some g
  | .trap g _ => some g
  | .xret g => some g
  | .sysrd g _ _ => some g
  | .syswr g _ _ => some g
  | .syswrXlflush g _ => some g
  | .syswrScrridx g _ => some g
  | .bkpt g _ => some g
  | .logmark g _ => some g
  | .evpost g _ _ _ _ _ => some g
  | .fretry g _ _ => some g
  | .fretryExhaust g _ _ => some g
  | .fretryFatal g _ _ => some g
  | _ => none

/-! ## Frames -/

/-- The group after its stroke has moved `n` bytes on. -/
def moved (g : Group) (u : Issue) (n : Nat) : Group := g.setPc u.mask (u.pc + BitVec.ofNat 64 n)

/-- Nothing has changed but the issuing group, which is now `h`; while the scroll writes records it may change too. -/
def Only (s : State) (u : Issue) (g h : Group) (t : State) : Prop :=
  t.group? u.gid = some h ∧ (∀ n, n ≠ u.gid → t.group? n = s.group? n) ∧
    (Unlogged s g.ctx → t = { s with groups := t.groups })

/-- As `Only`, with the private counts of the core changed too (R394, R397). -/
def OnlyCounts (s : State) (u : Issue) (g h : Group) (t : State) : Prop :=
  t.group? u.gid = some h ∧ (∀ n, n ≠ u.gid → t.group? n = s.group? n) ∧
    (Unlogged s g.ctx → t = { s with groups := t.groups, cores := t.cores })

/-- A group without its register map. -/
def unmapped (g : Group) : Group := { g with map := [] }

/-- The bytes of a vector register's line (R54), of a value of 32 lanes. In states that no run reaches the inkstone or the
register may hold a list of another length, which is then written whole. -/
def LineBytes (s : State) (q : Group) (n : Nat) (bs : List Byte) : Prop :=
  ∃ v : Lanes 32, bs = v.flatMap (fun x => toBytes 4 x.toNat) ∧
    (v.length = 32 ∨ v = q.rdV n ∨ ∃ e x, (s.core q.core).entry? e = some x ∧ v = x.value)

/-- Memory is led from one to the other by writing vector registers of groups on a core to their lines of their images, one
after another, each of them such as `p` allows; nothing else of it changes (R54, R68). -/
inductive LinesWritten (s : State) (core : Nat) (p : Nat → Nat → Prop) : Tbl Byte → Tbl Byte → Prop
  | none (m : Tbl Byte) : LinesWritten s core p m m
  | line (m m' : Tbl Byte) (gid n : Nat) (q : Group) (bs : List Byte) (r : State) : s.group? gid = some q → q.core = core →
      p gid n → LineBytes s q n bs →
      ({ s with mem := m } : State).vmWrite q.ctx (pkgOf core) .imageWrite (q.image + 0x1000 + 128 * n) bs = (r, .none) →
      LinesWritten s core p r.mem m' → LinesWritten s core p m m'

/-- The registers that an instruction of group `u.gid`, which writes `ws`, may have evicted by state `t`: dirty ones, which a group
that does not issue maps no more (R68). -/
def Evicted (s : State) (u : Issue) (ws : List Nat) (t : State) (gid n : Nat) : Prop :=
  (gid = u.gid ∧ n ∈ ws) ∨
    (∃ q m, s.group? gid = some q ∧ q.map.get? n = some m ∧ m.dirty = true) ∧
      (gid ≠ u.gid → ∀ q, t.group? gid = some q → q.map.get? n = none)

/-- What a vector instruction that writes the registers `ws` leaves alone: other groups but for their register maps; memory
outside the lines of the dirty registers that it evicts; and everything else but the core's structures (and the watches of
parked WAITWs on what is written). -/
def VectorFrame (s : State) (u : Issue) (g : Group) (ws : List Nat) (t : State) : Prop :=
  (∀ n, n ≠ u.gid → (t.group? n).map unmapped = (s.group? n).map unmapped) ∧
  LinesWritten s g.core (Evicted s u ws t) s.mem t.mem ∧
  t = { s with groups := t.groups, cores := t.cores, mem := t.mem, watches := t.watches, agenda := t.agenda }

/-- An instruction has read vector registers: those with no map slot have been filled from their lines of the image, which
leads to the state and the group that it works on (R55, R67). -/
def Filled (s : State) (u : Issue) (ns : List Nat) (s1 : State) (g1 : Group) : Prop :=
  s.fillAll u.gid ns = (s1, none) ∧ s1.group? u.gid = some g1

/-- The deadline of a timeout in ticks of a package's TIMEBASE; 0 is none, and one beyond 64 bits is the last tick, which is the model's choice
(R310, R191; log 50). -/
def deadline (s : State) (pkg : Nat) (timeout : Word64) : Nat :=
  if timeout = 0 then 0 else min ((s.ticks pkg).toNat + timeout.toNat) (2 ^ 64 - 1)

/-- A context has ended with a cause, and every group of it is DEAD (R364). -/
def EndedWith (s : State) (ctx : Nat) (cause : Byte) (t : State) : Prop :=
  ∀ c, s.context? ctx = some c → c.ended = none →
    ∃ c', t.context? ctx = some c' ∧ c'.ended = some cause ∧ ∀ n q, t.group? n = some q → q.ctx = ctx → q.phase = .dead

/-- The fibres of a set wait, each with an operand, a deadline and a program counter; the others are as before, and so is all
else that the group holds. -/
def Parked (g h : Group) (m : BitVec 32) (w : Wait) (operand : Word64) (deadline : Nat) (pc : Fibre → Word64) : Prop :=
  h = { g with fibres := h.fibres } ∧
  ∀ f, f < 32 →
    (m.getLsbD f = true → (h.fibre f).wait = w ∧ (h.fibre f).operand = operand ∧ (h.fibre f).deadline = deadline
      ∧ (h.fibre f).pc = pc (g.fibre f)) ∧
    (m.getLsbD f = false → h.fibre f = g.fibre f)

/-! ## Scalar values (R128 to R141) -/

/-- `a < b`, signed or unsigned. -/
def below {w : Nat} (uns : Bool) (a b : BitVec w) : Bool := if uns then a.ult b else a.slt b

/-- The conditions of R131. -/
def holds {w : Nat} (c : IntCond) (uns : Bool) (a b : BitVec w) : Bool :=
  match c with
  | .eq => a == b | .ne => a != b | .lt => below uns a b | .le => !below uns b a | .gt => below uns b a
  | .ge => !below uns a b | .tst => (a &&& b) != 0

/-- IntDiv and its remainder (R130, R211): by zero, all ones and the dividend with DZ. -/
def quotient {w : Nat} (uns : Bool) (a b : BitVec w) : BitVec w :=
  if b = 0 then BitVec.allOnes w else if uns then a / b else a.sdiv b
def remainder {w : Nat} (uns : Bool) (a b : BitVec w) : BitVec w := if b = 0 then a else if uns then a % b else a.srem b
def divFlag {w : Nat} (b : BitVec w) : Nat := if b = 0 then flDZ else 0

/-- The high half of a product (R128, R233). -/
def highHalf {w : Nat} (uns : Bool) (a b : BitVec w) : BitVec w :=
  if uns then (a.setWidth (2 * w) * b.setWidth (2 * w)).extractLsb' w w
  else (a.signExtend (2 * w) * b.signExtend (2 * w)).extractLsb' w w

/-- One bits, and the zero bits above the highest one. -/
def ones {w : Nat} (a : BitVec w) : Nat := (List.range w).countP fun k => a.getLsbD k
def zerosAbove {w : Nat} (a : BitVec w) : Nat := ((List.range w).reverse.takeWhile fun k => !a.getLsbD k).length

/-- The destination, the value and the flags of a scalar instruction that writes one uniform register. -/
def scalar (g : Group) : Instr → Option (Guard × SReg × Word64 × Nat)
  | .smov gd sd sa => some (gd, sd, g.rdS sa, 0)
  | .smovGetp gd sd => some (gd, sd, g.sp.setWidth 64, 0)
  | .smovi gd sd imm => some (gd, sd, imm, 0)
  | .sadd gd sd sa b => some (gd, sd, g.rdS sa + b.value g false, 0)
  | .saddi gd sd sa imm => some (gd, sd, g.rdS sa + imm, 0)
  | .ssub gd sd sa b => some (gd, sd, g.rdS sa - b.value g false, 0)
  | .smul gd sd sa b => some (gd, sd, g.rdS sa * b.value g false, 0)
  | .smulhi gd uns sd sa b => some (gd, sd, highHalf uns (g.rdS sa) (b.value g uns), 0)
  | .sdiv gd uns sd sa b => some (gd, sd, quotient uns (g.rdS sa) (b.value g uns), divFlag (b.value g uns))
  | .srem gd uns sd sa b => some (gd, sd, remainder uns (g.rdS sa) (b.value g uns), divFlag (b.value g uns))
  | .sand gd sd sa b => some (gd, sd, g.rdS sa &&& b.value g false, 0)
  | .sor gd sd sa b => some (gd, sd, g.rdS sa ||| b.value g false, 0)
  | .sxor gd sd sa b => some (gd, sd, g.rdS sa ^^^ b.value g false, 0)
  | .sshl gd sd sa b => some (gd, sd, g.rdS sa <<< (b.value g true).toNat, 0)
  | .sshr gd sd sa b => some (gd, sd, g.rdS sa >>> (b.value g true).toNat, 0)
  | .sshra gd sd sa b => some (gd, sd, (g.rdS sa).sshiftRight (b.value g true).toNat, 0)
  | .smin gd uns sd sa b => some (gd, sd, if below uns (g.rdS sa) (b.value g uns) then g.rdS sa else b.value g uns, 0)
  | .smax gd uns sd sa b => some (gd, sd, if below uns (g.rdS sa) (b.value g uns) then b.value g uns else g.rdS sa, 0)
  | .ssel gd k sd sa b => some (gd, sd, if g.sp.getLsbD k.toNat then g.rdS sa else b.value g false, 0)
  | .slea gd k sd sa b => some (gd, sd, g.rdS sa + (b.value g false <<< k.toNat), 0)
  | .sbfx gd sx sd sa pos width =>
    some (gd, sd, (if sx then ((g.rdS sa >>> pos.toNat).setWidth width.toNat).signExtend 64
      else ((g.rdS sa >>> pos.toNat).setWidth width.toNat).setWidth 64), 0)
  | .sbfi gd sd sa pos width =>
    let m : Word64 := ((BitVec.allOnes width.toNat).setWidth 64) <<< pos.toNat
    some (gd, sd, (g.rdS sd &&& ~~~m) ||| ((g.rdS sa <<< pos.toNat) &&& m), 0)
  | .sclz gd sd sa => some (gd, sd, BitVec.ofNat 64 (zerosAbove (g.rdS sa)), 0)
  | .spopc gd sd sa => some (gd, sd, BitVec.ofNat 64 (ones (g.rdS sa)), 0)
  | _ => none

/-- The scalar floating-point results: the exact value, rounded once to f32 (R137 to R141). -/
def scalarFloat (g : Group) : Instr → Option (Guard × SReg × Word64 × Nat)
  | .sfadd gd rnd sd sa sb => let r := sRound rnd (sumVals rnd [sF32 g sa, sF32 g sb]); some (gd, sd, r.1, r.2)
  | .sfmul gd rnd sd sa sb => let r := sRound rnd (mulVal (sF32 g sa) (sF32 g sb)); some (gd, sd, r.1, r.2)
  | .sfma gd rnd sd sa sb => let r := sRound rnd (fusedSum rnd (sF32 g sd) [(sF32 g sa, sF32 g sb)]); some (gd, sd, r.1, r.2)
  | .sfcvt gd src dst rnd sat sd sa =>
    let r := convert src dst rnd sat (g.rdS sa).toNat
    some (gd, sd, (if dst = .i32 then (BitVec.ofNat 32 r.1).signExtend 64 else BitVec.ofNat 64 r.1), r.2)
  | _ => none

/-- The destination, the value and the flags of an instruction that writes one uniform predicate (R131, R134, R140). -/
def predicate (g : Group) : Instr → Option (Guard × UPred × Bool × Nat)
  | .scmp gd c uns spd sa b => some (gd, spd, holds c uns (g.rdS sa) (b.value g uns), 0)
  | .splog gd t spd spa spb =>
    some (gd, spd, t.getLsbD ((if g.sp.getLsbD spa.toNat then 2 else 0) + (if g.sp.getLsbD spb.toNat then 1 else 0)), 0)
  | .sfcmp gd c spd sa sb => let r := fcmp c (sF32 g sa) (sF32 g sb); some (gd, spd, r.1, r.2)
  | _ => none

/-- The target of a format C transfer: the offset from the 8-byte boundary at or below the program counter (R85, R142). -/
def target (pc : Word64) (off : Word32) : Word64 := pc - pc % 8 + off.signExtend 64

/-! ## Vector values (R228 to R252) -/

/-- A vector instruction with one destination: its operands, and the value and flags of lane `f` from the group, the active
fibres, the lanes of va, and the lanes that the destination held. -/
structure LaneOp where
  gd  : Guard
  ix  : Ix
  vd  : VReg
  va  : VReg
  val : Group → BitVec 32 → (Nat → Word32) → (Nat → Word32) → Nat → Word32 × Nat

def nr (r : Nat × Nat) : Word32 × Nat := (BitVec.ofNat 32 r.1, r.2)

/-- The lane of a plain vector register as it is read: zero where no live fibre is (R80, R223). -/
def at_ (g : Group) (r : VReg) (f : Nat) : Word32 := if g.live.getLsbD f then (g.rdV r.toNat).lane f else 0

/-- A lane as an exact integer (R227), and an exact result narrowed: saturated or modulo 2^32 (R234). -/
def exactInt (ty : IntTy) (x : Word32) : Int := match ty with | .i32 => x.toInt | .n32 => (x.toNat : Int)
def narrowed (ty : IntTy) (sat : Bool) (x : Int) : Word32 :=
  if sat then
    match ty with
    | .i32 => BitVec.ofInt 32 (if x < -2147483648 then -2147483648 else if 2147483647 < x then 2147483647 else x)
    | .n32 => BitVec.ofInt 32 (if x < 0 then 0 else if 4294967295 < x then 4294967295 else x)
  else BitVec.ofInt 32 x

def isUnsigned (ty : IntTy) : Bool := match ty with | .i32 => false | .n32 => true

/-- A lane's field: position and width, cut to the lane (R237). -/
def fieldAt (b c : Word32) : Nat × Nat := (b.toNat % 32, min (c.toNat % 64) (32 - b.toNat % 32))

/-- An integer operation of two operands without flags. -/
def int2 (gd : Guard) (vd va : VReg) (b : VOp) (f : Word32 → Word32 → Word32) : Option LaneOp :=
  some ⟨gd, 0, vd, va, fun g _ A _ l => (f (A l) (b.lane g l), 0)⟩
def int1 (gd : Guard) (vd va : VReg) (f : Word32 → Word32) : Option LaneOp :=
  some ⟨gd, 0, vd, va, fun _ _ A _ l => (f (A l), 0)⟩

/-- Moves, lane identity and integers. -/
def vectorInt : Instr → Option LaneOp
  | .vmov gd _ ix more vd va => if more = 0 then some ⟨gd, ix, vd, va, fun _ _ A _ f => (A f, 0)⟩ else none
  | .vmovi gd _ ix _ vd imm => some ⟨gd, ix, vd, 0, fun _ _ _ _ _ => (imm, 0)⟩
  | .vstx gd _ vd xa => some ⟨gd, 0, vd, vd, fun g _ _ _ f => (((g.rdX xa).lane f).signExtend 32, 0)⟩
  | .viota gd _ rank vd =>
    some ⟨gd, 0, vd, vd, fun _ a _ _ f => (BitVec.ofNat 32 (if rank then (List.range f).countP (a.getLsbD ·) else f), 0)⟩
  | .stov gd _ hi vd sa => some ⟨gd, 0, vd, vd, fun g _ _ _ _ => ((g.rdS sa).extractLsb' (if hi then 32 else 0) 32, 0)⟩
  | .vadd gd _ ty sat vd va b => int2 gd vd va b fun x y => narrowed ty sat (exactInt ty x + exactInt ty y)
  | .vsub gd _ ty sat vd va b => int2 gd vd va b fun x y => narrowed ty sat (exactInt ty x - exactInt ty y)
  | .vmul gd _ ty sat vd va b => int2 gd vd va b fun x y => narrowed ty sat (exactInt ty x * exactInt ty y)
  | .vmulhi gd _ ty vd va b => int2 gd vd va b fun x y => highHalf (isUnsigned ty) x y
  | .vmad gd _ ix ty sat vd va vb vc =>
    some ⟨gd, ix, vd, va, fun g _ A _ f =>
      (narrowed ty sat (exactInt ty (A f) * exactInt ty (at_ g vb f) + exactInt ty (at_ g vc f)), 0)⟩
  | .vdiv gd _ ty vd va b =>
    some ⟨gd, 0, vd, va, fun g _ A _ f => (quotient (isUnsigned ty) (A f) (b.lane g f), divFlag (b.lane g f))⟩
  | .vrem gd _ ty vd va b =>
    some ⟨gd, 0, vd, va, fun g _ A _ f => (remainder (isUnsigned ty) (A f) (b.lane g f), divFlag (b.lane g f))⟩
  | .vand gd _ vd va b => int2 gd vd va b fun x y => x &&& y
  | .vor gd _ vd va b => int2 gd vd va b fun x y => x ||| y
  | .vxor gd _ vd va b => int2 gd vd va b fun x y => x ^^^ y
  | .vnot gd _ vd va => int1 gd vd va fun x => ~~~x
  | .vshl gd _ vd va b => int2 gd vd va b fun x y => x <<< y.toNat
  | .vshr gd _ vd va b => int2 gd vd va b fun x y => x >>> y.toNat
  | .vshra gd _ vd va b => int2 gd vd va b fun x y => x.sshiftRight y.toNat
  | .vmin gd _ ty vd va b => int2 gd vd va b fun x y => if below (isUnsigned ty) x y then x else y
  | .vmax gd _ ty vd va b => int2 gd vd va b fun x y => if below (isUnsigned ty) x y then y else x
  | .vabs gd _ sat vd va => int1 gd vd va fun x => narrowed .i32 sat (x.toInt.natAbs : Int)
  | .vneg gd _ sat vd va => int1 gd vd va fun x => narrowed .i32 sat (-x.toInt)
  | .vclz gd _ vd va => int1 gd vd va fun x => BitVec.ofNat 32 (zerosAbove x)
  | .vpopc gd _ vd va => int1 gd vd va fun x => BitVec.ofNat 32 (ones x)
  | .vsel gd _ ix vd va vb vc => some ⟨gd, ix, vd, va, fun g _ A _ f => (if at_ g vc f ≠ 0 then A f else at_ g vb f, 0)⟩
  | .vbfx gd _ ix ty vd va vb vc =>
    some ⟨gd, ix, vd, va, fun g _ A _ f =>
      let p := fieldAt (at_ g vb f) (at_ g vc f)
      let x := (A f >>> p.1).setWidth p.2
      (match ty with | .i32 => x.signExtend 32 | .n32 => x.setWidth 32, 0)⟩
  | .vbfi gd _ ix vd va vb vc =>
    some ⟨gd, ix, vd, va, fun g _ A D f =>
      let p := fieldAt (at_ g vb f) (at_ g vc f)
      let m : Word32 := ((BitVec.allOnes p.2).setWidth 32) <<< p.1
      ((D f &&& ~~~m) ||| ((A f <<< p.1) &&& m), 0)⟩
  | _ => none

/-- Lane exchange, reductions and scans (R240 to R242). -/
def vectorLanes : Instr → Option LaneOp
  | .vperm gd _ vd va vb vc =>
    some ⟨gd, 0, vd, va, fun g _ A _ f =>
      let i := at_ g vb f
      (if i.getLsbD 5 then at_ g vc (i.toNat % 32) else A (i.toNat % 32), 0)⟩
  | .vshfl gd _ mode vd va vb =>
    some ⟨gd, 0, vd, va, fun g _ A _ f =>
      let k := (at_ g vb f).toNat % 32
      (match mode with
        | .up vc => if k ≤ f then A (f - k) else at_ g vc f
        | .down vc => if f + k < 32 then A (f + k) else at_ g vc f
        | .xor => A ((BitVec.ofNat 5 f ^^^ BitVec.ofNat 5 k).toNat)
        | .rot => A ((f + k) % 32), 0)⟩
  | .qswap gd _ m vd va => some ⟨gd, 0, vd, va, fun _ _ A _ f => (A ((BitVec.ofNat 5 f ^^^ m.setWidth 5).toNat), 0)⟩
  | .qbcast gd _ k vd va => some ⟨gd, 0, vd, va, fun _ _ A _ f => (A (f - f % 4 + k.toNat), 0)⟩
  | .vred gd _ fn ty vd va => some ⟨gd, 0, vd, va, fun _ a A _ _ => nr (treeReduce fn ty 5 (redLanes fn ty a A) 0)⟩
  | .vscan gd _ fn excl ty vd va =>
    some ⟨gd, 0, vd, va, fun _ a A _ f =>
      let t := scanFold fn ty (redLanes fn ty a A) (redIdentity fn ty) 0
      nr (if excl then (t.1.getD f (0, 0)).1 else (t.1.getD f (0, 0)).2, t.2)⟩
  | _ => none

/-- An operation of each element of a lane: one f32, or two of 16 bits (R227). -/
def elements (ty : FloatTy) (op : Nat → Nat × Nat) : Word32 × Nat :=
  match ty with
  | .f32 => nr (op 0)
  | _ => (BitVec.ofNat 32 ((op 0).1 + (op 1).1 * 2 ^ 16), Nat.lor (op 0).2 (op 1).2)

/-- A binary floating-point operation, and one of f32 with one operand. -/
def float2 (gd : Guard) (ix : Ix) (ty : FloatTy) (rnd : Rounding) (sat : Bool) (vd va vb : VReg) (f : Val → Val → Val × Nat) :
    Option LaneOp :=
  some ⟨gd, ix, vd, va, fun g _ A _ l => elements ty fun k =>
    finish ty.fmt rnd sat (f (elemOf ty (A l).toNat k) (elemOf ty (at_ g vb l).toNat k))⟩
def float1 (gd : Guard) (ix : Ix) (rnd : Rounding) (sat : Bool) (vd va : VReg) (f : Val → Val × Nat) : Option LaneOp :=
  some ⟨gd, ix, vd, va, fun _ _ A _ l => nr (finish fmtF32 rnd sat (f (fmtF32.decode (A l).toNat)))⟩

/-- Floating point, conversion, packing into one register, and dot products (R244 to R252): the exact value, rounded once. -/
def vectorFloat : Instr → Option LaneOp
  | .vfadd gd _ ix ty rnd sat vd va vb => float2 gd ix ty rnd sat vd va vb fun a b => sumVals rnd [a, b]
  | .vfsub gd _ ix ty rnd sat vd va vb => float2 gd ix ty rnd sat vd va vb fun a b => sumVals rnd [a, b.negate]
  | .vfmul gd _ ix ty rnd sat vd va vb => float2 gd ix ty rnd sat vd va vb mulVal
  | .vfma gd _ ix ty rnd sat vd va vb vc =>
    some ⟨gd, ix, vd, va, fun g _ A _ l => elements ty fun k =>
      finish ty.fmt rnd sat (fusedSum rnd (elemOf ty (at_ g vc l).toNat k)
        [(elemOf ty (A l).toNat k, elemOf ty (at_ g vb l).toNat k)])⟩
  | .vfmin gd _ ty vd va b =>
    some ⟨gd, 0, vd, va, fun g _ A _ l => elements ty fun k =>
      fminmax ty.fmt false (elemBits ty (A l).toNat k) (elemBits ty (b.lane g l).toNat k)⟩
  | .vfmax gd _ ty vd va b =>
    some ⟨gd, 0, vd, va, fun g _ A _ l => elements ty fun k =>
      fminmax ty.fmt true (elemBits ty (A l).toNat k) (elemBits ty (b.lane g l).toNat k)⟩
  | .vfabs gd _ ty vd va =>
    some ⟨gd, 0, vd, va, fun _ _ A _ l => elements ty fun k => signOp ty.fmt (fun _ => false) (elemBits ty (A l).toNat k)⟩
  | .vfneg gd _ ty vd va =>
    some ⟨gd, 0, vd, va, fun _ _ A _ l => elements ty fun k => signOp ty.fmt (fun n => !n) (elemBits ty (A l).toNat k)⟩
  | .vfrcp gd _ ix rnd sat vd va => float1 gd ix rnd sat vd va (divVal (.num false 1 0))
  | .vfrsq gd _ ix rnd sat vd va => float1 gd ix rnd sat vd va rsqrtVal
  | .vfsqrt gd _ ix rnd sat vd va => float1 gd ix rnd sat vd va sqrtVal
  | .vfdiv gd _ ix rnd sat vd va vb => float2 gd ix .f32 rnd sat vd va vb divVal
  | .vfexp2 gd _ ix rnd sat vd va => float1 gd ix rnd sat vd va exp2Val
  | .vflog2 gd _ ix rnd sat vd va => float1 gd ix rnd sat vd va log2Val
  | .vfscl gd _ ix rnd sat vd va vb =>
    some ⟨gd, ix, vd, va, fun g _ A _ l =>
      nr (finish fmtF32 rnd sat (sclVal (at_ g vb l).toInt (fmtF32.decode (A l).toNat)))⟩
  | .vfexpo gd _ vd va => some ⟨gd, 0, vd, va, fun _ _ A _ f => nr (expoOf (A f).toNat)⟩
  | .vfclass gd _ ty vd va => some ⟨gd, 0, vd, va, fun _ _ A _ f => (BitVec.ofNat 32 (classOf ty.fmt (A f).toNat), 0)⟩
  | .vcvt gd _ ix src dst rnd sat vd va => some ⟨gd, ix, vd, va, fun _ _ A _ f => nr (convert src dst rnd sat (A f).toNat)⟩
  | .vpack2 gd _ ty rnd sat vd va vb =>
    some ⟨gd, 0, vd, va, fun g _ A _ f =>
      let lo := convert .f32 (HalfTy.elem ty) rnd sat (A f).toNat
      let hi := convert .f32 (HalfTy.elem ty) rnd sat (at_ g vb f).toNat
      (BitVec.ofNat 32 (hi.1 * 2 ^ 16 + lo.1), Nat.lor lo.2 hi.2)⟩
  | .vqpack gd _ rnd vd va =>
    some ⟨gd, 0, vd, va, fun _ a A _ f =>
      let r := qPack rnd ((List.range 32).map fun i => if a.getLsbD i then fmtF32.decode (A i).toNat else .num false 0 0)
      nr (r.1.getD f 0, r.2)⟩
  | .vqunpk gd _ vd va =>
    some ⟨gd, 0, vd, va, fun _ _ A _ f =>
      nr ((roundTo fmtF32 .rne false (qf4Val (((A (f / 8)).toNat / 16 ^ (f % 8)) % 16) ((A 4).toNat % 256))).1, 0)⟩
  | .vdot2 gd _ ty rnd sat vd va vb vc =>
    some ⟨gd, 0, vd, va, fun g _ A _ f => nr (dotLane ty.fmt 2 rnd sat (A f).toNat (at_ g vb f).toNat (at_ g vc f).toNat)⟩
  | .vdot4 gd _ ty rnd sat vd va vb vc =>
    some ⟨gd, 0, vd, va, fun g _ A _ f => nr (dotLane ty.fmt 4 rnd sat (A f).toNat (at_ g vb f).toNat (at_ g vc f).toNat)⟩
  | _ => none

/-- The registers after a vector instruction with one destination, of group `g` once its registers have been read, for some of
its fibres: the value in their lanes of the register that each names, the prior contents in other live lanes, zero in lanes
that hold no live fibre (R80, R62). -/
def VectorLanes (o : LaneOp) (g : Group) (a : BitVec 32) (h : Group) : Prop :=
  let A := fun f => if g.live.getLsbD f then (g.rdV (g.srcReg o.ix o.va f)).lane f else 0
  let D := fun f => (g.rdV (g.dstReg o.ix o.vd f)).lane f
  (∀ n f, f < 32 →
    (h.rdV n).lane f =
      if a.getLsbD f = true ∧ g.dstReg o.ix o.vd f = n then (o.val g a A D f).1
      else if !g.live.getLsbD f && (lanesOf a).any fun e => g.dstReg o.ix o.vd e == n then 0
      else (g.rdV n).lane f)

/-- The sticky flags that the lanes of some fibres raise. -/
def laneFlags (o : LaneOp) (g : Group) (a : BitVec 32) : Word64 :=
  let A := fun f => if g.live.getLsbD f then (g.rdV (g.srcReg o.ix o.va f)).lane f else 0
  let D := fun f => (g.rdV (g.dstReg o.ix o.vd f)).lane f
  BitVec.ofNat 64 ((lanesOf a).foldl (fun x f => Nat.lor x (o.val g a A D f).2) 0)

/-- The result of a vector instruction with one destination: its lanes; the sticky flags of its lanes, or on a hit of the
blotter those that it recorded (R73); nothing else of the group but its program counters. -/
def VectorDone (i : Instr) (o : LaneOp) (s : State) (u : Issue) (g : Group) (t : State) (h : Group) : Prop :=
  VectorLanes o g (g.active u.mask o.gd) h ∧
  h = { moved g u i.len with v := h.v, map := h.map, sys := { g.sys with fstat := h.sys.fstat } } ∧
  (∃ fl, h.sys.fstat = g.sys.fstat ||| fl) ∧
  ((∀ b, b ∈ (s.core g.core).blot → b.2.ctx ≠ g.ctx) →
    h.sys.fstat = g.sys.fstat ||| laneFlags o g (g.active u.mask o.gd)) ∧
  VectorFrame s u g (destRegs g o.ix o.vd (g.active u.mask o.gd)) t

/-- A vector instruction with a range of destinations (R228, R249): its first register, how many, and the value and flags of
lane `f` of register `k`. -/
structure RangeOp where
  gd  : Guard
  vd  : VReg
  n   : Nat
  val : Group → Nat → Nat → Word32 × Nat

def vectorRange : Instr → Option RangeOp
  | .vmov gd _ _ more vd va =>
    if more = 0 then none else some ⟨gd, vd, more.toNat + 1, fun g k f => ((g.rdV (va.toNat + k)).lane f, 0)⟩
  | .vunpack2 gd _ ty vd va =>
    some ⟨gd, vd, 2, fun g k f => nr (convert (HalfTy.elem ty) .f32 .rne false ((at_ g va f).toNat / 2 ^ (16 * k) % 2 ^ 16))⟩
  | .vpack4 gd _ ty rnd sat vd va =>
    some ⟨gd, vd, 1, fun g _ f =>
      let c := fun j => convert .f32 (Fp8Ty.elem ty) rnd sat ((g.rdV (va.toNat + j)).lane f).toNat
      (BitVec.ofNat 32 ((c 0).1 + (c 1).1 * 2 ^ 8 + (c 2).1 * 2 ^ 16 + (c 3).1 * 2 ^ 24),
       Nat.lor (Nat.lor (Nat.lor (c 0).2 (c 1).2) (c 2).2) (c 3).2)⟩
  | .vunpack4 gd _ ty vd va =>
    some ⟨gd, vd, 4, fun g k f => nr (convert (Fp8Ty.elem ty) .f32 .rne false ((at_ g va f).toNat / 2 ^ (8 * k) % 2 ^ 8))⟩
  | _ => none

/-- A lane after a result in a plain destination (R80). -/
def lanesAfter (g : Group) (a : BitVec 32) (prior : Nat → Word32) (val : Nat → Word32) (f : Nat) : Word32 :=
  if a.getLsbD f then val f else if g.live.getLsbD f then prior f else 0

/-- The vector predicate that an instruction writes, with the value and flags of lane `f` (R221, R238, R239, R246). -/
def vectorPredicate (g : Group) : Instr → Option (Guard × PReg × (Nat → Bool × Nat))
  | .vcmp gd _ c ty pd va b => some (gd, pd, fun f => (holds c (isUnsigned ty) (at_ g va f) (b.lane g f), 0))
  | .vplog gd _ t pd pa pb =>
    some (gd, pd, fun f =>
      (t.getLsbD ((if (g.rdP pa).getLsbD f then 2 else 0) + (if (g.rdP pb).getLsbD f then 1 else 0)), 0))
  | .vfcmp gd _ c pd va b => some (gd, pd, fun f => fcmp c (fmtF32.decode (at_ g va f).toNat) (fmtF32.decode (b.lane g f).toNat))
  | _ => none

/-! ## Memory -/

/-- `n` bytes from a key hold a number, and every other byte is as before. -/
def Stored (s t : State) (key n v : Nat) : Prop :=
  t.readNat key n = v % 2 ^ (8 * n) ∧ ∀ a, a < key ∨ key + n ≤ a → t.readByte a = s.readByte a

/-- A loaded number in a uniform register, and word `k` of it in a lane (R182). -/
def loaded (sz : Size) (x : Nat) : Word64 :=
  match sz with
  | .i8 => (BitVec.ofNat 8 x).signExtend 64 | .i16 => (BitVec.ofNat 16 x).signExtend 64 | _ => BitVec.ofNat 64 x
def loadedLane (sz : Size) (x k : Nat) : Word32 :=
  match sz with
  | .i8 => (BitVec.ofNat 8 x).signExtend 32 | .i16 => (BitVec.ofNat 16 x).signExtend 32
  | _ => BitVec.ofNat 32 (x / 2 ^ (32 * k))

/-- NewValue (R187), on `w`-bit values. -/
def atomNew {w : Nat} (fn : AtomFn) (old a b : BitVec w) : BitVec w :=
  match fn with
  | .add => old + a | .and => old &&& a | .or => old ||| a | .xor => old ^^^ a
  | .min => if old.slt a then old else a | .max => if old.slt a then a else old
  | .umin => if old.ult a then old else a | .umax => if old.ult a then a else old
  | .xchg => a | .cas => if old = a then b else old
  | .fadd => BitVec.ofNat w (roundF32 .rne (sumVals .rne [fmtF32.decode old.toNat, fmtF32.decode a.toNat]).1).1

/-- The address of a scalar access, and that of lane `f` of a vector access (R180). -/
def address {w : Nat} (g : Group) (base : SReg) (off : BitVec w) : Nat := (g.rdS base + off.setWidth 64).toNat
def laneAddr (g : Group) (base : SReg) (vo : Option VReg) (off : BitVec 24) (f : Nat) : Nat :=
  (g.rdS base + off.setWidth 64 + (match vo with | none => 0 | some r => (at_ g r f).setWidth 64)).toNat

/-- Fibres that access memory in a store: active and no helpers (R32, R185). -/
def storing (g : Group) (u : Issue) (gd : Guard) : BitVec 32 := g.active u.mask gd &&& ~~~g.helpers

/-- The flags of an atomic: those of .fadd. -/
def atomFlags (fn : AtomFn) (old a : Nat) : Nat :=
  match fn with
  | .fadd =>
    let r := sumVals .rne [fmtF32.decode old, fmtF32.decode a]
    Nat.lor r.2 (roundF32 .rne r.1).2
  | _ => 0

/-- A group and nothing but its map and program counters after a vector store. -/
def OnlyMap (g h : Group) (u : Issue) (n : Nat) : Prop := h = { moved g u n with map := h.map }

/-- Every live fibre of every group of a cohort that counts has arrived (R192). -/
def AllArrived (s : State) (c : Cohort) (arrived : Tbl (BitVec 32)) : Prop :=
  (∀ n q, n ∈ c.groups → s.group? n = some q → q.phase ≠ .dead → q.phase ≠ .ending →
    ∀ f, f < 32 → q.live.getLsbD f = true → (arrived.read 0 q.index).getLsbD f = true) ∧
  ∃ n q, n ∈ c.groups ∧ s.group? n = some q ∧ q.phase ≠ .dead ∧ q.phase ≠ .ending ∧ q.live ≠ 0

/-- The arrived bits of a cohort after a stroke has arrived. -/
def arrivedWith (c : Cohort) (g : Group) (m : BitVec 32) : Tbl (BitVec 32) :=
  c.arrived.put g.index (c.arrived.read 0 g.index ||| m)

/-! ## Work -/

/-- Work has entered in flight under the next number, its status register waits, the stroke has gone on, and every register
is as it was (R78, R256). -/
def Entered (s : State) (u : Issue) (g : Group) (sd : SReg) (len : Nat) (w : Work) (t : State) : Prop :=
  t.op? s.nextOp = some { ctx := g.ctx, gid := some u.gid, sd := some sd, work := w } ∧ t.nextOp = s.nextOp + 1 ∧
  (∃ h, t.group? u.gid = some h ∧ h.pending.get? sd.toNat = some s.nextOp ∧ h.s = g.s ∧ h.v = g.v ∧ h.p = g.p ∧ h.sp = g.sp
    ∧ h.x = g.x ∧ h.sys = g.sys ∧ (∀ f, f < 32 → u.mask.getLsbD f = true → (h.fibre f).pc = u.pc + BitVec.ofNat 64 len)) ∧
  (∀ n, n ≠ u.gid → t.group? n = s.group? n) ∧
  t = { s with
    groups := t.groups, ops := t.ops, nextOp := t.nextOp, locks := t.locks, holders := t.holders, contexts := t.contexts }

/-- Every range of some on-chip ranges lies within its memory (R158). -/
def InBounds (s : State) (gid : Nat) (g : Group) (rs : List (Space × Nat × Nat)) : Prop :=
  ∀ r, r ∈ rs → ∃ key, s.resolve gid g r.1 r.2.1 r.2.2 = .ok key

/-- A range of an operation and the lock that holds it: a virtual address, or a place and an offset with a lock over every
byte (R176, R177). -/
def Ranged (s t : State) (u : Issue) (g : Group) (cs : CopySpace) (A n : Nat) (kind : LockKind) (r : Machine.Range) : Prop :=
  (cs = .vm → r = .vm A) ∧
  ∀ ms key, cs.chip? = some ms → s.resolve u.gid g ms A n = .ok key → r = .chip (placeOf key) (key - placeOf key) ∧
    (n ≠ 0 → ∃ l, l ∈ t.locks ∧ l.owner = .op s.nextOp ∧ l.kind = kind ∧ l.place + 32 * l.first ≤ key ∧
      key + n ≤ l.place + 32 * (l.last + 1))

/-- No lock that stands in a table covers a byte of some on-chip ranges, and every lock table has room for them (R176 to R178). -/
def Unlocked (s : State) (gid : Nat) (g : Group) (rs : List (Space × Nat × Nat)) : Prop :=
  (∀ r key, r ∈ rs → s.resolve gid g r.1 r.2.1 r.2.2 = .ok key → ∀ l, l ∈ s.locks → l.core ≠ noCore → l.covers key r.2.2 = false) ∧
  ∀ c, s.tableUse c + rs.length ≤ 64

/-- A flag word lies in another package's window (R381). -/
def flagFar (pkg : Nat) (flag : Option (Nat × Word64)) : Bool := flag.any fun f => f.1 / 2 ^ 40 % 256 != pkg % 256

/-- The failure that a copy finds after issue: BAD_LENGTH, then BAD_ADDRESS (R258, R267, R381). -/
def lateFailure (pkg L : Nat) (rs : List (CopySpace × Nat)) (flag : Option (Nat × Word64)) : Option Nat :=
  if 2 ^ 32 ≤ L then some 0x16
  else if L ≠ 0 ∧ (∃ r, r ∈ rs ∧
      ((r.1 = .vm ∧ (2 ^ 56 ≤ r.2 ∨ 2 ^ 56 < r.2 + L)) ∨ (r.1 = .sp ∧ r.2 / 2 ^ 40 % 256 ≠ pkg % 256))) ∨ flagFar pkg flag = true
    then some 0x14
  else none

/-- A name operation is on its way with its issuer and the issuer's launch: sd and the register after it wait (R78, R302,
R312). -/
def Sent (s : State) (u : Issue) (g : Group) (sd target : SReg) (act : NameAct) (t : State) : Prop :=
  Entered s u g sd 8 (.name { issuer := g.name, launch := s.launchNum g, target := g.rdS target, act := act }) t ∧
  ∃ h, t.group? u.gid = some h ∧ h.pending.get? (sd + 1).toNat = some s.nextOp

/-- The handler is entered by a set of fibres (R351): the saved registers, the mode and the program counters. -/
def Handling (s : State) (u : Issue) (g : Group) (m : BitVec 32) (cause : Byte) (xpc xaddr : Word64) (t : State) : Prop :=
  ∃ h, t = { s with groups := s.groups.put u.gid h } ∧
    h = { g with fibres := h.fibres, sys := h.sys } ∧
    h.sys = { g.sys with
      xpc := xpc, xcause := cause.setWidth 64, xaddr := xaddr
      xstat := m.setWidth 64 ||| (if (lanesOf m).any fun f => (g.fibre f).priv then 0x100000000 else 0) } ∧
    (∀ f, f < 32 → m.getLsbD f = true →
      (h.fibre f).pc = s.xvec g.ctx ∧ (h.fibre f).priv = true ∧ (h.fibre f).inTrap = true ∧ (h.fibre f).wait = .none
        ∧ (h.fibre f).ended = (g.fibre f).ended ∧ (h.fibre f).kind = (g.fibre f).kind) ∧
    (∀ f, f < 32 → m.getLsbD f = false → u.mask.getLsbD f = false → h.fibre f = g.fibre f) ∧
    (∀ f, f < 32 → m.getLsbD f = false → u.mask.getLsbD f = true →
      h.fibre f = { g.fibre f with stroke := (h.fibre f).stroke })

/-- A group with no handler running, whose context has a handler (R351 to R353). -/
def CanTrap (s : State) (g : Group) : Prop := s.xvec g.ctx ≠ 0 ∧ g.trapMask = 0

/-- Some fibres of a stroke have failed and entered the handler as one stroke, with the lowest one's cause and address; the
others have gone on `len` bytes, and with none that failed nothing else has happened to the group's fibres (R183, R351). -/
def Went (s : State) (u : Issue) (g : Group) (bad : BitVec 32) (cause : Byte) (xaddr : Word64) (len : Nat) (h : Group) : Prop :=
  (bad = 0 → h.fibres = (moved g u len).fibres ∧ { h.sys with fstat := g.sys.fstat } = g.sys) ∧
  (bad ≠ 0 →
    { h.sys with fstat := g.sys.fstat } = { g.sys with
      xpc := u.pc, xcause := cause.setWidth 64, xaddr := xaddr
      xstat := bad.setWidth 64 ||| (if (lanesOf bad).any fun f => (g.fibre f).priv then 0x100000000 else 0) } ∧
    ∀ f, f < 32 →
      (bad.getLsbD f = true →
        (h.fibre f).pc = s.xvec g.ctx ∧ (h.fibre f).priv = true ∧ (h.fibre f).inTrap = true ∧ (h.fibre f).wait = .none) ∧
      (bad.getLsbD f = false → u.mask.getLsbD f = true →
        h.fibre f = { g.fibre f with pc := u.pc + BitVec.ofNat 64 len, stroke := (h.fibre f).stroke }) ∧
      (bad.getLsbD f = false → u.mask.getLsbD f = false → h.fibre f = g.fibre f))

/-- What fails an access of `n` bytes, in this order (R158, R177, R178, R183): a byte outside its memory, a misaligned atomic
or wait, a range lock (of any kind against a write, a write lock against a read). A lock of a cohort that is stopped stands in no
table and is not met, which is the model's reading (log 28). -/
def accessFault (s : State) (gid : Nat) (g : Group) (ms : Space) (A n : Nat) (aligned writes : Bool) : Option Byte :=
  match s.resolve gid g ms A n with
  | .error _ => some (match ms with | .stk => 0x11 | .sp => 0x21 | .sh => 0x23 | .cl => 0x23)
  | .ok key =>
    if aligned = true ∧ A % n ≠ 0 then some 0x22
    else if ∃ l, l ∈ s.locks ∧ l.core ≠ noCore ∧ (writes = true ∨ l.kind = .write) ∧ l.place + 32 * l.first < key + n
        ∧ key < l.place + 32 * (l.last + 1) then some 0x20
    else none

/-- Fibres of a set whose accesses fail, and those that act. -/
def failing (m : BitVec 32) (fault : Nat → Option Byte) : BitVec 32 := maskOf fun f => m.getLsbD f && (fault f).isSome
def passing (m : BitVec 32) (fault : Nat → Option Byte) : BitVec 32 := maskOf fun f => m.getLsbD f && (fault f).isNone

/-- The key of the first byte of an access that is in its memory. -/
def keyAt (s : State) (gid : Nat) (g : Group) (ms : Space) (A n : Nat) : Nat :=
  match s.resolve gid g ms A n with | .ok k => k | .error _ => 0

/-- A scalar access to memory (R180, R182, R185, R187, R191, R195, R196): its space, base and offset, how many bytes, whether they
are aligned, whether it writes, and whether helpers alone leave it out (R32). -/
structure ScalarAccess where
  gd      : Guard
  ms      : Space
  base    : SReg
  off     : Word32
  n       : Nat
  aligned : Bool
  writes  : Bool
  skips   : Bool

def cbAccessOf (gd : Guard) (cl : Bool) (base : SReg) (off : Word32) (writes skips : Bool) : Option ScalarAccess :=
  some ⟨gd, if cl then .cl else .sh, base, off, 32, true, writes, skips⟩

def scalarAccess : Instr → Option ScalarAccess
  | .sld gd ms sz _ _ base off => some ⟨gd, ms, base, off.setWidth 32, sz.bytes, false, false, false⟩
  | .sst gd ms sz _ _ base off => some ⟨gd, ms, base, off.setWidth 32, sz.bytes, false, true, true⟩
  | .satom gd _ _ ms b64 _ _ base off => some ⟨gd, ms.space, base, off.setWidth 32, if b64 then 8 else 4, true, true, true⟩
  | .waitw gd _ ms b64 base _ _ _ _ off => some ⟨gd, ms.space, base, off, if b64 then 8 else 4, true, false, false⟩
  | .cbinit gd cl base _ _ off => cbAccessOf gd cl base off true true
  | .cbexpect gd _ _ cl base _ off => cbAccessOf gd cl base off true true
  | .cbarrive gd _ _ cl base _ off => cbAccessOf gd cl base off true true
  | .cbwait gd _ cl base _ off => cbAccessOf gd cl base off true false
  | .cbtest gd _ cl _ _ base _ off => cbAccessOf gd cl base off false false
  | _ => none

end Sys2Proof.Claim

open Sys2Proof Sys2Proof.Machine Sys2Proof.Machine.State Sys2Proof.Claim

/-! # Encodings and steps -/

/-- R83 to R103: worked words of the spec decode to the instructions they stand for. -/
def Obligations.WorkedWordsDecode : Prop :=
  decodeTableWord 64 0x2FBC = some (.nop ⟨15, false⟩) ∧
  decodeTableWord 96 0x00000028000600800864818D = some (.vfma ⟨3, false⟩ false 0 .f32 .rtz false 100 1 2 3) ∧
  decodeTableWord 64 0x0001FFFFFFD820D4 = some (.vbr ⟨5, true⟩ .likely 0xFFFFFFD8) ∧
  decodeTableWord 64 0x00000101420303BC = some (.sdiv ⟨15, false⟩ true 3 4 (.reg 5)) ∧
  decodeTableWord 64 0xFFFF10400101093C = some (.scmp ⟨15, false⟩ .lt false 1 2 (.imm 0xFFFF))

/-- Decoding is right on both sides: every well-formed instruction, encoded at any place of a fetch block that can hold it
(R84), decodes to itself with its length, whatever stands around it. -/
def Obligations.DecodeEncode : Prop :=
  ∀ (i : Instr) (before after : List Byte), i.wellFormed = true → before.length + i.len ≤ 32 →
    before.length % 4 = 0 → before.length + i.len + after.length = 32 →
    decodeAt (before ++ toBytes i.len (encode i).2 ++ after) before.length = .ok (i, i.len)

/-- What the decoder answers for reserved lengths, instructions that cross their fetch block, and opcodes that the map does
not assign: ILLEGAL_ENCODING, FETCH_ALIGN, ILLEGAL_OPCODE, in this order (R84, R90, R98, R101). -/
def Obligations.DecodeCauses : Prop :=
  ∀ (block : List Byte) (o : Nat),
    (field (ofBytes ((block.drop o).take 2)) 0 2 = 3 → decodeAt block o = .error .illegalEncoding) ∧
    (∀ n, lenOf (field (ofBytes ((block.drop o).take 2)) 0 2) = some n → 32 < o + n → decodeAt block o = .error .fetchAlign) ∧
    (∀ n, lenOf (field (ofBytes ((block.drop o).take 2)) 0 2) = some n → o + n ≤ 32 →
      rowOf (field (ofBytes ((block.drop o).take 2)) 7 9) = none → decodeAt block o = .error .illegalOpcode)

/-- A step runs the decoded instruction: with no input due, no move of the machine's own, and a ready stroke first in the
order of R35 whose fetch decodes to a well-formed instruction that waits on nothing, the step is `exec` of it, after what an
issue itself changes (`prepare`: the stroke issues, and its counters and run take it in). -/
def Obligations.StepRunsDecoded : Prop :=
  ∀ (s t : State) (k : Nat) (ks : List Nat) (c : Choice) (cs : List Choice) (g : Group) (i : Instr) (pa n : Nat),
    s.agenda = [] → s.booted = true → s.firstMove = none →
    s.schedulersLeft = k :: ks → s.choices k = c :: cs → s.group? c.gid = some g →
    s.replays c.g.ctx (pkgOf c.g.core) = false → s.breakMask c.issue g = 0 →
    ((s.scroll g.ctx (pkgOf g.core)).full = false ∨ (s.scroll g.ctx (pkgOf g.core)).mode ≠ 1) →
    s.walk g.ctx (pkgOf g.core) .fetch (c.issue.pc.toNat / 32 * 32) = .ok pa →
    decodeAt (s.readPage g.ctx pa 32) (c.issue.pc.toNat % 32) = .ok (i, n) → i.wellFormed = true →
    waitsFor g i (g.active c.issue.mask i.guard) = false →
    exec i (s.prepare c.issue g) = .next t → t.clash? = none → t.onTime = true → t.waitsUnit c.issue = false →
    step s = exec i (s.prepare c.issue g)

/-- Every step keeps memory in its one canonical form: strictly rising addresses, no byte listed that an unlisted one would
read as. -/
def Obligations.StepKeepsMemoryForm : Prop := ∀ s t : State, Safety.Inv s → step s = .next t → Safety.Inv t

/-- After package reset memory has that form, no context exists, every island's clock is at its highest, TIMEBASE is zero and
the package has not booted (R357, R398, R401). -/
def Obligations.ResetState : Prop :=
  Safety.Inv State.reset ∧ (∀ c, State.reset.context? c = none) ∧ (∀ i, (State.reset.island i).clock = 1050) ∧
    State.reset.timebase = 0 ∧ State.reset.booted = false ∧ Sys2Proof.core.reset = State.reset

/-! # Scalar instructions -/

/-- The integer, move and bit-field instructions of the uniform file: the destination takes the value of R128 to R136, the
sticky flag DZ is set by a division by zero, the stroke moves on, and nothing else changes. -/
def Obligations.ScalarResult : Prop :=
  ∀ (i : Instr) (gd : Guard) (sd : SReg) (v : Word64) (fl : Nat) (s : State) (u : Issue) (g : Group),
    scalar g i = some (gd, sd, v, fl) → Executes i gd s u g →
    ∃ t, exec i s = .next t ∧ Only s u g (moved ((g.orFlags fl).wrS sd v) u i.len) t

/-- R130: SDIV and SREM of every pair of operands: the exact quotient, truncated toward zero and taken modulo 2^64, and its
remainder; by zero all ones and the dividend, with DZ set. No other scalar integer instruction sets a flag. -/
def Obligations.ScalarDivision : Prop :=
  (∀ (gd : Guard) (uns : Bool) (sd sa : SReg) (b : SOp) (s : State) (u : Issue) (g : Group),
    let x := g.rdS sa
    let y := b.value g uns
    let dz := if y = 0 then g.sys.fstat ||| 8 else g.sys.fstat
    (Executes (.sdiv gd uns sd sa b) gd s u g →
      ∃ t h, exec (.sdiv gd uns sd sa b) s = .next t ∧ t.group? u.gid = some h ∧ h.sys.fstat = dz ∧
        h.rdS sd = (if y = 0 then 0xFFFFFFFFFFFFFFFF else if uns then BitVec.ofNat 64 (x.toNat / y.toNat)
          else BitVec.ofInt 64 (x.toInt.tdiv y.toInt))) ∧
    (Executes (.srem gd uns sd sa b) gd s u g →
      ∃ t h, exec (.srem gd uns sd sa b) s = .next t ∧ t.group? u.gid = some h ∧ h.sys.fstat = dz ∧
        h.rdS sd = (if y = 0 then x else if uns then BitVec.ofNat 64 (x.toNat % y.toNat)
          else BitVec.ofInt 64 (x.toInt - y.toInt * x.toInt.tdiv y.toInt)))) ∧
  (∀ (i : Instr) (gd : Guard) (s : State) (u : Issue) (g : Group),
    (∃ sd v fl, scalar g i = some (gd, sd, v, fl)) ∨ (∃ c uns k sa b, i = .scmp gd c uns k sa b) ∨
      (∃ t k p q, i = .splog gd t k p q) ∨ (∃ sa, i = .smovSetp gd sa) → Executes i gd s u g →
    (∀ uns sd sa b, i ≠ .sdiv gd uns sd sa b ∧ i ≠ .srem gd uns sd sa b) →
    ∃ t h, exec i s = .next t ∧ t.group? u.gid = some h ∧ h.sys.fstat = g.sys.fstat)

/-- Scalar floating point and conversion: the exact result rounded once, its flags, and nothing else (R137, R138, R141). -/
def Obligations.ScalarFloatResult : Prop :=
  ∀ (i : Instr) (gd : Guard) (sd : SReg) (v : Word64) (fl : Nat) (s : State) (u : Issue) (g : Group),
    scalarFloat g i = some (gd, sd, v, fl) → Executes i gd s u g →
    ∃ t, exec i s = .next t ∧ Only s u g (moved ((g.orFlags fl).wrS sd v) u i.len) t

/-- Scalar comparisons and predicate logic write one uniform predicate and nothing else (R131, R134, R140); SMOV.setp writes
all eight (R132). -/
def Obligations.ScalarPredicates : Prop :=
  (∀ (i : Instr) (gd : Guard) (k : UPred) (b : Bool) (fl : Nat) (s : State) (u : Issue) (g : Group),
    predicate g i = some (gd, k, b, fl) → Executes i gd s u g →
    ∃ t, exec i s = .next t ∧ Only s u g (moved ((g.orFlags fl).wrSp k b) u i.len) t) ∧
  (∀ (gd : Guard) (sa : SReg) (s : State) (u : Issue) (g : Group), Executes (.smovSetp gd sa) gd s u g →
    ∃ t, exec (.smovSetp gd sa) s = .next t ∧ Only s u g (moved { g with sp := (g.rdS sa).setWidth 8 } u 8) t)

/-- The register files: a written register holds what was written, all others keep their values, and the uniform predicates
are the eight bits of one register (R52). -/
def Sys2Proof.Claim.Files : Prop :=
  ∀ (g : Group),
    (∀ (n m : SReg) (v : Word64), (g.wrS n v).rdS m = if m = n then v else g.rdS m) ∧
    (∀ (n m : Nat) (v : Lanes 32), (g.wrV n v).rdV m = if m = n then v else g.rdV m) ∧
    (∀ (n m : PReg) (v : BitVec 32), (g.wrP n v).rdP m = if m = n then v else g.rdP m) ∧
    (∀ (n m : XReg) (v : Lanes 16), (g.wrX n v).rdX m = if m = n then v else g.rdX m) ∧
    (∀ (n m : UPred) (b : Bool), (g.wrSp n b).rdSp m = if m = n then b else g.rdSp m)

/-- A vector register that is read (R55, R67): one with a map slot is as it is; one without takes the 128 bytes of its line in
the group's image and maps it, clean; a line that does not translate fills nothing. Reading some registers changes nothing of
the group but registers and map slots, and of memory the lines of the dirty registers that it evicts. -/
def Sys2Proof.Claim.Fills : Prop :=
  ∀ (s : State) (gid n : Nat) (g : Group), s.group? gid = some g →
    (∀ m, g.map.get? n = some m → ∃ t, s.fill gid n = (t, none) ∧ t = { s with cores := t.cores }) ∧
    (g.map.get? n = none →
      (∀ pa, s.walk g.ctx (pkgOf g.core) .imageRead (g.image + 0x1000 + 128 * n) = .ok pa →
        (g.image + 0x1000 + 128 * n) % 65536 + 128 ≤ 65536 →
        ∃ t h m, s.fill gid n = (t, none) ∧ t.group? gid = some h ∧ h.map.get? n = some m ∧ m.dirty = false ∧
          (∀ f, f < 32 → (h.rdV n).lane f = BitVec.ofNat 32 (ofBytes (s.readPage g.ctx (pa + 4 * f) 4))) ∧
          ∀ k, k ≠ n → h.rdV k = g.rdV k) ∧
      ((∀ pa, s.walk g.ctx (pkgOf g.core) .imageRead (g.image + 0x1000 + 128 * n) ≠ .ok pa) →
        (g.image + 0x1000 + 128 * n) % 65536 + 128 ≤ 65536 → s.fill gid n = (s, some (g.image + 0x1000 + 128 * n)))) ∧
    (∀ ns t h u, u.gid = gid → s.fillAll gid ns = (t, none) → t.group? gid = some h →
      h = { g with v := h.v, map := h.map } ∧ VectorFrame s u g [] t)

/-- An instruction that reads a register whose line does not translate ends its context with CONTEXT_IMAGE_FAULT (R55). -/
def Sys2Proof.Claim.FillFault : Prop :=
  ∀ (i : Instr) (o : LaneOp) (s s1 : State) (u : Issue) (g : Group) (va : Nat),
    vectorInt i = some o ∨ vectorLanes i = some o ∨ vectorFloat i = some o → Executes i o.gd s u g →
    s.fillAll u.gid (vectorReads i g o.ix o.vd o.va
      (g.active u.mask o.gd &&& ~~~(g.indexBad o.ix o.vd o.va (g.active u.mask o.gd)))) = (s1, some va) →
    ∃ t, exec i s = .next t ∧ EndedWith s g.ctx 0x82 t

/-- Registers and how they are read (R52, R55, R67). -/
def Obligations.RegisterFiles : Prop := Claim.Files ∧ Claim.Fills ∧ Claim.FillFault

/-! # Every instruction -/

/-- The instructions whose privilege check comes before their guard (R100, R101). -/
def Sys2Proof.Claim.needsPrivilege : Instr → Bool
  | .xret _ => true | .fretry _ _ _ => true | .fretryExhaust _ _ _ => true | .fretryFatal _ _ _ => true
  | _ => false

/-- An instruction with no active fibre does nothing but move its stroke on, unless it is one whose privilege check comes
first (R89, R101). That a SYSRD or SYSWR of a privileged register in user mode is none of these, and does nothing, is the model's
choice (log 36). -/
def Sys2Proof.Claim.Unguarded : Prop :=
  ∀ (i : Instr) (gd : Guard) (s : State) (u : Issue) (g : Group), guardOf i = some gd → Issues s u g →
    i.inBudget g.budget = true → g.active u.mask gd = 0 → (needsPrivilege i = true → privilegedAt g u.mask = true) →
    exec i s = .next { s with groups := s.groups.put u.gid (moved g u i.len) }

/-- The scalar instructions that a stroke of helpers alone suppresses: stores, atomics, copies, name operations, ring commits,
TDONE's bit, requests to the distributor, service posts, changes of count barriers, and the moves of tiles to memory and to other
packages (R32, R196, R254, R310, R326, R328, R334, R389). -/
def Sys2Proof.Claim.suppressed : Instr → Bool
  | .sst _ _ _ _ _ _ _ => true | .satom _ _ _ _ _ _ _ _ _ => true
  | .cpy _ _ _ _ _ _ _ _ _ _ => true | .cpyt _ _ _ _ _ _ _ _ _ _ => true | .cpym _ _ _ _ _ _ _ _ => true
  | .nwake _ _ _ => true | .nsignal _ _ _ _ => true | .nsignalKill _ _ _ => true | .ndeposit _ _ _ _ _ => true | .njoin _ _ _ _ _ => true
  | .rgcommit _ _ _ _ _ _ => true | .tdone _ => true | .wdnext _ _ => true | .evpost _ _ _ _ _ _ => true
  | .cbinit _ _ _ _ _ _ => true | .cbexpect _ _ _ _ _ _ _ => true | .cbarrive _ _ _ _ _ _ _ => true
  | .tsend _ _ _ _ _ _ => true | .trecv _ _ _ _ _ _ => true | .mstacc _ _ _ _ _ _ _ _ => true
  | _ => false

/-- In a stroke whose active fibres are all helpers such an instruction does nothing but move the stroke on (R32); TSPAWN of such a
stroke, which reads vector registers, and RGREL, which acts, stand with their own. That an MSTACC is among them is the model's
reading (log 24). -/
def Sys2Proof.Claim.HelpersOnly : Prop :=
  ∀ (i : Instr) (gd : Guard) (s : State) (u : Issue) (g : Group), guardOf i = some gd → Executes i gd s u g →
    g.helperOnly (g.active u.mask gd) = true → suppressed i = true →
    exec i s = .next { s with groups := s.groups.put u.gid (moved g u i.len) }

/-- Instructions with no effect: with no active fibre (R89), or in a stroke of helpers alone (R32). -/
def Obligations.NoActiveFibre : Prop := Claim.Unguarded ∧ Claim.HelpersOnly

/-- An instruction that names a vector register at or beyond the budget raises ILLEGAL_OPERAND in the whole stroke, whatever
its guard (R53, R102). That XSTAT.BPSKIP is 0 after the trap is the model's choice (log 42). -/
def Obligations.IllegalOperand : Prop :=
  ∀ (i : Instr) (gd : Guard) (s : State) (u : Issue) (g : Group), guardOf i = some gd → Issues s u g →
    i.inBudget g.budget = false → CanTrap s g →
    ∃ t, exec i s = .next t ∧ Handling s u g u.mask 0x03 u.pc 0 t

/-! # Control -/

/-- Branches and jumps whose guard is true: the whole stroke goes to the target; CALL leaves the return address in s127
(R143, R145). -/
def Sys2Proof.Claim.UniformTransfers : Prop :=
  ∀ (i : Instr) (gd : Guard) (off : Word32) (s : State) (u : Issue) (g : Group), Executes i gd s u g →
    (((∃ h, i = .br gd h off) ∨ (∃ h, i = .jmp gd h off)) →
      ∃ t, exec i s = .next t ∧ Only s u g (g.setPc u.mask (target u.pc off)) t) ∧
    (i = .call gd off →
      ∃ t, exec i s = .next t ∧ Only s u g ((g.wrS 127 (u.pc + 8)).setPc u.mask (target u.pc off)) t)

/-- JMPR, CALLR and RET go to the address in sa when it is a multiple of 4; otherwise FETCH_ALIGN takes the whole stroke, and
nothing of the instruction happens (R85, R145). That XSTAT.BPSKIP is 0 after the trap is the model's choice (log 42). -/
def Sys2Proof.Claim.RegisterTransfers : Prop :=
  ∀ (gd : Guard) (sa : SReg) (s : State) (u : Issue) (g : Group),
    (Executes (.jmpr gd sa) gd s u g → (g.rdS sa).toNat % 4 = 0 →
      ∃ t, exec (.jmpr gd sa) s = .next t ∧ Only s u g (g.setPc u.mask (g.rdS sa)) t) ∧
    (Executes (.callr gd sa) gd s u g → (g.rdS sa).toNat % 4 = 0 →
      ∃ t, exec (.callr gd sa) s = .next t ∧ Only s u g ((g.wrS 127 (u.pc + 8)).setPc u.mask (g.rdS sa)) t) ∧
    (Executes (.ret gd sa) gd s u g → (g.rdS sa).toNat % 4 = 0 →
      ∃ t, exec (.ret gd sa) s = .next t ∧ OnlyCounts s u g (g.setPc u.mask (g.rdS sa)) t) ∧
    (∀ i, i = .jmpr gd sa ∨ i = .callr gd sa ∨ i = .ret gd sa → Executes i gd s u g → (g.rdS sa).toNat % 4 ≠ 0 → CanTrap s g →
      ∃ t, exec i s = .next t ∧ Handling s u g u.mask 0x04 u.pc (g.rdS sa) t)

/-- Control transfers of a stroke: BR, JMP, CALL and the register forms (R85, R143 to R146). -/
def Obligations.UniformAndRegisterTransfers : Prop := Claim.UniformTransfers ∧ Claim.RegisterTransfers

/-- VBR: the active fibres go to the target and the others of the stroke go on, as two strokes; every register is as before
(R144). Where the stroke splits, the hint favours the taken part for likely and group-uniform, the other for unlikely, and
neither for none (R36). -/
def Obligations.VectorBranch : Prop :=
  ∀ (gd : Guard) (hint : Hint) (off : Word32) (s : State) (u : Issue) (g : Group), Executes (.vbr gd hint off) gd s u g →
    ∃ t h, exec (.vbr gd hint off) s = .next t ∧ t = { s with groups := s.groups.put u.gid h } ∧
      h = { g with fibres := h.fibres, favour := h.favour } ∧
      (u.mask &&& ~~~(g.active u.mask gd) = 0 → h.favour = g.favour) ∧
      (u.mask &&& ~~~(g.active u.mask gd) ≠ 0 → h.favour = (match hint with
        | .none => none
        | .likely => some (g.active u.mask gd)
        | .uniform => some (g.active u.mask gd)
        | .unlikely => some (u.mask &&& ~~~(g.active u.mask gd)))) ∧
      (∀ f, f < 32 → (g.active u.mask gd).getLsbD f = true → (h.fibre f).pc = target u.pc off) ∧
      (∀ f, f < 32 → u.mask.getLsbD f = true → (g.active u.mask gd).getLsbD f = false → (h.fibre f).pc = u.pc + 8) ∧
      (∀ f, f < 32 → u.mask.getLsbD f = false → h.fibre f = g.fibre f) ∧
      (∀ e f, e < 32 → f < 32 → (g.active u.mask gd).getLsbD e = true → u.mask.getLsbD f = true →
        (g.active u.mask gd).getLsbD f = false → (h.fibre e).stroke ≠ (h.fibre f).stroke)

/-- NOP, FENCE and YIELD move the stroke on; YIELD makes the group the youngest (R153, R190). That FENCE changes nothing else is the
model's choice (log 11). SLEEP parks its stroke until its package's TIMEBASE has advanced by its operand, and goes on at once when
that is zero (R154); that a sum beyond 64 bits is the last tick (log 50) and that the program counter of a sleeping fibre stands
behind the SLEEP (log 2) are the model's choices. -/
def Obligations.TimingInstructions : Prop :=
  ∀ (gd : Guard) (s : State) (u : Issue) (g : Group),
    (Executes (.nop gd) gd s u g →
      exec (.nop gd) s = .next { s with groups := s.groups.put u.gid (moved g u 8) }) ∧
    (∀ o sc, Executes (.fence gd o sc) gd s u g →
      exec (.fence gd o sc) s = .next { s with groups := s.groups.put u.gid (moved g u 12) }) ∧
    (Executes (.yield gd) gd s u g →
      exec (.yield gd) s = .next { s with groups := s.groups.put u.gid (moved { g with age := s.cycle } u 8) }) ∧
    (∀ b, Executes (.sleep gd b) gd s u g →
      (b.value g true = 0 → exec (.sleep gd b) s = .next { s with groups := s.groups.put u.gid (moved g u 8) }) ∧
      (b.value g true ≠ 0 → ∃ t h, exec (.sleep gd b) s = .next t ∧ t = { s with groups := s.groups.put u.gid h } ∧
        Parked g h u.mask .sleep (BitVec.ofNat 64 (deadline s (pkgOf g.core) (b.value g true))) 0
          (fun _ => u.pc + 8)))

/-- MEET: the stroke waits at the MEET while some live fibre of its group does not, and once every live fibre waits at a MEET
each goes on after its own, in one stroke with those of the same MEET, mode and handler state (R39, R149). -/
def Obligations.Meet : Prop :=
  ∀ (gd : Guard) (s : State) (u : Issue) (g : Group), Executes (.meet gd) gd s u g →
    ((∃ f, f < 32 ∧ g.live.getLsbD f = true ∧ u.mask.getLsbD f = false ∧ (g.fibre f).wait ≠ .meet) →
      ∃ t h, exec (.meet gd) s = .next t ∧ t = { s with groups := s.groups.put u.gid h } ∧
        Parked g h u.mask .meet u.pc 0 (fun x => x.pc)) ∧
    ((∀ f, f < 32 → g.live.getLsbD f = true → u.mask.getLsbD f = true ∨ (g.fibre f).wait = .meet) →
      ∃ t h, exec (.meet gd) s = .next t ∧ t = { s with groups := s.groups.put u.gid h } ∧
        h = { g with fibres := h.fibres, fresh := false, favour := h.favour } ∧ (h.favour = g.favour ∨ h.favour = none) ∧
        (∀ f, f < 32 → g.live.getLsbD f = true → (h.fibre f).wait = .none ∧ (h.fibre f).pc = (g.fibre f).pc + 8) ∧
        ∀ e f, e < 32 → f < 32 → g.live.getLsbD e = true → g.live.getLsbD f = true →
          ((h.fibre e).stroke = (h.fibre f).stroke ↔ (g.fibre e).pc = (g.fibre f).pc ∧ (g.fibre e).priv = (g.fibre f).priv ∧
            (g.fibre e).inTrap = (g.fibre f).inTrap))

/-- Some fibres of the issuing stroke end while a fibre that is not a helper lives on (R31, R150): nothing else of the group
ends. Where the end opens no MEET, completes no barrier and leaves no handler, every other fibre is as before but for the
stroke's program counters, and so is everything else. -/
def Sys2Proof.Claim.FibresEnd (s : State) (u : Issue) (g : Group) (a : BitVec 32) (t : State) : Prop :=
  ∃ h, t.group? u.gid = some h ∧ h.s = g.s ∧ h.v = g.v ∧ h.p = g.p ∧ h.sp = g.sp ∧ h.x = g.x ∧ h.phase = g.phase ∧
    h.exit = g.exit ∧ h.cause = g.cause ∧ h.pending = g.pending ∧
    (∀ f, f < 32 →
      (a.getLsbD f = true → (h.fibre f).ended = true ∧ (h.fibre f).wait = .none) ∧
      (a.getLsbD f = false → (h.fibre f).ended = (g.fibre f).ended)) ∧
    (a &&& g.trapMask = 0 → (∃ f, f < 32 ∧ g.live.getLsbD f = true ∧ a.getLsbD f = false ∧ (g.fibre f).wait ≠ .meet) →
      (∀ c, s.cohort? g.cohort = some c → u.gid ∈ c.groups ∧ g.phase = .resident ∧
        ∃ f, f < 32 ∧ g.live.getLsbD f = true ∧ a.getLsbD f = false ∧ (c.arrived.read 0 g.index).getLsbD f = false) →
      t = { s with groups := s.groups.put u.gid h } ∧ h = { g with fibres := h.fibres } ∧
      ∀ f, f < 32 → a.getLsbD f = false →
        h.fibre f = if u.mask.getLsbD f then { g.fibre f with pc := u.pc + 8 } else g.fibre f)

/-- A group that had not ended before has stopped for good (R152, steps 1 and 3): it issues no more, its waits and its handler are abandoned, its pending
writes are discarded, it stands in no ownership queue and its tile slots are to be released; its registers are as before,
and memory is too where no stroke of it waited at a count barrier and its cohort is not saved. -/
def Sys2Proof.Claim.Ending (s : State) (u : Issue) (g : Group) (exit : Word64) (t : State) : Prop :=
  g.phase ≠ .ending → ∃ h, t.group? u.gid = some h ∧
    h = { g with phase := .ending, exit := exit, cause := .exit, pending := [], late := [], part := none, fibres := h.fibres } ∧ h.live = 0 ∧
    (∀ f, f < 32 → (g.live.getLsbD f = true → (h.fibre f).ended = true) ∧ (h.fibre f).wait = .none ∧
      (h.fibre f).inTrap = false ∧ (h.fibre f).held = none) ∧
    (∀ e, e ∈ (t.core g.core).queue → e.gid ≠ u.gid) ∧
    (∀ n x, s.holders.get? n = some x → x.cohort = g.cohort → x.members.getLsbD g.index = true →
      (t.holders.get? n).map (·.closing) = some true) ∧
    (∀ n, n ≠ u.gid → (t.group? n).map (fun q => { q with fibres := [] }) = (s.group? n).map (fun q => { q with fibres := [] })) ∧
    (Unlogged s g.ctx → g.parkedFor .cbwait = 0 →
      (∀ c, s.cohort? g.cohort = some c → c.ctx = g.ctx ∧ c.saved = false ∧
        ∀ n q, n ∈ c.groups → s.group? n = some q → saved q = false) → t.mem = s.mem)

/-- FEND ends the active fibres; when none but helpers is left the group ends with exit word 0 and the cause EXIT (R31, R150). -/
def Obligations.FibreEnd : Prop :=
  ∀ (gd : Guard) (s : State) (u : Issue) (g : Group), Executes (.fend gd) gd s u g →
    ((g.live &&& ~~~(g.active u.mask gd)) &&& ~~~g.helpers ≠ 0 →
      ∃ t, exec (.fend gd) s = .next t ∧ FibresEnd s u g (g.active u.mask gd) t) ∧
    ((g.live &&& ~~~(g.active u.mask gd)) &&& ~~~g.helpers = 0 →
      ∃ t, exec (.fend gd) s = .next t ∧ Ending s u g 0 t)

/-- GEXIT with an active fibre that is not a helper: the group ends with the exit word of sa and the cause EXIT (R151, R152);
helpers alone only end themselves (R32). -/
def Obligations.GroupExit : Prop :=
  ∀ (gd : Guard) (sa : SReg) (s : State) (u : Issue) (g : Group), Executes (.gexit gd sa) gd s u g →
    (g.helperOnly (g.active u.mask gd) = false →
      ∃ t, exec (.gexit gd sa) s = .next t ∧ Ending s u g (g.rdS sa) t) ∧
    (g.helperOnly (g.active u.mask gd) = true → g.live &&& ~~~g.helpers ≠ 0 →
      ∃ t, exec (.gexit gd sa) s = .next t ∧ FibresEnd s u g (g.active u.mask gd) t)

/-! # Vector instructions -/

/-- Moves and integers of the vector file, in all their forms, indexed operands included (R62, R80, R219 to R239). -/
def Obligations.VectorIntegers : Prop :=
  ∀ (i : Instr) (o : LaneOp) (s s1 : State) (u : Issue) (g g1 : Group), vectorInt i = some o → Executes i o.gd s u g →
    g.indexBad o.ix o.vd o.va (g.active u.mask o.gd) = 0 →
    Filled s u (vectorReads i g o.ix o.vd o.va (g.active u.mask o.gd)) s1 g1 →
    ∃ t h, exec i s = .next t ∧ t.group? u.gid = some h ∧ VectorDone i o s u g1 t h

/-- Lane exchange, reductions and scans (R240 to R242). -/
def Obligations.VectorLaneExchange : Prop :=
  ∀ (i : Instr) (o : LaneOp) (s s1 : State) (u : Issue) (g g1 : Group), vectorLanes i = some o → Executes i o.gd s u g →
    Filled s u (vectorReads i g o.ix o.vd o.va (g.active u.mask o.gd)) s1 g1 →
    ∃ t h, exec i s = .next t ∧ t.group? u.gid = some h ∧ VectorDone i o s u g1 t h

/-- Vector floating point, conversion, packing and dot products (R244 to R252). The sign of a zero sum of products and NV of an
infinity times zero beside a quiet NaN are the model's reading of R215 (log 37). -/
def Obligations.VectorFloats : Prop :=
  ∀ (i : Instr) (o : LaneOp) (s s1 : State) (u : Issue) (g g1 : Group), vectorFloat i = some o → Executes i o.gd s u g →
    g.indexBad o.ix o.vd o.va (g.active u.mask o.gd) = 0 →
    Filled s u (vectorReads i g o.ix o.vd o.va (g.active u.mask o.gd)) s1 g1 →
    ∃ t h, exec i s = .next t ∧ t.group? u.gid = some h ∧ VectorDone i o s u g1 t h

/-- Instructions with a range of destination registers (R228, R249): their lanes; the sticky flags of their lanes, or on a hit
of the blotter those that it recorded; nothing else. -/
def Obligations.VectorRanges : Prop :=
  ∀ (i : Instr) (o : RangeOp) (s s1 : State) (u : Issue) (g g1 : Group), vectorRange i = some o → Executes i o.gd s u g →
    Filled s u (rangeReads i g o.vd o.n (g.active u.mask o.gd)) s1 g1 →
    ∃ t h, exec i s = .next t ∧ t.group? u.gid = some h ∧
      (∀ n f, f < 32 → (h.rdV n).lane f =
        if o.vd.toNat ≤ n ∧ n < o.vd.toNat + o.n then
          lanesAfter g (g.active u.mask o.gd) (fun f => (g1.rdV n).lane f) (fun f => (o.val g1 (n - o.vd.toNat) f).1) f
        else (g1.rdV n).lane f) ∧
      h = { moved g1 u i.len with v := h.v, map := h.map, sys := { g.sys with fstat := h.sys.fstat } } ∧
      (∃ fl, h.sys.fstat = g.sys.fstat ||| fl) ∧
      ((∀ b, b ∈ (s.core g.core).blot → b.2.ctx ≠ g.ctx) →
        h.sys.fstat = g.sys.fstat ||| BitVec.ofNat 64 ((List.range o.n).foldl (fun x k =>
          (lanesOf (g.active u.mask o.gd)).foldl (fun x f => Nat.lor x (o.val g1 k f).2) x) 0)) ∧
      VectorFrame s u g (rangeRegs (o.vd.toNat, o.n)) t

/-- Indexed operands out of bounds in some active fibres: REG_INDEX takes those fibres as one stroke, with the register number
of the lowest as fault address; the other fibres of the stroke go on, and those that are active have their results (R62,
R63, R351). A register number is out of bounds below XBOUND's LO, above its HI, or at or beyond the budget. That a negative
number stands in XADDR as 64 bits of two's complement (log 46) and that XSTAT.BPSKIP is 0 after the trap (log 42) are the model's
choices. -/
def Obligations.IndexedOperandFault : Prop :=
  ∀ (i : Instr) (o : LaneOp) (s s1 : State) (u : Issue) (g g1 : Group),
    vectorInt i = some o ∨ vectorFloat i = some o → Executes i o.gd s u g → o.ix ≠ 0 → CanTrap s g →
    let F : Nat := if ixSource o.ix then o.va.toNat else o.vd.toNat
    let b := (g.xbound (ixReg o.ix).toNat).toNat
    let reg : Nat → Int := fun f => F + ((g.rdX (ixReg o.ix)).lane f).toInt
    let bad := maskOf fun f => (g.active u.mask o.gd).getLsbD f &&
      decide (reg f < (b % 2 ^ 11 : Nat) ∨ ((b / 2 ^ 16 % 2 ^ 11 : Nat) : Int) < reg f ∨ (g.budget : Int) ≤ reg f)
    let good := g.active u.mask o.gd &&& ~~~bad
    bad ≠ 0 → Filled s u (vectorReads i g o.ix o.vd o.va good) s1 g1 →
    ∃ t h, exec i s = .next t ∧ t.group? u.gid = some h ∧ VectorLanes o g1 good h ∧
      h = { g with v := h.v, map := h.map, sys := h.sys, fibres := h.fibres } ∧
      Went s u g bad 0x10 (BitVec.ofInt 64 (reg (lowest bad))) i.len h ∧
      VectorFrame s u g (destRegs g o.ix o.vd good) t

/-- Comparisons and predicate logic of vectors write one vector predicate: the result in active fibres, the old bit in other
live fibres, 0 where no fibre lives (R80, R221, R238, R239, R246). -/
def Obligations.VectorPredicates : Prop :=
  ∀ (i : Instr) (gd : Guard) (pd : PReg) (val : Nat → Bool × Nat) (s s1 : State) (u : Issue) (g g1 : Group),
    vectorPredicate g1 i = some (gd, pd, val) → Executes i gd s u g → Filled s u (plainReads i) s1 g1 →
    ∃ t h, exec i s = .next t ∧ t.group? u.gid = some h ∧
      (∀ f, f < 32 → (h.rdP pd).getLsbD f =
        if (g.active u.mask gd).getLsbD f then (val f).1 else g.live.getLsbD f && (g.rdP pd).getLsbD f) ∧
      (∀ n, n ≠ pd → h.rdP n = g.rdP n) ∧
      h = { moved g1 u i.len with p := h.p, sys := { g.sys with fstat := h.sys.fstat } } ∧
      h.sys.fstat = g.sys.fstat ||| BitVec.ofNat 64
        ((lanesOf (g.active u.mask gd)).foldl (fun x f => Nat.lor x (val f).2) 0) ∧
      VectorFrame s u g [] t

/-- Moves between files: VTOS reads the lowest active lane, VBALLOT and PTEST gather a predicate over the active fibres, and
VMOVX writes an index register (R230, R232, R243). -/
def Obligations.BetweenFiles : Prop :=
  ∀ (gd : Guard) (nr : Bool) (s s1 : State) (u : Issue) (g g1 : Group),
    (∀ mode sd va, Executes (.vtos gd nr mode sd va) gd s u g → Filled s u [va.toNat] s1 g1 →
      ∃ t h, exec (.vtos gd nr mode sd va) s = .next t ∧ t.group? u.gid = some h ∧
        h = moved (g1.wrS sd (match mode with
          | .zext => (at_ g1 va (lowest (g.active u.mask gd))).setWidth 64
          | .sext => (at_ g1 va (lowest (g.active u.mask gd))).signExtend 64
          | .hi => at_ g1 va (lowest (g.active u.mask gd)) ++ (g.rdS sd).setWidth 32)) u 8 ∧
        (∀ n, n ≠ u.gid → (t.group? n).map unmapped = (s.group? n).map unmapped) ∧
        (Unlogged s g.ctx → VectorFrame s u g [] t)) ∧
    (∀ sd pa, Executes (.vballot gd nr sd pa) gd s u g →
      ∃ t, exec (.vballot gd nr sd pa) s = .next t ∧
        Only s u g (moved (g.wrS sd ((g.active u.mask gd &&& g.rdP pa).setWidth 64)) u 8) t) ∧
    (∀ mode k pa, Executes (.ptest gd nr mode k pa) gd s u g →
      ∃ t, exec (.ptest gd nr mode k pa) s = .next t ∧
        Only s u g (moved (g.wrSp k (match mode with
          | .any => decide (g.active u.mask gd &&& g.rdP pa ≠ 0)
          | .all => decide (g.active u.mask gd &&& ~~~(g.rdP pa) = 0)
          | .none => decide (g.active u.mask gd &&& g.rdP pa = 0))) u 8) t) ∧
    (∀ xd va, Executes (.vmovx gd nr xd va) gd s u g → Filled s u [va.toNat] s1 g1 →
      ∃ t h, exec (.vmovx gd nr xd va) s = .next t ∧ t.group? u.gid = some h ∧
        (∀ f, f < 32 → (h.rdX xd).lane f =
          if (g.active u.mask gd).getLsbD f then (at_ g1 va f).setWidth 16
          else if g.live.getLsbD f then (g.rdX xd).lane f else 0) ∧
        (∀ n, n ≠ xd → h.rdX n = g.rdX n) ∧ h = { moved g1 u 8 with x := h.x } ∧ VectorFrame s u g [] t)


/-! # Memory -/

/-- SLD: the destination takes the bytes at the address that the access checks pass, extended as the size says (R182, R184). -/
def Sys2Proof.Claim.ScalarLoad : Prop :=
  ∀ (gd : Guard) (ms : Space) (sz : Size) (o : Sys2Proof.Ordering) (sd base : SReg) (off : BitVec 24) (s : State) (u : Issue) (g : Group)
    (key : Nat), Executes (.sld gd ms sz o sd base off) gd s u g →
    s.checkAccess u.gid g ms (address g base off) sz.bytes false false = .ok key →
    ∃ t, exec (.sld gd ms sz o sd base off) s = .next t ∧
      OnlyCounts s u g (moved (g.wrS sd (loaded sz (s.readNat key sz.bytes))) u 12) t

/-- SST: the bytes at the address take the register's low bytes, and no other byte of memory changes; a stroke of helpers
stores nothing (R32, R185). -/
def Sys2Proof.Claim.ScalarStore : Prop :=
  ∀ (gd : Guard) (ms : Space) (sz : Size) (o : Sys2Proof.Ordering) (sd base : SReg) (off : BitVec 24) (s : State) (u : Issue) (g : Group),
    Executes (.sst gd ms sz o sd base off) gd s u g →
    (∀ key, g.helperOnly (g.active u.mask gd) = false →
      s.checkAccess u.gid g ms (address g base off) sz.bytes false true = .ok key →
      ∃ t, exec (.sst gd ms sz o sd base off) s = .next t ∧ Stored s t key sz.bytes (g.rdS sd).toNat ∧
        t = { s with groups := s.groups.put u.gid (moved g u 12), mem := t.mem, watches := t.watches, cores := t.cores }) ∧
    (g.helperOnly (g.active u.mask gd) = true →
      exec (.sst gd ms sz o sd base off) s = .next { s with groups := s.groups.put u.gid (moved g u 12) })

/-- Loads and stores of uniform registers (R182, R184, R185). -/
def Obligations.ScalarMemory : Prop := Claim.ScalarLoad ∧ Claim.ScalarStore

/-- The checks of an access in their order (R158, R183): a byte outside its memory, then misalignment, then a locked range.
A scalar access that fails traps its stroke with its address as fault address, but SPAD_BOUNDS ends the context. That
XSTAT.BPSKIP is 0 after the trap is the model's choice (log 42). -/
def Sys2Proof.Claim.ScalarFaults : Prop :=
  ∀ (i : Instr) (x : ScalarAccess) (s : State) (u : Issue) (g : Group) (c : Byte),
    scalarAccess i = some x → Executes i x.gd s u g → (x.skips = true → g.helperOnly (g.active u.mask x.gd) = false) →
    accessFault s u.gid g x.ms (address g x.base x.off) x.n x.aligned x.writes = some c →
    (c ≠ 0x21 → CanTrap s g →
      ∃ t, exec i s = .next t ∧ Handling s u g u.mask c u.pc (BitVec.ofNat 64 (address g x.base x.off)) t) ∧
    (c = 0x21 → ∃ t, exec i s = .next t ∧ EndedWith s g.ctx 0x21 t)

/-- SPAD_BOUNDS in one lane of a vector access ends the context (R183). -/
def Sys2Proof.Claim.LaneBounds : Prop :=
  ∀ (i : Instr) (gd : Guard) (ms : Space) (n : Nat) (base : SReg) (vo : Option VReg) (off : BitVec 24) (aligned writes : Bool)
    (s s1 : State) (u : Issue) (g g1 : Group) (f : Nat) (data : VReg),
    ((∃ sz o, i = .vld gd ms sz o data base vo off ∧ n = sz.bytes ∧ aligned = false ∧ writes = false) ∨
      (∃ nr m sz, m.space = ms ∧ i = .vldc gd nr m sz data base vo off ∧ n = sz.bytes ∧ aligned = false ∧ writes = false) ∨
      (∃ sz o, i = .vst gd ms sz o data base vo off ∧ n = sz.bytes ∧ aligned = false ∧ writes = true) ∨
      (∃ fn fetch m b64 o off', m.space = ms ∧ off = off'.setWidth 24 ∧ i = .vatom gd fn fetch m b64 o data base vo off' ∧
        n = (if b64 then 8 else 4) ∧ aligned = true ∧ writes = true)) →
    Executes i gd s u g → Filled s u (plainReads i) s1 g1 → f < 32 →
    (if writes then storing g u gd else g.active u.mask gd).getLsbD f = true →
    accessFault s u.gid g ms (laneAddr g1 base vo off f) n aligned writes = some 0x21 →
    (writes = false → ∃ s2, s1.fillAll u.gid (rangeRegs (data.toNat, (n + 3) / 4)) = (s2, none)) →
    ∃ t, exec i s = .next t ∧ EndedWith s g.ctx 0x21 t

/-- What is wrong with an access (R158, R177, R178, R183). -/
def Obligations.AccessFaults : Prop := Claim.ScalarFaults ∧ Claim.LaneBounds

/-- VLD and VLDC: each lane whose checks pass takes the bytes at its own address, word `k` in register `data + k`; lanes that are
not active follow R80; fibres whose checks fail trap as one stroke and keep their lanes (R182 to R184, R186), with XSTAT.BPSKIP 0,
which is the model's choice (log 42). -/
def Sys2Proof.Claim.VectorLoads : Prop :=
  ∀ (i : Instr) (gd : Guard) (ms : Space) (sz : Size) (data : VReg) (base : SReg) (vo : Option VReg) (off : BitVec 24)
    (s s1 s2 : State) (u : Issue) (g g1 g2 : Group),
    ((∃ o, i = .vld gd ms sz o data base vo off) ∨ (∃ nr m, m.space = ms ∧ i = .vldc gd nr m sz data base vo off)) →
    Executes i gd s u g → Filled s u (plainReads i) s1 g1 →
    let addr := laneAddr g1 base vo off
    let fault := fun f => accessFault s u.gid g ms (addr f) sz.bytes false false
    let good := passing (g.active u.mask gd) fault
    let bad := failing (g.active u.mask gd) fault
    Filled s1 u (if good ≠ 0 ∧ g.partial? good = true then rangeRegs (data.toNat, sz.words) else []) s2 g2 →
    (∀ f, f < 32 → (g.active u.mask gd).getLsbD f = true → fault f ≠ some 0x21) → bad = 0 ∨ CanTrap s g →
    ∃ t h, exec i s = .next t ∧ t.group? u.gid = some h ∧
      (∀ n f, f < 32 → (h.rdV n).lane f =
        if good ≠ 0 ∧ data.toNat ≤ n ∧ n < data.toNat + sz.words then
          lanesAfter g good (fun f => (g2.rdV n).lane f) (fun f =>
            loadedLane sz (s2.readNat (keyAt s u.gid g ms (addr f) sz.bytes) sz.bytes) (n - data.toNat)) f
        else (g2.rdV n).lane f) ∧
      h = { g with v := h.v, map := h.map, sys := h.sys, fibres := h.fibres } ∧ (∃ fl, h.sys.fstat = g.sys.fstat ||| fl) ∧
      Went s u g bad ((fault (lowest bad)).getD 0) (BitVec.ofNat 64 (addr (lowest bad))) 12 h ∧
      VectorFrame s u g (rangeRegs (data.toNat, sz.words)) t

/-- VST: of the lanes whose checks pass, a byte that some cover takes the value of the highest of them, and every other byte of
memory is as it was when the registers had been read, which writes back no more than the dirty registers that it evicts; fibres
whose checks fail trap as one stroke and store nothing (R68, R168, R183, R185), with XSTAT.BPSKIP 0, which is the model's choice
(log 42). -/
def Sys2Proof.Claim.VectorStore : Prop :=
  ∀ (gd : Guard) (ms : Space) (sz : Size) (o : Sys2Proof.Ordering) (data : VReg) (base : SReg) (vo : Option VReg) (off : BitVec 24)
    (s s1 : State) (u : Issue) (g g1 : Group),
    let i : Instr := .vst gd ms sz o data base vo off
    Executes i gd s u g → Filled s u (plainReads i) s1 g1 →
    let addr := laneAddr g1 base vo off
    let key := fun f => keyAt s u.gid g ms (addr f) sz.bytes
    let fault := fun f => accessFault s u.gid g ms (addr f) sz.bytes false true
    let good := passing (storing g u gd) fault
    let bad := failing (storing g u gd) fault
    (∀ f, f < 32 → (storing g u gd).getLsbD f = true → fault f ≠ some 0x21) → bad = 0 ∨ CanTrap s g →
    ∃ t h, exec i s = .next t ∧ t.group? u.gid = some h ∧
      h = { g1 with sys := h.sys, fibres := h.fibres } ∧ h.sys.fstat = g.sys.fstat ∧
      Went s u g bad ((fault (lowest bad)).getD 0) (BitVec.ofNat 64 (addr (lowest bad))) 12 h ∧
      (∀ n, n ≠ u.gid → (t.group? n).map unmapped = (s.group? n).map unmapped) ∧
      (∀ f j, f < 32 → good.getLsbD f = true → j < sz.bytes →
        (∀ e, f < e → e < 32 → good.getLsbD e = true → key f + j < key e ∨ key e + sz.bytes ≤ key f + j) →
        t.readByte (key f + j) = BitVec.ofNat 8
          (((g1.rdV (data.toNat + j / 4)).lane f).toNat / 256 ^ (j % 4))) ∧
      (∀ a, (∀ f, f < 32 → good.getLsbD f = true → a < key f ∨ key f + sz.bytes ≤ a) → t.readByte a = s1.readByte a) ∧
      LinesWritten s g.core (Evicted s u [] s1) s.mem s1.mem ∧
      t = { s with groups := t.groups, cores := t.cores, mem := t.mem, watches := t.watches, agenda := t.agenda }

/-- Loads and stores of lanes (R182, R184 to R186). -/
def Obligations.VectorMemory : Prop := Claim.VectorLoads ∧ Claim.VectorStore

/-- SATOM: one read-modify-write; the register takes the old value when it fetches (R187, R188). -/
def Sys2Proof.Claim.ScalarAtomic : Prop :=
  ∀ (gd : Guard) (fn : AtomFn) (fetch : Bool) (ms : WordSpace) (b64 : Bool) (o : Sys2Proof.Ordering) (sd base : SReg) (off : BitVec 20)
    (s : State) (u : Issue) (g : Group) (key : Nat),
    Acts (.satom gd fn fetch ms b64 o sd base off) gd s u g →
    s.checkAccess u.gid g ms.space (address g base off) (if b64 then 8 else 4) true true = .ok key →
    let n : Nat := if b64 then 8 else 4
    let old := s.readNat key n
    let g' := g.orFlags (atomFlags fn old ((g.rdS sd).setWidth (8 * n)).toNat)
    ∃ t, exec (.satom gd fn fetch ms b64 o sd base off) s = .next t ∧
      t.group? u.gid = some (moved (if fetch then g'.wrS sd (BitVec.ofNat 64 old) else g') u 12) ∧
      (∀ n, n ≠ u.gid → t.group? n = s.group? n) ∧
      (Unlogged s g.ctx →
        Stored s t key n (atomNew fn (BitVec.ofNat (8 * n) old) ((g.rdS sd).setWidth (8 * n)) ((g.rdS (sd + 1)).setWidth (8 * n))).toNat
          ∧ t = { s with groups := t.groups, mem := t.mem, watches := t.watches, cores := t.cores })

/-- Lanes `fs` perform their atomics one after another on words of `n` bytes, from memory `m` to `m'`: each finds an old value and
leaves the new one in its place, and no other byte changes (R168, R188). -/
def Sys2Proof.Claim.Performed (s : State) (n : Nat) (key : Nat → Nat) (new : Nat → Nat → Nat) (old : Nat → Nat) :
    List Nat → Tbl Byte → Tbl Byte → Prop
  | [], m, m' => ∀ a, ({ s with mem := m' } : State).readByte a = ({ s with mem := m } : State).readByte a
  | f :: fs, m, m' => ∃ m1, old f = ({ s with mem := m } : State).readNat (key f) n ∧
      ({ s with mem := m1 } : State).readNat (key f) n = new f (old f) ∧
      (∀ a, a < key f ∨ key f + n ≤ a → ({ s with mem := m1 } : State).readByte a = ({ s with mem := m } : State).readByte a) ∧
      Claim.Performed s n key new old fs m1 m'

/-- VATOM: once the registers have been read, the lanes whose checks pass perform their atomics one after another, in some order,
be it on one word, which gives memory `m`; a fetching form then returns to each the value that it found, and its registers may
evict others, which are written back; fibres whose checks fail trap as one stroke and do nothing (R68, R168, R183, R187, R188),
with XSTAT.BPSKIP 0, which is the model's choice (log 42). -/
def Sys2Proof.Claim.VectorAtomic : Prop :=
  ∀ (gd : Guard) (fn : AtomFn) (fetch : Bool) (ms : WordSpace) (b64 : Bool) (o : Sys2Proof.Ordering) (data : VReg) (base : SReg)
    (vo : Option VReg) (off : BitVec 20) (s s1 : State) (u : Issue) (g g1 : Group),
    let i : Instr := .vatom gd fn fetch ms b64 o data base vo off
    let n : Nat := if b64 then 8 else 4
    let words : Nat := if b64 then 2 else 1
    let num : Nat → Nat → BitVec (8 * n) := fun first f =>
      BitVec.ofNat (8 * n) (((g1.rdV (data.toNat + first)).lane f).toNat
        + (if b64 then ((g1.rdV (data.toNat + first + 1)).lane f).toNat * 2 ^ 32 else 0))
    Executes i gd s u g → Unlogged s g.ctx → Filled s u (plainReads i) s1 g1 →
    let addr := laneAddr g1 base vo (off.setWidth 24)
    let key := fun f => keyAt s u.gid g ms.space (addr f) n
    let fault := fun f => accessFault s u.gid g ms.space (addr f) n true true
    let good := passing (storing g u gd) fault
    let bad := failing (storing g u gd) fault
    (∀ f, f < 32 → (storing g u gd).getLsbD f = true → fault f ≠ some 0x21) → bad = 0 ∨ CanTrap s g →
    ∃ t h order old m, exec i s = .next t ∧ t.group? u.gid = some h ∧
      order.Nodup ∧ (∀ f, f ∈ order ↔ f < 32 ∧ good.getLsbD f = true) ∧
      Performed s1 n key (fun f x => (atomNew fn (BitVec.ofNat (8 * n) x) (num 0 f) (num words f)).toNat) old order s1.mem m ∧
      h = { g with v := h.v, map := h.map, sys := h.sys, fibres := h.fibres } ∧
      Went s u g bad ((fault (lowest bad)).getD 0) (BitVec.ofNat 64 (addr (lowest bad))) 12 h ∧
      (∀ n, n ≠ u.gid → (t.group? n).map unmapped = (s.group? n).map unmapped) ∧
      h.sys.fstat = g.sys.fstat ||| BitVec.ofNat 64 ((lanesOf good).foldl (fun x f =>
        Nat.lor x (atomFlags fn (old f) (num 0 f).toNat)) 0) ∧
      (∀ f, f < 32 → good.getLsbD f = true → fetch = true → ∀ k, k < words →
        (h.rdV (data.toNat + k)).lane f = BitVec.ofNat 32 (old f / 2 ^ (32 * k))) ∧
      LinesWritten s g.core (Evicted s u [] s1) s.mem s1.mem ∧
      LinesWritten s g.core (Evicted s u (if fetch then rangeRegs (data.toNat, words) else []) t) m t.mem ∧
      (fetch = false → t.mem = m) ∧
      (fetch = true → ∀ k f, k < words → f < 32 → good.getLsbD f = false →
        (h.rdV (data.toNat + k)).lane f =
          if g.live.getLsbD f then (g1.rdV (data.toNat + k)).lane f else if good = 0 then (g1.rdV (data.toNat + k)).lane f else 0) ∧
      (fetch = false → h.v = g1.v) ∧ (∀ m, m < data.toNat ∨ data.toNat + words ≤ m → h.rdV m = g1.rdV m) ∧
      t = { s with
        groups := t.groups, cores := t.cores, mem := t.mem, watches := t.watches, agenda := t.agenda, freeTick := t.freeTick }

/-- Atomic operations (R187, R188). -/
def Obligations.Atomics : Prop := Claim.ScalarAtomic ∧ Claim.VectorAtomic

/-- SPUSHV: registers go to the spill stack above STKP, which rises by 128 bytes for each; no other byte of memory changes once
the registers have been read (R60, R189). -/
def Sys2Proof.Claim.SpillPush : Prop :=
  ∀ (gd : Guard) (data : VReg) (n : BitVec 24) (s s1 : State) (u : Issue) (g g1 : Group),
    let top := g.sys.stkp.toNat % 2 ^ 32
    Executes (.spushv gd data n) gd s u g → top + 128 * n.toNat ≤ g.stack →
    Filled s u (rangeRegs (data.toNat, n.toNat)) s1 g1 →
    ∃ t h, exec (.spushv gd data n) s = .next t ∧ t.group? u.gid = some h ∧
      h = { moved g1 u 12 with sys := { g.sys with stkp := BitVec.ofNat 64 (top + 128 * n.toNat) } } ∧
      (Unlogged s g.ctx →
        (∀ k f, k < n.toNat → f < 32 → (storing g u gd).getLsbD f = true →
          t.readNat (placeStack u.gid + top + 128 * k + 4 * f) 4 = ((g1.rdV (data.toNat + k)).lane f).toNat) ∧
        (∀ a, (∀ k f, k < n.toNat → f < 32 → (storing g u gd).getLsbD f = true →
          a < placeStack u.gid + top + 128 * k + 4 * f ∨ placeStack u.gid + top + 128 * k + 4 * f + 4 ≤ a) →
          t.readByte a = s1.readByte a) ∧
        LinesWritten s g.core (Evicted s u [] s1) s.mem s1.mem ∧
        (∀ m, m ≠ u.gid → (t.group? m).map unmapped = (s.group? m).map unmapped) ∧
        t = { s with groups := t.groups, cores := t.cores, mem := t.mem, watches := t.watches, agenda := t.agenda })

/-- SPOPV: the registers take the bytes below STKP, which falls by 128 bytes for each; a push beyond the stack's size and a
pop below its bottom raise STACK_BOUNDS (R60, R189). That the fault address is STKP's offset (log 21) and that XSTAT.BPSKIP is 0 after the trap (log 42) are the model's choices. -/
def Sys2Proof.Claim.SpillPop : Prop :=
  ∀ (gd : Guard) (data : VReg) (n : BitVec 24) (s s1 : State) (u : Issue) (g g1 : Group),
    let top := g.sys.stkp.toNat % 2 ^ 32
    (Executes (.spopv gd data n) gd s u g → 128 * n.toNat ≤ top → top ≤ g.stack →
      Filled s u (if g.partial? (g.active u.mask gd) then rangeRegs (data.toNat, n.toNat) else []) s1 g1 →
      ∃ t h, exec (.spopv gd data n) s = .next t ∧ t.group? u.gid = some h ∧
        (∀ m f, f < 32 → (h.rdV m).lane f =
          if data.toNat ≤ m ∧ m < data.toNat + n.toNat then
            lanesAfter g (g.active u.mask gd) (fun f => (g1.rdV m).lane f) (fun f => BitVec.ofNat 32
              (s1.readNat (placeStack u.gid + (top - 128 * n.toNat) + 128 * (m - data.toNat) + 4 * f) 4)) f
          else (g1.rdV m).lane f) ∧
        h = { moved g1 u 12 with
          v := h.v, map := h.map
          sys := { g.sys with stkp := BitVec.ofNat 64 (top - 128 * n.toNat) } } ∧
        (Unlogged s g.ctx → VectorFrame s u g (rangeRegs (data.toNat, n.toNat)) t)) ∧
    (Executes (.spushv gd data n) gd s u g → g.stack < top + 128 * n.toNat → CanTrap s g →
      ∃ t, exec (.spushv gd data n) s = .next t ∧ Handling s u g u.mask 0x11 u.pc (BitVec.ofNat 64 top) t) ∧
    (Executes (.spopv gd data n) gd s u g → top < 128 * n.toNat → CanTrap s g →
      ∃ t, exec (.spopv gd data n) s = .next t ∧ Handling s u g u.mask 0x11 u.pc (BitVec.ofNat 64 top) t)

/-- The spill stack (R60, R189). -/
def Obligations.SpillStack : Prop := Claim.SpillPush ∧ Claim.SpillPop

/-! # Synchronisation -/

/-- WAITW returns the word and a true predicate at once when it differs from the comparison value, and otherwise parks with
its address and its deadline, and watches the word's sector (R191); a deadline beyond 64 bits is the last tick, which is the
model's choice (log 50). -/
def Obligations.WaitWord : Prop :=
  ∀ (gd : Guard) (acq : Option Scope) (ms : WordSpace) (b64 : Bool) (base sv sc st : SReg) (k : UPred) (off : Word32)
    (s : State) (u : Issue) (g : Group) (key : Nat), Executes (.waitw gd acq ms b64 base sv sc st k off) gd s u g →
    s.checkAccess u.gid g ms.space (address g base off) (if b64 then 8 else 4) true false = .ok key →
    let w := s.readNat key (if b64 then 8 else 4)
    let c := (g.rdS sc).toNat % (if b64 then 2 ^ 64 else 2 ^ 32)
    (w ≠ c → ∃ t, exec (.waitw gd acq ms b64 base sv sc st k off) s = .next t ∧
      OnlyCounts s u g (moved ((g.wrS sv (BitVec.ofNat 64 w)).wrSp k true) u 16) t) ∧
    (w = c → ∃ t h, exec (.waitw gd acq ms b64 base sv sc st k off) s = .next t ∧
      t = { s with groups := s.groups.put u.gid h, cores := t.cores, watches := t.watches } ∧
      t.watches.get? (32 * u.gid + lowest u.mask) = some ⟨key / 32, false, 0⟩ ∧
      Parked g h u.mask .waitw (BitVec.ofNat 64 (address g base off))
        (deadline s (pkgOf g.core) (g.rdS st)) (fun x => x.pc))

/-- The cohort barrier (R192): BARA and BAR set the stroke's arrived bits and the group's owed bit; when every live fibre has
arrived the phase flips, both clear and every fibre that waits at the barrier, in every group of the cohort, is released;
BAR waits until then, and BARW only while its group owes a wait. That the program counter of a fibre that waits at the barrier
stands behind its instruction is the model's choice (log 2). -/
def Obligations.CohortBarrier : Prop :=
  ∀ (gd : Guard) (s : State) (u : Issue) (g : Group) (c : Cohort), s.cohort? g.cohort = some c →
    (∀ i, i = .bara gd ∨ i = .bar gd → Executes i gd s u g → ¬ AllArrived s c (arrivedWith c g u.mask) →
      ∃ t h, exec i s = .next t ∧ t = { s with groups := s.groups.put u.gid h, cohorts := t.cohorts } ∧
        t.cohort? g.cohort = some { c with
          arrived := arrivedWith c g u.mask, owed := c.owed ||| BitVec.ofNat 16 (2 ^ g.index) } ∧
        (i = .bara gd → h = moved g u 8) ∧
        (i = .bar gd → Parked g h u.mask .barrier 0 0 (fun _ => u.pc + 8))) ∧
    (∀ i, i = .bara gd ∨ i = .bar gd → Executes i gd s u g → AllArrived s c (arrivedWith c g u.mask) →
      u.gid ∈ c.groups → g.phase = .resident →
      ∃ t, exec i s = .next t ∧ t.cohort? g.cohort = some { c with phase := !c.phase, arrived := [], owed := 0 } ∧
        (∀ n q, n ∈ c.groups → s.group? n = some q → q.phase ≠ .dead → q.phase ≠ .ending →
          ∃ h, t.group? n = some h ∧ h = { q with fibres := h.fibres } ∧ ∀ f, f < 32 → q.live.getLsbD f = true →
            (h.fibre f).wait ≠ .barrier ∧ (n = u.gid ∧ u.mask.getLsbD f = true → (h.fibre f).pc = u.pc + 8) ∧
            (n ≠ u.gid ∨ u.mask.getLsbD f = false → h.fibre f =
              if (q.fibre f).wait = .barrier then { q.fibre f with wait := .none, operand := 0, deadline := 0, instr := none }
              else q.fibre f)) ∧
        (∀ n, n ∉ c.groups → t.group? n = s.group? n) ∧
        (Unlogged s c.ctx → c.saved = false → (∀ n q, n ∈ c.groups → s.group? n = some q → saved q = false) →
          t = { s with groups := t.groups, cohorts := t.cohorts })) ∧
    (Executes (.barw gd) gd s u g →
      (c.owed.getLsbD g.index = true →
        ∃ t h, exec (.barw gd) s = .next t ∧ t = { s with groups := s.groups.put u.gid h } ∧
          Parked g h u.mask .barrier 0 0 (fun _ => u.pc + 8)) ∧
      (c.owed.getLsbD g.index = false →
        exec (.barw gd) s = .next { s with groups := s.groups.put u.gid (moved g u 8) }))

/-- CBINIT writes the 32 bytes of a count barrier: its magic, its quotas and as much left of each, and zero elsewhere (R193,
R196). -/
def Sys2Proof.Claim.CountBarrierInit : Prop :=
  ∀ (gd : Guard) (cl : Bool) (base qa qk : SReg) (off : Word32) (s : State) (u : Issue) (g : Group) (key : Nat),
    Acts (.cbinit gd cl base qa qk off) gd s u g → Unlogged s g.ctx →
    s.checkAccess u.gid g (if cl then .cl else .sh) (address g base off) 32 true true = .ok key →
    (s.readNat key 2 ≠ 0x5CB1 ∨ s.readNat (key + 30) 2 = 0) →
    ∃ t, exec (.cbinit gd cl base qa qk off) s = .next t ∧
      t = { s with groups := s.groups.put u.gid (moved g u 16), mem := t.mem, watches := t.watches } ∧
      t.readBytes key 32 = toBytes 2 0x5CB1 ++ zeros 10 ++ toBytes 2 ((g.rdS qa).toNat % 2 ^ 16) ++ toBytes 2 ((g.rdS qa).toNat % 2 ^ 16)
        ++ toBytes 2 ((g.rdS qk).toNat % 2 ^ 16) ++ toBytes 2 ((g.rdS qk).toNat % 2 ^ 16) ++ zeros 12 ∧
      ∀ a, a < key ∨ key + 32 ≤ a → t.readByte a = s.readByte a

/-- A count barrier's object, field by field, with its bits that have no field (R193). -/
structure Sys2Proof.Claim.Barrier where
  magic : Nat
  isOpen : Bool
  fault : Bool
  epoch : Nat
  arrQuota : Nat
  arrLeft : Nat
  ackQuota : Nat
  ackLeft : Nat
  balance : Int
  waiters : Nat
  rest : Nat × Nat × Nat
  deriving DecidableEq, Repr

/-- The object that stands in 256 bits (R193). -/
def Sys2Proof.Claim.barrier (o : Nat) : Claim.Barrier where
  magic := o % 2 ^ 16
  isOpen := o.testBit 32
  fault := o.testBit 33
  epoch := o / 2 ^ 80 % 2 ^ 16
  arrQuota := o / 2 ^ 96 % 2 ^ 16
  arrLeft := o / 2 ^ 112 % 2 ^ 16
  ackQuota := o / 2 ^ 128 % 2 ^ 16
  ackLeft := o / 2 ^ 144 % 2 ^ 16
  balance := (BitVec.ofNat 32 (o / 2 ^ 160)).toInt
  waiters := o / 2 ^ 240 % 2 ^ 16
  rest := (o / 2 ^ 16 % 2 ^ 16, o / 2 ^ 34 % 2 ^ 46, o / 2 ^ 192 % 2 ^ 48)

/-- The balance takes a value, held to its limits; FAULT tells that it was (R194). -/
def Sys2Proof.Claim.Barrier.bring (b : Claim.Barrier) (x : Int) : Claim.Barrier :=
  { b with
    balance := if 2 ^ 31 - 1 < x then 2 ^ 31 - 1 else if x < -2 ^ 31 then -2 ^ 31 else x
    fault := b.fault || decide (2 ^ 31 - 1 < x) || decide (x < -2 ^ 31) }

/-- The four changes of R194, before the test for settlement. -/
def Sys2Proof.Claim.Barrier.expected (b : Claim.Barrier) (n : Nat) : Claim.Barrier := { b.bring (b.balance + n) with isOpen := true }
def Sys2Proof.Claim.Barrier.delivered (b : Claim.Barrier) (n : Nat) : Claim.Barrier := b.bring (b.balance - n)
def Sys2Proof.Claim.Barrier.arrived (b : Claim.Barrier) : Claim.Barrier :=
  if b.arrLeft = 0 then { b with fault := true } else { b with arrLeft := b.arrLeft - 1 }
def Sys2Proof.Claim.Barrier.acked (b : Claim.Barrier) : Claim.Barrier :=
  if b.ackLeft = 0 then { b with fault := true } else { b with ackLeft := b.ackLeft - 1 }

/-- The test for settlement, and what a settlement leaves, but for the strokes that count as waiters again (R194). -/
abbrev Sys2Proof.Claim.Barrier.settles (b : Claim.Barrier) : Prop := b.arrLeft = 0 ∧ b.ackLeft = 0 ∧ b.balance ≤ 0
def Sys2Proof.Claim.Barrier.settled (b : Claim.Barrier) : Claim.Barrier :=
  { b with epoch := (b.epoch + 1) % 2 ^ 16, isOpen := false, arrLeft := b.arrQuota, ackLeft := b.ackQuota, balance := 0, waiters := 0 }

/-- An instruction changes the barrier `b` to `b'`, before the test for settlement, and writes the epoch that it found to the
token register, if it has one (R196). -/
def Sys2Proof.Claim.CountChange (i : Instr) (gd : Guard) (scp : Scope) (cl : Bool) (base : SReg) (off : Word32) (g : Group)
    (b : Claim.Barrier) (tok : Option SReg) (b' : Claim.Barrier) : Prop :=
  (∃ t, i = .cbarrive gd false scp cl base t off ∧ tok = some t ∧ b' = b.arrived) ∨
  (∃ t, i = .cbarrive gd true scp cl base t off ∧ tok = some t ∧ b' = b.acked) ∨
  (∃ cnt, i = .cbexpect gd tok scp cl base cnt off ∧
    b' = if tok.isSome then (b.expected ((g.rdS cnt).toNat % 2 ^ 32)).arrived else b.expected ((g.rdS cnt).toNat % 2 ^ 32))

/-- The token register takes the epoch of the barrier `b`. -/
def Sys2Proof.Claim.tokened (g : Group) (tok : Option SReg) (b : Claim.Barrier) : Group :=
  match tok with | some r => g.wrS r (BitVec.ofNat 64 b.epoch) | none => g

/-- CBARRIVE, its .ack and CBEXPECT, with .arrive or not, on an initialised barrier that does not settle: the count goes down, or at
zero FAULT is set; the balance moves, held to its limits, and OPEN is set; quotas, WAITERS and every other bit are kept; the token is
the epoch, and only the object's bytes change (R194, R195, R196). -/
def Sys2Proof.Claim.CountBarrierUpdate : Prop :=
  ∀ (i : Instr) (gd : Guard) (scp : Scope) (cl : Bool) (base : SReg) (off : Word32) (s : State) (u : Issue) (g : Group) (key : Nat)
    (tok : Option SReg) (b' : Claim.Barrier),
    let b := barrier (s.readNat key 32)
    Acts i gd s u g → Unlogged s g.ctx →
    s.checkAccess u.gid g (if cl then .cl else .sh) (address g base off) 32 true true = .ok key → b.magic = 0x5CB1 →
    CountChange i gd scp cl base off g b tok b' → ¬ b'.settles →
    ∃ t, exec i s = .next t ∧
      t = { s with groups := s.groups.put u.gid (moved (tokened g tok b) u 16), mem := t.mem, watches := t.watches } ∧
      barrier (t.readNat key 32) = b' ∧ ∀ a, a < key ∨ key + 32 ≤ a → t.readByte a = s.readByte a

/-- An address that holds no count barrier raises BAD_BARRIER in the whole stroke, and so does CBINIT over one that has
waiters (R196). That XSTAT.BPSKIP is 0 after the trap is the model's choice (log 42). -/
def Sys2Proof.Claim.CountBarrierFaults : Prop :=
  ∀ (gd : Guard) (scp : Scope) (cl : Bool) (base : SReg) (off : Word32) (s : State) (u : Issue) (g : Group) (key : Nat),
    CanTrap s g → s.resolve u.gid g (if cl then .cl else .sh) (address g base off) 32 = .ok key →
    address g base off % 32 = 0 → (∀ l, l ∈ s.locks → l.core ≠ noCore → l.covers key 32 = false) →
    (∀ i, Cb.magic (s.readCb key) ≠ 0x5CB1 →
      ((∃ ack tok, i = .cbarrive gd ack scp cl base tok off) ∨ (∃ ar cnt, i = .cbexpect gd ar scp cl base cnt off)) ∧ Acts i gd s u g ∨
        ((∃ tok, i = .cbwait gd scp cl base tok off) ∨ (∃ k sf tok, i = .cbtest gd scp cl k sf base tok off)) ∧ Executes i gd s u g →
      ∃ t, exec i s = .next t ∧ Handling s u g u.mask 0x24 u.pc (BitVec.ofNat 64 (address g base off)) t) ∧
    (∀ qa qk, Acts (.cbinit gd cl base qa qk off) gd s u g → Cb.magic (s.readCb key) = 0x5CB1 → Cb.waiters (s.readCb key) ≠ 0 →
      ∃ t, exec (.cbinit gd cl base qa qk off) s = .next t ∧
        Handling s u g u.mask 0x24 u.pc (BitVec.ofNat 64 (address g base off)) t)

/-- Count barriers: what an initialisation and an update leave (R193 to R196). -/
def Obligations.CountBarrierUpdates : Prop :=
  Claim.CountBarrierInit ∧ Claim.CountBarrierUpdate ∧ Claim.CountBarrierFaults

/-- The token register of a stroke of a group that is parked in CBWAIT on the object at a key. -/
def Sys2Proof.Claim.waitsOn (s : State) (key : Nat) (q : Group) (m : BitVec 32) : Option SReg :=
  match (q.fibre (lowest m)).instr with
  | some (.cbwait _ _ cl _ tok _) => if s.clKey q.cohort cl (q.fibre (lowest m)).operand.toNat = key then some tok else none
  | _ => none

/-- The barrier at `key` settles as it stands in `b`, from state `s` to `t` (R194): the epoch advances, OPEN clears, the quotas
reload, the balance is 0; every stroke that is parked in CBWAIT on the object tests again: one whose token the epoch has passed goes
on, the others wait again and count as waiters (R196). Groups change by `now` besides, and fibres that are `own` in other ways. -/
def Sys2Proof.Claim.Settled (s t : State) (key : Nat) (b : Claim.Barrier) (now : Nat → Group → Group) (own : Nat → Nat → Prop) : Prop :=
  let goes := fun n q m => (Claim.waitsOn s key q m).any fun r => Cb.passed (t.readNat key 32) ((now n q).rdS r).toNat
  (∀ n q, s.group? n = some q → ∃ h, t.group? n = some h ∧ h = { now n q with fibres := h.fibres } ∧
    ∀ f, f < 32 → ¬ own n f →
      h.fibre f = if (q.parkedFor .cbwait).getLsbD f && goes n q (q.strokeOf f) then
        { q.fibre f with wait := .none, operand := 0, deadline := 0, instr := none, pc := (q.fibre f).pc + 16 }
      else q.fibre f) ∧
  barrier (t.readNat key 32) = { b.settled with waiters := ((s.groups.keys.eraseDups.map fun n => match s.group? n with
    | some q => ((q.waiting .cbwait).filter fun m => (Claim.waitsOn s key q m).isSome && !goes n q m).length
    | none => 0).sum) % 2 ^ 16 }

/-- Strokes parked in CBWAIT on the object at `key` belong to no saved group and no logged context. -/
def Sys2Proof.Claim.QuietWaits (s : State) (key : Nat) : Prop :=
  ∀ n q m, s.group? n = some q → m ∈ q.waiting .cbwait → Claim.waitsOn s key q m ≠ none → saved q = false ∧ Unlogged s q.ctx

/-- Settlement (R194): an arrival, acknowledgement or expectation that leaves nothing to wait for settles the barrier; it returns
the epoch that it found. Nothing else changes. -/
def Sys2Proof.Claim.CountBarrierSettles : Prop :=
  ∀ (i : Instr) (gd : Guard) (scp : Scope) (cl : Bool) (base : SReg) (off : Word32) (s : State) (u : Issue) (g : Group) (key : Nat)
    (tok : Option SReg) (b' : Claim.Barrier),
    let b := barrier (s.readNat key 32)
    Acts i gd s u g → Unlogged s g.ctx →
    s.checkAccess u.gid g (if cl then .cl else .sh) (address g base off) 32 true true = .ok key → b.magic = 0x5CB1 →
    CountChange i gd scp cl base off g b tok b' → b'.settles →
    ∃ t h, exec i s = .next t ∧ t.group? u.gid = some h ∧
      Settled s t key b' (fun n q => if n = u.gid then tokened q tok b else q) (fun n f => n = u.gid ∧ u.mask.getLsbD f = true) ∧
      (∀ f, f < 32 → u.mask.getLsbD f = true → (h.fibre f).pc = u.pc + 16) ∧
      (QuietWaits s key →
        t = { s with groups := t.groups, mem := t.mem, watches := t.watches } ∧
          ∀ a, a < key ∨ key + 32 ≤ a → t.readByte a = s.readByte a)

/-- CBWAIT goes on when the epoch has passed its token and otherwise parks and counts a waiter; CBTEST tells which, with the
barrier's flags, and writes no memory (R196). -/
def Sys2Proof.Claim.CountBarrierWait : Prop :=
  ∀ (gd : Guard) (scp : Scope) (cl : Bool) (base tok : SReg) (off : Word32) (s : State) (u : Issue) (g : Group) (key : Nat),
    Cb.magic (s.readCb key) = 0x5CB1 →
    (Executes (.cbwait gd scp cl base tok off) gd s u g →
      s.checkAccess u.gid g (if cl then .cl else .sh) (address g base off) 32 true true = .ok key →
      (Cb.passed (s.readCb key) (g.rdS tok).toNat = true →
        exec (.cbwait gd scp cl base tok off) s = .next { s with groups := s.groups.put u.gid (moved g u 16) }) ∧
      (Cb.passed (s.readCb key) (g.rdS tok).toNat = false → Unlogged s g.ctx →
        ∃ t h, exec (.cbwait gd scp cl base tok off) s = .next t ∧
          t = { s with groups := s.groups.put u.gid h, mem := t.mem, watches := t.watches } ∧
          Parked g h u.mask .cbwait (BitVec.ofNat 64 (address g base off)) 0 (fun x => x.pc) ∧
          Cb.waiters (t.readCb key) = (Cb.waiters (s.readCb key) + 1) % 2 ^ 16 ∧
          Cb.epoch (t.readCb key) = Cb.epoch (s.readCb key) ∧
          ∀ a, a < key ∨ key + 32 ≤ a → t.readByte a = s.readByte a)) ∧
    (∀ k sf, Executes (.cbtest gd scp cl k sf base tok off) gd s u g →
      s.checkAccess u.gid g (if cl then .cl else .sh) (address g base off) 32 true false = .ok key →
      ∃ t, exec (.cbtest gd scp cl k sf base tok off) s = .next t ∧
        Only s u g (moved ((g.wrSp k (Cb.passed (s.readCb key) (g.rdS tok).toNat)).wrS sf (BitVec.ofNat 64 (Cb.flags (s.readCb key)))) u 16) t)

/-- Count barriers: completion, waiting and testing (R194, R196). -/
def Obligations.CountBarrierPhases : Prop := Claim.CountBarrierSettles ∧ Claim.CountBarrierWait

/-- RLOCK registers a read-only lock over exactly the sectors that its range touches and returns the lowest handle that its
cohort does not hold; where the table is full, or the length zero or above 2^32, it returns all ones; it waits while a write
lock meets its range (R176, R177, R197). Its first byte and then its last are checked, with the causes of R183. That a .cl range which
reaches the memory of several members takes a lock in each of their tables, under one handle, and that the trap for a range whose last
byte is bad gives the address of its first, are the model's choices (log 22); so are that XSTAT.BPSKIP is 0 after the trap (log 42), and
that a lock which stands in no core's table is not met (log 28).
RUNLOCK drops the lock of a handle and forgets what was reused under it (R74). -/
def Obligations.ReadOnlyLocks : Prop :=
  ∀ (gd : Guard) (ms : WordSpace) (base len hd : SReg) (off : Word32) (s : State) (u : Issue) (g : Group),
    let i : Instr := .rlock gd ms base len hd off
    let n := (g.rdS len).toNat
    let A := address g base off
    let core := s.tableCore g ms.space A
    let full : Prop := 64 ≤ (s.locks.filter fun l => l.core == core).length ∨
      32 ≤ (s.locks.filter fun l => l.core == core && l.kind == .readOnly).length ∨
      32 ≤ (s.locks.filter fun l => match l.owner with | .rlock c _ => c == g.cohort | _ => false).length
    let lockOf := fun h (p : Nat × Nat × Nat) => Lock.mk g.ctx p.2.2 (placeOf p.1) ((p.1 - placeOf p.1) / 32)
      ((p.1 - placeOf p.1 + p.2.1 - 1) / 32) .readOnly (.rlock g.cohort h)
    (∀ key, Executes i gd s u g → 0 < n → n ≤ 2 ^ 32 → s.resolve u.gid g ms.space A n = .ok key →
      (ms ≠ .sp → A % 2 ^ 19 + n ≤ 2 ^ 19) →
      ((∃ l, l ∈ s.locks ∧ l.core ≠ noCore ∧ l.kind = .write ∧ l.covers key n = true) →
        ∃ t h, exec i s = .next t ∧ t = { s with groups := s.groups.put u.gid h } ∧
          Parked g h u.mask .engine 0 0 (fun x => x.pc)) ∧
      ((∀ l, l ∈ s.locks → l.core ≠ noCore → l.kind = .write → l.covers key n = false) →
        (full → ∃ t, exec i s = .next t ∧ Only s u g (moved (g.wrS hd 0xFFFFFFFFFFFFFFFF) u 16) t) ∧
        (¬ full → ∃ t h, exec i s = .next t ∧ h < 32 ∧ (∀ m, m ∈ s.locks → m.owner ≠ .rlock g.cohort h) ∧
          (∀ k, k < h → ∃ m, m ∈ s.locks ∧ m.owner = .rlock g.cohort k) ∧
          t.locks = s.locks ++ [lockOf h (key, n, core)] ∧
          t.group? u.gid = some (moved (g.wrS hd (BitVec.ofNat 64 h)) u 16) ∧
          (∀ m, m ≠ u.gid → t.group? m = s.group? m) ∧
          (Unlogged s g.ctx → t = { s with groups := t.groups, locks := t.locks })))) ∧
    (∀ key last, Executes i gd s u g → 0 < n → n ≤ 2 ^ 32 → s.resolve u.gid g ms.space A 1 = .ok key →
      s.resolve u.gid g ms.space (A + n - 1) 1 = .ok last →
      let parts := s.rlockParts g ms key A n
      ((∃ p l, p ∈ parts ∧ l ∈ s.locks ∧ l.core ≠ noCore ∧ l.kind = .write ∧ l.covers p.1 p.2.1 = true) →
        ∃ t h, exec i s = .next t ∧ t = { s with groups := s.groups.put u.gid h } ∧
          Parked g h u.mask .engine 0 0 (fun x => x.pc)) ∧
      ((∀ p l, p ∈ parts → l ∈ s.locks → l.core ≠ noCore → l.kind = .write → l.covers p.1 p.2.1 = false) →
        (s.rlockFull g.cohort parts = true →
          ∃ t, exec i s = .next t ∧ Only s u g (moved (g.wrS hd 0xFFFFFFFFFFFFFFFF) u 16) t) ∧
        (s.rlockFull g.cohort parts = false → ∃ t h, exec i s = .next t ∧ h = s.freeHandle g.cohort ∧
          t.locks = s.locks ++ parts.map (lockOf h) ∧ t.group? u.gid = some (moved (g.wrS hd (BitVec.ofNat 64 h)) u 16)))) ∧
    (∀ c, Executes i gd s u g → 0 < n → n ≤ 2 ^ 32 →
      s.resolve u.gid g ms.space A 1 = .error c ∨
        ((∃ key, s.resolve u.gid g ms.space A 1 = .ok key) ∧ s.resolve u.gid g ms.space (A + n - 1) 1 = .error c) →
      (c ≠ 0x21 → CanTrap s g → ∃ t, exec i s = .next t ∧ Handling s u g u.mask c u.pc (BitVec.ofNat 64 A) t) ∧
      (c = 0x21 → ∃ t, exec i s = .next t ∧ EndedWith s g.ctx 0x21 t)) ∧
    (Executes i gd s u g → n = 0 ∨ 2 ^ 32 < n →
      ∃ t, exec i s = .next t ∧ Only s u g (moved (g.wrS hd 0xFFFFFFFFFFFFFFFF) u 16) t) ∧
    (Executes (.runlock gd hd) gd s u g →
      ((∀ l, l ∈ s.locks → l.owner ≠ .rlock g.cohort (g.rdS hd).toNat) →
        exec (.runlock gd hd) s = .next { s with groups := s.groups.put u.gid (moved g u 16) }) ∧
      ∃ t, exec (.runlock gd hd) s = .next t ∧ t.group? u.gid = some (moved g u 16) ∧
        (∀ m, m ≠ u.gid → t.group? m = s.group? m) ∧
        t.locks = s.locks.filter (fun l => l.owner != .rlock g.cohort (g.rdS hd).toNat) ∧
        ((∃ l, l ∈ s.locks ∧ l.owner = .rlock g.cohort (g.rdS hd).toNat) →
          ∀ k b, b ∈ (t.core k).blot → b.2.lock ≠ some (g.cohort, (g.rdS hd).toNat)))


/-! # Engines -/

/-- CPY enters the copy engine: its operands are those of issue, its on-chip ranges are locked, and a length or an address
that it cannot serve becomes the code with which it completes (R254 to R258, R267). -/
def Sys2Proof.Claim.LinearCopies : Prop :=
  ∀ (gd : Guard) (dsp ssp : CopySpace) (scp : Scope) (sd dA sA lA : SReg) (cb : Option CbRef) (flag : Option SReg)
    (s : State) (u : Issue) (g : Group),
    let D := (g.rdS dA).toNat
    let S := (g.rdS sA).toNat
    let L := (g.rdS lA).toNat
    let n := L % 2 ^ 32
    let i : Instr := .cpy gd dsp ssp scp sd dA sA lA cb flag
    Acts i gd s u g → s.copiesFrom g.core < 64 →
    InBounds s u.gid g (chipRanges [(dsp, D), (ssp, S)] L ++ barRange (g.cbValue cb) ++ flagRange (g.flagValue flag)) →
    (∀ b, g.cbValue cb = some b → b.2 % 32 = 0) → (∀ f, g.flagValue flag = some f → f.1 % 8 = 0) →
    Unlocked s u.gid g (chipRanges [(dsp, D), (ssp, S)] L) →
    ∃ t c, exec i s = .next t ∧ Entered s u g sd 16 (.copy c) t ∧ (∀ o, o ≠ s.nextOp → t.op? o = s.op? o) ∧
      t.holders = s.holders ∧ t.contexts = s.contexts ∧
      c.kind = .linear ∧ c.len = n ∧ c.core = g.core ∧ c.flag = g.flagValue flag ∧ c.done = [] ∧ c.bytes = 0 ∧
      c.code = lateFailure (pkgOf g.core) L [(dsp, D), (ssp, S)] (g.flagValue flag) ∧
      Ranged s t u g dsp D n .write c.dst ∧ Ranged s t u g ssp S n .read c.src ∧
      (∀ b, g.cbValue cb = some b → ∃ x, c.bar = some x ∧ x.cl = b.1 ∧ x.addr = b.2)

/-- CPYT enters with the addresses of its tensor, its record and its box, and its coordinates, signed 32-bit numbers from
the registers at sC (R255, R258, R262). -/
def Sys2Proof.Claim.TensorCopies : Prop :=
  ∀ (gd : Guard) (scatter : Bool) (box : WordSpace) (scp : Scope) (sd xA tA cA : SReg) (cb : Option CbRef) (flag : Option SReg)
    (s : State) (u : Issue) (g : Group),
    let base := (g.rdS tA).toNat
    let record := (g.rdS (tA + 1)).toNat
    let X := (g.rdS xA).toNat
    let i : Instr := .cpyt gd scatter box scp sd xA tA cA cb flag
    Acts i gd s u g → s.copiesFrom g.core < 64 →
    InBounds s u.gid g (barRange (g.cbValue cb) ++ flagRange (g.flagValue flag)) →
    (∀ b, g.cbValue cb = some b → b.2 % 32 = 0) → (∀ f, g.flagValue flag = some f → f.1 % 8 = 0) →
    ∃ t c coords, exec i s = .next t ∧ Entered s u g sd 16 (.copy c) t ∧ (∀ o, o ≠ s.nextOp → t.op? o = s.op? o) ∧
      t.holders = s.holders ∧ t.contexts = s.contexts ∧ t.locks = s.locks ∧
      c.kind = .tensor scatter record coords none ∧ c.box = some (box, X) ∧ c.dst = .vm base ∧ c.src = .vm base ∧
      c.core = g.core ∧ c.flag = g.flagValue flag ∧ c.done = [] ∧
      (∀ k, k < 10 → cA.toNat + k < 128 → coords[k]? = some ((g.rdS (cA + BitVec.ofNat 7 k)).setWidth 32).toInt) ∧
      c.code = (if 2 ^ 56 ≤ base ∨ 2 ^ 56 < record + 256 ∨ (box = .sp ∧ X / 2 ^ 40 % 256 ≠ pkgOf g.core % 256) ∨
          flagFar (pkgOf g.core) (g.flagValue flag) = true then some 0x14 else none)

/-- CPYM: an absent member completes with MEMBER_ABSENT and an empty mask with nothing; otherwise the record gives each
selected member's destination and barrier (R264). -/
def Sys2Proof.Claim.FanOutCopies : Prop :=
  ∀ (gd : Guard) (ssp : CopySpace) (sd fA sA lA aA : SReg) (mask : BitVec 4) (s : State) (u : Issue) (g : Group) (k : Cluster)
    (c0 : Cohort),
    let R := (g.rdS fA).toNat
    let S := (g.rdS sA).toNat
    let L := (g.rdS lA).toNat
    let A := (g.rdS aA).toNat
    let n := L % 2 ^ 32
    let record := s.readNat (placeShared g.cohort + R) 32
    let i : Instr := .cpym gd ssp sd fA sA lA aA mask
    Acts i gd s u g → s.copiesFrom g.core < 64 → s.cohort? g.cohort = some c0 → s.cluster? c0.cluster = some k →
    ((mask = 0 ∨ ∃ m, m < 4 ∧ mask.getLsbD m = true ∧ k.cohorts.length ≤ m) →
      ∃ t c, exec i s = .next t ∧ Entered s u g sd 16 (.copy c) t ∧ c.len = 0 ∧ c.kind = .fanout [] ⟨g.cohort, false, A⟩ ∧
        t.locks = s.locks ∧ c.code = (if mask = 0 then none else some 0x15)) ∧
    (mask ≠ 0 → (∀ m, m < 4 → mask.getLsbD m = true → m < k.cohorts.length) → s.locks = [] → R % 32 = 0 → A % 32 = 0 →
      InBounds s u.gid g ([(.sh, R, 32)] ++ chipRanges [(ssp, S)] L ++ [(.sh, A, 32)]) →
      (∀ m, m < 4 → mask.getLsbD m = true → ∃ coh x, k.cohorts[m]? = some coh ∧ s.cohort? coh = some x ∧
        record / 2 ^ (64 * m) % 2 ^ 32 + n ≤ x.shared ∧ record / 2 ^ (64 * m) % 2 ^ 32 < 2 ^ 19 ∧
        record / 2 ^ (64 * m + 32) % 2 ^ 32 + 32 ≤ x.shared ∧ record / 2 ^ (64 * m + 32) % 2 ^ 32 < 2 ^ 19 ∧
        record / 2 ^ (64 * m + 32) % 2 ^ 32 % 32 = 0) →
      ∃ t c rs, exec i s = .next t ∧ Entered s u g sd 16 (.copy c) t ∧ c.kind = .fanout rs ⟨g.cohort, false, A⟩ ∧ c.len = n ∧
        c.code = lateFailure (pkgOf g.core) L [(ssp, S)] none ∧ (n = 0 → rs = []) ∧
        (n ≠ 0 → ∀ m coh, m < 4 → mask.getLsbD m = true → k.cohorts[m]? = some coh →
          Receiver.mk coh (record / 2 ^ (64 * m) % 2 ^ 32) ⟨coh, true, m * 2 ^ 19 + record / 2 ^ (64 * m + 32) % 2 ^ 32⟩ false ∈ rs))

/-- CPYT and CPYM. -/
def Obligations.RecordAndFanOutCopies : Prop := Claim.TensorCopies ∧ Claim.FanOutCopies

/-- CPYTEST: the predicate says that no copy's status word is still to land in sa (R268). -/
def Sys2Proof.Claim.CopyTest : Prop :=
  ∀ (gd : Guard) (k : UPred) (sa : SReg) (s : State) (u : Issue) (g : Group) (busy : Bool),
    Executes (.cpytest gd k sa) gd s u g →
    (busy = true ↔ ∃ o op c, g.pending.get? sa.toNat = some o ∧ s.op? o = some op ∧ op.work = .copy c) →
    ∃ t, exec (.cpytest gd k sa) s = .next t ∧ Only s u g (moved (g.wrSp k (!busy)) u 8) t

/-- CPY and CPYTEST. -/
def Obligations.LinearCopiesAndTest : Prop := Claim.LinearCopies ∧ Claim.CopyTest

/-- A group holds slots, or it or a team that it belongs to has a queued MACQ (R278). -/
def Sys2Proof.Claim.Owning (s : State) (q : Group) (gid : Nat) : Prop :=
  s.holdersOf q ≠ [] ∨ ∃ e, e ∈ (s.core q.core).queue ∧ (e.gid = gid ∨ ∃ m r, e.team = some m ∧ s.group? e.gid = some r ∧
    r.cohort = q.cohort ∧ m.getLsbD q.index = true)

/-- A member mask names a team that a group may form: two or four groups of its cohort, itself among them, all of its role and none
of them owning (R276, R278). -/
def Sys2Proof.Claim.TeamMask (s : State) (g : Group) (M : Nat) : Prop :=
  M < 2 ^ 16 ∧ ((List.range 16).countP M.testBit = 2 ∨ (List.range 16).countP M.testBit = 4) ∧ M.testBit g.index = true ∧
    ∀ k, k < 16 → M.testBit k = true → ∃ c gid q, s.cohort? g.cohort = some c ∧ c.groups[k]? = some gid ∧ s.group? gid = some q ∧
      q.phase = .resident ∧ q.role = g.role ∧ ¬ Claim.Owning s q gid

/-- The ways in which MACQ and MACQ.team are not granted at once (R278): a group that holds slots, or that a queued MACQ concerns,
raises MATRIX_NESTED; the wrong form for its role, or a mask that names no team, is answered BADTEAM; with slots short, or with
others before it, it enters the queue and parks, and BUSY answers it when 16 entries wait. That XSTAT.BPSKIP is 0 after the trap is
the model's choice (log 42). -/
def Sys2Proof.Claim.OwnershipWaits : Prop :=
  ∀ (i : Instr) (gd : Guard) (sd : SReg) (n : BitVec 16) (s : State) (u : Issue) (g : Group) (team : Option Nat),
    let q := (s.core g.core).queue
    let entry : QueueEntry := { gid := u.gid, mask := u.mask, n := n.toNat, sd := sd, team := team.map (BitVec.ofNat 16) }
    let bad : Prop := (team.isSome = true ↔ s.teamRole g = false) ∨ ∃ M, team = some M ∧ ¬ TeamMask s g M
    (i = .macq gd sd n ∧ team = none) ∨ (∃ sm, i = .macqTeam gd sd n sm ∧ team = some (g.rdS sm).toNat) → Executes i gd s u g →
    (Owning s g u.gid → CanTrap s g → ∃ t, exec i s = .next t ∧ Handling s u g u.mask 0x25 u.pc 0 t) ∧
    (¬ Owning s g u.gid → g.part = none → bad →
      exec i s = .next { s with groups := s.groups.put u.gid (moved (g.wrS sd 3) u 8) }) ∧
    (¬ Owning s g u.gid → g.part = none → ¬ bad → Unlogged s g.ctx → q ≠ [] ∨ (s.freeSlots g.core).length < n.toNat →
      (16 ≤ q.length → exec i s = .next { s with groups := s.groups.put u.gid (moved (g.wrS sd 1) u 8) }) ∧
      (q.length < 16 → ∃ t h, exec i s = .next t ∧ t = { s with groups := s.groups.put u.gid h, cores := t.cores } ∧
        Parked g h u.mask .engine 0 0 (fun x => x.pc) ∧
        t.core g.core = { s.core g.core with queue := q ++ [entry] } ∧
        ∀ k, k ≠ g.core → t.core k = s.core k))

/-- Ownership of tile slots: MACQ and MACQ.team take the lowest free slots at once when nobody queues, every byte of a
granted slot is zero, and the result is the number held (R275 to R278); MGROW adds slots or leaves them (R279); MREL gives
them up (R280). -/
def Sys2Proof.Claim.SlotsTaken : Prop :=
  ∀ (gd : Guard) (sd : SReg) (n : BitVec 16) (s : State) (u : Issue) (g : Group), Unlogged s g.ctx → g.part = none →
    let ns := (s.freeSlots g.core).take n.toNat
    let granted : Nat → Prop := fun a => ∃ k, k ∈ ns ∧ slotAt g.core k ≤ a ∧ a < slotAt g.core k + 65536
    (∀ i members team, ((i = .macq gd sd n ∧ members = BitVec.ofNat 16 (2 ^ g.index) ∧ team = false ∧ s.teamRole g = false) ∨
        (∃ sm, i = .macqTeam gd sd n sm ∧ members = BitVec.ofNat 16 (g.rdS sm).toNat ∧ team = true ∧ s.teamRole g = true
          ∧ s.teamOk g (g.rdS sm).toNat = true)) →
      Executes i gd s u g → s.holdersOf g = [] → (s.core g.core).queue = [] → n.toNat ≤ (s.freeSlots g.core).length →
      ∃ t, exec i s = .next t ∧
        t.holders = s.holders.put s.nextOp { cohort := g.cohort, leader := g.index, members := members, team := team, slots := ns } ∧
        t = { s with
          groups := s.groups.put u.gid (moved (g.wrS sd (BitVec.ofNat 64 (n.toNat * 256))) u 8)
          holders := t.holders, nextOp := s.nextOp + 1, mem := t.mem } ∧
        ∀ a, (granted a → t.readByte a = 0) ∧ (¬ granted a → t.readByte a = s.readByte a)) ∧
    (∀ hh x rest, Executes (.mgrow gd sd n) gd s u g → s.holdersOf g = hh :: rest → s.holders.get? hh = some x →
      x.closing = false → x.slots ≠ [] →
      ((s.core g.core).queue = [] → n.toNat ≤ (s.freeSlots g.core).length → x.slots.length + n.toNat ≤ 6 →
        ∃ t, exec (.mgrow gd sd n) s = .next t ∧ t.holders.get? hh = some { x with slots := x.slots ++ ns } ∧
          t = { s with
            groups := s.groups.put u.gid (moved (g.wrS sd (BitVec.ofNat 64 ((x.slots.length + n.toNat) * 256))) u 8)
            holders := t.holders, mem := t.mem } ∧
          ∀ a, (granted a → t.readByte a = 0) ∧ (¬ granted a → t.readByte a = s.readByte a)) ∧
      ((s.core g.core).queue ≠ [] ∨ (s.freeSlots g.core).length < n.toNat ∨ 6 < x.slots.length + n.toNat →
        exec (.mgrow gd sd n) s = .next { s with
          groups := s.groups.put u.gid (moved (g.wrS sd (BitVec.ofNat 64 (x.slots.length * 256 + 2))) u 8) })) ∧
    (Executes (.mgrow gd sd n) gd s u g → s.holdersOf g = [] →
      exec (.mgrow gd sd n) s = .next { s with groups := s.groups.put u.gid (moved (g.wrS sd 4) u 8) }) ∧
    (Executes (.mrel gd) gd s u g → s.holdersOf g = [] →
      exec (.mrel gd) s = .next { s with groups := s.groups.put u.gid (moved g u 8) }) ∧
    (∀ hh x rest c, Executes (.mrel gd) gd s u g → s.holdersOf g = hh :: rest → s.holders.get? hh = some x →
      s.enteredOn hh = false → s.cohort? x.cohort = some c → c.core = some g.core →
      ∃ t h, exec (.mrel gd) s = .next t ∧ t.holders = s.holders.erase hh ∧ t.group? u.gid = some h ∧ h = { g with fibres := h.fibres } ∧
        (∀ f, f < 32 → u.mask.getLsbD f = true → (h.fibre f).pc = u.pc + 8) ∧
        ∀ a, ((∃ k, k ∈ x.slots ∧ slotAt g.core k ≤ a ∧ a < slotAt g.core k + 65536) → t.readByte a = 0) ∧
          ((∀ k, k ∈ x.slots → a < slotAt g.core k ∨ slotAt g.core k + 65536 ≤ a) → t.readByte a = s.readByte a))

/-- Ownership of tile slots: what is granted, and what waits or is turned away (R275 to R280). -/
def Obligations.TileOwnership : Prop := Claim.SlotsTaken ∧ Claim.OwnershipWaits

/-- The group holds slot `k` alone or in a team. -/
def Sys2Proof.Claim.Holds (s : State) (g : Group) (k hh : Nat) (x : Holder) : Prop :=
  (∃ rest, s.holdersOf g = hh :: rest) ∧ s.holders.get? hh = some x ∧ x.closing = false ∧ k < x.slots.length

/-- A matrix operation has entered with its operands of issue, and with the code that its shape or its slot gives it. -/
def Sys2Proof.Claim.MatEntered (s : State) (u : Issue) (g : Group) (sd : SReg) (len k : Nat) (kind : MatKind) (code : Option Nat)
    (i : Instr) : Prop :=
  ∃ t m, exec i s = .next t ∧ Entered s u g sd len (.matrix m) t ∧ m.kind = kind ∧ m.slot = k ∧ m.core = g.core ∧
    m.cohort = g.cohort ∧ m.code = code ∧ t.contexts = s.contexts

/-- MZERO, MLDACC and MSTACC enter the matrix engine; a bad stride is BAD_SHAPE and a slot that is not held SLOT_NOT_HELD
(R282, R283, R291, R292). -/
def Sys2Proof.Claim.TileMoves : Prop :=
  ∀ (gd : Guard) (sd aA rA : SReg) (k : Slot) (ty : FloatTy) (rnd : Rounding) (sat : Bool) (s : State) (u : Issue) (g : Group),
    s.matrixOps g.core < 32 → g.part = none → s.locks = [] →
    let A := (g.rdS aA).toNat
    let stride := (g.rdS rA).toNat % 2 ^ 32
    let z : Nat := if ty = .f32 then 4 else 2
    (Executes (.mzero gd sd k) gd s u g →
      ((∃ hh x, Holds s g k.toNat hh x) → MatEntered s u g sd 8 k.toNat .zero none (.mzero gd sd k)) ∧
      ((¬ ∃ hh x, Holds s g k.toNat hh x) → MatEntered s u g sd 8 k.toNat .zero (some 0x30) (.mzero gd sd k))) ∧
    (∀ i kind, ((i = .mldacc gd ty sd aA rA k ∧ kind = .load ty A stride) ∨
        (i = .mstacc gd ty rnd sat sd aA rA k ∧ kind = .store ty rnd sat A stride ∧ g.helperOnly (g.active u.mask gd) = false)) →
      Executes i gd s u g →
      (stride % 16 ≠ 0 ∨ stride < 128 * z → MatEntered s u g sd 16 k.toNat kind (some 0x33) i) ∧
      (stride % 16 = 0 → 128 * z ≤ stride → (¬ ∃ hh x, Holds s g k.toNat hh x) →
        MatEntered s u g sd 16 k.toNat kind (some 0x30) i) ∧
      (stride % 16 = 0 → 128 * z ≤ stride → (∃ hh x, Holds s g k.toNat hh x) →
        InBounds s u.gid g [(.sh, A, 127 * stride + 128 * z)] → MatEntered s u g sd 16 k.toNat kind none i))

/-- MLOOP and MSACC of a solo holder enter the matrix engine; a step count or increment out of range is BAD_SHAPE, a slot
that is not held SLOT_NOT_HELD, and an MSACC with no MLOOP.part of its count before it SACC_MISMATCH (R284 to R290). -/
def Sys2Proof.Claim.MatrixLoops : Prop :=
  ∀ (gd : Guard) (fa fb : MatTy) (part : Bool) (sd aA iA xA yA pA qA nA : SReg) (vb : VReg) (step : BitVec 11) (k : Slot)
    (s : State) (u : Issue) (g : Group),
    s.matrixOps g.core < 32 → g.part = none → s.locks = [] →
    let n := (g.rdS iA).toNat % 2 ^ 32
    let inc := (g.rdS iA).toNat / 2 ^ 32
    let x : Nat := if fa = .e2m1 then (g.rdS xA).toNat else 0
    let y : Nat := if fb = .e2m1 then (g.rdS yA).toNat else 0
    let i : Instr := .mloop gd fa fb part sd aA iA xA yA vb step k
    let kind := MatKind.loop fa fb part n inc (g.rdS aA).toNat x y vb.toNat step.toNat
    let spans := [(Space.sh, (g.rdS aA).toNat, (n - 1) * inc + 2048)] ++ (if fa = .e2m1 then [(Space.sh, x, 128 * n)] else [])
      ++ (if fb = .e2m1 then [(Space.sh, y, 128 * n)] else [])
    let m := (g.rdS nA).toNat % 2 ^ 32
    let P := (g.rdS pA).toNat
    let Q := (g.rdS qA).toNat
    let j : Instr := .msacc gd sd pA qA nA k
    (∀ hh w, Executes i gd s u g → Holds s g k.toNat hh w → w.team = false → w.members = BitVec.ofNat 16 (2 ^ g.index) →
      g.index < 16 →
      (n = 0 ∨ 4096 < n ∨ inc % 16 ≠ 0 → MatEntered s u g sd 16 k.toNat kind (some 0x33) i) ∧
      (n ≠ 0 → n ≤ 4096 → inc % 16 = 0 → vb.toNat + step.toNat * (n - 1) + 16 ≤ g.budget → InBounds s u.gid g spans →
        MatEntered s u g sd 16 k.toNat kind none i)) ∧
    (Executes i gd s u g → s.holdersOf g = [] → n ≠ 0 → n ≤ 4096 → inc % 16 = 0 →
      vb.toNat + step.toNat * (n - 1) + 16 ≤ g.budget → MatEntered s u g sd 16 k.toNat kind (some 0x30) i) ∧
    (∀ hh w, Executes j gd s u g → Holds s g k.toNat hh w → w.team = false →
      (m = 0 ∨ 4096 < m → MatEntered s u g sd 16 k.toNat (.sacc P Q m) (some 0x33) j) ∧
      (m ≠ 0 → m ≤ 4096 → InBounds s u.gid g [(.sh, P, 128 * m), (.sh, Q, 128 * m)] →
        MatEntered s u g sd 16 k.toNat (.sacc P Q m) (some 0x35) j)) ∧
    (Executes j gd s u g → s.holdersOf g = [] → m ≠ 0 → m ≤ 4096 →
      MatEntered s u g sd 16 k.toNat (.sacc P Q m) (some 0x30) j)

/-- MSACC after an MLOOP.part of its step count pairs with it: the two halves name each other, and the group waits for no
MSACC any more (R290). -/
def Sys2Proof.Claim.ScaledPairs : Prop :=
  ∀ (gd : Guard) (sd pA qA nA : SReg) (k : Slot) (fa fb : MatTy) (n inc a x y vb step : Nat) (s : State) (u : Issue) (g : Group)
    (hh : Nat) (w : Holder) (o : Nat) (op : Op) (l : MatOp),
    let i : Instr := .msacc gd sd pA qA nA k
    let P := (g.rdS pA).toNat
    let Q := (g.rdS qA).toNat
    Executes i gd s u g → s.matrixOps g.core < 32 → (∀ l, l ∈ s.locks → l.kind ≠ .write) → (∀ c, s.tableUse c + 2 ≤ 64) →
    Holds s g k.toNat hh w → w.team = false → g.part = some o → o ≠ s.nextOp → s.op? o = some op → op.work = .matrix l →
    l.kind = .loop fa fb true n inc a x y vb step → l.code = none → l.partner = none →
    (g.rdS nA).toNat % 2 ^ 32 = n → n ≠ 0 → n ≤ 4096 → InBounds s u.gid g [(.sh, P, 128 * n), (.sh, Q, 128 * n)] →
    ∃ t m op' l', exec i s = .next t ∧ Entered s u g sd 16 (.matrix m) t ∧ m.kind = .sacc P Q n ∧ m.slot = k.toNat ∧
      m.core = g.core ∧ m.partner = some o ∧ m.code = none ∧ t.contexts = s.contexts ∧
      t.op? o = some op' ∧ op'.work = .matrix l' ∧ l'.partner = some s.nextOp ∧ l'.code = none ∧ l'.kind = l.kind ∧
      ∀ h, t.group? u.gid = some h → h.part = none

/-- Matrix operations enter in flight. -/
def Obligations.MatrixOperations : Prop := Claim.TileMoves ∧ Claim.MatrixLoops ∧ Claim.ScaledPairs

/-- TSEND and TRECV enter with the code that their length, their tile or their connection gives them; one that is to be
matched takes the next turn of its direction (R389, R390). One of length zero completes at once: its register takes the status
word DONE, nothing stays in flight, and nothing else changes (R389). -/
def Obligations.Transfers : Prop :=
  ∀ (gd : Guard) (send : Bool) (sd tA lA bA : SReg) (c : BitVec 4) (s : State) (u : Issue) (g : Group),
    let T := (g.rdS tA).toNat
    let L := (g.rdS lA).toNat
    let B := (g.rdS bA).toNat
    let pkg := pkgOf g.core
    let i : Instr := if send then .tsend gd sd tA lA bA c else .trecv gd sd tA lA bA c
    let up : Prop := ∃ k, s.conn? g.ctx pkg c.toNat = some k ∧ k.up = true
    Acts i gd s u g → (s.xfersOn g.ctx pkg c.toNat send).length < 16 → s.locks = [] → B % 32 = 0 →
    InBounds s u.gid g (chipRanges [(.sp, T)] L ++ [(.sh, B, 32)]) →
    (L = 0 → Unlogged s g.ctx → g.pending.get? sd.toNat = none → g.late.get? sd.toNat = none → g.deposits.get? sd.toNat = none →
      ∃ t h, exec i s = .next t ∧ t.group? u.gid = some h ∧ t.op? s.nextOp = none ∧ h.pending = g.pending ∧
        (∀ r, h.rdS r = if r = sd then 1 else g.rdS r) ∧ h.v = g.v ∧ h.p = g.p ∧ h.sp = g.sp ∧ h.x = g.x ∧ h.sys = g.sys ∧
        (∀ f, f < 32 → u.mask.getLsbD f = true → (h.fibre f).pc = u.pc + 16) ∧
        (∀ f, f < 32 → u.mask.getLsbD f = false → h.fibre f = g.fibre f) ∧ (∀ n, n ≠ u.gid → t.group? n = s.group? n) ∧
        (s.owedDone = [] → (∀ e a, e ∈ s.ops → e.2.work ≠ .access a) →
          t = { s with groups := t.groups, ops := t.ops, nextOp := s.nextOp + 1 })) ∧
    (L ≠ 0 → ∃ t x, exec i s = .next t ∧ Entered s u g sd 16 (.xfer x) t ∧ t.holders = s.holders ∧
      x.send = send ∧ x.reg = c.toNat ∧ x.pkg = pkg ∧ x.len = L % 2 ^ 32 ∧ x.bar = ⟨g.cohort, false, B⟩ ∧ x.bytes = 0 ∧
      (2 ^ 24 < L → x.code = some 0x16 ∧ t.contexts = s.contexts) ∧
      (L ≠ 0 → L ≤ 2 ^ 24 → T / 2 ^ 40 % 256 ≠ pkg % 256 → x.code = some 0x14 ∧ t.contexts = s.contexts) ∧
      (L ≠ 0 → L ≤ 2 ^ 24 → T / 2 ^ 40 % 256 = pkg % 256 → ¬ up → x.code = some 0x19 ∧ t.contexts = s.contexts) ∧
      (L ≠ 0 → L ≤ 2 ^ 24 → T / 2 ^ 40 % 256 = pkg % 256 → up → x.code = none ∧
        ∃ k k', s.conn? g.ctx pkg c.toNat = some k ∧ t.conn? g.ctx pkg c.toNat = some k' ∧ k'.peer = k.peer ∧
          x.turn = some (if send then k.sends else k.recvs) ∧
          k'.sends = k.sends + (if send then 1 else 0) ∧ k'.recvs = k.recvs + (if send then 0 else 1)))

/-! # Names, rings, tasks -/

/-- The instructions on names: NSELF gives the group's own name; the others leave for the home of their target with the
group as issuer, and wait in their registers, sd + 1 too, which is the model's choice (log 26); NJOIN parks its stroke; NPARK takes
PSIG at once, or parks (R310 to R314). That a deadline beyond 64 bits is the last tick is the model's choice (log 50).
LAUNCH sends its record address with the launch's own priority as its cap (R324). -/
def Obligations.NameInstructions : Prop :=
  ∀ (gd : Guard) (sd sa sb : SReg) (s : State) (u : Issue) (g : Group),
    (Executes (.nself gd sd) gd s u g →
      ∃ t, exec (.nself gd sd) s = .next t ∧ Only s u g (moved (g.wrS sd g.name) u 8) t) ∧
    (∀ i act, ((i = .nwake gd sd sa ∧ act = .wake) ∨ (i = .nsignal gd sd sa sb ∧ act = .signal ((g.rdS sb).setWidth 32)) ∨
        (i = .nsignalKill gd sd sa ∧ act = .kill) ∨ (∃ k, i = .ndeposit gd sd sa sb k ∧ act = .deposit k (g.rdS sb))) →
      Acts i gd s u g → ∃ t, exec i s = .next t ∧ Sent s u g sd sa act t) ∧
    (Executes (.nstat gd sd sa) gd s u g → ∃ t, exec (.nstat gd sd sa) s = .next t ∧ Sent s u g sd sa .stat t) ∧
    (∀ reap limit, Acts (.njoin gd reap sd sa limit) gd s u g →
      let d := match limit with | none => 0 | some r => deadline s (pkgOf g.core) (g.rdS r)
      ∃ t h, exec (.njoin gd reap sd sa limit) s = .next t ∧ t = { s with
          groups := s.groups.put u.gid h
          ops := s.ops.put s.nextOp { ctx := g.ctx, gid := some u.gid, sd := some sd, work :=
            (.name { issuer := g.name, launch := s.launchNum g, target := g.rdS sa, act := .join reap d, mask := u.mask }) }
          nextOp := s.nextOp + 1 } ∧
        Parked g h u.mask .njoin (g.rdS sa &&& ~~~255) d (fun x => x.pc)) ∧
    (∀ limit, Executes (.npark gd sd limit) gd s u g →
      (g.sys.psig ≠ 0 → ∃ t, exec (.npark gd sd limit) s = .next t ∧
        Only s u g (moved ({ g with sys := { g.sys with psig := 0 } }.wrS sd g.sys.psig) u 8) t) ∧
      (g.sys.psig = 0 → ∃ t h, exec (.npark gd sd limit) s = .next t ∧ t = { s with groups := s.groups.put u.gid h } ∧
        Parked g h u.mask .npark 0 (match limit with | none => 0 | some r => deadline s (pkgOf g.core) (g.rdS r)) (fun x => x.pc))) ∧
    (∀ l, Executes (.launch gd sd sa) gd s u g → s.launchOf g = some l →
      ∃ t, exec (.launch gd sd sa) s = .next t ∧ t.holders = s.holders ∧ t.contexts = s.contexts ∧ t.locks = s.locks ∧
        Entered s u g sd 8 (.launch
          { creator := g.name, record := g.rdS sa, service := false, cap := some l.prio, pkg := pkgOf g.core }) t)

/-- A step that leaves memory as it was, but writes the sector at `key`, as every ring step does (R336): a watch on it is hit. -/
def Sys2Proof.Claim.Rewrites (s t : State) (key : Nat) (gs : Tbl Group) : Prop :=
  t = { s with groups := gs, mem := t.mem, watches := t.watches } ∧ (∀ a, t.readByte a = s.readByte a) ∧
    ∀ W x, s.watches.get? W = some x → x.sector = key / 32 → t.watches.get? W = some { x with hit := true }

/-- RGACQ and RGPEEK on a well-formed control block with a slot for them: sd takes the slot's address and the next register
its index, and HEAD or PEEK moves up by one; with none they park and watch the block, or with .try return all ones; on a malformed
block they return all ones but one. Each step that does not park writes the block's sector (R333 to R336). -/
def Sys2Proof.Claim.RingAcquire : Prop :=
  ∀ (gd : Guard) (isPeek once : Bool) (scp : Scope) (ms : WordSpace) (sd sa : SReg) (s : State) (u : Issue) (g : Group)
    (key : Nat),
    let i : Instr := if isPeek then .rgpeek gd once scp ms sd sa else .rgacq gd once scp ms sd sa
    let A := (g.rdS sa).toNat
    let o := s.readNat key 32
    let index := if isPeek then Ring.peek o else Ring.head o
    let count := 2 ^ Ring.logCount o
    let slot := Ring.base o + 2 ^ Ring.logSize o * (index % count)
    let none_ : Prop := if isPeek then Ring.peek o = Ring.vis o else (Ring.head o + 2 ^ 32 - Ring.tail o) % 2 ^ 32 = count
    Executes i gd s u g → Unlogged s g.ctx → (g.fibre (lowest u.mask)).wait = .none →
    s.checkAccess u.gid g ms.space A 32 true true = .ok key →
    (Ring.wellFormed o = true → ¬ none_ →
      ∃ t, exec i s = .next t ∧
        t = { s with
          groups := s.groups.put u.gid (moved ((g.wrS sd (BitVec.ofNat 64 slot)).wrS (sd + 1) (BitVec.ofNat 64 index)) u 8)
          mem := t.mem, watches := t.watches } ∧
        Stored s t (key + (if isPeek then 16 else 8)) 4 (index + 1) ∧
        ∀ W x, s.watches.get? W = some x → x.sector = key / 32 → t.watches.get? W = some { x with hit := true }) ∧
    (Ring.wellFormed o = true → none_ → once = false →
      ∃ t h, exec i s = .next t ∧
        t = { s with
          groups := s.groups.put u.gid h
          watches := s.watches.put (32 * u.gid + lowest u.mask) { sector := key / 32, hit := false, seen := o } } ∧
        Parked g h u.mask (if isPeek then .rgpeek else .rgacq) (BitVec.ofNat 64 A) 0 (fun x => x.pc)) ∧
    (Ring.wellFormed o = true → none_ → once = true →
      ∃ t, exec i s = .next t ∧
        Rewrites s t key (s.groups.put u.gid (moved ((g.wrS sd 0).wrS (sd + 1) 0xFFFFFFFFFFFFFFFF) u 8))) ∧
    (Ring.wellFormed o = false →
      ∃ t, exec i s = .next t ∧
        Rewrites s t key (s.groups.put u.gid (moved ((g.wrS sd 0).wrS (sd + 1) 0xFFFFFFFFFFFFFFFE) u 8)))

/-- RGCOMMIT and RGREL: an index inside the open window whose bit is clear is taken in: its bit is set, and then VIS or TAIL
moves up past the `n` indices from it on whose bits are set, which are cleared, to the first whose bit is clear or to the window's
end; no other bit of memory changes but the field. An index outside the window, or whose bit is set, is answered 1, and a
malformed block 2. Each step writes the block's sector; an RGREL of helpers acts too, an RGCOMMIT of helpers does not (R334 to
R336). -/
def Sys2Proof.Claim.RingCommit : Prop :=
  ∀ (gd : Guard) (isRel : Bool) (scp : Scope) (ms : WordSpace) (sd sa sb : SReg) (s : State) (u : Issue) (g : Group)
    (key : Nat),
    let i : Instr := if isRel then .rgrel gd scp ms sd sa sb else .rgcommit gd scp ms sd sa sb
    let o := s.readNat key 32
    let x := (g.rdS sb).toNat % 2 ^ 32
    let lo := if isRel then Ring.tail o else Ring.vis o
    let hi := if isRel then Ring.peek o else Ring.head o
    let count := 2 ^ Ring.logCount o
    let at_ := fun x => (Ring.bitmap o + x % count / 8) % 2 ^ 64
    let answer := fun (r : Word64) => s.groups.put u.gid (moved (g.wrS sd r) u 8)
    let long := (hi + 2 ^ 32 - lo) % 2 ^ 32
    let d := (x + 2 ^ 32 - lo) % 2 ^ 32
    let index := fun j => (lo + j) % 2 ^ 32
    let bit := fun j => index j % count % 8
    let field := key + (if isRel then 20 else 12)
    (if isRel then Executes i gd s u g else Acts i gd s u g) → Unlogged s g.ctx →
    s.checkAccess u.gid g ms.space (g.rdS sa).toNat 32 true true = .ok key →
    (Ring.wellFormed o = false → ∃ t, exec i s = .next t ∧ Rewrites s t key (answer 2)) ∧
    (Ring.wellFormed o = true → long ≤ d → ∃ t, exec i s = .next t ∧ Rewrites s t key (answer 1)) ∧
    (∀ b, Ring.wellFormed o = true → d < long → s.checkAccess u.gid g ms.space (at_ x) 1 false true = .ok b →
      (s.readByte b).getLsbD (x % count % 8) = true → ∃ t, exec i s = .next t ∧ Rewrites s t key (answer 1)) ∧
    (∀ (n : Nat) (byte : Nat → Nat), Ring.wellFormed o = true → d < long → n ≤ long →
      let seen : Nat → Prop := fun j => j < long ∧ (j ≤ n ∨ j = d)
      (∀ j, seen j → s.checkAccess u.gid g ms.space (at_ (index j)) 1 false true = .ok (byte j) ∧
        (byte j < key ∨ key + 32 ≤ byte j)) →
      (∀ j k, seen j → seen k → byte j = byte k → at_ (index j) = at_ (index k)) →
      (s.readByte (byte d)).getLsbD (bit d) = false →
      (∀ j, j < n → j ≠ d → (s.readByte (byte j)).getLsbD (bit j) = true) →
      (n < long → n ≠ d ∧ (s.readByte (byte n)).getLsbD (bit n) = false) →
      ∃ t, exec i s = .next t ∧ t = { s with groups := answer 0, mem := t.mem, watches := t.watches } ∧
        t.readNat field 4 = index n ∧
        (∀ a, key ≤ a → a < key + 32 → a < field ∨ field + 4 ≤ a → t.readByte a = s.readByte a) ∧
        (∀ j, j < n → (t.readByte (byte j)).getLsbD (bit j) = false) ∧
        (n ≤ d → (t.readByte (byte d)).getLsbD (bit d) = true) ∧
        (∀ a b, b < 8 → a < key ∨ key + 32 ≤ a → (∀ j, j < n ∨ j = d → ¬ (byte j = a ∧ bit j = b)) →
          (t.readByte a).getLsbD b = (s.readByte a).getLsbD b) ∧
        ∀ W y, s.watches.get? W = some y → y.sector = key / 32 → t.watches.get? W = some { y with hit := true })

/-- Rings. -/
def Obligations.Rings : Prop := Claim.RingAcquire ∧ Claim.RingCommit

/-- TSPAWN enters one task for each active fibre that is no helper in the ready table of its die, ready when its tag is 0; TPOST makes the
tasks of its tag ready, in its die or in the whole package (R329, R330). -/
def Sys2Proof.Claim.TaskInstructions : Prop :=
  ∀ (gd : Guard) (s : State) (u : Issue) (g : Group),
    (∀ tag base vo off s1 g1,
      let i : Instr := .tspawn gd tag base vo off
      let lanes := lanesOf (storing g u gd)
      let entry := g.rdS (base + 1)
      let addr := laneAddr g1 base vo off
      Executes i gd s u g → Filled s u (plainReads i) s1 g1 → entry.toNat % 4 = 0 →
      (∀ f, f ∈ lanes → ∃ key, s.resolve u.gid g .sp (addr f) 1 = .ok key) →
      (s.die (dieOf g.core)).tasks.length + lanes.length ≤ 16384 →
      ∃ t, exec i s = .next t ∧ t.group? u.gid = some (moved g1 u 12) ∧
        (t.die (dieOf g.core)).tasks = (s.die (dieOf g.core)).tasks ++ lanes.zipIdx.map (fun e =>
          { ctx := g.ctx, launch := g.launch, role := g.role, entry := entry, tag := (g1.rdV tag.toNat).lane e.1
            ready := (g1.rdV tag.toNat).lane e.1 == 0, argPkg := addr e.1 / 2 ^ 40 % 2 ^ 8, argDie := addr e.1 / 2 ^ 37 % 2 ^ 3
            argOff := addr e.1 % 2 ^ 37, spawn := (s.die (dieOf g.core)).spawned.read 0 g.ctx + e.2 }) ∧
        (∀ d, d ≠ dieOf g.core → t.die d = s.die d) ∧ VectorFrame { s with dies := t.dies } u g [] t) ∧
    (∀ pkg sa, Executes (.tpost gd pkg sa) gd s u g →
      let tag : Word32 := (g.rdS sa).setWidth 32
      let reached : Nat → Prop := fun d => if pkg then d / 8 = pkgOf g.core else d = dieOf g.core
      ∃ t, exec (.tpost gd pkg sa) s = .next t ∧ t = { s with groups := s.groups.put u.gid (moved g u 8), dies := t.dies } ∧
        ∀ d, (tag ≠ 0 ∧ reached d → (t.die d).tasks = (s.die d).tasks.map fun k =>
            if k.ctx = g.ctx ∧ k.tag = tag then { k with ready := true } else k) ∧
          (tag = 0 ∨ ¬ reached d → t.die d = s.die d))

/-- TDONE sets its cohort's bit in the launch's completion bitmap, when the launch has one and the group is no task group
(R326). WDNEXT sends a request for a tile, to be answered at its aligned address (R328); that it does so whatever lock covers its
word is the model's reading (log 27). -/
def Sys2Proof.Claim.CompletionAndTiles : Prop :=
  ∀ (gd : Guard) (s : State) (u : Issue) (g : Group),
    (∀ c l, Acts (.tdone gd) gd s u g → s.cohort? g.cohort = some c → s.launch? g.launch = some l →
      (c.task = true ∨ l.doneMap = none → exec (.tdone gd) s = .next { s with groups := s.groups.put u.gid (moved g u 8) }) ∧
      (∀ a key, c.task = false → l.doneMap = some a → l.ctx = g.ctx → a + c.num / 8 < 2 ^ 48 → Unlogged s g.ctx →
        a % 2 ^ 37 + c.num / 8 < 2 ^ 37 →
        s.checkAccess u.gid g .sp (a + c.num / 8) 1 true true = .ok key →
        ∃ t, exec (.tdone gd) s = .next t ∧
          t = { s with groups := s.groups.put u.gid (moved g u 8), mem := t.mem, watches := t.watches, clusters := t.clusters } ∧
          t.readByte key = s.readByte key ||| BitVec.ofNat 8 (2 ^ (c.num % 8)) ∧
          ∀ x, x ≠ key → t.readByte x = s.readByte x)) ∧
    (∀ sa key, Acts (.wdnext gd sa) gd s u g → s.resolve u.gid g .sp (g.rdS sa).toNat 8 = .ok key → (g.rdS sa).toNat % 8 = 0 →
      (s.unanswered u.gid).length < 8 →
      exec (.wdnext gd sa) s = .next { s with
        groups := s.groups.put u.gid (moved g u 8)
        ops := s.ops.put s.nextOp { ctx := g.ctx, gid := some u.gid, sd := none, work :=
          (.tile { launch := g.launch, addr := g.rdS sa, thread := s.strokeThread g u.mask }) }
        nextOp := s.nextOp + 1 })

/-- Launches, tasks, completion bits and tiles. -/
def Obligations.WorkInstructions : Prop := Claim.TaskInstructions ∧ Claim.CompletionAndTiles

/-! # Traps and the system -/

/-- TRAP and BKPT enter the handler, to resume after themselves, with their number as fault address (R351, R359). Words
that do not decode raise their cause (R101). That XSTAT.BPSKIP is 0 after a trap is the model's choice (log 42). -/
def Obligations.TrapEntry : Prop :=
  ∀ (gd : Guard) (code : BitVec 16) (s : State) (u : Issue) (g : Group), CanTrap s g →
    (Executes (.trap gd code) gd s u g →
      ∃ t, exec (.trap gd code) s = .next t ∧ Handling s u g u.mask 0x40 (u.pc + 8) (code.setWidth 64) t) ∧
    (Executes (.bkpt gd code) gd s u g →
      ∃ t, exec (.bkpt gd code) s = .next t ∧ Handling s u g u.mask 0x41 (u.pc + 8) (code.setWidth 64) t) ∧
    (∀ c, Issues s u g →
      ∃ t, exec (.unassignedOpcode c) s = .next t ∧
        Handling s u g u.mask (match c with | .illegalEncoding => 0x01 | .illegalOpcode => 0x02 | .illegalOperand => 0x03 | .fetchAlign => 0x04)
          u.pc (if c = .fetchAlign then u.pc else 0) t)

/-- XRET of a whole trap stroke: its fibres resume at XPC in the mode that PRIVPREV holds, no handler is running any more,
and XSTAT.MASK is clear (R359); a trap that was held enters the handler then, the oldest first (R352), with BPSKIP 0, which is the
model's choice (log 42). XRET of a part of the trap stroke returns that part alone, and the handler runs on. An XPC that is no
multiple of 4 ends the context with FETCH_ALIGN (R353). Outside a trap stroke XRET does nothing. -/
def Obligations.TrapReturn : Prop :=
  ∀ (gd : Guard) (s : State) (u : Issue) (g : Group), Executes (.xret gd) gd s u g → privilegedAt g u.mask = true →
    (u.mask = g.trapMask → u.mask ≠ 0 → g.sys.xpc.toNat % 4 = 0 → (∀ f, f < 32 → (g.fibre f).held = none) →
      ∃ t h, exec (.xret gd) s = .next t ∧ t = { s with groups := s.groups.put u.gid h } ∧
        h = { g with fibres := h.fibres, sys := h.sys } ∧ h.trapMask = 0 ∧
        h.sys = { g.sys with xstat := g.sys.xstat &&& ~~~(u.mask.setWidth 64) } ∧
        (∀ f, f < 32 → u.mask.getLsbD f = true → h.fibre f = { g.fibre f with
          pc := g.sys.xpc, priv := g.sys.xstat.getLsbD 32, inTrap := false, skipBp := g.sys.xstat.getLsbD 33 }) ∧
        (∀ f, f < 32 → u.mask.getLsbD f = false → h.fibre f = g.fibre f)) ∧
    (u.mask &&& ~~~g.trapMask = 0 → u.mask ≠ 0 → g.trapMask &&& ~~~u.mask ≠ 0 → g.sys.xpc.toNat % 4 = 0 →
      ∃ t h, exec (.xret gd) s = .next t ∧ t = { s with groups := s.groups.put u.gid h } ∧
        h = { g with fibres := h.fibres, sys := h.sys } ∧ h.trapMask = g.trapMask &&& ~~~u.mask ∧
        h.sys = { g.sys with xstat := g.sys.xstat &&& ~~~(u.mask.setWidth 64) } ∧
        (∀ f, f < 32 → u.mask.getLsbD f = true → h.fibre f = { g.fibre f with
          pc := g.sys.xpc, priv := g.sys.xstat.getLsbD 32, inTrap := false, skipBp := g.sys.xstat.getLsbD 33 }) ∧
        (∀ f, f < 32 → u.mask.getLsbD f = false → h.fibre f = g.fibre f)) ∧
    (∀ (m : BitVec 32) (x : HeldTrap), u.mask = g.trapMask → u.mask ≠ 0 → g.sys.xpc.toNat % 4 = 0 → m ≠ 0 →
      (∀ f, f < 32 → (m.getLsbD f = true ↔ ∃ y, (g.fibre f).held = some y ∧ y.order = 0)) → (g.fibre (lowest m)).held = some x →
      (∀ f, f < 32 → u.mask.getLsbD f = true → (g.fibre f).held = none) →
      ∃ t h, exec (.xret gd) s = .next t ∧ t = { s with groups := s.groups.put u.gid h } ∧
        h = { g with fibres := h.fibres, sys := h.sys } ∧ h.trapMask = m ∧
        h.sys = { g.sys with
          xpc := if x.plus8 then (g.fibre (lowest m)).pc + 8 else (g.fibre (lowest m)).pc
          xcause := x.cause.setWidth 64, xaddr := (g.fibre (lowest m)).operand
          xstat := m.setWidth 64 ||| (if (lanesOf m).any fun f => (g.fibre f).priv then 0x100000000 else 0) } ∧
        (∀ f, f < 32 → m.getLsbD f = true → (h.fibre f).pc = s.xvec g.ctx ∧ (h.fibre f).priv = true ∧ (h.fibre f).inTrap = true ∧
          (h.fibre f).wait = .none ∧ (h.fibre f).held = none) ∧
        (∀ f, f < 32 → u.mask.getLsbD f = true → h.fibre f = { g.fibre f with
          pc := g.sys.xpc, priv := g.sys.xstat.getLsbD 32, inTrap := false, skipBp := g.sys.xstat.getLsbD 33 }) ∧
        (∀ f, f < 32 → u.mask.getLsbD f = false → m.getLsbD f = false → h.fibre f = { g.fibre f with
          held := (g.fibre f).held.map fun y => { y with order := y.order - 1 } })) ∧
    (u.mask &&& g.trapMask ≠ 0 → g.sys.xpc.toNat % 4 ≠ 0 → ∃ t, exec (.xret gd) s = .next t ∧ EndedWith s g.ctx 0x04 t) ∧
    (u.mask &&& g.trapMask = 0 → exec (.xret gd) s = .next { s with groups := s.groups.put u.gid (moved g u 8) })

/-- A privileged instruction in user mode raises PRIVILEGE in the whole stroke whatever its guard (R100, R101); SYSRD and
SYSWR of a register that needs privilege do so when they execute, with the register's number as fault address (R100, R355
to R357). That XSTAT.BPSKIP is 0 after a trap is the model's choice (log 42). -/
def Obligations.PrivilegeTrap : Prop :=
  ∀ (gd : Guard) (sd sa : SReg) (s : State) (u : Issue) (g : Group), Issues s u g → privilegedAt g u.mask = false → CanTrap s g →
    (∀ i, i = .xret gd ∨ i = .fretry gd sd sa ∨ i = .fretryExhaust gd sd sa ∨ i = .fretryFatal gd sd sa →
      ∃ t, exec i s = .next t ∧ Handling s u g u.mask 0x05 u.pc 0 t) ∧
    (∀ n, n = .xpc ∨ n = .xcause ∨ n = .xstat ∨ n = .xaddr ∨ n = .xscr0 ∨ n = .xscr1 →
      Executes (.sysrd gd sd n) gd s u g → ∃ t, exec (.sysrd gd sd n) s = .next t ∧ Handling s u g u.mask 0x05 u.pc (BitVec.ofNat 64 n.number) t) ∧
    (∀ n, n = .xpc ∨ n = .xcause ∨ n = .xstat ∨ n = .xaddr ∨ n = .xscr0 ∨ n = .xscr1 ∨ n = .xvec ∨ n = .scrctl ∨ n = .scrbase
        ∨ n = .scrwidx →
      Executes (.syswr gd n sa) gd s u g → ∃ t, exec (.syswr gd n sa) s = .next t ∧ Handling s u g u.mask 0x05 u.pc (BitVec.ofNat 64 n.number) t) ∧
    (Executes (.syswrXlflush gd sa) gd s u g → ∃ t, exec (.syswrXlflush gd sa) s = .next t ∧ Handling s u g u.mask 0x05 u.pc 68 t) ∧
    (Executes (.syswrScrridx gd sa) gd s u g →
      ∃ t, exec (.syswrScrridx gd sa) s = .next t ∧ Handling s u g u.mask 0x05 u.pc 83 t)

/-- What a read of a system register gives (R59, R253, R337, R356, R357, R387). -/
def Sys2Proof.Claim.stored (s : State) (g : Group) : SysReg → Option Word64
  | .fstat => some g.sys.fstat | .psig => some g.sys.psig | .depmask => some g.sys.depmask | .stkp => some g.sys.stkp
  | .argloc => some g.sys.argloc | .xpc => some g.sys.xpc | .xcause => some g.sys.xcause | .xstat => some g.sys.xstat
  | .xaddr => some g.sys.xaddr | .xscr0 => some g.sys.xscr0 | .xscr1 => some g.sys.xscr1 | .xvec => some (s.xvec g.ctx)
  | .ghelp => some (g.helpers.setWidth 64) | .regbudget => some (BitVec.ofNat 64 (g.budget % 2 ^ 11))
  | .stklim => some (BitVec.ofNat 64 (g.stack % 2 ^ 32)) | .xlflush => some 0 | .timebase => some (s.ticks (pkgOf g.core))
  | .xbound k => some ((g.sys.xbound.get? k.toNat).getD (BitVec.ofNat 64 ((g.budget - 1) % 2 ^ 11 * 2 ^ 16)))
  | .launchid => (s.launch? g.launch).map fun l => BitVec.ofNat 64 l.num
  | .wdlimit => (s.context? g.ctx).map fun c => BitVec.ofNat 64 (c.wdlimit % 2 ^ 32)
  | .nametab => (s.context? g.ctx).map fun c => BitVec.ofNat 64 (c.nametab % 2 ^ 56 + c.nametabN % 256 * 2 ^ 56)
  | .faultq => (s.context? g.ctx).map fun c => BitVec.ofNat 64 (c.faultq % 2 ^ 48)
  | .spwin d => some (s.spwin g.ctx (pkgOf g.core) d.toNat)
  | .scrctl =>
    let x := s.scroll g.ctx (pkgOf g.core)
    some (BitVec.ofNat 64 (x.mode % 4 + (if x.noReuse then 4 else 0) + (if x.frozen then 8 else 0) + (if x.high then 16 else 0)
      + x.logSize % 64 * 256))
  | .scrbase => some (BitVec.ofNat 64 ((s.scroll g.ctx (pkgOf g.core)).base % 2 ^ 56))
  | .scrwidx => some ((s.scroll g.ctx (pkgOf g.core)).widx.setWidth 64)
  | .scrridx => some ((s.scroll g.ctx (pkgOf g.core)).ridx.setWidth 64)
  | .pgrank => (s.launchOf g).map fun l =>
    let rank := match l.ranks.find? fun r => r.pkg == pkgOf g.core with | some r => r.rank | none => 0
    BitVec.ofNat 64 (pkgOf g.core % 256 * 2 ^ 32 + rank % 2 ^ 16 * 2 ^ 16 + (if l.ranks = [] then 1 else l.ranks.length % 2 ^ 16))
  | .mxbudget => some ((s.island (islandOf g.core)).units.setWidth 64)
  | .spbase => some (BitVec.ofNat 64 (pkgOf g.core * 2 ^ 40 + dieOf g.core % 8 * 2 ^ 37))
  | .devrev => some (BitVec.ofNat 64 (0x0480 * 2 ^ 16 + (Config.fuseForm (s.partOf (pkgOf g.core))).toNat * 2 ^ 8
      + (Config.fuseRev (s.partOf (pkgOf g.core))).toNat))

/-- What a write leaves in a per-group register: w1c fields clear the bits written as 1, Zero fields stay 0, and a
read-only register is as it was (R7, R356, R357). -/
def Sys2Proof.Claim.written (r : SysRegs) (n : SysReg) (v : Word64) : SysRegs :=
  match n with
  | .fstat => { r with fstat := r.fstat &&& ~~~(v &&& 0x1F) }
  | .psig => { r with psig := r.psig &&& ~~~(v &&& 0x1FFFFFFFF) }
  | .depmask => { r with depmask := r.depmask &&& ~~~(v &&& 0xFF) }
  | .stkp => { r with stkp := v &&& 0xFFFFFFFF }
  | .xbound k => { r with xbound := r.xbound.put k.toNat (v &&& 0x07FF07FF) }
  | .xpc => { r with xpc := v } | .xcause => { r with xcause := v &&& 0xFF }
  | .xstat => { r with xstat := (r.xstat &&& 0xFFFFFFFF) ||| (v &&& 0x300000000) }
  | .xaddr => { r with xaddr := v } | .xscr0 => { r with xscr0 := v } | .xscr1 => { r with xscr1 := v }
  | _ => r

/-- SYSRD writes what the register holds into sd and nothing else (R356, R359). -/
def Sys2Proof.Claim.SystemRegisterReads : Prop :=
  ∀ (gd : Guard) (sd : SReg) (n : SysReg) (s : State) (u : Issue) (g : Group), Executes (.sysrd gd sd n) gd s u g →
    privilegedAt g u.mask = true ∨ SysReg.privRead n = false →
    ∃ t v, exec (.sysrd gd sd n) s = .next t ∧ Only s u g (moved (g.wrS sd v) u 8) t ∧ (∀ w, stored s g n = some w → v = w)

/-- SYSWR: a per-group register takes what its access codes leave of the value, in user mode too where the register's access
allows it; XVEC takes a multiple of 8; SCRCTL lets HIGH be cleared; SCRRIDX takes the value unless the fill would exceed the
capacity, and sets HIGH where the fill comes to 7/8 of it; XLFLUSH drops the context's cached translations of the package
(R337, R344, R356, R357). -/
def Sys2Proof.Claim.SystemRegisterWrites : Prop :=
  ∀ (gd : Guard) (sa : SReg) (s : State) (u : Issue) (g : Group),
    (∀ n, Executes (.syswr gd n sa) gd s u g → privilegedAt g u.mask = true ∨ SysReg.privWrite n = false →
      n ≠ .xvec → n ≠ .scrctl → n ≠ .scrridx → n ≠ .xlflush →
      ∃ t, exec (.syswr gd n sa) s = .next t ∧ Only s u g (moved { g with sys := written g.sys n (g.rdS sa) } u 8) t) ∧
    (∀ n, SysReg.privWrite n = false ↔ n = .fstat ∨ n = .psig ∨ n = .depmask ∨ n = .stkp ∨ (∃ k, n = .xbound k) ∨
      n = .ghelp ∨ n = .regbudget ∨ n = .stklim ∨ n = .launchid ∨ n = .argloc ∨ n = .wdlimit ∨ n = .nametab ∨ n = .faultq ∨
      (∃ d, n = .spwin d) ∨ n = .timebase ∨ n = .pgrank ∨ n = .mxbudget ∨ n = .spbase ∨ n = .devrev) ∧
    (privilegedAt g u.mask = true →
      (∀ c, Executes (.syswr gd .xvec sa) gd s u g → s.context? g.ctx = some c →
        exec (.syswr gd .xvec sa) s = .next { s with
          groups := s.groups.put u.gid (moved g u 8)
          contexts := s.contexts.put g.ctx { c with xvec := g.rdS sa &&& ~~~7 } }) ∧
      (∀ x, Executes (.syswr gd .scrctl sa) gd s u g → (s.site? g.ctx (pkgOf g.core)).map (·.scroll) = some x →
        ∃ t, exec (.syswr gd .scrctl sa) s = .next t ∧
          t = { s with groups := s.groups.put u.gid (moved g u 8), contexts := t.contexts } ∧
          t.scroll g.ctx (pkgOf g.core) = (if (g.rdS sa).getLsbD 4 then { x with high := false } else x)) ∧
      (∀ x, Executes (.syswrScrridx gd sa) gd s u g → (s.site? g.ctx (pkgOf g.core)).map (·.scroll) = some x →
        let r : Word32 := (g.rdS sa).setWidth 32
        let cap := 2 ^ (x.logSize - 5)
        let mark := (7 * cap + 7) / 8
        ∃ t, exec (.syswrScrridx gd sa) s = .next t ∧
          t = { s with groups := s.groups.put u.gid (moved g u 8), contexts := t.contexts } ∧
          t.scroll g.ctx (pkgOf g.core) = (if (x.widx - r).toNat ≤ cap then
            { x with ridx := r, high := x.high || decide ((x.widx - x.ridx).toNat < mark ∧ mark ≤ (x.widx - r).toNat) } else x)) ∧
      (Executes (.syswrXlflush gd sa) gd s u g →
        exec (.syswrXlflush gd sa) s = .next { s with
          groups := s.groups.put u.gid (moved g u 8)
          xlat := s.xlat.filter fun e => !(e.ctx == g.ctx && e.pkg == pkgOf g.core) }))

/-- SYSRD and SYSWR of every register (R356, R357). That number 12 is ARGLOC, as R356's table has it and the example in R362 does not,
is the model's choice (log 1). -/
def Obligations.SystemRegisters : Prop := Claim.SystemRegisterReads ∧ Claim.SystemRegisterWrites

/-- LOGMARK writes nothing but its MARK record, with its operand and TIMEBASE (R341, R359); EVPOST to name 0 puts the message
into the event queue, and one of a bad length is turned away with BADLEN (R361, R379), both in the EVPOST's own step, which is the
model's choice (log 31); FRETRY frees the entries of its
context and page and counts them, and its .exhaust and .fatal forms end the context (R272, R360). -/
def Obligations.SystemInstructions : Prop :=
  ∀ (gd : Guard) (s : State) (u : Issue) (g : Group),
    (∀ sa, Executes (.logmark gd sa) gd s u g →
      (Unlogged s g.ctx → exec (.logmark gd sa) s = .next { s with groups := s.groups.put u.gid (moved g u 8) }) ∧
      (∀ c x pa, s.context? g.ctx = some c → c.confidential = false → s.scroll g.ctx (pkgOf g.core) = x →
        (s.site? g.ctx (pkgOf g.core)).isSome = true → x.mode = 1 → x.full = false →
        x.base % 32 = 0 → (∃ r, s.walk g.ctx (pkgOf g.core) .imageRead (x.base + 32 * (x.widx.toNat % x.cap)) = .ok r) → s.walk g.ctx (pkgOf g.core) .imageWrite (x.base + 32 * (x.widx.toNat % x.cap)) = .ok pa →
        ∃ t, exec (.logmark gd sa) s = .next t ∧ t.group? u.gid = some (moved g u 8) ∧
          t.readBytes pa 32 = [10, 1] ++ toBytes 2 (g.core % 256 * 4 + g.sched) ++ toBytes 4 (x.seqs.read 0 (65536 + (g.core % 256 * 4 + g.sched)))
            ++ toBytes 8 (s.strokeThread g u.mask).toNat ++ toBytes 8 (g.rdS sa).toNat ++ toBytes 8 (s.ticks (pkgOf g.core)).toNat ∧
          (t.scroll g.ctx (pkgOf g.core)).widx = x.widx + 1 ∧
          ∀ a, a < pa ∨ pa + 32 ≤ a → t.readByte a = s.readByte a)) ∧
    (∀ sd nA aA lA code c,
      let i : Instr := .evpost gd sd nA aA lA code
      let len := (g.rdS lA).toNat
      Acts i gd s u g →
      (len % 8 ≠ 0 ∨ 256 < len → ∃ t, exec i s = .next t ∧ Only s u g (moved (g.wrS sd 9) u 16) t) ∧
      (∀ key ms, len % 8 = 0 → len ≤ 256 → g.rdS nA &&& ~~~255 = 0 → s.context? g.ctx = some c → c.events.length < 4095 →
        ((g.rdS aA).toNat / 2 ^ 56 = 1 ∧ ms = .sh) ∨ ((g.rdS aA).toNat / 2 ^ 56 = 3 ∧ ms = .sp) →
        len = 0 ∨ s.resolve u.gid g ms ((g.rdS aA).toNat % 2 ^ 56) len = .ok key → s.locks = [] → Unlogged s g.ctx →
        exec i s = .next { s with
          groups := s.groups.put u.gid (moved (g.wrS sd 0) u 16)
          contexts := s.contexts.put g.ctx { c with events := c.events ++ [
            { kind := 4, pkg := pkgOf g.core, time := (s.ticks (pkgOf g.core)).toNat
              body := toBytes 2 code.toNat ++ toBytes 2 len ++ zeros 4 ++ toBytes 8 g.name.toNat
              message := s.readBytes key len }] } })) ∧
    (∀ sd sa, privilegedAt g u.mask = true →
      (Executes (.fretry gd sd sa) gd s u g →
        let hit : FaultEntry → Bool := fun e => e.ctx == g.ctx && e.page == (g.rdS sa).toNat / 65536
        let freed := ((s.dies.filter fun d => d.1 / 8 == pkgOf g.core).map fun d => (d.2.faults.filter fun e => hit e.2).length).sum
        ∃ t, exec (.fretry gd sd sa) s = .next t ∧ t.group? u.gid = some (moved (g.wrS sd (BitVec.ofNat 64 freed)) u 8) ∧
          (∀ d, d / 8 = pkgOf g.core → (t.die d).faults = (s.die d).faults.filter fun e => !hit e.2) ∧
          (∀ d, d / 8 ≠ pkgOf g.core → t.die d = s.die d) ∧
          (Unlogged s g.ctx → t = { s with groups := t.groups, dies := t.dies, ops := t.ops })) ∧
      (∀ i cause c, (i = .fretryExhaust gd sd sa ∧ cause = (0x80 : Byte)) ∨ (i = .fretryFatal gd sd sa ∧ cause = 0x81) →
        Executes i gd s u g → s.context? g.ctx = some c → c.ended = none →
        ∃ t c', exec i s = .next t ∧ t.context? g.ctx = some c' ∧ c'.ended = some cause ∧
          ∀ n q, t.group? n = some q → q.ctx = g.ctx → q.phase = .dead))

/-! # Events: strokes and waits -/

namespace Sys2Proof.Claim

/-- Fibres go on `n` bytes after the instruction that they waited in; the others are as before. -/
def Resumed (g h : Group) (m : BitVec 32) (n : Nat) : Prop :=
  ∀ f, f < 32 →
    (m.getLsbD f = true → (h.fibre f).wait = .none ∧ (h.fibre f).pc = (g.fibre f).pc + BitVec.ofNat 64 n) ∧
    (m.getLsbD f = false → h.fibre f = g.fibre f)

/-- A group and nothing else has changed. -/
def Just (s : State) (gid : Nat) (h : Group) (t : State) : Prop := t = { s with groups := s.groups.put gid h }

/-- A re-formation at a cycle that is a multiple of 4: running fibres of a resident group share a stroke exactly when their
program counters, their modes and their handler states agree, and nothing else of a fibre changes (R34); a fibre whose stroke is a
formed one loses the hint that it had, as a stroke keeps no record of how it came together (R156); that other fibres keep theirs is
the model's choice (log 48). -/
def Reformation : Prop :=
  ∀ s : State, s.cycle % 4 = 0 → s.served = 0 →
    ∃ t, exec .strokeReformation s = .next t ∧ t = { s with groups := t.groups } ∧
      ∀ n g, s.group? n = some g → ∃ h, t.group? n = some h ∧
        h = { g with fibres := h.fibres, fresh := h.fresh, favour := h.favour } ∧
        (∀ f, f < 32 → h.fibre f = { g.fibre f with stroke := (h.fibre f).stroke }) ∧
        (g.phase ≠ .resident ∨ (s.scroll g.ctx (pkgOf g.core)).mode = 2 → h = g) ∧
        (g.phase = .resident → (s.scroll g.ctx (pkgOf g.core)).mode ≠ 2 → h.fresh = false ∧
          (∀ e f, e < 32 → f < 32 → g.running.getLsbD e = true → g.running.getLsbD f = true →
            ((h.fibre e).stroke = (h.fibre f).stroke ↔ (g.fibre e).pc = (g.fibre f).pc ∧ (g.fibre e).priv = (g.fibre f).priv
              ∧ (g.fibre e).inTrap = (g.fibre f).inTrap)) ∧
          h.favour ≠ some 0 ∧
          ∀ e, e < 32 → ((∃ m, h.favour = some m ∧ m.getLsbD e = true) ↔ (∃ m, g.favour = some m ∧ m.getLsbD e = true) ∧
            (g.running.getLsbD e = true → h.strokeOf e = g.strokeOf e)))

/-- A group that has been ready for 224 cycles since it last issued is urgent (R35); MEETs of all live fibres release them
(R39); sleeps whose deadline has come end (R154). That a release leaves the program counter, which stands behind the SLEEP from the
moment that the fibre sleeps, is the model's choice (log 2). -/
def GroupEvents : Prop :=
  ∀ (s : State) (gid : Nat) (g : Group), s.group? gid = some g →
    (g.phase = .resident → g.readyFrom ≠ 0 → g.readyFrom - 1 + 224 ≤ s.cycle →
      exec (.groupUrgent gid) s = .next { s with groups := s.groups.put gid { g with urgent := true } }) ∧
    (g.live ≠ 0 → g.parkedFor .meet = g.live →
      ∃ t h, exec (.meetRelease gid) s = .next t ∧ Just s gid h t ∧
        h = { g with fibres := h.fibres, fresh := false, favour := h.favour } ∧
        ∀ f, f < 32 → g.live.getLsbD f = true → (h.fibre f).wait = .none ∧ (h.fibre f).pc = (g.fibre f).pc + 8) ∧
    (g.phase = .resident → Unlogged s g.ctx →
      (∀ e f, (g.parkedFor .sleep).getLsbD e = true → (g.parkedFor .sleep).getLsbD f = true →
        (g.fibre e).stroke = (g.fibre f).stroke → (g.fibre e).pc = (g.fibre f).pc → (g.fibre e).operand = (g.fibre f).operand) →
      ∃ t h, exec (.sleepExpiry gid) s = .next t ∧ t.group? gid = some h ∧ t = { s with groups := t.groups } ∧
        (∀ n, n ≠ gid → t.group? n = s.group? n) ∧ h = { g with fibres := h.fibres } ∧
        ∀ f, f < 32 →
          ((g.parkedFor .sleep).getLsbD f = true ∧ (g.fibre f).operand.toNat ≤ (s.ticks (pkgOf g.core)).toNat →
            (h.fibre f).wait = .none ∧ (h.fibre f).pc = (g.fibre f).pc) ∧
          ((g.parkedFor .sleep).getLsbD f = false ∨ (s.ticks (pkgOf g.core)).toNat < (g.fibre f).operand.toNat → h.fibre f = g.fibre f))

/-- A register that no answer is on its way to, and no write that came after such an answer (R78, R256). -/
def Free (g : Group) (r : SReg) : Prop := g.pending.get? r.toNat = none ∧ g.late.get? r.toNat = none

/-- A write to the sector that a parked WAITW watches makes it read again, which is a request of its core (R397): it returns with
a true predicate when its word differs from the comparison value, and parks again when it does not; with no such write it goes on
waiting. At its deadline it reads once more and returns, with a predicate that says whether the word differs (R191). Where an
answer of work in flight is on its way to the register, the write comes after it (R256). -/
def WordEvents : Prop :=
  ∀ (s : State) (gid f : Nat) (g : Group) (gd : Guard) (acq : Option Scope) (ms : WordSpace) (b64 : Bool) (base sv sc st : SReg)
    (k : UPred) (off : Word32) (key : Nat), s.group? gid = some g → g.phase = .resident → Unlogged s g.ctx →
    (g.fibre f).wait = .waitw → (g.fibre f).instr = some (.waitw gd acq ms b64 base sv sc st k off) →
    s.resolve gid g ms.space (g.fibre f).operand.toNat (if b64 then 8 else 4) = .ok key →
    let w := s.readNat key (if b64 then 8 else 4)
    let c := (g.rdS sc).toNat % (if b64 then 2 ^ 64 else 2 ^ 32)
    let W := 32 * gid + f
    let gone : Group → State → Prop := fun h t =>
      t = { s with groups := s.groups.put gid h, watches := s.watches.erase W, cores := t.cores } ∧
      h = { (g.wrS sv (BitVec.ofNat 64 w)).wrSp k (w != c) with fibres := h.fibres } ∧ Resumed g h (g.strokeOf f) 16
    (∀ x, s.watches.get? W = some x → x.hit = true →
      (w ≠ c → Free g sv → ∃ t h, exec (.waitwWake gid f) s = .next t ∧ gone h t) ∧
      (∀ o, w ≠ c → g.pending.get? sv.toNat = some o → ∃ t h, exec (.waitwWake gid f) s = .next t ∧ t.group? gid = some h ∧
        h.late.get? sv.toNat = some (BitVec.ofNat 64 w) ∧ h.rdS sv = g.rdS sv ∧ h.pending = g.pending ∧
        ∀ e, e < 32 → (g.strokeOf f).getLsbD e = true → (h.fibre e).wait = .engine ∧ (h.fibre e).pc = (g.fibre e).pc + 16) ∧
      (w = c → ∃ t, exec (.waitwWake gid f) s = .next t ∧
        t = { s with watches := s.watches.put W { x with hit := false }, cores := t.cores })) ∧
    ((∀ x, s.watches.get? W = some x → x.hit = false) → exec (.waitwWake gid f) s = .next s) ∧
    (Free g sv → (g.fibre f).deadline ≠ 0 → (g.fibre f).deadline ≤ (s.ticks (pkgOf g.core)).toNat → ∃ t h, exec (.waitwTimeout gid f) s = .next t ∧ gone h t)

/-- NPARK returns 2^33 at its deadline (R314), and NJOIN the status TIMEOUT with its target's state (R313); with the state EMPTY
where the target's context has been freed since, which is the model's choice (log 29). -/
def NameTimeouts : Prop :=
  ∀ (s : State) (gid f : Nat) (g : Group), s.group? gid = some g → g.phase = .resident → Unlogged s g.ctx →
    (g.fibre f).ended = false → (g.fibre f).kind ≠ .empty → (g.fibre f).deadline ≠ 0 →
    (g.fibre f).deadline ≤ (s.ticks (pkgOf g.core)).toNat →
    (∀ gd sd limit, Free g sd → (g.fibre f).wait = .npark → (g.fibre (lowest (g.strokeOf f))).instr = some (.npark gd sd limit) → g.sys.psig = 0 →
      ∃ t h, exec (.nparkTimeout gid f) s = .next t ∧ Just s gid h t ∧
        h = { g.wrS sd 0x200000000 with fibres := h.fibres } ∧ Resumed g h (g.strokeOf f) 8) ∧
    (∀ o c i op n st sd r d, Free g sd → Free g (sd + 1) → (g.fibre f).wait = .njoin → joinOf s gid (g.strokeOf f) = some (o, c, i) → s.op? o = some op →
      op.work = .name n → n.host = none → n.act = .join r d → op.gid = some gid → op.sd = some sd →
      (n.adrift = false ∧ ∃ e, s.entry? c i = some e ∧ st = e.state) ∨ (n.adrift = true ∧ st = 0) →
      ∃ t h, exec (.njoinTimeout gid f) s = .next t ∧ t.op? o = none ∧ t.group? gid = some h ∧
        h = { g.wrS sd (BitVec.ofNat 64 (8 + st % 8 * 256)) with fibres := h.fibres } ∧
        Resumed g h (g.parkedFor .njoin &&& n.mask) 8)

end Sys2Proof.Claim

/-- Events of the schedulers (R34, R35, R39, R154). -/
def Obligations.StrokeEvents : Prop := Reformation ∧ GroupEvents

/-- Ends of waits (R191, R313, R314). -/
def Obligations.WaitEvents : Prop := WordEvents ∧ NameTimeouts

/-! # Events: engines -/

namespace Sys2Proof.Claim

/-- No piece of an operation is parked in a fault buffer. -/
def Unparked (s : State) (o : Nat) : Prop :=
  ∀ d e p, d ∈ s.dies → e ∈ d.2.faults → p ∈ e.2.pieces → p.1 ≠ o

/-- The status word of work waits to land in register `sd` of a group. -/
def Awaits (s : State) (o : Nat) (op : Op) (gid : Nat) (g : Group) (sd : SReg) : Prop :=
  op.gid = some gid ∧ op.sd = some sd ∧ s.group? gid = some g ∧ g.pending.get? sd.toNat = some o ∧
    g.late.get? sd.toNat = none ∧ g.deposits.get? sd.toNat = none

/-- It has landed, the operation is gone and so are its locks (R179, R256). -/
def Landed (s : State) (o gid : Nat) (g : Group) (sd : SReg) (v : Nat) (t : State) : Prop :=
  t.op? o = none ∧ (∀ l, l ∈ t.locks → l.owner ≠ .op o) ∧
  (∃ h, t.group? gid = some h ∧ h.rdS sd = BitVec.ofNat 64 v ∧ h.pending.get? sd.toNat = none ∧
    (∀ r, r ≠ sd → h.rdS r = g.rdS r) ∧ h.v = g.v ∧ h.p = g.p ∧ h.sp = g.sp ∧ h.x = g.x ∧ h.sys = g.sys ∧
    ∀ f, f < 32 → (h.fibre f).pc = (g.fibre f).pc) ∧
  ∀ n, n ≠ gid → (t.group? n).map (fun q => (q.s, q.v, q.p, q.sp, q.sys)) = (s.group? n).map (fun q => (q.s, q.v, q.p, q.sp, q.sys))

/-- A piece of a copy may act: it is neither written nor parked, and no error has stopped it (R266, R270). The translation caches
agree with the tables, since the model's free choice decides for a stale entry (R166; log 15). -/
structure PieceDue (s : State) (o k : Nat) (op : Op) (c : CopyOp) : Prop where
  isOp     : s.op? o = some op
  isCopy   : op.work = .copy c
  going    : c.code = none ∨ k ∈ c.flying
  todo     : k ∉ c.done ∧ k ∉ c.uncounted
  unparked : ∀ d e, d ∈ s.dies → e ∈ d.2.faults → (o, k) ∉ e.2.pieces
  unlogged : Unlogged s op.ctx
  fresh    : ∀ e, e ∈ s.xlat → e.ctx = op.ctx → e.pkg = pkgOf c.core →
    s.leafNow op.ctx (pkgOf c.core) (e.page * 65536) = .leaf e.leaf e.shift

/-- A virtual address lies at a place in memory that a copy may use (R164, R267). -/
def Paged (s : State) (ctx pkg : Nat) (who : Who) (a x : Nat) : Prop :=
  ∃ pa, s.walk ctx pkg who (a / 65536 * 65536) = .ok pa ∧ absentTier s pa = false ∧ x = pa + a % 65536

/-- Byte `j` of a range lies at a place in memory. -/
def Lies (s : State) (ctx pkg : Nat) (who : Who) (r : Range) (j x : Nat) : Prop :=
  match r with
  | .chip p a => x = p + a + j
  | .vm A => Paged s ctx pkg who (A + j) x

/-- What is added to a byte of a range where it lies: something in pages of a confidential context (R165). -/
def padOf (s : State) (ctx : Nat) (r : Range) (x : Nat) : Byte := match r with | .chip _ _ => 0 | .vm _ => s.pad ctx x

/-- Byte `j` of the source has been read ahead: by a copy onto its own source, which reads all of it before it writes (R260), or by
a fan-out, which reads it once (R265). -/
def Ahead (c : CopyOp) (j : Nat) : Prop := c.buffered = true ∧ (c.buffer.get? ((c.src.off + j) / 65536)).isSome = true

/-- Byte `j` of the source, which lies at `x` if it has not been read ahead. -/
def sourceByte (s : State) (ctx : Nat) (c : CopyOp) (j x : Nat) : Byte :=
  let page := (c.src.off + j) / 65536
  match (if c.buffered then c.buffer.get? page else none) with
  | some l => l.getD (c.src.off + j - max c.src.off (page * 65536)) 0
  | none => s.readByte x ^^^ padOf s ctx c.src x

/-- An engine's update of the barrier at `key` has left `b`, before the test for settlement (R194). -/
def Counts (s t : State) (key : Nat) (b : Barrier) : Prop :=
  (b.settles → Settled s t key b (fun _ q => q) fun _ _ => False) ∧
  (¬ b.settles → barrier (t.readNat key 32) = b ∧ t.groups = s.groups)

/-- A barrier, if it has the magic (R194). -/
def sound (s : State) (bar : Option BarAt) : Option BarAt := bar.filter fun r => (barrier (s.readNat r.key 32)).magic == 0x5CB1

/-- A piece of a copy has been written: each place that it writes holds one of the bytes meant for it; its `n` bytes are counted by
the copy, and on its barrier, if that has the magic, or else the copy keeps that it has not (R260, R265, R266). Nothing else changes,
but for what a settlement releases. -/
def Wrote (s t : State) (o k : Nat) (op : Op) (c : CopyOp) (bar : Option BarAt) (n : Nat) (writes : Nat → Byte → Prop) : Prop :=
  let next := fun r : BarAt => (barrier (s.readNat r.key 32)).delivered n
  (∃ d, t.op? o = some { op with work := .copy d } ∧ d = { c with
    done := c.done ++ [k], flying := c.flying.erase k, bytes := (c.bytes + n) % 2 ^ 32
    barBad := c.barBad || (bar.isSome && (sound s bar).isNone), issued := d.issued, tags := d.tags, buffer := d.buffer }) ∧
  (∀ p, p ≠ o → t.op? p = s.op? p) ∧
  (∀ r, sound s bar = some r → Counts s t r.key (next r)) ∧
  ((∀ r, sound s bar = some r → (next r).settles → QuietWaits s r.key) →
    t = { s with groups := t.groups, ops := t.ops, mem := t.mem, watches := t.watches, cores := t.cores, xlat := t.xlat,
                 freeTick := t.freeTick } ∧
    (sound s bar = none → t.groups = s.groups) ∧
    (∀ x, (∃ b, writes x b) → writes x (t.readByte x)) ∧
    ∀ x, (∀ b, ¬ writes x b) → (∀ r, sound s bar = some r → x < r.key ∨ r.key + 32 ≤ x) → t.readByte x = s.readByte x)

/-- No byte that a piece writes is one of its barrier's. -/
def Aside (bar : Option BarAt) (writes : Nat → Byte → Prop) : Prop :=
  ∀ r x b, bar = some r → writes x b → x < r.key ∨ r.key + 32 ≤ x

/-- Piece `k` of a linear copy: the bytes of one destination sector take those of the source, between on-chip memories and virtual
memory; a copy onto its own source reads all of it first (R257, R260). -/
def PieceCopied : Prop :=
  ∀ (s : State) (o k : Nat) (op : Op) (c : CopyOp) (src dst : Nat → Nat), PieceDue s o k op c → c.kind = .linear → 0 < c.len →
    k < (c.dst.off % 32 + c.len + 31) / 32 →
    let lo := 32 * k - c.dst.off % 32
    let hi := min c.len (32 * (k + 1) - c.dst.off % 32)
    let writes := fun x b => ∃ j, lo ≤ j ∧ j < hi ∧ x = dst j ∧ b = sourceByte s op.ctx c j (src j) ^^^ padOf s op.ctx c.dst x
    (∀ j, (lo ≤ j ∧ j < hi) ∨ (c.overlaps = true ∧ j < c.len) →
      Ahead c j ∨ Lies s op.ctx (pkgOf c.core) .copyRead c.src j (src j)) →
    (∀ j, lo ≤ j → j < hi → Lies s op.ctx (pkgOf c.core) .copyWrite c.dst j (dst j)) → Aside c.bar writes →
    ∃ t, exec (.copyPiece o k) s = .next t ∧ Wrote s t o k op c c.bar (hi - lo) writes

/-- Sector `i` of a fan-out for receiver `r`: it lands in the receiver's shared memory and is counted on the receiver's barrier
(R265). -/
def PieceFanned : Prop :=
  ∀ (s : State) (o r i : Nat) (op : Op) (c : CopyOp) (rs : List Receiver) (ack : BarAt) (x : Receiver) (src : Nat → Nat),
    let k := 2 ^ 32 * r + i
    PieceDue s o k op c → c.kind = .fanout rs ack → rs[r]? = some x → 0 < c.len → c.len < 2 ^ 32 →
    i < (x.off % 32 + c.len + 31) / 32 →
    let lo := 32 * i - x.off % 32
    let hi := min c.len (32 * (i + 1) - x.off % 32)
    let writes := fun y b => ∃ j, lo ≤ j ∧ j < hi ∧ y = placeShared x.cohort + x.off + j ∧ b = sourceByte s op.ctx c j (src j)
    (∀ j, lo ≤ j → j < hi → Ahead c j ∨ Lies s op.ctx (pkgOf c.core) .copyRead c.src j (src j)) →
    (∀ j p a, c.src = .chip p a → j < c.len → src j = p + a + j) → Aside (some x.bar) writes →
    ∃ t, exec (.copyPiece o k) s = .next t ∧ Wrote s t o k op c (some x.bar) (hi - lo) writes

/-- The tensor index of box element `e` along dimension `i`, dimension 0 fastest (R263). -/
def coordAt (L : Layout) (coords : List Int) (e i : Nat) : Int :=
  coords.getD i 0 + (e / ((L.dims.take i).map (·.box)).prod % (L.dims.map (·.box)).getD i 1 : Nat)

/-- The address of element `e` of the box in the tensor at `base`, if it is in range (R263). -/
def tensorAt (L : Layout) (base : Nat) (coords : List Int) (e : Nat) : Option Nat :=
  let is := List.range L.dims.length
  if ∀ i, i ∈ is → 0 ≤ coordAt L coords e i ∧ coordAt L coords e i < ((L.dims.map (·.extent)).getD i 0 : Nat) then
    some ((base : Int) + (is.map fun i => coordAt L coords e i * (L.dims.map (·.stride)).getD i 0).sum).toNat
  else none

/-- The elements of the box. -/
def boxSize (L : Layout) : Nat := (L.dims.map (·.box)).prod

/-- The offset of element `e` in the box, each of whose lines is rotated by 8 bytes a line (R263). -/
def boxAt (L : Layout) (e : Nat) : Nat :=
  let line := (L.dims.map (·.box)).headD 1 * L.z
  let o := e * L.z
  if L.rot = 0 then o else o / line * line + (o % line + 8 * (o / line % L.rot)) % line

/-- A copy is a CPYT whose record gave `L` and whose box is locked (R261, R262). -/
def Tensor (c : CopyOp) (scatter : Bool) (coords : List Int) (L : Layout) : Prop :=
  (∃ record, c.kind = .tensor scatter record coords (some L)) ∧ c.box = none ∧ ∃ bits, readLayout bits coords.length = some L

/-- A sector piece of a gather: each byte of an element in range takes the tensor's, and each of one out of range the fill's
(R263). -/
def PieceGathered : Prop :=
  ∀ (s : State) (o k : Nat) (op : Op) (c : CopyOp) (coords : List Int) (L : Layout) (p a base : Nat) (src : Nat → Nat),
    PieceDue s o k op c → Tensor c false coords L → c.dst = .chip p a → c.src = .vm base → c.len = boxSize L * L.z →
    k < (a % 32 + c.len + 31) / 32 →
    let lo := 32 * k - a % 32
    let hi := min c.len (32 * (k + 1) - a % 32)
    let holds := fun e i => e < boxSize L ∧ i < L.z ∧ lo ≤ boxAt L e + i ∧ boxAt L e + i < hi
    let writes := fun x b => ∃ e i, holds e i ∧ x = p + a + boxAt L e + i ∧
      b = match tensorAt L base coords e with
        | some A => s.readByte (src (A + i)) ^^^ s.pad op.ctx (src (A + i))
        | none => L.fill.getD i 0
    (∀ e i A, holds e i → tensorAt L base coords e = some A → Paged s op.ctx (pkgOf c.core) .copyRead (A + i) (src (A + i))) →
    Aside c.bar writes →
    ∃ t, exec (.copyPiece o k) s = .next t ∧ Wrote s t o k op c c.bar (hi - lo) writes

/-- The piece of a scatter in sector `k` of virtual memory: bytes of the elements in range that reach it, of which all are counted;
where several elements stand at one address, one of them stands whole (R263). -/
def PieceScattered : Prop :=
  ∀ (s : State) (o k : Nat) (op : Op) (c : CopyOp) (coords : List Int) (L : Layout) (q b base y : Nat), PieceDue s o k op c →
    Tensor c true coords L → c.src = .chip q b → c.dst = .vm base → L.inSpace base coords = true →
    Paged s op.ctx (pkgOf c.core) .copyWrite (32 * k) y →
    let reaches := fun e i A => e < boxSize L ∧ i < L.z ∧ tensorAt L base coords e = some A ∧ (A + i) / 32 = k
    let byte := fun e i x => s.readByte (q + b + boxAt L e + i) ^^^ s.pad op.ctx x
    let writes := fun x v => ∃ e i A, reaches e i A ∧ x = y + (A + i) % 32 ∧ v = byte e i x
    let n := ((List.range (boxSize L)).map fun e => match tensorAt L base coords e with
      | some A => ((List.range L.z).filter fun i => (A + i) / 32 == k).length
      | none => 0).sum
    (∃ e i A, reaches e i A) → Aside c.bar writes →
    ∃ t, exec (.copyPiece o k) s = .next t ∧ Wrote s t o k op c c.bar n writes ∧
      (c.bar = none → ∀ e i A, reaches e i A → ∃ e', tensorAt L base coords e' = some A ∧
        ∀ i', reaches e' i' A → t.readByte (y + (A + i') % 32) = byte e' i' (y + (A + i') % 32))

/-- A piece has met a page that it cannot use (R164, R266, R267, R270): at V = 0 it parks, in the entry of its context and page, or in
a free one, with the kinds of access that met the page, or it waits in its engine when there is none; at a page of images, or a frame
with no memory behind it, it stops the copy's issue with a code; otherwise the context ends with TRANSLATION_FATAL. -/
def PageFailed (s t : State) (o k : Nat) (op : Op) (c : CopyOp) (page access : Nat) (w : Walk) : Prop :=
  let D := dieOf c.core
  let mine := fun x : Nat × FaultEntry => x.2.ctx = op.ctx ∧ x.2.page = page
  let leaves : CopyOp → Prop := fun c' =>
    (∃ d, t.op? o = some { op with work := .copy d } ∧ d = { c' with issued := d.issued, tags := d.tags, buffer := d.buffer }) ∧
    t = { s with ops := t.ops, mem := t.mem, watches := t.watches, cores := t.cores, dies := t.dies, xlat := t.xlat } ∧
    (∀ p, p ≠ o → t.op? p = s.op? p) ∧ ∀ n, n ≠ D → t.die n = s.die n
  let out := { c with flying := c.flying.erase k }
  let stops : Nat → Prop := fun code =>
    leaves { out with code := some (c.code.getD code) } ∧ t.dies = s.dies ∧ t.mem = s.mem
  (w = .invalid →
    (∀ i e, (s.die D).faults.find? (fun x => decide (mine x)) = some (i, e) →
      let e' := { e with pieces := e.pieces ++ [(o, k)], merge := min (e.merge + 1) 65535, access := e.access ||| access }
      leaves out ∧ (t.die D).faults.get? i = some e' ∧ (∀ j, j ≠ i → (t.die D).faults.get? j = (s.die D).faults.get? j) ∧
        (e.posted = none → t.mem = s.mem)) ∧
    ((∀ x, x ∈ (s.die D).faults → ¬ mine x) →
      ((∃ i, i < 512 ∧ (s.die D).faults.get? i = none) → leaves out ∧ t.mem = s.mem ∧
        (t.die D).faultSeq = ((s.die D).faultSeq + 1) % 2 ^ 32 ∧
        ∃ i, i < 512 ∧ (s.die D).faults.get? i = none ∧ (∀ j, j ≠ i → (t.die D).faults.get? j = (s.die D).faults.get? j) ∧
          (t.die D).faults.get? i = some { ctx := op.ctx, pkg := pkgOf c.core, page := page, access := access, pieces := [(o, k)],
                                           merge := 0, thread := c.thread, seq := (s.die D).faultSeq }) ∧
      ((∀ i, i < 512 → ((s.die D).faults.get? i).isSome = true) → leaves c ∧ t.dies = s.dies ∧ t.mem = s.mem))) ∧
  (w = .imagePage → stops 0x10) ∧
  (∀ pa, w = .ok pa → absentTier s pa = true → stops 0x11) ∧
  (w = .malformed ∨ w = .noPermission → EndedWith s op.ctx 0x81 t)

/-- The first page of its source that a piece of a linear copy, of a fan-out or of a gather cannot read, and the page that a piece
of a linear copy or of a scatter cannot write once it has read (R260, R263, R265, R270). -/
def PieceFaults : Prop :=
  ∀ (s : State) (o k : Nat) (op : Op) (c : CopyOp) (page : Nat), PieceDue s o k op c →
    let use := fun who a => ∃ x, Paged s op.ctx (pkgOf c.core) who a x
    let fails := fun access who => ∃ t, exec (.copyPiece o k) s = .next t ∧
      PageFailed s t o k op c page access (s.walk op.ctx (pkgOf c.core) who (page * 65536))
    let cannot := fun who => ¬ use who (page * 65536) ∧ page < 2 ^ 40
    (∀ A lo hi, c.src = .vm A →
      (c.kind = .linear ∧ k < (c.dst.off % 32 + c.len + 31) / 32 ∧
          (if c.overlaps then lo = 0 ∧ hi = c.len
            else lo = 32 * k - c.dst.off % 32 ∧ hi = min c.len (32 * (k + 1) - c.dst.off % 32))) ∨
        (∃ rs ack r i x, c.kind = .fanout rs ack ∧ k = 2 ^ 32 * r + i ∧ rs[r]? = some x ∧ c.len < 2 ^ 32 ∧
          i < (x.off % 32 + c.len + 31) / 32 ∧ lo = 32 * i - x.off % 32 ∧ hi = min c.len (32 * (i + 1) - x.off % 32)) →
      0 < c.len → (∃ j, lo ≤ j ∧ j < hi ∧ (A + j) / 65536 = page ∧ ¬ Ahead c j) →
      (∀ j, lo ≤ j → j < hi → (A + j) / 65536 < page → Ahead c j ∨ use .copyRead (A + j)) → cannot .copyRead → fails 1 .copyRead) ∧
    (∀ coords L p a base e i A, Tensor c false coords L → c.dst = .chip p a → c.src = .vm base → c.len = boxSize L * L.z →
      k < (a % 32 + c.len + 31) / 32 →
      let holds := fun e i => e < boxSize L ∧ i < L.z ∧ 32 * k - a % 32 ≤ boxAt L e + i ∧ boxAt L e + i < min c.len (32 * (k + 1) - a % 32)
      holds e i → tensorAt L base coords e = some A → (A + i) / 65536 = page →
      (∀ e' i' A', holds e' i' → tensorAt L base coords e' = some A' → boxAt L e' + i' < boxAt L e + i → use .copyRead (A' + i')) →
      cannot .copyRead → fails 1 .copyRead) ∧
    (∀ B, c.kind = .linear → c.dst = .vm B → 0 < c.len → k < (B % 32 + c.len + 31) / 32 →
      let lo := 32 * k - B % 32
      let hi := min c.len (32 * (k + 1) - B % 32)
      (∀ j, (lo ≤ j ∧ j < hi) ∨ (c.overlaps = true ∧ j < c.len) →
        Ahead c j ∨ ∃ x, Lies s op.ctx (pkgOf c.core) .copyRead c.src j x) →
      page = (B + lo) / 65536 → cannot .copyWrite → fails 2 .copyWrite) ∧
    (∀ coords L q b base e i A, Tensor c true coords L → c.src = .chip q b → c.dst = .vm base → L.inSpace base coords = true →
      e < boxSize L → i < L.z → tensorAt L base coords e = some A → (A + i) / 32 = k → page = 32 * k / 65536 → cannot .copyWrite →
      fails 2 .copyWrite)

/-- The last steps of a copy: each receiver of a fan-out is acknowledged once on its sender's barrier, if that has the magic (R265);
the flag is written (R259, R266); then the status word lands and the locks drop (R266). That a flag in another package's window, which
engines do not reach (R381), is not written is the model's choice (log 58). -/
def CopyEnds : Prop :=
  ∀ (s : State) (o : Nat) (op : Op) (c : CopyOp), s.op? o = some op → op.work = .copy c → Unlogged s op.ctx →
    (∀ rs ack r x, c.kind = .fanout rs ack → rs[r]? = some x → x.acked = false →
      (∀ k, k ∈ c.piecesFor r → k ∈ c.done ∧ k ∉ c.uncounted) →
      let b := barrier (s.readNat ack.key 32)
      let acked : CopyOp := { c with kind := .fanout (rs.set r { x with acked := true }) ack }
      (b.magic = 0x5CB1 →
        ∃ t, exec (.copyAck o r) s = .next t ∧ t.op? o = some { op with work := .copy acked } ∧ Counts s t ack.key b.acked ∧
          ((b.acked.settles → QuietWaits s ack.key) →
            t = { s with groups := t.groups, ops := t.ops, mem := t.mem, watches := t.watches } ∧
            ∀ a, a < ack.key ∨ ack.key + 32 ≤ a → t.readByte a = s.readByte a)) ∧
      (b.magic ≠ 0x5CB1 → exec (.copyAck o r) s = .next
        { s with ops := s.ops.put o { op with work := .copy { acked with barBad := true } } })) ∧
    ((∀ rs ack x, c.kind = .fanout rs ack → x ∈ rs → x.acked = true) → Unparked s o → c.flying = [] → c.uncounted = [] → c.code.isSome = true ∨ c.written = true →
      (∀ A v, c.flag = some (A, v) → c.flagWritten = false →
        A % 2 ^ 37 + 8 ≤ s.windowSize op.ctx (A / 2 ^ 40 % 256) (A / 2 ^ 37 % 8) → A / 2 ^ 40 % 256 = pkgOf c.core % 256 →
        ∃ t, exec (.copyCompletion o) s = .next t ∧ t = { s with ops := t.ops, mem := t.mem, watches := t.watches } ∧
          t.op? o = some { op with work := .copy { c with flagWritten := true } } ∧ Stored s t (spKey op.ctx A) 8 v.toNat) ∧
      (∀ A v, c.flag = some (A, v) → c.flagWritten = false → A / 2 ^ 40 % 256 ≠ pkgOf c.core % 256 →
        exec (.copyCompletion o) s = .next { s with ops := s.ops.put o { op with work := .copy { c with flagWritten := true } } }) ∧
      (∀ gid g sd, c.flag = none ∨ c.flagWritten = true → Awaits s o op gid g sd →
        let code := c.code.getD (if c.barBad then 0x12 else 0)
        ∃ t, exec (.copyCompletion o) s = .next t ∧ Landed s o gid g sd
          (1 + (if code = 0 then 0 else 2) + code * 2 ^ 8 + c.bytes % 2 ^ 32 * 2 ^ 16 + min c.retry 255 * 2 ^ 48) t))

/-- The layout record of a CPYT is read through translation; a bad one is BAD_LAYOUT, and a good one locks its box (R261,
R262). -/
def RecordRead : Prop :=
  ∀ (s : State) (o : Nat) (op : Op) (c : CopyOp) (gid : Nat) (g : Group) (scatter : Bool) (record : Nat) (coords : List Int)
    (ms : WordSpace) (X pa : Nat), s.op? o = some op → op.work = .copy c → op.gid = some gid → s.group? gid = some g →
    c.kind = .tensor scatter record coords none → c.box = some (ms, X) → c.code = none → Unparked s o → s.xlat = [] →
    record % 65536 + 256 ≤ 65536 → s.walk op.ctx (pkgOf c.core) .copyRead (record / 65536 * 65536) = .ok pa →
    absentTier s pa = false → (∀ x, s.context? op.ctx = some x → x.confidential = false) →
    let bits := s.readNat (pa + record % 65536) 256
    (readLayout bits coords.length = none →
      ∃ t, exec (.layoutRecordRead o) s = .next t ∧ t = { s with ops := t.ops, xlat := t.xlat } ∧
        t.op? o = some { op with work := .copy { c with code := some 0x13, flying := [] } }) ∧
    (∀ L key, readLayout bits coords.length = some L → L.inSpace c.src.off coords = true →
      s.boxKey gid g c ms X L.boxBytes = .ok key → s.locks = [] →
      ∃ t d l, exec (.layoutRecordRead o) s = .next t ∧ t = { s with ops := t.ops, xlat := t.xlat, locks := [l] } ∧
        t.op? o = some { op with work := .copy d } ∧ d.kind = .tensor scatter record coords (some L) ∧ d.box = none ∧
        d.len = L.boxBytes ∧ d.code = none ∧
        (if scatter then d.src = .chip (placeOf key) (key - placeOf key) ∧ d.dst = c.dst
          else d.dst = .chip (placeOf key) (key - placeOf key) ∧ d.src = c.src) ∧
        l.owner = .op o ∧ l.kind = (if scatter then .read else .write))

/-- A fault-buffer entry is posted into the next slot of a valid fault queue that is not full, and the producer index moves
up by one (R270 to R272). -/
def FaultPosted : Prop :=
  ∀ (s : State) (die slot j : Nat) (e : FaultEntry) (c : Context), (s.die die).faults.get? slot = some e → e.posted = none →
    s.context? e.ctx = some c → c.faultq < 2 ^ 48 → 4 ≤ j → j ≤ 16 →
    let size := s.windowSize e.ctx (c.faultq / 2 ^ 40 % 256) (c.faultq / 2 ^ 37 % 8)
    let key := spKey e.ctx c.faultq
    let prod := s.readNat (key + 4) 4
    let place := 32 + 32 * (prod % 2 ^ j)
    s.readNat key 4 = 2 ^ j → (prod + 2 ^ 32 - s.readNat (key + 8) 4) % 2 ^ 32 < 2 ^ j → c.faultq % 2 ^ 37 + place + 32 ≤ size →
    ∃ t, exec (.faultQueuePost die slot) s = .next t ∧ t = { s with mem := t.mem, watches := t.watches, dies := t.dies } ∧
      t.readBytes (key + place) 32 = toBytes 8 (e.page * 65536) ++ toBytes 1 e.access ++ toBytes 1 (die % 8) ++ toBytes 2 slot
        ++ toBytes 2 e.merge ++ zeros 2 ++ toBytes 8 e.thread.toNat ++ toBytes 4 e.seq ++ zeros 4 ∧
      t.readNat (key + 4) 4 = (prod + 1) % 2 ^ 32 ∧
      (t.die die).faults.get? slot = some { e with posted := some (c.faultq + place) } ∧
      ∀ a, (a < key + 4 ∨ key + 8 ≤ a) → (a < key + place ∨ key + place + 32 ≤ a) → t.readByte a = s.readByte a

/-- A matched pair moves its tile by sectors into the receiver, which counts them on its barrier, if that has the magic; a transfer
that ended at issue lands its status word (R390). -/
def TransferMoves : Prop :=
  ∀ (s : State) (o : Nat) (op : Op) (x : XferOp), s.xfer? o = some (op, x) → Unlogged s op.ctx →
    (∀ k m n y sent, x.send = false → x.mate = some m → m ≠ o → s.xfer? m = some (n, y) → x.code = none → y.code = none →
      x.moves = some sent → 0 < sent → k < (x.tile.2 % 32 + sent + 31) / 32 → k ∉ x.done → k ∉ x.uncounted →
      let lo := 32 * k - x.tile.2 % 32
      let hi := min sent (32 * (k + 1) - x.tile.2 % 32)
      let d := x.tile.1 + x.tile.2
      let good := sound s (some x.bar)
      let next := fun r : BarAt => (barrier (s.readNat r.key 32)).delivered (hi - lo)
      x.bar.key + 32 ≤ d + lo ∨ d + hi ≤ x.bar.key →
      ∃ t z, exec (.transferPiece o k) s = .next t ∧ t.xfer? o = some (op, z) ∧
        z = { x with done := x.done ++ [k], bytes := x.bytes + (hi - lo), barBad := x.barBad || good.isNone } ∧
        t.xfer? m = some (n, { y with bytes := y.bytes + (hi - lo) }) ∧ (∀ p, p ≠ o → p ≠ m → t.op? p = s.op? p) ∧
        (∀ r, good = some r → Counts s t r.key (next r)) ∧
        ((∀ r, good = some r → (next r).settles → QuietWaits s r.key) →
          t = { s with groups := t.groups, ops := t.ops, mem := t.mem, watches := t.watches } ∧
          (∀ b, lo ≤ b → b < hi → t.readByte (d + b) = s.readByte (y.tile.1 + y.tile.2 + b)) ∧
          ∀ a, a < d + lo ∨ d + hi ≤ a → (∀ r, good = some r → a < r.key ∨ r.key + 32 ≤ a) → t.readByte a = s.readByte a)) ∧
    (∀ gid g sd, x.turn = none → Awaits s o op gid g sd →
      let code := x.code.getD (if x.truncated then 0x1A else if x.barBad then 0x12 else 0)
      ∃ t, exec (.transferCompletion o) s = .next t ∧
        Landed s o gid g sd (1 + (if code = 0 then 0 else 2) + code * 2 ^ 8 + x.bytes % 2 ^ 32 * 2 ^ 16) t)

/-- The head of an ownership queue is granted its slots, zeroed, once enough are free (R275, R278); a holder that has lost a
member gives its slots up (R280); the budget of an island is refilled each microsecond, but for those of a stopped package (R294,
R402). -/
def SlotEvents : Prop :=
  ∀ (s : State),
    (∀ core e rest g, (s.core core).queue = e :: rest → (∀ q, q ∈ rest → q.gid ≠ e.gid) → s.group? e.gid = some g → g.phase = .resident → g.core = core →
      e.n ≤ (s.freeSlots core).length → Unlogged s g.ctx → Free g e.sd →
      let ns := (s.freeSlots core).take e.n
      ∃ t h x, exec (.macqQueueGrant core) s = .next t ∧ (t.core core).queue = rest ∧ t.group? e.gid = some h ∧
        h = { g.wrS e.sd (BitVec.ofNat 64 (e.n * 256)) with fibres := h.fibres } ∧ Resumed g h e.mask 8 ∧
        t.holders = s.holders.put s.nextOp x ∧ x.slots = ns ∧ x.leader = g.index ∧ x.cohort = g.cohort ∧ x.team = e.team.isSome ∧
        x.members = e.team.getD (BitVec.ofNat 16 (2 ^ g.index)) ∧
        ∀ a, ((∃ k, k ∈ ns ∧ slotAt core k ≤ a ∧ a < slotAt core k + 65536) → t.readByte a = 0) ∧
          ((∀ k, k ∈ ns → a < slotAt core k ∨ slotAt core k + 65536 ≤ a) → t.readByte a = s.readByte a)) ∧
    (∀ core hh x c, s.holders.get? hh = some x → x.closing = true → s.enteredOn hh = false → s.cohort? x.cohort = some c →
      c.core = some core → ∃ t, exec (.mrelRelease core hh) s = .next t ∧ t.holders = s.holders.erase hh ∧
        ∀ a, (∀ k, k ∈ x.slots → a < slotAt core k ∨ slotAt core k + 65536 ≤ a) → t.readByte a = s.readByte a) ∧
    (∀ i, 0 < (s.island i).refillAt → (s.island i).refillAt ≤ (s.ticks (i / 16)).toNat / 1050 → i / 16 ∉ s.stopped →
      ∃ t, exec (.matrixBudgetRefill i) s = .next t ∧ t = { s with islands := t.islands } ∧
        (t.island i).balance = min ((s.island i).balance + ((s.island i).units.toNat : Int)) ((s.island i).units.toNat : Int) ∧
        (t.island i).units = (s.island i).units ∧ ∀ k, k ≠ i → t.island k = s.island k)

/-- A ready loop that is first starts when its island's balance allows, or after 64 microseconds, and its island is charged
(R293, R294); MZERO clears its slot, and an operation that has run lands its status word (R282, R283, R291). -/
def MatrixMoves : Prop :=
  ∀ (s : State) (o : Nat) (op : Op) (m : MatOp), s.op? o = some op → op.work = .matrix m →
    (∀ i ready, s.loopReady m = true → m.readyAt = some ready →
      (i = Instr.matrixLoopStart o ∧ s.firstToStart m = true ∧
          ((min (loopSteps m * s.estimate m) (s.island (islandOf m.core)).units.toNat : Nat) : Int) ≤ (s.island (islandOf m.core)).balance) ∨
        (i = .matrixLoopWaitExpiry o ∧ ready + 67200 ≤ s.timebase.toNat) →
      ∃ t, exec i s = .next t ∧ t = { s with ops := t.ops, islands := t.islands } ∧
        (t.island (islandOf m.core)).balance = (s.island (islandOf m.core)).balance - (loopSteps m * s.estimate m : Nat) ∧
        ∀ p q, p ∈ m.team → s.matrix? p = some q →
          t.matrix? p = some { q with started := true, units := loopSteps m * s.estimate m }) ∧
    (∀ hh x n, m.kind = .zero → m.code = none → m.computed = false → m.entered.isSome = true → s.slotClear m = true →
      m.holder = some hh → s.holders.get? hh = some x → x.slots[m.slot]? = some n →
      ∃ t, exec (.matrixOpCompletion o) s = .next t ∧ t = { s with ops := t.ops, mem := t.mem } ∧
        (∃ q, t.matrix? o = some q ∧ q.computed = true ∧ q.kind = .zero) ∧
        ∀ a, (slotAt m.core n ≤ a ∧ a < slotAt m.core n + 65536 → t.readByte a = 0) ∧
          (a < slotAt m.core n ∨ slotAt m.core n + 65536 ≤ a → t.readByte a = s.readByte a)) ∧
    (∀ gid g sd, m.code.isSome = true ∨ m.computed = true → Unlogged s op.ctx → Awaits s o op gid g sd →
      ∃ t, exec (.matrixOpCompletion o) s = .next t ∧
        Landed s o gid g sd (match m.code with
          | some c => 3 + c * 256
          | none => 1 + m.flags % 32 * 2 ^ 16 + m.steps % 2 ^ 16 * 2 ^ 32 + m.units % 2 ^ 16 * 2 ^ 48) t)

/-- The B registers that the loops `os` of a turn stream have been read, one loop's after another's: those with no map slot have been
filled (R67, R285), which leads from `s` to `s1`. -/
def Streamed (team : Nat) (s1 : State) : List Nat → State → Prop
  | [], s => s1 = s
  | o :: os, s =>
    match s.streamed team o with
    | none => Streamed team s1 os s
    | some (gid, rs) => ∃ t, s.fillAll gid rs = (t, none) ∧ Streamed team s1 os t

/-- Where element `(i, j)` of slot `n` of a core lies (R275). -/
def cell (core n i j : Nat) : Nat := slotAt core n + 4 * (128 * i + j)

/-- An operation has run on a slot: the slot's elements and the operation's flags are those of `value`, no byte outside the slot
has changed since state `s`, and the operation says so (R283). -/
def Tiled (s t : State) (core n : Nat) (os : List Nat) (steps : Nat) (value : Nat → Nat → Nat × Nat) : Prop :=
  t = { s with ops := t.ops, mem := t.mem, watches := t.watches } ∧
  (∀ i j, i < 128 → j < 128 → t.readNat (cell core n i j) 4 = (value i j).1 % 2 ^ 32) ∧
  (∀ a, a < slotAt core n ∨ slotAt core n + 65536 ≤ a → t.readByte a = s.readByte a) ∧
  ∀ p q, p ∈ os → s.matrix? p = some q → ∃ r, t.matrix? p = some r ∧ r.kind = q.kind ∧ r.computed = true ∧ r.steps = steps ∧
    ∀ b, r.flags.testBit b = true ↔ ∃ i j, i < 128 ∧ j < 128 ∧ (value i j).2.testBit b = true

/-- The group of the loop of each member `c` of a turn, with its first B register and their distance; no two loops are of one
member (R285, R288). -/
def Members (s : State) (team : List Nat) (grp : Nat → Group) (first dist : Nat → Nat) : Prop :=
  (team.length = 1 ∨ team.length = 2 ∨ team.length = 4) ∧
  ∀ c, c < team.length → ∃ p op q gid fa fb part n inc a x y, p ∈ team ∧ s.op? p = some op ∧ op.work = .matrix q ∧ q.member = c ∧
    q.kind = .loop fa fb part n inc a x y (first c) (dist c) ∧ op.gid = some gid ∧ s.group? gid = some (grp c) ∧
    ∀ p' q', p' ∈ team → s.matrix? p' = some q' → q'.member = c → p' = p

/-- The element pairs of step `k` for element `(i, j)`: A lies in shared memory, step after step and row after row, and column `j` of
B in a lane of four registers of the member that holds it; an e2m1 element is read with the extra of its row or column (R285,
R212). -/
def elementPairs (s : State) (coh size : Nat) (grp : Nat → Group) (first dist : Nat → Nat) (fa fb : MatTy) (inc a x y k i j : Nat) :
    List (Val × Val) :=
  let per := 128 / size
  let c := j / per
  let wa := MatTy.width fa
  let wb := MatTy.width fb
  let word := fun r => ((grp c).rdV (first c + dist c * k + 4 * (j % per / 32) + r)).lane (j % per % 32)
  let extra := fun ty A => if ty = MatTy.e2m1 then (s.readByte (placeShared coh + A)).toNat else 0
  (List.range (128 / wa)).map fun t =>
    (MatTy.val fa (s.readNat (placeShared coh + a + k * inc + 16 * i) 16 / 2 ^ (wa * t) % 2 ^ wa) (extra fa (x + 128 * k + i)),
      MatTy.val fb ((word (t / (32 / wb))).toNat / 2 ^ (wb * (t % (32 / wb))) % 2 ^ wb) (extra fb (y + 128 * k + j)))

/-- What operations compute. MLOOP adds, step after step, the products of each element's pairs to its accumulator as one fused
sum, rounded once (R217, R287). MSACC scales the exact sum of a step's products by the two blocks' scale bytes, 0xFF giving the
canonical NaN (R217, R290). MLDACC widens each element of its span to f32; MSTACC rounds each element of the slot to its type, and
writes it at its place in the span (R292). -/
def MatrixResults : Prop :=
  ∀ (s : State) (o : Nat) (op : Op) (m : MatOp) (hh : Nat) (w : Holder) (n : Nat), s.op? o = some op → op.work = .matrix m →
    m.code = none → m.computed = false → s.holders.get? hh = some w →
    (∀ s1 grp first dist fa fb steps inc a x y vb step,
      m.kind = .loop fa fb false steps inc a x y vb step → m.started = true → m.holder = some hh → w.slots[m.slot]? = some n →
      Streamed m.team.length s1 m.team s → Members s1 m.team grp first dist →
      ∃ t, exec (.matrixOpCompletion o) s = .next t ∧ Tiled s1 t m.core n m.team steps fun i j =>
        (List.range steps).foldl (fun c k =>
          let r := fusedSum .rne (fmtF32.decode c.1) (elementPairs s1 m.cohort m.team.length grp first dist fa fb inc a x y k i j)
          ((roundF32 .rne r.1).1, Nat.lor (Nat.lor c.2 r.2) (roundF32 .rne r.1).2)) (s1.readNat (cell m.core n i j) 4, 0)) ∧
    (∀ s1 grp first dist fa fb steps inc a x y vb step p q P Q N,
      m.kind = .loop fa fb true steps inc a x y vb step → m.started = true → m.partner = some p → s.matrix? p = some q →
      q.kind = .sacc P Q N → q.holder = some hh → w.slots[q.slot]? = some n → q.core = m.core → q.cohort = m.cohort →
      (∀ p, p ∈ m.team → p ∉ q.team) → Streamed m.team.length s1 m.team s → Members s1 m.team grp first dist →
      ∃ t, exec (.matrixOpCompletion o) s = .next t ∧
        (∀ p q, p ∈ m.team → s1.matrix? p = some q → ∃ r, t.matrix? p = some r ∧ r.computed = true ∧ r.steps = steps) ∧ Tiled s1 t m.core n q.team steps fun i j =>
        (List.range steps).foldl (fun c k =>
          let ea := (s1.readByte (placeShared m.cohort + P + 128 * k + i)).toNat
          let eb := (s1.readByte (placeShared m.cohort + Q + 128 * k + j)).toNat
          let ps := (elementPairs s1 m.cohort m.team.length grp first dist fa fb inc a x y k i j).map fun e => mulVal e.1 e.2
          let sum := sumVals .rne (ps.map (·.1))
          let r := sumVals .rne [fmtF32.decode c.1, State.scaleVal sum.1 ((ea : Int) + eb - 254)]
          if ea = 255 ∨ eb = 255 then (fmtF32.nan, Nat.lor c.2 flNV)
          else ((roundF32 .rne r.1).1, Nat.lor (Nat.lor c.2 r.2) (roundF32 .rne r.1).2)) (s1.readNat (cell m.core n i j) 4, 0)) ∧
    (∀ ty a stride, m.kind = .load ty a stride → m.entered.isSome = true → s.slotClear m = true → m.holder = some hh →
      w.slots[m.slot]? = some n →
      let z : Nat := if ty = .f32 then 4 else 2
      ∃ t, exec (.matrixOpCompletion o) s = .next t ∧ Tiled s t m.core n [o] 0 fun i j =>
        convert (match ty with | .f32 => .f32 | .f16 => .f16 | .bf16 => .bf16) .f32 .rne false
          (s.readNat (placeShared m.cohort + a + i * stride + j * z) z)) ∧
    (∀ ty rnd sat a stride, m.kind = .store ty rnd sat a stride → m.entered.isSome = true → s.slotClear m = true → m.holder = some hh →
      w.slots[m.slot]? = some n →
      let z : Nat := if ty = .f32 then 4 else 2
      let at_ := fun i j => placeShared m.cohort + a + i * stride + j * z
      let value := fun i j =>
        let v := fmtF32.decode (s.readNat (cell m.core n i j) 4)
        ((roundTo (FloatTy.fmt ty) rnd sat v).1, Nat.lor (roundTo (FloatTy.fmt ty) rnd sat v).2 (sigFlag [v]))
      128 * z ≤ stride →
      ∃ t, exec (.matrixOpCompletion o) s = .next t ∧ t = { s with ops := t.ops, mem := t.mem, watches := t.watches } ∧
        (∀ i j, i < 128 → j < 128 → t.readNat (at_ i j) z = (value i j).1 % 2 ^ (8 * z)) ∧
        (∀ b, (∀ i j, i < 128 → j < 128 → b < at_ i j ∨ at_ i j + z ≤ b) → t.readByte b = s.readByte b) ∧
        ∃ r, t.matrix? o = some r ∧ r.kind = m.kind ∧ r.computed = true ∧
          ∀ b, r.flags.testBit b = true ↔ ∃ i j, i < 128 ∧ j < 128 ∧ (value i j).2.testBit b = true)

end Sys2Proof.Claim

/-- Events of the copy engine and of transfers (R257 to R267, R270 to R272, R390). -/
def Obligations.CopyEvents : Prop :=
  PieceCopied ∧ PieceFanned ∧ PieceGathered ∧ PieceScattered ∧ PieceFaults ∧ CopyEnds ∧ RecordRead ∧ FaultPosted ∧ TransferMoves

/-- Events of the matrix engine, and what its operations compute (R217, R275 to R283, R285, R287, R290 to R294). -/
def Obligations.MatrixEvents : Prop := SlotEvents ∧ MatrixMoves ∧ MatrixResults

/-! # Events: names, residency, work -/

namespace Sys2Proof.Claim

/-- A name reaches an entry with some rights: the entry of its own table, with those of R302, or the one that an alias in that
table stands for, when it is still there with the alias's generation and kind, with the alias's own rights (R303, R305). -/
def Reaches (s : State) (op : Op) (n : NameOp) (ctx i : Nat) (e : NameEntry) (r : Nat) : Prop :=
  (ctx = op.ctx ∧ s.findName op.ctx n.target = .entry i e ∧ e.alias_ = false ∧ r = Machine.State.rights n.issuer n.launch e) ∨
  ∃ j al, s.findName op.ctx n.target = .entry j al ∧ al.alias_ = true ∧ r = al.rights ∧ ctx = al.loc / 2 ^ 48 % 2 ^ 12 ∧
    i = al.loc / 2 ^ 24 % 2 ^ 24 ∧ (s.context? ctx).isSome = true ∧ 0 < i ∧ i < s.tableSize ctx ∧ s.entry? ctx i = some e ∧
    e.gen = al.loc % 2 ^ 24 ∧ e.kind = al.kind ∧ e.state ≠ 0

/-- A name operation of a group is due at its home, and reaches the entry of a device group (R303, R305, R316). -/
structure Due (s : State) (o : Nat) (op : Op) (n : NameOp) (gi : Nat) (a : Group) (sd : SReg) (ctx i : Nat) (e : NameEntry)
    (r : Nat) : Prop where
  isOp     : s.op? o = some op
  isName   : op.work = .name n
  fromGrp  : n.host = none
  lasting  : n.found = none
  waits    : Awaits s o op gi a sd
  first    : s.firstOf o op n = true
  unlogged : Unlogged s op.ctx
  reaches  : Reaches s op n ctx i e r
  isGroup  : e.kind = 1

/-- The group of an entry, which is not the issuer. -/
structure Named (s : State) (gi ctx i : Nat) (e : NameEntry) (gid : Nat) (g : Group) : Prop where
  named : s.groupNamed ctx (e.name i) = some gid
  holds : s.group? gid = some g
  ctx   : g.ctx = ctx
  index : nameIndex g.name = i
  other : gi ≠ gid

/-- The sender's status register holds a status word (R304). -/
def Answered (t : State) (o gi : Nat) (sd : SReg) (v : Nat) : Prop :=
  t.op? o = none ∧ ∃ b, t.group? gi = some b ∧ b.rdS sd = BitVec.ofNat 64 v ∧ b.pending.get? sd.toNat = none

/-- No group but the two has changed. -/
def Between (s t : State) (gi gid : Nat) : Prop := ∀ k, k ≠ gi → k ≠ gid → t.group? k = s.group? k

/-- The delivery of a WAKE, or of a SIGNAL of bits `m`, with its right, and the bits that it sets in PSIG (R306, R308). -/
def Alerts (o : Nat) (n : NameOp) (r : Nat) (x : Instr) (bits : Word64) : Prop :=
  (x = .deliverWake o ∧ n.act = .wake ∧ r.testBit 0 = true ∧ bits = 0x100000000) ∨
  ∃ m, x = .deliverSignal o ∧ n.act = .signal m ∧ r.testBit 1 = true ∧ bits = m.setWidth 64

/-- The delivery of a mailbox item, with its right, and the item's 16 bytes as a number (R307). -/
def ItemOf (o : Nat) (n : NameOp) (r : Nat) (x : Instr) (item : Nat) : Prop :=
  (x = .deliverWake o ∧ n.act = .wake ∧ r.testBit 0 = true ∧ item = 1) ∨
  (∃ m, x = .deliverSignal o ∧ n.act = .signal m ∧ r.testBit 1 = true ∧ item = 2 + m.toNat * 2 ^ 64) ∨
  (∃ k v, x = .deliverDeposit o ∧ n.act = .deposit k v ∧ r.testBit 2 = true ∧ item = 3 + k.toNat * 2 ^ 8 + v.toNat * 2 ^ 64) ∨
  (x = .deliverKill o ∧ n.act = .kill ∧ r.testBit 4 = true ∧ item = 4)

/-- A group in state RUNNING: WAKE and SIGNAL set bits of PSIG, or release every stroke that is parked in NPARK with its value,
DEPOSIT writes a register and its DEPMASK bit, or waits for the answer that the register waits for (R79; for the answer of an
operation on a name that is the model's choice, log 26), and KILL ends the group: each in one home step, with its answer (R306, R308,
R314). -/
def RunningRow : Prop :=
  ∀ (s : State) (o : Nat) (op : Op) (n : NameOp) (gi : Nat) (a : Group) (sd : SReg) (ctx i : Nat) (e : NameEntry) (r gid : Nat)
    (g : Group), Due s o op n gi a sd ctx i e r → Named s gi ctx i e gid g → e.state = 1 → g.phase = .resident →
    let done : State → Group → Prop := fun t h =>
      Answered t o gi sd 0x100 ∧ t.group? gid = some h ∧ Between s t gi gid ∧ (a.phase = .resident → t.mem = s.mem)
    (∀ x bits, Alerts o n r x bits → g.parkedFor .npark = 0 →
      ∃ t h, exec x s = .next t ∧ done t h ∧ h = { g with sys := { g.sys with psig := g.sys.psig ||| bits } }) ∧
    (∀ x bits, Alerts o n r x bits → g.sys.psig ||| bits ≠ 0 → g.parkedFor .npark ≠ 0 → Unlogged s g.ctx →
      (∀ f, (g.parkedFor .npark).getLsbD f = true →
        ∃ gd q limit, (g.fibre (lowest (g.strokeOf f))).instr = some (.npark gd q limit) ∧ Free g q) →
      ∃ t h, exec x s = .next t ∧ done t h ∧
        h = { g with s := h.s, sys := { g.sys with psig := 0 }, fibres := h.fibres } ∧ Resumed g h (g.parkedFor .npark) 8 ∧
        ∀ q, let parks := ∃ f gd limit, (g.parkedFor .npark).getLsbD f = true ∧
            (g.fibre (lowest (g.strokeOf f))).instr = some (.npark gd q limit)
          (parks → h.rdS q = g.sys.psig ||| bits) ∧ (¬ parks → h.rdS q = g.rdS q)) ∧
    (∀ k v, n.act = .deposit k v → r.testBit 2 = true →
      ∃ t h, exec (.deliverDeposit o) s = .next t ∧ done t h ∧
        (g.pending.get? (112 + k.toNat) = none →
          h = { g.wrS (BitVec.ofNat 7 (112 + k.toNat)) v with
            sys := { g.sys with depmask := g.sys.depmask ||| BitVec.ofNat 64 (2 ^ k.toNat) } }) ∧
        ((g.pending.get? (112 + k.toNat)).isSome = true → h = { g with deposits := g.deposits.put (112 + k.toNat) v })) ∧
    (n.act = .kill → r.testBit 4 = true →
      ∃ t h, exec (.deliverKill o) s = .next t ∧ Answered t o gi sd 0x100 ∧ t.group? gid = some h ∧ h.phase = .ending ∧
        h.exit = 0 ∧ h.cause = .killed)

/-- STAT reads the state of a group that has not ended, with any of the five rights (R305, R311). -/
def StatRow : Prop :=
  ∀ (s : State) (o : Nat) (op : Op) (n : NameOp) (gi : Nat) (a : Group) (sd : SReg) (ctx i : Nat) (e : NameEntry) (r : Nat),
    Due s o op n gi a sd ctx i e r → e.state < 5 → n.act = .stat → r ≠ 0 → r < 32 →
    ∃ t, exec (.deliverStat o) s = .next t ∧ Answered t o gi sd (e.state * 256) ∧ (∀ k, k ≠ gi → t.group? k = s.group? k) ∧
      (a.phase = .resident → t.mem = s.mem)

/-- The pages of a context hold its bytes as they are (R165). -/
def Clear (s : State) (ctx : Nat) : Prop := ∀ c, s.context? ctx = some c → c.confidential = false

/-- Bytes of a context stand at one place in memory, which its package may read and write, and stay there whatever bytes the ranges
of `blocks` hold, each with its length. -/
def Stands (s : State) (ctx pkg va n pa : Nat) (blocks : List (Nat × Nat)) : Prop :=
  va % 65536 + n ≤ 65536 ∧ Clear s ctx ∧
  ∀ m, (∀ a, (∀ b, b ∈ blocks → a < b.1 ∨ b.1 + b.2 ≤ a) → ({ s with mem := m } : State).readByte a = s.readByte a) →
    ({ s with mem := m } : State).walk ctx pkg .imageRead va = .ok pa ∧ ({ s with mem := m } : State).walk ctx pkg .imageWrite va = .ok pa

/-- An entry stands at `pa` in its home's memory. -/
def EntryStands (s : State) (ctx i pa : Nat) (blocks : List (Nat × Nat)) : Prop :=
  Stands s ctx (s.homeOf ctx) (s.entryVa ctx i) 32 pa blocks

/-- Ranges of memory have no byte in common. -/
def apart (a b : Nat × Nat) : Prop := a.1 + a.2 ≤ b.1 ∨ b.1 + b.2 ≤ a.1

/-- No byte outside some ranges has changed. -/
def Within (s t : State) (blocks : List (Nat × Nat)) : Prop :=
  ∀ a, (∀ b, b ∈ blocks → a < b.1 ∨ b.1 + b.2 ≤ a) → t.readByte a = s.readByte a

/-- The entry that stands at a place in memory. -/
def entryAt (t : State) (pa : Nat) : NameEntry := NameEntry.ofNat (t.readNat pa 32)

/-- A group in state PARKED: WAKE and SIGNAL set bits of the saved PSIG and make the group eligible, with its cluster, but for a
SIGNAL of no bits; DEPOSIT writes the register's place in the image and the saved DEPMASK; KILL ends the group in the same home step,
once nothing of it is in flight, and its entry becomes DEAD (R306, R309). -/
def ParkedRow : Prop :=
  ∀ (s : State) (o : Nat) (op : Op) (n : NameOp) (gi : Nat) (a : Group) (sd : SReg) (ctx i : Nat) (e : NameEntry) (r gid : Nat)
    (g : Group) (pe : Nat), Due s o op n gi a sd ctx i e r → Named s gi ctx i e gid g → e.state = 2 → g.phase = .parked →
    a.phase = .resident →
    let done : State → Group → Prop := fun t h => Answered t o gi sd 0x200 ∧ t.group? gid = some h ∧ Between s t gi gid
    let image : Nat → Nat → Nat → List (Nat × Nat) → Prop := fun off len pa blocks =>
      Stands s g.ctx (pkgOf g.core) (g.image + off) len pa blocks
    (∀ x bits pa, Alerts o n r x bits → bits ≠ 0 →
      let blocks := [(pa, 8), (pe, 32)]
      image 0x608 8 pa blocks → EntryStands s ctx i pe blocks → apart (pa, 8) (pe, 32) →
      ∃ t h, exec x s = .next t ∧ done t h ∧ h = { g with sys := { g.sys with psig := g.sys.psig ||| bits } } ∧
        t.readNat pa 8 = (g.sys.psig ||| bits).toNat ∧ entryAt t pe = { e with elig := true } ∧ Within s t blocks ∧
        ∀ c k, s.cohort? g.cohort = some c → s.cluster? c.cluster = some k → (t.cluster? c.cluster).map (·.elig) = some true) ∧
    (n.act = .signal 0 → r.testBit 1 = true →
      ∃ t, exec (.deliverSignal o) s = .next t ∧ done t g ∧ t.mem = s.mem ∧ t.clusters = s.clusters) ∧
    (∀ k v pr pm, n.act = .deposit k v → r.testBit 2 = true →
      let blocks := [(pr, 8), (pm, 8)]
      image (0x80 + 8 * (112 + k.toNat)) 8 pr blocks → image 0x610 8 pm blocks → apart (pr, 8) (pm, 8) →
      ∃ t h, exec (.deliverDeposit o) s = .next t ∧ done t h ∧
        h = { g.wrS (BitVec.ofNat 7 (112 + k.toNat)) v with
          sys := { g.sys with depmask := g.sys.depmask ||| BitVec.ofNat 64 (2 ^ k.toNat) } } ∧
        t.readNat pr 8 = v.toNat ∧ t.readNat pm 8 = h.sys.depmask.toNat ∧ Within s t blocks) ∧
    (n.act = .kill → r.testBit 4 = true → (∀ q, q ∈ s.ops → s.busyWork gid q.2 = false) → s.joinsOn ctx i = [] →
      ∃ t h, exec (.deliverKill o) s = .next t ∧ Answered t o gi sd 0x200 ∧ t.group? gid = some h ∧ h.phase = .dead ∧ h.exit = 0 ∧
        h.cause = .killed ∧
        ∀ c m q, s.cohort? g.cohort = some c → c.arrived = [] → c.task = false → m ∈ c.groups → m ≠ gid → s.group? m = some q →
          q.phase ≠ .dead → q.phase ≠ .ending → q.live ≠ 0 → g.parkedFor .cbwait = 0 → s.holdersOf g = [] →
          let blocks := [(placeStack gid, 2 ^ 80), (pe, 32)]
          EntryStands s ctx i pe blocks → apart (placeStack gid, 2 ^ 80) (pe, 32) →
          entryAt t pe = { e with state := 5, loc := 0, cause := 3, qcount := 0, elig := false } ∧ Within s t blocks)

/-- A group whose entry is MIGRATING or SWAPPED: one item is written behind those of the mailbox and is counted, and the answer is
QUEUED; a seventeenth writes nothing, and is answered FULL (R306, R307). -/
def MailRow : Prop :=
  ∀ (s : State) (o : Nat) (op : Op) (n : NameOp) (gi : Nat) (a : Group) (sd : SReg) (ctx i : Nat) (e : NameEntry) (r pe item : Nat)
    (x : Instr), Due s o op n gi a sd ctx i e r → e.state = 3 ∨ e.state = 4 → a.phase = .resident → ItemOf o n r x item →
    let q := s.mailboxAt ctx e + 16 * e.qcount
    let blocks := [(q, 16), (pe, 32)]
    (e.qcount < 16 → EntryStands s ctx i pe blocks → apart (q, 16) (pe, 32) →
      ∃ t, exec x s = .next t ∧ Answered t o gi sd (1 + e.state * 256) ∧ (∀ k, k ≠ gi → t.group? k = s.group? k) ∧
        t.readNat q 16 = item ∧ entryAt t pe = { e with qcount := e.qcount + 1 } ∧ Within s t blocks) ∧
    (16 ≤ e.qcount →
      ∃ t, exec x s = .next t ∧ Answered t o gi sd (6 + e.state * 256) ∧ (∀ k, k ≠ gi → t.group? k = s.group? k) ∧ t.mem = s.mem)

/-- A group whose entry is DEAD: every operation is answered DEAD with the cause, and the exit word follows in the next register;
nothing is written to memory (R304, R306, R312). -/
def DeadRow : Prop :=
  ∀ (s : State) (o : Nat) (op : Op) (n : NameOp) (gi : Nat) (a : Group) (sd : SReg) (ctx i : Nat) (e : NameEntry) (r item : Nat)
    (x : Instr), Due s o op n gi a sd ctx i e r → e.state = 5 → a.phase = .resident →
    ItemOf o n r x item ∨ (x = .deliverStat o ∧ n.act = .stat ∧ r ≠ 0 ∧ r < 32) →
    let next := (sd + 1).toNat
    a.pending.get? next = some o → a.late.get? next = none → a.deposits.get? next = none →
    ∃ t b, exec x s = .next t ∧ Answered t o gi sd (2 + 5 * 256 + e.cause % 4 * 4096) ∧ t.group? gi = some b ∧
      b.rdS (sd + 1) = BitVec.ofNat 64 e.loc ∧ b.pending.get? next = none ∧ (∀ k, k ≠ gi → t.group? k = s.group? k) ∧ t.mem = s.mem

/-- An operation is answered DENIED when its issuer lacks its right; for NSTAT, when it holds none of the five (R302, R305). -/
def DeniedRow : Prop :=
  ∀ (s : State) (o : Nat) (op : Op) (n : NameOp) (gi : Nat) (a : Group) (sd : SReg) (ctx i : Nat) (e : NameEntry) (r : Nat)
    (x : Instr), Due s o op n gi a sd ctx i e r → a.phase = .resident → r < 32 →
    (x = .deliverWake o ∧ n.act = .wake ∧ r.testBit 0 = false) ∨
      (∃ m, x = .deliverSignal o ∧ n.act = .signal m ∧ r.testBit 1 = false) ∨
      (∃ k v, x = .deliverDeposit o ∧ n.act = .deposit k v ∧ r.testBit 2 = false) ∨
      (x = .deliverKill o ∧ n.act = .kill ∧ r.testBit 4 = false ∧ s.killReady op.ctx n = true) ∨
      (x = .deliverStat o ∧ n.act = .stat ∧ r = 0) →
    ∃ t, exec x s = .next t ∧ Answered t o gi sd 4 ∧ (∀ k, k ≠ gi → t.group? k = s.group? k) ∧ t.mem = s.mem

/-- A JOIN with the JOIN right is registered at the home of an entry that is not DEAD, while its table has room, and waits; of one that
is DEAD it returns at once with the cause and the exit word, and a reaping one frees the entry in the same home step (R299, R313). -/
def Joins : Prop :=
  ∀ (s : State) (o : Nat) (op : Op) (n : NameOp) (gi : Nat) (a : Group) (ctx i : Nat) (e : NameEntry) (r pe : Nat) (reap : Bool)
    (d : Nat), s.op? o = some op → op.work = .name n → n.act = .join reap d → n.home = none → n.found = none → n.host = none →
    op.gid = some gi → s.group? gi = some a → a.phase = .resident → s.firstOf o op n = true → Unlogged s op.ctx →
    Reaches s op n ctx i e r → e.kind = 1 → r.testBit 3 = true → n.issuer.toNat / 256 ≠ n.target.toNat / 256 →
    (e.state ≠ 5 → s.joinsAt (s.homeDie ctx i) < 1024 →
      exec (.deliverJoin o) s = .next { s with ops := s.ops.put o { op with work := .name { n with home := some (ctx, i) } } }) ∧
    (∀ sd, e.state ≠ 5 → 1024 ≤ s.joinsAt (s.homeDie ctx i) → op.sd = some sd → Free a sd → Free a (sd + 1) → Unlogged s a.ctx →
      ∃ t h, exec (.deliverJoin o) s = .next t ∧ t.op? o = none ∧ t.group? gi = some h ∧
        h = { a.wrS sd (BitVec.ofNat 64 (7 + e.state % 8 * 256)) with fibres := h.fibres } ∧
        Resumed a h (a.parkedFor .njoin &&& n.mask) 8 ∧ t.mem = s.mem) ∧
    (∀ sd, e.state = 5 → op.sd = some sd → Free a sd → Free a (sd + 1) → Unlogged s a.ctx →
      (reap = true → EntryStands s ctx i pe [(pe, 32)]) →
      ∃ t h, exec (.deliverJoin o) s = .next t ∧ t.op? o = none ∧ t.group? gi = some h ∧
        h = { (a.wrS sd (BitVec.ofNat 64 (2 + 5 * 256 + e.cause % 4 * 4096))).wrS (sd + 1) (BitVec.ofNat 64 e.loc) with
          fibres := h.fibres } ∧
        Resumed a h (a.parkedFor .njoin &&& n.mask) 8 ∧ (∀ k, k ≠ gi → t.group? k = s.group? k) ∧
        (reap = false → t.mem = s.mem) ∧
        (reap = true → entryAt t pe = { gen := (e.gen + 1) % 2 ^ 24 } ∧ Within s t [(pe, 32)]))

/-- Bytes of an entry in the home's memory, when its page can be written and its context's bytes stand there as they are. -/
def entryPlace (s : State) (ctx i pa : Nat) : Prop :=
  s.walk ctx (s.homeOf ctx) .imageWrite (s.entryVa ctx i) = .ok pa ∧ s.entryVa ctx i % 65536 + 32 ≤ 65536 ∧ Clear s ctx

/-- The bytes of a cohort image (R366): its head, the shared memory behind it, and from the next page on the tile slots. -/
def CohortImage (s : State) (coh : Nat) (c : Cohort) (b : List Byte) : Prop :=
  let slots := s.heldSlots coh
  let locks := s.rlocks coh
  State.num b 0 2 = 0xC0E1 ∧ State.num b 2 1 = c.groups.length % 256 ∧ State.num b 3 1 = slots.length % 256 ∧
  State.num b 4 4 = c.shared % 2 ^ 32 ∧
  (∀ l, s.launch? c.launch = some l → State.num b 8 8 = l.num % 2 ^ 24 * 2 ^ 40 + c.num % 2 ^ 24 * 2 ^ 16 + 0xFFFF) ∧
  State.num b 0x40 16 = (if c.phase then 1 else 0) ∧ State.num b 0x50 2 = c.owed.toNat ∧
  (∀ i, i < 16 → State.num b (0x60 + 4 * i) 4 = (c.arrived.read 0 i).toNat) ∧
  (∀ i n g, i < 16 → c.groups[i]? = some n → s.group? n = some g → State.num b (0xC0 + 8 * i) 8 = g.name.toNat) ∧
  (∀ i h l, i < 32 → locks[i]? = some (h, l) →
    State.num b (0x140 + 8 * i) 8 = ((s.lockPlace coh c l.place).space * 2 ^ 56 + h * 2 ^ 48 + l.first % 2 ^ 24 * 2 ^ 24 + l.last % 2 ^ 24)
      % 2 ^ 64 ∧
    State.num b (0x240 + 8 * i) 8 = (s.lockPlace coh c l.place).owner % 2 ^ 64) ∧
  (∀ i, i < 32 → locks[i]? = none → State.num b (0x140 + 8 * i) 8 = 2 ^ 64 - 1) ∧
  (∀ j, j < c.shared → b[0x400 + j]? = some (s.readByte (placeShared coh + j))) ∧
  (∀ i n j core, slots[i]? = some n → j < 65536 → c.core = some core →
    b[(0x400 + c.shared + 4095) / 4096 * 4096 + 65536 * i + j]? = some (s.readByte (slotAt core n + j)))

/-- A group of a cluster that is to be admitted comes for the first time, or its image can be read back (R54, R405). -/
def Ready (s : State) (p : Place) : Prop :=
  ∃ g, s.group? p.gid = some g ∧ (g.phase = .waiting ∨ (g.phase = .parked ∧
    ∃ b k, s.vmRead g.ctx (pkgOf p.core) .imageRead g.image 0x1000 = .ok b ∧
      s.vmRead g.ctx (pkgOf p.core) .imageRead (g.image + 0x1000 + 128 * g.budget) g.stack = .ok k))

/-- A waiting cluster becomes resident whole on the hardware cluster and in the places that it is given, its groups resident but
for those that a KILL in their mailbox ends at once (R307), and it blocks those behind it once it has waited 100 microseconds
(R44 to R50); a resident one stops whole (R46, R47). -/
def Clusters : Prop :=
  ∀ (s : State),
    (∀ ctx launch cluster hw binds k,
      let n := cohortKey (launchKey ctx launch) cluster
      let ps := s.placesOf hw k binds
      s.cluster? n = some k → s.waits k = true → hw ∈ places k → s.imagesFit k = true → s.roomAt n k hw = true →
      s.mayPass n k = true → binds.length = ps.length → s.bindsFit ps = true → Unlogged s k.ctx → k.unlogged = false →
      (ps.map (·.gid)).Nodup → (∀ p, p ∈ ps → Ready s p) →
      (∀ p g, p ∈ ps → s.group? p.gid = some g → g.phase = .waiting) ∨ s.needsImages k = [] →
      ∃ t k', exec (.clusterAdmission ctx launch cluster hw binds) s = .next t ∧ t.cluster? n = some k' ∧ k'.state = .resident ∧
        k'.hw = some hw ∧ k'.cohorts = k.cohorts ∧
        ∀ p, p ∈ ps → ∃ g, t.group? p.gid = some g ∧ g.core = p.core ∧ g.sched = p.sched ∧ g.slot = p.slot ∧
          (g.phase = .resident ∨ (g.phase = .ending ∧ g.cause = .killed ∧ g.exit = 0))) ∧
    (∀ p n w rest, s.waitingOn p = (n, w) :: rest → s.cluster? n = some w → w.blocking = false →
      w.waitFrom + 105000 ≤ s.timebase.toNat →
      ∃ t k', exec .admissionWaitExpiry s = .next t ∧ t = { s with clusters := t.clusters } ∧ t.cluster? n = some k' ∧
        k' = { w with blocking := true }) ∧
    (∀ cid k n, s.cluster? cid = some k → k.state = .resident → s.frozen k.ctx = false → Unlogged s k.ctx →
      s.stopFor cid k = some n → n ≠ cid →
      ∃ t k', exec (.preemptStop cid) s = .next t ∧ t.cluster? cid = some k' ∧ k'.state = .stopped ∧ k'.cohorts = k.cohorts ∧
        ∀ c x gid g, c ∈ k.cohorts → s.cohort? c = some x → gid ∈ x.groups → s.group? gid = some g → g.phase = .resident →
          ∃ h, t.group? gid = some h ∧ h.phase = .stopping ∧ h.evictable = true ∧ h.s = g.s ∧ h.v = g.v ∧ h.fibres = g.fibres)

/-- A stopped cohort that no engine uses is saved and leaves its core (R366); dirty registers go to their images, and then
the group is parked (R70); its image may move to the second tier and back (R367); that no byte outside the name entry changes then is the
model's choice (log 30); a group whose work is done is DEAD, and so is
its entry, with the exit word and the cause, or FREE again for a task group (R152, R299). -/
def Saves : Prop :=
  ∀ (s : State),
    (∀ coh c k, s.cohort? coh = some c → s.cluster? c.cluster = some k → k.state = .stopped → c.core.isSome = true →
      (∀ o, o ∈ s.ops → s.holdsUp coh o.2 = false) → (∀ gid g, gid ∈ c.groups → s.group? gid = some g → g.phase ≠ .ending) →
      (∃ gid g, gid ∈ c.groups ∧ s.group? gid = some g ∧ g.phase ≠ .dead) →
      (s.vmWrite c.ctx k.pkg .imageWrite c.image (s.cohortBytes coh c)).2 = none →
      ∃ t b, exec (.cohortSave coh) s = .next t ∧ t.cohort? coh = some { c with core := none, saved := true } ∧
        CohortImage s coh c b ∧
        ∀ a, (placeShared coh ≤ a → a < placeShared coh + 2 ^ 80 → t.readByte a = 0) ∧
          (a < placeShared coh ∨ placeShared coh + 2 ^ 80 ≤ a →
            t.readByte a = (s.vmWrite c.ctx k.pkg .imageWrite c.image b).1.readByte a)) ∧
    (∀ gid reg g m pa, s.group? gid = some g → s.clusterSaved g = true → g.phase = .stopping → Clear s g.ctx →
      g.map.get? reg = some m → m.dirty = true → (s.entryValue g reg).length = 32 →
      s.walk g.ctx (pkgOf g.core) .imageWrite (g.image + 0x1000 + 128 * reg) = .ok pa →
      (g.image + 0x1000 + 128 * reg) % 65536 + 128 ≤ 65536 →
      ∃ t, exec (.registerWriteback gid reg) s = .next t ∧
        t = { s with groups := s.groups.put gid { g with map := g.map.put reg { m with dirty := false } },
                     mem := t.mem, watches := t.watches, cores := t.cores } ∧
        (∀ f, f < 32 → t.readNat (pa + 4 * f) 4 = ((s.entryValue g reg).lane f).toNat) ∧
        ∀ a, a < pa ∨ pa + 128 ≤ a → t.readByte a = s.readByte a) ∧
    (∀ gid g e pa, s.group? gid = some g → s.entry? g.ctx (nameIndex g.name) = some e → e.qcount = 0 →
      entryPlace s g.ctx (nameIndex g.name) pa →
      (s.clusterSaved g = true → g.phase = .stopping → (∀ m, m ∈ g.map → m.2.dirty = false) →
        ∃ t h, exec (.groupWritebackComplete gid) s = .next t ∧ t.group? gid = some h ∧
          h = { g with phase := .parked } ∧ (entryAt t pa).state = 2 ∧ (entryAt t pa).loc = g.image % 2 ^ 64 ∧
          ∀ a, a < pa ∨ pa + 32 ≤ a → t.readByte a = s.readByte a) ∧
      (g.phase = .parked →
        ∃ t, exec (.imageSwapOut gid) s = .next t ∧ t = { s with groups := s.groups.put gid { g with phase := .swapped }, mem := t.mem, watches := t.watches } ∧
          (entryAt t pa).state = 4 ∧ ∀ a, a < pa ∨ pa + 32 ≤ a → t.readByte a = s.readByte a) ∧
      (g.phase = .swapped →
        ∃ t, exec (.imageSwapIn gid) s = .next t ∧ t = { s with groups := s.groups.put gid { g with phase := .parked }, mem := t.mem, watches := t.watches } ∧
          (entryAt t pa).state = 2 ∧ ∀ a, a < pa ∨ pa + 32 ≤ a → t.readByte a = s.readByte a)) ∧
    (∀ gid g, s.group? gid = some g → g.phase = .ending → (∀ o, o ∈ s.ops → ownWork gid o.2 = false) → s.holdersOf g = [] →
      ∃ t h, exec (.groupEndFinalise gid) s = .next t ∧ t.group? gid = some h ∧ h.phase = .dead ∧ h.exit = g.exit ∧ h.cause = g.cause ∧
        ∀ e pa c, s.entry? g.ctx (nameIndex g.name) = some e → entryPlace s g.ctx (nameIndex g.name) pa →
          s.joinsOn g.ctx (nameIndex g.name) = [] → s.cohort? g.cohort = some c →
          (c.task = false → (entryAt t pa).state = 5 ∧ (entryAt t pa).loc = g.exit.toNat ∧ (entryAt t pa).gen = e.gen ∧
            (entryAt t pa).kind = e.kind ∧
            (entryAt t pa).cause = (match g.cause with | .none => 0 | .exit => 1 | .faulted => 2 | .killed => 3)) ∧
          (c.task = true → (entryAt t pa).state = 0 ∧ (entryAt t pa).gen = (e.gen + 1) % 2 ^ 24))

/-- A launch record that passes every check creates its launch, its cohorts and their groups, and takes the context's next
launch number (R299, R320, R321). -/
def Acceptance : Prop :=
  ∀ (s : State) (req : Nat) (indices : List Nat) (op : Op) (l : LaunchOp) (b : List Byte) (ranks : List Rank) (c : Context),
    let num := c.launches + 1
    let lk := launchKey op.ctx num
    s.op? req = some op → op.work = .launch l → s.context? op.ctx = some c → c.ended = none → Unlogged s op.ctx →
    s.checkRecord op.ctx l.pkg l.record = .ok (b, ranks) → indices.length = recGroups b * recCohorts b →
    s.allFree op.ctx indices = true →
    ∃ t r, exec (.launchAcceptance req indices) s = .next t ∧ t.op? req = none ∧ t.launch? lk = some r ∧
      r.ctx = op.ctx ∧ r.num = num ∧ r.creator = l.creator ∧ r.service = l.service ∧
      r.gx = State.num b 8 4 ∧ r.gy = State.num b 12 4 ∧ r.gz = State.num b 16 4 ∧ r.shared = State.num b 24 4 ∧
      r.prio = (match l.cap with | some p => min p (State.num b 3 1) | none => State.num b 3 1) ∧
      (∀ h, l.host = some h →
        { ctx := h.ctx, caller := h.caller, seq := h.seq, call := 0x86, status := num * 2 ^ 40 % 2 ^ 64 } ∈ t.replies) ∧
      ∀ j, j < recCohorts b → ∃ x, t.cohort? (cohortKey lk j) = some x ∧ x.num = j ∧ x.shared = State.num b 24 4 ∧
        x.groups.length = recGroups b ∧ ∀ gid, gid ∈ x.groups → ∃ g, t.group? gid = some g ∧ g.phase = .waiting ∧
          g.cohort = cohortKey lk j ∧ g.launch = lk

/-- The distributor answers the oldest request of a group with the next tile or the end token (R328); tasks that are ready
together become one group, a fibre for each (R329, R331); that its cohort is numbered from X*Y*Z on is the model's reading
(log 40). -/
def WorkEvents : Prop :=
  ∀ (s : State),
    (∀ o op k gid l, s.op? o = some op → op.work = .tile k → op.gid = some gid → s.launch? k.launch = some l →
      (s.unanswered gid).head? = some o → Unlogged s op.ctx →
      let answer := if l.nextTile < l.tx * l.ty * l.tz then
          l.nextTile % l.tx + l.nextTile / l.tx % l.ty * 2 ^ 16 + l.nextTile / l.tx / l.ty * 2 ^ 32 + l.nextTile % 2 ^ 16 * 2 ^ 48
        else 2 ^ 64 - 1
      l.tx < 2 ^ 16 → l.ty < 2 ^ 16 → l.tz < 2 ^ 15 →
      ∃ t, exec (.wdAnswer o) s = .next t ∧ t.op? o = none ∧ Stored s t (spKey op.ctx k.addr.toNat) 8 answer ∧
        t.launch? k.launch = some (if l.nextTile < l.tx * l.ty * l.tz then { l with nextTile := l.nextTile + 1 } else l)) ∧
    (∀ die ps i ts t0 rest l r, tasksAt (s.die die) ps = some ts → ts = t0 :: rest → s.launch? t0.launch = some l →
      l.roles[t0.role]? = some r → l.ctx = t0.ctx →
      (∀ k, k ∈ ts → k.ready = true ∧ k.ctx = t0.ctx ∧ k.launch = t0.launch ∧ k.role = t0.role ∧ k.entry = t0.entry ∧
        k.argPkg = t0.argPkg ∧ k.argDie = t0.argDie) →
      ps.Nodup → ts.length ≤ 32 → s.allFree t0.ctx [i] = true → Unlogged s t0.ctx →
      ∃ t g, exec (.taskDispatch die ps i) s = .next t ∧
        t.group? (gidOf (cohortKey t0.launch (l.gx * l.gy * l.gz + l.dispatched)) 0) = some g ∧
        g.phase = .waiting ∧ g.launch = t0.launch ∧ g.role = t0.role ∧ g.budget = r.budget ∧
        g.sys.argloc = BitVec.ofNat 64 (t0.argPkg * 2 ^ 40 + t0.argDie * 2 ^ 37) ∧
        (∀ f k, ts[f]? = some k → (g.fibre f).kind = .fibre ∧ (g.fibre f).pc = k.entry ∧
          (g.rdV 0).lane f = BitVec.ofNat 32 k.argOff) ∧
        (t.launch? t0.launch).map (·.dispatched) = some (l.dispatched + 1) ∧
        (t.die die).tasks.length + ts.length = (s.die die).tasks.length)

/-- A service that is offered has moved its data, if it has any, and its reply reaches the posting group as a deposit (R383,
R384). That the number of the deposit's register is the message's byte 1 modulo 8, and that the status and the bytes done come
with the event, are the model's reading (log 47). -/
def Served : Prop :=
  ∀ (s : State) (post : Nat) (op : Op) (p : PostOp) (gid : Nat) (g : Group) (x : Instr) (status done : Nat) (data : List Byte),
    let b := p.message
    let k := State.num b 1 1 % 8
    let w := s.vmWrite op.ctx p.pkg .copyWrite (State.num b 24 8) data
    let readable : Nat → Prop := fun n => ∀ x, x ∈ chunksOf (State.num b 24 8) n → ∃ pa, s.walk op.ctx p.pkg .copyRead x.1 = .ok pa
    s.op? post = some op → op.work = .post p → op.gid = some gid → s.group? gid = some g → g.phase = .resident →
    g.pending.get? (112 + k) = none → Unlogged s op.ctx → w.2 = none →
    (∃ q r, r ∈ s.services ∧ r.2 = q ∧
      if State.num b 0 1 ≤ 3 then 1 ≤ p.service ∧ p.service ≤ q.1 ∧ p.service < 0x100
      else 0x100 ≤ p.service ∧ p.service < 0x100 + q.2) →
    (x = .svcReadBlocks post status done data ∧ State.num b 0 1 = 1) ∨
      (∃ blocks, x = .svcWriteBlocks post status blocks ∧ blocks.count = done ∧ State.num b 0 1 = 2 ∧ data = [] ∧
        readable (State.num b 16 4 * blocks.size)) ∨
      (x = .svcFlush post status ∧ State.num b 0 1 = 3 ∧ data = [] ∧ done = 0) ∨
      (x = .svcSendFrame post status done ∧ State.num b 0 1 = 4 ∧ data = [] ∧ readable (State.num b 16 4)) ∨
      (x = .svcPostReceive post status data ∧ State.num b 0 1 = 5 ∧ data.length ≤ State.num b 16 4 ∧ done = data.length) →
    (∃ i e, w.1.findName op.ctx g.name = .entry i e ∧ e.state = 1 ∧ w.1.groupNamed op.ctx (e.name i) = some gid) →
    ∃ t h, exec x s = .next t ∧ t.op? post = none ∧ t.mem = w.1.mem ∧ t.group? gid = some h ∧
      h.rdS (BitVec.ofNat 7 (112 + k)) = BitVec.ofNat 64 (status % 2 ^ 16 + done % 2 ^ 32 * 2 ^ 16) ∧
      h.sys.depmask = g.sys.depmask ||| BitVec.ofNat 64 (2 ^ k)

end Sys2Proof.Claim

/-- Home steps of operations on names (R304 to R313). -/
def Obligations.DeliveryEvents : Prop :=
  RunningRow ∧ StatRow ∧ ParkedRow ∧ MailRow ∧ DeadRow ∧ DeniedRow ∧ Joins

/-- Admission, stops, saves and ends (R44 to R51, R70, R152, R366, R367). -/
def Obligations.ResidencyEvents : Prop := Clusters ∧ Saves

/-- Launches, tiles, tasks and services (R320, R321, R328, R331, R384). -/
def Obligations.WorkArrives : Prop := Acceptance ∧ WorkEvents ∧ Served

/-! # Events: faults and the platform -/

namespace Sys2Proof.Claim

/-- A context has ended with a cause: every group of it is DEAD, nothing of it is in flight, and CONTEXT_FATAL is in its event
queue (R364). -/
def Ended (s : State) (ctx : Nat) (cause : Byte) (t : State) : Prop :=
  ∃ c, t.context? ctx = some c ∧ c.ended = some cause ∧ (∃ e, e ∈ c.events ∧ e.kind = 1 ∧ e.time = (s.ticks c.home).toNat) ∧
    (∀ n g, t.group? n = some g → g.ctx = ctx → g.phase = .dead) ∧ (∀ l, l ∈ t.locks → l.ctx ≠ ctx)

/-- A context is open and has not ended. -/
def Open (s : State) (ctx : Nat) : Prop := ∃ c, s.context? ctx = some c ∧ c.ended = none

/-- Context-fatal faults of their own: with a cause that is given, of the watchdog (R363), of a remote access that had no
answer (R382), and of a junction at its critical temperature, which also stops the package (R402). A source of a replay
that waits too long freezes its context (R348). -/
def FatalEvents : Prop :=
  ∀ (s : State) (ctx : Nat), Open s ctx →
    (∀ cause addr thread, ∃ t, exec (.contextFatalFault ctx cause addr thread) s = .next t ∧ Ended s ctx cause t) ∧
    (∀ gid g, s.group? gid = some g → g.ctx = ctx → g.stalled = true → s.limitPassed ctx g.stallFrom = true →
      ∃ t, exec (.watchdogExpiry gid) s = .next t ∧ Ended s ctx 0x84 t) ∧
    (∃ t, exec (.remoteTimeout ctx) s = .next t ∧ Ended s ctx 0x83 t) ∧
    (∀ j : Junction, 110000 ≤ j.temp → (s.site? ctx j.pkg).isSome = true →
      ∃ t c, exec (.criticalTemperature j) s = .next t ∧ j.pkg ∈ t.stopped ∧ t.context? ctx = some c ∧ c.ended = some 0x83) ∧
    (∀ c pkg p cls src i r rest, s.context? ctx = some c → c.sites = [(pkg, p)] → p.scroll.mode = 2 → p.scroll.frozen = false →
      s.sourceRecords ctx pkg (cls * 65536 + src) = (i, r) :: rest →
      s.limitPassed ctx (p.scroll.waits.read 0 (cls * 65536 + src)) = true →
      ∃ t, exec (.replayWaitTimeout ctx cls src) s = .next t ∧ t = { s with contexts := t.contexts } ∧ t.frozen ctx = true)

/-- A range of a context lies at `pa` in pages that debug hardware may read and write (R393), and stays there whatever bytes the
ranges of `blocks`, each with its length, hold. -/
def Steady (s : State) (ctx pkg va n pa : Nat) (blocks : List (Nat × Nat)) : Prop :=
  va % 65536 + n ≤ 65536 ∧ Clear s ctx ∧
  ∀ m, (∀ a, (∀ b, b ∈ blocks → a < b.1 ∨ b.1 + b.2 ≤ a) → ({ s with mem := m } : State).readByte a = s.readByte a) →
    ∀ i, i < n → ({ s with mem := m } : State).walk ctx pkg .copyRead (va + i) = .ok (pa + i) ∧
      ({ s with mem := m } : State).walk ctx pkg .copyWrite (va + i) = .ok (pa + i)

/-- A core adds its private counts for the launches of a context into their counter blocks, which lie at `place`, each modulo
2^64; it clears them, and changes no other byte (R394). -/
def CounterFlush : Prop :=
  ∀ (s : State) (ctx core : Nat) (place : Nat → Nat),
    let counts := (s.core core).counts
    let mine : Nat → Prop := fun k => ∃ l, s.launch? k = some l ∧ l.ctx = ctx
    let blocks := (counts.filter fun e => match s.launch? e.1 with | some l => l.ctx == ctx | none => false).map fun e => (place e.1, 128)
    (counts.map (·.1)).Nodup → blocks.Pairwise apart →
    (∀ k cs, (k, cs) ∈ counts → mine k → (cs.map (·.1)).Nodup ∧ (∀ n p, (n, p) ∈ cs → n < 16) ∧
      ∃ l at_, s.launch? k = some l ∧ l.debugOpts.counters = some at_ ∧ at_ % 128 = 0 ∧
        Steady s ctx (pkgOf core) at_ 128 (place k) blocks) →
    ∃ t, exec (.counterFlush ctx core) s = .next t ∧ t = { s with mem := t.mem, watches := t.watches, cores := t.cores } ∧
      (∀ k cs n p, (k, cs) ∈ counts → mine k → (n, p) ∈ cs →
        t.readNat (place k + 8 * n) 8 = (s.readNat (place k + 8 * n) 8 + p) % 2 ^ 64) ∧
      (∀ a, (∀ k cs n p, (k, cs) ∈ counts → mine k → (n, p) ∈ cs → a < place k + 8 * n ∨ place k + 8 * n + 8 ≤ a) →
        t.readByte a = s.readByte a) ∧
      (∀ k, mine k → (t.core core).counts.get? k = none) ∧ ∀ k, ¬ mine k → (t.core core).counts.get? k = counts.get? k

/-- The bytes of a trace record (R397): byte 1 has a bit for each of the six points; times of points that were not visited are 0, and byte 3 is 0. -/
def TraceRecord (x : Tagged) (visited : Byte) (times : List (BitVec 16)) (b : List Byte) : Prop :=
  b.length = 32 ∧ State.num b 0 1 = 1 ∧ State.num b 1 1 = visited.toNat % 64 ∧ State.num b 2 1 = x.kind % 256 ∧ State.num b 3 1 = 0 ∧
  (∀ i, i < 6 → State.num b (4 + 2 * i) 2 = if visited.getLsbD i then (times.getD i 0).toNat else 0) ∧
  State.num b 16 8 = x.thread.toNat ∧ State.num b 24 8 = x.addr.toNat

/-- The oldest tagged request of a context on a core completes (R397). Its record goes to slot TRWIDX modulo the capacity of the
launch's ring, and TRWIDX advances; when TRWIDX less TRRIDX is the capacity the record is dropped and TRLOST counts it; a
launch that has no ring drops it, and so does one with no counter block, which is the model's choice (log 32). No other byte of
memory changes, and nothing else but the tag. -/
def TracePosts : Prop :=
  ∀ (s : State) (ctx core : Nat) (visited : Byte) (times : List (BitVec 16)) (x : Tagged),
    (s.core core).tagged.find? (fun x => x.ctx == ctx) = some x →
    let untagged : State → Prop := fun t => (t.core core).tagged = (s.core core).tagged.erase x
    ((∀ l, s.launch? x.launch = some l → l.debugOpts.ring = none ∨ l.debugOpts.counters = none) →
      ∃ t, exec (.tracePost ctx core visited times) s = .next t ∧ t = { s with cores := t.cores } ∧ untagged t ∧
        (t.core core).counts = (s.core core).counts) ∧
    (∀ l base tlog at_ p q, s.launch? x.launch = some l → l.debugOpts.ring = some (base, tlog) → l.debugOpts.counters = some at_ →
      let widx := s.readNat p 4
      let fill := (widx + 2 ^ 32 - s.readNat (p + 4) 4) % 2 ^ 32
      let capacity := 2 ^ (tlog - 5)
      Steady s ctx (pkgOf core) (at_ + 0x50) 8 p [(p, 4)] →
      (fill = capacity → ∃ t, exec (.tracePost ctx core visited times) s = .next t ∧ t = { s with cores := t.cores } ∧ untagged t ∧
        Tbl.read 0 ((t.core core).counts.read [] x.launch) 9 = Tbl.read 0 ((s.core core).counts.read [] x.launch) 9 + 1) ∧
      (fill ≠ capacity → Steady s ctx (pkgOf core) (base + 32 * (widx % capacity)) 32 q [(p, 4)] → apart (p, 4) (q, 32) →
        ∃ t, exec (.tracePost ctx core visited times) s = .next t ∧
          t = { s with mem := t.mem, watches := t.watches, cores := t.cores } ∧ untagged t ∧
          (t.core core).counts = (s.core core).counts ∧ t.readNat p 4 = (widx + 1) % 2 ^ 32 ∧
          TraceRecord x visited times (t.readBytes q 32) ∧
          ∀ a, a < p ∨ p + 4 ≤ a → a < q ∨ q + 32 ≤ a → t.readByte a = s.readByte a))

/-- A core's private counts are added to the counter blocks of their launches (R394). The oldest tagged request of a context is
traced: its 32-byte record goes to slot TRWIDX of its launch's ring and TRWIDX advances, a full ring drops it and TRLOST counts it,
and a launch with no ring drops it, as does one with no counter block, which is the model's choice (R397; log 32). A soft error that
is corrected is counted (R69). -/
def DebugEvents : Prop :=
  CounterFlush ∧ TracePosts ∧
  ∀ (s : State) (core : Nat),
    exec (.softErrorCorrected core) s = .next { s with corrected := s.corrected.put core (s.corrected.read 0 core + 1) }

/-- Package reset runs the boot steps of a part: a firmware image with a bad signature or below the part's fused minimum stops it
with BOOTERR at step 2, a bad stack at step 3 and a service that does not start at step 5, and it is in no domain; otherwise it
is up under its number with the services and the expanders that were found, its TIMEBASE counts from 0, and what other parts
show of their boots and fuses stands (R21, R383, R398, R399). That a package with no other in its domain starts with no context
and an empty memory, as number 0 when its links are down, and that one that joins a domain leaves it as it is, is the model's
choice (logs 5, 7, 8). A governor lowers its island's clock above a limit, and raises it after a millisecond of headroom (R401);
those of a stopped package rest (R402). -/
def PlatformSteps : Prop :=
  (∀ (s : State) (rc : Bool) (image : Firmware) (stacksOk : Bool) (pkg : Option (BitVec 8)) (found : Enumeration),
    let p := (pkg.map (·.toNat)).getD 0
    let minimum := s.fuses.read 0 image.part
    let bad := image.signed = false ∨ image.version < minimum
    let number := (s.boots.read {} image.part).num
    ∃ t b, exec (.packageReset rc image stacksOk pkg found) s = .next t ∧ t.boots = s.boots.put image.part b ∧ b.rootcplx = rc ∧
      (bad → b.err = true ∧ b.step = 2 ∧ b.num = none) ∧
      (¬ bad → stacksOk = false → b.err = true ∧ b.step = 3 ∧ b.num = none) ∧
      (¬ bad → stacksOk = true → found.servicesOk = false → b.err = true ∧ b.step = 5 ∧ b.num = some p) ∧
      (bad ∨ stacksOk = false ∨ found.servicesOk = false → t.fuses = s.fuses ∧ (∀ q, number = some q → q ∉ t.packages) ∧
        ((∀ q, number = some q → q ∉ s.packages) → t = { s with boots := t.boots })) ∧
      (¬ bad → stacksOk = true → found.servicesOk = true → b.err = false ∧ b.step = 5 ∧ b.num = some p ∧ t.booted = true ∧
        t.linked = pkg.isSome ∧ p ∈ t.packages ∧ t.ticks p = 0 ∧
        t.fuses = s.fuses.put image.part (max minimum image.fuseTo) ∧ t.firmware.get? p = some image ∧
        (∀ i x, i < 16 → found.expanders[i]? = some x → t.expanders.read 0 (p * 16 + i) = x) ∧
        (rc = true → t.services.get? p = some (found.namespaces, found.networks)) ∧
        (pkg = none ∨ s.linked = false ∨ (∀ q, q ∈ s.packages → q = p ∨ number = some q) → t.contexts = [] ∧ t.groups = [] ∧
          t.launches = [] ∧ t.ops = [] ∧ t.mem = [] ∧ t.timebase = 0 ∧ t.stopped = [] ∧ t.packages = [p]) ∧
        (pkg.isSome = true → s.linked = true → s.booted = true → s.packages ≠ [] → p ∉ s.packages →
          (∀ q, number = some q → q ∉ s.packages) → t = { s with
            boots := t.boots, packages := s.packages ++ [p], origins := t.origins, fuses := t.fuses, firmware := t.firmware
            expanders := t.expanders, services := t.services })) ) ∧
  ∀ (s : State) (i power temp : Nat),
    (i / 16 ∈ s.stopped → exec (.governorTick i power temp) s = .next s) ∧
    (i / 16 ∉ s.stopped → ∃ t, exec (.governorTick i power temp) s = .next t ∧ t = { s with islands := t.islands } ∧
      (∀ k, k ≠ i → t.island k = s.island k) ∧
      (s.powerLimit i < power ∨ s.throttleLimit i < temp → (t.island i).clock = max 350 ((s.island i).clock - 25)) ∧
      (power ≤ s.powerLimit i → temp ≤ s.throttleLimit i →
        (10 * power < 9 * s.powerLimit i ∧ 10 * temp < 9 * s.throttleLimit i ∧ 990 ≤ (s.island i).cool →
          (t.island i).clock = min 1050 ((s.island i).clock + 25)) ∧
        (9 * s.powerLimit i ≤ 10 * power ∨ 9 * s.throttleLimit i ≤ 10 * temp ∨ (s.island i).cool < 990 →
          (t.island i).clock = (s.island i).clock)))

end Sys2Proof.Claim

/-- Context-fatal faults and divergence (R348, R363, R364, R382, R402). -/
def Obligations.FaultEvents : Prop := FatalEvents

/-- Debug hardware and the platform (R69, R394, R397, R398, R401). -/
def Obligations.PlatformEvents : Prop := DebugEvents ∧ PlatformSteps

/-! # Host calls -/

namespace Sys2Proof.Claim

/-- A call's reply is the last one, and its code is the call's with bit 7 set (R373). -/
def Replied (t : State) (c : Call) (code status : Nat) (data : List Byte) : Prop :=
  t.replies.getLast? = some { ctx := c.ctx, caller := c.caller, seq := c.seq, call := 128 + code, status := status, data := data }

/-- A package takes calls: it has booted and is not stopped (R399, R402). -/
def Listens (s : State) (pkg : Nat) : Prop := pkg ∈ s.packages ∧ pkg ∉ s.stopped

/-- The package that receives a call takes calls, and the context is open there and has not ended (R377, R399). -/
def Takes (s : State) (c : Call) (x : Context) : Prop :=
  Listens s c.pkg ∧ s.context? c.ctx = some x ∧ (x.sites.get? c.pkg).isSome = true ∧ x.ended = none

/-- OPEN, CLOSE, MAP, CONNECT and SCROLL_CTL (R159, R160, R338, R344, R345, R348, R375, R376, R380, R388). An OPEN that is not
confidential is answered with the context number in four bytes, which is the model's reading (log 47); entering RECORD writes
the GAP record (R338), and what SCROLL_CTL does to the indices of a scroll that stays in RECORD is left out. -/
def ContextCalls : Prop :=
  ∀ (s : State) (c : Call),
    (∀ num a n, Listens s c.pkg → a.join = none → a.confidential = false → s.freeNumber num = some n → openOk a = true →
      ∃ t x p, exec (.hostOpen c num a) s = .next t ∧ t.context? n = some x ∧ Replied t c 1 0 (toBytes 4 n) ∧
        s.context? n = none ∧ x.home = c.pkg ∧ x.nametab = a.nametab % 2 ^ 56 ∧ x.nametabN = a.nametabN ∧
        x.xvec = a.xvec &&& ~~~7 ∧ x.wdlimit = a.wdlimit.toNat ∧ x.ended = none ∧ x.sites = [(c.pkg, p)] ∧ p.root = a.root ∧
        p.poolAt = a.poolAt ∧ p.poolSize = a.poolSize) ∧
    (∀ num a n x, Listens s c.pkg → a.join = some n → a.confidential = false → s.context? n = some x → x.ended = none →
      x.sites.get? c.pkg = none → a.root % 8192 = 0 → a.poolAt % 4096 = 0 →
      ∃ t, exec (.hostOpen c num a) s = .next t ∧ Replied t c 1 0 (toBytes 4 n) ∧
        t = { s with replies := t.replies, contexts := s.contexts.put n { x with
          sites := x.sites.put c.pkg { root := a.root, poolAt := a.poolAt, poolSize := a.poolSize } } }) ∧
    (∀ x, Takes s c x → s.busy c.ctx = false →
      (c.pkg = x.home → ∃ t, exec (.hostClose c) s = .next t ∧ t.context? c.ctx = none ∧ Replied t c 2 0 [] ∧
        (∀ n g, t.group? n = some g → g.ctx ≠ c.ctx) ∧ (∀ l, l ∈ t.locks → l.ctx ≠ c.ctx)) ∧
      (c.pkg ≠ x.home → ∃ t y, exec (.hostClose c) s = .next t ∧ t.context? c.ctx = some y ∧ y.sites.get? c.pkg = none ∧
        y.home = x.home ∧ y.ended = none ∧ Replied t c 2 0 [])) ∧
    (∀ x, Takes s c x → ∃ t, exec (.hostCloseKill c) s = .next t ∧ Ended s c.ctx 0x85 t ∧ Replied t c 2 0 []) ∧
    (∀ x p pkg, Takes s c x → x.sites.get? pkg = some p →
      (∀ die size seq, die < 8 → size % 65536 = 0 → size < 2 ^ 37 →
        (size < s.windowSize c.ctx pkg die → s.rangeInUse c.ctx x (placeWindow c.ctx pkg die + size)
          (s.windowSize c.ctx pkg die - size) = false) → s.windowsElse c.ctx pkg die + size ≤ 100663296 →
        ∃ t, exec (.hostMap c pkg die size seq) s = .next t ∧ Replied t c 3 0 [] ∧ t.windowSize c.ctx pkg die = size ∧
          t.windowSeq c.ctx pkg die = (decide (size ≠ 0) && seq) ∧
          (∀ b, b < size → b < s.windowSize c.ctx pkg die →
            t.readByte (placeWindow c.ctx pkg die + b) = s.readByte (placeWindow c.ctx pkg die + b)) ∧
          (∀ b, size ≤ b ∨ s.windowSize c.ctx pkg die ≤ b → b < 2 ^ 36 → t.readByte (placeWindow c.ctx pkg die + b) = 0)) ∧
      (∀ (reg : BitVec 4) q ctx r, s.xfersOn c.ctx pkg reg.toNat true = [] → s.xfersOn c.ctx pkg reg.toNat false = [] →
        ∃ t k, exec (.connect c pkg reg (.fabric q ctx r)) s = .next t ∧ Replied t c 12 0 [] ∧
          t.conn? c.ctx pkg reg.toNat = some k ∧ k.peer = .fabric q ctx r) ∧
      (∀ a, a.mode < 3 → 20 ≤ a.logSize → a.logSize ≤ 32 → a.base % 2 ^ a.logSize = 0 →
        scrollSame p.scroll a = true ∨ s.scrollBusy c.ctx = false → a.mode ≠ 1 → a.widx < 2 ^ 32 → a.ridx < 2 ^ 32 →
        (a.widx + 2 ^ 32 - a.ridx) % 2 ^ 32 ≤ 2 ^ (a.logSize - 5) →
        ∃ t, exec (.scrollCtl c pkg a) s = .next t ∧ Replied t c 13 0 [] ∧ (t.scroll c.ctx pkg).mode = a.mode ∧
          (t.scroll c.ctx pkg).base = a.base ∧ (t.scroll c.ctx pkg).logSize = a.logSize ∧
          (t.scroll c.ctx pkg).widx.toNat = a.widx ∧ (t.scroll c.ctx pkg).ridx.toNat = a.ridx) ∧
      (∀ a, a.mode = 1 → p.scroll.mode ≠ 1 → 20 ≤ a.logSize → a.logSize ≤ 32 → a.base % 2 ^ a.logSize = 0 →
        s.scrollBusy c.ctx = false → a.widx < 2 ^ 32 → a.ridx < 2 ^ 32 → (a.widx + 2 ^ 32 - a.ridx) % 2 ^ 32 < 2 ^ (a.logSize - 5) →
        s.slotOk c.ctx pkg (a.base + 32 * (a.widx % 2 ^ (a.logSize - 5))) = true →
        ∃ t, exec (.scrollCtl c pkg a) s = .next t ∧ Replied t c 13 0 [] ∧ (t.scroll c.ctx pkg).mode = 1 ∧
          (t.scroll c.ctx pkg).base = a.base ∧ (t.scroll c.ctx pkg).logSize = a.logSize ∧
          (t.scroll c.ctx pkg).widx.toNat = (a.widx + 1) % 2 ^ 32 ∧ (t.scroll c.ctx pkg).ridx.toNat = a.ridx) ∧
      (p.scroll.frozen = true →
        (∃ t, exec (.scrollCtlKill c pkg) s = .next t ∧ Ended s c.ctx 0x85 t ∧ Replied t c 13 0 []) ∧
        (∃ t, exec (.scrollCtlContinue c pkg) s = .next t ∧ Replied t c 13 0 [] ∧ (t.scroll c.ctx pkg).mode = 0 ∧
          (t.scroll c.ctx pkg).frozen = false)))

/-- WRITE, READ, EVENT_READ and DUMP_READ (R375, R378, R379), and a message that is none (R374). -/
def DataCalls : Prop :=
  ∀ (s : State) (c : Call) (x : Context), Takes s c x →
    (∀ a data, 0 < data.length → data.length ≤ 65536 → a.toNat < 2 ^ 48 →
      a.toNat % 2 ^ 37 + data.length ≤ s.windowSize c.ctx (a.toNat / 2 ^ 40 % 256) (a.toNat / 2 ^ 37 % 8) → s.locks = [] →
      ∃ t, exec (.hostWrite c .sp a data) s = .next t ∧ t = { s with mem := t.mem, watches := t.watches, replies := t.replies } ∧ Replied t c 4 0 [] ∧
        t.readBytes (spKey c.ctx a.toNat) data.length = data ∧
        ∀ b, b < spKey c.ctx a.toNat ∨ spKey c.ctx a.toNat + data.length ≤ b → t.readByte b = s.readByte b) ∧
    (∀ a data pa, 0 < data.length → a.toNat % 65536 + data.length ≤ 65536 → Clear s c.ctx →
      s.walk c.ctx c.pkg .hostWrite a.toNat = .ok pa →
      ∃ t, exec (.hostWrite c .vm a data) s = .next t ∧ t = { s with mem := t.mem, watches := t.watches, replies := t.replies } ∧ Replied t c 4 0 [] ∧
        t.readBytes pa data.length = data ∧ ∀ b, b < pa ∨ pa + data.length ≤ b → t.readByte b = s.readByte b) ∧
    (∀ a len, 0 < len → len ≤ 65536 → a.toNat < 2 ^ 48 →
      a.toNat % 2 ^ 37 + len ≤ s.windowSize c.ctx (a.toNat / 2 ^ 40 % 256) (a.toNat / 2 ^ 37 % 8) → s.locks = [] →
      ∃ t, exec (.hostRead c .sp a len) s = .next t ∧ t = { s with replies := t.replies } ∧
        Replied t c 5 0 (s.readBytes (spKey c.ctx a.toNat) len)) ∧
    (∀ a len pa, 0 < len → a.toNat % 65536 + len ≤ 65536 → Clear s c.ctx → s.walk c.ctx c.pkg .hostRead a.toNat = .ok pa →
      ∃ t, exec (.hostRead c .vm a len) s = .next t ∧ t = { s with replies := t.replies } ∧ Replied t c 5 0 (s.readBytes pa len)) ∧
    (∀ max, ∃ t, exec (.eventRead c max) s = .next t ∧
      t = { s with contexts := s.contexts.put c.ctx { x with events := x.events.drop max }, replies := t.replies } ∧
      Replied t c 14 0 ((x.events.take max).flatMap (eventBytes c.ctx))) ∧
    (∀ off len pa, 0 < len → Clear s c.ctx → off + len ≤ x.dumpLen → (x.dumpAt + off) % 65536 + len ≤ 65536 →
      s.walk c.ctx x.home .imageRead (x.dumpAt + off) = .ok pa →
      ∃ t, exec (.dumpRead c off len) s = .next t ∧ t = { s with replies := t.replies } ∧ Replied t c 15 0 (s.readBytes pa len)) ∧
    (∀ bytes, malformed bytes = true →
      ∃ t, exec (.badcallMessage bytes) s = .next t ∧ t = { s with replies := t.replies } ∧
        (t.replies.getLast?).map (·.status) = some 2)

/-- Calls on launches and names: a launch or a name operation leaves for its home with the calling host thread as its issuer
(R315, R375); NAME_GRANT sets RIGHTS (R302), and NAME_EXIT ends a host thread's entry (R315). That a deadline of NAME_JOIN beyond
64 bits is the last tick is the model's choice (log 50). -/
def NameCalls : Prop :=
  ∀ (s : State) (c : Call) (x : Context), Takes s c x →
    (∀ i service record, (i = Instr.hostLaunch c record ∧ service = false) ∨ (i = .hostServiceLaunch c record ∧ service = true) →
      exec i s = .next { s with
        ops := s.ops.put s.nextOp { ctx := c.ctx, gid := none, sd := none, work := (.launch
          { creator := c.caller, record := record, service := service, cap := none, pkg := c.pkg, host := some c }) }
        nextOp := s.nextOp + 1 }) ∧
    (∀ i target act, ((i = Instr.nameWake c target ∧ act = .wake) ∨ (∃ m, i = .nameSignal c target m ∧ act = .signal m) ∨
        (i = .nameSignalKill c target ∧ act = .kill) ∨ (∃ k v, i = .nameDeposit c target k v ∧ act = .deposit k v) ∨
        (∃ r w, i = .nameJoin c target r w ∧ act = .join r (deadline s (s.homeOf c.ctx) w))) →
      exec i s = .next { s with
        ops := s.ops.put s.nextOp { ctx := c.ctx, gid := none, sd := none, work := (.name
          { issuer := c.caller, target := target, act := act, host := some c }) }
        nextOp := s.nextOp + 1 }) ∧
    (∀ target (mask : BitVec 5) index i e pa, s.findName c.ctx target = .entry i e →
      mask &&& ~~~(BitVec.ofNat 5 (Machine.State.rights c.caller 0 e)) = 0 → entryPlace s c.ctx i pa →
      ∃ t, exec (.nameGrant c target mask none index) s = .next t ∧
        t = { s with mem := t.mem, watches := t.watches, replies := t.replies } ∧
        Replied t c 11 (e.state % 8 * 256) [] ∧ (entryAt t pa).rights = mask.toNat ∧ (entryAt t pa).state = e.state % 8 ∧
        ∀ a, a < pa ∨ pa + 32 ≤ a → t.readByte a = s.readByte a) ∧
    (∀ target (exit : Word64) killed i e pa, Unlogged s c.ctx → s.findName c.ctx target = .entry i e → e.kind = 2 → e.alias_ = false →
      e.state ≠ 5 → c.caller &&& ~~~255 = target &&& ~~~255 ∨ (Machine.State.rights c.caller 0 e).testBit 4 = true →
      entryPlace s c.ctx i pa → s.entry? c.ctx i = some e → s.joinsOn c.ctx i = [] →
      ∃ t, exec (.nameExit c target exit killed) s = .next t ∧
        t = { s with mem := t.mem, watches := t.watches, replies := t.replies } ∧
        Replied t c 16 (e.state % 8 * 256) [] ∧ (entryAt t pa).state = 5 ∧ (entryAt t pa).loc = exit.toNat ∧
        (entryAt t pa).cause = (if killed then 3 else 1))

end Sys2Proof.Claim

/-- Calls on contexts and their resources. -/
def Obligations.HostContextCalls : Prop := ContextCalls

/-- Calls on memory, events and dumps, on launches and on names. -/
def Obligations.HostDataCalls : Prop := DataCalls ∧ NameCalls
end

