-- ==== Sys2Proof/Laws/Table.lean ====
section
/-! SUPPORT. Laws of sparse tables: reads after writes, for every table, and the canonical form, which every operation
keeps. -/

namespace Sys2Proof.Tbl

variable {α : Type}

/-! ## Reads after changes -/

theorem get?_put (t : Tbl α) (k n : Nat) (v : α) : (t.put k v).get? n = if n = k then some v else t.get? n := by
  induction t with
  | nil =>
    by_cases h : n = k
    · simp [put, get?, h]
    · simp [put, get?, h, Ne.symm h]
  | cons e t ih =>
    obtain ⟨j, a⟩ := e
    simp only [put]
    split
    · by_cases h : n = k
      · simp [get?, h]
      · simp [get?, h, Ne.symm h]
    · split
      · rename_i h1 h2
        subst h2
        by_cases h : n = k
        · simp [get?, h]
        · simp [get?, h, Ne.symm h]
      · rename_i h1 h2
        simp only [get?, ih]
        by_cases h : j = n
        · have : n ≠ k := by omega
          simp [h, this]
        · simp [h]

@[simp] theorem get?_put_self (t : Tbl α) (k : Nat) (v : α) : (t.put k v).get? k = some v := by simp [get?_put]

theorem get?_put_of_ne (t : Tbl α) {k n : Nat} (v : α) (h : n ≠ k) : (t.put k v).get? n = t.get? n := by simp [get?_put, h]

theorem get?_erase (t : Tbl α) (k n : Nat) : (t.erase k).get? n = if n = k then none else t.get? n := by
  induction t with
  | nil => simp [erase, get?]
  | cons e t ih =>
    obtain ⟨j, a⟩ := e
    simp only [erase]
    split
    · rename_i h
      subst h
      rw [ih]
      by_cases h : n = j <;> simp [get?, h, Eq.comm]
    · rename_i h
      simp only [get?, ih]
      by_cases hj : j = n
      · have : n ≠ k := by omega
        simp [hj, this]
      · simp [hj]

theorem get?_adjust (t : Tbl α) (k n : Nat) (f : α → α) :
    (t.adjust k f).get? n = if n = k then (t.get? k).map f else t.get? n := by
  unfold adjust
  split
  · rename_i h
    by_cases hn : n = k <;> simp [hn, h]
  · rename_i a h
    simp [get?_put, h]

/-- An adjusted entry that is present is one that has been put. -/
theorem adjust_of_get? {t : Tbl α} {k : Nat} {a : α} (f : α → α) (h : t.get? k = some a) : t.adjust k f = t.put k (f a) := by
  simp [adjust, h]

theorem get?_update (t : Tbl α) (f : Nat → α → α) (n : Nat) : (t.update f).get? n = (t.get? n).map (f n) := by
  induction t with
  | nil => rfl
  | cons e t ih =>
    obtain ⟨j, a⟩ := e
    simp only [update, List.map_cons, get?]
    split
    · rename_i h
      simp [h]
    · exact ih

theorem read_put (d : α) (t : Tbl α) (k n : Nat) (v : α) : (t.put k v).read d n = if n = k then v else t.read d n := by
  by_cases h : n = k <;> simp [read, get?_put, h]

theorem read_write [DecidableEq α] (d : α) (t : Tbl α) (k n : Nat) (v : α) :
    (t.write d k v).read d n = if n = k then v else t.read d n := by
  unfold write
  split
  · rename_i h
    by_cases hn : n = k <;> simp [read, get?_erase, hn, h]
  · exact read_put d t k n v

/-- Two puts at one key are the second. -/
theorem put_put (t : Tbl α) (k : Nat) (a b : α) : (t.put k a).put k b = t.put k b := by
  induction t with
  | nil => simp [put]
  | cons e t ih =>
    obtain ⟨j, c⟩ := e
    simp only [put]
    split
    · simp [put]
    · split
      · simp [put]
      · rename_i h1 h2
        simp [put, h1, h2, ih]

theorem mem_of_get? {t : Tbl α} {k : Nat} {a : α} (h : t.get? k = some a) : (k, a) ∈ t := by
  induction t with
  | nil => simp [get?] at h
  | cons e t ih =>
    obtain ⟨j, b⟩ := e
    simp only [get?] at h
    split at h
    · rename_i hj
      simp_all
    · exact List.mem_cons_of_mem _ (ih h)

/-! ## The canonical form -/

theorem risingFrom_mono {t : Tbl α} : ∀ {lo lo' : Nat}, lo' ≤ lo → risingFrom lo t = true → risingFrom lo' t = true := by
  cases t with
  | nil => intros; rfl
  | cons e t =>
    obtain ⟨j, a⟩ := e
    intro lo lo' h hr
    simp only [risingFrom, Bool.and_eq_true, decide_eq_true_eq] at hr ⊢
    exact ⟨by omega, hr.2⟩

theorem risingFrom_put : ∀ {t : Tbl α} {lo k : Nat} (v : α), lo ≤ k → risingFrom lo t = true → risingFrom lo (t.put k v) = true
  | [], lo, k, v, h, _ => by simp [put, risingFrom, h]
  | (j, a) :: t, lo, k, v, h, hr => by
    simp only [risingFrom, Bool.and_eq_true, decide_eq_true_eq] at hr
    simp only [put]
    split
    · simp only [risingFrom, Bool.and_eq_true, decide_eq_true_eq]
      exact ⟨h, by omega, hr.2⟩
    · split
      · rename_i h2
        subst h2
        simp only [risingFrom, Bool.and_eq_true, decide_eq_true_eq]
        exact ⟨h, hr.2⟩
      · simp only [risingFrom, Bool.and_eq_true, decide_eq_true_eq]
        exact ⟨hr.1, risingFrom_put v (by omega) hr.2⟩

theorem risingFrom_filter (p : Nat × α → Bool) :
    ∀ {t : Tbl α} {lo : Nat}, risingFrom lo t = true → risingFrom lo (t.filter p) = true
  | [], _, _ => rfl
  | (j, a) :: t, lo, hr => by
    simp only [risingFrom, Bool.and_eq_true, decide_eq_true_eq] at hr
    simp only [List.filter_cons]
    split
    · simp only [risingFrom, Bool.and_eq_true, decide_eq_true_eq]
      exact ⟨hr.1, risingFrom_filter p hr.2⟩
    · exact risingFrom_mono (by omega) (risingFrom_filter p hr.2)

theorem erase_eq_filter (t : Tbl α) (k : Nat) : t.erase k = t.filter fun e => decide (e.1 ≠ k) := by
  induction t with
  | nil => rfl
  | cons e t ih =>
    obtain ⟨j, a⟩ := e
    by_cases h : j = k <;> simp [erase, h, ih]

theorem mem_put {t : Tbl α} {k : Nat} {v : α} {e : Nat × α} (h : e ∈ t.put k v) : e = (k, v) ∨ e ∈ t := by
  induction t with
  | nil => simpa [put] using h
  | cons x t ih =>
    obtain ⟨j, a⟩ := x
    simp only [put] at h
    split at h
    · simpa using h
    · split at h
      · rename_i h2
        rcases List.mem_cons.1 h with h | h
        · exact .inl h
        · exact .inr (List.mem_cons_of_mem _ h)
      · rcases List.mem_cons.1 h with h | h
        · exact .inr (h ▸ List.mem_cons_self)
        · exact (ih h).imp id (List.mem_cons_of_mem _)

section Canonical
variable [DecidableEq α] (d : α)

@[simp] theorem wf_nil : wf d ([] : Tbl α) = true := rfl

theorem wf_put {t : Tbl α} {k : Nat} {v : α} (hv : v ≠ d) (h : wf d t = true) : wf d (t.put k v) = true := by
  simp only [wf, rising, Bool.and_eq_true, List.all_eq_true, decide_eq_true_eq] at h ⊢
  refine ⟨risingFrom_put v (Nat.zero_le _) h.1, fun e he => ?_⟩
  rcases mem_put he with rfl | he
  · exact hv
  · exact h.2 e he

theorem wf_filter {t : Tbl α} (p : Nat × α → Bool) (h : wf d t = true) : wf d (t.filter p) = true := by
  simp only [wf, rising, Bool.and_eq_true, List.all_eq_true, decide_eq_true_eq] at h ⊢
  exact ⟨risingFrom_filter p h.1, fun e he => h.2 e (List.mem_filter.1 he).1⟩

theorem wf_erase {t : Tbl α} (k : Nat) (h : wf d t = true) : wf d (t.erase k) = true := by
  rw [erase_eq_filter]
  exact wf_filter d _ h

theorem wf_keep {t : Tbl α} (p : Nat → α → Bool) (h : wf d t = true) : wf d (t.keep p) = true := wf_filter d _ h

theorem wf_write {t : Tbl α} (k : Nat) (v : α) (h : wf d t = true) : wf d (t.write d k v) = true := by
  unfold write
  split
  · exact wf_erase d k h
  · exact wf_put d ‹_› h

end Canonical

/-- What an entry reads as when only some entries are kept, by their keys. -/
theorem read_keep (d : α) (t : Tbl α) (p : Nat → Bool) (n : Nat) :
    (t.keep fun k _ => p k).read d n = if p n then t.read d n else d := by
  induction t with
  | nil => simp [keep, read, get?]
  | cons e t ih =>
    obtain ⟨j, a⟩ := e
    simp only [read, keep] at ih ⊢
    by_cases hp : p j = true
    · rw [List.filter_cons_of_pos (by simpa using hp)]
      by_cases hj : j = n
      · subst hj; simp [get?, hp]
      · simp only [get?, hj, if_false]; exact ih
    · rw [List.filter_cons_of_neg (by simpa using hp)]
      by_cases hj : j = n
      · subst hj; simpa [hp] using ih
      · simp only [get?, hj, if_false]; exact ih

end Sys2Proof.Tbl
end

