-- ==== Sys2Proof/Laws/State.lean ====
section
/-! SUPPORT. Laws of the state's updates: each named update changes one field and leaves the others, and what a lookup gives
after it. -/

namespace Sys2Proof.Machine

namespace State

/-! ## Fields -/

@[simp] theorem modGroup_mem (s : State) (g : Nat) (f : Group → Group) : (s.modGroup g f).mem = s.mem := rfl
@[simp] theorem modGroup_watches (s : State) (g : Nat) (f : Group → Group) : (s.modGroup g f).watches = s.watches := rfl
@[simp] theorem modGroup_groups (s : State) (g : Nat) (f : Group → Group) : (s.modGroup g f).groups = s.groups.adjust g f := rfl
@[simp] theorem modGroup_cohorts (s : State) (g : Nat) (f : Group → Group) : (s.modGroup g f).cohorts = s.cohorts := rfl
@[simp] theorem modGroup_clusters (s : State) (g : Nat) (f : Group → Group) : (s.modGroup g f).clusters = s.clusters := rfl
@[simp] theorem modGroup_launches (s : State) (g : Nat) (f : Group → Group) : (s.modGroup g f).launches = s.launches := rfl
@[simp] theorem modGroup_contexts (s : State) (g : Nat) (f : Group → Group) : (s.modGroup g f).contexts = s.contexts := rfl
@[simp] theorem modGroup_ops (s : State) (g : Nat) (f : Group → Group) : (s.modGroup g f).ops = s.ops := rfl
@[simp] theorem modGroup_nextOp (s : State) (g : Nat) (f : Group → Group) : (s.modGroup g f).nextOp = s.nextOp := rfl
@[simp] theorem modGroup_cores (s : State) (g : Nat) (f : Group → Group) : (s.modGroup g f).cores = s.cores := rfl
@[simp] theorem modGroup_holders (s : State) (g : Nat) (f : Group → Group) : (s.modGroup g f).holders = s.holders := rfl
@[simp] theorem modGroup_dies (s : State) (g : Nat) (f : Group → Group) : (s.modGroup g f).dies = s.dies := rfl
@[simp] theorem modGroup_islands (s : State) (g : Nat) (f : Group → Group) : (s.modGroup g f).islands = s.islands := rfl
@[simp] theorem modGroup_locks (s : State) (g : Nat) (f : Group → Group) : (s.modGroup g f).locks = s.locks := rfl
@[simp] theorem modGroup_xlat (s : State) (g : Nat) (f : Group → Group) : (s.modGroup g f).xlat = s.xlat := rfl
@[simp] theorem modGroup_replies (s : State) (g : Nat) (f : Group → Group) : (s.modGroup g f).replies = s.replies := rfl
@[simp] theorem modGroup_notices (s : State) (g : Nat) (f : Group → Group) : (s.modGroup g f).notices = s.notices := rfl
@[simp] theorem modGroup_calls (s : State) (g : Nat) (f : Group → Group) : (s.modGroup g f).calls = s.calls := rfl
@[simp] theorem modGroup_packages (s : State) (g : Nat) (f : Group → Group) : (s.modGroup g f).packages = s.packages := rfl
@[simp] theorem modGroup_linked (s : State) (g : Nat) (f : Group → Group) : (s.modGroup g f).linked = s.linked := rfl
@[simp] theorem modGroup_boots (s : State) (g : Nat) (f : Group → Group) : (s.modGroup g f).boots = s.boots := rfl
@[simp] theorem modGroup_fuses (s : State) (g : Nat) (f : Group → Group) : (s.modGroup g f).fuses = s.fuses := rfl
@[simp] theorem modGroup_firmware (s : State) (g : Nat) (f : Group → Group) : (s.modGroup g f).firmware = s.firmware := rfl
@[simp] theorem modGroup_services (s : State) (g : Nat) (f : Group → Group) : (s.modGroup g f).services = s.services := rfl
@[simp] theorem modGroup_origins (s : State) (g : Nat) (f : Group → Group) : (s.modGroup g f).origins = s.origins := rfl
@[simp] theorem modGroup_timebase (s : State) (g : Nat) (f : Group → Group) : (s.modGroup g f).timebase = s.timebase := rfl
@[simp] theorem modGroup_cycle (s : State) (g : Nat) (f : Group → Group) : (s.modGroup g f).cycle = s.cycle := rfl
@[simp] theorem modGroup_booted (s : State) (g : Nat) (f : Group → Group) : (s.modGroup g f).booted = s.booted := rfl
@[simp] theorem modGroup_stopped (s : State) (g : Nat) (f : Group → Group) : (s.modGroup g f).stopped = s.stopped := rfl
@[simp] theorem modGroup_expanders (s : State) (g : Nat) (f : Group → Group) : (s.modGroup g f).expanders = s.expanders := rfl
@[simp] theorem modGroup_corrected (s : State) (g : Nat) (f : Group → Group) : (s.modGroup g f).corrected = s.corrected := rfl
@[simp] theorem modGroup_served (s : State) (g : Nat) (f : Group → Group) : (s.modGroup g f).served = s.served := rfl
@[simp] theorem modGroup_issuing (s : State) (g : Nat) (f : Group → Group) : (s.modGroup g f).issuing = s.issuing := rfl
@[simp] theorem modGroup_agenda (s : State) (g : Nat) (f : Group → Group) : (s.modGroup g f).agenda = s.agenda := rfl
@[simp] theorem modGroup_freeTick (s : State) (g : Nat) (f : Group → Group) : (s.modGroup g f).freeTick = s.freeTick := rfl

@[simp] theorem modCohort_mem (s : State) (c : Nat) (f : Cohort → Cohort) : (s.modCohort c f).mem = s.mem := rfl
@[simp] theorem modCohort_watches (s : State) (c : Nat) (f : Cohort → Cohort) : (s.modCohort c f).watches = s.watches := rfl
@[simp] theorem modCohort_groups (s : State) (c : Nat) (f : Cohort → Cohort) : (s.modCohort c f).groups = s.groups := rfl
@[simp] theorem modCohort_cohorts (s : State) (c : Nat) (f : Cohort → Cohort) : (s.modCohort c f).cohorts = s.cohorts.adjust c f := rfl
@[simp] theorem modCohort_clusters (s : State) (c : Nat) (f : Cohort → Cohort) : (s.modCohort c f).clusters = s.clusters := rfl
@[simp] theorem modCohort_launches (s : State) (c : Nat) (f : Cohort → Cohort) : (s.modCohort c f).launches = s.launches := rfl
@[simp] theorem modCohort_contexts (s : State) (c : Nat) (f : Cohort → Cohort) : (s.modCohort c f).contexts = s.contexts := rfl
@[simp] theorem modCohort_ops (s : State) (c : Nat) (f : Cohort → Cohort) : (s.modCohort c f).ops = s.ops := rfl
@[simp] theorem modCohort_nextOp (s : State) (c : Nat) (f : Cohort → Cohort) : (s.modCohort c f).nextOp = s.nextOp := rfl
@[simp] theorem modCohort_cores (s : State) (c : Nat) (f : Cohort → Cohort) : (s.modCohort c f).cores = s.cores := rfl
@[simp] theorem modCohort_holders (s : State) (c : Nat) (f : Cohort → Cohort) : (s.modCohort c f).holders = s.holders := rfl
@[simp] theorem modCohort_dies (s : State) (c : Nat) (f : Cohort → Cohort) : (s.modCohort c f).dies = s.dies := rfl
@[simp] theorem modCohort_islands (s : State) (c : Nat) (f : Cohort → Cohort) : (s.modCohort c f).islands = s.islands := rfl
@[simp] theorem modCohort_locks (s : State) (c : Nat) (f : Cohort → Cohort) : (s.modCohort c f).locks = s.locks := rfl
@[simp] theorem modCohort_xlat (s : State) (c : Nat) (f : Cohort → Cohort) : (s.modCohort c f).xlat = s.xlat := rfl
@[simp] theorem modCohort_replies (s : State) (c : Nat) (f : Cohort → Cohort) : (s.modCohort c f).replies = s.replies := rfl
@[simp] theorem modCohort_notices (s : State) (c : Nat) (f : Cohort → Cohort) : (s.modCohort c f).notices = s.notices := rfl
@[simp] theorem modCohort_calls (s : State) (c : Nat) (f : Cohort → Cohort) : (s.modCohort c f).calls = s.calls := rfl
@[simp] theorem modCohort_packages (s : State) (c : Nat) (f : Cohort → Cohort) : (s.modCohort c f).packages = s.packages := rfl
@[simp] theorem modCohort_linked (s : State) (c : Nat) (f : Cohort → Cohort) : (s.modCohort c f).linked = s.linked := rfl
@[simp] theorem modCohort_boots (s : State) (c : Nat) (f : Cohort → Cohort) : (s.modCohort c f).boots = s.boots := rfl
@[simp] theorem modCohort_fuses (s : State) (c : Nat) (f : Cohort → Cohort) : (s.modCohort c f).fuses = s.fuses := rfl
@[simp] theorem modCohort_firmware (s : State) (c : Nat) (f : Cohort → Cohort) : (s.modCohort c f).firmware = s.firmware := rfl
@[simp] theorem modCohort_services (s : State) (c : Nat) (f : Cohort → Cohort) : (s.modCohort c f).services = s.services := rfl
@[simp] theorem modCohort_origins (s : State) (c : Nat) (f : Cohort → Cohort) : (s.modCohort c f).origins = s.origins := rfl
@[simp] theorem modCohort_timebase (s : State) (c : Nat) (f : Cohort → Cohort) : (s.modCohort c f).timebase = s.timebase := rfl
@[simp] theorem modCohort_cycle (s : State) (c : Nat) (f : Cohort → Cohort) : (s.modCohort c f).cycle = s.cycle := rfl
@[simp] theorem modCohort_booted (s : State) (c : Nat) (f : Cohort → Cohort) : (s.modCohort c f).booted = s.booted := rfl
@[simp] theorem modCohort_stopped (s : State) (c : Nat) (f : Cohort → Cohort) : (s.modCohort c f).stopped = s.stopped := rfl
@[simp] theorem modCohort_expanders (s : State) (c : Nat) (f : Cohort → Cohort) : (s.modCohort c f).expanders = s.expanders := rfl
@[simp] theorem modCohort_corrected (s : State) (c : Nat) (f : Cohort → Cohort) : (s.modCohort c f).corrected = s.corrected := rfl
@[simp] theorem modCohort_served (s : State) (c : Nat) (f : Cohort → Cohort) : (s.modCohort c f).served = s.served := rfl
@[simp] theorem modCohort_issuing (s : State) (c : Nat) (f : Cohort → Cohort) : (s.modCohort c f).issuing = s.issuing := rfl
@[simp] theorem modCohort_agenda (s : State) (c : Nat) (f : Cohort → Cohort) : (s.modCohort c f).agenda = s.agenda := rfl
@[simp] theorem modCohort_freeTick (s : State) (c : Nat) (f : Cohort → Cohort) : (s.modCohort c f).freeTick = s.freeTick := rfl

@[simp] theorem modCluster_mem (s : State) (c : Nat) (f : Cluster → Cluster) : (s.modCluster c f).mem = s.mem := rfl
@[simp] theorem modCluster_watches (s : State) (c : Nat) (f : Cluster → Cluster) : (s.modCluster c f).watches = s.watches := rfl
@[simp] theorem modCluster_groups (s : State) (c : Nat) (f : Cluster → Cluster) : (s.modCluster c f).groups = s.groups := rfl
@[simp] theorem modCluster_cohorts (s : State) (c : Nat) (f : Cluster → Cluster) : (s.modCluster c f).cohorts = s.cohorts := rfl
@[simp] theorem modCluster_clusters (s : State) (c : Nat) (f : Cluster → Cluster) : (s.modCluster c f).clusters = s.clusters.adjust c f := rfl
@[simp] theorem modCluster_launches (s : State) (c : Nat) (f : Cluster → Cluster) : (s.modCluster c f).launches = s.launches := rfl
@[simp] theorem modCluster_contexts (s : State) (c : Nat) (f : Cluster → Cluster) : (s.modCluster c f).contexts = s.contexts := rfl
@[simp] theorem modCluster_ops (s : State) (c : Nat) (f : Cluster → Cluster) : (s.modCluster c f).ops = s.ops := rfl
@[simp] theorem modCluster_nextOp (s : State) (c : Nat) (f : Cluster → Cluster) : (s.modCluster c f).nextOp = s.nextOp := rfl
@[simp] theorem modCluster_cores (s : State) (c : Nat) (f : Cluster → Cluster) : (s.modCluster c f).cores = s.cores := rfl
@[simp] theorem modCluster_holders (s : State) (c : Nat) (f : Cluster → Cluster) : (s.modCluster c f).holders = s.holders := rfl
@[simp] theorem modCluster_dies (s : State) (c : Nat) (f : Cluster → Cluster) : (s.modCluster c f).dies = s.dies := rfl
@[simp] theorem modCluster_islands (s : State) (c : Nat) (f : Cluster → Cluster) : (s.modCluster c f).islands = s.islands := rfl
@[simp] theorem modCluster_locks (s : State) (c : Nat) (f : Cluster → Cluster) : (s.modCluster c f).locks = s.locks := rfl
@[simp] theorem modCluster_xlat (s : State) (c : Nat) (f : Cluster → Cluster) : (s.modCluster c f).xlat = s.xlat := rfl
@[simp] theorem modCluster_replies (s : State) (c : Nat) (f : Cluster → Cluster) : (s.modCluster c f).replies = s.replies := rfl
@[simp] theorem modCluster_notices (s : State) (c : Nat) (f : Cluster → Cluster) : (s.modCluster c f).notices = s.notices := rfl
@[simp] theorem modCluster_calls (s : State) (c : Nat) (f : Cluster → Cluster) : (s.modCluster c f).calls = s.calls := rfl
@[simp] theorem modCluster_packages (s : State) (c : Nat) (f : Cluster → Cluster) : (s.modCluster c f).packages = s.packages := rfl
@[simp] theorem modCluster_linked (s : State) (c : Nat) (f : Cluster → Cluster) : (s.modCluster c f).linked = s.linked := rfl
@[simp] theorem modCluster_boots (s : State) (c : Nat) (f : Cluster → Cluster) : (s.modCluster c f).boots = s.boots := rfl
@[simp] theorem modCluster_fuses (s : State) (c : Nat) (f : Cluster → Cluster) : (s.modCluster c f).fuses = s.fuses := rfl
@[simp] theorem modCluster_firmware (s : State) (c : Nat) (f : Cluster → Cluster) : (s.modCluster c f).firmware = s.firmware := rfl
@[simp] theorem modCluster_services (s : State) (c : Nat) (f : Cluster → Cluster) : (s.modCluster c f).services = s.services := rfl
@[simp] theorem modCluster_origins (s : State) (c : Nat) (f : Cluster → Cluster) : (s.modCluster c f).origins = s.origins := rfl
@[simp] theorem modCluster_timebase (s : State) (c : Nat) (f : Cluster → Cluster) : (s.modCluster c f).timebase = s.timebase := rfl
@[simp] theorem modCluster_cycle (s : State) (c : Nat) (f : Cluster → Cluster) : (s.modCluster c f).cycle = s.cycle := rfl
@[simp] theorem modCluster_booted (s : State) (c : Nat) (f : Cluster → Cluster) : (s.modCluster c f).booted = s.booted := rfl
@[simp] theorem modCluster_stopped (s : State) (c : Nat) (f : Cluster → Cluster) : (s.modCluster c f).stopped = s.stopped := rfl
@[simp] theorem modCluster_expanders (s : State) (c : Nat) (f : Cluster → Cluster) : (s.modCluster c f).expanders = s.expanders := rfl
@[simp] theorem modCluster_corrected (s : State) (c : Nat) (f : Cluster → Cluster) : (s.modCluster c f).corrected = s.corrected := rfl
@[simp] theorem modCluster_served (s : State) (c : Nat) (f : Cluster → Cluster) : (s.modCluster c f).served = s.served := rfl
@[simp] theorem modCluster_issuing (s : State) (c : Nat) (f : Cluster → Cluster) : (s.modCluster c f).issuing = s.issuing := rfl
@[simp] theorem modCluster_agenda (s : State) (c : Nat) (f : Cluster → Cluster) : (s.modCluster c f).agenda = s.agenda := rfl
@[simp] theorem modCluster_freeTick (s : State) (c : Nat) (f : Cluster → Cluster) : (s.modCluster c f).freeTick = s.freeTick := rfl

@[simp] theorem modLaunch_mem (s : State) (l : Nat) (f : Launch → Launch) : (s.modLaunch l f).mem = s.mem := rfl
@[simp] theorem modLaunch_watches (s : State) (l : Nat) (f : Launch → Launch) : (s.modLaunch l f).watches = s.watches := rfl
@[simp] theorem modLaunch_groups (s : State) (l : Nat) (f : Launch → Launch) : (s.modLaunch l f).groups = s.groups := rfl
@[simp] theorem modLaunch_cohorts (s : State) (l : Nat) (f : Launch → Launch) : (s.modLaunch l f).cohorts = s.cohorts := rfl
@[simp] theorem modLaunch_clusters (s : State) (l : Nat) (f : Launch → Launch) : (s.modLaunch l f).clusters = s.clusters := rfl
@[simp] theorem modLaunch_launches (s : State) (l : Nat) (f : Launch → Launch) : (s.modLaunch l f).launches = s.launches.adjust l f := rfl
@[simp] theorem modLaunch_contexts (s : State) (l : Nat) (f : Launch → Launch) : (s.modLaunch l f).contexts = s.contexts := rfl
@[simp] theorem modLaunch_ops (s : State) (l : Nat) (f : Launch → Launch) : (s.modLaunch l f).ops = s.ops := rfl
@[simp] theorem modLaunch_nextOp (s : State) (l : Nat) (f : Launch → Launch) : (s.modLaunch l f).nextOp = s.nextOp := rfl
@[simp] theorem modLaunch_cores (s : State) (l : Nat) (f : Launch → Launch) : (s.modLaunch l f).cores = s.cores := rfl
@[simp] theorem modLaunch_holders (s : State) (l : Nat) (f : Launch → Launch) : (s.modLaunch l f).holders = s.holders := rfl
@[simp] theorem modLaunch_dies (s : State) (l : Nat) (f : Launch → Launch) : (s.modLaunch l f).dies = s.dies := rfl
@[simp] theorem modLaunch_islands (s : State) (l : Nat) (f : Launch → Launch) : (s.modLaunch l f).islands = s.islands := rfl
@[simp] theorem modLaunch_locks (s : State) (l : Nat) (f : Launch → Launch) : (s.modLaunch l f).locks = s.locks := rfl
@[simp] theorem modLaunch_xlat (s : State) (l : Nat) (f : Launch → Launch) : (s.modLaunch l f).xlat = s.xlat := rfl
@[simp] theorem modLaunch_replies (s : State) (l : Nat) (f : Launch → Launch) : (s.modLaunch l f).replies = s.replies := rfl
@[simp] theorem modLaunch_notices (s : State) (l : Nat) (f : Launch → Launch) : (s.modLaunch l f).notices = s.notices := rfl
@[simp] theorem modLaunch_calls (s : State) (l : Nat) (f : Launch → Launch) : (s.modLaunch l f).calls = s.calls := rfl
@[simp] theorem modLaunch_packages (s : State) (l : Nat) (f : Launch → Launch) : (s.modLaunch l f).packages = s.packages := rfl
@[simp] theorem modLaunch_linked (s : State) (l : Nat) (f : Launch → Launch) : (s.modLaunch l f).linked = s.linked := rfl
@[simp] theorem modLaunch_boots (s : State) (l : Nat) (f : Launch → Launch) : (s.modLaunch l f).boots = s.boots := rfl
@[simp] theorem modLaunch_fuses (s : State) (l : Nat) (f : Launch → Launch) : (s.modLaunch l f).fuses = s.fuses := rfl
@[simp] theorem modLaunch_firmware (s : State) (l : Nat) (f : Launch → Launch) : (s.modLaunch l f).firmware = s.firmware := rfl
@[simp] theorem modLaunch_services (s : State) (l : Nat) (f : Launch → Launch) : (s.modLaunch l f).services = s.services := rfl
@[simp] theorem modLaunch_origins (s : State) (l : Nat) (f : Launch → Launch) : (s.modLaunch l f).origins = s.origins := rfl
@[simp] theorem modLaunch_timebase (s : State) (l : Nat) (f : Launch → Launch) : (s.modLaunch l f).timebase = s.timebase := rfl
@[simp] theorem modLaunch_cycle (s : State) (l : Nat) (f : Launch → Launch) : (s.modLaunch l f).cycle = s.cycle := rfl
@[simp] theorem modLaunch_booted (s : State) (l : Nat) (f : Launch → Launch) : (s.modLaunch l f).booted = s.booted := rfl
@[simp] theorem modLaunch_stopped (s : State) (l : Nat) (f : Launch → Launch) : (s.modLaunch l f).stopped = s.stopped := rfl
@[simp] theorem modLaunch_expanders (s : State) (l : Nat) (f : Launch → Launch) : (s.modLaunch l f).expanders = s.expanders := rfl
@[simp] theorem modLaunch_corrected (s : State) (l : Nat) (f : Launch → Launch) : (s.modLaunch l f).corrected = s.corrected := rfl
@[simp] theorem modLaunch_served (s : State) (l : Nat) (f : Launch → Launch) : (s.modLaunch l f).served = s.served := rfl
@[simp] theorem modLaunch_issuing (s : State) (l : Nat) (f : Launch → Launch) : (s.modLaunch l f).issuing = s.issuing := rfl
@[simp] theorem modLaunch_agenda (s : State) (l : Nat) (f : Launch → Launch) : (s.modLaunch l f).agenda = s.agenda := rfl
@[simp] theorem modLaunch_freeTick (s : State) (l : Nat) (f : Launch → Launch) : (s.modLaunch l f).freeTick = s.freeTick := rfl

@[simp] theorem modContext_mem (s : State) (c : Nat) (f : Context → Context) : (s.modContext c f).mem = s.mem := rfl
@[simp] theorem modContext_watches (s : State) (c : Nat) (f : Context → Context) : (s.modContext c f).watches = s.watches := rfl
@[simp] theorem modContext_groups (s : State) (c : Nat) (f : Context → Context) : (s.modContext c f).groups = s.groups := rfl
@[simp] theorem modContext_cohorts (s : State) (c : Nat) (f : Context → Context) : (s.modContext c f).cohorts = s.cohorts := rfl
@[simp] theorem modContext_clusters (s : State) (c : Nat) (f : Context → Context) : (s.modContext c f).clusters = s.clusters := rfl
@[simp] theorem modContext_launches (s : State) (c : Nat) (f : Context → Context) : (s.modContext c f).launches = s.launches := rfl
@[simp] theorem modContext_contexts (s : State) (c : Nat) (f : Context → Context) : (s.modContext c f).contexts = s.contexts.adjust c f := rfl
@[simp] theorem modContext_ops (s : State) (c : Nat) (f : Context → Context) : (s.modContext c f).ops = s.ops := rfl
@[simp] theorem modContext_nextOp (s : State) (c : Nat) (f : Context → Context) : (s.modContext c f).nextOp = s.nextOp := rfl
@[simp] theorem modContext_cores (s : State) (c : Nat) (f : Context → Context) : (s.modContext c f).cores = s.cores := rfl
@[simp] theorem modContext_holders (s : State) (c : Nat) (f : Context → Context) : (s.modContext c f).holders = s.holders := rfl
@[simp] theorem modContext_dies (s : State) (c : Nat) (f : Context → Context) : (s.modContext c f).dies = s.dies := rfl
@[simp] theorem modContext_islands (s : State) (c : Nat) (f : Context → Context) : (s.modContext c f).islands = s.islands := rfl
@[simp] theorem modContext_locks (s : State) (c : Nat) (f : Context → Context) : (s.modContext c f).locks = s.locks := rfl
@[simp] theorem modContext_xlat (s : State) (c : Nat) (f : Context → Context) : (s.modContext c f).xlat = s.xlat := rfl
@[simp] theorem modContext_replies (s : State) (c : Nat) (f : Context → Context) : (s.modContext c f).replies = s.replies := rfl
@[simp] theorem modContext_notices (s : State) (c : Nat) (f : Context → Context) : (s.modContext c f).notices = s.notices := rfl
@[simp] theorem modContext_calls (s : State) (c : Nat) (f : Context → Context) : (s.modContext c f).calls = s.calls := rfl
@[simp] theorem modContext_packages (s : State) (c : Nat) (f : Context → Context) : (s.modContext c f).packages = s.packages := rfl
@[simp] theorem modContext_linked (s : State) (c : Nat) (f : Context → Context) : (s.modContext c f).linked = s.linked := rfl
@[simp] theorem modContext_boots (s : State) (c : Nat) (f : Context → Context) : (s.modContext c f).boots = s.boots := rfl
@[simp] theorem modContext_fuses (s : State) (c : Nat) (f : Context → Context) : (s.modContext c f).fuses = s.fuses := rfl
@[simp] theorem modContext_firmware (s : State) (c : Nat) (f : Context → Context) : (s.modContext c f).firmware = s.firmware := rfl
@[simp] theorem modContext_services (s : State) (c : Nat) (f : Context → Context) : (s.modContext c f).services = s.services := rfl
@[simp] theorem modContext_origins (s : State) (c : Nat) (f : Context → Context) : (s.modContext c f).origins = s.origins := rfl
@[simp] theorem modContext_timebase (s : State) (c : Nat) (f : Context → Context) : (s.modContext c f).timebase = s.timebase := rfl
@[simp] theorem modContext_cycle (s : State) (c : Nat) (f : Context → Context) : (s.modContext c f).cycle = s.cycle := rfl
@[simp] theorem modContext_booted (s : State) (c : Nat) (f : Context → Context) : (s.modContext c f).booted = s.booted := rfl
@[simp] theorem modContext_stopped (s : State) (c : Nat) (f : Context → Context) : (s.modContext c f).stopped = s.stopped := rfl
@[simp] theorem modContext_expanders (s : State) (c : Nat) (f : Context → Context) : (s.modContext c f).expanders = s.expanders := rfl
@[simp] theorem modContext_corrected (s : State) (c : Nat) (f : Context → Context) : (s.modContext c f).corrected = s.corrected := rfl
@[simp] theorem modContext_served (s : State) (c : Nat) (f : Context → Context) : (s.modContext c f).served = s.served := rfl
@[simp] theorem modContext_issuing (s : State) (c : Nat) (f : Context → Context) : (s.modContext c f).issuing = s.issuing := rfl
@[simp] theorem modContext_agenda (s : State) (c : Nat) (f : Context → Context) : (s.modContext c f).agenda = s.agenda := rfl
@[simp] theorem modContext_freeTick (s : State) (c : Nat) (f : Context → Context) : (s.modContext c f).freeTick = s.freeTick := rfl

@[simp] theorem modOp_mem (s : State) (o : Nat) (f : Op → Op) : (s.modOp o f).mem = s.mem := rfl
@[simp] theorem modOp_watches (s : State) (o : Nat) (f : Op → Op) : (s.modOp o f).watches = s.watches := rfl
@[simp] theorem modOp_groups (s : State) (o : Nat) (f : Op → Op) : (s.modOp o f).groups = s.groups := rfl
@[simp] theorem modOp_cohorts (s : State) (o : Nat) (f : Op → Op) : (s.modOp o f).cohorts = s.cohorts := rfl
@[simp] theorem modOp_clusters (s : State) (o : Nat) (f : Op → Op) : (s.modOp o f).clusters = s.clusters := rfl
@[simp] theorem modOp_launches (s : State) (o : Nat) (f : Op → Op) : (s.modOp o f).launches = s.launches := rfl
@[simp] theorem modOp_contexts (s : State) (o : Nat) (f : Op → Op) : (s.modOp o f).contexts = s.contexts := rfl
@[simp] theorem modOp_ops (s : State) (o : Nat) (f : Op → Op) : (s.modOp o f).ops = s.ops.adjust o f := rfl
@[simp] theorem modOp_nextOp (s : State) (o : Nat) (f : Op → Op) : (s.modOp o f).nextOp = s.nextOp := rfl
@[simp] theorem modOp_cores (s : State) (o : Nat) (f : Op → Op) : (s.modOp o f).cores = s.cores := rfl
@[simp] theorem modOp_holders (s : State) (o : Nat) (f : Op → Op) : (s.modOp o f).holders = s.holders := rfl
@[simp] theorem modOp_dies (s : State) (o : Nat) (f : Op → Op) : (s.modOp o f).dies = s.dies := rfl
@[simp] theorem modOp_islands (s : State) (o : Nat) (f : Op → Op) : (s.modOp o f).islands = s.islands := rfl
@[simp] theorem modOp_locks (s : State) (o : Nat) (f : Op → Op) : (s.modOp o f).locks = s.locks := rfl
@[simp] theorem modOp_xlat (s : State) (o : Nat) (f : Op → Op) : (s.modOp o f).xlat = s.xlat := rfl
@[simp] theorem modOp_replies (s : State) (o : Nat) (f : Op → Op) : (s.modOp o f).replies = s.replies := rfl
@[simp] theorem modOp_notices (s : State) (o : Nat) (f : Op → Op) : (s.modOp o f).notices = s.notices := rfl
@[simp] theorem modOp_calls (s : State) (o : Nat) (f : Op → Op) : (s.modOp o f).calls = s.calls := rfl
@[simp] theorem modOp_packages (s : State) (o : Nat) (f : Op → Op) : (s.modOp o f).packages = s.packages := rfl
@[simp] theorem modOp_linked (s : State) (o : Nat) (f : Op → Op) : (s.modOp o f).linked = s.linked := rfl
@[simp] theorem modOp_boots (s : State) (o : Nat) (f : Op → Op) : (s.modOp o f).boots = s.boots := rfl
@[simp] theorem modOp_fuses (s : State) (o : Nat) (f : Op → Op) : (s.modOp o f).fuses = s.fuses := rfl
@[simp] theorem modOp_firmware (s : State) (o : Nat) (f : Op → Op) : (s.modOp o f).firmware = s.firmware := rfl
@[simp] theorem modOp_services (s : State) (o : Nat) (f : Op → Op) : (s.modOp o f).services = s.services := rfl
@[simp] theorem modOp_origins (s : State) (o : Nat) (f : Op → Op) : (s.modOp o f).origins = s.origins := rfl
@[simp] theorem modOp_timebase (s : State) (o : Nat) (f : Op → Op) : (s.modOp o f).timebase = s.timebase := rfl
@[simp] theorem modOp_cycle (s : State) (o : Nat) (f : Op → Op) : (s.modOp o f).cycle = s.cycle := rfl
@[simp] theorem modOp_booted (s : State) (o : Nat) (f : Op → Op) : (s.modOp o f).booted = s.booted := rfl
@[simp] theorem modOp_stopped (s : State) (o : Nat) (f : Op → Op) : (s.modOp o f).stopped = s.stopped := rfl
@[simp] theorem modOp_expanders (s : State) (o : Nat) (f : Op → Op) : (s.modOp o f).expanders = s.expanders := rfl
@[simp] theorem modOp_corrected (s : State) (o : Nat) (f : Op → Op) : (s.modOp o f).corrected = s.corrected := rfl
@[simp] theorem modOp_served (s : State) (o : Nat) (f : Op → Op) : (s.modOp o f).served = s.served := rfl
@[simp] theorem modOp_issuing (s : State) (o : Nat) (f : Op → Op) : (s.modOp o f).issuing = s.issuing := rfl
@[simp] theorem modOp_agenda (s : State) (o : Nat) (f : Op → Op) : (s.modOp o f).agenda = s.agenda := rfl
@[simp] theorem modOp_freeTick (s : State) (o : Nat) (f : Op → Op) : (s.modOp o f).freeTick = s.freeTick := rfl

@[simp] theorem modHolder_mem (s : State) (h : Nat) (f : Holder → Holder) : (s.modHolder h f).mem = s.mem := rfl
@[simp] theorem modHolder_watches (s : State) (h : Nat) (f : Holder → Holder) : (s.modHolder h f).watches = s.watches := rfl
@[simp] theorem modHolder_groups (s : State) (h : Nat) (f : Holder → Holder) : (s.modHolder h f).groups = s.groups := rfl
@[simp] theorem modHolder_cohorts (s : State) (h : Nat) (f : Holder → Holder) : (s.modHolder h f).cohorts = s.cohorts := rfl
@[simp] theorem modHolder_clusters (s : State) (h : Nat) (f : Holder → Holder) : (s.modHolder h f).clusters = s.clusters := rfl
@[simp] theorem modHolder_launches (s : State) (h : Nat) (f : Holder → Holder) : (s.modHolder h f).launches = s.launches := rfl
@[simp] theorem modHolder_contexts (s : State) (h : Nat) (f : Holder → Holder) : (s.modHolder h f).contexts = s.contexts := rfl
@[simp] theorem modHolder_ops (s : State) (h : Nat) (f : Holder → Holder) : (s.modHolder h f).ops = s.ops := rfl
@[simp] theorem modHolder_nextOp (s : State) (h : Nat) (f : Holder → Holder) : (s.modHolder h f).nextOp = s.nextOp := rfl
@[simp] theorem modHolder_cores (s : State) (h : Nat) (f : Holder → Holder) : (s.modHolder h f).cores = s.cores := rfl
@[simp] theorem modHolder_holders (s : State) (h : Nat) (f : Holder → Holder) : (s.modHolder h f).holders = s.holders.adjust h f := rfl
@[simp] theorem modHolder_dies (s : State) (h : Nat) (f : Holder → Holder) : (s.modHolder h f).dies = s.dies := rfl
@[simp] theorem modHolder_islands (s : State) (h : Nat) (f : Holder → Holder) : (s.modHolder h f).islands = s.islands := rfl
@[simp] theorem modHolder_locks (s : State) (h : Nat) (f : Holder → Holder) : (s.modHolder h f).locks = s.locks := rfl
@[simp] theorem modHolder_xlat (s : State) (h : Nat) (f : Holder → Holder) : (s.modHolder h f).xlat = s.xlat := rfl
@[simp] theorem modHolder_replies (s : State) (h : Nat) (f : Holder → Holder) : (s.modHolder h f).replies = s.replies := rfl
@[simp] theorem modHolder_notices (s : State) (h : Nat) (f : Holder → Holder) : (s.modHolder h f).notices = s.notices := rfl
@[simp] theorem modHolder_calls (s : State) (h : Nat) (f : Holder → Holder) : (s.modHolder h f).calls = s.calls := rfl
@[simp] theorem modHolder_packages (s : State) (h : Nat) (f : Holder → Holder) : (s.modHolder h f).packages = s.packages := rfl
@[simp] theorem modHolder_linked (s : State) (h : Nat) (f : Holder → Holder) : (s.modHolder h f).linked = s.linked := rfl
@[simp] theorem modHolder_boots (s : State) (h : Nat) (f : Holder → Holder) : (s.modHolder h f).boots = s.boots := rfl
@[simp] theorem modHolder_fuses (s : State) (h : Nat) (f : Holder → Holder) : (s.modHolder h f).fuses = s.fuses := rfl
@[simp] theorem modHolder_firmware (s : State) (h : Nat) (f : Holder → Holder) : (s.modHolder h f).firmware = s.firmware := rfl
@[simp] theorem modHolder_services (s : State) (h : Nat) (f : Holder → Holder) : (s.modHolder h f).services = s.services := rfl
@[simp] theorem modHolder_origins (s : State) (h : Nat) (f : Holder → Holder) : (s.modHolder h f).origins = s.origins := rfl
@[simp] theorem modHolder_timebase (s : State) (h : Nat) (f : Holder → Holder) : (s.modHolder h f).timebase = s.timebase := rfl
@[simp] theorem modHolder_cycle (s : State) (h : Nat) (f : Holder → Holder) : (s.modHolder h f).cycle = s.cycle := rfl
@[simp] theorem modHolder_booted (s : State) (h : Nat) (f : Holder → Holder) : (s.modHolder h f).booted = s.booted := rfl
@[simp] theorem modHolder_stopped (s : State) (h : Nat) (f : Holder → Holder) : (s.modHolder h f).stopped = s.stopped := rfl
@[simp] theorem modHolder_expanders (s : State) (h : Nat) (f : Holder → Holder) : (s.modHolder h f).expanders = s.expanders := rfl
@[simp] theorem modHolder_corrected (s : State) (h : Nat) (f : Holder → Holder) : (s.modHolder h f).corrected = s.corrected := rfl
@[simp] theorem modHolder_served (s : State) (h : Nat) (f : Holder → Holder) : (s.modHolder h f).served = s.served := rfl
@[simp] theorem modHolder_issuing (s : State) (h : Nat) (f : Holder → Holder) : (s.modHolder h f).issuing = s.issuing := rfl
@[simp] theorem modHolder_agenda (s : State) (h : Nat) (f : Holder → Holder) : (s.modHolder h f).agenda = s.agenda := rfl
@[simp] theorem modHolder_freeTick (s : State) (h : Nat) (f : Holder → Holder) : (s.modHolder h f).freeTick = s.freeTick := rfl

@[simp] theorem setCore_mem (s : State) (c : Nat) (k : Core) : (s.setCore c k).mem = s.mem := rfl
@[simp] theorem setCore_watches (s : State) (c : Nat) (k : Core) : (s.setCore c k).watches = s.watches := rfl
@[simp] theorem setCore_groups (s : State) (c : Nat) (k : Core) : (s.setCore c k).groups = s.groups := rfl
@[simp] theorem setCore_cohorts (s : State) (c : Nat) (k : Core) : (s.setCore c k).cohorts = s.cohorts := rfl
@[simp] theorem setCore_clusters (s : State) (c : Nat) (k : Core) : (s.setCore c k).clusters = s.clusters := rfl
@[simp] theorem setCore_launches (s : State) (c : Nat) (k : Core) : (s.setCore c k).launches = s.launches := rfl
@[simp] theorem setCore_contexts (s : State) (c : Nat) (k : Core) : (s.setCore c k).contexts = s.contexts := rfl
@[simp] theorem setCore_ops (s : State) (c : Nat) (k : Core) : (s.setCore c k).ops = s.ops := rfl
@[simp] theorem setCore_nextOp (s : State) (c : Nat) (k : Core) : (s.setCore c k).nextOp = s.nextOp := rfl
@[simp] theorem setCore_cores (s : State) (c : Nat) (k : Core) : (s.setCore c k).cores = s.cores.put c k := rfl
@[simp] theorem setCore_holders (s : State) (c : Nat) (k : Core) : (s.setCore c k).holders = s.holders := rfl
@[simp] theorem setCore_dies (s : State) (c : Nat) (k : Core) : (s.setCore c k).dies = s.dies := rfl
@[simp] theorem setCore_islands (s : State) (c : Nat) (k : Core) : (s.setCore c k).islands = s.islands := rfl
@[simp] theorem setCore_locks (s : State) (c : Nat) (k : Core) : (s.setCore c k).locks = s.locks := rfl
@[simp] theorem setCore_xlat (s : State) (c : Nat) (k : Core) : (s.setCore c k).xlat = s.xlat := rfl
@[simp] theorem setCore_replies (s : State) (c : Nat) (k : Core) : (s.setCore c k).replies = s.replies := rfl
@[simp] theorem setCore_notices (s : State) (c : Nat) (k : Core) : (s.setCore c k).notices = s.notices := rfl
@[simp] theorem setCore_calls (s : State) (c : Nat) (k : Core) : (s.setCore c k).calls = s.calls := rfl
@[simp] theorem setCore_packages (s : State) (c : Nat) (k : Core) : (s.setCore c k).packages = s.packages := rfl
@[simp] theorem setCore_linked (s : State) (c : Nat) (k : Core) : (s.setCore c k).linked = s.linked := rfl
@[simp] theorem setCore_boots (s : State) (c : Nat) (k : Core) : (s.setCore c k).boots = s.boots := rfl
@[simp] theorem setCore_fuses (s : State) (c : Nat) (k : Core) : (s.setCore c k).fuses = s.fuses := rfl
@[simp] theorem setCore_firmware (s : State) (c : Nat) (k : Core) : (s.setCore c k).firmware = s.firmware := rfl
@[simp] theorem setCore_services (s : State) (c : Nat) (k : Core) : (s.setCore c k).services = s.services := rfl
@[simp] theorem setCore_origins (s : State) (c : Nat) (k : Core) : (s.setCore c k).origins = s.origins := rfl
@[simp] theorem setCore_timebase (s : State) (c : Nat) (k : Core) : (s.setCore c k).timebase = s.timebase := rfl
@[simp] theorem setCore_cycle (s : State) (c : Nat) (k : Core) : (s.setCore c k).cycle = s.cycle := rfl
@[simp] theorem setCore_booted (s : State) (c : Nat) (k : Core) : (s.setCore c k).booted = s.booted := rfl
@[simp] theorem setCore_stopped (s : State) (c : Nat) (k : Core) : (s.setCore c k).stopped = s.stopped := rfl
@[simp] theorem setCore_expanders (s : State) (c : Nat) (k : Core) : (s.setCore c k).expanders = s.expanders := rfl
@[simp] theorem setCore_corrected (s : State) (c : Nat) (k : Core) : (s.setCore c k).corrected = s.corrected := rfl
@[simp] theorem setCore_served (s : State) (c : Nat) (k : Core) : (s.setCore c k).served = s.served := rfl
@[simp] theorem setCore_issuing (s : State) (c : Nat) (k : Core) : (s.setCore c k).issuing = s.issuing := rfl
@[simp] theorem setCore_agenda (s : State) (c : Nat) (k : Core) : (s.setCore c k).agenda = s.agenda := rfl
@[simp] theorem setCore_freeTick (s : State) (c : Nat) (k : Core) : (s.setCore c k).freeTick = s.freeTick := rfl

@[simp] theorem modCore_mem (s : State) (c : Nat) (f : Core → Core) : (s.modCore c f).mem = s.mem := rfl
@[simp] theorem modCore_watches (s : State) (c : Nat) (f : Core → Core) : (s.modCore c f).watches = s.watches := rfl
@[simp] theorem modCore_groups (s : State) (c : Nat) (f : Core → Core) : (s.modCore c f).groups = s.groups := rfl
@[simp] theorem modCore_cohorts (s : State) (c : Nat) (f : Core → Core) : (s.modCore c f).cohorts = s.cohorts := rfl
@[simp] theorem modCore_clusters (s : State) (c : Nat) (f : Core → Core) : (s.modCore c f).clusters = s.clusters := rfl
@[simp] theorem modCore_launches (s : State) (c : Nat) (f : Core → Core) : (s.modCore c f).launches = s.launches := rfl
@[simp] theorem modCore_contexts (s : State) (c : Nat) (f : Core → Core) : (s.modCore c f).contexts = s.contexts := rfl
@[simp] theorem modCore_ops (s : State) (c : Nat) (f : Core → Core) : (s.modCore c f).ops = s.ops := rfl
@[simp] theorem modCore_nextOp (s : State) (c : Nat) (f : Core → Core) : (s.modCore c f).nextOp = s.nextOp := rfl
@[simp] theorem modCore_cores (s : State) (c : Nat) (f : Core → Core) : (s.modCore c f).cores = s.cores.put c (f (s.core c)) := rfl
@[simp] theorem modCore_holders (s : State) (c : Nat) (f : Core → Core) : (s.modCore c f).holders = s.holders := rfl
@[simp] theorem modCore_dies (s : State) (c : Nat) (f : Core → Core) : (s.modCore c f).dies = s.dies := rfl
@[simp] theorem modCore_islands (s : State) (c : Nat) (f : Core → Core) : (s.modCore c f).islands = s.islands := rfl
@[simp] theorem modCore_locks (s : State) (c : Nat) (f : Core → Core) : (s.modCore c f).locks = s.locks := rfl
@[simp] theorem modCore_xlat (s : State) (c : Nat) (f : Core → Core) : (s.modCore c f).xlat = s.xlat := rfl
@[simp] theorem modCore_replies (s : State) (c : Nat) (f : Core → Core) : (s.modCore c f).replies = s.replies := rfl
@[simp] theorem modCore_notices (s : State) (c : Nat) (f : Core → Core) : (s.modCore c f).notices = s.notices := rfl
@[simp] theorem modCore_calls (s : State) (c : Nat) (f : Core → Core) : (s.modCore c f).calls = s.calls := rfl
@[simp] theorem modCore_packages (s : State) (c : Nat) (f : Core → Core) : (s.modCore c f).packages = s.packages := rfl
@[simp] theorem modCore_linked (s : State) (c : Nat) (f : Core → Core) : (s.modCore c f).linked = s.linked := rfl
@[simp] theorem modCore_boots (s : State) (c : Nat) (f : Core → Core) : (s.modCore c f).boots = s.boots := rfl
@[simp] theorem modCore_fuses (s : State) (c : Nat) (f : Core → Core) : (s.modCore c f).fuses = s.fuses := rfl
@[simp] theorem modCore_firmware (s : State) (c : Nat) (f : Core → Core) : (s.modCore c f).firmware = s.firmware := rfl
@[simp] theorem modCore_services (s : State) (c : Nat) (f : Core → Core) : (s.modCore c f).services = s.services := rfl
@[simp] theorem modCore_origins (s : State) (c : Nat) (f : Core → Core) : (s.modCore c f).origins = s.origins := rfl
@[simp] theorem modCore_timebase (s : State) (c : Nat) (f : Core → Core) : (s.modCore c f).timebase = s.timebase := rfl
@[simp] theorem modCore_cycle (s : State) (c : Nat) (f : Core → Core) : (s.modCore c f).cycle = s.cycle := rfl
@[simp] theorem modCore_booted (s : State) (c : Nat) (f : Core → Core) : (s.modCore c f).booted = s.booted := rfl
@[simp] theorem modCore_stopped (s : State) (c : Nat) (f : Core → Core) : (s.modCore c f).stopped = s.stopped := rfl
@[simp] theorem modCore_expanders (s : State) (c : Nat) (f : Core → Core) : (s.modCore c f).expanders = s.expanders := rfl
@[simp] theorem modCore_corrected (s : State) (c : Nat) (f : Core → Core) : (s.modCore c f).corrected = s.corrected := rfl
@[simp] theorem modCore_served (s : State) (c : Nat) (f : Core → Core) : (s.modCore c f).served = s.served := rfl
@[simp] theorem modCore_issuing (s : State) (c : Nat) (f : Core → Core) : (s.modCore c f).issuing = s.issuing := rfl
@[simp] theorem modCore_agenda (s : State) (c : Nat) (f : Core → Core) : (s.modCore c f).agenda = s.agenda := rfl
@[simp] theorem modCore_freeTick (s : State) (c : Nat) (f : Core → Core) : (s.modCore c f).freeTick = s.freeTick := rfl

@[simp] theorem setDie_mem (s : State) (d : Nat) (k : Die) : (s.setDie d k).mem = s.mem := rfl
@[simp] theorem setDie_watches (s : State) (d : Nat) (k : Die) : (s.setDie d k).watches = s.watches := rfl
@[simp] theorem setDie_groups (s : State) (d : Nat) (k : Die) : (s.setDie d k).groups = s.groups := rfl
@[simp] theorem setDie_cohorts (s : State) (d : Nat) (k : Die) : (s.setDie d k).cohorts = s.cohorts := rfl
@[simp] theorem setDie_clusters (s : State) (d : Nat) (k : Die) : (s.setDie d k).clusters = s.clusters := rfl
@[simp] theorem setDie_launches (s : State) (d : Nat) (k : Die) : (s.setDie d k).launches = s.launches := rfl
@[simp] theorem setDie_contexts (s : State) (d : Nat) (k : Die) : (s.setDie d k).contexts = s.contexts := rfl
@[simp] theorem setDie_ops (s : State) (d : Nat) (k : Die) : (s.setDie d k).ops = s.ops := rfl
@[simp] theorem setDie_nextOp (s : State) (d : Nat) (k : Die) : (s.setDie d k).nextOp = s.nextOp := rfl
@[simp] theorem setDie_cores (s : State) (d : Nat) (k : Die) : (s.setDie d k).cores = s.cores := rfl
@[simp] theorem setDie_holders (s : State) (d : Nat) (k : Die) : (s.setDie d k).holders = s.holders := rfl
@[simp] theorem setDie_dies (s : State) (d : Nat) (k : Die) : (s.setDie d k).dies = s.dies.put d k := rfl
@[simp] theorem setDie_islands (s : State) (d : Nat) (k : Die) : (s.setDie d k).islands = s.islands := rfl
@[simp] theorem setDie_locks (s : State) (d : Nat) (k : Die) : (s.setDie d k).locks = s.locks := rfl
@[simp] theorem setDie_xlat (s : State) (d : Nat) (k : Die) : (s.setDie d k).xlat = s.xlat := rfl
@[simp] theorem setDie_replies (s : State) (d : Nat) (k : Die) : (s.setDie d k).replies = s.replies := rfl
@[simp] theorem setDie_notices (s : State) (d : Nat) (k : Die) : (s.setDie d k).notices = s.notices := rfl
@[simp] theorem setDie_calls (s : State) (d : Nat) (k : Die) : (s.setDie d k).calls = s.calls := rfl
@[simp] theorem setDie_packages (s : State) (d : Nat) (k : Die) : (s.setDie d k).packages = s.packages := rfl
@[simp] theorem setDie_linked (s : State) (d : Nat) (k : Die) : (s.setDie d k).linked = s.linked := rfl
@[simp] theorem setDie_boots (s : State) (d : Nat) (k : Die) : (s.setDie d k).boots = s.boots := rfl
@[simp] theorem setDie_fuses (s : State) (d : Nat) (k : Die) : (s.setDie d k).fuses = s.fuses := rfl
@[simp] theorem setDie_firmware (s : State) (d : Nat) (k : Die) : (s.setDie d k).firmware = s.firmware := rfl
@[simp] theorem setDie_services (s : State) (d : Nat) (k : Die) : (s.setDie d k).services = s.services := rfl
@[simp] theorem setDie_origins (s : State) (d : Nat) (k : Die) : (s.setDie d k).origins = s.origins := rfl
@[simp] theorem setDie_timebase (s : State) (d : Nat) (k : Die) : (s.setDie d k).timebase = s.timebase := rfl
@[simp] theorem setDie_cycle (s : State) (d : Nat) (k : Die) : (s.setDie d k).cycle = s.cycle := rfl
@[simp] theorem setDie_booted (s : State) (d : Nat) (k : Die) : (s.setDie d k).booted = s.booted := rfl
@[simp] theorem setDie_stopped (s : State) (d : Nat) (k : Die) : (s.setDie d k).stopped = s.stopped := rfl
@[simp] theorem setDie_expanders (s : State) (d : Nat) (k : Die) : (s.setDie d k).expanders = s.expanders := rfl
@[simp] theorem setDie_corrected (s : State) (d : Nat) (k : Die) : (s.setDie d k).corrected = s.corrected := rfl
@[simp] theorem setDie_served (s : State) (d : Nat) (k : Die) : (s.setDie d k).served = s.served := rfl
@[simp] theorem setDie_issuing (s : State) (d : Nat) (k : Die) : (s.setDie d k).issuing = s.issuing := rfl
@[simp] theorem setDie_agenda (s : State) (d : Nat) (k : Die) : (s.setDie d k).agenda = s.agenda := rfl
@[simp] theorem setDie_freeTick (s : State) (d : Nat) (k : Die) : (s.setDie d k).freeTick = s.freeTick := rfl

@[simp] theorem modDie_mem (s : State) (d : Nat) (f : Die → Die) : (s.modDie d f).mem = s.mem := rfl
@[simp] theorem modDie_watches (s : State) (d : Nat) (f : Die → Die) : (s.modDie d f).watches = s.watches := rfl
@[simp] theorem modDie_groups (s : State) (d : Nat) (f : Die → Die) : (s.modDie d f).groups = s.groups := rfl
@[simp] theorem modDie_cohorts (s : State) (d : Nat) (f : Die → Die) : (s.modDie d f).cohorts = s.cohorts := rfl
@[simp] theorem modDie_clusters (s : State) (d : Nat) (f : Die → Die) : (s.modDie d f).clusters = s.clusters := rfl
@[simp] theorem modDie_launches (s : State) (d : Nat) (f : Die → Die) : (s.modDie d f).launches = s.launches := rfl
@[simp] theorem modDie_contexts (s : State) (d : Nat) (f : Die → Die) : (s.modDie d f).contexts = s.contexts := rfl
@[simp] theorem modDie_ops (s : State) (d : Nat) (f : Die → Die) : (s.modDie d f).ops = s.ops := rfl
@[simp] theorem modDie_nextOp (s : State) (d : Nat) (f : Die → Die) : (s.modDie d f).nextOp = s.nextOp := rfl
@[simp] theorem modDie_cores (s : State) (d : Nat) (f : Die → Die) : (s.modDie d f).cores = s.cores := rfl
@[simp] theorem modDie_holders (s : State) (d : Nat) (f : Die → Die) : (s.modDie d f).holders = s.holders := rfl
@[simp] theorem modDie_dies (s : State) (d : Nat) (f : Die → Die) : (s.modDie d f).dies = s.dies.put d (f (s.die d)) := rfl
@[simp] theorem modDie_islands (s : State) (d : Nat) (f : Die → Die) : (s.modDie d f).islands = s.islands := rfl
@[simp] theorem modDie_locks (s : State) (d : Nat) (f : Die → Die) : (s.modDie d f).locks = s.locks := rfl
@[simp] theorem modDie_xlat (s : State) (d : Nat) (f : Die → Die) : (s.modDie d f).xlat = s.xlat := rfl
@[simp] theorem modDie_replies (s : State) (d : Nat) (f : Die → Die) : (s.modDie d f).replies = s.replies := rfl
@[simp] theorem modDie_notices (s : State) (d : Nat) (f : Die → Die) : (s.modDie d f).notices = s.notices := rfl
@[simp] theorem modDie_calls (s : State) (d : Nat) (f : Die → Die) : (s.modDie d f).calls = s.calls := rfl
@[simp] theorem modDie_packages (s : State) (d : Nat) (f : Die → Die) : (s.modDie d f).packages = s.packages := rfl
@[simp] theorem modDie_linked (s : State) (d : Nat) (f : Die → Die) : (s.modDie d f).linked = s.linked := rfl
@[simp] theorem modDie_boots (s : State) (d : Nat) (f : Die → Die) : (s.modDie d f).boots = s.boots := rfl
@[simp] theorem modDie_fuses (s : State) (d : Nat) (f : Die → Die) : (s.modDie d f).fuses = s.fuses := rfl
@[simp] theorem modDie_firmware (s : State) (d : Nat) (f : Die → Die) : (s.modDie d f).firmware = s.firmware := rfl
@[simp] theorem modDie_services (s : State) (d : Nat) (f : Die → Die) : (s.modDie d f).services = s.services := rfl
@[simp] theorem modDie_origins (s : State) (d : Nat) (f : Die → Die) : (s.modDie d f).origins = s.origins := rfl
@[simp] theorem modDie_timebase (s : State) (d : Nat) (f : Die → Die) : (s.modDie d f).timebase = s.timebase := rfl
@[simp] theorem modDie_cycle (s : State) (d : Nat) (f : Die → Die) : (s.modDie d f).cycle = s.cycle := rfl
@[simp] theorem modDie_booted (s : State) (d : Nat) (f : Die → Die) : (s.modDie d f).booted = s.booted := rfl
@[simp] theorem modDie_stopped (s : State) (d : Nat) (f : Die → Die) : (s.modDie d f).stopped = s.stopped := rfl
@[simp] theorem modDie_expanders (s : State) (d : Nat) (f : Die → Die) : (s.modDie d f).expanders = s.expanders := rfl
@[simp] theorem modDie_corrected (s : State) (d : Nat) (f : Die → Die) : (s.modDie d f).corrected = s.corrected := rfl
@[simp] theorem modDie_served (s : State) (d : Nat) (f : Die → Die) : (s.modDie d f).served = s.served := rfl
@[simp] theorem modDie_issuing (s : State) (d : Nat) (f : Die → Die) : (s.modDie d f).issuing = s.issuing := rfl
@[simp] theorem modDie_agenda (s : State) (d : Nat) (f : Die → Die) : (s.modDie d f).agenda = s.agenda := rfl
@[simp] theorem modDie_freeTick (s : State) (d : Nat) (f : Die → Die) : (s.modDie d f).freeTick = s.freeTick := rfl

@[simp] theorem setIsland_mem (s : State) (i : Nat) (k : Island) : (s.setIsland i k).mem = s.mem := rfl
@[simp] theorem setIsland_watches (s : State) (i : Nat) (k : Island) : (s.setIsland i k).watches = s.watches := rfl
@[simp] theorem setIsland_groups (s : State) (i : Nat) (k : Island) : (s.setIsland i k).groups = s.groups := rfl
@[simp] theorem setIsland_cohorts (s : State) (i : Nat) (k : Island) : (s.setIsland i k).cohorts = s.cohorts := rfl
@[simp] theorem setIsland_clusters (s : State) (i : Nat) (k : Island) : (s.setIsland i k).clusters = s.clusters := rfl
@[simp] theorem setIsland_launches (s : State) (i : Nat) (k : Island) : (s.setIsland i k).launches = s.launches := rfl
@[simp] theorem setIsland_contexts (s : State) (i : Nat) (k : Island) : (s.setIsland i k).contexts = s.contexts := rfl
@[simp] theorem setIsland_ops (s : State) (i : Nat) (k : Island) : (s.setIsland i k).ops = s.ops := rfl
@[simp] theorem setIsland_nextOp (s : State) (i : Nat) (k : Island) : (s.setIsland i k).nextOp = s.nextOp := rfl
@[simp] theorem setIsland_cores (s : State) (i : Nat) (k : Island) : (s.setIsland i k).cores = s.cores := rfl
@[simp] theorem setIsland_holders (s : State) (i : Nat) (k : Island) : (s.setIsland i k).holders = s.holders := rfl
@[simp] theorem setIsland_dies (s : State) (i : Nat) (k : Island) : (s.setIsland i k).dies = s.dies := rfl
@[simp] theorem setIsland_islands (s : State) (i : Nat) (k : Island) : (s.setIsland i k).islands = s.islands.put i k := rfl
@[simp] theorem setIsland_locks (s : State) (i : Nat) (k : Island) : (s.setIsland i k).locks = s.locks := rfl
@[simp] theorem setIsland_xlat (s : State) (i : Nat) (k : Island) : (s.setIsland i k).xlat = s.xlat := rfl
@[simp] theorem setIsland_replies (s : State) (i : Nat) (k : Island) : (s.setIsland i k).replies = s.replies := rfl
@[simp] theorem setIsland_notices (s : State) (i : Nat) (k : Island) : (s.setIsland i k).notices = s.notices := rfl
@[simp] theorem setIsland_calls (s : State) (i : Nat) (k : Island) : (s.setIsland i k).calls = s.calls := rfl
@[simp] theorem setIsland_packages (s : State) (i : Nat) (k : Island) : (s.setIsland i k).packages = s.packages := rfl
@[simp] theorem setIsland_linked (s : State) (i : Nat) (k : Island) : (s.setIsland i k).linked = s.linked := rfl
@[simp] theorem setIsland_boots (s : State) (i : Nat) (k : Island) : (s.setIsland i k).boots = s.boots := rfl
@[simp] theorem setIsland_fuses (s : State) (i : Nat) (k : Island) : (s.setIsland i k).fuses = s.fuses := rfl
@[simp] theorem setIsland_firmware (s : State) (i : Nat) (k : Island) : (s.setIsland i k).firmware = s.firmware := rfl
@[simp] theorem setIsland_services (s : State) (i : Nat) (k : Island) : (s.setIsland i k).services = s.services := rfl
@[simp] theorem setIsland_origins (s : State) (i : Nat) (k : Island) : (s.setIsland i k).origins = s.origins := rfl
@[simp] theorem setIsland_timebase (s : State) (i : Nat) (k : Island) : (s.setIsland i k).timebase = s.timebase := rfl
@[simp] theorem setIsland_cycle (s : State) (i : Nat) (k : Island) : (s.setIsland i k).cycle = s.cycle := rfl
@[simp] theorem setIsland_booted (s : State) (i : Nat) (k : Island) : (s.setIsland i k).booted = s.booted := rfl
@[simp] theorem setIsland_stopped (s : State) (i : Nat) (k : Island) : (s.setIsland i k).stopped = s.stopped := rfl
@[simp] theorem setIsland_expanders (s : State) (i : Nat) (k : Island) : (s.setIsland i k).expanders = s.expanders := rfl
@[simp] theorem setIsland_corrected (s : State) (i : Nat) (k : Island) : (s.setIsland i k).corrected = s.corrected := rfl
@[simp] theorem setIsland_served (s : State) (i : Nat) (k : Island) : (s.setIsland i k).served = s.served := rfl
@[simp] theorem setIsland_issuing (s : State) (i : Nat) (k : Island) : (s.setIsland i k).issuing = s.issuing := rfl
@[simp] theorem setIsland_agenda (s : State) (i : Nat) (k : Island) : (s.setIsland i k).agenda = s.agenda := rfl
@[simp] theorem setIsland_freeTick (s : State) (i : Nat) (k : Island) : (s.setIsland i k).freeTick = s.freeTick := rfl

@[simp] theorem dropOp_mem (s : State) (o : Nat) : (s.dropOp o).mem = s.mem := rfl
@[simp] theorem dropOp_watches (s : State) (o : Nat) : (s.dropOp o).watches = s.watches := rfl
@[simp] theorem dropOp_groups (s : State) (o : Nat) : (s.dropOp o).groups = s.groups := rfl
@[simp] theorem dropOp_cohorts (s : State) (o : Nat) : (s.dropOp o).cohorts = s.cohorts := rfl
@[simp] theorem dropOp_clusters (s : State) (o : Nat) : (s.dropOp o).clusters = s.clusters := rfl
@[simp] theorem dropOp_launches (s : State) (o : Nat) : (s.dropOp o).launches = s.launches := rfl
@[simp] theorem dropOp_contexts (s : State) (o : Nat) : (s.dropOp o).contexts = s.contexts := rfl
@[simp] theorem dropOp_ops (s : State) (o : Nat) : (s.dropOp o).ops = s.ops.erase o := rfl
@[simp] theorem dropOp_nextOp (s : State) (o : Nat) : (s.dropOp o).nextOp = s.nextOp := rfl
@[simp] theorem dropOp_cores (s : State) (o : Nat) : (s.dropOp o).cores = s.cores := rfl
@[simp] theorem dropOp_holders (s : State) (o : Nat) : (s.dropOp o).holders = s.holders := rfl
@[simp] theorem dropOp_dies (s : State) (o : Nat) : (s.dropOp o).dies = s.dies := rfl
@[simp] theorem dropOp_islands (s : State) (o : Nat) : (s.dropOp o).islands = s.islands := rfl
@[simp] theorem dropOp_locks (s : State) (o : Nat) : (s.dropOp o).locks = s.locks := rfl
@[simp] theorem dropOp_xlat (s : State) (o : Nat) : (s.dropOp o).xlat = s.xlat := rfl
@[simp] theorem dropOp_replies (s : State) (o : Nat) : (s.dropOp o).replies = s.replies := rfl
@[simp] theorem dropOp_notices (s : State) (o : Nat) : (s.dropOp o).notices = s.notices := rfl
@[simp] theorem dropOp_calls (s : State) (o : Nat) : (s.dropOp o).calls = s.calls := rfl
@[simp] theorem dropOp_packages (s : State) (o : Nat) : (s.dropOp o).packages = s.packages := rfl
@[simp] theorem dropOp_linked (s : State) (o : Nat) : (s.dropOp o).linked = s.linked := rfl
@[simp] theorem dropOp_boots (s : State) (o : Nat) : (s.dropOp o).boots = s.boots := rfl
@[simp] theorem dropOp_fuses (s : State) (o : Nat) : (s.dropOp o).fuses = s.fuses := rfl
@[simp] theorem dropOp_firmware (s : State) (o : Nat) : (s.dropOp o).firmware = s.firmware := rfl
@[simp] theorem dropOp_services (s : State) (o : Nat) : (s.dropOp o).services = s.services := rfl
@[simp] theorem dropOp_origins (s : State) (o : Nat) : (s.dropOp o).origins = s.origins := rfl
@[simp] theorem dropOp_timebase (s : State) (o : Nat) : (s.dropOp o).timebase = s.timebase := rfl
@[simp] theorem dropOp_cycle (s : State) (o : Nat) : (s.dropOp o).cycle = s.cycle := rfl
@[simp] theorem dropOp_booted (s : State) (o : Nat) : (s.dropOp o).booted = s.booted := rfl
@[simp] theorem dropOp_stopped (s : State) (o : Nat) : (s.dropOp o).stopped = s.stopped := rfl
@[simp] theorem dropOp_expanders (s : State) (o : Nat) : (s.dropOp o).expanders = s.expanders := rfl
@[simp] theorem dropOp_corrected (s : State) (o : Nat) : (s.dropOp o).corrected = s.corrected := rfl
@[simp] theorem dropOp_served (s : State) (o : Nat) : (s.dropOp o).served = s.served := rfl
@[simp] theorem dropOp_issuing (s : State) (o : Nat) : (s.dropOp o).issuing = s.issuing := rfl
@[simp] theorem dropOp_agenda (s : State) (o : Nat) : (s.dropOp o).agenda = s.agenda := rfl
@[simp] theorem dropOp_freeTick (s : State) (o : Nat) : (s.dropOp o).freeTick = s.freeTick := rfl

@[simp] theorem modSite_mem (s : State) (c p : Nat) (f : Presence → Presence) : (s.modSite c p f).mem = s.mem := rfl
@[simp] theorem modSite_watches (s : State) (c p : Nat) (f : Presence → Presence) : (s.modSite c p f).watches = s.watches := rfl
@[simp] theorem modSite_groups (s : State) (c p : Nat) (f : Presence → Presence) : (s.modSite c p f).groups = s.groups := rfl
@[simp] theorem modSite_cohorts (s : State) (c p : Nat) (f : Presence → Presence) : (s.modSite c p f).cohorts = s.cohorts := rfl
@[simp] theorem modSite_clusters (s : State) (c p : Nat) (f : Presence → Presence) : (s.modSite c p f).clusters = s.clusters := rfl
@[simp] theorem modSite_launches (s : State) (c p : Nat) (f : Presence → Presence) : (s.modSite c p f).launches = s.launches := rfl
@[simp] theorem modSite_ops (s : State) (c p : Nat) (f : Presence → Presence) : (s.modSite c p f).ops = s.ops := rfl
@[simp] theorem modSite_nextOp (s : State) (c p : Nat) (f : Presence → Presence) : (s.modSite c p f).nextOp = s.nextOp := rfl
@[simp] theorem modSite_cores (s : State) (c p : Nat) (f : Presence → Presence) : (s.modSite c p f).cores = s.cores := rfl
@[simp] theorem modSite_holders (s : State) (c p : Nat) (f : Presence → Presence) : (s.modSite c p f).holders = s.holders := rfl
@[simp] theorem modSite_dies (s : State) (c p : Nat) (f : Presence → Presence) : (s.modSite c p f).dies = s.dies := rfl
@[simp] theorem modSite_islands (s : State) (c p : Nat) (f : Presence → Presence) : (s.modSite c p f).islands = s.islands := rfl
@[simp] theorem modSite_locks (s : State) (c p : Nat) (f : Presence → Presence) : (s.modSite c p f).locks = s.locks := rfl
@[simp] theorem modSite_xlat (s : State) (c p : Nat) (f : Presence → Presence) : (s.modSite c p f).xlat = s.xlat := rfl
@[simp] theorem modSite_replies (s : State) (c p : Nat) (f : Presence → Presence) : (s.modSite c p f).replies = s.replies := rfl
@[simp] theorem modSite_notices (s : State) (c p : Nat) (f : Presence → Presence) : (s.modSite c p f).notices = s.notices := rfl
@[simp] theorem modSite_calls (s : State) (c p : Nat) (f : Presence → Presence) : (s.modSite c p f).calls = s.calls := rfl
@[simp] theorem modSite_packages (s : State) (c p : Nat) (f : Presence → Presence) : (s.modSite c p f).packages = s.packages := rfl
@[simp] theorem modSite_linked (s : State) (c p : Nat) (f : Presence → Presence) : (s.modSite c p f).linked = s.linked := rfl
@[simp] theorem modSite_boots (s : State) (c p : Nat) (f : Presence → Presence) : (s.modSite c p f).boots = s.boots := rfl
@[simp] theorem modSite_fuses (s : State) (c p : Nat) (f : Presence → Presence) : (s.modSite c p f).fuses = s.fuses := rfl
@[simp] theorem modSite_firmware (s : State) (c p : Nat) (f : Presence → Presence) : (s.modSite c p f).firmware = s.firmware := rfl
@[simp] theorem modSite_services (s : State) (c p : Nat) (f : Presence → Presence) : (s.modSite c p f).services = s.services := rfl
@[simp] theorem modSite_origins (s : State) (c p : Nat) (f : Presence → Presence) : (s.modSite c p f).origins = s.origins := rfl
@[simp] theorem modSite_timebase (s : State) (c p : Nat) (f : Presence → Presence) : (s.modSite c p f).timebase = s.timebase := rfl
@[simp] theorem modSite_cycle (s : State) (c p : Nat) (f : Presence → Presence) : (s.modSite c p f).cycle = s.cycle := rfl
@[simp] theorem modSite_booted (s : State) (c p : Nat) (f : Presence → Presence) : (s.modSite c p f).booted = s.booted := rfl
@[simp] theorem modSite_stopped (s : State) (c p : Nat) (f : Presence → Presence) : (s.modSite c p f).stopped = s.stopped := rfl
@[simp] theorem modSite_expanders (s : State) (c p : Nat) (f : Presence → Presence) : (s.modSite c p f).expanders = s.expanders := rfl
@[simp] theorem modSite_corrected (s : State) (c p : Nat) (f : Presence → Presence) : (s.modSite c p f).corrected = s.corrected := rfl
@[simp] theorem modSite_served (s : State) (c p : Nat) (f : Presence → Presence) : (s.modSite c p f).served = s.served := rfl
@[simp] theorem modSite_issuing (s : State) (c p : Nat) (f : Presence → Presence) : (s.modSite c p f).issuing = s.issuing := rfl
@[simp] theorem modSite_agenda (s : State) (c p : Nat) (f : Presence → Presence) : (s.modSite c p f).agenda = s.agenda := rfl
@[simp] theorem modSite_freeTick (s : State) (c p : Nat) (f : Presence → Presence) : (s.modSite c p f).freeTick = s.freeTick := rfl

@[simp] theorem modScroll_mem (s : State) (c p : Nat) (f : Scroll → Scroll) : (s.modScroll c p f).mem = s.mem := rfl
@[simp] theorem modScroll_watches (s : State) (c p : Nat) (f : Scroll → Scroll) : (s.modScroll c p f).watches = s.watches := rfl
@[simp] theorem modScroll_groups (s : State) (c p : Nat) (f : Scroll → Scroll) : (s.modScroll c p f).groups = s.groups := rfl
@[simp] theorem modScroll_cohorts (s : State) (c p : Nat) (f : Scroll → Scroll) : (s.modScroll c p f).cohorts = s.cohorts := rfl
@[simp] theorem modScroll_clusters (s : State) (c p : Nat) (f : Scroll → Scroll) : (s.modScroll c p f).clusters = s.clusters := rfl
@[simp] theorem modScroll_launches (s : State) (c p : Nat) (f : Scroll → Scroll) : (s.modScroll c p f).launches = s.launches := rfl
@[simp] theorem modScroll_ops (s : State) (c p : Nat) (f : Scroll → Scroll) : (s.modScroll c p f).ops = s.ops := rfl
@[simp] theorem modScroll_nextOp (s : State) (c p : Nat) (f : Scroll → Scroll) : (s.modScroll c p f).nextOp = s.nextOp := rfl
@[simp] theorem modScroll_cores (s : State) (c p : Nat) (f : Scroll → Scroll) : (s.modScroll c p f).cores = s.cores := rfl
@[simp] theorem modScroll_holders (s : State) (c p : Nat) (f : Scroll → Scroll) : (s.modScroll c p f).holders = s.holders := rfl
@[simp] theorem modScroll_dies (s : State) (c p : Nat) (f : Scroll → Scroll) : (s.modScroll c p f).dies = s.dies := rfl
@[simp] theorem modScroll_islands (s : State) (c p : Nat) (f : Scroll → Scroll) : (s.modScroll c p f).islands = s.islands := rfl
@[simp] theorem modScroll_locks (s : State) (c p : Nat) (f : Scroll → Scroll) : (s.modScroll c p f).locks = s.locks := rfl
@[simp] theorem modScroll_xlat (s : State) (c p : Nat) (f : Scroll → Scroll) : (s.modScroll c p f).xlat = s.xlat := rfl
@[simp] theorem modScroll_replies (s : State) (c p : Nat) (f : Scroll → Scroll) : (s.modScroll c p f).replies = s.replies := rfl
@[simp] theorem modScroll_notices (s : State) (c p : Nat) (f : Scroll → Scroll) : (s.modScroll c p f).notices = s.notices := rfl
@[simp] theorem modScroll_calls (s : State) (c p : Nat) (f : Scroll → Scroll) : (s.modScroll c p f).calls = s.calls := rfl
@[simp] theorem modScroll_packages (s : State) (c p : Nat) (f : Scroll → Scroll) : (s.modScroll c p f).packages = s.packages := rfl
@[simp] theorem modScroll_linked (s : State) (c p : Nat) (f : Scroll → Scroll) : (s.modScroll c p f).linked = s.linked := rfl
@[simp] theorem modScroll_boots (s : State) (c p : Nat) (f : Scroll → Scroll) : (s.modScroll c p f).boots = s.boots := rfl
@[simp] theorem modScroll_fuses (s : State) (c p : Nat) (f : Scroll → Scroll) : (s.modScroll c p f).fuses = s.fuses := rfl
@[simp] theorem modScroll_firmware (s : State) (c p : Nat) (f : Scroll → Scroll) : (s.modScroll c p f).firmware = s.firmware := rfl
@[simp] theorem modScroll_services (s : State) (c p : Nat) (f : Scroll → Scroll) : (s.modScroll c p f).services = s.services := rfl
@[simp] theorem modScroll_origins (s : State) (c p : Nat) (f : Scroll → Scroll) : (s.modScroll c p f).origins = s.origins := rfl
@[simp] theorem modScroll_timebase (s : State) (c p : Nat) (f : Scroll → Scroll) : (s.modScroll c p f).timebase = s.timebase := rfl
@[simp] theorem modScroll_cycle (s : State) (c p : Nat) (f : Scroll → Scroll) : (s.modScroll c p f).cycle = s.cycle := rfl
@[simp] theorem modScroll_booted (s : State) (c p : Nat) (f : Scroll → Scroll) : (s.modScroll c p f).booted = s.booted := rfl
@[simp] theorem modScroll_stopped (s : State) (c p : Nat) (f : Scroll → Scroll) : (s.modScroll c p f).stopped = s.stopped := rfl
@[simp] theorem modScroll_expanders (s : State) (c p : Nat) (f : Scroll → Scroll) : (s.modScroll c p f).expanders = s.expanders := rfl
@[simp] theorem modScroll_corrected (s : State) (c p : Nat) (f : Scroll → Scroll) : (s.modScroll c p f).corrected = s.corrected := rfl
@[simp] theorem modScroll_served (s : State) (c p : Nat) (f : Scroll → Scroll) : (s.modScroll c p f).served = s.served := rfl
@[simp] theorem modScroll_issuing (s : State) (c p : Nat) (f : Scroll → Scroll) : (s.modScroll c p f).issuing = s.issuing := rfl
@[simp] theorem modScroll_agenda (s : State) (c p : Nat) (f : Scroll → Scroll) : (s.modScroll c p f).agenda = s.agenda := rfl
@[simp] theorem modScroll_freeTick (s : State) (c p : Nat) (f : Scroll → Scroll) : (s.modScroll c p f).freeTick = s.freeTick := rfl

@[simp] theorem writeByte_mem (s : State) (a : Nat) (b : Byte) : (s.writeByte a b).mem = s.mem.write unlisted a b := rfl
@[simp] theorem writeByte_watches (s : State) (a : Nat) (b : Byte) : (s.writeByte a b).watches = touched s.watches a := rfl
@[simp] theorem writeByte_groups (s : State) (a : Nat) (b : Byte) : (s.writeByte a b).groups = s.groups := rfl
@[simp] theorem writeByte_cohorts (s : State) (a : Nat) (b : Byte) : (s.writeByte a b).cohorts = s.cohorts := rfl
@[simp] theorem writeByte_clusters (s : State) (a : Nat) (b : Byte) : (s.writeByte a b).clusters = s.clusters := rfl
@[simp] theorem writeByte_launches (s : State) (a : Nat) (b : Byte) : (s.writeByte a b).launches = s.launches := rfl
@[simp] theorem writeByte_contexts (s : State) (a : Nat) (b : Byte) : (s.writeByte a b).contexts = s.contexts := rfl
@[simp] theorem writeByte_ops (s : State) (a : Nat) (b : Byte) : (s.writeByte a b).ops = s.ops := rfl
@[simp] theorem writeByte_nextOp (s : State) (a : Nat) (b : Byte) : (s.writeByte a b).nextOp = s.nextOp := rfl
@[simp] theorem writeByte_cores (s : State) (a : Nat) (b : Byte) : (s.writeByte a b).cores = s.cores := rfl
@[simp] theorem writeByte_holders (s : State) (a : Nat) (b : Byte) : (s.writeByte a b).holders = s.holders := rfl
@[simp] theorem writeByte_dies (s : State) (a : Nat) (b : Byte) : (s.writeByte a b).dies = s.dies := rfl
@[simp] theorem writeByte_islands (s : State) (a : Nat) (b : Byte) : (s.writeByte a b).islands = s.islands := rfl
@[simp] theorem writeByte_locks (s : State) (a : Nat) (b : Byte) : (s.writeByte a b).locks = s.locks := rfl
@[simp] theorem writeByte_xlat (s : State) (a : Nat) (b : Byte) : (s.writeByte a b).xlat = s.xlat := rfl
@[simp] theorem writeByte_replies (s : State) (a : Nat) (b : Byte) : (s.writeByte a b).replies = s.replies := rfl
@[simp] theorem writeByte_notices (s : State) (a : Nat) (b : Byte) : (s.writeByte a b).notices = s.notices := rfl
@[simp] theorem writeByte_calls (s : State) (a : Nat) (b : Byte) : (s.writeByte a b).calls = s.calls := rfl
@[simp] theorem writeByte_packages (s : State) (a : Nat) (b : Byte) : (s.writeByte a b).packages = s.packages := rfl
@[simp] theorem writeByte_linked (s : State) (a : Nat) (b : Byte) : (s.writeByte a b).linked = s.linked := rfl
@[simp] theorem writeByte_boots (s : State) (a : Nat) (b : Byte) : (s.writeByte a b).boots = s.boots := rfl
@[simp] theorem writeByte_fuses (s : State) (a : Nat) (b : Byte) : (s.writeByte a b).fuses = s.fuses := rfl
@[simp] theorem writeByte_firmware (s : State) (a : Nat) (b : Byte) : (s.writeByte a b).firmware = s.firmware := rfl
@[simp] theorem writeByte_services (s : State) (a : Nat) (b : Byte) : (s.writeByte a b).services = s.services := rfl
@[simp] theorem writeByte_origins (s : State) (a : Nat) (b : Byte) : (s.writeByte a b).origins = s.origins := rfl
@[simp] theorem writeByte_timebase (s : State) (a : Nat) (b : Byte) : (s.writeByte a b).timebase = s.timebase := rfl
@[simp] theorem writeByte_cycle (s : State) (a : Nat) (b : Byte) : (s.writeByte a b).cycle = s.cycle := rfl
@[simp] theorem writeByte_booted (s : State) (a : Nat) (b : Byte) : (s.writeByte a b).booted = s.booted := rfl
@[simp] theorem writeByte_stopped (s : State) (a : Nat) (b : Byte) : (s.writeByte a b).stopped = s.stopped := rfl
@[simp] theorem writeByte_expanders (s : State) (a : Nat) (b : Byte) : (s.writeByte a b).expanders = s.expanders := rfl
@[simp] theorem writeByte_corrected (s : State) (a : Nat) (b : Byte) : (s.writeByte a b).corrected = s.corrected := rfl
@[simp] theorem writeByte_served (s : State) (a : Nat) (b : Byte) : (s.writeByte a b).served = s.served := rfl
@[simp] theorem writeByte_issuing (s : State) (a : Nat) (b : Byte) : (s.writeByte a b).issuing = s.issuing := rfl
@[simp] theorem writeByte_agenda (s : State) (a : Nat) (b : Byte) : (s.writeByte a b).agenda = s.agenda := rfl
@[simp] theorem writeByte_freeTick (s : State) (a : Nat) (b : Byte) : (s.writeByte a b).freeTick = s.freeTick := rfl

@[simp] theorem loadByte_mem (s : State) (a : Nat) (b : Byte) : (s.loadByte a b).mem = s.mem.write unlisted a b := rfl
@[simp] theorem loadByte_watches (s : State) (a : Nat) (b : Byte) : (s.loadByte a b).watches = s.watches := rfl
@[simp] theorem loadByte_groups (s : State) (a : Nat) (b : Byte) : (s.loadByte a b).groups = s.groups := rfl
@[simp] theorem loadByte_cohorts (s : State) (a : Nat) (b : Byte) : (s.loadByte a b).cohorts = s.cohorts := rfl
@[simp] theorem loadByte_clusters (s : State) (a : Nat) (b : Byte) : (s.loadByte a b).clusters = s.clusters := rfl
@[simp] theorem loadByte_launches (s : State) (a : Nat) (b : Byte) : (s.loadByte a b).launches = s.launches := rfl
@[simp] theorem loadByte_contexts (s : State) (a : Nat) (b : Byte) : (s.loadByte a b).contexts = s.contexts := rfl
@[simp] theorem loadByte_ops (s : State) (a : Nat) (b : Byte) : (s.loadByte a b).ops = s.ops := rfl
@[simp] theorem loadByte_nextOp (s : State) (a : Nat) (b : Byte) : (s.loadByte a b).nextOp = s.nextOp := rfl
@[simp] theorem loadByte_cores (s : State) (a : Nat) (b : Byte) : (s.loadByte a b).cores = s.cores := rfl
@[simp] theorem loadByte_holders (s : State) (a : Nat) (b : Byte) : (s.loadByte a b).holders = s.holders := rfl
@[simp] theorem loadByte_dies (s : State) (a : Nat) (b : Byte) : (s.loadByte a b).dies = s.dies := rfl
@[simp] theorem loadByte_islands (s : State) (a : Nat) (b : Byte) : (s.loadByte a b).islands = s.islands := rfl
@[simp] theorem loadByte_locks (s : State) (a : Nat) (b : Byte) : (s.loadByte a b).locks = s.locks := rfl
@[simp] theorem loadByte_xlat (s : State) (a : Nat) (b : Byte) : (s.loadByte a b).xlat = s.xlat := rfl
@[simp] theorem loadByte_replies (s : State) (a : Nat) (b : Byte) : (s.loadByte a b).replies = s.replies := rfl
@[simp] theorem loadByte_notices (s : State) (a : Nat) (b : Byte) : (s.loadByte a b).notices = s.notices := rfl
@[simp] theorem loadByte_calls (s : State) (a : Nat) (b : Byte) : (s.loadByte a b).calls = s.calls := rfl
@[simp] theorem loadByte_packages (s : State) (a : Nat) (b : Byte) : (s.loadByte a b).packages = s.packages := rfl
@[simp] theorem loadByte_linked (s : State) (a : Nat) (b : Byte) : (s.loadByte a b).linked = s.linked := rfl
@[simp] theorem loadByte_boots (s : State) (a : Nat) (b : Byte) : (s.loadByte a b).boots = s.boots := rfl
@[simp] theorem loadByte_fuses (s : State) (a : Nat) (b : Byte) : (s.loadByte a b).fuses = s.fuses := rfl
@[simp] theorem loadByte_firmware (s : State) (a : Nat) (b : Byte) : (s.loadByte a b).firmware = s.firmware := rfl
@[simp] theorem loadByte_services (s : State) (a : Nat) (b : Byte) : (s.loadByte a b).services = s.services := rfl
@[simp] theorem loadByte_origins (s : State) (a : Nat) (b : Byte) : (s.loadByte a b).origins = s.origins := rfl
@[simp] theorem loadByte_timebase (s : State) (a : Nat) (b : Byte) : (s.loadByte a b).timebase = s.timebase := rfl
@[simp] theorem loadByte_cycle (s : State) (a : Nat) (b : Byte) : (s.loadByte a b).cycle = s.cycle := rfl
@[simp] theorem loadByte_booted (s : State) (a : Nat) (b : Byte) : (s.loadByte a b).booted = s.booted := rfl
@[simp] theorem loadByte_stopped (s : State) (a : Nat) (b : Byte) : (s.loadByte a b).stopped = s.stopped := rfl
@[simp] theorem loadByte_expanders (s : State) (a : Nat) (b : Byte) : (s.loadByte a b).expanders = s.expanders := rfl
@[simp] theorem loadByte_corrected (s : State) (a : Nat) (b : Byte) : (s.loadByte a b).corrected = s.corrected := rfl
@[simp] theorem loadByte_served (s : State) (a : Nat) (b : Byte) : (s.loadByte a b).served = s.served := rfl
@[simp] theorem loadByte_issuing (s : State) (a : Nat) (b : Byte) : (s.loadByte a b).issuing = s.issuing := rfl
@[simp] theorem loadByte_agenda (s : State) (a : Nat) (b : Byte) : (s.loadByte a b).agenda = s.agenda := rfl
@[simp] theorem loadByte_freeTick (s : State) (a : Nat) (b : Byte) : (s.loadByte a b).freeTick = s.freeTick := rfl

@[simp] theorem clearFrom_watches (s : State) (p o : Nat) : (s.clearFrom p o).watches = s.watches := rfl
@[simp] theorem clearFrom_groups (s : State) (p o : Nat) : (s.clearFrom p o).groups = s.groups := rfl
@[simp] theorem clearFrom_cohorts (s : State) (p o : Nat) : (s.clearFrom p o).cohorts = s.cohorts := rfl
@[simp] theorem clearFrom_clusters (s : State) (p o : Nat) : (s.clearFrom p o).clusters = s.clusters := rfl
@[simp] theorem clearFrom_launches (s : State) (p o : Nat) : (s.clearFrom p o).launches = s.launches := rfl
@[simp] theorem clearFrom_contexts (s : State) (p o : Nat) : (s.clearFrom p o).contexts = s.contexts := rfl
@[simp] theorem clearFrom_ops (s : State) (p o : Nat) : (s.clearFrom p o).ops = s.ops := rfl
@[simp] theorem clearFrom_nextOp (s : State) (p o : Nat) : (s.clearFrom p o).nextOp = s.nextOp := rfl
@[simp] theorem clearFrom_cores (s : State) (p o : Nat) : (s.clearFrom p o).cores = s.cores := rfl
@[simp] theorem clearFrom_holders (s : State) (p o : Nat) : (s.clearFrom p o).holders = s.holders := rfl
@[simp] theorem clearFrom_dies (s : State) (p o : Nat) : (s.clearFrom p o).dies = s.dies := rfl
@[simp] theorem clearFrom_islands (s : State) (p o : Nat) : (s.clearFrom p o).islands = s.islands := rfl
@[simp] theorem clearFrom_locks (s : State) (p o : Nat) : (s.clearFrom p o).locks = s.locks := rfl
@[simp] theorem clearFrom_xlat (s : State) (p o : Nat) : (s.clearFrom p o).xlat = s.xlat := rfl
@[simp] theorem clearFrom_replies (s : State) (p o : Nat) : (s.clearFrom p o).replies = s.replies := rfl
@[simp] theorem clearFrom_notices (s : State) (p o : Nat) : (s.clearFrom p o).notices = s.notices := rfl
@[simp] theorem clearFrom_calls (s : State) (p o : Nat) : (s.clearFrom p o).calls = s.calls := rfl
@[simp] theorem clearFrom_packages (s : State) (p o : Nat) : (s.clearFrom p o).packages = s.packages := rfl
@[simp] theorem clearFrom_linked (s : State) (p o : Nat) : (s.clearFrom p o).linked = s.linked := rfl
@[simp] theorem clearFrom_boots (s : State) (p o : Nat) : (s.clearFrom p o).boots = s.boots := rfl
@[simp] theorem clearFrom_fuses (s : State) (p o : Nat) : (s.clearFrom p o).fuses = s.fuses := rfl
@[simp] theorem clearFrom_firmware (s : State) (p o : Nat) : (s.clearFrom p o).firmware = s.firmware := rfl
@[simp] theorem clearFrom_services (s : State) (p o : Nat) : (s.clearFrom p o).services = s.services := rfl
@[simp] theorem clearFrom_origins (s : State) (p o : Nat) : (s.clearFrom p o).origins = s.origins := rfl
@[simp] theorem clearFrom_timebase (s : State) (p o : Nat) : (s.clearFrom p o).timebase = s.timebase := rfl
@[simp] theorem clearFrom_cycle (s : State) (p o : Nat) : (s.clearFrom p o).cycle = s.cycle := rfl
@[simp] theorem clearFrom_booted (s : State) (p o : Nat) : (s.clearFrom p o).booted = s.booted := rfl
@[simp] theorem clearFrom_stopped (s : State) (p o : Nat) : (s.clearFrom p o).stopped = s.stopped := rfl
@[simp] theorem clearFrom_expanders (s : State) (p o : Nat) : (s.clearFrom p o).expanders = s.expanders := rfl
@[simp] theorem clearFrom_corrected (s : State) (p o : Nat) : (s.clearFrom p o).corrected = s.corrected := rfl
@[simp] theorem clearFrom_served (s : State) (p o : Nat) : (s.clearFrom p o).served = s.served := rfl
@[simp] theorem clearFrom_issuing (s : State) (p o : Nat) : (s.clearFrom p o).issuing = s.issuing := rfl
@[simp] theorem clearFrom_agenda (s : State) (p o : Nat) : (s.clearFrom p o).agenda = s.agenda := rfl
@[simp] theorem clearFrom_freeTick (s : State) (p o : Nat) : (s.clearFrom p o).freeTick = s.freeTick := rfl

@[simp] theorem clearRange_watches (s : State) (a n : Nat) : (s.clearRange a n).watches = s.watches := rfl
@[simp] theorem clearRange_groups (s : State) (a n : Nat) : (s.clearRange a n).groups = s.groups := rfl
@[simp] theorem clearRange_cohorts (s : State) (a n : Nat) : (s.clearRange a n).cohorts = s.cohorts := rfl
@[simp] theorem clearRange_clusters (s : State) (a n : Nat) : (s.clearRange a n).clusters = s.clusters := rfl
@[simp] theorem clearRange_launches (s : State) (a n : Nat) : (s.clearRange a n).launches = s.launches := rfl
@[simp] theorem clearRange_contexts (s : State) (a n : Nat) : (s.clearRange a n).contexts = s.contexts := rfl
@[simp] theorem clearRange_ops (s : State) (a n : Nat) : (s.clearRange a n).ops = s.ops := rfl
@[simp] theorem clearRange_nextOp (s : State) (a n : Nat) : (s.clearRange a n).nextOp = s.nextOp := rfl
@[simp] theorem clearRange_cores (s : State) (a n : Nat) : (s.clearRange a n).cores = s.cores := rfl
@[simp] theorem clearRange_holders (s : State) (a n : Nat) : (s.clearRange a n).holders = s.holders := rfl
@[simp] theorem clearRange_dies (s : State) (a n : Nat) : (s.clearRange a n).dies = s.dies := rfl
@[simp] theorem clearRange_islands (s : State) (a n : Nat) : (s.clearRange a n).islands = s.islands := rfl
@[simp] theorem clearRange_locks (s : State) (a n : Nat) : (s.clearRange a n).locks = s.locks := rfl
@[simp] theorem clearRange_xlat (s : State) (a n : Nat) : (s.clearRange a n).xlat = s.xlat := rfl
@[simp] theorem clearRange_replies (s : State) (a n : Nat) : (s.clearRange a n).replies = s.replies := rfl
@[simp] theorem clearRange_notices (s : State) (a n : Nat) : (s.clearRange a n).notices = s.notices := rfl
@[simp] theorem clearRange_calls (s : State) (a n : Nat) : (s.clearRange a n).calls = s.calls := rfl
@[simp] theorem clearRange_packages (s : State) (a n : Nat) : (s.clearRange a n).packages = s.packages := rfl
@[simp] theorem clearRange_linked (s : State) (a n : Nat) : (s.clearRange a n).linked = s.linked := rfl
@[simp] theorem clearRange_boots (s : State) (a n : Nat) : (s.clearRange a n).boots = s.boots := rfl
@[simp] theorem clearRange_fuses (s : State) (a n : Nat) : (s.clearRange a n).fuses = s.fuses := rfl
@[simp] theorem clearRange_firmware (s : State) (a n : Nat) : (s.clearRange a n).firmware = s.firmware := rfl
@[simp] theorem clearRange_services (s : State) (a n : Nat) : (s.clearRange a n).services = s.services := rfl
@[simp] theorem clearRange_origins (s : State) (a n : Nat) : (s.clearRange a n).origins = s.origins := rfl
@[simp] theorem clearRange_timebase (s : State) (a n : Nat) : (s.clearRange a n).timebase = s.timebase := rfl
@[simp] theorem clearRange_cycle (s : State) (a n : Nat) : (s.clearRange a n).cycle = s.cycle := rfl
@[simp] theorem clearRange_booted (s : State) (a n : Nat) : (s.clearRange a n).booted = s.booted := rfl
@[simp] theorem clearRange_stopped (s : State) (a n : Nat) : (s.clearRange a n).stopped = s.stopped := rfl
@[simp] theorem clearRange_expanders (s : State) (a n : Nat) : (s.clearRange a n).expanders = s.expanders := rfl
@[simp] theorem clearRange_corrected (s : State) (a n : Nat) : (s.clearRange a n).corrected = s.corrected := rfl
@[simp] theorem clearRange_served (s : State) (a n : Nat) : (s.clearRange a n).served = s.served := rfl
@[simp] theorem clearRange_issuing (s : State) (a n : Nat) : (s.clearRange a n).issuing = s.issuing := rfl
@[simp] theorem clearRange_agenda (s : State) (a n : Nat) : (s.clearRange a n).agenda = s.agenda := rfl
@[simp] theorem clearRange_freeTick (s : State) (a n : Nat) : (s.clearRange a n).freeTick = s.freeTick := rfl

@[simp] theorem reply_mem (s : State) (c : Call) (k st : Nat) (d : List Byte) : (s.reply c k st d).mem = s.mem := rfl
@[simp] theorem reply_watches (s : State) (c : Call) (k st : Nat) (d : List Byte) : (s.reply c k st d).watches = s.watches := rfl
@[simp] theorem reply_groups (s : State) (c : Call) (k st : Nat) (d : List Byte) : (s.reply c k st d).groups = s.groups := rfl
@[simp] theorem reply_cohorts (s : State) (c : Call) (k st : Nat) (d : List Byte) : (s.reply c k st d).cohorts = s.cohorts := rfl
@[simp] theorem reply_clusters (s : State) (c : Call) (k st : Nat) (d : List Byte) : (s.reply c k st d).clusters = s.clusters := rfl
@[simp] theorem reply_launches (s : State) (c : Call) (k st : Nat) (d : List Byte) : (s.reply c k st d).launches = s.launches := rfl
@[simp] theorem reply_contexts (s : State) (c : Call) (k st : Nat) (d : List Byte) : (s.reply c k st d).contexts = s.contexts := rfl
@[simp] theorem reply_ops (s : State) (c : Call) (k st : Nat) (d : List Byte) : (s.reply c k st d).ops = s.ops := rfl
@[simp] theorem reply_nextOp (s : State) (c : Call) (k st : Nat) (d : List Byte) : (s.reply c k st d).nextOp = s.nextOp := rfl
@[simp] theorem reply_cores (s : State) (c : Call) (k st : Nat) (d : List Byte) : (s.reply c k st d).cores = s.cores := rfl
@[simp] theorem reply_holders (s : State) (c : Call) (k st : Nat) (d : List Byte) : (s.reply c k st d).holders = s.holders := rfl
@[simp] theorem reply_dies (s : State) (c : Call) (k st : Nat) (d : List Byte) : (s.reply c k st d).dies = s.dies := rfl
@[simp] theorem reply_islands (s : State) (c : Call) (k st : Nat) (d : List Byte) : (s.reply c k st d).islands = s.islands := rfl
@[simp] theorem reply_locks (s : State) (c : Call) (k st : Nat) (d : List Byte) : (s.reply c k st d).locks = s.locks := rfl
@[simp] theorem reply_xlat (s : State) (c : Call) (k st : Nat) (d : List Byte) : (s.reply c k st d).xlat = s.xlat := rfl
@[simp] theorem reply_notices (s : State) (c : Call) (k st : Nat) (d : List Byte) : (s.reply c k st d).notices = s.notices := rfl
@[simp] theorem reply_calls (s : State) (c : Call) (k st : Nat) (d : List Byte) : (s.reply c k st d).calls = s.calls := rfl
@[simp] theorem reply_packages (s : State) (c : Call) (k st : Nat) (d : List Byte) : (s.reply c k st d).packages = s.packages := rfl
@[simp] theorem reply_linked (s : State) (c : Call) (k st : Nat) (d : List Byte) : (s.reply c k st d).linked = s.linked := rfl
@[simp] theorem reply_boots (s : State) (c : Call) (k st : Nat) (d : List Byte) : (s.reply c k st d).boots = s.boots := rfl
@[simp] theorem reply_fuses (s : State) (c : Call) (k st : Nat) (d : List Byte) : (s.reply c k st d).fuses = s.fuses := rfl
@[simp] theorem reply_firmware (s : State) (c : Call) (k st : Nat) (d : List Byte) : (s.reply c k st d).firmware = s.firmware := rfl
@[simp] theorem reply_services (s : State) (c : Call) (k st : Nat) (d : List Byte) : (s.reply c k st d).services = s.services := rfl
@[simp] theorem reply_origins (s : State) (c : Call) (k st : Nat) (d : List Byte) : (s.reply c k st d).origins = s.origins := rfl
@[simp] theorem reply_timebase (s : State) (c : Call) (k st : Nat) (d : List Byte) : (s.reply c k st d).timebase = s.timebase := rfl
@[simp] theorem reply_cycle (s : State) (c : Call) (k st : Nat) (d : List Byte) : (s.reply c k st d).cycle = s.cycle := rfl
@[simp] theorem reply_booted (s : State) (c : Call) (k st : Nat) (d : List Byte) : (s.reply c k st d).booted = s.booted := rfl
@[simp] theorem reply_stopped (s : State) (c : Call) (k st : Nat) (d : List Byte) : (s.reply c k st d).stopped = s.stopped := rfl
@[simp] theorem reply_expanders (s : State) (c : Call) (k st : Nat) (d : List Byte) : (s.reply c k st d).expanders = s.expanders := rfl
@[simp] theorem reply_corrected (s : State) (c : Call) (k st : Nat) (d : List Byte) : (s.reply c k st d).corrected = s.corrected := rfl
@[simp] theorem reply_served (s : State) (c : Call) (k st : Nat) (d : List Byte) : (s.reply c k st d).served = s.served := rfl
@[simp] theorem reply_issuing (s : State) (c : Call) (k st : Nat) (d : List Byte) : (s.reply c k st d).issuing = s.issuing := rfl
@[simp] theorem reply_agenda (s : State) (c : Call) (k st : Nat) (d : List Byte) : (s.reply c k st d).agenda = s.agenda := rfl
@[simp] theorem reply_freeTick (s : State) (c : Call) (k st : Nat) (d : List Byte) : (s.reply c k st d).freeTick = s.freeTick := rfl

@[simp] theorem addOp_mem (s : State) (o : Op) : (s.addOp o).mem = s.mem := rfl
@[simp] theorem addOp_watches (s : State) (o : Op) : (s.addOp o).watches = s.watches := rfl
@[simp] theorem addOp_groups (s : State) (o : Op) : (s.addOp o).groups = s.groups := rfl
@[simp] theorem addOp_cohorts (s : State) (o : Op) : (s.addOp o).cohorts = s.cohorts := rfl
@[simp] theorem addOp_clusters (s : State) (o : Op) : (s.addOp o).clusters = s.clusters := rfl
@[simp] theorem addOp_launches (s : State) (o : Op) : (s.addOp o).launches = s.launches := rfl
@[simp] theorem addOp_contexts (s : State) (o : Op) : (s.addOp o).contexts = s.contexts := rfl
@[simp] theorem addOp_cores (s : State) (o : Op) : (s.addOp o).cores = s.cores := rfl
@[simp] theorem addOp_holders (s : State) (o : Op) : (s.addOp o).holders = s.holders := rfl
@[simp] theorem addOp_dies (s : State) (o : Op) : (s.addOp o).dies = s.dies := rfl
@[simp] theorem addOp_islands (s : State) (o : Op) : (s.addOp o).islands = s.islands := rfl
@[simp] theorem addOp_locks (s : State) (o : Op) : (s.addOp o).locks = s.locks := rfl
@[simp] theorem addOp_xlat (s : State) (o : Op) : (s.addOp o).xlat = s.xlat := rfl
@[simp] theorem addOp_replies (s : State) (o : Op) : (s.addOp o).replies = s.replies := rfl
@[simp] theorem addOp_notices (s : State) (o : Op) : (s.addOp o).notices = s.notices := rfl
@[simp] theorem addOp_calls (s : State) (o : Op) : (s.addOp o).calls = s.calls := rfl
@[simp] theorem addOp_packages (s : State) (o : Op) : (s.addOp o).packages = s.packages := rfl
@[simp] theorem addOp_linked (s : State) (o : Op) : (s.addOp o).linked = s.linked := rfl
@[simp] theorem addOp_boots (s : State) (o : Op) : (s.addOp o).boots = s.boots := rfl
@[simp] theorem addOp_fuses (s : State) (o : Op) : (s.addOp o).fuses = s.fuses := rfl
@[simp] theorem addOp_firmware (s : State) (o : Op) : (s.addOp o).firmware = s.firmware := rfl
@[simp] theorem addOp_services (s : State) (o : Op) : (s.addOp o).services = s.services := rfl
@[simp] theorem addOp_origins (s : State) (o : Op) : (s.addOp o).origins = s.origins := rfl
@[simp] theorem addOp_timebase (s : State) (o : Op) : (s.addOp o).timebase = s.timebase := rfl
@[simp] theorem addOp_cycle (s : State) (o : Op) : (s.addOp o).cycle = s.cycle := rfl
@[simp] theorem addOp_booted (s : State) (o : Op) : (s.addOp o).booted = s.booted := rfl
@[simp] theorem addOp_stopped (s : State) (o : Op) : (s.addOp o).stopped = s.stopped := rfl
@[simp] theorem addOp_expanders (s : State) (o : Op) : (s.addOp o).expanders = s.expanders := rfl
@[simp] theorem addOp_corrected (s : State) (o : Op) : (s.addOp o).corrected = s.corrected := rfl
@[simp] theorem addOp_served (s : State) (o : Op) : (s.addOp o).served = s.served := rfl
@[simp] theorem addOp_issuing (s : State) (o : Op) : (s.addOp o).issuing = s.issuing := rfl
@[simp] theorem addOp_agenda (s : State) (o : Op) : (s.addOp o).agenda = s.agenda := rfl
@[simp] theorem addOp_freeTick (s : State) (o : Op) : (s.addOp o).freeTick = s.freeTick := rfl
@[simp] theorem addOp_ops (s : State) (o : Op) : (s.addOp o).ops = s.ops.put s.nextOp o := rfl
@[simp] theorem addOp_nextOp (s : State) (o : Op) : (s.addOp o).nextOp = s.nextOp + 1 := rfl

/-! ## Lookups -/

theorem group_modGroup (s : State) (k n : Nat) (f : Group → Group) :
    (s.modGroup k f).group? n = if n = k then (s.group? k).map f else s.group? n := Tbl.get?_adjust _ _ _ _
theorem cohort_modCohort (s : State) (k n : Nat) (f : Cohort → Cohort) :
    (s.modCohort k f).cohort? n = if n = k then (s.cohort? k).map f else s.cohort? n := Tbl.get?_adjust _ _ _ _
theorem cluster_modCluster (s : State) (k n : Nat) (f : Cluster → Cluster) :
    (s.modCluster k f).cluster? n = if n = k then (s.cluster? k).map f else s.cluster? n := Tbl.get?_adjust _ _ _ _
theorem launch_modLaunch (s : State) (k n : Nat) (f : Launch → Launch) :
    (s.modLaunch k f).launch? n = if n = k then (s.launch? k).map f else s.launch? n := Tbl.get?_adjust _ _ _ _
theorem context_modContext (s : State) (k n : Nat) (f : Context → Context) :
    (s.modContext k f).context? n = if n = k then (s.context? k).map f else s.context? n := Tbl.get?_adjust _ _ _ _
theorem op_modOp (s : State) (k n : Nat) (f : Op → Op) :
    (s.modOp k f).op? n = if n = k then (s.op? k).map f else s.op? n := Tbl.get?_adjust _ _ _ _

theorem op_addOp (s : State) (n : Nat) (o : Op) : (s.addOp o).op? n = if n = s.nextOp then some o else s.op? n :=
  Tbl.get?_put _ _ _ _
theorem op_dropOp (s : State) (o n : Nat) : (s.dropOp o).op? n = if n = o then none else s.op? n := Tbl.get?_erase _ _ _
theorem core_setCore (s : State) (c n : Nat) (k : Core) : (s.setCore c k).core n = if n = c then k else s.core n :=
  Tbl.read_put _ _ _ _ _
theorem core_modCore (s : State) (c n : Nat) (f : Core → Core) :
    (s.modCore c f).core n = if n = c then f (s.core c) else s.core n := Tbl.read_put _ _ _ _ _
theorem die_setDie (s : State) (d n : Nat) (k : Die) : (s.setDie d k).die n = if n = d then k else s.die n :=
  Tbl.read_put _ _ _ _ _
theorem island_setIsland (s : State) (i n : Nat) (k : Island) :
    (s.setIsland i k).island n = if n = i then k else s.island n := by
  by_cases h : n = i
  · subst h; simp [island, setIsland, Tbl.read]
  · simp [island, setIsland, Tbl.read, Tbl.get?_put, h]; rfl

/-- A change of a group that exists puts the changed group. -/
theorem modGroup_of_group {s : State} {k : Nat} {g : Group} (f : Group → Group) (h : s.group? k = some g) :
    s.modGroup k f = { s with groups := s.groups.put k (f g) } := by
  simp only [modGroup, Tbl.adjust_of_get? f h]

/-- Two changes of one group are one. -/
theorem modGroup_modGroup (s : State) (k : Nat) (f h : Group → Group) :
    (s.modGroup k f).modGroup k h = s.modGroup k fun g => h (f g) := by
  cases hg : s.group? k with
  | none =>
    have hg' : s.groups.get? k = none := hg
    simp [modGroup, Tbl.adjust, hg']
  | some g =>
    have hg' : s.groups.get? k = some g := hg
    simp [modGroup, Tbl.adjust, hg', Tbl.put_put]

end State

/-! ## Groups -/

namespace Group

@[simp] theorem wrS_ctx (g : Group) (n : SReg) (v : Word64) : (g.wrS n v).ctx = g.ctx := rfl
@[simp] theorem wrS_launch (g : Group) (n : SReg) (v : Word64) : (g.wrS n v).launch = g.launch := rfl
@[simp] theorem wrS_cohort (g : Group) (n : SReg) (v : Word64) : (g.wrS n v).cohort = g.cohort := rfl
@[simp] theorem wrS_index (g : Group) (n : SReg) (v : Word64) : (g.wrS n v).index = g.index := rfl
@[simp] theorem wrS_role (g : Group) (n : SReg) (v : Word64) : (g.wrS n v).role = g.role := rfl
@[simp] theorem wrS_name (g : Group) (n : SReg) (v : Word64) : (g.wrS n v).name = g.name := rfl
@[simp] theorem wrS_phase (g : Group) (n : SReg) (v : Word64) : (g.wrS n v).phase = g.phase := rfl
@[simp] theorem wrS_core (g : Group) (n : SReg) (v : Word64) : (g.wrS n v).core = g.core := rfl
@[simp] theorem wrS_sched (g : Group) (n : SReg) (v : Word64) : (g.wrS n v).sched = g.sched := rfl
@[simp] theorem wrS_slot (g : Group) (n : SReg) (v : Word64) : (g.wrS n v).slot = g.slot := rfl
@[simp] theorem wrS_age (g : Group) (n : SReg) (v : Word64) : (g.wrS n v).age = g.age := rfl
@[simp] theorem wrS_lastIssue (g : Group) (n : SReg) (v : Word64) : (g.wrS n v).lastIssue = g.lastIssue := rfl
@[simp] theorem wrS_readyFrom (g : Group) (n : SReg) (v : Word64) : (g.wrS n v).readyFrom = g.readyFrom := rfl
@[simp] theorem wrS_urgent (g : Group) (n : SReg) (v : Word64) : (g.wrS n v).urgent = g.urgent := rfl
@[simp] theorem wrS_stallFrom (g : Group) (n : SReg) (v : Word64) : (g.wrS n v).stallFrom = g.stallFrom := rfl
@[simp] theorem wrS_favour (g : Group) (n : SReg) (v : Word64) : (g.wrS n v).favour = g.favour := rfl
@[simp] theorem wrS_fresh (g : Group) (n : SReg) (v : Word64) : (g.wrS n v).fresh = g.fresh := rfl
@[simp] theorem wrS_budget (g : Group) (n : SReg) (v : Word64) : (g.wrS n v).budget = g.budget := rfl
@[simp] theorem wrS_stack (g : Group) (n : SReg) (v : Word64) : (g.wrS n v).stack = g.stack := rfl
@[simp] theorem wrS_v (g : Group) (n : SReg) (v : Word64) : (g.wrS n v).v = g.v := rfl
@[simp] theorem wrS_p (g : Group) (n : SReg) (v : Word64) : (g.wrS n v).p = g.p := rfl
@[simp] theorem wrS_sp (g : Group) (n : SReg) (v : Word64) : (g.wrS n v).sp = g.sp := rfl
@[simp] theorem wrS_x (g : Group) (n : SReg) (v : Word64) : (g.wrS n v).x = g.x := rfl
@[simp] theorem wrS_sys (g : Group) (n : SReg) (v : Word64) : (g.wrS n v).sys = g.sys := rfl
@[simp] theorem wrS_fibres (g : Group) (n : SReg) (v : Word64) : (g.wrS n v).fibres = g.fibres := rfl
@[simp] theorem wrS_pending (g : Group) (n : SReg) (v : Word64) : (g.wrS n v).pending = g.pending := rfl
@[simp] theorem wrS_late (g : Group) (n : SReg) (v : Word64) : (g.wrS n v).late = g.late := rfl
@[simp] theorem wrS_deposits (g : Group) (n : SReg) (v : Word64) : (g.wrS n v).deposits = g.deposits := rfl
@[simp] theorem wrS_held (g : Group) (n : SReg) (v : Word64) : (g.wrS n v).held = g.held := rfl
@[simp] theorem wrS_map (g : Group) (n : SReg) (v : Word64) : (g.wrS n v).map = g.map := rfl
@[simp] theorem wrS_evictable (g : Group) (n : SReg) (v : Word64) : (g.wrS n v).evictable = g.evictable := rfl
@[simp] theorem wrS_part (g : Group) (n : SReg) (v : Word64) : (g.wrS n v).part = g.part := rfl
@[simp] theorem wrS_exit (g : Group) (n : SReg) (v : Word64) : (g.wrS n v).exit = g.exit := rfl
@[simp] theorem wrS_cause (g : Group) (n : SReg) (v : Word64) : (g.wrS n v).cause = g.cause := rfl
@[simp] theorem wrS_image (g : Group) (n : SReg) (v : Word64) : (g.wrS n v).image = g.image := rfl

@[simp] theorem wrV_ctx (g : Group) (n : Nat) (v : Lanes 32) : (g.wrV n v).ctx = g.ctx := rfl
@[simp] theorem wrV_launch (g : Group) (n : Nat) (v : Lanes 32) : (g.wrV n v).launch = g.launch := rfl
@[simp] theorem wrV_cohort (g : Group) (n : Nat) (v : Lanes 32) : (g.wrV n v).cohort = g.cohort := rfl
@[simp] theorem wrV_index (g : Group) (n : Nat) (v : Lanes 32) : (g.wrV n v).index = g.index := rfl
@[simp] theorem wrV_role (g : Group) (n : Nat) (v : Lanes 32) : (g.wrV n v).role = g.role := rfl
@[simp] theorem wrV_name (g : Group) (n : Nat) (v : Lanes 32) : (g.wrV n v).name = g.name := rfl
@[simp] theorem wrV_phase (g : Group) (n : Nat) (v : Lanes 32) : (g.wrV n v).phase = g.phase := rfl
@[simp] theorem wrV_core (g : Group) (n : Nat) (v : Lanes 32) : (g.wrV n v).core = g.core := rfl
@[simp] theorem wrV_sched (g : Group) (n : Nat) (v : Lanes 32) : (g.wrV n v).sched = g.sched := rfl
@[simp] theorem wrV_slot (g : Group) (n : Nat) (v : Lanes 32) : (g.wrV n v).slot = g.slot := rfl
@[simp] theorem wrV_age (g : Group) (n : Nat) (v : Lanes 32) : (g.wrV n v).age = g.age := rfl
@[simp] theorem wrV_lastIssue (g : Group) (n : Nat) (v : Lanes 32) : (g.wrV n v).lastIssue = g.lastIssue := rfl
@[simp] theorem wrV_readyFrom (g : Group) (n : Nat) (v : Lanes 32) : (g.wrV n v).readyFrom = g.readyFrom := rfl
@[simp] theorem wrV_urgent (g : Group) (n : Nat) (v : Lanes 32) : (g.wrV n v).urgent = g.urgent := rfl
@[simp] theorem wrV_stallFrom (g : Group) (n : Nat) (v : Lanes 32) : (g.wrV n v).stallFrom = g.stallFrom := rfl
@[simp] theorem wrV_favour (g : Group) (n : Nat) (v : Lanes 32) : (g.wrV n v).favour = g.favour := rfl
@[simp] theorem wrV_fresh (g : Group) (n : Nat) (v : Lanes 32) : (g.wrV n v).fresh = g.fresh := rfl
@[simp] theorem wrV_budget (g : Group) (n : Nat) (v : Lanes 32) : (g.wrV n v).budget = g.budget := rfl
@[simp] theorem wrV_stack (g : Group) (n : Nat) (v : Lanes 32) : (g.wrV n v).stack = g.stack := rfl
@[simp] theorem wrV_s (g : Group) (n : Nat) (v : Lanes 32) : (g.wrV n v).s = g.s := rfl
@[simp] theorem wrV_p (g : Group) (n : Nat) (v : Lanes 32) : (g.wrV n v).p = g.p := rfl
@[simp] theorem wrV_sp (g : Group) (n : Nat) (v : Lanes 32) : (g.wrV n v).sp = g.sp := rfl
@[simp] theorem wrV_x (g : Group) (n : Nat) (v : Lanes 32) : (g.wrV n v).x = g.x := rfl
@[simp] theorem wrV_sys (g : Group) (n : Nat) (v : Lanes 32) : (g.wrV n v).sys = g.sys := rfl
@[simp] theorem wrV_fibres (g : Group) (n : Nat) (v : Lanes 32) : (g.wrV n v).fibres = g.fibres := rfl
@[simp] theorem wrV_pending (g : Group) (n : Nat) (v : Lanes 32) : (g.wrV n v).pending = g.pending := rfl
@[simp] theorem wrV_late (g : Group) (n : Nat) (v : Lanes 32) : (g.wrV n v).late = g.late := rfl
@[simp] theorem wrV_deposits (g : Group) (n : Nat) (v : Lanes 32) : (g.wrV n v).deposits = g.deposits := rfl
@[simp] theorem wrV_held (g : Group) (n : Nat) (v : Lanes 32) : (g.wrV n v).held = g.held := rfl
@[simp] theorem wrV_map (g : Group) (n : Nat) (v : Lanes 32) : (g.wrV n v).map = g.map := rfl
@[simp] theorem wrV_evictable (g : Group) (n : Nat) (v : Lanes 32) : (g.wrV n v).evictable = g.evictable := rfl
@[simp] theorem wrV_part (g : Group) (n : Nat) (v : Lanes 32) : (g.wrV n v).part = g.part := rfl
@[simp] theorem wrV_exit (g : Group) (n : Nat) (v : Lanes 32) : (g.wrV n v).exit = g.exit := rfl
@[simp] theorem wrV_cause (g : Group) (n : Nat) (v : Lanes 32) : (g.wrV n v).cause = g.cause := rfl
@[simp] theorem wrV_image (g : Group) (n : Nat) (v : Lanes 32) : (g.wrV n v).image = g.image := rfl

@[simp] theorem wrP_ctx (g : Group) (n : PReg) (v : BitVec 32) : (g.wrP n v).ctx = g.ctx := rfl
@[simp] theorem wrP_launch (g : Group) (n : PReg) (v : BitVec 32) : (g.wrP n v).launch = g.launch := rfl
@[simp] theorem wrP_cohort (g : Group) (n : PReg) (v : BitVec 32) : (g.wrP n v).cohort = g.cohort := rfl
@[simp] theorem wrP_index (g : Group) (n : PReg) (v : BitVec 32) : (g.wrP n v).index = g.index := rfl
@[simp] theorem wrP_role (g : Group) (n : PReg) (v : BitVec 32) : (g.wrP n v).role = g.role := rfl
@[simp] theorem wrP_name (g : Group) (n : PReg) (v : BitVec 32) : (g.wrP n v).name = g.name := rfl
@[simp] theorem wrP_phase (g : Group) (n : PReg) (v : BitVec 32) : (g.wrP n v).phase = g.phase := rfl
@[simp] theorem wrP_core (g : Group) (n : PReg) (v : BitVec 32) : (g.wrP n v).core = g.core := rfl
@[simp] theorem wrP_sched (g : Group) (n : PReg) (v : BitVec 32) : (g.wrP n v).sched = g.sched := rfl
@[simp] theorem wrP_slot (g : Group) (n : PReg) (v : BitVec 32) : (g.wrP n v).slot = g.slot := rfl
@[simp] theorem wrP_age (g : Group) (n : PReg) (v : BitVec 32) : (g.wrP n v).age = g.age := rfl
@[simp] theorem wrP_lastIssue (g : Group) (n : PReg) (v : BitVec 32) : (g.wrP n v).lastIssue = g.lastIssue := rfl
@[simp] theorem wrP_readyFrom (g : Group) (n : PReg) (v : BitVec 32) : (g.wrP n v).readyFrom = g.readyFrom := rfl
@[simp] theorem wrP_urgent (g : Group) (n : PReg) (v : BitVec 32) : (g.wrP n v).urgent = g.urgent := rfl
@[simp] theorem wrP_stallFrom (g : Group) (n : PReg) (v : BitVec 32) : (g.wrP n v).stallFrom = g.stallFrom := rfl
@[simp] theorem wrP_favour (g : Group) (n : PReg) (v : BitVec 32) : (g.wrP n v).favour = g.favour := rfl
@[simp] theorem wrP_fresh (g : Group) (n : PReg) (v : BitVec 32) : (g.wrP n v).fresh = g.fresh := rfl
@[simp] theorem wrP_budget (g : Group) (n : PReg) (v : BitVec 32) : (g.wrP n v).budget = g.budget := rfl
@[simp] theorem wrP_stack (g : Group) (n : PReg) (v : BitVec 32) : (g.wrP n v).stack = g.stack := rfl
@[simp] theorem wrP_s (g : Group) (n : PReg) (v : BitVec 32) : (g.wrP n v).s = g.s := rfl
@[simp] theorem wrP_v (g : Group) (n : PReg) (v : BitVec 32) : (g.wrP n v).v = g.v := rfl
@[simp] theorem wrP_sp (g : Group) (n : PReg) (v : BitVec 32) : (g.wrP n v).sp = g.sp := rfl
@[simp] theorem wrP_x (g : Group) (n : PReg) (v : BitVec 32) : (g.wrP n v).x = g.x := rfl
@[simp] theorem wrP_sys (g : Group) (n : PReg) (v : BitVec 32) : (g.wrP n v).sys = g.sys := rfl
@[simp] theorem wrP_fibres (g : Group) (n : PReg) (v : BitVec 32) : (g.wrP n v).fibres = g.fibres := rfl
@[simp] theorem wrP_pending (g : Group) (n : PReg) (v : BitVec 32) : (g.wrP n v).pending = g.pending := rfl
@[simp] theorem wrP_late (g : Group) (n : PReg) (v : BitVec 32) : (g.wrP n v).late = g.late := rfl
@[simp] theorem wrP_deposits (g : Group) (n : PReg) (v : BitVec 32) : (g.wrP n v).deposits = g.deposits := rfl
@[simp] theorem wrP_held (g : Group) (n : PReg) (v : BitVec 32) : (g.wrP n v).held = g.held := rfl
@[simp] theorem wrP_map (g : Group) (n : PReg) (v : BitVec 32) : (g.wrP n v).map = g.map := rfl
@[simp] theorem wrP_evictable (g : Group) (n : PReg) (v : BitVec 32) : (g.wrP n v).evictable = g.evictable := rfl
@[simp] theorem wrP_part (g : Group) (n : PReg) (v : BitVec 32) : (g.wrP n v).part = g.part := rfl
@[simp] theorem wrP_exit (g : Group) (n : PReg) (v : BitVec 32) : (g.wrP n v).exit = g.exit := rfl
@[simp] theorem wrP_cause (g : Group) (n : PReg) (v : BitVec 32) : (g.wrP n v).cause = g.cause := rfl
@[simp] theorem wrP_image (g : Group) (n : PReg) (v : BitVec 32) : (g.wrP n v).image = g.image := rfl

@[simp] theorem wrSp_ctx (g : Group) (k : UPred) (b : Bool) : (g.wrSp k b).ctx = g.ctx := rfl
@[simp] theorem wrSp_launch (g : Group) (k : UPred) (b : Bool) : (g.wrSp k b).launch = g.launch := rfl
@[simp] theorem wrSp_cohort (g : Group) (k : UPred) (b : Bool) : (g.wrSp k b).cohort = g.cohort := rfl
@[simp] theorem wrSp_index (g : Group) (k : UPred) (b : Bool) : (g.wrSp k b).index = g.index := rfl
@[simp] theorem wrSp_role (g : Group) (k : UPred) (b : Bool) : (g.wrSp k b).role = g.role := rfl
@[simp] theorem wrSp_name (g : Group) (k : UPred) (b : Bool) : (g.wrSp k b).name = g.name := rfl
@[simp] theorem wrSp_phase (g : Group) (k : UPred) (b : Bool) : (g.wrSp k b).phase = g.phase := rfl
@[simp] theorem wrSp_core (g : Group) (k : UPred) (b : Bool) : (g.wrSp k b).core = g.core := rfl
@[simp] theorem wrSp_sched (g : Group) (k : UPred) (b : Bool) : (g.wrSp k b).sched = g.sched := rfl
@[simp] theorem wrSp_slot (g : Group) (k : UPred) (b : Bool) : (g.wrSp k b).slot = g.slot := rfl
@[simp] theorem wrSp_age (g : Group) (k : UPred) (b : Bool) : (g.wrSp k b).age = g.age := rfl
@[simp] theorem wrSp_lastIssue (g : Group) (k : UPred) (b : Bool) : (g.wrSp k b).lastIssue = g.lastIssue := rfl
@[simp] theorem wrSp_readyFrom (g : Group) (k : UPred) (b : Bool) : (g.wrSp k b).readyFrom = g.readyFrom := rfl
@[simp] theorem wrSp_urgent (g : Group) (k : UPred) (b : Bool) : (g.wrSp k b).urgent = g.urgent := rfl
@[simp] theorem wrSp_stallFrom (g : Group) (k : UPred) (b : Bool) : (g.wrSp k b).stallFrom = g.stallFrom := rfl
@[simp] theorem wrSp_favour (g : Group) (k : UPred) (b : Bool) : (g.wrSp k b).favour = g.favour := rfl
@[simp] theorem wrSp_fresh (g : Group) (k : UPred) (b : Bool) : (g.wrSp k b).fresh = g.fresh := rfl
@[simp] theorem wrSp_budget (g : Group) (k : UPred) (b : Bool) : (g.wrSp k b).budget = g.budget := rfl
@[simp] theorem wrSp_stack (g : Group) (k : UPred) (b : Bool) : (g.wrSp k b).stack = g.stack := rfl
@[simp] theorem wrSp_s (g : Group) (k : UPred) (b : Bool) : (g.wrSp k b).s = g.s := rfl
@[simp] theorem wrSp_v (g : Group) (k : UPred) (b : Bool) : (g.wrSp k b).v = g.v := rfl
@[simp] theorem wrSp_p (g : Group) (k : UPred) (b : Bool) : (g.wrSp k b).p = g.p := rfl
@[simp] theorem wrSp_x (g : Group) (k : UPred) (b : Bool) : (g.wrSp k b).x = g.x := rfl
@[simp] theorem wrSp_sys (g : Group) (k : UPred) (b : Bool) : (g.wrSp k b).sys = g.sys := rfl
@[simp] theorem wrSp_fibres (g : Group) (k : UPred) (b : Bool) : (g.wrSp k b).fibres = g.fibres := rfl
@[simp] theorem wrSp_pending (g : Group) (k : UPred) (b : Bool) : (g.wrSp k b).pending = g.pending := rfl
@[simp] theorem wrSp_late (g : Group) (k : UPred) (b : Bool) : (g.wrSp k b).late = g.late := rfl
@[simp] theorem wrSp_deposits (g : Group) (k : UPred) (b : Bool) : (g.wrSp k b).deposits = g.deposits := rfl
@[simp] theorem wrSp_held (g : Group) (k : UPred) (b : Bool) : (g.wrSp k b).held = g.held := rfl
@[simp] theorem wrSp_map (g : Group) (k : UPred) (b : Bool) : (g.wrSp k b).map = g.map := rfl
@[simp] theorem wrSp_evictable (g : Group) (k : UPred) (b : Bool) : (g.wrSp k b).evictable = g.evictable := rfl
@[simp] theorem wrSp_part (g : Group) (k : UPred) (b : Bool) : (g.wrSp k b).part = g.part := rfl
@[simp] theorem wrSp_exit (g : Group) (k : UPred) (b : Bool) : (g.wrSp k b).exit = g.exit := rfl
@[simp] theorem wrSp_cause (g : Group) (k : UPred) (b : Bool) : (g.wrSp k b).cause = g.cause := rfl
@[simp] theorem wrSp_image (g : Group) (k : UPred) (b : Bool) : (g.wrSp k b).image = g.image := rfl

@[simp] theorem wrX_ctx (g : Group) (n : XReg) (v : Lanes 16) : (g.wrX n v).ctx = g.ctx := rfl
@[simp] theorem wrX_launch (g : Group) (n : XReg) (v : Lanes 16) : (g.wrX n v).launch = g.launch := rfl
@[simp] theorem wrX_cohort (g : Group) (n : XReg) (v : Lanes 16) : (g.wrX n v).cohort = g.cohort := rfl
@[simp] theorem wrX_index (g : Group) (n : XReg) (v : Lanes 16) : (g.wrX n v).index = g.index := rfl
@[simp] theorem wrX_role (g : Group) (n : XReg) (v : Lanes 16) : (g.wrX n v).role = g.role := rfl
@[simp] theorem wrX_name (g : Group) (n : XReg) (v : Lanes 16) : (g.wrX n v).name = g.name := rfl
@[simp] theorem wrX_phase (g : Group) (n : XReg) (v : Lanes 16) : (g.wrX n v).phase = g.phase := rfl
@[simp] theorem wrX_core (g : Group) (n : XReg) (v : Lanes 16) : (g.wrX n v).core = g.core := rfl
@[simp] theorem wrX_sched (g : Group) (n : XReg) (v : Lanes 16) : (g.wrX n v).sched = g.sched := rfl
@[simp] theorem wrX_slot (g : Group) (n : XReg) (v : Lanes 16) : (g.wrX n v).slot = g.slot := rfl
@[simp] theorem wrX_age (g : Group) (n : XReg) (v : Lanes 16) : (g.wrX n v).age = g.age := rfl
@[simp] theorem wrX_lastIssue (g : Group) (n : XReg) (v : Lanes 16) : (g.wrX n v).lastIssue = g.lastIssue := rfl
@[simp] theorem wrX_readyFrom (g : Group) (n : XReg) (v : Lanes 16) : (g.wrX n v).readyFrom = g.readyFrom := rfl
@[simp] theorem wrX_urgent (g : Group) (n : XReg) (v : Lanes 16) : (g.wrX n v).urgent = g.urgent := rfl
@[simp] theorem wrX_stallFrom (g : Group) (n : XReg) (v : Lanes 16) : (g.wrX n v).stallFrom = g.stallFrom := rfl
@[simp] theorem wrX_favour (g : Group) (n : XReg) (v : Lanes 16) : (g.wrX n v).favour = g.favour := rfl
@[simp] theorem wrX_fresh (g : Group) (n : XReg) (v : Lanes 16) : (g.wrX n v).fresh = g.fresh := rfl
@[simp] theorem wrX_budget (g : Group) (n : XReg) (v : Lanes 16) : (g.wrX n v).budget = g.budget := rfl
@[simp] theorem wrX_stack (g : Group) (n : XReg) (v : Lanes 16) : (g.wrX n v).stack = g.stack := rfl
@[simp] theorem wrX_s (g : Group) (n : XReg) (v : Lanes 16) : (g.wrX n v).s = g.s := rfl
@[simp] theorem wrX_v (g : Group) (n : XReg) (v : Lanes 16) : (g.wrX n v).v = g.v := rfl
@[simp] theorem wrX_p (g : Group) (n : XReg) (v : Lanes 16) : (g.wrX n v).p = g.p := rfl
@[simp] theorem wrX_sp (g : Group) (n : XReg) (v : Lanes 16) : (g.wrX n v).sp = g.sp := rfl
@[simp] theorem wrX_sys (g : Group) (n : XReg) (v : Lanes 16) : (g.wrX n v).sys = g.sys := rfl
@[simp] theorem wrX_fibres (g : Group) (n : XReg) (v : Lanes 16) : (g.wrX n v).fibres = g.fibres := rfl
@[simp] theorem wrX_pending (g : Group) (n : XReg) (v : Lanes 16) : (g.wrX n v).pending = g.pending := rfl
@[simp] theorem wrX_late (g : Group) (n : XReg) (v : Lanes 16) : (g.wrX n v).late = g.late := rfl
@[simp] theorem wrX_deposits (g : Group) (n : XReg) (v : Lanes 16) : (g.wrX n v).deposits = g.deposits := rfl
@[simp] theorem wrX_held (g : Group) (n : XReg) (v : Lanes 16) : (g.wrX n v).held = g.held := rfl
@[simp] theorem wrX_map (g : Group) (n : XReg) (v : Lanes 16) : (g.wrX n v).map = g.map := rfl
@[simp] theorem wrX_evictable (g : Group) (n : XReg) (v : Lanes 16) : (g.wrX n v).evictable = g.evictable := rfl
@[simp] theorem wrX_part (g : Group) (n : XReg) (v : Lanes 16) : (g.wrX n v).part = g.part := rfl
@[simp] theorem wrX_exit (g : Group) (n : XReg) (v : Lanes 16) : (g.wrX n v).exit = g.exit := rfl
@[simp] theorem wrX_cause (g : Group) (n : XReg) (v : Lanes 16) : (g.wrX n v).cause = g.cause := rfl
@[simp] theorem wrX_image (g : Group) (n : XReg) (v : Lanes 16) : (g.wrX n v).image = g.image := rfl

@[simp] theorem orFlags_ctx (g : Group) (fl : Nat) : (g.orFlags fl).ctx = g.ctx := rfl
@[simp] theorem orFlags_launch (g : Group) (fl : Nat) : (g.orFlags fl).launch = g.launch := rfl
@[simp] theorem orFlags_cohort (g : Group) (fl : Nat) : (g.orFlags fl).cohort = g.cohort := rfl
@[simp] theorem orFlags_index (g : Group) (fl : Nat) : (g.orFlags fl).index = g.index := rfl
@[simp] theorem orFlags_role (g : Group) (fl : Nat) : (g.orFlags fl).role = g.role := rfl
@[simp] theorem orFlags_name (g : Group) (fl : Nat) : (g.orFlags fl).name = g.name := rfl
@[simp] theorem orFlags_phase (g : Group) (fl : Nat) : (g.orFlags fl).phase = g.phase := rfl
@[simp] theorem orFlags_core (g : Group) (fl : Nat) : (g.orFlags fl).core = g.core := rfl
@[simp] theorem orFlags_sched (g : Group) (fl : Nat) : (g.orFlags fl).sched = g.sched := rfl
@[simp] theorem orFlags_slot (g : Group) (fl : Nat) : (g.orFlags fl).slot = g.slot := rfl
@[simp] theorem orFlags_age (g : Group) (fl : Nat) : (g.orFlags fl).age = g.age := rfl
@[simp] theorem orFlags_lastIssue (g : Group) (fl : Nat) : (g.orFlags fl).lastIssue = g.lastIssue := rfl
@[simp] theorem orFlags_readyFrom (g : Group) (fl : Nat) : (g.orFlags fl).readyFrom = g.readyFrom := rfl
@[simp] theorem orFlags_urgent (g : Group) (fl : Nat) : (g.orFlags fl).urgent = g.urgent := rfl
@[simp] theorem orFlags_stallFrom (g : Group) (fl : Nat) : (g.orFlags fl).stallFrom = g.stallFrom := rfl
@[simp] theorem orFlags_favour (g : Group) (fl : Nat) : (g.orFlags fl).favour = g.favour := rfl
@[simp] theorem orFlags_fresh (g : Group) (fl : Nat) : (g.orFlags fl).fresh = g.fresh := rfl
@[simp] theorem orFlags_budget (g : Group) (fl : Nat) : (g.orFlags fl).budget = g.budget := rfl
@[simp] theorem orFlags_stack (g : Group) (fl : Nat) : (g.orFlags fl).stack = g.stack := rfl
@[simp] theorem orFlags_s (g : Group) (fl : Nat) : (g.orFlags fl).s = g.s := rfl
@[simp] theorem orFlags_v (g : Group) (fl : Nat) : (g.orFlags fl).v = g.v := rfl
@[simp] theorem orFlags_p (g : Group) (fl : Nat) : (g.orFlags fl).p = g.p := rfl
@[simp] theorem orFlags_sp (g : Group) (fl : Nat) : (g.orFlags fl).sp = g.sp := rfl
@[simp] theorem orFlags_x (g : Group) (fl : Nat) : (g.orFlags fl).x = g.x := rfl
@[simp] theorem orFlags_fibres (g : Group) (fl : Nat) : (g.orFlags fl).fibres = g.fibres := rfl
@[simp] theorem orFlags_pending (g : Group) (fl : Nat) : (g.orFlags fl).pending = g.pending := rfl
@[simp] theorem orFlags_late (g : Group) (fl : Nat) : (g.orFlags fl).late = g.late := rfl
@[simp] theorem orFlags_deposits (g : Group) (fl : Nat) : (g.orFlags fl).deposits = g.deposits := rfl
@[simp] theorem orFlags_held (g : Group) (fl : Nat) : (g.orFlags fl).held = g.held := rfl
@[simp] theorem orFlags_map (g : Group) (fl : Nat) : (g.orFlags fl).map = g.map := rfl
@[simp] theorem orFlags_evictable (g : Group) (fl : Nat) : (g.orFlags fl).evictable = g.evictable := rfl
@[simp] theorem orFlags_part (g : Group) (fl : Nat) : (g.orFlags fl).part = g.part := rfl
@[simp] theorem orFlags_exit (g : Group) (fl : Nat) : (g.orFlags fl).exit = g.exit := rfl
@[simp] theorem orFlags_cause (g : Group) (fl : Nat) : (g.orFlags fl).cause = g.cause := rfl
@[simp] theorem orFlags_image (g : Group) (fl : Nat) : (g.orFlags fl).image = g.image := rfl

@[simp] theorem onFibres_ctx (g : Group) (m : BitVec 32) (h : Fibre → Fibre) : (g.onFibres m h).ctx = g.ctx := rfl
@[simp] theorem onFibres_launch (g : Group) (m : BitVec 32) (h : Fibre → Fibre) : (g.onFibres m h).launch = g.launch := rfl
@[simp] theorem onFibres_cohort (g : Group) (m : BitVec 32) (h : Fibre → Fibre) : (g.onFibres m h).cohort = g.cohort := rfl
@[simp] theorem onFibres_index (g : Group) (m : BitVec 32) (h : Fibre → Fibre) : (g.onFibres m h).index = g.index := rfl
@[simp] theorem onFibres_role (g : Group) (m : BitVec 32) (h : Fibre → Fibre) : (g.onFibres m h).role = g.role := rfl
@[simp] theorem onFibres_name (g : Group) (m : BitVec 32) (h : Fibre → Fibre) : (g.onFibres m h).name = g.name := rfl
@[simp] theorem onFibres_phase (g : Group) (m : BitVec 32) (h : Fibre → Fibre) : (g.onFibres m h).phase = g.phase := rfl
@[simp] theorem onFibres_core (g : Group) (m : BitVec 32) (h : Fibre → Fibre) : (g.onFibres m h).core = g.core := rfl
@[simp] theorem onFibres_sched (g : Group) (m : BitVec 32) (h : Fibre → Fibre) : (g.onFibres m h).sched = g.sched := rfl
@[simp] theorem onFibres_slot (g : Group) (m : BitVec 32) (h : Fibre → Fibre) : (g.onFibres m h).slot = g.slot := rfl
@[simp] theorem onFibres_age (g : Group) (m : BitVec 32) (h : Fibre → Fibre) : (g.onFibres m h).age = g.age := rfl
@[simp] theorem onFibres_lastIssue (g : Group) (m : BitVec 32) (h : Fibre → Fibre) : (g.onFibres m h).lastIssue = g.lastIssue := rfl
@[simp] theorem onFibres_readyFrom (g : Group) (m : BitVec 32) (h : Fibre → Fibre) : (g.onFibres m h).readyFrom = g.readyFrom := rfl
@[simp] theorem onFibres_urgent (g : Group) (m : BitVec 32) (h : Fibre → Fibre) : (g.onFibres m h).urgent = g.urgent := rfl
@[simp] theorem onFibres_stallFrom (g : Group) (m : BitVec 32) (h : Fibre → Fibre) : (g.onFibres m h).stallFrom = g.stallFrom := rfl
@[simp] theorem onFibres_favour (g : Group) (m : BitVec 32) (h : Fibre → Fibre) : (g.onFibres m h).favour = g.favour := rfl
@[simp] theorem onFibres_fresh (g : Group) (m : BitVec 32) (h : Fibre → Fibre) : (g.onFibres m h).fresh = g.fresh := rfl
@[simp] theorem onFibres_budget (g : Group) (m : BitVec 32) (h : Fibre → Fibre) : (g.onFibres m h).budget = g.budget := rfl
@[simp] theorem onFibres_stack (g : Group) (m : BitVec 32) (h : Fibre → Fibre) : (g.onFibres m h).stack = g.stack := rfl
@[simp] theorem onFibres_s (g : Group) (m : BitVec 32) (h : Fibre → Fibre) : (g.onFibres m h).s = g.s := rfl
@[simp] theorem onFibres_v (g : Group) (m : BitVec 32) (h : Fibre → Fibre) : (g.onFibres m h).v = g.v := rfl
@[simp] theorem onFibres_p (g : Group) (m : BitVec 32) (h : Fibre → Fibre) : (g.onFibres m h).p = g.p := rfl
@[simp] theorem onFibres_sp (g : Group) (m : BitVec 32) (h : Fibre → Fibre) : (g.onFibres m h).sp = g.sp := rfl
@[simp] theorem onFibres_x (g : Group) (m : BitVec 32) (h : Fibre → Fibre) : (g.onFibres m h).x = g.x := rfl
@[simp] theorem onFibres_sys (g : Group) (m : BitVec 32) (h : Fibre → Fibre) : (g.onFibres m h).sys = g.sys := rfl
@[simp] theorem onFibres_pending (g : Group) (m : BitVec 32) (h : Fibre → Fibre) : (g.onFibres m h).pending = g.pending := rfl
@[simp] theorem onFibres_late (g : Group) (m : BitVec 32) (h : Fibre → Fibre) : (g.onFibres m h).late = g.late := rfl
@[simp] theorem onFibres_deposits (g : Group) (m : BitVec 32) (h : Fibre → Fibre) : (g.onFibres m h).deposits = g.deposits := rfl
@[simp] theorem onFibres_held (g : Group) (m : BitVec 32) (h : Fibre → Fibre) : (g.onFibres m h).held = g.held := rfl
@[simp] theorem onFibres_map (g : Group) (m : BitVec 32) (h : Fibre → Fibre) : (g.onFibres m h).map = g.map := rfl
@[simp] theorem onFibres_evictable (g : Group) (m : BitVec 32) (h : Fibre → Fibre) : (g.onFibres m h).evictable = g.evictable := rfl
@[simp] theorem onFibres_part (g : Group) (m : BitVec 32) (h : Fibre → Fibre) : (g.onFibres m h).part = g.part := rfl
@[simp] theorem onFibres_exit (g : Group) (m : BitVec 32) (h : Fibre → Fibre) : (g.onFibres m h).exit = g.exit := rfl
@[simp] theorem onFibres_cause (g : Group) (m : BitVec 32) (h : Fibre → Fibre) : (g.onFibres m h).cause = g.cause := rfl
@[simp] theorem onFibres_image (g : Group) (m : BitVec 32) (h : Fibre → Fibre) : (g.onFibres m h).image = g.image := rfl

@[simp] theorem mapFibres_ctx (g : Group) (h : Nat → Fibre → Fibre) : (g.mapFibres h).ctx = g.ctx := rfl
@[simp] theorem mapFibres_launch (g : Group) (h : Nat → Fibre → Fibre) : (g.mapFibres h).launch = g.launch := rfl
@[simp] theorem mapFibres_cohort (g : Group) (h : Nat → Fibre → Fibre) : (g.mapFibres h).cohort = g.cohort := rfl
@[simp] theorem mapFibres_index (g : Group) (h : Nat → Fibre → Fibre) : (g.mapFibres h).index = g.index := rfl
@[simp] theorem mapFibres_role (g : Group) (h : Nat → Fibre → Fibre) : (g.mapFibres h).role = g.role := rfl
@[simp] theorem mapFibres_name (g : Group) (h : Nat → Fibre → Fibre) : (g.mapFibres h).name = g.name := rfl
@[simp] theorem mapFibres_phase (g : Group) (h : Nat → Fibre → Fibre) : (g.mapFibres h).phase = g.phase := rfl
@[simp] theorem mapFibres_core (g : Group) (h : Nat → Fibre → Fibre) : (g.mapFibres h).core = g.core := rfl
@[simp] theorem mapFibres_sched (g : Group) (h : Nat → Fibre → Fibre) : (g.mapFibres h).sched = g.sched := rfl
@[simp] theorem mapFibres_slot (g : Group) (h : Nat → Fibre → Fibre) : (g.mapFibres h).slot = g.slot := rfl
@[simp] theorem mapFibres_age (g : Group) (h : Nat → Fibre → Fibre) : (g.mapFibres h).age = g.age := rfl
@[simp] theorem mapFibres_lastIssue (g : Group) (h : Nat → Fibre → Fibre) : (g.mapFibres h).lastIssue = g.lastIssue := rfl
@[simp] theorem mapFibres_readyFrom (g : Group) (h : Nat → Fibre → Fibre) : (g.mapFibres h).readyFrom = g.readyFrom := rfl
@[simp] theorem mapFibres_urgent (g : Group) (h : Nat → Fibre → Fibre) : (g.mapFibres h).urgent = g.urgent := rfl
@[simp] theorem mapFibres_stallFrom (g : Group) (h : Nat → Fibre → Fibre) : (g.mapFibres h).stallFrom = g.stallFrom := rfl
@[simp] theorem mapFibres_favour (g : Group) (h : Nat → Fibre → Fibre) : (g.mapFibres h).favour = g.favour := rfl
@[simp] theorem mapFibres_fresh (g : Group) (h : Nat → Fibre → Fibre) : (g.mapFibres h).fresh = g.fresh := rfl
@[simp] theorem mapFibres_budget (g : Group) (h : Nat → Fibre → Fibre) : (g.mapFibres h).budget = g.budget := rfl
@[simp] theorem mapFibres_stack (g : Group) (h : Nat → Fibre → Fibre) : (g.mapFibres h).stack = g.stack := rfl
@[simp] theorem mapFibres_s (g : Group) (h : Nat → Fibre → Fibre) : (g.mapFibres h).s = g.s := rfl
@[simp] theorem mapFibres_v (g : Group) (h : Nat → Fibre → Fibre) : (g.mapFibres h).v = g.v := rfl
@[simp] theorem mapFibres_p (g : Group) (h : Nat → Fibre → Fibre) : (g.mapFibres h).p = g.p := rfl
@[simp] theorem mapFibres_sp (g : Group) (h : Nat → Fibre → Fibre) : (g.mapFibres h).sp = g.sp := rfl
@[simp] theorem mapFibres_x (g : Group) (h : Nat → Fibre → Fibre) : (g.mapFibres h).x = g.x := rfl
@[simp] theorem mapFibres_sys (g : Group) (h : Nat → Fibre → Fibre) : (g.mapFibres h).sys = g.sys := rfl
@[simp] theorem mapFibres_pending (g : Group) (h : Nat → Fibre → Fibre) : (g.mapFibres h).pending = g.pending := rfl
@[simp] theorem mapFibres_late (g : Group) (h : Nat → Fibre → Fibre) : (g.mapFibres h).late = g.late := rfl
@[simp] theorem mapFibres_deposits (g : Group) (h : Nat → Fibre → Fibre) : (g.mapFibres h).deposits = g.deposits := rfl
@[simp] theorem mapFibres_held (g : Group) (h : Nat → Fibre → Fibre) : (g.mapFibres h).held = g.held := rfl
@[simp] theorem mapFibres_map (g : Group) (h : Nat → Fibre → Fibre) : (g.mapFibres h).map = g.map := rfl
@[simp] theorem mapFibres_evictable (g : Group) (h : Nat → Fibre → Fibre) : (g.mapFibres h).evictable = g.evictable := rfl
@[simp] theorem mapFibres_part (g : Group) (h : Nat → Fibre → Fibre) : (g.mapFibres h).part = g.part := rfl
@[simp] theorem mapFibres_exit (g : Group) (h : Nat → Fibre → Fibre) : (g.mapFibres h).exit = g.exit := rfl
@[simp] theorem mapFibres_cause (g : Group) (h : Nat → Fibre → Fibre) : (g.mapFibres h).cause = g.cause := rfl
@[simp] theorem mapFibres_image (g : Group) (h : Nat → Fibre → Fibre) : (g.mapFibres h).image = g.image := rfl

@[simp] theorem setPc_ctx (g : Group) (m : BitVec 32) (pc : Word64) : (g.setPc m pc).ctx = g.ctx := rfl
@[simp] theorem setPc_launch (g : Group) (m : BitVec 32) (pc : Word64) : (g.setPc m pc).launch = g.launch := rfl
@[simp] theorem setPc_cohort (g : Group) (m : BitVec 32) (pc : Word64) : (g.setPc m pc).cohort = g.cohort := rfl
@[simp] theorem setPc_index (g : Group) (m : BitVec 32) (pc : Word64) : (g.setPc m pc).index = g.index := rfl
@[simp] theorem setPc_role (g : Group) (m : BitVec 32) (pc : Word64) : (g.setPc m pc).role = g.role := rfl
@[simp] theorem setPc_name (g : Group) (m : BitVec 32) (pc : Word64) : (g.setPc m pc).name = g.name := rfl
@[simp] theorem setPc_phase (g : Group) (m : BitVec 32) (pc : Word64) : (g.setPc m pc).phase = g.phase := rfl
@[simp] theorem setPc_core (g : Group) (m : BitVec 32) (pc : Word64) : (g.setPc m pc).core = g.core := rfl
@[simp] theorem setPc_sched (g : Group) (m : BitVec 32) (pc : Word64) : (g.setPc m pc).sched = g.sched := rfl
@[simp] theorem setPc_slot (g : Group) (m : BitVec 32) (pc : Word64) : (g.setPc m pc).slot = g.slot := rfl
@[simp] theorem setPc_age (g : Group) (m : BitVec 32) (pc : Word64) : (g.setPc m pc).age = g.age := rfl
@[simp] theorem setPc_lastIssue (g : Group) (m : BitVec 32) (pc : Word64) : (g.setPc m pc).lastIssue = g.lastIssue := rfl
@[simp] theorem setPc_readyFrom (g : Group) (m : BitVec 32) (pc : Word64) : (g.setPc m pc).readyFrom = g.readyFrom := rfl
@[simp] theorem setPc_urgent (g : Group) (m : BitVec 32) (pc : Word64) : (g.setPc m pc).urgent = g.urgent := rfl
@[simp] theorem setPc_stallFrom (g : Group) (m : BitVec 32) (pc : Word64) : (g.setPc m pc).stallFrom = g.stallFrom := rfl
@[simp] theorem setPc_favour (g : Group) (m : BitVec 32) (pc : Word64) : (g.setPc m pc).favour = g.favour := rfl
@[simp] theorem setPc_fresh (g : Group) (m : BitVec 32) (pc : Word64) : (g.setPc m pc).fresh = g.fresh := rfl
@[simp] theorem setPc_budget (g : Group) (m : BitVec 32) (pc : Word64) : (g.setPc m pc).budget = g.budget := rfl
@[simp] theorem setPc_stack (g : Group) (m : BitVec 32) (pc : Word64) : (g.setPc m pc).stack = g.stack := rfl
@[simp] theorem setPc_s (g : Group) (m : BitVec 32) (pc : Word64) : (g.setPc m pc).s = g.s := rfl
@[simp] theorem setPc_v (g : Group) (m : BitVec 32) (pc : Word64) : (g.setPc m pc).v = g.v := rfl
@[simp] theorem setPc_p (g : Group) (m : BitVec 32) (pc : Word64) : (g.setPc m pc).p = g.p := rfl
@[simp] theorem setPc_sp (g : Group) (m : BitVec 32) (pc : Word64) : (g.setPc m pc).sp = g.sp := rfl
@[simp] theorem setPc_x (g : Group) (m : BitVec 32) (pc : Word64) : (g.setPc m pc).x = g.x := rfl
@[simp] theorem setPc_sys (g : Group) (m : BitVec 32) (pc : Word64) : (g.setPc m pc).sys = g.sys := rfl
@[simp] theorem setPc_pending (g : Group) (m : BitVec 32) (pc : Word64) : (g.setPc m pc).pending = g.pending := rfl
@[simp] theorem setPc_late (g : Group) (m : BitVec 32) (pc : Word64) : (g.setPc m pc).late = g.late := rfl
@[simp] theorem setPc_deposits (g : Group) (m : BitVec 32) (pc : Word64) : (g.setPc m pc).deposits = g.deposits := rfl
@[simp] theorem setPc_held (g : Group) (m : BitVec 32) (pc : Word64) : (g.setPc m pc).held = g.held := rfl
@[simp] theorem setPc_map (g : Group) (m : BitVec 32) (pc : Word64) : (g.setPc m pc).map = g.map := rfl
@[simp] theorem setPc_evictable (g : Group) (m : BitVec 32) (pc : Word64) : (g.setPc m pc).evictable = g.evictable := rfl
@[simp] theorem setPc_part (g : Group) (m : BitVec 32) (pc : Word64) : (g.setPc m pc).part = g.part := rfl
@[simp] theorem setPc_exit (g : Group) (m : BitVec 32) (pc : Word64) : (g.setPc m pc).exit = g.exit := rfl
@[simp] theorem setPc_cause (g : Group) (m : BitVec 32) (pc : Word64) : (g.setPc m pc).cause = g.cause := rfl
@[simp] theorem setPc_image (g : Group) (m : BitVec 32) (pc : Word64) : (g.setPc m pc).image = g.image := rfl

@[simp] theorem asStroke_ctx (g : Group) (m : BitVec 32) : (g.asStroke m).ctx = g.ctx := rfl
@[simp] theorem asStroke_launch (g : Group) (m : BitVec 32) : (g.asStroke m).launch = g.launch := rfl
@[simp] theorem asStroke_cohort (g : Group) (m : BitVec 32) : (g.asStroke m).cohort = g.cohort := rfl
@[simp] theorem asStroke_index (g : Group) (m : BitVec 32) : (g.asStroke m).index = g.index := rfl
@[simp] theorem asStroke_role (g : Group) (m : BitVec 32) : (g.asStroke m).role = g.role := rfl
@[simp] theorem asStroke_name (g : Group) (m : BitVec 32) : (g.asStroke m).name = g.name := rfl
@[simp] theorem asStroke_phase (g : Group) (m : BitVec 32) : (g.asStroke m).phase = g.phase := rfl
@[simp] theorem asStroke_core (g : Group) (m : BitVec 32) : (g.asStroke m).core = g.core := rfl
@[simp] theorem asStroke_sched (g : Group) (m : BitVec 32) : (g.asStroke m).sched = g.sched := rfl
@[simp] theorem asStroke_slot (g : Group) (m : BitVec 32) : (g.asStroke m).slot = g.slot := rfl
@[simp] theorem asStroke_age (g : Group) (m : BitVec 32) : (g.asStroke m).age = g.age := rfl
@[simp] theorem asStroke_lastIssue (g : Group) (m : BitVec 32) : (g.asStroke m).lastIssue = g.lastIssue := rfl
@[simp] theorem asStroke_readyFrom (g : Group) (m : BitVec 32) : (g.asStroke m).readyFrom = g.readyFrom := rfl
@[simp] theorem asStroke_urgent (g : Group) (m : BitVec 32) : (g.asStroke m).urgent = g.urgent := rfl
@[simp] theorem asStroke_stallFrom (g : Group) (m : BitVec 32) : (g.asStroke m).stallFrom = g.stallFrom := rfl
@[simp] theorem asStroke_favour (g : Group) (m : BitVec 32) : (g.asStroke m).favour = g.favour := rfl
@[simp] theorem asStroke_fresh (g : Group) (m : BitVec 32) : (g.asStroke m).fresh = g.fresh := rfl
@[simp] theorem asStroke_budget (g : Group) (m : BitVec 32) : (g.asStroke m).budget = g.budget := rfl
@[simp] theorem asStroke_stack (g : Group) (m : BitVec 32) : (g.asStroke m).stack = g.stack := rfl
@[simp] theorem asStroke_s (g : Group) (m : BitVec 32) : (g.asStroke m).s = g.s := rfl
@[simp] theorem asStroke_v (g : Group) (m : BitVec 32) : (g.asStroke m).v = g.v := rfl
@[simp] theorem asStroke_p (g : Group) (m : BitVec 32) : (g.asStroke m).p = g.p := rfl
@[simp] theorem asStroke_sp (g : Group) (m : BitVec 32) : (g.asStroke m).sp = g.sp := rfl
@[simp] theorem asStroke_x (g : Group) (m : BitVec 32) : (g.asStroke m).x = g.x := rfl
@[simp] theorem asStroke_sys (g : Group) (m : BitVec 32) : (g.asStroke m).sys = g.sys := rfl
@[simp] theorem asStroke_pending (g : Group) (m : BitVec 32) : (g.asStroke m).pending = g.pending := rfl
@[simp] theorem asStroke_late (g : Group) (m : BitVec 32) : (g.asStroke m).late = g.late := rfl
@[simp] theorem asStroke_deposits (g : Group) (m : BitVec 32) : (g.asStroke m).deposits = g.deposits := rfl
@[simp] theorem asStroke_held (g : Group) (m : BitVec 32) : (g.asStroke m).held = g.held := rfl
@[simp] theorem asStroke_map (g : Group) (m : BitVec 32) : (g.asStroke m).map = g.map := rfl
@[simp] theorem asStroke_evictable (g : Group) (m : BitVec 32) : (g.asStroke m).evictable = g.evictable := rfl
@[simp] theorem asStroke_part (g : Group) (m : BitVec 32) : (g.asStroke m).part = g.part := rfl
@[simp] theorem asStroke_exit (g : Group) (m : BitVec 32) : (g.asStroke m).exit = g.exit := rfl
@[simp] theorem asStroke_cause (g : Group) (m : BitVec 32) : (g.asStroke m).cause = g.cause := rfl
@[simp] theorem asStroke_image (g : Group) (m : BitVec 32) : (g.asStroke m).image = g.image := rfl

@[simp] theorem park_ctx (g : Group) (m : BitVec 32) (w : Wait) (o : Word64) (d : Nat) (i : Option Instr) : (g.park m w o d i).ctx = g.ctx := rfl
@[simp] theorem park_launch (g : Group) (m : BitVec 32) (w : Wait) (o : Word64) (d : Nat) (i : Option Instr) : (g.park m w o d i).launch = g.launch := rfl
@[simp] theorem park_cohort (g : Group) (m : BitVec 32) (w : Wait) (o : Word64) (d : Nat) (i : Option Instr) : (g.park m w o d i).cohort = g.cohort := rfl
@[simp] theorem park_index (g : Group) (m : BitVec 32) (w : Wait) (o : Word64) (d : Nat) (i : Option Instr) : (g.park m w o d i).index = g.index := rfl
@[simp] theorem park_role (g : Group) (m : BitVec 32) (w : Wait) (o : Word64) (d : Nat) (i : Option Instr) : (g.park m w o d i).role = g.role := rfl
@[simp] theorem park_name (g : Group) (m : BitVec 32) (w : Wait) (o : Word64) (d : Nat) (i : Option Instr) : (g.park m w o d i).name = g.name := rfl
@[simp] theorem park_phase (g : Group) (m : BitVec 32) (w : Wait) (o : Word64) (d : Nat) (i : Option Instr) : (g.park m w o d i).phase = g.phase := rfl
@[simp] theorem park_core (g : Group) (m : BitVec 32) (w : Wait) (o : Word64) (d : Nat) (i : Option Instr) : (g.park m w o d i).core = g.core := rfl
@[simp] theorem park_sched (g : Group) (m : BitVec 32) (w : Wait) (o : Word64) (d : Nat) (i : Option Instr) : (g.park m w o d i).sched = g.sched := rfl
@[simp] theorem park_slot (g : Group) (m : BitVec 32) (w : Wait) (o : Word64) (d : Nat) (i : Option Instr) : (g.park m w o d i).slot = g.slot := rfl
@[simp] theorem park_age (g : Group) (m : BitVec 32) (w : Wait) (o : Word64) (d : Nat) (i : Option Instr) : (g.park m w o d i).age = g.age := rfl
@[simp] theorem park_lastIssue (g : Group) (m : BitVec 32) (w : Wait) (o : Word64) (d : Nat) (i : Option Instr) : (g.park m w o d i).lastIssue = g.lastIssue := rfl
@[simp] theorem park_readyFrom (g : Group) (m : BitVec 32) (w : Wait) (o : Word64) (d : Nat) (i : Option Instr) : (g.park m w o d i).readyFrom = g.readyFrom := rfl
@[simp] theorem park_urgent (g : Group) (m : BitVec 32) (w : Wait) (o : Word64) (d : Nat) (i : Option Instr) : (g.park m w o d i).urgent = g.urgent := rfl
@[simp] theorem park_stallFrom (g : Group) (m : BitVec 32) (w : Wait) (o : Word64) (d : Nat) (i : Option Instr) : (g.park m w o d i).stallFrom = g.stallFrom := rfl
@[simp] theorem park_favour (g : Group) (m : BitVec 32) (w : Wait) (o : Word64) (d : Nat) (i : Option Instr) : (g.park m w o d i).favour = g.favour := rfl
@[simp] theorem park_fresh (g : Group) (m : BitVec 32) (w : Wait) (o : Word64) (d : Nat) (i : Option Instr) : (g.park m w o d i).fresh = g.fresh := rfl
@[simp] theorem park_budget (g : Group) (m : BitVec 32) (w : Wait) (o : Word64) (d : Nat) (i : Option Instr) : (g.park m w o d i).budget = g.budget := rfl
@[simp] theorem park_stack (g : Group) (m : BitVec 32) (w : Wait) (o : Word64) (d : Nat) (i : Option Instr) : (g.park m w o d i).stack = g.stack := rfl
@[simp] theorem park_s (g : Group) (m : BitVec 32) (w : Wait) (o : Word64) (d : Nat) (i : Option Instr) : (g.park m w o d i).s = g.s := rfl
@[simp] theorem park_v (g : Group) (m : BitVec 32) (w : Wait) (o : Word64) (d : Nat) (i : Option Instr) : (g.park m w o d i).v = g.v := rfl
@[simp] theorem park_p (g : Group) (m : BitVec 32) (w : Wait) (o : Word64) (d : Nat) (i : Option Instr) : (g.park m w o d i).p = g.p := rfl
@[simp] theorem park_sp (g : Group) (m : BitVec 32) (w : Wait) (o : Word64) (d : Nat) (i : Option Instr) : (g.park m w o d i).sp = g.sp := rfl
@[simp] theorem park_x (g : Group) (m : BitVec 32) (w : Wait) (o : Word64) (d : Nat) (i : Option Instr) : (g.park m w o d i).x = g.x := rfl
@[simp] theorem park_sys (g : Group) (m : BitVec 32) (w : Wait) (o : Word64) (d : Nat) (i : Option Instr) : (g.park m w o d i).sys = g.sys := rfl
@[simp] theorem park_pending (g : Group) (m : BitVec 32) (w : Wait) (o : Word64) (d : Nat) (i : Option Instr) : (g.park m w o d i).pending = g.pending := rfl
@[simp] theorem park_late (g : Group) (m : BitVec 32) (w : Wait) (o : Word64) (d : Nat) (i : Option Instr) : (g.park m w o d i).late = g.late := rfl
@[simp] theorem park_deposits (g : Group) (m : BitVec 32) (w : Wait) (o : Word64) (d : Nat) (i : Option Instr) : (g.park m w o d i).deposits = g.deposits := rfl
@[simp] theorem park_held (g : Group) (m : BitVec 32) (w : Wait) (o : Word64) (d : Nat) (i : Option Instr) : (g.park m w o d i).held = g.held := rfl
@[simp] theorem park_map (g : Group) (m : BitVec 32) (w : Wait) (o : Word64) (d : Nat) (i : Option Instr) : (g.park m w o d i).map = g.map := rfl
@[simp] theorem park_evictable (g : Group) (m : BitVec 32) (w : Wait) (o : Word64) (d : Nat) (i : Option Instr) : (g.park m w o d i).evictable = g.evictable := rfl
@[simp] theorem park_part (g : Group) (m : BitVec 32) (w : Wait) (o : Word64) (d : Nat) (i : Option Instr) : (g.park m w o d i).part = g.part := rfl
@[simp] theorem park_exit (g : Group) (m : BitVec 32) (w : Wait) (o : Word64) (d : Nat) (i : Option Instr) : (g.park m w o d i).exit = g.exit := rfl
@[simp] theorem park_cause (g : Group) (m : BitVec 32) (w : Wait) (o : Word64) (d : Nat) (i : Option Instr) : (g.park m w o d i).cause = g.cause := rfl
@[simp] theorem park_image (g : Group) (m : BitVec 32) (w : Wait) (o : Word64) (d : Nat) (i : Option Instr) : (g.park m w o d i).image = g.image := rfl

@[simp] theorem unpark_ctx (g : Group) (m : BitVec 32) : (g.unpark m).ctx = g.ctx := rfl
@[simp] theorem unpark_launch (g : Group) (m : BitVec 32) : (g.unpark m).launch = g.launch := rfl
@[simp] theorem unpark_cohort (g : Group) (m : BitVec 32) : (g.unpark m).cohort = g.cohort := rfl
@[simp] theorem unpark_index (g : Group) (m : BitVec 32) : (g.unpark m).index = g.index := rfl
@[simp] theorem unpark_role (g : Group) (m : BitVec 32) : (g.unpark m).role = g.role := rfl
@[simp] theorem unpark_name (g : Group) (m : BitVec 32) : (g.unpark m).name = g.name := rfl
@[simp] theorem unpark_phase (g : Group) (m : BitVec 32) : (g.unpark m).phase = g.phase := rfl
@[simp] theorem unpark_core (g : Group) (m : BitVec 32) : (g.unpark m).core = g.core := rfl
@[simp] theorem unpark_sched (g : Group) (m : BitVec 32) : (g.unpark m).sched = g.sched := rfl
@[simp] theorem unpark_slot (g : Group) (m : BitVec 32) : (g.unpark m).slot = g.slot := rfl
@[simp] theorem unpark_age (g : Group) (m : BitVec 32) : (g.unpark m).age = g.age := rfl
@[simp] theorem unpark_lastIssue (g : Group) (m : BitVec 32) : (g.unpark m).lastIssue = g.lastIssue := rfl
@[simp] theorem unpark_readyFrom (g : Group) (m : BitVec 32) : (g.unpark m).readyFrom = g.readyFrom := rfl
@[simp] theorem unpark_urgent (g : Group) (m : BitVec 32) : (g.unpark m).urgent = g.urgent := rfl
@[simp] theorem unpark_stallFrom (g : Group) (m : BitVec 32) : (g.unpark m).stallFrom = g.stallFrom := rfl
@[simp] theorem unpark_favour (g : Group) (m : BitVec 32) : (g.unpark m).favour = g.favour := rfl
@[simp] theorem unpark_fresh (g : Group) (m : BitVec 32) : (g.unpark m).fresh = g.fresh := rfl
@[simp] theorem unpark_budget (g : Group) (m : BitVec 32) : (g.unpark m).budget = g.budget := rfl
@[simp] theorem unpark_stack (g : Group) (m : BitVec 32) : (g.unpark m).stack = g.stack := rfl
@[simp] theorem unpark_s (g : Group) (m : BitVec 32) : (g.unpark m).s = g.s := rfl
@[simp] theorem unpark_v (g : Group) (m : BitVec 32) : (g.unpark m).v = g.v := rfl
@[simp] theorem unpark_p (g : Group) (m : BitVec 32) : (g.unpark m).p = g.p := rfl
@[simp] theorem unpark_sp (g : Group) (m : BitVec 32) : (g.unpark m).sp = g.sp := rfl
@[simp] theorem unpark_x (g : Group) (m : BitVec 32) : (g.unpark m).x = g.x := rfl
@[simp] theorem unpark_sys (g : Group) (m : BitVec 32) : (g.unpark m).sys = g.sys := rfl
@[simp] theorem unpark_pending (g : Group) (m : BitVec 32) : (g.unpark m).pending = g.pending := rfl
@[simp] theorem unpark_late (g : Group) (m : BitVec 32) : (g.unpark m).late = g.late := rfl
@[simp] theorem unpark_deposits (g : Group) (m : BitVec 32) : (g.unpark m).deposits = g.deposits := rfl
@[simp] theorem unpark_held (g : Group) (m : BitVec 32) : (g.unpark m).held = g.held := rfl
@[simp] theorem unpark_map (g : Group) (m : BitVec 32) : (g.unpark m).map = g.map := rfl
@[simp] theorem unpark_evictable (g : Group) (m : BitVec 32) : (g.unpark m).evictable = g.evictable := rfl
@[simp] theorem unpark_part (g : Group) (m : BitVec 32) : (g.unpark m).part = g.part := rfl
@[simp] theorem unpark_exit (g : Group) (m : BitVec 32) : (g.unpark m).exit = g.exit := rfl
@[simp] theorem unpark_cause (g : Group) (m : BitVec 32) : (g.unpark m).cause = g.cause := rfl
@[simp] theorem unpark_image (g : Group) (m : BitVec 32) : (g.unpark m).image = g.image := rfl

/-! ## Registers -/

theorem rdS_wrS (g : Group) (n m : SReg) (v : Word64) : (g.wrS n v).rdS m = if m = n then v else g.rdS m := by
  simp only [rdS, wrS, Tbl.read_write]
  by_cases h : m = n
  · simp [h]
  · simp [h, show m.toNat ≠ n.toNat from fun e => h (BitVec.eq_of_toNat_eq e)]

theorem rdV_wrV (g : Group) (n m : Nat) (v : Lanes 32) : (g.wrV n v).rdV m = if m = n then v else g.rdV m := by
  simp only [rdV, wrV, Tbl.read_write]

/-! ## Fibres -/

/-- A fibre after a change of the fibres of a set. -/
theorem fibre_onFibres (g : Group) (m : BitVec 32) (h : Fibre → Fibre) (f : Nat) :
    (g.onFibres m h).fibre f = if f < 32 then (if m.getLsbD f then h (g.fibre f) else g.fibre f) else {} := by
  simp only [onFibres, fibre]
  by_cases hf : f < 32
  · simp [List.getD_eq_getElem?_getD, hf]
  · simp [List.getD_eq_getElem?_getD, hf]

/-- A fibre after a move of the program counters of a set. -/
theorem fibre_setPc (g : Group) (m : BitVec 32) (pc : Word64) (f : Nat) (hf : f < 32) :
    (g.setPc m pc).fibre f = if m.getLsbD f then { g.fibre f with pc := pc } else g.fibre f := by
  simp [setPc, fibre_onFibres, hf]

end Group
end Sys2Proof.Machine
end

