-- ==== Sys2Proof/Laws/Memory.lean ====
section
/-! SUPPORT. Laws of memory: a read after a write, and the canonical form, which every memory operation keeps. -/

namespace Sys2Proof

/-! ## Byte strings -/

@[simp] theorem length_toBytes : ∀ (n x : Nat), (toBytes n x).length = n
  | 0, _ => rfl
  | n + 1, x => by simp [toBytes, length_toBytes n]

/-- The number that `n` bytes of `x` hold. -/
theorem ofBytes_toBytes : ∀ (n x : Nat), ofBytes (toBytes n x) = x % 2 ^ (8 * n)
  | 0, x => by simp [toBytes, ofBytes, Nat.mod_one]
  | n + 1, x => by
    have h : (2 : Nat) ^ (8 * (n + 1)) = 256 * 2 ^ (8 * n) := by
      rw [show 8 * (n + 1) = 8 + 8 * n by omega, Nat.pow_add]
    simp only [toBytes, ofBytes, ofBytes_toBytes n, h, Nat.mod_mul, BitVec.toNat_ofNat, Nat.reducePow]

namespace Machine
namespace State

@[simp] theorem reset_memWf : reset.memWf = true := rfl

/-! ## One byte -/

theorem readByte_writeByte (s : State) (a b : Nat) (v : Byte) :
    (s.writeByte a v).readByte b = if b = a then v else s.readByte b := Tbl.read_write _ _ _ _ _

theorem memWf_writeByte {s : State} (a : Nat) (v : Byte) (h : s.memWf = true) : (s.writeByte a v).memWf = true :=
  Tbl.wf_write _ a v h

/-! ## Byte strings in memory -/

/-- A write of bytes changes memory and the watches on it only. -/
theorem writeBytes_eq (s : State) (a : Nat) (bs : List Byte) :
    s.writeBytes a bs = { s with mem := (s.writeBytes a bs).mem, watches := (s.writeBytes a bs).watches } := by
  induction bs generalizing s a with
  | nil => rfl
  | cons b bs ih => rw [writeBytes, ih]; rfl

theorem memWf_writeBytes {s : State} (a : Nat) (bs : List Byte) (h : s.memWf = true) : (s.writeBytes a bs).memWf = true := by
  induction bs generalizing s a with
  | nil => exact h
  | cons b bs ih => exact ih (a + 1) (memWf_writeByte a b h)

/-- A load of bytes changes memory only. -/
theorem loadBytes_eq (s : State) (a : Nat) (bs : List Byte) : s.loadBytes a bs = { s with mem := (s.loadBytes a bs).mem } := by
  induction bs generalizing s a with
  | nil => rfl
  | cons b bs ih => rw [loadBytes, ih]; rfl

theorem memWf_loadBytes {s : State} (a : Nat) (bs : List Byte) (h : s.memWf = true) : (s.loadBytes a bs).memWf = true := by
  induction bs generalizing s a with
  | nil => exact h
  | cons b bs ih => exact ih (a + 1) (Tbl.wf_write _ a b h)

theorem memWf_writeNat {s : State} (a n v : Nat) (h : s.memWf = true) : (s.writeNat a n v).memWf = true :=
  memWf_writeBytes a _ h

/-- A byte after a write of bytes: the written one inside the range, the old one outside. -/
theorem readByte_writeBytes (s : State) (a b : Nat) (bs : List Byte) :
    (s.writeBytes a bs).readByte b = if a ≤ b ∧ b < a + bs.length then bs.getD (b - a) 0 else s.readByte b := by
  induction bs generalizing s a with
  | nil => simp [writeBytes, show ¬(a ≤ b ∧ b < a) by omega]
  | cons v bs ih =>
    rw [writeBytes, ih, readByte_writeByte]
    simp only [List.length_cons]
    by_cases h : b = a
    · subst h
      rw [if_neg (show ¬(b + 1 ≤ b ∧ b < b + 1 + bs.length) by omega)]
      simp
    · by_cases h2 : a + 1 ≤ b ∧ b < a + 1 + bs.length
      · have h3 : a ≤ b ∧ b < a + (bs.length + 1) := by omega
        obtain ⟨k, hk⟩ : ∃ k, b - a = k + 1 := ⟨b - a - 1, by omega⟩
        have hk' : b - (a + 1) = k := by omega
        rw [if_pos h2, if_pos h3, hk, hk']
        simp
      · have h3 : ¬(a ≤ b ∧ b < a + (bs.length + 1)) := by omega
        rw [if_neg h2, if_neg h3, if_neg h]

theorem readByte_writeBytes_of_outside {s : State} {a b : Nat} {bs : List Byte} (h : b < a ∨ a + bs.length ≤ b) :
    (s.writeBytes a bs).readByte b = s.readByte b := by
  rw [readByte_writeBytes, if_neg (by omega)]

@[simp] theorem length_readBytes (s : State) (a : Nat) : ∀ n, (s.readBytes a n).length = n
  | 0 => rfl
  | n + 1 => by simp [readBytes, length_readBytes s (a + 1) n]

theorem getD_readBytes (s : State) (a : Nat) : ∀ (n k : Nat), k < n → (s.readBytes a n).getD k 0 = s.readByte (a + k)
  | n + 1, 0, _ => by simp [readBytes]
  | n + 1, k + 1, h => by
    rw [readBytes, List.getD_cons_succ, getD_readBytes s (a + 1) n k (by omega)]
    congr 1; omega

/-- Reads depend on the bytes of their range only. -/
theorem readBytes_congr {s t : State} {a n : Nat} (h : ∀ k, k < n → s.readByte (a + k) = t.readByte (a + k)) :
    s.readBytes a n = t.readBytes a n := by
  apply List.ext_getElem (by simp)
  intro k h1 h2
  simp only [length_readBytes] at h1
  have h3 := h k h1
  rw [← getD_readBytes s a n k h1, ← getD_readBytes t a n k h1] at h3
  simpa [List.getD_eq_getElem?_getD, h1] using h3

/-- A read of the written range gives the written bytes. -/
theorem readBytes_writeBytes (s : State) (a : Nat) (bs : List Byte) : (s.writeBytes a bs).readBytes a bs.length = bs := by
  apply List.ext_getElem (by simp)
  intro k h1 h2
  have h3 := getD_readBytes (s.writeBytes a bs) a bs.length k h2
  rw [readByte_writeBytes, if_pos (by omega), Nat.add_sub_cancel_left] at h3
  simpa [List.getD_eq_getElem?_getD, h1, h2] using h3

/-- A number after its write. -/
theorem readNat_writeNat (s : State) (a n v : Nat) : (s.writeNat a n v).readNat a n = v % 2 ^ (8 * n) := by
  have h := readBytes_writeBytes s a (toBytes n v)
  rw [length_toBytes] at h
  rw [readNat, writeNat, h, ofBytes_toBytes]

theorem readByte_writeNat_of_outside {s : State} {a n v b : Nat} (h : b < a ∨ a + n ≤ b) :
    (s.writeNat a n v).readByte b = s.readByte b :=
  readByte_writeBytes_of_outside (by simpa using h)

/-! ## Pages of confidential contexts -/

@[simp] theorem length_padBytes (s : State) (ctx pa : Nat) (bs : List Byte) : (s.padBytes ctx pa bs).length = bs.length := by
  induction bs generalizing pa with
  | nil => rfl
  | cons b bs ih => simp [padBytes, ih]

/-- The pad is its own inverse. -/
theorem padBytes_padBytes (s : State) (ctx pa : Nat) (bs : List Byte) :
    s.padBytes ctx pa (s.padBytes ctx pa bs) = bs := by
  induction bs generalizing pa with
  | nil => rfl
  | cons b bs ih => rw [padBytes, padBytes, ih, BitVec.xor_assoc, BitVec.xor_self, BitVec.xor_zero]

theorem pad_writePage (s : State) (ctx pa k a : Nat) (bs : List Byte) : (s.writePage ctx pa bs).pad k a = s.pad k a := by
  rw [writePage, writeBytes_eq]; rfl

theorem padBytes_writePage (s : State) (ctx pa k a : Nat) (bs cs : List Byte) :
    (s.writePage ctx pa bs).padBytes k a cs = s.padBytes k a cs := by
  induction cs generalizing a with
  | nil => rfl
  | cons c cs ih => simp [padBytes, ih, pad_writePage]

/-- A context reads back what it wrote in its page. -/
theorem readPage_writePage (s : State) (ctx pa : Nat) (bs : List Byte) :
    (s.writePage ctx pa bs).readPage ctx pa bs.length = bs := by
  have h := readBytes_writeBytes s pa (s.padBytes ctx pa bs)
  rw [length_padBytes] at h
  rw [readPage, padBytes_writePage, writePage, h, padBytes_padBytes]

theorem memWf_writePage {s : State} (ctx pa : Nat) (bs : List Byte) (h : s.memWf = true) :
    (s.writePage ctx pa bs).memWf = true := memWf_writeBytes _ _ h

/-! ## Clearing -/

theorem memWf_clearFrom {s : State} (p o : Nat) (h : s.memWf = true) : (s.clearFrom p o).memWf = true := by
  exact Tbl.wf_keep unlisted (fun a _ => decide (a < p + o) || decide (p + 2 ^ 80 ≤ a)) h
theorem memWf_clearRange {s : State} (a n : Nat) (h : s.memWf = true) : (s.clearRange a n).memWf = true := by
  exact Tbl.wf_keep unlisted (fun k _ => decide (k < a) || decide (a + n ≤ k)) h

theorem readByte_clearFrom (s : State) (p o a : Nat) :
    (s.clearFrom p o).readByte a = if a < p + o ∨ p + 2 ^ 80 ≤ a then s.readByte a else 0 := by
  have h := Tbl.read_keep unlisted s.mem (fun k => decide (k < p + o) || decide (p + 2 ^ 80 ≤ k)) a
  simpa [clearFrom, readByte, unlisted] using h

theorem readByte_clearRange (s : State) (a n b : Nat) :
    (s.clearRange a n).readByte b = if b < a ∨ a + n ≤ b then s.readByte b else 0 := by
  have h := Tbl.read_keep unlisted s.mem (fun k => decide (k < a) || decide (a + n ≤ k)) b
  simpa [clearRange, readByte, unlisted] using h

/-! ## Writes through translation -/

theorem vmWriteChunks_eq (ctx pkg : Nat) (w : Who) (cs : List (Nat × Nat)) :
    ∀ (s : State) (bs : List Byte),
      (s.vmWriteChunks ctx pkg w cs bs).1 = { s with mem := (s.vmWriteChunks ctx pkg w cs bs).1.mem
                                                     watches := (s.vmWriteChunks ctx pkg w cs bs).1.watches } := by
  induction cs with
  | nil => intro s bs; rfl
  | cons c cs ih =>
    intro s bs
    obtain ⟨va, n⟩ := c
    simp only [vmWriteChunks]
    split
    · rw [ih, writePage, writeBytes_eq]
    · rfl

/-- A write through translation changes memory and the watches on it only. -/
theorem vmWrite_eq (s : State) (ctx pkg : Nat) (w : Who) (va : Nat) (bs : List Byte) :
    (s.vmWrite ctx pkg w va bs).1 = { s with mem := (s.vmWrite ctx pkg w va bs).1.mem
                                             watches := (s.vmWrite ctx pkg w va bs).1.watches } :=
  vmWriteChunks_eq _ _ _ _ _ _

theorem memWf_vmWriteChunks (ctx pkg : Nat) (w : Who) (cs : List (Nat × Nat)) :
    ∀ {s : State} (bs : List Byte), s.memWf = true → (s.vmWriteChunks ctx pkg w cs bs).1.memWf = true := by
  induction cs with
  | nil => intro s bs h; exact h
  | cons c cs ih =>
    intro s bs h
    obtain ⟨va, n⟩ := c
    simp only [vmWriteChunks]
    split
    · exact ih _ (memWf_writePage _ _ _ h)
    · exact h

theorem memWf_vmWrite {s : State} (ctx pkg : Nat) (w : Who) (va : Nat) (bs : List Byte) (h : s.memWf = true) :
    (s.vmWrite ctx pkg w va bs).1.memWf = true := memWf_vmWriteChunks _ _ _ _ _ h

end State
end Machine
end Sys2Proof
end

