-- ==== Sys2Proof/Laws/Issue.lean ====
section
/-! SUPPORT. Laws of what the meanings share: logging and its gate, the checks of an issue, writes of uniform registers, and
taking a trap. -/

namespace Sys2Proof.Machine
namespace State

/-! ## The scroll -/

theorem log_of_off {s : State} {ctx pkg : Nat} (e : Entry) (c : Bool) (h : (s.scroll ctx pkg).mode = 0) :
    s.log ctx pkg e c = s := by simp [log, h]

theorem gate_of_off {s : State} {ctx pkg : Nat} (e : Entry) (h : (s.scroll ctx pkg).mode = 0) (hf : s.frozen ctx = false) :
    s.gate ctx pkg e = .go := by simp [gate, h, hf]

theorem unitGate_of_off {s : State} {ctx pkg : Nat} (e : Entry) (h : (s.scroll ctx pkg).mode = 0) (hf : s.frozen ctx = false) :
    s.unitGate ctx pkg e = .go := by simp [unitGate, outOfTurn, h, gate_of_off e h hf]

theorem gated_of_off {s : State} {ctx pkg : Nat} (e : Entry) (act : State → State) (h : (s.scroll ctx pkg).mode = 0)
    (hf : s.frozen ctx = false) : s.gated ctx pkg e act = act s := by simp [gated, unitGate_of_off e h hf]

/-- What the scroll may change: memory and its watches, the contexts and the agenda. -/
def OnlyScroll (s t : State) : Prop :=
  t = { s with mem := t.mem, watches := t.watches, contexts := t.contexts, agenda := t.agenda }

theorem OnlyScroll.refl (s : State) : OnlyScroll s s := rfl

theorem OnlyScroll.trans {s t u : State} (h : OnlyScroll s t) (k : OnlyScroll t u) : OnlyScroll s u := by
  unfold OnlyScroll at *; rw [k, h]

theorem onlyScroll_modScroll (s : State) (ctx pkg : Nat) (f : Scroll → Scroll) : OnlyScroll s (s.modScroll ctx pkg f) := rfl
theorem onlyScroll_postEvent (s : State) (ctx : Nat) (e : HostEvent) : OnlyScroll s (s.postEvent ctx e) := rfl
theorem onlyScroll_soon (s : State) (i : Instr) : OnlyScroll s (s.soon i) := rfl
theorem onlyScroll_diverge (s : State) (ctx pkg i src : Nat) : OnlyScroll s (s.diverge ctx pkg i src) := rfl
theorem onlyScroll_tooEarly (s : State) (ctx pkg : Nat) (e : Entry) : OnlyScroll s (s.tooEarly ctx pkg e) := rfl
theorem onlyScroll_consume (s : State) (ctx pkg src : Nat) (r : Nat × Entry) : OnlyScroll s (s.consume ctx pkg src r) := rfl

theorem onlyScroll_scrollHigh (s : State) (ctx pkg old : Nat) : OnlyScroll s (s.scrollHigh ctx pkg old) := by
  unfold scrollHigh; dsimp only; split <;> rfl

theorem onlyScroll_append (s : State) (ctx pkg : Nat) (e : Entry) : OnlyScroll s (s.append ctx pkg e) := by
  unfold append
  simp only
  split
  · rfl
  · split
    · refine .trans (.trans (t := _) ?_ (onlyScroll_modScroll _ _ _ _)) (onlyScroll_scrollHigh _ _ _ _)
      unfold OnlyScroll
      rw [vmWrite_eq]
    · rfl

/-- A logged act leaves all but memory and its watches, the contexts and the agenda. -/
theorem onlyScroll_log (s : State) (ctx pkg : Nat) (e : Entry) (c : Bool) : OnlyScroll s (s.log ctx pkg e c) := by
  unfold log
  simp only
  split
  · exact onlyScroll_append _ _ _ _
  · split
    · generalize s.gate ctx pkg e = x, s.sourceRecords ctx pkg e.source = l
      split
      · split
        · exact .trans (onlyScroll_consume _ _ _ _ _) (onlyScroll_diverge _ _ _ _ _)
        · exact onlyScroll_consume _ _ _ _ _
      · exact onlyScroll_modScroll _ _ _ _
      · exact onlyScroll_tooEarly _ _ _ _
    · rfl

@[simp] theorem log_groups (s : State) (ctx pkg : Nat) (e : Entry) (c : Bool) : (s.log ctx pkg e c).groups = s.groups := by
  rw [onlyScroll_log s ctx pkg e c]

theorem memWf_scrollHigh {s : State} (ctx pkg old : Nat) (h : s.memWf = true) :
    (s.scrollHigh ctx pkg old).memWf = true := by
  unfold scrollHigh; dsimp only; split <;> exact h

theorem memWf_append {s : State} (ctx pkg : Nat) (e : Entry) (h : s.memWf = true) : (s.append ctx pkg e).memWf = true := by
  unfold append
  simp only
  split
  · exact h
  · split
    · exact memWf_scrollHigh _ _ _ (memWf_vmWrite ctx pkg .imageWrite _ _ h)
    · exact h

/-- Logging keeps memory's canonical form. -/
theorem memWf_log {s : State} (ctx pkg : Nat) (e : Entry) (c : Bool) (h : s.memWf = true) :
    (s.log ctx pkg e c).memWf = true := by
  unfold log
  simp only
  split
  · exact memWf_append _ _ _ h
  · split
    · generalize s.gate ctx pkg e = x, s.sourceRecords ctx pkg e.source = l
      split
      · split <;> exact h
      · exact h
      · exact h
    · exact h

theorem memWf_noteWait {s : State} (ctx pkg source : Nat) (h : s.memWf = true) : (s.noteWait ctx pkg source).memWf = true := by
  unfold noteWait; split <;> exact h

theorem memWf_await {s : State} (ctx pkg : Nat) (e : Entry) (h : s.memWf = true) : (s.await ctx pkg e).memWf = true := by
  unfold await noteHeld; split
  · split <;> exact h
  · exact memWf_noteWait _ _ _ h

/-- A gated act keeps what the act and a divergence keep. -/
theorem memWf_gated {s : State} (ctx pkg : Nat) (e : Entry) (act : State → State) (h : s.memWf = true)
    (ha : (act s).memWf = true) : (s.gated ctx pkg e act).memWf = true := by
  unfold gated
  split
  · exact ha
  · exact memWf_await _ _ _ h
  · exact h

/-- What the scroll changes, then a change of a group. -/
theorem onlyScroll_modGroup {s t : State} {G : Tbl Group} (h : OnlyScroll { s with groups := G } t) (k : Nat)
    (f : Group → Group) : OnlyScroll { s with groups := (t.modGroup k f).groups } (t.modGroup k f) := by
  unfold OnlyScroll at h
  have hk := congrArg (fun x : State => ({ x with groups := t.groups.adjust k f } : State)) h
  exact hk

/-! ## The checks of an issue -/

end State

open State

section
variable {s : State} {u : Issue} {g : Group} {i : Instr} {gd : Guard}

/-- An instruction whose registers lie in the budget and that has an active fibre acts. -/
theorem onStroke_acts (body : Issue → Group → BitVec 32 → State → State) (hi : s.issuing = some u)
    (hg : s.group? u.gid = some g) (hb : i.inBudget g.budget = true) (ha : g.active u.mask gd ≠ 0) :
    onStroke i gd s body = .next (body u g (g.active u.mask gd) s) := by
  simp only [onStroke, hi, hg, hb, Bool.not_true, Bool.false_eq_true, if_false, if_neg ha]

/-- With no active fibre it moves its stroke on. -/
theorem onStroke_idle (body : Issue → Group → BitVec 32 → State → State) (hi : s.issuing = some u)
    (hg : s.group? u.gid = some g) (hb : i.inBudget g.budget = true) (ha : g.active u.mask gd = 0) :
    onStroke i gd s body = .next (s.advance u i.len) := by
  simp [onStroke, hi, hg, hb, ha]

/-- A register outside the budget raises ILLEGAL_OPERAND. -/
theorem onStroke_illegal (body : Issue → Group → BitVec 32 → State → State) (hi : s.issuing = some u)
    (hg : s.group? u.gid = some g) (hb : i.inBudget g.budget = false) :
    onStroke i gd s body = .next (s.trap u u.mask 0x03 0) := by
  simp [onStroke, hi, hg, hb]

/-- A stroke always answers a next state. -/
theorem onStroke_next (body : Issue → Group → BitVec 32 → State → State) (hi : s.issuing = some u)
    (hg : s.group? u.gid = some g) : ∃ t, onStroke i gd s body = .next t := by
  simp [onStroke, hi, hg]

/-! ## Uniform registers -/

namespace State

theorem logStrk_of_off (cls n : Nat) (v : Word64) (h : (s.scroll g.ctx (pkgOf g.core)).mode = 0) :
    s.logStrk u g cls n v = s := by
  unfold logStrk
  split
  · rfl
  · exact log_of_off _ _ h

@[simp] theorem logStrk_groups (s : State) (u : Issue) (g : Group) (cls n : Nat) (v : Word64) :
    (s.logStrk u g cls n v).groups = s.groups := by
  unfold logStrk
  split
  · rfl
  · exact log_groups _ _ _ _ _

theorem onlyScroll_logStrk (s : State) (u : Issue) (g : Group) (cls n : Nat) (v : Word64) :
    OnlyScroll s (s.logStrk u g cls n v) := by
  unfold logStrk
  split
  · rfl
  · exact onlyScroll_log _ _ _ _ _

/-- A write of a uniform register changes its group, whatever the scroll does. -/
theorem writeS_groups (s : State) (u : Issue) (g : Group) (sd : SReg) (v : Word64) :
    (s.writeS u g sd v).groups = s.groups.adjust u.gid fun h => h.wrS sd v := by
  simp [writeS]

theorem advance_of_group (n : Nat) (hg : s.group? u.gid = some g) :
    s.advance u n = { s with groups := s.groups.put u.gid (g.setPc u.mask (u.pc + BitVec.ofNat 64 n)) } :=
  modGroup_of_group _ hg

theorem orFlags_of_group (fl : Nat) (k : Nat) (hg : s.group? k = some g) :
    s.orFlags k fl = { s with groups := s.groups.put k (g.orFlags fl) } := modGroup_of_group _ hg

end State

/-- What a scalar instruction with one destination does: its register, its flags and its program counters. -/
theorem scalarOp_acts {sd : SReg} (f : Group → Word64 × Nat) (hi : s.issuing = some u) (hg : s.group? u.gid = some g)
    (hb : i.inBudget g.budget = true) (ha : g.active u.mask gd ≠ 0) :
    ∃ t, scalarOp i gd sd f s = .next t ∧ OnlyScroll { s with groups := t.groups } t ∧
      t.groups = s.groups.put u.gid (((g.orFlags (f g).2).wrS sd (f g).1).setPc u.mask (u.pc + BitVec.ofNat 64 i.len)) := by
  refine ⟨_, by rw [scalarOp, onStroke_acts _ hi hg hb ha], ?_, ?_⟩
  · have h := onlyScroll_logStrk ((s.orFlags u.gid (f g).2).modGroup u.gid fun h => h.wrS sd (f g).1) u g 0 sd.toNat (f g).1
    simp only [writeS]
    generalize State.logStrk _ u g 0 sd.toNat (f g).1 = t at h
    exact onlyScroll_modGroup h _ _
  · simp only [advance, modGroup_groups, writeS_groups, State.orFlags]
    rw [Tbl.adjust_of_get? _ hg, Tbl.adjust_of_get? _ (Tbl.get?_put_self _ _ _), Tbl.adjust_of_get? _ (Tbl.get?_put_self _ _ _),
      Tbl.put_put, Tbl.put_put]

end

/-! ## Traps (R351 to R353) -/

namespace State

/-- A trap with a handler, while none is running, enters the handler at once. -/
theorem trap_enters {s : State} {u : Issue} {g : Group} {mask : BitVec 32} (cause : Byte) (xaddr : Word64) (plus8 : Bool)
    (hg : s.group? u.gid = some g) (hx : s.xvec g.ctx ≠ 0) (ht : g.trapMask = 0) :
    s.trap u mask cause xaddr plus8 =
      (s.modGroup u.gid fun g => g.asStroke (u.mask &&& ~~~mask)).enterHandler u.gid mask cause
        (if plus8 then u.pc + 8 else u.pc) xaddr := by
  have hm : ¬(mask &&& g.trapMask ≠ 0) := by rw [ht]; simp
  simp only [trap, hg, if_neg (not_or.2 ⟨hx, hm⟩), if_neg (show ¬(g.trapMask ≠ 0) from fun h => h ht)]

/-- With no handler, or raised by the handler itself, it ends the context (R353). -/
theorem trap_fatal {s : State} {u : Issue} {g : Group} {mask : BitVec 32} (cause : Byte) (xaddr : Word64) (plus8 : Bool)
    (hg : s.group? u.gid = some g) (hx : s.xvec g.ctx = 0 ∨ mask &&& g.trapMask ≠ 0) :
    s.trap u mask cause xaddr plus8 = s.contextFatal g.ctx cause xaddr (s.strokeThread g mask) := by
  simp only [trap, hg, if_pos hx]

end State
end Sys2Proof.Machine
end

