-- ==== Sys2Proof/Machine/Assemble.lean ====
section
/-! DEFINITION. What ikas writes: the placement of instructions with their pads, launch records, layout records, and the
image that is written, read back and relocated at load (R112, R116 to R121, R123, R124, R261, R323). -/

namespace Sys2Proof.Machine

/-! ## Placement in .text (R116 to R118, R123) -/

/-- A first word ends flow: GUARD 15, SENSE 0 and the opcode of JMP, JMPR, RET, GEXIT or FEND (R117). -/
def endsFlow (w : Nat) : Bool :=
  field w 2 5 == 15 && [0x042, 0x043, 0x046, 0x049, 0x048].contains (field w 7 9)

/-- The 64-bit NOP (R116). -/
def nopPad : List Byte := toBytes 8 0x2FBC
/-- The 96-bit filler `(never) smovi s0, 0` (R116). -/
def fillerPad : List Byte := toBytes 12 0xFD

/-- The pads of a gap (R116). -/
def pads (gap : Nat) : List Byte :=
  match gap with
  | 4 => zeros 4
  | 8 => nopPad
  | 12 => fillerPad
  | 16 => nopPad ++ nopPad
  | 20 => nopPad ++ fillerPad
  | _ => []

/-- The gap in front of a label at block offset `o` (R117, rule 1). -/
def labelGap (o : Nat) : Nat := if o == 4 || o == 12 || o == 20 then 12 else if o == 28 then 4 else 0

/-- The gap in front of an instruction of `len` bytes at block offset `o` (R117, rules 2 and 3). -/
def codeGap (o len : Nat) (flow : Bool) : Nat :=
  if 32 < o + len then 32 - o else if o + len == 28 && !flow then 32 - o else 0

/-! ## Launch records (R119, R120, R318, R319, R323) -/

/-- A `.role` line. -/
structure RoleLine where
  entry : Nat
  budget : Nat
  groups : Nat
  fibres : Nat
  team : Bool := false
  deriving DecidableEq, Repr

/-- A `.depend` line; `kind` is 1 for `same` to 5 for `window`. -/
structure DependLine where
  kind : Nat
  px : Nat
  py : Nat
  pz : Nat
  map : Nat
  radius : Nat := 0
  deriving DecidableEq, Repr

/-- A launch block, with the defaults of R120. -/
structure LaunchBlock where
  x : Nat := 1
  y : Nat := 1
  z : Nat := 1
  cluster : Nat := 1
  priority : Nat := 0
  stack : Nat := 0
  shared : Nat := 0
  roles : List RoleLine := []
  tiles : Option (Nat × Nat × Nat) := none
  donemap : Option Nat := none
  depend : Option DependLine := none
  pgtable : Option Nat := none
  deriving DecidableEq, Repr

/-- A role entry (R319). -/
def RoleLine.bytes (r : RoleLine) : List Byte :=
  toBytes 8 r.entry ++ toBytes 2 r.budget ++ toBytes 1 r.groups ++ toBytes 1 r.fibres ++ toBytes 1 (b2n r.team) ++ zeros 3

/-- The launch record of a block: every field that it names, every other byte zero. -/
def LaunchBlock.record (b : LaunchBlock) : List Byte :=
  let d := b.depend.getD { kind := 0, px := 0, py := 0, pz := 0, map := 0 }
  let t := b.tiles.getD (0, 0, 0)
  let roles := (b.roles.take 4).flatMap RoleLine.bytes
  toBytes 2 0x1A57 ++ toBytes 1 1 ++ toBytes 1 b.priority ++ toBytes 1 b.cluster ++ toBytes 1 b.roles.length
    ++ toBytes 1 d.kind ++ toBytes 1 d.radius ++ toBytes 4 b.x ++ toBytes 4 b.y ++ toBytes 4 b.z
    ++ toBytes 4 b.stack ++ toBytes 4 b.shared ++ zeros 4
    ++ roles ++ zeros (64 - roles.length)
    ++ toBytes 2 t.1 ++ toBytes 2 t.2.1 ++ toBytes 2 t.2.2
    ++ toBytes 1 (b2n b.donemap.isSome + 2 * b2n b.pgtable.isSome) ++ zeros 1
    ++ toBytes 8 (b.donemap.getD 0) ++ toBytes 8 d.map ++ toBytes 4 d.px ++ toBytes 4 d.py ++ toBytes 4 d.pz
    ++ zeros 4 ++ toBytes 8 (b.pgtable.getD 0) ++ zeros 112

/-! ## Layout records (R121, R261) -/

/-- A `.dim` line; the stride is in bytes. -/
structure DimLine where
  extent : Nat
  box : Nat
  stride : Int
  deriving DecidableEq, Repr

/-- A layout block: the code of its element format and the log2 of the element's size, its rotation period in lines, its
fill kind with the pattern, and its dimensions, innermost first. -/
structure LayoutBlock where
  elem : Nat
  sizeLog : Nat
  rotate : Nat := 0
  fillKind : Nat := 0
  pattern : Nat := 0
  dims : List DimLine
  deriving DecidableEq, Repr

/-- The code of a rotation period of 0, 4, 8 or 16 lines (R261). -/
def rotationCode (period : Nat) : Nat :=
  match period with
  | 4 => 1
  | 8 => 2
  | 16 => 3
  | _ => 0

/-- A dimension's entry. -/
def DimLine.bytes (d : DimLine) : List Byte :=
  toBytes 4 d.extent ++ toBytes 2 d.box ++ zeros 2 ++ toBytes 8 (BitVec.ofInt 64 d.stride).toNat

/-- The layout record of a block, its padding zero. -/
def LayoutBlock.record (b : LayoutBlock) : List Byte :=
  let dims := (b.dims.take 10).flatMap DimLine.bytes
  toBytes 2 0x5A17 ++ toBytes 1 b.dims.length ++ toBytes 1 b.elem ++ toBytes 1 b.sizeLog ++ toBytes 1 b.fillKind
    ++ toBytes 1 (rotationCode b.rotate) ++ zeros 1 ++ toBytes 8 b.pattern ++ zeros 16
    ++ dims ++ zeros (224 - dims.length)

/-! ## The image (R112, R124) -/

/-- A section as an image holds it; kind 1 is `.text`, 2 `.data`, 3 `.spad`, 4 `.launch`. -/
structure AsmSection where
  kind : Nat
  align : Nat
  bytes : List Byte
  deriving DecidableEq, Repr

/-- A relocation: the section that holds the field, the target section, the field's byte offset. -/
structure Reloc where
  sect : Nat
  target : Nat
  offset : Nat
  deriving DecidableEq, Repr

/-- What an image holds. -/
structure ImageFile where
  sections : List AsmSection
  relocs : List Reloc
  launches : Nat
  deriving DecidableEq, Repr

/-- The base alignment of a section kind (R112). -/
def sectionAlign (kind : Nat) : Nat := if kind == 3 then 256 else 4096

/-- An image as bytes: header, section table, relocation table, contents (log 45 for their places). -/
def ImageFile.bytes (f : ImageFile) : List Byte :=
  let n := f.sections.length
  let rel := 64 + 32 * n
  let base := rel + 16 * f.relocs.length
  let offs := (f.sections.foldl (fun a s => (a.1 ++ [a.2], a.2 + s.bytes.length)) (([] : List Nat), base)).1
  toBytes 4 0x494B4931 ++ toBytes 2 1 ++ toBytes 2 n ++ toBytes 4 f.relocs.length ++ toBytes 4 f.launches
    ++ toBytes 8 64 ++ toBytes 8 rel ++ zeros 32
    ++ (f.sections.zip offs).flatMap (fun x => toBytes 1 x.1.kind ++ zeros 3 ++ toBytes 4 x.1.align ++ toBytes 8 x.2
      ++ toBytes 8 x.1.bytes.length ++ zeros 8)
    ++ f.relocs.flatMap (fun r => toBytes 2 r.sect ++ toBytes 2 r.target ++ zeros 4 ++ toBytes 8 r.offset)
    ++ f.sections.flatMap (fun s => s.bytes)

/-- An image is read from its bytes; none where the magic or the version is wrong. -/
def readImage (b : List Byte) : Option ImageFile :=
  if State.num b 0 4 = 0x494B4931 ∧ State.num b 4 2 = 1 then
    let secs := (List.range (State.num b 6 2)).map fun i =>
      let e := State.slice b (State.num b 16 8 + 32 * i) 32
      ({ kind := State.num e 0 1, align := State.num e 4 4
         bytes := State.slice b (State.num e 8 8) (State.num e 16 8) } : AsmSection)
    let rels := (List.range (State.num b 8 4)).map fun i =>
      let e := State.slice b (State.num b 24 8 + 16 * i) 16
      ({ sect := State.num e 0 2, target := State.num e 2 2, offset := State.num e 8 8 } : Reloc)
    some { sections := secs, relocs := rels, launches := State.num b 12 4 }
  else none

/-- A load address is added to the 64-bit little-endian field at an offset; the field need not be aligned. -/
def relocate (b : List Byte) (offset addr : Nat) : List Byte :=
  b.take offset ++ toBytes 8 (State.num b offset 8 + addr) ++ b.drop (offset + 8)

/-- The sections of an image with every relocation applied, for the load addresses given by section index. -/
def loadSections (f : ImageFile) (addr : List Nat) : List AsmSection :=
  f.relocs.foldl (fun l r => l.modify r.sect fun s => { s with bytes := relocate s.bytes r.offset (addr.getD r.target 0) })
    f.sections

end Sys2Proof.Machine
end

