-- ==== Sys2Proof/Machine/IkasText.lean ====
section
/-! DEFINITION. The text that ikas reads: the tokens of a line, expressions, and their values (R105, R107, R109, R110).
A diagnostic is written as its number of R125. -/

namespace Sys2Proof.Machine.Ikas

/-- Source text; a character stands for a byte of the file. -/
abbrev Text := List Char

/-- A token of a line. A real is a decimal literal with a point or an exponent, `m · 10 ^ e`; a string keeps its escapes. -/
inductive Tok where
  | int (n : Nat)
  | real (m : Nat) (e : Int)
  | str (s : Text)
  | id (s : String)
  | op (s : String)
  deriving DecidableEq, Repr

/-- Letters, digits, `_` and `.` (R105). -/
def isIdChar (c : Char) : Bool := c.isAlphanum || c == '_' || c == '.'

def digitVal (c : Char) : Nat :=
  if c.isDigit then c.toNat - 48 else if 97 ≤ c.toNat then c.toNat - 87 else c.toNat - 55
def isHex (c : Char) : Bool := c.isDigit || (97 ≤ c.toNat && c.toNat ≤ 102) || (65 ≤ c.toNat && c.toNat ≤ 70)

/-- The number that digits of a base write, with `_` allowed between digits (R109). -/
def digits (base : Nat) (ok : Char → Bool) (t : Text) : Option Nat :=
  let ds := t.filter (· != '_')
  if t.isEmpty || t.head? == some '_' || t.getLast? == some '_' || !ds.all ok then none
  else some (ds.foldl (fun n c => n * base + digitVal c) 0)

/-- An exponent: a sign or none, and decimal digits. -/
def exponent (t : Text) : Option Int :=
  match t with
  | '-' :: r => (digits 10 Char.isDigit r).map fun n => -(n : Int)
  | '+' :: r => (digits 10 Char.isDigit r).map fun n => (n : Int)
  | r => (digits 10 Char.isDigit r).map fun n => (n : Int)

/-- A decimal literal from its digits before the point, those after it, and its exponent. -/
def decimal (whole frac : Text) (e : Int) : Option Tok :=
  match digits 10 Char.isDigit whole, (if frac.isEmpty then some 0 else digits 10 Char.isDigit frac) with
  | some a, some b =>
    let k := (frac.filter (· != '_')).length
    some (.real (a * 10 ^ k + b) (e - k))
  | _, _ => none

/-- A numeric literal (R109). -/
def number (t : Text) : Option Tok :=
  match t with
  | '0' :: 'x' :: r => (digits 16 isHex r).map .int
  | '0' :: 'b' :: r => (digits 2 (fun c => c == '0' || c == '1') r).map .int
  | _ =>
    let isE : Char → Bool := fun c => c == 'e' || c == 'E'
    let mant := t.takeWhile fun c => !isE c
    let whole := mant.takeWhile (· != '.')
    let frac := mant.drop (whole.length + 1)
    if t.any isE then (exponent (t.drop (mant.length + 1))).bind (decimal whole frac)
    else if mant.any (· == '.') then decimal whole frac 0
    else (digits 10 Char.isDigit t).map .int

/-- The characters of a literal that starts with a digit: identifier characters, and a sign right after the exponent mark of a
decimal one. -/
def numRun (hex : Bool) : Text → Text
  | c :: d :: r =>
    if (c == 'e' || c == 'E') && !hex && (d == '-' || d == '+') then c :: d :: r.takeWhile isIdChar
    else if isIdChar c then c :: numRun hex (d :: r) else []
  | [c] => if isIdChar c then [c] else []
  | [] => []

/-- The byte of an escape and how many characters follow the backslash in it (R109). -/
def escape (t : Text) : Option (Nat × Nat) :=
  match t with
  | 'n' :: _ => some (10, 1)
  | 't' :: _ => some (9, 1)
  | 'r' :: _ => some (13, 1)
  | '0' :: _ => some (0, 1)
  | '\\' :: _ => some (92, 1)
  | '\'' :: _ => some (39, 1)
  | '"' :: _ => some (34, 1)
  | 'x' :: a :: b :: _ => if isHex a && isHex b then some (digitVal a * 16 + digitVal b, 3) else none
  | _ => none

/-- The bytes of a string with its escapes taken; none for a bad escape or a character that is no byte. -/
def unescape : Nat → Text → Option (List Byte)
  | 0, _ => some []
  | n + 1, t =>
    match t with
    | [] => some []
    | '\\' :: r => (escape r).bind fun x => (unescape n (r.drop x.2)).map (BitVec.ofNat 8 x.1 :: ·)
    | c :: r => if c.toNat < 256 then (unescape n r).map (BitVec.ofNat 8 c.toNat :: ·) else none

/-- The body of a string up to its closing quote, and what follows; none where it is not closed. -/
def stringBody : Text → Option (Text × Text)
  | [] => none
  | '"' :: r => some ([], r)
  | '\\' :: c :: r => (stringBody r).map fun x => ('\\' :: c :: x.1, x.2)
  | c :: r => (stringBody r).map fun x => (c :: x.1, x.2)

/-- A character literal after its opening quote: its value, and what follows. -/
def charBody (t : Text) : Option (Nat × Text) :=
  match t with
  | '\\' :: r =>
    match escape r with
    | some (v, k) => (match r.drop k with | '\'' :: z => some (v, z) | _ => none)
    | none => none
  | '\'' :: _ => none
  | c :: '\'' :: z => if c.toNat < 256 then some (c.toNat, z) else none
  | _ => none

/-- The operators of two characters, then those of one. -/
def opOf (t : Text) : Option (String × Nat) :=
  match t with
  | '<' :: '<' :: _ => some ("<<", 2)
  | '>' :: '>' :: _ => some (">>", 2)
  | '=' :: '=' :: _ => some ("==", 2)
  | '!' :: '=' :: _ => some ("!=", 2)
  | '<' :: '=' :: _ => some ("<=", 2)
  | '>' :: '=' :: _ => some (">=", 2)
  | c :: _ => if "+-*/%~!&^|<>()[],:=".toList.contains c then some (String.ofList [c], 1) else none
  | [] => none

/-- The tokens of a line; a comment ends it. IK101 for a character or token of no form, IK108 for an open string (R105). -/
def lexFrom : Nat → Text → Except Nat (List Tok)
  | 0, _ => .ok []
  | n + 1, t =>
    match t with
    | [] => .ok []
    | ';' :: _ => .ok []
    | '/' :: '/' :: _ => .ok []
    | '"' :: r =>
      match stringBody r with
      | none => .error 108
      | some (s, z) => (lexFrom n z).map (Tok.str s :: ·)
    | '\'' :: r =>
      match charBody r with
      | none => .error 101
      | some (v, z) => (lexFrom n z).map (Tok.int v :: ·)
    | c :: r =>
      if c.isWhitespace then lexFrom n r
      else if c.isDigit then
        let run := numRun (c == '0' && (r.head? == some 'x' || r.head? == some 'b')) t
        match number run with
        | none => .error 101
        | some k => (lexFrom n (t.drop run.length)).map (k :: ·)
      else if isIdChar c then
        let run := t.takeWhile isIdChar
        (lexFrom n (t.drop run.length)).map (Tok.id (String.ofList run) :: ·)
      else
        match opOf t with
        | none => .error 101
        | some (s, k) => (lexFrom n (t.drop k)).map (Tok.op s :: ·)

def lex (t : Text) : Except Nat (List Tok) := lexFrom (t.length + 1) t

/-! ## Registers (R107) -/

inductive RegKind where | v | s | p | sp | x | m | c
  deriving DecidableEq, Repr

def lowerStr (s : String) : String := String.ofList (s.toList.map Char.toLower)

def regKind? : Text → Option RegKind
  | ['v'] => some .v
  | ['s'] => some .s
  | ['p'] => some .p
  | ['s', 'p'] => some .sp
  | ['x'] => some .x
  | ['m'] => some .m
  | ['c'] => some .c
  | _ => none

/-- A register name: the letters of a kind and a decimal number, in range or not. -/
def regOf (s : String) : Option (RegKind × Nat) :=
  let t := s.toList.map Char.toLower
  let pre := t.takeWhile fun c => !c.isDigit
  let num := t.drop pre.length
  if num.isEmpty || !num.all Char.isDigit then none
  else (regKind? pre).map fun k => (k, num.foldl (fun n c => n * 10 + digitVal c) 0)

/-- A name for a symbol: an identifier that is no register name, nor the period alone (R105, R109). -/
def isSymbol (s : String) : Bool := (regOf s).isNone && s != "." && !((s.toList.head?).any Char.isDigit)

/-! ## Expressions (R109) -/

inductive BinOp where
  | mul | div | rem | add | sub | shl | shr | and | xor | or | eq | ne | lt | le | gt | ge
  deriving DecidableEq, Repr

/-- An operator with its level. -/
def binOp? (s : String) : Option (BinOp × Nat) :=
  match s with
  | "*" => some (.mul, 2) | "/" => some (.div, 2) | "%" => some (.rem, 2)
  | "+" => some (.add, 3) | "-" => some (.sub, 3)
  | "<<" => some (.shl, 4) | ">>" => some (.shr, 4)
  | "&" => some (.and, 5) | "^" => some (.xor, 6) | "|" => some (.or, 7)
  | "==" => some (.eq, 8) | "!=" => some (.ne, 8) | "<" => some (.lt, 8) | "<=" => some (.le, 8)
  | ">" => some (.gt, 8) | ">=" => some (.ge, 8)
  | _ => none

inductive Expr where
  | int (n : Int)
  | dot
  | sym (s : String)
  | neg (a : Expr)
  | inv (a : Expr)
  | not (a : Expr)
  | bin (o : BinOp) (a b : Expr)
  | lo32 (a : Expr)
  | hi32 (a : Expr)
  deriving DecidableEq, Repr

mutual
/-- A literal, a symbol, a unary operator, a call or a parenthesis. A register, a string or a real is an operand of another
kind (IK107); anything else is malformed (IK101). -/
def parseUnary : Nat → List Tok → Except Nat (Expr × List Tok)
  | 0, _ => .error 101
  | n + 1, ts =>
    match ts with
    | .int k :: r => .ok (.int k, r)
    | .op "-" :: r => (parseUnary n r).map fun x => (.neg x.1, x.2)
    | .op "~" :: r => (parseUnary n r).map fun x => (.inv x.1, x.2)
    | .op "!" :: r => (parseUnary n r).map fun x => (.not x.1, x.2)
    | .op "(" :: r => parseClose n r
    | .id "lo32" :: .op "(" :: r => (parseClose n r).map fun x => (.lo32 x.1, x.2)
    | .id "hi32" :: .op "(" :: r => (parseClose n r).map fun x => (.hi32 x.1, x.2)
    | .id "." :: r => .ok (.dot, r)
    | .id s :: r => if (regOf s).isSome then .error 107 else .ok (.sym s, r)
    | .str _ :: _ => .error 107
    | .real _ _ :: _ => .error 107
    | .op "[" :: _ => .error 107
    | _ => .error 101
/-- What stands in a parenthesis, and its closing. -/
def parseClose : Nat → List Tok → Except Nat (Expr × List Tok)
  | 0, _ => .error 101
  | n + 1, ts =>
    match parseExpr n 8 ts with
    | .ok (e, .op ")" :: r) => .ok (e, r)
    | .ok _ => .error 101
    | .error k => .error k
/-- An expression of operators up to a level. -/
def parseExpr : Nat → Nat → List Tok → Except Nat (Expr × List Tok)
  | 0, _, _ => .error 101
  | n + 1, level, ts =>
    match parseUnary n ts with
    | .ok (e, r) => parseMore n level e r
    | .error k => .error k
/-- The operators that follow an operand; those of one level associate to the left. -/
def parseMore : Nat → Nat → Expr → List Tok → Except Nat (Expr × List Tok)
  | 0, _, _, _ => .error 101
  | n + 1, level, a, ts =>
    match ts with
    | .op s :: r =>
      match binOp? s with
      | some (o, l) =>
        if l ≤ level then
          match parseExpr n (l - 1) r with
          | .ok (b, z) => parseMore n level (.bin o a b) z
          | .error k => .error k
        else .ok (a, ts)
      | none => .ok (a, ts)
    | _ => .ok (a, ts)
end

/-- An expression that takes all its tokens. -/
def exprOf (ts : List Tok) : Except Nat Expr :=
  match parseExpr (3 * ts.length + 4) 8 ts with
  | .ok (e, []) => .ok e
  | .ok (_, _ :: _) => .error 101
  | .error k => .error k

/-! ## Values (R109, R110) -/

inductive Sec where | text | data | spad | launch
  deriving DecidableEq, Repr

/-- An absolute value, or an address in a section plus an offset. -/
inductive Value where
  | abs (n : Int)
  | rel (s : Sec) (off : Int)
  deriving DecidableEq, Repr

/-- The answer of an evaluation: an error holds the number of its diagnostic, or none where it has been reported already. -/
abbrev Ans := Except (Option Nat)

def fail {α : Type} (k : Nat) : Ans α := .error (some k)

/-- A number of bits that holds two integers as two's complement. -/
def spanBits (a b : Int) : Nat := max a.natAbs.log2 b.natAbs.log2 + 2

def truth (b : Bool) : Int := if b then 1 else 0

def evalBin (o : BinOp) (a b : Int) : Ans Int :=
  let w := spanBits a b
  match o with
  | .mul => .ok (a * b)
  | .div => if b = 0 then fail 303 else .ok (Int.tdiv a b)
  | .rem => if b = 0 then fail 303 else .ok (Int.tmod a b)
  | .add => .ok (a + b)
  | .sub => .ok (a - b)
  | .shl => if b < 0 ∨ 63 < b then fail 303 else .ok (a * 2 ^ b.toNat)
  | .shr => if b < 0 ∨ 63 < b then fail 303 else .ok (a / 2 ^ b.toNat)
  | .and => .ok (BitVec.ofInt w a &&& BitVec.ofInt w b).toInt
  | .xor => .ok (BitVec.ofInt w a ^^^ BitVec.ofInt w b).toInt
  | .or => .ok (BitVec.ofInt w a ||| BitVec.ofInt w b).toInt
  | .eq => .ok (truth (decide (a = b)))
  | .ne => .ok (truth (decide (a ≠ b)))
  | .lt => .ok (truth (decide (a < b)))
  | .le => .ok (truth (decide (a ≤ b)))
  | .gt => .ok (truth (decide (b < a)))
  | .ge => .ok (truth (decide (b ≤ a)))

/-- An operation on values: an address and an offset, or the difference of two addresses of a section; any other on a relocatable
value is IK304 (R110). -/
def evalVals (o : BinOp) (a b : Value) : Ans Value :=
  match a, b with
  | .abs x, .abs y => (evalBin o x y).map .abs
  | .rel s x, .abs y => match o with | .add => .ok (.rel s (x + y)) | .sub => .ok (.rel s (x - y)) | _ => fail 304
  | .abs x, .rel s y => match o with | .add => .ok (.rel s (x + y)) | _ => fail 304
  | .rel s x, .rel r y => if o = .sub ∧ s = r then .ok (.abs (x - y)) else fail 304

/-- An operation on an absolute value. -/
def onAbs (v : Value) (f : Int → Int) : Ans Value :=
  match v with
  | .abs n => .ok (.abs (f n))
  | .rel _ _ => fail 304

/-- The value of an expression, for the values of symbols and that of the period. -/
def Expr.eval (look : String → Ans Value) (dot : Value) : Expr → Ans Value
  | .int n => .ok (.abs n)
  | .dot => .ok dot
  | .sym s => look s
  | .neg a => (a.eval look dot).bind fun v => onAbs v fun n => -n
  | .inv a => (a.eval look dot).bind fun v => onAbs v fun n => -n - 1
  | .not a => (a.eval look dot).bind fun v => onAbs v fun n => truth (decide (n = 0))
  | .lo32 a => (a.eval look dot).bind fun v => onAbs v fun n => n % 2 ^ 32
  | .hi32 a => (a.eval look dot).bind fun v => onAbs v fun n => n % 2 ^ 64 / 2 ^ 32
  | .bin o a b => (a.eval look dot).bind fun x => (b.eval look dot).bind fun y => evalVals o x y

/-! ## Real operands (R108, R113) -/

/-- The exact value of a literal as sign, numerator and denominator: a real with its signs, or the integer of an expression.
DESIGN CHOICE (log 45): no rule says how a real literal stands in a larger expression, whose values are integers; it is refused
there (IK101, IK107). -/
def realOf (look : String → Ans Value) (dot : Value) (ts : List Tok) : Ans (Bool × Nat × Nat) :=
  match ts.getLast? with
  | some (.real m e) =>
    let signs := ts.dropLast
    if signs.all (· == .op "-") then
      .ok (signs.length % 2 == 1, m * 10 ^ e.toNat, 10 ^ (-e).toNat)
    else fail 101
  | _ =>
    match exprOf ts with
    | .error k => fail k
    | .ok x => (x.eval look dot).bind fun v =>
      match v with
      | .abs n => .ok (decide (n < 0), n.natAbs, 1)
      | .rel _ _ => fail 304

/-- A real rounded to nearest even without saturation: its encoding, and whether that is inexact. The number zero is +0. -/
def roundReal (F : Fmt) (x : Bool × Nat × Nat) : Nat × Bool :=
  if x.2.1 = 0 then (F.signed false 0, false)
  else
    let q := quotient x.2.1 0 x.2.2 0
    let r := roundTo F .rne false (.num x.1 q.1 q.2)
    (r.1, Nat.land r.2 (flNX + flOF) != 0)

end Sys2Proof.Machine.Ikas
end

