-- ==== Sys2Proof/Machine/IkasForms.lean ====
section
/-! DEFINITION. The instruction forms of ikas: for each mnemonic its length, its qualifiers, its operands, and the instruction
that they write (R106 to R108, R110, R114, and the form line of each entry). -/

namespace Sys2Proof.Machine.Ikas

/-! ## Reading qualifiers and operands -/

/-- What a form reads: the guard, the qualifiers by class, the budget in force, the address of the statement, and the values of
symbols. -/
structure Cx where
  guard  : Guard
  quals  : List (String × String)
  budget : Nat
  here   : Value
  look   : String → Ans Value

/-- What a form consumes and leaves: the operands still to read, the section of a relocation, warnings. -/
structure Got where
  ops   : List (List Tok)
  reloc : Option Sec := none
  notes : List Nat := []

abbrev P := ReaderT Cx (StateT Got Ans)

def bad {α : Type} (k : Nat) : P α := fun _ _ => fail k
def lift {α : Type} (a : Ans α) : P α := fun _ s => a.map fun x => (x, s)
/-- The value of an option, or a diagnostic. -/
def need {α : Type} (k : Nat) (o : Option α) : P α := match o with | some x => pure x | none => bad k

/-- The next operand; IK106 where there is none. -/
def next : P (List Tok) := fun _ s =>
  match s.ops with
  | t :: r => .ok (t, { s with ops := r })
  | [] => fail 106

def note (k : Nat) : P Unit := fun _ s => .ok ((), { s with notes := s.notes ++ [k] })

/-- The qualifier of a class. -/
def qual (cls : String) : P (Option String) := fun c s =>
  .ok ((c.quals.find? fun x => x.1 == cls).map fun x => x.2, s)
def has (cls : String) : P Bool := do return (← qual cls).isSome
/-- The place of a class's qualifier in a list of names, 0 where none is given (R106). -/
def code (cls : String) (names : List String) : P Nat := do
  match ← qual cls with
  | some q => return names.idxOf q
  | none => return 0

def guard : P Guard := fun c s => .ok (c.guard, s)

/-! ### Registers (R107) -/

/-- A register operand of a kind, with numbers below a bound. -/
def regArg (k : RegKind) (bound : Nat) : P Nat := do
  match ← next with
  | [.id s] =>
    match regOf s with
    | some (k', n) => if k = k' then (if n < bound then return n else bad 201) else bad 107
    | none => bad 107
  | _ => bad 107

def sArg : P SReg := do return BitVec.ofNat 7 (← regArg .s 128)
def pArg : P PReg := do return BitVec.ofNat 4 (← regArg .p 12)
def spArg : P UPred := do return BitVec.ofNat 3 (← regArg .sp 8)
def xArg : P XReg := do return BitVec.ofNat 2 (← regArg .x 4)
def slotArg : P Slot := do return BitVec.ofNat 3 (← regArg .m 6)
def connArg : P (BitVec 4) := do return BitVec.ofNat 4 (← regArg .c 16)

/-- A vector register number: IK201 out of range. -/
def vNumber (s : String) : P Nat :=
  match regOf s with
  | some (.v, n) => if n < 1536 then pure n else bad 201
  | _ => bad 107

/-- The checks of a range against the budget in force (R114). -/
def inBudget (first count : Nat) : P Unit := fun c s =>
  if c.budget ≤ first then fail 202
  else if c.budget < first + count then fail 203
  else .ok ((), s)

/-- A vector operand as written: its first register and, for a range, its count. -/
def vText (ts : List Tok) : P (Nat × Option Nat) := do
  match ts with
  | [.id a] => return (← vNumber a, none)
  | [.id a, .op ":", .id b] =>
    let x ← vNumber a
    let y ← vNumber b
    if y < x then bad 107 else return (x, some (y + 1 - x))
  | .id a :: .op "[" :: _ => if lowerStr a == "v" then bad 207 else bad 107
  | _ => bad 107

/-- A vector operand of a count that the entry requires. -/
def vRange (count : Nat) : P VReg := do
  let (x, n) ← vText (← next)
  if n.any (· != count) then bad 107
  else
    inBudget x count
    return BitVec.ofNat 11 x
def vArg : P VReg := vRange 1

/-- A vector operand whose count the form carries. -/
def vCount (limit : Nat) : P (VReg × Nat) := do
  let (x, n) ← vText (← next)
  let n := n.getD 1
  if limit < n then bad 107
  else
    inBudget x n
    return (BitVec.ofNat 11 x, n)

/-! ### Expressions as operands (R108, R110) -/

def value (ts : List Tok) : P Value := fun c s =>
  match exprOf ts with
  | .error k => fail k
  | .ok e => (e.eval c.look c.here).map fun v => (v, s)

/-- An absolute value. -/
def absValue (ts : List Tok) : P Int := do
  match ← value ts with
  | .abs n => return n
  | .rel _ _ => bad 304

/-- An absolute value in a range; IK205 outside. -/
def intIn (ts : List Tok) (lo hi : Int) : P Int := do
  let n ← absValue ts
  if lo ≤ n ∧ n ≤ hi then return n else bad 205
def natArg (lo hi : Nat) : P Nat := do return (← intIn (← next) lo hi).toNat
def uns16 (ts : List Tok) : P (BitVec 16) := do return BitVec.ofInt 16 (← intIn ts 0 65535)
def code16 : P (BitVec 16) := do uns16 (← next)
/-- A 64-bit immediate, signed or unsigned. -/
def imm64 : P Word64 := do return BitVec.ofInt 64 (← intIn (← next) (-2 ^ 63) (2 ^ 64 - 1))

/-- Operand b of a scalar instruction: a register, or imm16 (R128). -/
def sOp (uns : Bool) : P SOp := do
  let ts ← next
  match ts with
  | [.id s] =>
    match regOf s with
    | some (.s, n) => if n < 128 then return .reg (BitVec.ofNat 7 n) else bad 201
    | some _ => bad 107
    | none => return .imm (BitVec.ofInt 16 (← intIn ts (if uns then 0 else -32768) (if uns then 65535 else 32767)))
  | _ => return .imm (BitVec.ofInt 16 (← intIn ts (if uns then 0 else -32768) (if uns then 65535 else 32767)))

/-- Operand b of format V: a vector register, or the low half of a uniform register (R226). -/
def vOp : P VOp := do
  let ts ← next
  match ts with
  | [.id s] =>
    match regOf s with
    | some (.s, n) => if n < 128 then return .uni (BitVec.ofNat 7 n) else bad 201
    | _ =>
      let (x, _) ← vText ts
      inBudget x 1
      return .vec (BitVec.ofNat 11 x)
  | _ =>
    let (x, n) ← vText ts
    if n.any (· != 1) then bad 107
    else
      inBudget x 1
      return .vec (BitVec.ofNat 11 x)

/-- An operand that may be indexed: `v[xn + F]`, `v[xn]` or a plain register. It answers the register and the index register
(R62, R107). -/
def vIndexed : P (VReg × Option Nat) := do
  let ts ← next
  match ts with
  | .id a :: .op "[" :: .id b :: r =>
    if lowerStr a != "v" then bad 107
    else
      match regOf b, r.getLast? with
      | some (.x, n), some (.op "]") =>
        if 4 ≤ n then bad 201
        else
          let f ← match r.dropLast with
            | [] => pure 0
            | .op "+" :: e => intIn e 0 2047
            | _ => bad 107
          let f := f.toNat
          if 1536 ≤ f then bad 201
          else
            inBudget f 1
            return (BitVec.ofNat 11 f, some n)
      | _, _ => bad 107
  | _ =>
    let (x, n) ← vText ts
    if n.any (· != 1) then bad 107
    else
      inBudget x 1
      return (BitVec.ofNat 11 x, none)

/-- The ix3 code of an indexed vd and an indexed va, of which at most one is indexed (R62). -/
def ixOf (d a : Option Nat) : P Ix :=
  match d, a with
  | none, none => pure 0
  | none, some n => pure (BitVec.ofNat 3 (n + 1))
  | some n, none => if n < 2 then pure (BitVec.ofNat 3 (n + 5)) else bad 207
  | some _, some _ => bad 207

/-! ### Memory operands -/

/-- `[sN + vM + e]`, `[sN + e]` or `[sN]`: base, per-lane offset where the entry has one, and offset below a bound (R107).
DESIGN CHOICE (log 45): `[sN + vM]`, which is none of the three forms, is read with the offset 0. -/
def memArg (lanes : Bool) (bound : Nat) : P (SReg × Option VReg × Nat) := do
  match ← next with
  | .op "[" :: .id b :: r =>
    if r.getLast? != some (.op "]") then bad 107
    else
      let base ← match regOf b with
        | some (.s, n) => if n < 128 then pure (BitVec.ofNat 7 n) else bad 201
        | _ => bad 107
      let (vo, rest) ← match r.dropLast with
        | .op "+" :: .id v :: z =>
          match regOf v with
          | some (.v, n) =>
            if !lanes then bad 107
            else if 1536 ≤ n then bad 201
            else do
              inBudget n 1
              pure (some (BitVec.ofNat 11 n), z)
          | _ => pure (none, .op "+" :: .id v :: z)
        | z => pure (none, z)
      let off ← match rest with
        | [] => pure 0
        | .op "+" :: e => intIn e 0 (bound - 1 : Nat)
        | _ => bad 107
      return (base, vo, off.toNat)
  | _ => bad 107

/-- `[sN + e]` with an unsigned 32-bit offset. -/
def wordMem : P (SReg × Word32) := do
  let (b, _, o) ← memArg false (2 ^ 32)
  return (b, BitVec.ofNat 32 o)

/-! ### Codes of qualifiers -/

def roundingQ : P Rounding := do need 104 (rounding? (← code "rnd" ["rne", "rtz", "rdn", "rup"]))
def typeNames : List String := ["i32", "n32", "f32", "f16", "bf16", "e4m3", "e5m2", "e2m1"]
/-- The type qualifier, .i32 where none is given, as a type that the entry accepts. -/
def typeQ {α : Type} (f : Nat → Option α) : P α := do need 104 (f (← code "type" typeNames))
def scopeNames : List String := ["grp", "coh", "clu", "die", "pkg", "dom"]
def scopeQ : P Scope := do need 104 (scope? (← code "scope" scopeNames))
/-- The scope of a count-barrier instruction, .coh where none is given (R195). -/
def cbScopeQ : P Scope := do
  match ← qual "scope" with
  | none => return .coh
  | some _ => scopeQ
def spaceQ : P Space := do need 104 (space? (← code "space" ["sh", "cl", "sp", "stk"]))
def wordSpaceQ : P WordSpace := do need 104 (wordSpace? (← code "space" ["sh", "cl", "sp"]))
def sizeNames : List String := ["b8", "b16", "b32", "b64", "b128", "i8", "i16"]
def sizeQ : P Size := do need 104 (size? (← code "size" sizeNames))
def orderNames : List String := ["plain", "acq", "rel", "acq.rel", "sc"]
def orderingQ : P Ordering := do need 104 (ordering? (← code "order" orderNames) (← scopeQ).code)
def hintQ : P Hint := do need 104 (hint? (← code "hint" ["none", "likely", "unlikely", "uniform"]))
def intConds : List String := ["eq", "ne", "lt", "le", "gt", "ge", "tst"]
def floatConds : List String := ["eq", "ne", "lt", "le", "gt", "ge", "ord", "uno"]
def intCondQ : P IntCond := do need 104 (intCond? (← code "fn" intConds))
def floatCondQ : P FloatCond := do need 104 (floatCond? (← code "fn" floatConds))
/-- The truth tables of SPLOG and VPLOG (R134). -/
def plogFns : List (String × Nat) :=
  [("and", 8), ("nand", 7), ("andn", 4), ("or", 14), ("nor", 1), ("orn", 13), ("xor", 6), ("xnor", 9), ("mova", 12),
   ("nota", 3), ("set", 15), ("clear", 0)] ++ (List.range 16).map fun i => ("lut" ++ toString i, i)
def plogQ : P (BitVec 4) := do
  match ← qual "fn" with
  | none => return 0
  | some q => return BitVec.ofNat 4 (((plogFns.find? fun x => x.1 == q).map fun x => x.2).getD 0)

/-! ## Forms -/

/-- An instruction form: its mnemonic, its length in bytes, the classes of qualifiers that it accepts with their names, how many
operands it takes for the qualifiers given, whether its effect would occur once for each stroke (R115), and its reading. A class
named `pair` holds the two spaces of a copy. -/
structure Form where
  name  : String
  len   : Nat
  quals : List (String × List String)
  arity : List (String × String) → Nat
  once  : Bool := false
  parse : P Instr

def hasQ (cls : String) (q : List (String × String)) : Bool := q.any fun x => x.1 == cls

def clsUns : String × List String := ("uns", ["uns"])
def clsSat : String × List String := ("sat", ["sat"])
def clsNr : String × List String := ("nr", ["nr"])
def clsRnd : String × List String := ("rnd", ["rne", "rtz", "rdn", "rup"])
def clsType (l : List String) : String × List String := ("type", l)
def clsInt : String × List String := clsType ["i32", "n32"]
def clsFloat : String × List String := clsType ["f32", "f16", "bf16"]
def clsTo : String × List String := ("to", typeNames.map fun t => "to_" ++ t)
def clsHint : String × List String := ("hint", ["likely", "unlikely", "uniform"])
def clsScope : String × List String := ("scope", scopeNames)
def clsWordSpace : String × List String := ("space", ["sh", "cl", "sp"])
def clsFlag (n : String) : String × List String := (n, [n])

/-- A form with a fixed number of operands. -/
def form (name : String) (len n : Nat) (quals : List (String × List String)) (parse : P Instr) : Form :=
  { name, len, quals, arity := fun _ => n, parse }
/-- The same, for an instruction whose effect would occur once for each stroke. -/
def formOnce (name : String) (len n : Nat) (quals : List (String × List String)) (parse : P Instr) : Form :=
  { name, len, quals, arity := fun _ => n, once := true, parse }

/-! ### Scalar forms (R126 to R141) -/

/-- `op sd, sa, b` with a sign-extended or a zero-extended immediate. -/
def intForm (name : String) (uns : Bool) (mk : Guard → SReg → SReg → SOp → Instr) : Form :=
  form name 8 3 [] do return mk (← guard) (← sArg) (← sArg) (← sOp uns)
/-- `op[.uns] sd, sa, b`. -/
def unsForm (name : String) (mk : Guard → Bool → SReg → SReg → SOp → Instr) : Form :=
  form name 8 3 [clsUns] do
    let u ← has "uns"
    return mk (← guard) u (← sArg) (← sArg) (← sOp u)
def twoS (name : String) (mk : Guard → SReg → SReg → Instr) : Form :=
  form name 8 2 [] do return mk (← guard) (← sArg) (← sArg)
def sFloatForm (name : String) (mk : Guard → Rounding → SReg → SReg → SReg → Instr) : Form :=
  form name 8 3 [clsRnd, clsType ["f32"]] do return mk (← guard) (← roundingQ) (← sArg) (← sArg) (← sArg)

/-- The field of SBFX and SBFI (R135). -/
def fieldArgs : P (BitVec 6 × BitVec 7) := do
  let pos ← natArg 0 63
  let width ← natArg 1 64
  if 64 < pos + width then bad 205 else return (BitVec.ofNat 6 pos, BitVec.ofNat 7 width)

def scalarForms : List Form := [
  { name := "smov", len := 8, quals := [("fn", ["getp", "setp"])], arity := fun q => if hasQ "fn" q then 1 else 2
    parse := do
      let g ← guard
      match ← qual "fn" with
      | none => return .smov g (← sArg) (← sArg)
      | some "getp" => return .smovGetp g (← sArg)
      | some _ => return .smovSetp g (← sArg) },
  form "smovi" 12 2 [] do
    let g ← guard
    let sd ← sArg
    let ts ← next
    match ← value ts with
    | .rel s off => fun _ w => .ok (.smovi g sd (BitVec.ofInt 64 off), { w with reloc := some s })
    | .abs n => if -2 ^ 63 ≤ n ∧ n ≤ 2 ^ 64 - 1 then return .smovi g sd (BitVec.ofInt 64 n) else bad 205,
  intForm "sadd" false .sadd,
  form "saddi" 12 3 [] do return .saddi (← guard) (← sArg) (← sArg) (← imm64),
  intForm "ssub" false .ssub,
  intForm "smul" false .smul,
  unsForm "smulhi" .smulhi,
  unsForm "sdiv" .sdiv,
  unsForm "srem" .srem,
  intForm "sand" false .sand,
  intForm "sor" false .sor,
  intForm "sxor" false .sxor,
  intForm "sshl" true .sshl,
  intForm "sshr" true .sshr,
  intForm "sshra" true .sshra,
  unsForm "smin" .smin,
  unsForm "smax" .smax,
  form "ssel" 8 4 [] do
    let g ← guard
    let sd ← sArg
    let k ← spArg
    return .ssel g k sd (← sArg) (← sOp false),
  form "scmp" 8 3 [("fn", intConds), clsUns] do
    let u ← has "uns"
    return .scmp (← guard) (← intCondQ) u (← spArg) (← sArg) (← sOp u),
  form "splog" 8 3 [("fn", plogFns.map fun x => x.1)] do
    return .splog (← guard) (← plogQ) (← spArg) (← spArg) (← spArg),
  form "slea" 8 3 [("fn", ["0", "1", "2", "3", "4", "5", "6", "7"])] do
    let k ← code "fn" ["0", "1", "2", "3", "4", "5", "6", "7"]
    return .slea (← guard) (BitVec.ofNat 3 k) (← sArg) (← sArg) (← sOp false),
  form "sbfx" 8 4 [clsFlag "sx"] do
    let x ← has "sx"
    let g ← guard
    let sd ← sArg
    let sa ← sArg
    let (pos, width) ← fieldArgs
    return .sbfx g x sd sa pos width,
  form "sbfi" 8 4 [] do
    let g ← guard
    let sd ← sArg
    let sa ← sArg
    let (pos, width) ← fieldArgs
    return .sbfi g sd sa pos width,
  twoS "sclz" .sclz,
  twoS "spopc" .spopc,
  sFloatForm "sfadd" .sfadd,
  sFloatForm "sfmul" .sfmul,
  sFloatForm "sfma" .sfma,
  form "sfcmp" 8 3 [("fn", floatConds), clsType ["f32"]] do
    return .sfcmp (← guard) (← floatCondQ) (← spArg) (← sArg) (← sArg),
  form "sfcvt" 8 2 [clsType typeNames, clsTo, clsRnd, clsSat] do
    let dst ← need 104 (elemTy? (← code "to" (typeNames.map fun t => "to_" ++ t)))
    return .sfcvt (← guard) (← typeQ elemTy?) dst (← roundingQ) (← has "sat") (← sArg) (← sArg)]

/-! ### Control forms (R142 to R155) -/

/-- A target in this section: the offset from the branch's 8-byte boundary, a multiple of 8 (R85). -/
def target : P Word32 := do
  let v ← value (← next)
  let d ← fun c s => (evalVals .sub v c.here).map fun x => (x, s)
  let back ← fun c s => (match c.here with | .rel _ h => .ok (h % 8, s) | .abs _ => fail 304 : Ans (Int × Got))
  match d with
  | .rel _ _ => bad 304
  | .abs n =>
    let off := n + back
    if off % 8 = 0 ∧ -2 ^ 31 ≤ off ∧ off < 2 ^ 31 then return BitVec.ofInt 32 off else bad 206

def bare (name : String) (mk : Guard → Instr) : Form := form name 8 0 [] do return mk (← guard)
def oneS (name : String) (mk : Guard → SReg → Instr) : Form := form name 8 1 [] do return mk (← guard) (← sArg)
def hinted (name : String) (mk : Guard → Hint → Word32 → Instr) : Form :=
  form name 8 1 [clsHint] do return mk (← guard) (← hintQ) (← target)

def controlForms : List Form := [
  hinted "br" .br, hinted "vbr" .vbr, hinted "jmp" .jmp,
  oneS "jmpr" .jmpr,
  form "call" 8 1 [] do return .call (← guard) (← target),
  oneS "callr" .callr,
  -- `ret` and `ret sa`: the count is that of the operands given, at most one
  { name := "ret", len := 8, quals := [], arity := fun _ => 1
    parse := fun c s => match s.ops with
      | [] => .ok (.ret c.guard 127, s)
      | _ => (do return .ret (← guard) (← sArg) : P Instr) c s },
  bare "meet" .meet, bare "fend" .fend,
  oneS "gexit" .gexit,
  bare "yield" .yield,
  form "sleep" 8 1 [] do return .sleep (← guard) (← sOp true),
  bare "nop" .nop]

/-! ### Vector forms (R219 to R243) -/

/-- `op[.type][.sat] vd, va, b`. -/
def vIntSat (name : String) (mk : Guard → Bool → IntTy → Bool → VReg → VReg → VOp → Instr) : Form :=
  form name 8 3 [clsInt, clsSat, clsNr] do
    return mk (← guard) (← has "nr") (← typeQ intTy?) (← has "sat") (← vArg) (← vArg) (← vOp)
def vIntForm (name : String) (mk : Guard → Bool → IntTy → VReg → VReg → VOp → Instr) : Form :=
  form name 8 3 [clsInt, clsNr] do return mk (← guard) (← has "nr") (← typeQ intTy?) (← vArg) (← vArg) (← vOp)
def vBits (name : String) (mk : Guard → Bool → VReg → VReg → VOp → Instr) : Form :=
  form name 8 3 [clsNr] do return mk (← guard) (← has "nr") (← vArg) (← vArg) (← vOp)
def vUnary (name : String) (mk : Guard → Bool → VReg → VReg → Instr) : Form :=
  form name 8 2 [clsNr] do return mk (← guard) (← has "nr") (← vArg) (← vArg)
def vUnarySat (name : String) (mk : Guard → Bool → Bool → VReg → VReg → Instr) : Form :=
  form name 8 2 [clsType ["i32"], clsSat, clsNr] do
    return mk (← guard) (← has "nr") (← has "sat") (← vArg) (← vArg)

/-- The reduction types of VRED and VSCAN: a rounding is of .f32 only (R242). -/
def redTyQ : P RedTy := do
  let r ← roundingQ
  match ← code "type" typeNames with
  | 0 => if r = .rne then return .i32 else bad 104
  | 1 => if r = .rne then return .n32 else bad 104
  | _ => return .f32 r
def redFns : List String := ["add", "min", "max", "and", "or", "xor", "mul"]
def redFnQ : P RedFn := do need 104 (redFn? (← code "fn" redFns))

def vectorForms : List Form := [
  form "vmov" 12 2 [clsNr] do
    let g ← guard
    let nr ← has "nr"
    -- both operands are ranges of one count, or at most one of them is indexed
    let ops ← fun _ s => .ok (s.ops, s)
    if ops.any fun t => t.any (· == .op "[") then
      let (d, dx) ← vIndexed
      let (a, ax) ← vIndexed
      return .vmov g nr (← ixOf dx ax) 0 d a
    else
      let (d, n) ← vCount 64
      let (a, k) ← vCount 64
      if n ≠ k then bad 107 else return .vmov g nr 0 (BitVec.ofNat 6 (n - 1)) d a,
  form "vmovi" 12 2 [clsType ["i32", "n32", "f32"], clsNr] do
    let g ← guard
    let nr ← has "nr"
    let ty ← typeQ elemTy?
    let (d, dx) ← vIndexed
    let ix ← ixOf dx none
    let ts ← next
    match ty with
    | .f32 =>
      let x ← fun c s => (realOf c.look c.here ts).map fun x => (x, s)
      let r := roundReal fmtF32 x
      if r.2 then note 605
      return .vmovi g nr ix ty d (BitVec.ofNat 32 r.1)
    | .n32 => return .vmovi g nr ix ty d (BitVec.ofInt 32 (← intIn ts 0 (2 ^ 32 - 1)))
    | _ => return .vmovi g nr ix ty d (BitVec.ofInt 32 (← intIn ts (-2 ^ 31) (2 ^ 31 - 1))),
  form "vmovx" 8 2 [clsNr] do return .vmovx (← guard) (← has "nr") (← xArg) (← vArg),
  form "vstx" 8 2 [clsNr] do return .vstx (← guard) (← has "nr") (← vArg) (← xArg),
  form "viota" 8 1 [clsFlag "rank", clsNr] do return .viota (← guard) (← has "nr") (← has "rank") (← vArg),
  vIntSat "vadd" .vadd, vIntSat "vsub" .vsub, vIntSat "vmul" .vmul,
  vIntForm "vmulhi" .vmulhi,
  form "vmad" 12 4 [clsInt, clsSat, clsNr] do
    let g ← guard
    let nr ← has "nr"
    let ty ← typeQ intTy?
    let sat ← has "sat"
    let (d, dx) ← vIndexed
    let (a, ax) ← vIndexed
    return .vmad g nr (← ixOf dx ax) ty sat d a (← vArg) (← vArg),
  vIntForm "vdiv" .vdiv, vIntForm "vrem" .vrem,
  vBits "vand" .vand, vBits "vor" .vor, vBits "vxor" .vxor,
  vUnary "vnot" .vnot,
  vBits "vshl" .vshl, vBits "vshr" .vshr, vBits "vshra" .vshra,
  vIntForm "vmin" .vmin, vIntForm "vmax" .vmax,
  vUnarySat "vabs" .vabs, vUnarySat "vneg" .vneg,
  form "vsel" 12 4 [clsNr] do
    let g ← guard
    let nr ← has "nr"
    let (d, dx) ← vIndexed
    let (a, ax) ← vIndexed
    return .vsel g nr (← ixOf dx ax) d a (← vArg) (← vArg),
  form "vcmp" 8 3 [("fn", intConds), clsInt, clsNr] do
    return .vcmp (← guard) (← has "nr") (← intCondQ) (← typeQ intTy?) (← pArg) (← vArg) (← vOp),
  form "vplog" 8 3 [("fn", plogFns.map fun x => x.1), clsNr] do
    return .vplog (← guard) (← has "nr") (← plogQ) (← pArg) (← pArg) (← pArg),
  vUnary "vclz" .vclz, vUnary "vpopc" .vpopc,
  form "vbfx" 12 4 [clsInt, clsNr] do
    let g ← guard
    let nr ← has "nr"
    let ty ← typeQ intTy?
    let (d, dx) ← vIndexed
    let (a, ax) ← vIndexed
    return .vbfx g nr (← ixOf dx ax) ty d a (← vArg) (← vArg),
  form "vbfi" 12 4 [clsNr] do
    let g ← guard
    let nr ← has "nr"
    let (d, dx) ← vIndexed
    let (a, ax) ← vIndexed
    return .vbfi g nr (← ixOf dx ax) d a (← vArg) (← vArg),
  form "vperm" 12 4 [clsNr] do return .vperm (← guard) (← has "nr") (← vArg) (← vArg) (← vArg) (← vArg),
  { name := "vshfl", len := 12, quals := [("fn", ["up", "down", "xor", "rot"]), clsNr]
    arity := fun q => if q.any fun x => x.1 == "fn" && (x.2 == "xor" || x.2 == "rot") then 3 else 4
    parse := do
      let g ← guard
      let nr ← has "nr"
      let m ← code "fn" ["up", "down", "xor", "rot"]
      let d ← vArg
      let a ← vArg
      let b ← vArg
      match m with
      | 0 => return .vshfl g nr (.up (← vArg)) d a b
      | 1 => return .vshfl g nr (.down (← vArg)) d a b
      | 2 => return .vshfl g nr .xor d a b
      | _ => return .vshfl g nr .rot d a b },
  form "qswap" 8 2 [("fn", ["h", "v", "d"]), clsNr] do
    let m ← code "fn" ["none", "h", "v", "d"]
    if m = 0 then bad 104 else return .qswap (← guard) (← has "nr") (BitVec.ofNat 2 m) (← vArg) (← vArg),
  form "qbcast" 8 2 [("fn", ["l0", "l1", "l2", "l3"]), clsNr] do
    let k ← code "fn" ["l0", "l1", "l2", "l3"]
    return .qbcast (← guard) (← has "nr") (BitVec.ofNat 2 k) (← vArg) (← vArg),
  form "vred" 8 2 [("fn", redFns), clsType ["i32", "n32", "f32"], clsRnd, clsNr] do
    return .vred (← guard) (← has "nr") (← redFnQ) (← redTyQ) (← vArg) (← vArg),
  form "vscan" 8 2 [("fn", redFns), clsFlag "excl", clsType ["i32", "n32", "f32"], clsRnd, clsNr] do
    return .vscan (← guard) (← has "nr") (← redFnQ) (← has "excl") (← redTyQ) (← vArg) (← vArg),
  form "vballot" 8 2 [clsNr] do return .vballot (← guard) (← has "nr") (← sArg) (← pArg),
  form "vtos" 8 2 [("fn", ["sx", "hi"]), clsNr] do
    let m ← code "fn" ["none", "sx", "hi"]
    let mode : VtosMode := match m with | 0 => .zext | 1 => .sext | _ => .hi
    return .vtos (← guard) (← has "nr") mode (← sArg) (← vArg),
  form "stov" 8 2 [clsFlag "hi", clsNr] do return .stov (← guard) (← has "nr") (← has "hi") (← vArg) (← sArg),
  form "ptest" 8 2 [("fn", ["any", "all", "none"]), clsNr] do
    let m ← code "fn" ["any", "all", "none"]
    let mode : TestMode := match m with | 0 => .any | 1 => .all | _ => .none
    return .ptest (← guard) (← has "nr") mode (← spArg) (← pArg)]

/-! ### Vector float forms (R244 to R252) -/

/-- `op.type[.rnd][.sat] vd, va, vb` in format V4. -/
def vFloat2 (name : String) (mk : Guard → Bool → Ix → FloatTy → Rounding → Bool → VReg → VReg → VReg → Instr) : Form :=
  form name 12 3 [clsFloat, clsRnd, clsSat, clsNr] do
    let g ← guard
    let nr ← has "nr"
    let ty ← typeQ floatTy?
    let r ← roundingQ
    let sat ← has "sat"
    let (d, dx) ← vIndexed
    let (a, ax) ← vIndexed
    return mk g nr (← ixOf dx ax) ty r sat d a (← vArg)

/-- The type .f32 has to be written (R244, R246). -/
def f32Only : P Unit := do if (← code "type" typeNames) = 2 then pure () else bad 104

/-- `op.f32[.rnd][.sat] vd, va`. -/
def vFloat1 (name : String) (mk : Guard → Bool → Ix → Rounding → Bool → VReg → VReg → Instr) : Form :=
  form name 12 2 [clsType ["f32"], clsRnd, clsSat, clsNr] do
    let g ← guard
    let nr ← has "nr"
    f32Only
    let r ← roundingQ
    let sat ← has "sat"
    let (d, dx) ← vIndexed
    let (a, ax) ← vIndexed
    return mk g nr (← ixOf dx ax) r sat d a
/-- `op.f32[.rnd][.sat] vd, va, vb`. -/
def vFloat32 (name : String) (mk : Guard → Bool → Ix → Rounding → Bool → VReg → VReg → VReg → Instr) : Form :=
  form name 12 3 [clsType ["f32"], clsRnd, clsSat, clsNr] do
    let g ← guard
    let nr ← has "nr"
    f32Only
    let r ← roundingQ
    let sat ← has "sat"
    let (d, dx) ← vIndexed
    let (a, ax) ← vIndexed
    return mk g nr (← ixOf dx ax) r sat d a (← vArg)

def clsHalf : String × List String := clsType ["f16", "bf16"]
def clsFp8 : String × List String := clsType ["e4m3", "e5m2"]

def floatForms : List Form := [
  vFloat2 "vfadd" .vfadd, vFloat2 "vfsub" .vfsub, vFloat2 "vfmul" .vfmul,
  form "vfma" 12 4 [clsFloat, clsRnd, clsSat, clsNr] do
    let g ← guard
    let nr ← has "nr"
    let ty ← typeQ floatTy?
    let r ← roundingQ
    let sat ← has "sat"
    let (d, dx) ← vIndexed
    let (a, ax) ← vIndexed
    return .vfma g nr (← ixOf dx ax) ty r sat d a (← vArg) (← vArg),
  form "vfmin" 8 3 [clsFloat, clsNr] do
    return .vfmin (← guard) (← has "nr") (← typeQ floatTy?) (← vArg) (← vArg) (← vOp),
  form "vfmax" 8 3 [clsFloat, clsNr] do
    return .vfmax (← guard) (← has "nr") (← typeQ floatTy?) (← vArg) (← vArg) (← vOp),
  form "vfabs" 8 2 [clsFloat, clsNr] do return .vfabs (← guard) (← has "nr") (← typeQ floatTy?) (← vArg) (← vArg),
  form "vfneg" 8 2 [clsFloat, clsNr] do return .vfneg (← guard) (← has "nr") (← typeQ floatTy?) (← vArg) (← vArg),
  form "vfcmp" 8 3 [("fn", floatConds), clsType ["f32"], clsNr] do
    f32Only
    return .vfcmp (← guard) (← has "nr") (← floatCondQ) (← pArg) (← vArg) (← vOp),
  vFloat1 "vfrcp" .vfrcp, vFloat1 "vfrsq" .vfrsq, vFloat1 "vfsqrt" .vfsqrt,
  vFloat32 "vfdiv" .vfdiv,
  vFloat1 "vfexp2" .vfexp2, vFloat1 "vflog2" .vflog2,
  vFloat32 "vfscl" .vfscl,
  form "vfexpo" 8 2 [clsType ["f32"], clsNr] do
    f32Only
    return .vfexpo (← guard) (← has "nr") (← vArg) (← vArg),
  form "vfclass" 8 2 [clsType ["f32", "f16", "bf16", "e4m3", "e5m2"], clsNr] do
    return .vfclass (← guard) (← has "nr") (← typeQ classTy?) (← vArg) (← vArg),
  form "vcvt" 12 2 [clsType typeNames, clsTo, clsRnd, clsSat, clsNr] do
    let g ← guard
    let nr ← has "nr"
    let src ← typeQ elemTy?
    let dst ← need 104 (elemTy? (← code "to" (typeNames.map fun t => "to_" ++ t)))
    let r ← roundingQ
    let sat ← has "sat"
    let (d, dx) ← vIndexed
    let (a, ax) ← vIndexed
    return .vcvt g nr (← ixOf dx ax) src dst r sat d a,
  form "vpack2" 12 3 [clsHalf, clsRnd, clsSat, clsNr] do
    return .vpack2 (← guard) (← has "nr") (← typeQ halfTy?) (← roundingQ) (← has "sat") (← vArg) (← vArg) (← vArg),
  form "vunpack2" 12 2 [clsHalf, clsNr] do
    return .vunpack2 (← guard) (← has "nr") (← typeQ halfTy?) (← vRange 2) (← vArg),
  form "vpack4" 12 2 [clsFp8, clsRnd, clsSat, clsNr] do
    return .vpack4 (← guard) (← has "nr") (← typeQ fp8Ty?) (← roundingQ) (← has "sat") (← vArg) (← vRange 4),
  form "vunpack4" 12 2 [clsFp8, clsNr] do
    return .vunpack4 (← guard) (← has "nr") (← typeQ fp8Ty?) (← vRange 4) (← vArg),
  form "vqpack" 12 2 [clsType ["e2m1"], clsRnd, clsNr] do
    if (← code "type" typeNames) ≠ 7 then bad 104
    else return .vqpack (← guard) (← has "nr") (← roundingQ) (← vArg) (← vArg),
  form "vqunpk" 12 2 [clsType ["e2m1"], clsNr] do
    if (← code "type" typeNames) ≠ 7 then bad 104
    else return .vqunpk (← guard) (← has "nr") (← vArg) (← vArg),
  form "vdot2" 12 4 [clsHalf, clsRnd, clsSat, clsNr] do
    return .vdot2 (← guard) (← has "nr") (← typeQ halfTy?) (← roundingQ) (← has "sat") (← vArg) (← vArg) (← vArg) (← vArg),
  form "vdot4" 12 4 [clsFp8, clsRnd, clsSat, clsNr] do
    return .vdot4 (← guard) (← has "nr") (← typeQ fp8Ty?) (← roundingQ) (← has "sat") (← vArg) (← vArg) (← vArg) (← vArg)]

/-! ### Memory and synchronisation forms (R180 to R197) -/

def clsOrder (l : List String) : String × List String := ("order", l)
def clsSpace : String × List String := ("space", ["sh", "cl", "sp", "stk"])
def clsSize (l : List String) : String × List String := ("size", l)
def storeSizes : List String := ["b8", "b16", "b32", "b64"]
/-- How many vector registers an access of a size holds (R182). -/
def sizeRegs (sz : Size) : Nat := match sz with | .b64 => 2 | .b128 => 4 | _ => 1

def atomFns : List String := ["add", "and", "or", "xor", "min", "max", "umin", "umax", "xchg", "cas", "fadd"]
def atomFnQ : P AtomFn := do
  match ← code "fn" atomFns with
  | 0 => return .add | 1 => return .and | 2 => return .or | 3 => return .xor | 4 => return .min | 5 => return .max
  | 6 => return .umin | 7 => return .umax | 8 => return .xchg | 9 => return .cas | _ => return .fadd
def clsAtom (l : List (String × List String)) : List (String × List String) :=
  [("fn", atomFns), clsFlag "fetch", clsOrder ["acq", "rel", "acq.rel", "sc"], clsScope, clsWordSpace,
   clsSize ["b32", "b64"]] ++ l
/-- .b64 of an atomic; its size has to be written, since code 0 is .b8. -/
def b64Q : P Bool := do
  match ← code "size" sizeNames with
  | 2 => return false
  | 3 => return true
  | _ => bad 104

/-- The VWord size of WAITW, .b32 where none is given. -/
def waitSizeQ : P Bool := do return (← qual "size") == some "b64"

def memoryForms : List Form := [
  form "vld" 12 2 [clsOrder ["acq", "sc"], clsScope, clsSpace, clsSize sizeNames] do
    let g ← guard
    let sz ← sizeQ
    let o ← orderingQ
    let ms ← spaceQ
    let d ← vRange (sizeRegs sz)
    let (b, vo, off) ← memArg true (2 ^ 24)
    return .vld g ms sz o d b vo (BitVec.ofNat 24 off),
  form "vst" 12 2 [clsOrder ["rel", "sc"], clsScope, clsSpace, clsSize (storeSizes ++ ["b128"])] do
    let g ← guard
    let sz ← sizeQ
    let o ← orderingQ
    let ms ← spaceQ
    let (b, vo, off) ← memArg true (2 ^ 24)
    let d ← vRange (sizeRegs sz)
    return .vst g ms sz o d b vo (BitVec.ofNat 24 off),
  form "vldc" 12 2 [clsNr, clsWordSpace, clsSize ["b32", "b64", "b128"]] do
    let g ← guard
    let nr ← has "nr"
    let sz ← sizeQ
    let ms ← wordSpaceQ
    let d ← vRange (sizeRegs sz)
    let (b, vo, off) ← memArg true (2 ^ 24)
    return .vldc g nr ms sz d b vo (BitVec.ofNat 24 off),
  form "sld" 12 2 [clsOrder ["acq", "sc"], clsScope, clsSpace, clsSize (storeSizes ++ ["i8", "i16"])] do
    let g ← guard
    let sz ← sizeQ
    let o ← orderingQ
    let ms ← spaceQ
    let d ← sArg
    let (b, _, off) ← memArg false (2 ^ 24)
    return .sld g ms sz o d b (BitVec.ofNat 24 off),
  form "sst" 12 2 [clsOrder ["rel", "sc"], clsScope, clsSpace, clsSize storeSizes] do
    let g ← guard
    let sz ← sizeQ
    let o ← orderingQ
    let ms ← spaceQ
    let (b, _, off) ← memArg false (2 ^ 24)
    return .sst g ms sz o (← sArg) b (BitVec.ofNat 24 off),
  form "vatom" 12 2 (clsAtom []) do
    let g ← guard
    let fn ← atomFnQ
    let fetch ← has "fetch"
    let o ← orderingQ
    let ms ← wordSpaceQ
    let b64 ← b64Q
    let d ← vRange ((if b64 then 2 else 1) * (if fn = .cas then 2 else 1))
    let (b, vo, off) ← memArg true (2 ^ 20)
    return .vatom g fn fetch ms b64 o d b vo (BitVec.ofNat 20 off),
  form "satom" 12 2 (clsAtom []) do
    let g ← guard
    let fn ← atomFnQ
    let fetch ← has "fetch"
    let o ← orderingQ
    let ms ← wordSpaceQ
    let b64 ← b64Q
    let d ← sArg
    let (b, _, off) ← memArg false (2 ^ 20)
    return .satom g fn fetch ms b64 o d b (BitVec.ofNat 20 off),
  form "spushv" 12 1 [] do
    let g ← guard
    let (d, n) ← vCount 1536
    return .spushv g d (BitVec.ofNat 24 n),
  form "spopv" 12 1 [] do
    let g ← guard
    let (d, n) ← vCount 1536
    return .spopv g d (BitVec.ofNat 24 n),
  form "fence" 12 0 [clsOrder ["acq", "rel", "acq.rel", "sc"], clsScope] do
    return .fence (← guard) (← need 104 (fenceOrder? (← code "order" orderNames))) (← scopeQ),
  form "waitw" 16 5 [clsFlag "acq", clsScope, clsWordSpace, clsSize ["b32", "b64"]] do
    let g ← guard
    let acq ← if ← has "acq" then (do return some (← scopeQ)) else (do
      match ← scopeQ with | .grp => return none | _ => bad 104)
    let ms ← wordSpaceQ
    let b64 ← waitSizeQ
    let sv ← sArg
    let k ← spArg
    let (b, off) ← wordMem
    return .waitw g acq ms b64 b sv (← sArg) (← sArg) k off,
  bare "bar" .bar, bare "bara" .bara, bare "barw" .barw,
  form "cbinit" 16 3 [clsFlag "cl"] do
    let g ← guard
    let cl ← has "cl"
    let (b, off) ← wordMem
    return .cbinit g cl b (← sArg) (← sArg) off,
  form "cbexpect" 16 3 [clsFlag "arrive", clsScope, clsFlag "cl"] do
    let g ← guard
    let arrive ← has "arrive"
    let scp ← cbScopeQ
    let cl ← has "cl"
    let st ← sArg
    let (b, off) ← wordMem
    let cnt ← sArg
    if arrive then return .cbexpect g (some st) scp cl b cnt off
    -- without .arrive the token field has to be zero
    else if st = 0 then return .cbexpect g none scp cl b cnt off
    else bad 104,
  form "cbarrive" 16 2 [clsFlag "ack", clsScope, clsFlag "cl"] do
    let g ← guard
    let ack ← has "ack"
    let scp ← cbScopeQ
    let cl ← has "cl"
    let st ← sArg
    let (b, off) ← wordMem
    return .cbarrive g ack scp cl b st off,
  form "cbwait" 16 2 [clsScope, clsFlag "cl"] do
    let g ← guard
    let scp ← cbScopeQ
    let cl ← has "cl"
    let (b, off) ← wordMem
    return .cbwait g scp cl b (← sArg) off,
  form "cbtest" 16 4 [clsScope, clsFlag "cl"] do
    let g ← guard
    let scp ← cbScopeQ
    let cl ← has "cl"
    let k ← spArg
    let sf ← sArg
    let (b, off) ← wordMem
    return .cbtest g scp cl k sf b (← sArg) off,
  form "rlock" 16 3 [clsWordSpace] do
    let g ← guard
    let ms ← wordSpaceQ
    let sh ← sArg
    let (b, off) ← wordMem
    return .rlock g ms b (← sArg) sh off,
  form "runlock" 16 1 [] do return .runlock (← guard) (← sArg)]

/-! ### Engine forms (R254 to R292, R389) -/

def copySpaces : List String := ["vm", "sh", "cl", "sp"]
def clsCopy : List (String × List String) :=
  [("pair", copySpaces), clsScope, ("cb", ["cb", "cbcl"]), clsFlag "flag"]
/-- The count barrier and the flag of a copy, which follow its other operands. -/
def copyTail : P (Option CbRef × Option SReg) := do
  let cb ← match ← qual "cb" with
    | none => pure none
    | some q => (do return some { cl := q == "cbcl", reg := ← sArg })
  let flag ← if ← has "flag" then (do return some (← sArg)) else pure none
  return (cb, flag)
def copyArity (q : List (String × String)) : Nat := 4 + b2n (hasQ "cb" q) + b2n (hasQ "flag" q)
/-- The two spaces: destination, then source. -/
def pairQ : P (CopySpace × CopySpace) := do
  let d ← need 104 (copySpace? (← code "pair" copySpaces))
  let s ← need 104 (copySpace? (← code "pair2" copySpaces))
  return (d, s)
def boxOf (c : CopySpace) : P WordSpace :=
  match c with
  | .sh => pure .sh
  | .cl => pure .cl
  | .sp => pure .sp
  | .vm => bad 104
def matTyQ (cls : String) (pre : String) (dflt : Option MatTy) : P MatTy := do
  match ← qual cls with
  | none => need 104 dflt
  | some _ => need 104 (matTy? (← code cls (typeNames.map fun t => pre ++ t)))

def engineForms : List Form := [
  { name := "cpy", len := 16, quals := clsCopy, arity := copyArity, once := true
    parse := do
      let g ← guard
      let (d, s) ← pairQ
      let scp ← scopeQ
      let sd ← sArg
      let a ← sArg
      let b ← sArg
      let l ← sArg
      let (cb, flag) ← copyTail
      return .cpy g d s scp sd a b l cb flag },
  { name := "cpyt", len := 16, quals := clsFlag "scatter" :: clsCopy, arity := copyArity, once := true
    parse := do
      let g ← guard
      let (d, s) ← pairQ
      let scatter ← has "scatter"
      let box ← if scatter then (if d = .vm then boxOf s else bad 104) else (if s = .vm then boxOf d else bad 104)
      let scp ← scopeQ
      let sd ← sArg
      let x ← sArg
      let t ← sArg
      let c ← sArg
      let (cb, flag) ← copyTail
      return .cpyt g scatter box scp sd x t c cb flag },
  formOnce "cpym" 16 6 [("space", ["vm", "sh", "sp"])] do
    let g ← guard
    let ms ← need 104 (copySpace? (← code "space" copySpaces))
    let sd ← sArg
    let f ← sArg
    let s ← sArg
    let l ← sArg
    let a ← sArg
    let mask ← natArg 0 15
    return .cpym g ms sd f s l a (BitVec.ofNat 4 mask),
  form "cpytest" 8 2 [] do return .cpytest (← guard) (← spArg) (← sArg),
  { name := "macq", len := 8, quals := [clsFlag "team"], arity := fun q => if hasQ "team" q then 3 else 2, once := true
    parse := do
      let g ← guard
      let sd ← sArg
      let n ← natArg 1 6
      if ← has "team" then return .macqTeam g sd (BitVec.ofNat 16 n) (← sArg)
      else return .macq g sd (BitVec.ofNat 16 n) },
  formOnce "mrel" 8 0 [] do return .mrel (← guard),
  formOnce "mgrow" 8 2 [] do
    let g ← guard
    let sd ← sArg
    return .mgrow g sd (BitVec.ofNat 16 (← natArg 1 5)),
  formOnce "mzero" 8 2 [] do return .mzero (← guard) (← sArg) (← slotArg),
  { name := "mloop", len := 16
    quals := [clsType ["bf16", "e4m3", "e5m2", "e2m1"], ("by", ["by_bf16", "by_e4m3", "by_e5m2", "by_e2m1"]), clsFlag "part"]
    arity := fun q => if q.any fun x => x.2 == "e2m1" || x.2 == "by_e2m1" then 8 else 6
    once := true
    parse := do
      let g ← guard
      let fa ← matTyQ "type" "" none
      let fb ← matTyQ "by" "by_" (some fa)
      let part ← has "part"
      let sd ← sArg
      let k ← slotArg
      let a ← sArg
      let i ← sArg
      let vb ← vArg
      let step ← natArg 0 2047
      if fa = .e2m1 ∨ fb = .e2m1 then
        let x ← sArg
        let y ← sArg
        return .mloop g fa fb part sd a i x y vb (BitVec.ofNat 11 step) k
      else return .mloop g fa fb part sd a i 0 0 vb (BitVec.ofNat 11 step) k },
  formOnce "msacc" 16 5 [] do
    let g ← guard
    let sd ← sArg
    let k ← slotArg
    return .msacc g sd (← sArg) (← sArg) (← sArg) k,
  formOnce "mldacc" 16 4 [clsFloat] do
    let g ← guard
    let ty ← typeQ floatTy?
    let sd ← sArg
    let k ← slotArg
    return .mldacc g ty sd (← sArg) (← sArg) k,
  formOnce "mstacc" 16 4 [clsFloat, clsRnd, clsSat] do
    let g ← guard
    let ty ← typeQ floatTy?
    let r ← roundingQ
    let sat ← has "sat"
    let sd ← sArg
    let k ← slotArg
    return .mstacc g ty r sat sd (← sArg) (← sArg) k,
  formOnce "tsend" 16 5 [] do
    let g ← guard
    let sd ← sArg
    let c ← connArg
    return .tsend g sd (← sArg) (← sArg) (← sArg) c,
  formOnce "trecv" 16 5 [] do
    let g ← guard
    let sd ← sArg
    let c ← connArg
    return .trecv g sd (← sArg) (← sArg) (← sArg) c]

/-! ### Names, tasks, rings, launches (R310 to R335) -/

def timeoutArg : P (Option SReg) := do
  if ← has "t" then return some (← sArg) else return none

/-- NSELF, NSTAT and CPYTEST have no effect that would occur once for each stroke, and so no IK601 (R115): DEDUCED (log 45). -/
def workForms : List Form := [
  oneS "nself" .nself,
  formOnce "nwake" 8 2 [] do return .nwake (← guard) (← sArg) (← sArg),
  { name := "nsignal", len := 8, quals := [clsFlag "kill"], arity := fun q => if hasQ "kill" q then 2 else 3, once := true
    parse := do
      let g ← guard
      let sd ← sArg
      let sa ← sArg
      if ← has "kill" then return .nsignalKill g sd sa else return .nsignal g sd sa (← sArg) },
  formOnce "ndeposit" 8 4 [] do
    let g ← guard
    let sd ← sArg
    let sa ← sArg
    let sb ← sArg
    return .ndeposit g sd sa sb (BitVec.ofNat 3 (← natArg 0 7)),
  { name := "njoin", len := 8, quals := [clsFlag "reap", clsFlag "t"], arity := fun q => if hasQ "t" q then 3 else 2, once := true
    parse := do return .njoin (← guard) (← has "reap") (← sArg) (← sArg) (← timeoutArg) },
  { name := "npark", len := 8, quals := [clsFlag "t"], arity := fun q => if hasQ "t" q then 2 else 1, once := true
    parse := do return .npark (← guard) (← sArg) (← timeoutArg) },
  twoS "nstat" .nstat,
  form "tspawn" 12 2 [] do
    let g ← guard
    let t ← vArg
    let (b, vo, off) ← memArg true (2 ^ 24)
    return .tspawn g t b vo (BitVec.ofNat 24 off),
  formOnce "tpost" 8 1 [clsFlag "pkg"] do return .tpost (← guard) (← has "pkg") (← sArg),
  formOnce "tdone" 8 0 [] do return .tdone (← guard),
  formOnce "rgacq" 8 2 [clsFlag "try", clsScope, clsWordSpace] do
    return .rgacq (← guard) (← has "try") (← scopeQ) (← wordSpaceQ) (← sArg) (← sArg),
  formOnce "rgcommit" 8 3 [clsScope, clsWordSpace] do
    return .rgcommit (← guard) (← scopeQ) (← wordSpaceQ) (← sArg) (← sArg) (← sArg),
  formOnce "rgpeek" 8 2 [clsFlag "try", clsScope, clsWordSpace] do
    return .rgpeek (← guard) (← has "try") (← scopeQ) (← wordSpaceQ) (← sArg) (← sArg),
  formOnce "rgrel" 8 3 [clsScope, clsWordSpace] do
    return .rgrel (← guard) (← scopeQ) (← wordSpaceQ) (← sArg) (← sArg) (← sArg),
  formOnce "wdnext" 8 1 [] do return .wdnext (← guard) (← sArg),
  formOnce "launch" 8 2 [] do return .launch (← guard) (← sArg) (← sArg)]

/-! ### Traps and system (R358, R361) -/

/-- The names of system registers (R356). -/
def sysNames : List (String × Nat) :=
  [("fstat", 0), ("psig", 1), ("depmask", 2), ("ghelp", 3), ("regbudget", 4), ("stkp", 5), ("stklim", 6), ("xbound0", 7),
   ("xbound1", 8), ("xbound2", 9), ("xbound3", 10), ("launchid", 11), ("argloc", 12), ("xpc", 16), ("xcause", 17),
   ("xstat", 18), ("xaddr", 19), ("xscr0", 20), ("xscr1", 21)] ++
  [("xvec", 64), ("wdlimit", 65), ("nametab", 66), ("faultq", 67), ("xlflush", 68), ("spwin0", 72), ("spwin1", 73),
   ("spwin2", 74), ("spwin3", 75), ("spwin4", 76), ("spwin5", 77), ("spwin6", 78), ("spwin7", 79), ("scrctl", 80),
   ("scrbase", 81), ("scrwidx", 82), ("scrridx", 83), ("timebase", 96), ("pgrank", 97), ("mxbudget", 98), ("spbase", 99),
   ("devrev", 100)]
/-- A system register by name in lower case, or by an expression. A number of no register is refused as decode refuses it. -/
def sysNumber : P SysReg := do
  let ts ← next
  let n ← match ts with
    | [.id s] =>
      match sysNames.find? fun x => x.1 == s with
      | some x => pure x.2
      | none => (do return (← intIn ts 0 65535).toNat)
    | _ => (do return (← intIn ts 0 65535).toNat)
  need 205 (sysReg? n)

def systemForms : List Form := [
  form "trap" 8 1 [] do return .trap (← guard) (← code16),
  bare "xret" .xret,
  form "sysrd" 8 2 [] do return .sysrd (← guard) (← sArg) (← sysNumber),
  form "syswr" 8 2 [] do
    let g ← guard
    let r ← sysNumber
    let sa ← sArg
    match r with
    | .xlflush => return .syswrXlflush g sa
    | .scrridx => return .syswrScrridx g sa
    | r => return .syswr g r sa,
  form "bkpt" 8 1 [] do return .bkpt (← guard) (← code16),
  oneS "logmark" .logmark,
  formOnce "evpost" 16 5 [] do return .evpost (← guard) (← sArg) (← sArg) (← sArg) (← sArg) (← code16),
  form "fretry" 8 2 [("fn", ["exhaust", "fatal"])] do
    let g ← guard
    match ← qual "fn" with
    | none => return .fretry g (← sArg) (← sArg)
    | some "exhaust" => return .fretryExhaust g (← sArg) (← sArg)
    | some _ => return .fretryFatal g (← sArg) (← sArg)]

def forms : List Form :=
  scalarForms ++ controlForms ++ vectorForms ++ floatForms ++ memoryForms ++ engineForms ++ workForms ++ systemForms

/-- The form of a mnemonic, in either case. -/
def formOf (m : String) : Option Form := forms.find? fun f => f.name == lowerStr m

/-! ## An instruction statement -/

/-- The qualifiers of a statement, `.acq.rel` taken as one (R106). -/
def joinQuals : List String → List String
  | "acq" :: "rel" :: r => "acq.rel" :: joinQuals r
  | q :: r => q :: joinQuals r
  | [] => []

/-- The classes of qualifiers in their order. IK104 for one that the form does not accept, IK105 for a second of a class; the
spaces of a pair stand together (R106). `last` is the class of the one before. -/
def classify (f : Form) : List String → String → List (String × String) → Ans (List (String × String))
  | [], _, acc => .ok acc
  | q :: r, last, acc =>
    match f.quals.find? fun c => c.2.contains q with
    | none => fail 104
    | some (cls, _) =>
      if !hasQ cls acc then classify f r cls (acc ++ [(cls, q)])
      else if cls == "pair" && last == "pair" then classify f r "pair2" (acc ++ [("pair2", q)])
      else fail 105

/-- A guard (R87, R89, R115): code and sense, or a diagnostic. -/
def guardOf (neg : Bool) (s : String) : Except Nat Guard :=
  if lowerStr s == "never" && !neg then .ok ⟨15, true⟩
  else
    match regOf s with
    | some (.p, n) => if n < 12 then .ok ⟨BitVec.ofNat 4 n, neg⟩ else .error 201
    | some (.sp, n) => if n < 3 then .ok ⟨BitVec.ofNat 4 (12 + n), neg⟩ else if n < 8 then .error 204 else .error 201
    | _ => .error 101

/-- What an instruction statement writes: its instruction, a relocation of its imm64, and warnings. -/
structure Written where
  instr : Instr
  reloc : Option Sec
  notes : List Nat

/-- An instruction from its guard, form, qualifiers and operands. What decode would refuse as ILLEGAL_ENCODING is refused: a
guard that the class does not take as IK204, other fields as IK104. -/
def assembleInstr (f : Form) (g : Guard) (quals : List String) (ops : List (List Tok)) (budget : Nat) (here : Value)
    (look : String → Ans Value) : Ans Written := do
  let qs ← classify f (joinQuals (quals.map lowerStr)) "" []
  -- RET alone may leave out its operand (R145)
  if ops.length ≠ f.arity qs ∧ ¬(f.name = "ret" ∧ ops = []) then fail 106
  else
    let (i, w) ← f.parse { guard := g, quals := qs, budget, here, look } { ops }
    let e := encode i
    let free : Guard := if f.name == "br" then ⟨12, false⟩ else ⟨15, false⟩
    match decode (toBytes 32 e.2), decode (toBytes 32 (setField e.2 2 5 (free.code.toNat + 16 * b2n free.sense))) with
    | .error .illegalEncoding, .error .illegalEncoding => fail 104
    | .error .illegalEncoding, _ => fail 204
    | _, _ => .ok { instr := i, reloc := w.reloc, notes := w.notes }

end Sys2Proof.Machine.Ikas
end

