-- ==== Sys2Proof/Machine/Ikas.lean ====
section
/-! DEFINITION. ikas itself (R104 to R125, R323): files and options, definitions, repetition and conditions, symbols, sections, data,
budgets, placement, records, diagnostics, and the image that it writes. The first pass reads the lines in order and fixes every
address; the second writes each statement's bytes (log 45). -/

namespace Sys2Proof.Machine.Ikas

/-! ## What ikas is given, and what it answers (R104, R125) -/

/-- A place in the source: a file and a line, counted from 1. -/
structure At where
  file : Text := []
  line : Nat := 0
  deriving DecidableEq, Repr

/-- A diagnostic: its number, its place, and for IK602 the cause. `seq` is the line's place in reading order. -/
structure Diag where
  num   : Nat
  pos   : At
  seq   : Nat := 0
  cause : Option DecodeCause := none
  deriving DecidableEq, Repr

structure Options where
  out     : Text := "a.iki".toList
  dirs    : List Text := []
  defs    : List Text := []
  listing : Option Text := none
  pad     : Bool := true
  wpad    : Bool := false
  werror  : Bool := false
  mute    : List Nat := []
  files   : List Text := []
  deriving DecidableEq, Repr

/-- The options, read in order; none for an unknown option or one without its argument (IK002). DESIGN CHOICE (log 45): R104 says
nothing of an invocation that names no file: it is accepted, with status 0 and an empty image. -/
def readOptions : List Text → Options → Option Options
  | [], o => some o
  | [a], o =>
    match String.ofList a with
    | "--no-pad" => some { o with pad := false }
    | "-Wpad" => some { o with wpad := true }
    | "-Werror" => some { o with werror := true }
    | _ => if a.head? == some '-' then none else some { o with files := o.files ++ [a] }
  | a :: x :: r, o =>
    match String.ofList a with
    | "--no-pad" => readOptions (x :: r) { o with pad := false }
    | "-Wpad" => readOptions (x :: r) { o with wpad := true }
    | "-Werror" => readOptions (x :: r) { o with werror := true }
    | "-o" => readOptions r { o with out := x }
    | "-I" => readOptions r { o with dirs := o.dirs ++ [x] }
    | "-D" => readOptions r { o with defs := o.defs ++ [x] }
    | "--listing" => readOptions r { o with listing := some x }
    | "-w" =>
      match digits 10 Char.isDigit x with
      | some n => readOptions r { o with mute := n :: o.mute }
      | none => none
    | _ => if a.head? == some '-' then none else readOptions (x :: r) { o with files := o.files ++ [a] }

/-- The files that can be read, and the paths that cannot be written. -/
structure Disk where
  files  : List (Text × Text)
  closed : List Text := []
  deriving DecidableEq, Repr

def Disk.read (d : Disk) (path : Text) : Option Text := (d.files.find? fun f => f.1 == path).map fun f => f.2

/-- A line of a listing: an instruction or a pad, at its address. -/
structure Listed where
  addr  : Nat
  bytes : List Byte
  pos   : At
  pad   : Bool
  deriving DecidableEq, Repr

structure Outcome where
  status  : Nat
  diags   : List Diag
  image   : Option (Text × List Byte) := none
  listing : Option (Text × List Listed) := none
  deriving DecidableEq, Repr

/-! ## The state of the first pass -/

/-- A symbol's key: the file that it is private to, if one, and its name (R111). -/
abbrev Key := Option Text × String

/-- What a symbol stands for: an address with the budget in force there, or an expression with its period. -/
inductive Def where
  | label (v : Value) (budget : Nat)
  | equ (e : Expr) (dot : Value) (file : Text)
  deriving DecidableEq, Repr

/-- A symbol and where it is defined. -/
structure Sym where
  key : Key
  val : Def
  pos : At
  seq : Nat
  deriving DecidableEq, Repr

/-- What a placed statement writes. -/
inductive Body where
  | instr (f : Form) (g : Except Nat Guard) (quals : List String) (ops : List (List Tok))
  | raw (ws : List (List Tok))
  | ints (n : Nat) (lo hi : Int) (ops : List (List Tok))
  | reals (F : Fmt) (ops : List (List Tok))
  | fill (n : Nat) (v : Option (List Tok))
  | bytes (b : List Byte)
  | block (id : Nat)

/-- A placed statement: its section, its offset, the pads in front of it, its length, and what was in force there. -/
structure Item where
  sec    : Sec
  off    : Nat
  pads   : List Byte
  len    : Nat
  pos    : At
  seq    : Nat
  budget : Nat
  split  : Bool
  body   : Body

/-- A line of a block, read later. -/
structure BlockLine where
  dir : String
  ops : List (List Tok)
  pos : At
  seq : Nat
  deriving DecidableEq, Repr

/-- A launch or layout block: its kind (true for a launch), its offset, and its lines, the opener first. -/
structure Block where
  id     : Nat
  launch : Bool
  off    : Nat
  lines  : List BlockLine
  deriving DecidableEq, Repr

/-- The place of a block's opener. -/
def Block.pos (b : Block) (dflt : At) : At :=
  match b.lines with | l :: _ => l.pos | [] => dflt

structure Macro where
  name   : String
  params : List String
  body   : List Text
  deriving DecidableEq, Repr

/-- A condition: whether its branch is read, whether it stands in a branch that is, whether .else was seen. -/
structure Cond where
  on   : Bool
  live : Bool
  other : Bool := false
  pos  : At
  seq  : Nat
  deriving DecidableEq, Repr

/-- A body that is being gathered: of a definition of R122 with its name and parameters (none for a definition that is refused), or of a
repetition with its count. -/
inductive Gather where
  | defn (m : Option (String × List String))
  | rept (n : Option Nat)
  deriving DecidableEq, Repr

structure Line where
  pos  : At
  text : Text
  deriving DecidableEq, Repr

structure Gathering where
  kind  : Gather
  level : Nat := 0
  lines : List Line := []
  pos   : At
  seq   : Nat
  deriving DecidableEq, Repr

/-- The state of the first pass. Budgets are numbered; budget 0 is that before the first `.budget`. `wait` holds, for each
section, the labels that wait for a statement. -/
structure St where
  opts    : Options
  disk    : Disk
  sec     : Sec := .text
  sizes   : Sec → Nat := fun _ => 0
  wait    : List (Sec × Key × At × Nat) := []
  syms    : List Sym := []
  locals  : List (Text × String) := []
  macros  : List Macro := []
  conds   : List Cond := []
  condBase : Nat := 0
  gather  : Option Gathering := none
  block   : Option Block := none
  /-- The block that stood open at the start of the file being read. -/
  blockBase : Option Nat := none
  blocks  : List Block := []
  budgets : List (List Tok × Value × At × Nat) := []
  items   : List Item := []
  diags   : List Diag := []
  dead    : Bool := false
  split   : Bool := false
  seq     : Nat := 0
  uses    : Nat := 0
  depth   : Nat := 0
  nesting : Nat := 0

def St.report (st : St) (num : Nat) (pos : At) : St := { st with diags := { num, pos, seq := st.seq } :: st.diags }
def St.check (st : St) (pos : At) {α : Type} (a : Except Nat α) (f : α → St) : St :=
  match a with | .ok x => f x | .error k => st.report k pos

/-! ## Symbols (R111) -/

def keyOf (locals : List (Text × String)) (file : Text) (s : String) : Key :=
  if locals.contains (file, s) then (some file, s) else (none, s)

/-- The value of a symbol as a file sees it; `seen` are the `.equ` symbols that are being evaluated. -/
def lookSym (syms : List Sym) (locals : List (Text × String)) : Nat → List Key → Text → String → Ans Value
  | 0, _, _, _ => fail 305
  | n + 1, seen, file, s =>
    let k := keyOf locals file s
    match syms.find? fun y => y.key == k with
    | none => fail 301
    | some y =>
      match y.val with
      | .label v _ => .ok v
      | .equ e dot f => if seen.contains k then fail 305 else e.eval (lookSym syms locals n (k :: seen) f) dot

/-- The symbols that an expression names. -/
def Expr.names : Expr → List String
  | .int _ => []
  | .dot => []
  | .sym s => [s]
  | .neg a => a.names
  | .inv a => a.names
  | .not a => a.names
  | .lo32 a => a.names
  | .hi32 a => a.names
  | .bin _ a b => a.names ++ b.names

/-- The keys that the `.equ` symbols of a list name in their expressions. -/
def namedBy (syms : List Sym) (locals : List (Text × String)) (ks : List Key) : List Key :=
  ks.flatMap fun k =>
    match syms.find? fun y => y.key == k with
    | some { val := .equ e _ f, .. } => e.names.map (keyOf locals f)
    | _ => []

def reach (syms : List Sym) (locals : List (Text × String)) : Nat → List Key → List Key
  | 0, ks => ks
  | n + 1, ks => ks ++ reach syms locals n ((namedBy syms locals ks).eraseDups.filter fun k => !ks.contains k)

/-- A `.equ` that depends on itself (IK305). -/
def selfDependent (syms : List Sym) (locals : List (Text × String)) (k : Key) : Bool :=
  (reach syms locals (syms.length + 1) (namedBy syms locals [k]).eraseDups).contains k

def St.fuel (st : St) : Nat := st.syms.length + 1

/-- The address where the next statement of the current section would stand (R109, R110). -/
def addrOf (sec : Sec) (off : Nat) : Value := match sec with | .spad => .abs off | s => .rel s off
def St.here (st : St) : Value := addrOf st.sec (st.sizes st.sec)

/-- An absolute value that has to be known when it is read (R111). -/
def St.known (st : St) (file : Text) (ts : List Tok) : Except Nat Int :=
  match exprOf ts with
  | .error k => .error k
  | .ok e =>
    match e.eval (lookSym st.syms st.locals st.fuel [] file) st.here with
    | .ok (.abs n) => .ok n
    | .ok (.rel _ _) => .error 304
    | .error k => .error (k.getD 301)

/-- A symbol is defined; a second definition is IK302. -/
def St.define (st : St) (k : Key) (v : Def) (pos : At) (seq : Nat) : St :=
  if st.syms.any fun y => y.key == k then { st with diags := { num := 302, pos, seq } :: st.diags }
  else { st with syms := st.syms ++ [{ key := k, val := v, pos, seq }] }

/-! ## Placement (R111, R112, R116 to R118) -/

def St.grow (st : St) (n : Nat) : St :=
  { st with sizes := fun s => if s = st.sec then st.sizes s + n else st.sizes s }

/-- The fill that ikas inserts of itself for a gap: none under --no-pad, but for the 4 bytes that nothing reaches (R104, R117). -/
def St.fillFor (st : St) (gap : Nat) : List Byte := if !st.opts.pad && gap != 4 then [] else pads gap

/-- What is said of such a gap: IK401 under --no-pad in place of the fill, IK604 under -Wpad for a fill. -/
def St.padNote (st : St) (gap : Nat) (pos : At) : St :=
  if gap = 0 then st
  else if !st.opts.pad && gap != 4 then st.report 401 pos
  else if st.opts.wpad then st.report 604 pos
  else st

/-- Bytes that belong to no statement: pads in front of a label, and those of `.align`. -/
def St.emit (st : St) (b : List Byte) (pos : At) : St :=
  if b.isEmpty then st
  else
    let it : Item :=
      { sec := st.sec, off := st.sizes st.sec, pads := b, len := 0, pos := pos, seq := st.seq,
        budget := st.budgets.length, split := st.split, body := .bytes [] }
    ({ st with items := it :: st.items }).grow b.length

/-- The labels that wait in the current section take the address that it has reached. A directive that places nothing is no statement
that a label waits for: DESIGN CHOICE (log 45). -/
def St.bind (st : St) : St :=
  let mine := st.wait.filter fun w => w.1 = st.sec
  mine.foldl (fun st w => st.define w.2.1 (.label st.here st.budgets.length) w.2.2.1 w.2.2.2)
    { st with wait := st.wait.filter fun w => w.1 ≠ st.sec }

/-- A label: in `.text` it is placed at a multiple of 8 (R117), and ends a stretch that nothing reaches. -/
def St.label (st : St) (s : String) (pos : At) : St :=
  if !isSymbol s then st.report 101 pos
  else
    let w := (st.sec, keyOf st.locals pos.file s, pos, st.seq)
    if st.sec = .text then
      let gap := labelGap (st.sizes .text % 32)
      let st := (st.padNote gap pos).emit (st.fillFor gap) pos
      { st with wait := st.wait ++ [w], dead := false }
    else { st with wait := st.wait ++ [w] }

/-- A statement of a length is placed, after a gap that is filled with pads. -/
def St.place (st : St) (gap : List Byte) (len : Nat) (body : Body) (pos : At) : St :=
  let st := (st.grow gap.length).bind
  let it : Item :=
    { sec := st.sec, off := st.sizes st.sec, pads := gap, len := len, pos := pos, seq := st.seq,
      budget := st.budgets.length, split := st.split, body := body }
  ({ st with items := it :: st.items }).grow len

/-- An instruction or a raw word of `.text`; one after the end of flow and before the next label is IK606 (R118). No directive but
`.inst` is such a statement: DEDUCED (log 45), since it is not what executes. -/
def St.placeCode (st : St) (len : Nat) (flow : Bool) (body : Body) (pos : At) : St :=
  let gap := codeGap (st.sizes .text % 32) len flow
  let st := (st.padNote gap pos).place (st.fillFor gap) len body pos
  let st := if st.dead then st.report 606 pos else st
  { st with dead := st.dead || flow }

/-- A data statement; in `.text` it is IK402. -/
def St.placeData (st : St) (len : Nat) (body : Body) (pos : At) : St :=
  if st.sec = .text then st.report 402 pos else st.place [] len body pos

/-! ## Statements -/

/-- Operands: the tokens between commas that stand in no bracket. -/
def splitOps : Nat → List Tok → List Tok → List (List Tok)
  | _, cur, [] => [cur]
  | d, cur, t :: r =>
    match t with
    | .op "," => if d = 0 then cur :: splitOps 0 [] r else splitOps d (cur ++ [t]) r
    | .op "(" => splitOps (d + 1) (cur ++ [t]) r
    | .op "[" => splitOps (d + 1) (cur ++ [t]) r
    | .op ")" => splitOps (d - 1) (cur ++ [t]) r
    | .op "]" => splitOps (d - 1) (cur ++ [t]) r
    | _ => splitOps d (cur ++ [t]) r
def opsOf (ts : List Tok) : List (List Tok) := if ts.isEmpty then [] else splitOps 0 [] ts

/-- The parts of a name with periods. -/
def dotParts : Text → Text → List String
  | cur, [] => [String.ofList cur.reverse]
  | cur, c :: r => if c == '.' then String.ofList cur.reverse :: dotParts [] r else dotParts (c :: cur) r

/-- The ranges of the integer directives (R113). -/
def intDir? (d : String) : Option (Nat × Int × Int) :=
  match d with
  | ".byte" => some (1, -128, 255)
  | ".half" => some (2, -2 ^ 15, 2 ^ 16 - 1)
  | ".word" => some (4, -2 ^ 31, 2 ^ 32 - 1)
  | ".dword" => some (8, -2 ^ 63, 2 ^ 64 - 1)
  | _ => none
def realDir? (d : String) : Option Fmt :=
  match d with
  | ".f32" => some fmtF32
  | ".f16" => some fmtF16
  | ".bf16" => some fmtBf16
  | ".e4m3" => some fmtE4m3
  | ".e5m2" => some fmtE5m2
  | ".e2m1" => some fmtE2m1
  | _ => none
def secDir? (d : String) : Option Sec :=
  match d with
  | ".text" => some .text
  | ".data" => some .data
  | ".spad" => some .spad
  | ".launch" => some .launch
  | _ => none

/-- The directive that opens a definition. -/
def macroDir : String := ".mac" ++ "ro"

def directives : List String :=
  [".text", ".data", ".spad", ".launch", ".byte", ".half", ".word", ".dword", ".f32", ".f16", ".bf16", ".e4m3", ".e5m2",
   ".e2m1", ".space", ".align", ".ascii", ".budget", ".equ", ".local", ".inst", ".role", ".tiles", ".donemap"] ++
  [".depend", ".pgtable", ".endlaunch", ".layout", ".dim", ".endlayout", macroDir, ".endm", ".rept", ".endr", ".if",
   ".else", ".endif", ".include"]

/-- The pads of `.align` in `.text`: the row of R116 for the gap. DESIGN CHOICE (log 45): R116 has no row for 24 and 28 bytes,
for more than 32, or for a gap of 4 to a multiple of 8 that code may reach; such a gap is filled as that of a label (R117) and
then with NOPs. -/
def alignPads (off a : Nat) : List Byte :=
  let gap := roundUp off a - off
  if gap = 8 ∨ gap = 12 ∨ gap = 16 ∨ gap = 20 then pads gap
  else
    let first := pads (labelGap (off % 32))
    let more := roundUp (off + first.length) a - (off + first.length)
    first ++ (List.replicate (more / 8) nopPad).flatten

/-- `.align n`: a power of two to 4,096; in `.text` at least 8, with the pads of R116 (R113). -/
def St.align (st : St) (n : Int) (pos : At) : St :=
  if n < 1 ∨ 4096 < n ∨ 2 ^ n.toNat.log2 ≠ n.toNat ∨ (st.sec = .text ∧ n < 8) then st.report 403 pos
  else
    let a := n.toNat
    let at0 := st.sizes st.sec
    (st.emit (if st.sec = .text then alignPads at0 a else zeros (roundUp at0 a - at0)) pos).bind

/-- A block opens: its record stands at once at its boundary (R119, R121). -/
def St.openBlock (st : St) (launch : Bool) (dir : String) (ops : List (List Tok)) (pos : At) : St :=
  let want : Sec := if launch then .launch else .data
  if st.sec ≠ want then st.report 402 pos
  else
    let st := match st.block with
      | some b => { st with diags := { num := 504, pos := b.pos pos, seq := st.seq } :: st.diags }
      | none => st
    let a := if launch then 256 else 32
    let at0 := st.sizes st.sec
    let st := (st.emit (zeros (roundUp at0 a - at0)) pos).bind
    let id := st.seq
    let b : Block := { id, launch, off := st.sizes st.sec, lines := [{ dir, ops, pos, seq := st.seq }] }
    let st := match ops with
      | [.id s] :: _ =>
        if isSymbol s then st.define (keyOf st.locals pos.file s) (.label st.here st.budgets.length) pos st.seq
        else st.report 101 pos
      | _ => st.report (if ops.isEmpty then 106 else 107) pos
    { (st.place [] 256 (.block id) pos) with block := some b }

/-- A line of a block; outside a block of its kind it stands in the wrong place (IK402). -/
def St.blockLine (st : St) (launch : Bool) (dir : String) (ops : List (List Tok)) (pos : At) : St :=
  match st.block with
  | some b =>
    if b.launch = launch then { st with block := some { b with lines := b.lines ++ [{ dir, ops, pos, seq := st.seq }] } }
    else st.report 402 pos
  | none => st.report 402 pos

/-- A block is closed in the file that opened it (R122; DEDUCED, log 45). -/
def St.closeBlock (st : St) (launch : Bool) (pos : At) : St :=
  match st.block with
  | some b =>
    if b.launch = launch ∧ st.blockBase ≠ some b.id then { st with block := none, blocks := b :: st.blocks }
    else st.report 504 pos
  | none => st.report 504 pos

/-- `.inst`: two to four words; it ends flow when its first word is known now and says so (R117, R123). -/
def St.inst (st : St) (ops : List (List Tok)) (pos : At) : St :=
  if st.sec ≠ .text then st.report 402 pos
  else if ops.length < 2 ∨ 4 < ops.length then st.report 106 pos
  else
    let flow := match ops with
      | w :: _ => (match st.known pos.file w with | .ok n => endsFlow (wrap 32 n) | .error _ => false)
      | [] => false
    st.placeCode (4 * ops.length) flow (.raw ops) pos

/-- A directive other than those of R122. -/
def St.directive (st : St) (d : String) (ts : List Tok) (pos : At) : St :=
  let ops := opsOf ts
  match intDir? d, realDir? d with
  | some (n, lo, hi), _ =>
    if ops.isEmpty then st.report 106 pos else st.placeData (n * ops.length) (.ints n lo hi ops) pos
  | _, some F =>
    let len := if F.bits = 4 then (ops.length + 1) / 2 else F.bits / 8 * ops.length
    if ops.isEmpty then st.report 106 pos else st.placeData len (.reals F ops) pos
  | none, none =>
    match d, ops with
    | ".space", n :: r =>
      if 1 < r.length then st.report 106 pos
      else st.check pos (st.known pos.file n) fun n =>
        if n < 0 ∨ 2 ^ 32 < n then st.report 205 pos
        else match r with
          | [] => st.placeData n.toNat (.fill n.toNat none) pos
          | v :: _ => st.check pos (st.known pos.file v) fun _ => st.placeData n.toNat (.fill n.toNat (some v)) pos
    | ".align", [n] => st.check pos (st.known pos.file n) fun n => st.align n pos
    | ".ascii", [[.str s]] =>
      match unescape (s.length + 1) s with
      | some b => st.placeData b.length (.bytes b) pos
      | none => st.report 101 pos
    | ".ascii", [_] => st.report 107 pos
    | ".budget", [n] => { st with budgets := st.budgets ++ [(n, st.here, pos, st.seq)] }
    | ".equ", [[.id s], e] =>
      if !isSymbol s then st.report 101 pos
      else st.check pos (exprOf e) fun e =>
        st.define (keyOf st.locals pos.file s) (.equ e st.here pos.file) pos st.seq
    | ".equ", [_, _] => st.report 107 pos
    | ".local", [[.id s]] =>
      if !isSymbol s then st.report 101 pos
      -- it has to come before the name is defined in its file
      else if (st.syms.any fun y => y.key == (none, s) && y.pos.file == pos.file) ||
          st.wait.any (fun w => w.2.1 == (none, s) && w.2.2.1.file == pos.file) then st.report 302 pos
      else { st with locals := (pos.file, s) :: st.locals }
    | ".local", [_] => st.report 107 pos
    | ".inst", ops => st.inst ops pos
    | ".launch", [] => { st with sec := .launch }
    | ".launch", ops => st.openBlock true d ops pos
    | ".layout", ops => st.openBlock false d ops pos
    | ".role", ops => st.blockLine true d ops pos
    | ".tiles", ops => st.blockLine true d ops pos
    | ".donemap", ops => st.blockLine true d ops pos
    | ".depend", ops => st.blockLine true d ops pos
    | ".pgtable", ops => st.blockLine true d ops pos
    | ".dim", ops => st.blockLine false d ops pos
    | ".endlaunch", [] => st.closeBlock true pos
    | ".endlayout", [] => st.closeBlock false pos
    | d, ops =>
      match secDir? d with
      | some s => if ops.isEmpty then { st with sec := s } else st.report 106 pos
      | none => st.report (if directives.contains d then 106 else 103) pos

/-- The guard prefix of a statement, and the rest of it. -/
def guardPrefix (ts : List Tok) : Except Nat (Except Nat Guard × List Tok) :=
  match ts with
  | .op "(" :: .op "!" :: .id s :: .op ")" :: r => .ok (guardOf true s, r)
  | .op "(" :: .id s :: .op ")" :: r => .ok (guardOf false s, r)
  | .op "(" :: _ => .error 101
  | r => .ok (.ok ⟨15, false⟩, r)

/-- An instruction ends flow when it is an unguarded JMP, JMPR, RET, GEXIT or FEND (R117). -/
def flowEnd (name : String) (g : Except Nat Guard) : Bool :=
  (match g with | .ok g => g == ⟨15, false⟩ | .error _ => false) && ["jmp", "jmpr", "ret", "gexit", "fend"].contains name

/-- An instruction statement (R106). -/
def St.instruction (st : St) (ts : List Tok) (pos : At) : St :=
  st.check pos (guardPrefix ts) fun (g, r) =>
    match r with
    | .id m :: ops =>
      match dotParts [] m.toList with
      | name :: quals =>
        match formOf name with
        | none => st.report 102 pos
        | some f =>
          if st.sec ≠ .text then st.report 402 pos
          else
            let st := st.placeCode f.len (flowEnd f.name g) (.instr f g quals (opsOf ops)) pos
            -- the span from a VBR to the next MEET (R115)
            if f.name == "vbr" then { st with split := true }
            else if f.name == "meet" then { st with split := false } else st
      | [] => st.report 101 pos
    | _ => st.report 101 pos

/-! ## Definitions, repetition and conditions (R122) -/

def dropSpace (t : Text) : Text := t.dropWhile Char.isWhitespace
def trim (t : Text) : Text := (dropSpace (dropSpace t).reverse).reverse

/-- Text up to a comment; quotes hide what they hold. `q` is the open quote. -/
def cutComment : Option Char → Text → Text
  | _, [] => []
  | some q, '\\' :: c :: r => '\\' :: c :: cutComment (some q) r
  | some q, c :: r => c :: cutComment (if c = q then none else some q) r
  | none, ';' :: _ => []
  | none, '/' :: '/' :: _ => []
  | none, c :: r => c :: cutComment (if c = '"' ∨ c = '\'' then some c else none) r

/-- The labels of a line, then its statement as text (R105). -/
def splitLabels : Nat → Text → List String × Text
  | 0, t => ([], t)
  | n + 1, t =>
    let t := dropSpace t
    let run := t.takeWhile isIdChar
    let r := dropSpace (t.drop run.length)
    match run, r with
    | [], _ => ([], t)
    | _, ':' :: r => let x := splitLabels n r; (String.ofList run :: x.1, x.2)
    | _, _ => ([], t)
/-- The first word of a statement. -/
def headWord (t : Text) : String := String.ofList (t.takeWhile isIdChar)

/-- Arguments: text between commas that stand in no bracket and no quotes. -/
def splitArgs : Nat → Option Char → Text → Text → List Text
  | _, _, cur, [] => [trim cur.reverse]
  | d, some q, cur, '\\' :: c :: r => splitArgs d (some q) (c :: '\\' :: cur) r
  | d, some q, cur, c :: r => splitArgs d (if c = q then none else some q) (c :: cur) r
  | d, none, cur, c :: r =>
    if c = ',' ∧ d = 0 then trim cur.reverse :: splitArgs 0 none [] r
    else if c = '(' ∨ c = '[' then splitArgs (d + 1) none (c :: cur) r
    else if c = ')' ∨ c = ']' then splitArgs (d - 1) none (c :: cur) r
    else splitArgs d (if c = '"' ∨ c = '\'' then some c else none) (c :: cur) r
def argsOf (t : Text) : List Text := if (trim t).isEmpty then [] else splitArgs 0 none [] t

/-- The longest parameter whose name stands at the front of a text, with its argument. -/
def paramAt (ps : List (String × Text)) (t : Text) : Option (String × Text) :=
  (ps.filter fun p => p.1.toList.isPrefixOf t).foldl (fun b p => match b with
    | none => some p
    | some x => if x.1.length < p.1.length then some p else some x) none

/-- A line of a definition's body with its arguments in place of `%name`, and the number of the expansion in place of `%=`. -/
def substLine (ps : List (String × Text)) (k : Nat) : Nat → Text → Text
  | 0, t => t
  | _, [] => []
  | n + 1, c :: r =>
    if c = '%' then
      match r with
      | '=' :: z => (toString k).toList ++ substLine ps k n z
      | _ =>
        match paramAt ps r with
        | some p => p.2 ++ substLine ps k n (r.drop p.1.length)
        | none => c :: substLine ps k n r
    else c :: substLine ps k n r

def St.active (st : St) : Bool := st.conds.all fun c => c.on

/-- `.if`, `.else` and `.endif`. -/
def St.ifLine (st : St) (ts : List Tok) (pos : At) : St :=
  let live := st.active
  let push (on : Bool) (st : St) : St := { st with conds := { on, live, pos, seq := st.seq } :: st.conds }
  if !live then push false st
  else if ts.isEmpty then push false (st.report 106 pos)
  else
    match st.known pos.file ts with
    | .ok n => push (n != 0) st
    | .error k => push false (st.report k pos)
def St.elseLine (st : St) (pos : At) : St :=
  match st.conds with
  | c :: r =>
    if st.conds.length ≤ st.condBase ∨ c.other then st.report 411 pos
    else { st with conds := { c with on := c.live && !c.on, other := true } :: r }
  | [] => st.report 411 pos
def St.endifLine (st : St) (pos : At) : St :=
  if st.conds.length ≤ st.condBase then st.report 411 pos else { st with conds := st.conds.tail }

/-- The name and the parameters of a definition. -/
def macroHead (ts : List Tok) : Except Nat (String × List String) :=
  match (opsOf ts).mapM fun t => (match t with | [.id s] => some s | _ => none) with
  | some (n :: ps) => if isSymbol n && ps.all isSymbol then .ok (n, ps) else .error 101
  | some [] => .error 106
  | none => .error 101

/-- A definition begins; a name that is taken, or that is a mnemonic or a directive, is IK501. -/
def St.startMacro (st : St) (ts : List Tok) (pos : At) : St :=
  let start (m : Option (String × List String)) (st : St) : St :=
    { st with gather := some { kind := .defn m, pos, seq := st.seq } }
  match macroHead ts with
  | .error k => start none (st.report k pos)
  | .ok m =>
    if (st.macros.any fun x => x.name == m.1) || (formOf m.1).isSome || directives.contains (lowerStr m.1)
    then start none (st.report 501 pos)
    else start (some m) st

/-- `.rept n`, with n known and from 0 to 65,536 (IK505). -/
def St.startRept (st : St) (ts : List Tok) (pos : At) : St :=
  let start (n : Option Nat) (st : St) : St := { st with gather := some { kind := .rept n, pos, seq := st.seq } }
  if ts.isEmpty then start none (st.report 106 pos)
  else
    match st.known pos.file ts with
    | .ok n => if n < 0 ∨ 65536 < n then start none (st.report 505 pos) else start (some n.toNat) st
    | .error k => start none (st.report k pos)

/-- Lines are read one level deeper; the limit of expansion is 32 (IK503). -/
def St.expand (rec : List Line → St → St) (st : St) (n : Nat) (lines : List Line) (pos : At) : St :=
  if 32 ≤ st.depth then st.report 503 pos
  else
    let t := (List.range n).foldl (fun st _ => rec lines st) { st with depth := st.depth + 1 }
    { t with depth := st.depth }

/-- A definition is invoked (IK502 for another number of arguments). The lines take the place of the invocation. -/
def St.invoke (rec : List Line → St → St) (st : St) (m : Macro) (args : List Text) (pos : At) : St :=
  if args.length ≠ m.params.length then st.report 502 pos
  else
    let ps := m.params.zip args
    let lines := m.body.map fun t => ({ pos, text := substLine ps st.uses (t.length + 1) t } : Line)
    ({ st with uses := st.uses + 1 }).expand rec 1 lines pos

/-- The lines of a text, counted from 1. -/
def linesFrom (file : Text) : Nat → Text → Text → List Line
  | n, cur, [] => [{ pos := ⟨file, n⟩, text := cur.reverse }]
  | n, cur, c :: r =>
    if c = '\n' then { pos := ⟨file, n⟩, text := cur.reverse } :: linesFrom file (n + 1) [] r
    else linesFrom file n (c :: cur) r

/-- What a file leaves open at its end: conditions (IK411), a body or a block (IK504); a block of the file that includes it goes
on. `outer` is that file's state before. -/
def St.closeFile (st outer : St) : St :=
  let st := (st.conds.take (st.conds.length - st.condBase)).foldl
    (fun st c => { st with diags := { num := 411, pos := c.pos, seq := c.seq } :: st.diags }) st
  let st := match st.gather with
    | some g => { st with gather := none, diags := { num := 504, pos := g.pos, seq := g.seq } :: st.diags }
    | none => st
  let st := match st.block with
    | some b =>
      if st.blockBase = some b.id then st
      else { st with block := none, diags := { num := 504, pos := b.pos {}, seq := b.id } :: st.diags }
    | none => st
  { st with conds := st.conds.drop (st.conds.length - st.condBase), condBase := outer.condBase, blockBase := outer.blockBase }

/-- A whole file is read, in the section that is in force; so is a later file of the command line: DESIGN CHOICE (log 45). -/
def St.file (rec : List Line → St → St) (st : St) (path text : Text) : St :=
  (rec (linesFrom path 1 [] text) { st with condBase := st.conds.length, blockBase := st.block.map (·.id) }).closeFile st

/-- The directory of a path, with its slash. -/
def dirOf (path : Text) : Text := (path.reverse.dropWhile (· != '/')).reverse
def joinPath (dir name : Text) : Text :=
  if dir.isEmpty || dir.getLast? == some '/' then dir ++ name else dir ++ '/' :: name

/-- `.include`: first the directory of the including file, then the search path; 16 levels (IK410). -/
def St.include (rec : List Line → St → St) (st : St) (name : Text) (pos : At) : St :=
  if 16 ≤ st.nesting then st.report 410 pos
  else
    let places := if name.head? == some '/' then [name]
      else (dirOf pos.file :: st.opts.dirs).map fun d => joinPath d name
    match places.find? fun p => (st.disk.read p).isSome with
    | none => st.report 410 pos
    | some p =>
      let t := ({ st with nesting := st.nesting + 1 } : St).file rec p ((st.disk.read p).getD [])
      { t with nesting := st.nesting }

/-- A line of a body that is being gathered: nested openers and closers are counted, the closer acts. -/
def St.gatherLine (rec : List Line → St → St) (st : St) (g : Gathering) (l : Line) : St :=
  let x := splitLabels (l.text.length + 1) l.text
  let w := lowerStr (headWord x.2)
  let opener := match g.kind with | .defn _ => macroDir | .rept _ => ".rept"
  let closer := match g.kind with | .defn _ => ".endm" | .rept _ => ".endr"
  let more (k : Nat) : St := { st with gather := some { g with level := k, lines := l :: g.lines } }
  if w == opener then more (g.level + 1)
  else if w != closer then more g.level
  else if 0 < g.level then more (g.level - 1)
  else
    let st := { st with gather := none }
    let st := match g.kind with
      | .defn (some m) =>
        { st with macros := { name := m.1, params := m.2, body := g.lines.reverse.map fun l => l.text } :: st.macros }
      | .defn none => st
      | .rept (some n) => st.expand rec n g.lines.reverse g.pos
      | .rept none => st
    x.1.foldl (fun st s => st.label s l.pos) st

/-- A line (R105): labels, then a statement. No rule calls what stands behind `.else`, `.endif`, `.endm` or `.endr` an error: it is
ignored (log 45). -/
def St.line (rec : List Line → St → St) (st : St) (l : Line) : St :=
  let st := { st with seq := st.seq + 1 }
  match st.gather with
  | some g => st.gatherLine rec g l
  | none =>
    let x := splitLabels (l.text.length + 1) (cutComment none l.text)
    let w := lowerStr (headWord x.2)
    if !st.active && w != ".if" && w != ".else" && w != ".endif" then st
    else
      let st := if st.active then x.1.foldl (fun st s => st.label s l.pos) st else st
      match st.macros.find? fun m => m.name == headWord x.2 with
      | some m => st.invoke rec m (argsOf (x.2.drop m.name.length)) l.pos
      | none =>
        match lex x.2 with
        | .error k => if st.active then st.report k l.pos else st.ifLine [] l.pos
        | .ok [] => st
        | .ok (.id s :: ts) =>
          match w with
          | ".if" => st.ifLine ts l.pos
          | ".else" => st.elseLine l.pos
          | ".endif" => st.endifLine l.pos
          | ".rept" => st.startRept ts l.pos
          | ".endm" => st.report 504 l.pos
          | ".endr" => st.report 504 l.pos
          | ".include" =>
            match ts with
            | [.str f] => st.include rec f l.pos
            | _ => st.report (if ts.isEmpty then 106 else 107) l.pos
          | w =>
            if w == macroDir then st.startMacro ts l.pos
            else if s.toList.head? == some '.' then st.directive w ts l.pos else st.instruction (.id s :: ts) l.pos
        | .ok ts => st.instruction ts l.pos

/-- Lines are read in order; `n` bounds the levels of inclusion and expansion, which their own limits bound already. -/
def run : Nat → List Line → St → St
  | 0, _, st => st
  | n + 1, lines, st => lines.foldl (fun st l => st.line (run n) l) st

/-- `-D name=expr`, as by `.equ` before the first file (R104). -/
def St.defOption (st : St) (d : Text) : St :=
  let name := trim (d.takeWhile (· != '='))
  let s := String.ofList name
  let pos : At := {}
  if d.length ≤ (d.takeWhile (· != '=')).length ∨ !isSymbol s ∨ !name.all isIdChar ∨ name.isEmpty then st.report 101 pos
  else
    match lex (d.drop ((d.takeWhile (· != '=')).length + 1)) with
    | .error k => st.report k pos
    | .ok ts => st.check pos (exprOf ts) fun e => st.define (none, s) (.equ e st.here []) pos st.seq

/-- The labels that no statement follows take the ends of their sections. -/
def St.finish (st : St) : St :=
  let t := ([.text, .data, .spad, .launch] : List Sec).foldl (fun st s => { st with sec := s }.bind) st
  { t with sec := st.sec }

/-- The first pass over the files of a command line. -/
def firstPass (o : Options) (d : Disk) (texts : List (Text × Text)) : St :=
  let st := o.defs.foldl St.defOption { opts := o, disk := d }
  (texts.foldl (fun st f => st.file (run 50) f.1 f.2) st).finish

/-! ## The second pass -/

/-- What a statement writes: its bytes, the relocations of its fields by their offsets in it, and its diagnostics. -/
structure Out2 where
  bytes  : List Byte := []
  relocs : List (Nat × Sec) := []
  diags  : List Diag := []

def Out2.say (o : Out2) (k : Option Nat) (pos : At) (seq : Nat) (cause : Option DecodeCause := none) : Out2 :=
  match k with
  | some num => { o with diags := o.diags ++ [{ num, pos, seq, cause }] }
  | none => o

/-- The symbols that the second pass sees: a `.equ` whose value is in error says nothing more where it is used. -/
def St.look (st : St) (file : Text) (s : String) : Ans Value :=
  match lookSym st.syms st.locals st.fuel [] file s with
  | .ok v => .ok v
  | .error k =>
    let key := keyOf st.locals file s
    if st.syms.any fun y => y.key == key then .error none else .error k

/-- The diagnostics of the `.equ` definitions themselves: IK305 for one that depends on itself, and what is wrong in its own
expression. -/
def St.equDiags (st : St) : List Diag :=
  st.syms.filterMap fun y =>
    match y.val with
    | .label _ _ => none
    | .equ e dot f =>
      if selfDependent st.syms st.locals y.key then some { num := 305, pos := y.pos, seq := y.seq }
      else match e.eval (st.look f) dot with
        | .error (some k) => some { num := k, pos := y.pos, seq := y.seq }
        | _ => none

/-- The value of `.budget` number k, 1,536 for number 0 (R114). DESIGN CHOICE (log 45): R114 names no diagnostic for a value
outside 1 to 1,536; it is IK205, and 1,536 is then in force. -/
def St.budgetVal (st : St) (k : Nat) : Nat × List Diag :=
  match k with
  | 0 => (1536, [])
  | k + 1 =>
    match st.budgets[k]? with
    | none => (1536, [])
    | some (ts, dot, pos, seq) =>
      match exprOf ts with
      | .error c => (1536, [{ num := c, pos, seq }])
      | .ok e =>
        match e.eval (st.look pos.file) dot with
        | .error none => (1536, [])
        | .error (some c) => (1536, [{ num := c, pos, seq }])
        | .ok (.rel _ _) => (1536, [{ num := 304, pos, seq }])
        | .ok (.abs n) => if 1 ≤ n ∧ n ≤ 1536 then (n.toNat, []) else (1536, [{ num := 205, pos, seq }])

/-- The label that an operand names alone, with the budget in force there. -/
def St.labelBudget (st : St) (file : Text) (ts : List Tok) : Option (Sec × Nat) :=
  match ts with
  | [.id s] =>
    let k := keyOf st.locals file s
    match st.syms.find? fun y => y.key == k with
    | some { val := .label (.rel sec _) b, .. } => some (sec, b)
    | _ => none
  | _ => none

/-- The bytes of an instruction statement, and the warnings IK601 and IK603. -/
def St.writeInstr (st : St) (it : Item) (f : Form) (g : Except Nat Guard) (quals : List String) (ops : List (List Tok)) : Out2 :=
  let blank : Out2 := { bytes := zeros it.len }
  match g with
  | .error k => blank.say (some k) it.pos it.seq
  | .ok g =>
    let budget := (st.budgetVal it.budget).1
    match assembleInstr f g quals ops budget (addrOf it.sec it.off) (st.look it.pos.file) with
    | .error k => blank.say k it.pos it.seq
    | .ok w =>
      let o : Out2 := { bytes := toBytes it.len (encode w.instr).2, relocs := (w.reloc.map fun s => (4, s)).toList }
      let o := w.notes.foldl (fun o k => o.say (some k) it.pos it.seq) o
      let uniform := 12 ≤ g.code.toNat && !(g.code == 15 && g.sense)
      let o := if it.split && f.once && uniform then o.say (some 601) it.pos it.seq else o
      let higher := match ops with
        | [t] => (match st.labelBudget it.pos.file t with
          | some (.text, b) => decide (budget < (st.budgetVal b).1)
          | _ => false)
        | _ => false
      if (f.name == "call" || f.name == "jmp") && higher then o.say (some 603) it.pos it.seq else o

/-- An absolute operand of a range. -/
def St.intOp (st : St) (it : Item) (ts : List Tok) (lo hi : Int) : Ans Int :=
  match exprOf ts with
  | .error k => fail k
  | .ok e => (e.eval (st.look it.pos.file) (addrOf it.sec it.off)).bind fun v =>
    match v with
    | .abs n => if lo ≤ n ∧ n ≤ hi then .ok n else fail 205
    | .rel _ _ => fail 304

/-- `.inst`: the words as given; IK602 with the cause that decoding them raises (R123). -/
def St.writeRaw (st : St) (it : Item) (ws : List (List Tok)) : Out2 :=
  let blank : Out2 := { bytes := zeros it.len }
  match ws.mapM fun t => st.intOp it t (-2 ^ 31) (2 ^ 32 - 1) with
  | .error k => blank.say k it.pos it.seq
  | .ok ns =>
    let b := ns.flatMap fun n => toBytes 4 (wrap 32 n)
    let o : Out2 := { bytes := b }
    match lenOf (field (ofBytes (b.take 4)) 0 2) with
    | some l =>
      if l ≠ it.len then o.say (some 106) it.pos it.seq
      else
        match decodeAt (zeros (it.off % 32) ++ b ++ zeros 32) (it.off % 32) with
        | .error .illegalOperand => o
        | .error c => o.say (some 602) it.pos it.seq c
        | .ok _ => o
    | none => o.say (some 602) it.pos it.seq DecodeCause.illegalEncoding

/-- An integer directive; `.dword` takes a relocatable value (R110, R113). -/
def St.writeInts (st : St) (it : Item) (n : Nat) (lo hi : Int) (ops : List (List Tok)) : Out2 :=
  ops.foldl (fun o ts =>
    let v : Ans Value := match exprOf ts with
      | .error k => fail k
      | .ok e => e.eval (st.look it.pos.file) (addrOf it.sec it.off)
    match v with
    | .error k => ({ o with bytes := o.bytes ++ zeros n }).say k it.pos it.seq
    | .ok (.rel s off) =>
      if n = 8 then { o with bytes := o.bytes ++ toBytes 8 (wrap 64 off), relocs := o.relocs ++ [(o.bytes.length, s)] }
      else ({ o with bytes := o.bytes ++ zeros n }).say (some 304) it.pos it.seq
    | .ok (.abs x) =>
      if lo ≤ x ∧ x ≤ hi then { o with bytes := o.bytes ++ toBytes n (wrap (8 * n) x) }
      else ({ o with bytes := o.bytes ++ zeros n }).say (some 205) it.pos it.seq) {}

/-- Pairs of e2m1 codes in a byte, the first in the low nibble (R113). -/
def packPairs : List Nat → List Byte
  | a :: b :: r => BitVec.ofNat 8 (a + 16 * b) :: packPairs r
  | [a] => [BitVec.ofNat 8 a]
  | [] => []

/-- A float directive: each value rounded to nearest even without saturation, IK605 where that is inexact. -/
def St.writeReals (st : St) (it : Item) (F : Fmt) (ops : List (List Tok)) : Out2 :=
  let r := ops.foldl (fun (a : List Nat × Out2) ts =>
    match realOf (st.look it.pos.file) (addrOf it.sec it.off) ts with
    | .error k => (a.1 ++ [0], a.2.say k it.pos it.seq)
    | .ok x =>
      let v := roundReal F x
      (a.1 ++ [v.1], if v.2 then a.2.say (some 605) it.pos it.seq else a.2)) ([], {})
  { r.2 with bytes := if F.bits = 4 then packPairs r.1 else r.1.flatMap fun c => toBytes (F.bits / 8) c }

/-! ### Blocks (R119 to R121, R261, R323) -/

/-- Keyword operands: `name=` opens one, and the operands after it without a name follow it. None where the first has no name. -/
def keywords : List (List Tok) → List (String × List (List Tok)) → Option (List (String × List (List Tok)))
  | [], acc => some acc
  | (.id k :: .op "=" :: t) :: r, acc => keywords r (acc ++ [(lowerStr k, [t])])
  | t :: r, acc =>
    match acc.getLast? with
    | some (k, l) => keywords r (acc.dropLast ++ [(k, l ++ [t])])
    | none => none

/-- The keywords of a line, each once and with the number of values that it takes; another is `k`. -/
def kwOf (k : Nat) (spec : List (String × Nat)) (ops : List (List Tok)) : Ans (List (String × List (List Tok))) :=
  match keywords ops [] with
  | none => fail k
  | some l =>
    if (l.map (·.1)).eraseDups.length ≠ l.length then fail k
    else if l.all fun x => spec.any fun y => y.1 == x.1 && y.2 == x.2.length then .ok l else fail k

/-- What reading a block needs. -/
structure BlockCx where
  st  : St
  at0 : Value

def BlockCx.value (c : BlockCx) (file : Text) (ts : List Tok) : Ans Value :=
  match exprOf ts with
  | .error k => fail k
  | .ok e => e.eval (c.st.look file) c.at0
def BlockCx.int (c : BlockCx) (file : Text) (ts : List Tok) : Ans Int :=
  (c.value file ts).bind fun v => match v with | .abs n => .ok n | .rel _ _ => fail 304
/-- The values of a keyword, or a default. -/
def BlockCx.ints (c : BlockCx) (file : Text) (l : List (String × List (List Tok))) (k : String) (dflt : List Int) : Ans (List Int) :=
  match l.find? fun x => x.1 == k with
  | none => .ok dflt
  | some x => x.2.mapM (c.int file)

/-- A value in a range, or diagnostic `k`. -/
def within (k : Nat) (lo hi : Int) (n : Int) : Ans Nat := if lo ≤ n ∧ n ≤ hi then .ok n.toNat else fail k

/-- The launch line: grid, cluster, priority, stack, shared (R120; IK405). -/
def BlockCx.head (c : BlockCx) (l : BlockLine) : Ans LaunchBlock := do
  let kw ← kwOf 405 [("grid", 3), ("cluster", 1), ("priority", 1), ("stack", 1), ("shared", 1)] l.ops.tail
  let g ← c.ints l.pos.file kw "grid" [1, 1, 1]
  let one (k : String) (d : Int) : Ans Int := do return ((← c.ints l.pos.file kw k [d]).head?).getD d
  let x ← within 405 1 (2 ^ 32 - 1) (g.getD 0 1)
  let y ← within 405 1 (2 ^ 32 - 1) (g.getD 1 1)
  let z ← within 405 1 (2 ^ 32 - 1) (g.getD 2 1)
  let cl ← within 405 1 4 (← one "cluster" 1)
  let pr ← within 405 0 7 (← one "priority" 0)
  let stk ← within 405 0 (2 ^ 32 - 1) (← one "stack" 0)
  let sh ← within 405 0 524288 (← one "shared" 0)
  if 2 ^ 32 < x * y * z ∨ x * y * z % cl ≠ 0 ∨ stk % 128 ≠ 0 then fail 405
  else return { x, y, z, cluster := cl, priority := pr, stack := stk, shared := sh }

/-- Fields of a record that hold an address: its offset, and a relocation where it is relocatable. -/
def addrField (v : Value) : Nat × Option Sec :=
  match v with | .abs n => (wrap 64 n, none) | .rel s off => (wrap 64 off, some s)

/-- A role line (R120; IK406, IK407, IK408), and the section of its entry. -/
def BlockCx.role (c : BlockCx) (n : Nat) (l : BlockLine) : Ans RoleLine := do
  match l.ops with
  | [] => fail 106
  | num :: r =>
    if (← c.int l.pos.file num) ≠ n ∨ 4 ≤ n then fail 406
    else
      let kw ← kwOf 406 [("entry", 1), ("budget", 1), ("groups", 1), ("fibres", 1), ("team", 1)] r
      let one (k : String) : Ans Int := do return ((← c.ints l.pos.file kw k [0]).head?).getD 0
      let b ← within 406 1 1536 (← one "budget")
      let g ← within 406 1 255 (← one "groups")
      let f ← within 406 1 32 (← one "fibres")
      let t ← within 406 0 1 (← one "team")
      if t = 1 ∧ g < 2 then fail 407
      else
        match (kw.find? fun x => x.1 == "entry").bind fun x => x.2.head? with
        | none => fail 408
        | some ts =>
          match c.st.labelBudget l.pos.file ts with
          | some (.text, k) =>
            if b < (c.st.budgetVal k).1 then fail 406
            else
              let v ← c.value l.pos.file ts
              return { entry := (addrField v).1, budget := b, groups := g, fibres := f, team := t == 1 }
          | _ => fail 408

/-- The lines of R323, each into the block, with the relocation of its address field. -/
def BlockCx.extra (c : BlockCx) (b : LaunchBlock) (l : BlockLine) : Ans (LaunchBlock × List (Nat × Sec)) := do
  match l.dir, l.ops with
  | ".tiles", [x, y, z] =>
    let x ← within 405 0 65535 (← c.int l.pos.file x)
    let y ← within 405 0 65535 (← c.int l.pos.file y)
    let z ← within 405 0 65535 (← c.int l.pos.file z)
    if (x = 0 ∨ y = 0 ∨ z = 0) ∧ ¬(x = 0 ∧ y = 0 ∧ z = 0) then fail 405 else return ({ b with tiles := some (x, y, z) }, [])
  | ".donemap", [e] =>
    let a := addrField (← c.value l.pos.file e)
    if a.1 % 8 ≠ 0 then fail 405 else return ({ b with donemap := some a.1 }, (a.2.map fun s => (104, s)).toList)
  | ".pgtable", [e] =>
    let a := addrField (← c.value l.pos.file e)
    return ({ b with pgtable := some a.1 }, (a.2.map fun s => (136, s)).toList)
  | ".depend", k :: r =>
    let kind := match k with | [.id s] => ["none", "same", "row", "column", "all", "window"].idxOf (lowerStr s) | _ => 6
    let kw ← kwOf 405 [("producer", 3), ("map", 1), ("radius", 1)] r
    let p ← c.ints l.pos.file kw "producer" [0, 0, 0]
    let rad ← c.ints l.pos.file kw "radius" [0]
    let px ← within 405 1 (2 ^ 32 - 1) (p.getD 0 0)
    let py ← within 405 1 (2 ^ 32 - 1) (p.getD 1 0)
    let pz ← within 405 1 (2 ^ 32 - 1) (p.getD 2 0)
    let rad ← within 405 (if kind = 5 then 1 else 0) (if kind = 5 then 255 else 0) (rad.getD 0 0)
    let m ← match (kw.find? fun x => x.1 == "map").bind fun x => x.2.head? with
      | some ts => c.value l.pos.file ts
      | none => .ok (.abs 0)
    let a := addrField m
    if kind = 0 ∨ 5 < kind ∨ a.1 % 8 ≠ 0 then fail 405
    else return ({ b with depend := some { kind, px, py, pz, map := a.1, radius := rad } },
      (a.2.map fun s => (112, s)).toList)
  | _, _ => fail 106

/-- What reading a launch block gathers. -/
structure LaunchRead where
  block  : LaunchBlock := {}
  relocs : List (Nat × Sec) := []
  tail   : Bool := false
  diags  : List Diag := []

/-- A line of a launch block after its first; a role line stands before the lines of R323. -/
def BlockCx.launchLine (c : BlockCx) (r : LaunchRead) (l : BlockLine) : LaunchRead :=
  let complain (k : Option Nat) : LaunchRead :=
    match k with | some num => { r with diags := r.diags ++ [{ num, pos := l.pos, seq := l.seq }] } | none => r
  if l.dir == ".role" then
    if r.tail then complain (some 406)
    else
      let n := r.block.roles.length
      match c.role n l with
      | .ok x => { r with block := { r.block with roles := r.block.roles ++ [x] }, relocs := r.relocs ++ [(32 + 16 * n, .text)] }
      | .error k =>
        let r := { r with block := { r.block with roles := r.block.roles ++ [{ entry := 0, budget := 1, groups := 0, fibres := 1 }] } }
        match k with | some num => { r with diags := r.diags ++ [{ num, pos := l.pos, seq := l.seq }] } | none => r
  else
    match c.extra r.block l with
    | .ok x => { r with block := x.1, relocs := r.relocs ++ x.2, tail := true }
    | .error k => { complain k with tail := true }

/-- The record of a launch block (R119). -/
def BlockCx.launch (c : BlockCx) (b : Block) : Out2 :=
  match b.lines with
  | [] => { bytes := zeros 256 }
  | h :: rest =>
    let start : LaunchRead := match c.head h with
      | .ok x => { block := x }
      | .error (some num) => { diags := [{ num, pos := h.pos, seq := h.seq }] }
      | .error none => {}
    let r := rest.foldl c.launchLine start
    let groups : Nat := r.block.roles.foldl (fun n x => n + x.groups) 0
    let n := r.block.roles.length
    let more : List Diag := if n = 0 ∨ 4 < n ∨ 16 < groups then [{ num := 406, pos := h.pos, seq := h.seq }] else []
    { bytes := r.block.record, relocs := r.relocs, diags := r.diags ++ more }

/-- The fill of a layout: its kind and pattern, V taken in the element format (R261). -/
def BlockCx.fill (c : BlockCx) (file : Text) (ty : ElemTy) (ts : List Tok) : Ans (Nat × Nat × Bool) :=
  match ts with
  | [.id "zero"] => .ok (0, 0, false)
  | [.id "nan"] => match ty with | .i32 => fail 409 | .n32 => fail 409 | .e2m1 => fail 409 | _ => .ok (1, 0, false)
  | _ =>
    match ty.fmt? with
    | none => do
      let n ← c.int file ts
      let lo : Int := if ty = .i32 then -2 ^ 31 else 0
      let hi : Int := if ty = .i32 then 2 ^ 31 - 1 else 2 ^ 32 - 1
      if lo ≤ n ∧ n ≤ hi then return (2, wrap 32 n, false) else fail 409
    | some F => do
      let x ← realOf (c.st.look file) c.at0 ts
      let v := roundReal F x
      return (2, if F.bits = 4 then v.1 * 17 else v.1, v.2)

/-- A dimension line (R261; IK409). -/
def BlockCx.dim (c : BlockCx) (z : Nat) (first : Bool) (l : BlockLine) : Ans DimLine := do
  match l.ops with
  | [e, b, s] =>
    let e ← within 409 1 (2 ^ 32 - 1) (← c.int l.pos.file e)
    let b ← within 409 1 65535 (← c.int l.pos.file b)
    let s ← c.int l.pos.file s
    if s < -2 ^ 63 ∨ 2 ^ 63 ≤ s ∨ s % z ≠ 0 ∨ (first ∧ s ≠ z) then fail 409
    else return { extent := e, box := b, stride := s }
  | _ => fail 106

/-- The record of a layout block (R121). -/
def BlockCx.layout (c : BlockCx) (b : Block) : Out2 :=
  match b.lines with
  | [] => { bytes := zeros 256 }
  | h :: rest =>
    let blank : Out2 := { bytes := zeros 256 }
    let read : Ans (LayoutBlock × Nat × Bool) := do
      let kw ← kwOf 409 [("elem", 1), ("rotate", 1), ("fill", 1)] h.ops.tail
      let elem := match (kw.find? fun x => x.1 == "elem").bind fun x => x.2.head? with
        | some [.id s] => typeNames.idxOf (lowerStr s)
        | _ => 8
      match elemTy? elem with
      | none => fail 409
      | some ty =>
        let z := match ty with | .i32 => 2 | .n32 => 2 | .f32 => 2 | .f16 => 1 | .bf16 => 1 | _ => 0
        let rot := ((← c.ints h.pos.file kw "rotate" [0]).head?).getD 0
        let f ← c.fill h.pos.file ty (((kw.find? fun x => x.1 == "fill").bind fun x => x.2.head?).getD [.id "zero"])
        if rot ≠ 0 ∧ rot ≠ 4 ∧ rot ≠ 8 ∧ rot ≠ 16 then fail 409
        else return ({ elem, sizeLog := z, rotate := rot.toNat, fillKind := f.1, pattern := f.2.1, dims := [] }, 2 ^ z, f.2.2)
    match read with
    | .error k => blank.say k h.pos h.seq
    | .ok (lay, z, inexact) =>
      let o : Out2 := if inexact then blank.say (some 605) h.pos h.seq else blank
      let r := rest.foldl (fun (a : List DimLine × Out2) l =>
        match c.dim z a.1.isEmpty l with
        | .ok d => (a.1 ++ [d], a.2)
        | .error k => (a.1, a.2.say k l.pos l.seq)) (([] : List DimLine), o)
      let total := r.1.foldl (fun n d => n * d.box) z
      let line := ((r.1.head?.map (·.box)).getD 0) * z
      let o := if rest.length = 0 ∨ 10 < rest.length ∨ 2 ^ 32 ≤ total ∨ (lay.rotate ≠ 0 ∧ line % (8 * lay.rotate) ≠ 0)
        then r.2.say (some 409) h.pos h.seq else r.2
      { o with bytes := ({ lay with dims := r.1 }).record }

/-! ### The image -/

/-- What an item writes. DESIGN CHOICE (log 45): R113 gives no range for the v of `.space n, v`; it has that of `.byte`, −128 to
255, and IK205 outside. On every line of a launch or layout block `.` is the address of its record: DEDUCED (log 45). -/
def St.write (st : St) (it : Item) : Out2 :=
  match it.body with
  | .instr f g quals ops => st.writeInstr it f g quals ops
  | .raw ws => st.writeRaw it ws
  | .ints n lo hi ops => st.writeInts it n lo hi ops
  | .reals F ops => st.writeReals it F ops
  | .fill n v =>
    match v with
    | none => { bytes := zeros n }
    | some ts =>
      match st.intOp it ts (-128) 255 with
      | .ok x => { bytes := List.replicate n (BitVec.ofInt 8 x) }
      | .error k => ({ bytes := zeros n } : Out2).say k it.pos it.seq
  | .bytes b => { bytes := b }
  | .block id =>
    let c : BlockCx := { st, at0 := addrOf it.sec it.off }
    match st.blocks.find? fun b => b.id == id with
    | some b => if b.launch then c.launch b else c.layout b
    | none => { bytes := zeros 256 }

def Sec.kind : Sec → Nat | .text => 1 | .data => 2 | .spad => 3 | .launch => 4

/-- The sections of the image, the relocations and the launch records, from the items with what they write (R112, R124). -/
def imageOf (ws : List (Item × Out2)) : ImageFile :=
  let all : List Sec := [.text, .data, .spad, .launch]
  let bytesOf (s : Sec) : List Byte := (ws.filter fun w => w.1.sec = s).flatMap fun w => w.1.pads ++ w.2.bytes
  let rels := ws.flatMap fun w => w.2.relocs.map fun r => (w.1.sec, r.2, w.1.off + r.1)
  let present := all.filter fun s => !(bytesOf s).isEmpty || rels.any fun r => r.2.1 = s
  { sections := present.map fun s => { kind := s.kind, align := sectionAlign s.kind, bytes := bytesOf s }
    relocs := rels.map fun r => { sect := present.idxOf r.1, target := present.idxOf r.2.1, offset := r.2.2 }
    launches := (ws.filter fun w => match w.1.body with | .block _ => w.1.sec = .launch | _ => false).length }

/-- The listing: the instructions of `.text` in order, with their pads. -/
def listingOf (ws : List (Item × Out2)) : List Listed :=
  (ws.filter fun w => w.1.sec = .text).flatMap fun w =>
    (if w.1.pads.isEmpty then [] else
      [{ addr := if w.1.len = 0 then w.1.off else w.1.off - w.1.pads.length, bytes := w.1.pads, pos := w.1.pos, pad := true }]) ++
    (if w.1.len = 0 then [] else [{ addr := w.1.off, bytes := w.2.bytes, pos := w.1.pos, pad := false }])

/-- A warning's number (R125). -/
def isWarning (num : Nat) : Bool := decide (600 ≤ num)

/-- What ikas does with the texts of its files. -/
def assemble (o : Options) (d : Disk) (texts : List (Text × Text)) : Outcome × ImageFile :=
  let st := firstPass o d texts
  let ws := st.items.reverse.map fun it => (it, st.write it)
  let budgets := (List.range st.budgets.length).flatMap fun k => (st.budgetVal (k + 1)).2
  let raised := st.diags.reverse ++ st.equDiags ++ budgets ++ ws.flatMap fun w => w.2.diags
  let shown := raised.filter fun x => !(isWarning x.num && o.mute.contains x.num)
  let diags := sortBy (fun a b => decide (a.seq ≤ b.seq)) shown
  let wrong := diags.any fun x => !isWarning x.num || o.werror
  let file := imageOf ws
  let listing := o.listing.map fun p => (p, listingOf ws)
  if (!wrong && d.closed.contains o.out) || (match o.listing with | some p => d.closed.contains p | none => false) then
    ({ status := 2, diags := diags ++ [{ num := 3, pos := {} }] }, file)
  else
    ({ status := if wrong then 1 else 0, diags, listing, image := if wrong then none else some (o.out, file.bytes) }, file)

/-- ikas as it is invoked: options and files, then the diagnostics, the exit status and what is written (R104). -/
def invoke (args : List Text) (d : Disk) : Outcome :=
  match readOptions args {} with
  | none => { status := 2, diags := [{ num := 2, pos := {} }] }
  | some o =>
    match o.files.find? fun f => (d.read f).isNone with
    | some f => { status := 2, diags := [{ num := 1, pos := ⟨f, 0⟩ }] }
    | none => (assemble o d (o.files.map fun f => (f, (d.read f).getD []))).1

end Sys2Proof.Machine.Ikas
end

