-- ==== Sys2Proof/Tests/Slice0.lean ====
section
/-! SUPPORT. Tests: words that the spec works out, ill-formed terms, small steps, and for every statement a state and operands
that meet its hypotheses. -/

namespace Sys2Proof.Tests

-- The theorems are elaborated one after another: many evaluations at once would take many threads.
set_option Elab.async false

open Sys2Proof Sys2Proof.Machine Sys2Proof.Machine.State Sys2Proof.Claim
open Sys2Proof.Machine.Ikas (Text)

/-- No guard (R83). -/
abbrev G : Guard := ⟨15, false⟩

/-! ## Words of the spec's own examples -/

/-- A 128-bit instruction from its four 32-bit words, low first. -/
def words (a b c d : Nat) : Nat := a + b * 2 ^ 32 + c * 2 ^ 64 + d * 2 ^ 96

/-! R116, R117, R155: the pad and the filler. -/
theorem test_decode_nop : decodeTableWord 64 0x2FBC = some (.nop G) := by decide
theorem test_decode_filler : decodeTableWord 96 0xFD = some (.smovi ⟨15, true⟩ 0 0) := by decide

/-! 07_encoding.md, worked encodings. -/
theorem test_decode_vfma : decodeTableWord 96 0x28000600800864818D = some (.vfma ⟨3, false⟩ false 0 .f32 .rtz false 100 1 2 3) := by
  decide
theorem test_decode_vbr : decodeTableWord 64 0x0001FFFFFFD820D4 = some (.vbr ⟨5, true⟩ .likely 0xFFFFFFD8) := by decide

/-! 09_control_scalar.md, "Encodings worked out". -/
theorem test_decode_sdiv : decodeTableWord 64 0x00000101420303BC = some (.sdiv G true 3 4 (.reg 5)) := by decide
theorem test_decode_scmp : decodeTableWord 64 0xFFFF10400101093C = some (.scmp G .lt false 1 2 (.imm 0xFFFF)) := by decide
theorem test_decode_br : decodeTableWord 64 0x0002000000F02034 = some (.br ⟨13, false⟩ .unlikely 0xF0) := by decide
theorem test_decode_callr : decodeTableWord 64 0x00000000140022BC = some (.callr G 40) := by decide
theorem test_decode_ret : decodeTableWord 64 0x000000003F80233C = some (.ret G 127) := by decide
theorem test_decode_fend : decodeTableWord 64 0x2448 = some (.fend ⟨2, true⟩) := by decide
theorem test_decode_sleep : decodeTableWord 64 0x01F41000000025BC = some (.sleep G (.imm 500)) := by decide
theorem test_decode_sadd : decodeTableWord 64 0x0000001C3816013C = some (.sadd G 22 112 (.reg 112)) := by decide

/-! 09_control_scalar.md, the near misses: a branch of class U with a vector guard, and with no guard. -/
theorem test_decode_br_vector_guard : decodeTableWord 64 0x0002000000F02004 = none := by decide
theorem test_decode_br_unguarded : decodeTableWord 64 0x0002000000F0203C = none := by decide

/-! 12_memory_instructions.md, "Encodings worked out". -/
theorem test_decode_vld :
    decodeTableWord 96 (words 0x1008C03D 0x0002400C 0x40 0) = some (.vld G .sp .b32 .plain 8 2 (some 3) 0x40) := by decide
theorem test_decode_satom :
    decodeTableWord 96 (words 0x3005C33D 0x025A0000 0x8 0) = some (.satom G .add true .sh false (.acqRel .coh) 5 6 8) := by decide
theorem test_decode_cbarrive :
    decodeTableWord 128 (words 0x0484C83E 0x08000000 0 0x100) = some (.cbarrive G false .coh false 4 9 0x100) := by decide
theorem test_decode_bar : decodeTableWord 64 0xC5BC = some (.bar G) := by decide
theorem test_decode_cbwait :
    decodeTableWord 128 (words 0x0F19C8BE 0x10000000 0 0) = some (.cbwait G .clu false 25 30 0) := by decide
theorem test_decode_waitw :
    decodeTableWord 128 (words 0xCC95C53E 0x280013E5 0 0) = some (.waitw G none .sp true 21 25 23 31 1 0) := by decide

/-! 15_vector.md, "Encodings worked out". -/
theorem test_decode_vadd : decodeTableWord 64 0x04000080080A32BC = some (.vadd G false .i32 true 10 1 (.vec 2)) := by decide
theorem test_decode_stov : decodeTableWord 64 0x00000003F809433C = some (.stov G false false 9 127) := by decide
theorem test_decode_vcvt :
    decodeTableWord 96 (0x2000000020149005 + 0x114 * 2 ^ 64) = some (.vcvt ⟨1, false⟩ false 0 .f32 .e4m3 .rne true 20 4) := by
  decide

/-! 17_copy.md, "Encodings worked out". -/
theorem test_decode_cpy :
    decodeTableWord 128 (words 0x8214E03E 0x0400A101 2 1) = some (.cpy G .sh .vm .coh 20 4 6 8 (some ⟨false, 10⟩) none) := by decide
theorem test_decode_cpym :
    decodeTableWord 128 (words 0x8215E13E 0x60600101 0 0xF) = some (.cpym G .sp 21 4 6 8 12 0xF) := by decide
theorem test_decode_cpytest : decodeTableWord 64 0x0A03E1BC = some (.cpytest G 3 20) := by decide

/-! 19_matrix.md and 20_matrix_notes.md. -/
theorem test_decode_macqTeam : decodeTableWord 64 0x00020022C00AE23C = some (.macqTeam G 10 2 11) := by decide
theorem test_decode_mrel : decodeTableWord 64 0xE2BC = some (.mrel G) := by decide
theorem test_decode_mzero : decodeTableWord 64 0x00010000000BE3BC = some (.mzero G 11 1) := by decide
theorem test_decode_mloop :
    decodeTableWord 128 (words 0x4214E43E 0x90000001 0 0x2020) = some (.mloop G .bf16 .bf16 false 20 4 5 0 0 32 4 0) := by decide
theorem test_decode_mloop_part :
    decodeTableWord 128 (words 0x4215E43E 0xFC0070C1 1 0x8028) = some (.mloop G .e2m1 .e2m1 true 21 4 5 6 7 40 16 0) := by decide
theorem test_decode_msacc :
    decodeTableWord 128 (words 0x4416E4BE 0x142 0 0) = some (.msacc G 22 8 9 10 0) := by decide

/-! 21_names.md and 22_names_notes.md. -/
theorem test_decode_nwake : decodeTableWord 64 0x020AF0BC = some (.nwake G 10 4) := by decide
theorem test_decode_ndeposit : decodeTableWord 64 0x00020001420AF1BC = some (.ndeposit G 10 4 5 2) := by decide
theorem test_decode_njoin : decodeTableWord 64 0x00000020030CF23C = some (.njoin G true 12 6 none) := by decide
theorem test_decode_npark_t : decodeTableWord 64 0x00000043C00EF2BC = some (.npark G 14 (some 15)) := by decide
theorem test_decode_npark : decodeTableWord 64 0x0014F2BC = some (.npark G 20 none) := by decide

/-! 23_scheduling.md, "Encodings worked out". -/
theorem test_decode_launch : decodeTableWord 64 0x020AF7BC = some (.launch G 10 4) := by decide
theorem test_decode_wdnext : decodeTableWord 64 0x0300F73C = some (.wdnext G 6) := by decide
theorem test_decode_tpost : decodeTableWord 64 0x000000200380F43C = some (.tpost G true 7) := by decide
theorem test_decode_tdone : decodeTableWord 64 0xF4BC = some (.tdone G) := by decide
theorem test_decode_rgacq : decodeTableWord 64 0x000003400414F53C = some (.rgacq G false .die .sp 20 8) := by decide
theorem test_decode_rgcommit : decodeTableWord 64 0x00000345C415F5BC = some (.rgcommit G .die .sp 21 8 23) := by decide
theorem test_decode_tspawn :
    decodeTableWord 96 (words 0x6005F3BD 0x4018 0x40 0) = some (.tspawn G 5 12 (some 6) 0x40) := by decide

/-! 26_traps.md and 27_traps_notes.md. -/
theorem test_decode_trap : decodeTableWord 64 0x000700000000FC3C = some (.trap G 7) := by decide
theorem test_decode_xret : decodeTableWord 64 0xFCBC = some (.xret G) := by decide
theorem test_decode_sysrd : decodeTableWord 64 0x006300000014FD3C = some (.sysrd G 20 .spbase) := by decide
theorem test_decode_syswr : decodeTableWord 64 0x000200000280FDBC = some (.syswr G .depmask 5) := by decide
theorem test_decode_bkpt : decodeTableWord 64 0x000300000000FE3C = some (.bkpt G 3) := by decide
theorem test_decode_logmark : decodeTableWord 64 0x00000300FEBC = some (.logmark G 6) := by decide
theorem test_decode_fretry : decodeTableWord 64 0x000000001232FFBC = some (.fretry G 50 36) := by decide
theorem test_decode_fretryExhaust : decodeTableWord 64 0x00000020020AFFBC = some (.fretryExhaust G 10 4) := by decide
theorem test_decode_evpost :
    decodeTableWord 128 (words 0x8214FF3E 0x101 0 0x31) = some (.evpost G 20 4 6 8 0x31) := by decide

/-! 28_fabric_host.md, "Encodings worked out". -/
theorem test_decode_tsend : decodeTableWord 128 (words 0x4214E63E 0x30C1 0 0) = some (.tsend G 20 4 5 6 3) := by decide
theorem test_decode_trecv : decodeTableWord 128 (words 0x4415E6BE 0x3142 0 0) = some (.trecv G 21 8 9 10 3) := by decide

/-! R101: the order of the causes, on the last word of a fetch block (R84). -/
theorem test_decode_order :
    ([(zeros 28 ++ toBytes 4 0x2FBC, 28), (zeros 28 ++ toBytes 4 3, 28), (toBytes 32 0x643C, 0)].map fun e =>
      match decodeAt e.1 e.2 with | .error c => some c | .ok _ => none) =
      [some .fetchAlign, some .illegalEncoding, some .illegalOpcode] := by decide

/-! ## Ill-formed terms: one for each check -/

theorem test_wf_guard : (Instr.sadd ⟨5, false⟩ 1 2 (.reg 3)).wellFormed = false := by decide
theorem test_wf_field : (Instr.sbfx G false 1 2 60 8).wellFormed = false ∧ (Instr.sbfx G false 1 2 60 0).wellFormed = false := by decide
theorem test_wf_sfcvt : (Instr.sfcvt G .f32 .f32 .rne false 1 2).wellFormed = false := by decide
theorem test_wf_br : (Instr.br G .none 8).wellFormed = false ∧ (Instr.jmp G .none 4).wellFormed = false := by decide
theorem test_wf_ix : (Instr.vmad G false 7 .i32 false 1 2 3 4).wellFormed = false := by decide
theorem test_wf_vmov : (Instr.vmov G false 1 2 4 8).wellFormed = false := by decide
theorem test_wf_vmovi : (Instr.vmovi G false 1 .i32 1 0).wellFormed = false ∧ (Instr.vmovi G false 0 .f16 1 0).wellFormed = false := by
  decide
theorem test_wf_pred : (Instr.vplog G false 8 12 0 0).wellFormed = false := by decide
theorem test_wf_qswap : (Instr.qswap G false 0 1 2).wellFormed = false := by decide
theorem test_wf_red : (Instr.vred G false .and (.f32 .rne) 1 2).wellFormed = false := by decide
theorem test_wf_vo : (Instr.vld G .sh .b32 .plain 1 2 (some 0x7FF) 0).wellFormed = false := by decide
theorem test_wf_stk : (Instr.vld G .stk .b32 (.acq .coh) 1 2 none 0).wellFormed = false := by decide
theorem test_wf_order : (Instr.vld G .sh .b32 (.rel .coh) 1 2 none 0).wellFormed = false ∧
    (Instr.vst G .sh .b32 (.acq .coh) 1 2 none 0).wellFormed = false := by decide
theorem test_wf_size : (Instr.vst G .sh .i8 .plain 1 2 none 0).wellFormed = false ∧
    (Instr.sld G .sh .b128 .plain 1 2 0).wellFormed = false ∧ (Instr.vldc G false .sh .i8 1 2 none 0).wellFormed = false := by decide
theorem test_wf_fadd : (Instr.vatom G .fadd true .sh true .plain 1 2 none 0).wellFormed = false := by decide
theorem test_wf_cas : (Instr.satom G .cas true .sh false .plain 127 2 0).wellFormed = false := by decide
theorem test_wf_count : (Instr.spushv G 0 0).wellFormed = false ∧ (Instr.spopv G 0 1537).wellFormed = false := by decide
theorem test_wf_flag : (Instr.cpy G .sh .sp .coh 1 2 3 4 none (some 127)).wellFormed = false := by decide
theorem test_wf_cpyt : (Instr.cpyt G false .sh .coh 1 2 127 4 none none).wellFormed = false := by decide
theorem test_wf_cpym : (Instr.cpym G .cl 1 2 3 4 5 1).wellFormed = false := by decide
theorem test_wf_slots : (Instr.macq G 1 7).wellFormed = false ∧ (Instr.mgrow G 1 6).wellFormed = false ∧
    (Instr.mzero G 1 6).wellFormed = false := by decide
theorem test_wf_mloop : (Instr.mloop G .bf16 .e4m3 false 1 2 3 0 0 4 5 0).wellFormed = false ∧
    (Instr.mloop G .bf16 .bf16 true 1 2 3 0 0 4 5 0).wellFormed = false ∧
    (Instr.mloop G .bf16 .bf16 false 1 2 3 9 0 4 5 0).wellFormed = false := by decide
theorem test_wf_pair : (Instr.nwake G 127 1).wellFormed = false := by decide
theorem test_wf_syswr : (Instr.syswr G .xlflush 1).wellFormed = false ∧ (Instr.syswr G .scrridx 1).wellFormed = false := by decide
theorem test_wf_event : Instr.strokeReformation.wellFormed = false := by decide


/-! ## Who executes in a witness -/

/-- A stroke of all 32 fibres of the placed group at its entry (log 35). -/
def u : Issue := ⟨Place.gid, BitVec.allOnes 32, BitVec.ofNat 64 Place.code⟩
/-- Two fibres of it. -/
def u2 : Issue := ⟨Place.gid, 3, BitVec.ofNat 64 Place.code⟩
/-- The placed machine, its page tables in memory. -/
def M : State := Place.machine (Place.tables State.reset)
/-- A group alone in a machine, and its stroke issues. -/
def on (g : Group) (s : State) (u : Issue := u) : State := { s with groups := [(Place.gid, g)], issuing := some u }
/-- The machine of most witnesses, with its group. -/
def g : Group := Place.group
def T : State := on g M

theorem mkExecutes {i : Instr} {gd : Guard} {s : State} {u : Issue} {g : Group} (hi : s.issuing = some u)
    (hg : s.group? u.gid = some g) (hb : i.inBudget g.budget = true) (ha : (g.active u.mask gd != 0) = true) :
    Executes i gd s u g := ⟨⟨hi, hg⟩, hb, by simpa using ha⟩

theorem executes (i : Instr) (h : i.inBudget 1536 = true) : Executes i G T u g :=
  mkExecutes rfl (by decide +kernel) h (by decide +kernel)

theorem acts (i : Instr) (h : i.inBudget 1536 = true) : Acts i G T u g := ⟨executes i h, by decide +kernel⟩

theorem mkUnlogged {s : State} {ctx k : Nat} {c : Context} {p : Presence} (h : s.context? ctx = some c)
    (hs : c.sites = [(k, p)]) (hm : p.scroll.mode = 0) (hf : p.scroll.frozen = false) : Unlogged s ctx := by
  refine ⟨fun q => ?_, by simp [State.frozen, h, hs, hf]⟩
  simp only [State.scroll, State.site?, h, hs, Option.bind_some, Tbl.get?]
  by_cases hq : k = q <;> simp [hq, hm]

/-- The context of every witness is as it was placed. -/
theorem placed_unlogged {s : State} (h : s.contexts = [(0, Place.context)]) : Unlogged s 0 :=
  mkUnlogged (k := 0) (c := Place.context) (by simp [State.context?, h, Tbl.get?]) rfl rfl rfl

theorem unlogged : Unlogged T 0 := placed_unlogged rfl
theorem canTrap : CanTrap T g := ⟨by decide +kernel, by decide +kernel⟩

/-- An equation of an access check, in a form that can be decided. -/
theorem ok_of {e : Except Byte Nat} {k : Nat} (h : (match e with | .ok a => a == k | .error _ => false) = true) : e = .ok k := by
  cases e with
  | ok a => simp_all
  | error c => simp at h

theorem ok_all {p : Nat → Prop} {e : Nat → Except Byte Nat} {k : Nat}
    (h : ((List.range 32).all fun f => match e f with | .ok a => a == k | .error _ => false) = true) :
    ∀ f, f < 32 → p f → e f = .ok k :=
  fun f hf _ => ok_of (List.all_eq_true.1 h f (List.mem_range.2 hf))

theorem error_of {e : Except Byte Nat} {c : Byte} (h : (match e with | .ok _ => false | .error a => a == c) = true) :
    e = .error c := by
  cases e with
  | ok a => simp at h
  | error a => simp_all

/-! ## Witnesses: scalar instructions and control -/

theorem wit_scalarResult :
    scalar g (.sadd G 1 2 (.imm 3)) = some (G, 1, g.rdS 2 + 3, 0) ∧ Executes (.sadd G 1 2 (.imm 3)) G T u g :=
  ⟨rfl, executes _ rfl⟩

theorem wit_scalarDivision : Executes (.sdiv G true 1 2 (.imm 0)) G T u g ∧ Executes (.srem G false 1 2 (.imm 0)) G T u g ∧
    Executes (.scmp G .lt false 1 2 (.imm 3)) G T u g := ⟨executes _ rfl, executes _ rfl, executes _ rfl⟩

theorem wit_scalarFloatResult :
    scalarFloat g (.sfadd G .rne 1 2 3) = some (G, 1, (sRound .rne (sumVals .rne [sF32 g 2, sF32 g 3])).1,
      (sRound .rne (sumVals .rne [sF32 g 2, sF32 g 3])).2) ∧ Executes (.sfadd G .rne 1 2 3) G T u g := ⟨rfl, executes _ rfl⟩

theorem wit_scalarPredicates :
    predicate g (.scmp G .lt true 0 2 (.imm 3)) = some (G, 0, holds .lt true (g.rdS 2) ((SOp.imm 3).value g true), 0) ∧
      Executes (.scmp G .lt true 0 2 (.imm 3)) G T u g ∧ Executes (.smovSetp G 2) G T u g := ⟨rfl, executes _ rfl, executes _ rfl⟩

/-- A guard that no fibre satisfies: p0 of a group that has written none. -/
abbrev F : Guard := ⟨0, false⟩

theorem wit_noActiveFibre :
    guardOf (.vadd F false .i32 false 1 2 (.vec 3)) = some F ∧ Issues T u g ∧
      (Instr.vadd F false .i32 false 1 2 (.vec 3)).inBudget g.budget = true ∧ g.active u.mask F = 0 ∧
      needsPrivilege (.vadd F false .i32 false 1 2 (.vec 3)) = false := by
  refine ⟨rfl, ⟨rfl, ?_⟩, ?_, ?_, rfl⟩ <;> decide +kernel

/-- An instruction whose privilege check comes first, in the mode that may run it. -/
theorem wit_noActiveFibre_privileged :
    guardOf (.xret ⟨12, false⟩) = some ⟨12, false⟩ ∧ Issues T u g ∧ g.active u.mask ⟨12, false⟩ = 0 ∧
      needsPrivilege (.xret ⟨12, false⟩) = true ∧ privilegedAt g u.mask = true := by
  refine ⟨rfl, ⟨rfl, ?_⟩, ?_, rfl, ?_⟩ <;> decide +kernel

/-- The first register outside a budget of one. -/
def g1 : Group := { g with budget := 1 }
theorem wit_illegalOperand :
    guardOf (.vnot G false 0 1) = some G ∧ Issues (on g1 M) u g1 ∧ (Instr.vnot G false 0 1).inBudget g1.budget = false ∧
      CanTrap (on g1 M) g1 := by
  refine ⟨rfl, ⟨rfl, ?_⟩, ?_, ?_, ?_⟩ <;> decide +kernel

theorem wit_uniformTransfers : Executes (.br ⟨13, true⟩ .none 16) ⟨13, true⟩ T u g ∧ Executes (.call G 16) G T u g :=
  ⟨mkExecutes rfl (by decide +kernel) rfl (by decide +kernel), executes _ rfl⟩

/-- A register that holds 2: no target; the last multiple of 4: one. -/
def g2 : Group := (g.wrS 5 2).wrS 6 0xFFFFFFFFFFFFFFFC
theorem executes2 (i : Instr) (h : i.inBudget 1536 = true) : Executes i G (on g2 M) u g2 :=
  mkExecutes rfl (by decide +kernel) h (by decide +kernel)
theorem wit_registerTransfers :
    Executes (.jmpr G 6) G (on g2 M) u g2 ∧ Executes (.callr G 6) G (on g2 M) u g2 ∧ Executes (.ret G 6) G (on g2 M) u g2 ∧
      (g2.rdS 6).toNat % 4 = 0 := ⟨executes2 _ rfl, executes2 _ rfl, executes2 _ rfl, by decide +kernel⟩
theorem wit_registerTransfers_misaligned :
    Executes (.ret G 5) G (on g2 M) u g2 ∧ (g2.rdS 5).toNat % 4 ≠ 0 ∧ CanTrap (on g2 M) g2 :=
  ⟨executes2 _ rfl, by decide +kernel, by decide +kernel, by decide +kernel⟩

theorem wit_vectorBranch : Executes (.vbr G .none 16) G T u g := executes _ rfl

theorem wit_timingInstructions :
    Executes (.nop G) G T u g ∧ Executes (.fence G .acq .coh) G T u g ∧ Executes (.yield G) G T u g ∧
      (Executes (.sleep G (.imm 0)) G T u g ∧ (SOp.imm 0).value g true = 0) ∧
      (Executes (.sleep G (.imm 1)) G T u g ∧ (SOp.imm 1).value g true ≠ 0) :=
  ⟨executes _ rfl, executes _ rfl, executes _ rfl, ⟨executes _ rfl, by decide +kernel⟩, executes _ rfl, by decide +kernel⟩

/-- Two fibres at the MEET while the third is not, and all 32. -/
theorem wit_meet :
    Executes (.meet G) G (on g M u2) u2 g ∧
      (∃ f, f < 32 ∧ g.live.getLsbD f = true ∧ u2.mask.getLsbD f = false ∧ (g.fibre f).wait ≠ .meet) ∧
      Executes (.meet G) G T u g ∧ ∀ f, f < 32 → g.live.getLsbD f = true → u.mask.getLsbD f = true ∨ (g.fibre f).wait = .meet :=
  ⟨mkExecutes rfl (by decide +kernel) rfl (by decide +kernel), ⟨2, by decide +kernel⟩, executes _ rfl,
    by decide +kernel⟩

/-- What an end leaves alone: fibre 2 waits at no MEET and has not arrived at the barrier. -/
theorem stays : g.active u2.mask G &&& g.trapMask = 0 ∧
    (∃ f, f < 32 ∧ g.live.getLsbD f = true ∧ (g.active u2.mask G).getLsbD f = false ∧ (g.fibre f).wait ≠ .meet) ∧
    (on g M u2).cohort? g.cohort = some Place.cohortRec ∧ u2.gid ∈ Place.cohortRec.groups ∧ g.phase = .resident ∧
    (Place.cohortRec.arrived.read 0 g.index).getLsbD 2 = false :=
  ⟨by decide +kernel, ⟨2, by decide +kernel⟩, by decide +kernel, by decide +kernel, rfl, by decide +kernel⟩
theorem wit_fibreEnd :
    (Executes (.fend G) G (on g M u2) u2 g ∧ (g.live &&& ~~~(g.active u2.mask G)) &&& ~~~g.helpers ≠ 0) ∧
      Executes (.fend G) G T u g ∧ (g.live &&& ~~~(g.active u.mask G)) &&& ~~~g.helpers = 0 ∧ Unlogged T g.ctx ∧
      g.parkedFor .cbwait = 0 ∧ Place.cohortRec.ctx = g.ctx ∧ Place.cohortRec.saved = false ∧ State.saved g = false :=
  ⟨⟨mkExecutes rfl (by decide +kernel) rfl (by decide +kernel), by decide +kernel⟩, executes _ rfl, by decide +kernel, unlogged,
    by decide +kernel, rfl, rfl, rfl⟩

/-- Fibres 0 and 1 are helpers. -/
def gh : Group := g.onFibres 3 fun x => { x with kind := .helper }
theorem helperExecutes (i : Instr) (h : i.inBudget 1536 = true) : Executes i G (on gh M u2) u2 gh :=
  mkExecutes rfl (by decide +kernel) h (by decide +kernel)
theorem wit_groupExit :
    (Executes (.gexit G 5) G T u g ∧ g.helperOnly (g.active u.mask G) = false) ∧
      Executes (.gexit G 5) G (on gh M u2) u2 gh ∧ gh.helperOnly (gh.active u2.mask G) = true ∧ gh.live &&& ~~~gh.helpers ≠ 0 :=
  ⟨⟨executes _ rfl, by decide +kernel⟩, helperExecutes _ rfl, by decide +kernel, by decide +kernel⟩

/-! ## Witnesses: vector instructions -/

/-- A stroke of the two helpers executes each of the suppressed instructions. -/
theorem wit_helpersOnly :
    (∀ i : Instr, i.inBudget 1536 = true → Executes i G (on gh M u2) u2 gh) ∧ gh.helperOnly (gh.active u2.mask G) = true ∧
      ([.sst G .sp .b64 .plain 1 5 0, .satom G .add true .sh false .plain 5 6 8, .cpy G .sh .vm .coh 20 4 6 8 none none,
        .cpyt G false .sh .coh 1 2 3 4 none none, .cpym G .sp 21 4 6 8 12 0xF, .nwake G 10 4, .nsignal G 10 4 5, .nsignalKill G 10 4,
        .ndeposit G 10 4 5 2, .njoin G true 12 6 none, .rgcommit G .die .sp 21 8 23, .tdone G, .wdnext G 6, .evpost G 20 4 6 8 0x31,
        .cbinit G false 1 2 3 0, .cbexpect G none .coh false 1 2 0, .cbarrive G false .coh false 4 9 0x100, .tsend G 20 4 5 6 3,
        .trecv G 21 8 9 10 3, .mstacc G .f32 .rne false 10 1 5 4] : List Instr).all
          (fun i => suppressed i && i.inBudget 1536 && decide (guardOf i = some G)) = true ∧
      Executes (.tspawn G 5 12 none 0) G (on gh M u2) u2 gh :=
  ⟨fun i h => mkExecutes rfl (by simp [on, u2, State.group?, Tbl.get?]) h (by decide +kernel), by decide +kernel, by decide +kernel,
    mkExecutes rfl (by simp [on, u2, State.group?, Tbl.get?]) rfl (by decide +kernel)⟩

/-- The machine and the group once some registers have been read. -/
def read (s : State) (u : Issue) (ns : List Nat) : State := (s.fillAll u.gid ns).1
def readG (s : State) (u : Issue) (ns : List Nat) : Group := ((read s u ns).group? u.gid).getD g
theorem filled {s : State} {u : Issue} {ns : List Nat}
    (h : ((s.fillAll u.gid ns).2.isNone && ((s.fillAll u.gid ns).1.group? u.gid).isSome) = true) :
    Filled s u ns (read s u ns) (readG s u ns) := by
  simp only [Bool.and_eq_true, Option.isNone_iff_eq_none, Option.isSome_iff_exists] at h
  obtain ⟨h1, q, h2⟩ := h
  exact ⟨Prod.ext rfl h1, by rw [readG, read, h2]; rfl⟩

theorem notIndexed (vd va : VReg) (m : BitVec 32) : g.indexBad 0 vd va m = 0 := by
  simp [Group.indexBad]

theorem wit_vectorIntegers :
    (∃ o, vectorInt (.vadd G false .n32 true 3 2 (.vec 1)) = some o ∧ o.gd = G ∧ g.indexBad o.ix o.vd o.va (g.active u.mask o.gd) = 0) ∧
      Executes (.vadd G false .n32 true 3 2 (.vec 1)) G T u g ∧
      ∃ s1 g1, Filled T u (vectorReads (.vadd G false .n32 true 3 2 (.vec 1)) g 0 3 2 (g.active u.mask G)) s1 g1 :=
  ⟨⟨_, rfl, rfl, notIndexed _ _ _⟩, executes _ rfl, _, _, filled (by decide +kernel)⟩

/-- An indexed source within its bounds in every lane. -/
theorem wit_vectorIntegers_indexed :
    (∃ o, vectorInt (.vmov G false 1 0 3 2) = some o ∧ o.gd = G ∧ o.ix ≠ 0 ∧
      g.indexBad o.ix o.vd o.va (g.active u.mask o.gd) = 0) ∧ Executes (.vmov G false 1 0 3 2) G T u g ∧
      ∃ s1 g1, Filled T u (vectorReads (.vmov G false 1 0 3 2) g 1 3 2 (g.active u.mask G)) s1 g1 :=
  ⟨⟨_, rfl, rfl, by decide, by decide +kernel⟩, executes _ rfl, _, _, filled (by decide +kernel)⟩

theorem wit_vectorLaneExchange :
    (∃ o, vectorLanes (.vred G false .add .i32 3 2) = some o ∧ o.gd = G) ∧
      Executes (.vred G false .add .i32 3 2) G T u g ∧
      ∃ s1 g1, Filled T u (vectorReads (.vred G false .add .i32 3 2) g 0 3 2 (g.active u.mask G)) s1 g1 :=
  ⟨⟨_, rfl, rfl⟩, executes _ rfl, _, _, filled (by decide +kernel)⟩

theorem wit_vectorFloats :
    (∃ o, vectorFloat (.vfma G false 0 .f32 .rtz true 3 2 1 0) = some o ∧ o.gd = G ∧
      g.indexBad o.ix o.vd o.va (g.active u.mask o.gd) = 0) ∧ Executes (.vfma G false 0 .f32 .rtz true 3 2 1 0) G T u g ∧
      ∃ s1 g1, Filled T u (vectorReads (.vfma G false 0 .f32 .rtz true 3 2 1 0) g 0 3 2 (g.active u.mask G)) s1 g1 :=
  ⟨⟨_, rfl, rfl, notIndexed _ _ _⟩, executes _ rfl, _, _, filled (by decide +kernel)⟩

/-- The last register of the budget is the last of the range. -/
theorem wit_vectorRanges :
    (∃ o, vectorRange (.vunpack4 G false .e4m3 1532 1535) = some o ∧ o.gd = G) ∧
      Executes (.vunpack4 G false .e4m3 1532 1535) G T u g ∧
      ∃ s1 g1, Filled T u (rangeReads (.vunpack4 G false .e4m3 1532 1535) g 1532 4 (g.active u.mask G)) s1 g1 :=
  ⟨⟨_, rfl, rfl⟩, executes _ rfl, _, _, filled (by decide +kernel)⟩

/-- An index register below zero in the even lanes. -/
def gx : Group := g.wrX 0 (Lanes.build fun f => if f % 2 = 0 then 0xFFFF else 1)
theorem wit_indexedOperandFault :
    (∃ o, vectorInt (.vmov G false 1 0 3 0) = some o ∧ o.gd = G ∧ o.ix ≠ 0 ∧ ixSource o.ix = true ∧ o.va = 0) ∧
      Executes (.vmov G false 1 0 3 0) G (on gx M) u gx ∧ CanTrap (on gx M) gx ∧
      (maskOf fun f => (gx.active u.mask G).getLsbD f &&
        decide ((0 : Nat) + ((gx.rdX 0).lane f).toInt < ((gx.xbound 0).toNat % 2 ^ 11 : Nat) ∨
          (((gx.xbound 0).toNat / 2 ^ 16 % 2 ^ 11 : Nat) : Int) < (0 : Nat) + ((gx.rdX 0).lane f).toInt ∨
          (gx.budget : Int) ≤ (0 : Nat) + ((gx.rdX 0).lane f).toInt)) = 0x55555555 ∧
      ∃ s1 g1, Filled (on gx M) u (vectorReads (.vmov G false 1 0 3 0) gx 1 3 0 (gx.active u.mask G &&& ~~~0x55555555)) s1 g1 :=
  ⟨⟨_, rfl, rfl, by decide, by decide, rfl⟩, mkExecutes rfl (by decide +kernel) rfl (by decide +kernel),
    ⟨by decide +kernel, by decide +kernel⟩, by decide +kernel, _, _, filled (by decide +kernel)⟩

theorem wit_vectorPredicates :
    ∃ s1 g1, (∃ val, vectorPredicate g1 (.vcmp G false .ge .n32 11 2 (.vec 1)) = some (G, 11, val)) ∧
      Executes (.vcmp G false .ge .n32 11 2 (.vec 1)) G T u g ∧ Filled T u (plainReads (.vcmp G false .ge .n32 11 2 (.vec 1))) s1 g1 :=
  ⟨_, _, ⟨_, rfl⟩, executes _ rfl, filled (by decide +kernel)⟩

theorem wit_betweenFiles :
    Executes (.vtos G false .hi 1 2) G T u g ∧ Executes (.vballot G false 1 2) G T u g ∧
      Executes (.ptest G false .none 1 2) G T u g ∧ Executes (.vmovx G false 15 2) G T u g ∧ ∃ s1 g1, Filled T u [2] s1 g1 :=
  ⟨executes _ rfl, executes _ rfl, executes _ rfl, executes _ rfl, _, _, filled (by decide +kernel)⟩

/-- Six of sixteen fibres are active. -/
theorem wit_vectorBranch_splits :
    Executes (.vbr ⟨4, false⟩ .unlikely 16) ⟨4, false⟩ (on (g.wrP 4 0x3F) M { u with mask := 0xFFFF }) { u with mask := 0xFFFF } (g.wrP 4 0x3F) ∧
      (0xFFFF : BitVec 32) &&& ~~~((g.wrP 4 0x3F).active 0xFFFF ⟨4, false⟩) ≠ 0 :=
  ⟨mkExecutes rfl (by decide +kernel) rfl (by decide +kernel), by decide +kernel⟩
/-! ## Witnesses: memory. Shared memory and the window of die 0 hold 65,536 bytes each. -/

/-- Addresses: the last 8 bytes, and one past them; 9. -/
def ga : Group := ((g.wrS 5 65528).wrS 6 65529).wrS 7 9
theorem memExecutes (i : Instr) (h : i.inBudget 1536 = true) : Executes i G (on ga M) u ga :=
  mkExecutes rfl (by decide +kernel) h (by decide +kernel)
theorem memActs (i : Instr) (h : i.inBudget 1536 = true) : Acts i G (on ga M) u ga := ⟨memExecutes i h, by decide +kernel⟩

theorem wit_scalarLoad :
    Executes (.sld G .sh .b64 .plain 1 5 0) G (on ga M) u ga ∧
      (on ga M).checkAccess u.gid ga .sh (address ga 5 (0 : BitVec 24)) 8 false false = .ok (placeShared Place.cohort + 65528) :=
  ⟨memExecutes _ rfl, ok_of (by decide +kernel)⟩

theorem wit_scalarStore :
    Executes (.sst G .sp .b64 .plain 1 5 0) G (on ga M) u ga ∧ ga.helperOnly (ga.active u.mask G) = false ∧
      (on ga M).checkAccess u.gid ga .sp (address ga 5 (0 : BitVec 24)) 8 false true = .ok (placeWindow 0 0 0 + 65528) ∧
      Executes (.sst G .sp .b64 .plain 1 5 0) G (on gh M u2) u2 gh ∧ gh.helperOnly (gh.active u2.mask G) = true :=
  ⟨memExecutes _ rfl, by decide +kernel, ok_of (by decide +kernel), helperExecutes _ rfl, by decide +kernel⟩

/-- A read-only lock over the last sector of shared memory. -/
def lock0 : Lock :=
  { ctx := 0, core := 0, place := placeShared Place.cohort, first := 2047, last := 2047, kind := .readOnly, owner := .rlock Place.cohort 0 }
/-- Beyond each memory, misaligned within it, and a write over the lock. -/
theorem wit_accessFaults_scalar :
    (∃ x, scalarAccess (.satom G .add true .sh true .plain 1 6 0) = some x ∧
      accessFault (on ga M) u.gid ga x.ms (address ga x.base x.off) x.n x.aligned x.writes = some 0x23) ∧
      Executes (.satom G .add true .sh true .plain 1 6 0) G (on ga M) u ga ∧ CanTrap (on ga M) ga ∧
      ga.helperOnly (ga.active u.mask G) = false ∧
      (∃ x, scalarAccess (.cbwait G .coh false 7 2 0) = some x ∧
        accessFault (on ga M) u.gid ga x.ms (address ga x.base x.off) x.n x.aligned x.writes = some 0x22) ∧
      Executes (.cbwait G .coh false 7 2 0) G (on ga M) u ga ∧
      (∃ x, scalarAccess (.sst G .sh .b64 .plain 1 5 0) = some x ∧
        accessFault { on ga M with locks := [lock0] } u.gid ga x.ms (address ga x.base x.off) x.n x.aligned x.writes = some 0x20) ∧
      Executes (.sst G .sh .b64 .plain 1 5 0) G { on ga M with locks := [lock0] } u ga ∧
      (∃ x, scalarAccess (.sld G .sp .b64 .plain 1 6 0) = some x ∧
        accessFault (on ga M) u.gid ga x.ms (address ga x.base x.off) x.n x.aligned x.writes = some 0x21) ∧
      Executes (.sld G .sp .b64 .plain 1 6 0) G (on ga M) u ga :=
  ⟨⟨_, rfl, by decide +kernel⟩, memExecutes _ rfl, ⟨by decide +kernel, by decide +kernel⟩, by decide +kernel, ⟨_, rfl, by decide +kernel⟩,
    memExecutes _ rfl, ⟨_, rfl, by decide +kernel⟩, mkExecutes rfl (by decide +kernel) rfl (by decide +kernel),
    ⟨_, rfl, by decide +kernel⟩, memExecutes _ rfl⟩

/-- v1 holds 8 times the lane, but for the last lane, which is far beyond every memory; it is in no image. -/
def gv : Group := { ga.wrV 1 (Lanes.build fun f => if f = 31 then 0x20000 else BitVec.ofNat 32 (8 * f)) with map := [(1, ⟨0, false⟩)] }
theorem laneExecutes (i : Instr) (h : i.inBudget 1536 = true) : Executes i G (on gv M) u gv :=
  mkExecutes rfl (by decide +kernel) h (by decide +kernel)

theorem wit_accessFaults_lanes :
    (Executes (.vld G .sp .b64 .plain 8 2 (some 1) 0) G (on gv M) u gv ∧ (gv.active u.mask G).getLsbD 31 = true ∧
      Filled (on gv M) u (plainReads (.vld G .sp .b64 .plain 8 2 (some 1) 0)) (read (on gv M) u [1]) (readG (on gv M) u [1]) ∧
      accessFault (on gv M) u.gid gv .sp (laneAddr (readG (on gv M) u [1]) 2 (some 1) 0 31) 8 false false = some 0x21 ∧
      ∃ s2, (read (on gv M) u [1]).fillAll u.gid (rangeRegs ((8 : VReg).toNat, (8 + 3) / 4)) = (s2, none)) ∧
      Executes (.vst G .sp .b64 .plain 8 2 (some 1) 0) G (on gv M) u gv ∧ (storing gv u G).getLsbD 31 = true ∧
      Filled (on gv M) u (plainReads (.vst G .sp .b64 .plain 8 2 (some 1) 0)) (read (on gv M) u [8, 9, 1]) (readG (on gv M) u [8, 9, 1]) ∧
      accessFault (on gv M) u.gid gv .sp (laneAddr (readG (on gv M) u [8, 9, 1]) 2 (some 1) 0 31) 8 false true = some 0x21 :=
  ⟨⟨laneExecutes _ rfl, by decide +kernel, filled (by decide +kernel), by decide +kernel, _,
      (filled (s := read (on gv M) u [1]) (ns := [8, 9]) (by decide +kernel)).1⟩,
    laneExecutes _ rfl, by decide +kernel, filled (by decide +kernel), by decide +kernel⟩

/-- A register with a map slot; one whose line translates; a group whose image lies above every page. -/
def gNoImage : Group := { g with image := 0x8000000 }
theorem not_ok {w : Walk} (h : w = .invalid) : ∀ pa, w ≠ .ok pa := by intro pa hp; rw [h] at hp; cases hp
theorem wit_fills :
    ((on gv M).group? Machine.Place.gid = some gv ∧ gv.map.get? 1 = some ⟨0, false⟩ ∧ gv.map.get? 2 = none ∧
      (on gv M).walk gv.ctx (pkgOf gv.core) .imageRead (gv.image + 0x1000 + 128 * 2) = .ok 0x4101100 ∧
      (gv.image + 0x1000 + 128 * 2) % 65536 + 128 ≤ 65536) ∧
      ((on gNoImage M).group? Machine.Place.gid = some gNoImage ∧ gNoImage.map.get? 2 = none ∧
        (∀ pa, (on gNoImage M).walk gNoImage.ctx (pkgOf gNoImage.core) .imageRead (gNoImage.image + 0x1000 + 128 * 2) ≠ .ok pa) ∧
        (gNoImage.image + 0x1000 + 128 * 2) % 65536 + 128 ≤ 65536) ∧
      (((on gv M).fillAll Machine.Place.gid [1, 2]).2 = none ∧ (((on gv M).fillAll Machine.Place.gid [1, 2]).1.group? Machine.Place.gid).isSome = true) := by
  refine ⟨⟨?_, ?_, ?_, ?_, ?_⟩, ⟨?_, ?_, not_ok ?_, ?_⟩, ?_, ?_⟩ <;> decide +kernel
theorem wit_fillFault :
    (∃ o, vectorInt (.vadd G false .n32 true 3 2 (.vec 1)) = some o ∧ o.gd = G ∧ o.ix = 0) ∧
      Executes (.vadd G false .n32 true 3 2 (.vec 1)) G (on gNoImage M) u gNoImage ∧
      ((on gNoImage M).fillAll u.gid (vectorReads (.vadd G false .n32 true 3 2 (.vec 1)) gNoImage 0 3 2 (gNoImage.active u.mask G))).2 =
        some (0x8000000 + 0x1000 + 128 * 2) :=
  ⟨⟨_, rfl, rfl, rfl⟩, mkExecutes rfl (by decide +kernel) rfl (by decide +kernel), by decide +kernel⟩
/-- All lanes but the last act, and that one raises SMEM_BOUNDS. -/
theorem wit_vectorLoads :
    Executes (.vld G .sh .b64 .plain 8 2 (some 1) 0) G (on gv M) u gv ∧ Executes (.vldc G false .sh .b64 8 2 (some 1) 0) G (on gv M) u gv ∧
      Filled (on gv M) u (plainReads (.vld G .sh .b64 .plain 8 2 (some 1) 0)) (read (on gv M) u [1]) (readG (on gv M) u [1]) ∧
      passing (gv.active u.mask G) (fun f =>
        accessFault (on gv M) u.gid gv .sh (laneAddr (readG (on gv M) u [1]) 2 (some 1) 0 f) 8 false false) = 0x7FFFFFFF ∧
      failing (gv.active u.mask G) (fun f =>
        accessFault (on gv M) u.gid gv .sh (laneAddr (readG (on gv M) u [1]) 2 (some 1) 0 f) 8 false false) = 0x80000000 ∧
      gv.partial? 0x7FFFFFFF = true ∧ Filled (read (on gv M) u [1]) u (rangeRegs ((8 : VReg).toNat, Size.b64.words))
        (read (read (on gv M) u [1]) u [8, 9]) (readG (read (on gv M) u [1]) u [8, 9]) ∧
      (∀ f, f < 32 → accessFault (on gv M) u.gid gv .sh (laneAddr (readG (on gv M) u [1]) 2 (some 1) 0 f) 8 false false ≠ some 0x21) ∧
      CanTrap (on gv M) gv :=
  ⟨laneExecutes _ rfl, laneExecutes _ rfl, filled (by decide +kernel), by decide +kernel, by decide +kernel, by decide +kernel,
    filled (by decide +kernel), by decide +kernel, by decide +kernel, by decide +kernel⟩

/-- All lanes store to one place, where the highest wins; and all but the last to places of their own, while it fails. -/
theorem wit_vectorStore :
    (Executes (.vst G .sp .b64 .plain 8 5 none 0) G (on ga M) u ga ∧ (storing ga u G).getLsbD 31 = true ∧
      Filled (on ga M) u (plainReads (.vst G .sp .b64 .plain 8 5 none 0)) (read (on ga M) u [8, 9]) (readG (on ga M) u [8, 9]) ∧
      ∀ f, f < 32 → accessFault (on ga M) u.gid ga .sp (laneAddr (readG (on ga M) u [8, 9]) 5 none 0 f) 8 false true = none) ∧
      Executes (.vst G .sh .b64 .plain 8 2 (some 1) 0) G (on gv M) u gv ∧
      Filled (on gv M) u (plainReads (.vst G .sh .b64 .plain 8 2 (some 1) 0)) (read (on gv M) u [8, 9, 1]) (readG (on gv M) u [8, 9, 1]) ∧
      failing (storing gv u G) (fun f =>
        accessFault (on gv M) u.gid gv .sh (laneAddr (readG (on gv M) u [8, 9, 1]) 2 (some 1) 0 f) 8 false true) = 0x80000000 ∧
      (∀ f, f < 32 → accessFault (on gv M) u.gid gv .sh (laneAddr (readG (on gv M) u [8, 9, 1]) 2 (some 1) 0 f) 8 false true ≠ some 0x21) ∧
      CanTrap (on gv M) gv :=
  ⟨⟨memExecutes _ rfl, by decide +kernel, filled (by decide +kernel), by decide +kernel⟩, laneExecutes _ rfl, filled (by decide +kernel),
    by decide +kernel, by decide +kernel, by decide +kernel, by decide +kernel⟩

theorem wit_scalarAtomic :
    Acts (.satom G .cas true .sp true .plain 1 5 0) G (on ga M) u ga ∧ Unlogged (on ga M) ga.ctx ∧
      (on ga M).checkAccess u.gid ga .sp (address ga 5 (0 : BitVec 20)) 8 true true = .ok (placeWindow 0 0 0 + 65528) :=
  ⟨memActs _ rfl, placed_unlogged rfl, ok_of (by decide +kernel)⟩

/-- Each lane but the last on a double word of its own; the last one fails. -/
theorem wit_vectorAtomic :
    Executes (.vatom G .umax true .sh true .plain 8 2 (some 1) 0) G (on gv M) u gv ∧ Unlogged (on gv M) gv.ctx ∧
      Filled (on gv M) u (plainReads (.vatom G .umax true .sh true .plain 8 2 (some 1) 0)) (read (on gv M) u [8, 9, 1])
        (readG (on gv M) u [8, 9, 1]) ∧
      passing (storing gv u G) (fun f =>
        accessFault (on gv M) u.gid gv .sh (laneAddr (readG (on gv M) u [8, 9, 1]) 2 (some 1) 0 f) 8 true true) = 0x7FFFFFFF ∧
      (∀ f, f < 32 → accessFault (on gv M) u.gid gv .sh (laneAddr (readG (on gv M) u [8, 9, 1]) 2 (some 1) 0 f) 8 true true ≠ some 0x21) ∧
      CanTrap (on gv M) gv ∧
      ∀ f, f < 31 → keyAt (on gv M) u.gid gv .sh (laneAddr (readG (on gv M) u [8, 9, 1]) 2 (some 1) 0 f) 8 =
        placeShared Place.cohort + 8 * f :=
  ⟨laneExecutes _ rfl, placed_unlogged rfl, filled (by decide +kernel), by decide +kernel, by decide +kernel,
    ⟨by decide +kernel, by decide +kernel⟩, by decide +kernel⟩

/-- All lanes on one word. -/
theorem wit_vectorAtomic_meets :
    Executes (.vatom G .add true .sh false .plain 8 2 none 0) G (on gv M) u gv ∧
      Filled (on gv M) u (plainReads (.vatom G .add true .sh false .plain 8 2 none 0)) (read (on gv M) u [8]) (readG (on gv M) u [8]) ∧
      passing (storing gv u G) (fun f => accessFault (on gv M) u.gid gv .sh (laneAddr (readG (on gv M) u [8]) 2 none 0 f) 4 true true) =
        0xFFFFFFFF ∧
      ∀ f, f < 32 → keyAt (on gv M) u.gid gv .sh (laneAddr (readG (on gv M) u [8]) 2 none 0 f) 4 = placeShared Place.cohort := by
  refine ⟨laneExecutes _ rfl, filled ?_, ?_, ?_⟩ <;> decide +kernel

/-- A stack that one more push fills: 65,536 bytes. -/
def gs (n : Word64) : Group := { g with sys := { g.sys with stkp := n } }
theorem stackExecutes (n : Word64) (i : Instr) (h : i.inBudget 1536 = true) : Executes i G (on (gs n) M) u (gs n) :=
  mkExecutes rfl (by simp [on, u, State.group?, Tbl.get?]) h (by
    have h : ((gs n).active u.mask G != 0) = (g.active u.mask G != 0) := rfl
    rw [h]; decide +kernel)
theorem stackFilled (n : Word64) (v : Issue) (ns : List Nat)
    (h : (((on (gs n) M v).fillAll v.gid ns).2.isNone && (((on (gs n) M v).fillAll v.gid ns).1.group? v.gid).isSome) = true) :
    ∃ s1 g1, Filled (on (gs n) M v) v ns s1 g1 := ⟨_, _, filled h⟩
theorem wit_spillStack :
    (Executes (.spushv G 4 2) G (on (gs 65280) M) u (gs 65280) ∧
      (gs 65280).sys.stkp.toNat % 2 ^ 32 + 128 * (2 : BitVec 24).toNat ≤ (gs 65280).stack ∧ Unlogged (on (gs 65280) M) (gs 65280).ctx ∧
      ∃ s1 g1, Filled (on (gs 65280) M) u (rangeRegs ((4 : VReg).toNat, (2 : BitVec 24).toNat)) s1 g1) ∧
      (Executes (.spopv G 4 2) G (on (gs 256) M) u (gs 256) ∧ 128 * (2 : BitVec 24).toNat ≤ (gs 256).sys.stkp.toNat % 2 ^ 32 ∧
        (gs 256).sys.stkp.toNat % 2 ^ 32 ≤ (gs 256).stack ∧ (gs 256).partial? ((gs 256).active u.mask G) = false ∧
        ∃ s1 g1, Filled (on (gs 256) M) u [] s1 g1) ∧
      ((gs 256).partial? ((gs 256).active u2.mask G) = true ∧
        ∃ s1 g1, Filled (on (gs 256) M u2) u2 (rangeRegs ((4 : VReg).toNat, (2 : BitVec 24).toNat)) s1 g1) ∧
      (Executes (.spushv G 4 2) G (on (gs 65281) M) u (gs 65281) ∧
        (gs 65281).stack < (gs 65281).sys.stkp.toNat % 2 ^ 32 + 128 * (2 : BitVec 24).toNat ∧ CanTrap (on (gs 65281) M) (gs 65281)) ∧
      Executes (.spopv G 4 2) G (on (gs 255) M) u (gs 255) ∧ (gs 255).sys.stkp.toNat % 2 ^ 32 < 128 * (2 : BitVec 24).toNat ∧
        CanTrap (on (gs 255) M) (gs 255) :=
  ⟨⟨stackExecutes _ _ rfl, by decide +kernel, placed_unlogged rfl, stackFilled _ _ _ (by decide +kernel)⟩,
    ⟨stackExecutes _ _ rfl, by decide +kernel, by decide +kernel, by decide +kernel, stackFilled _ _ _ (by decide +kernel)⟩,
    ⟨by decide +kernel, stackFilled _ _ _ (by decide +kernel)⟩,
    ⟨stackExecutes _ _ rfl, by decide +kernel, by decide +kernel, by decide +kernel⟩, stackExecutes _ _ rfl, by decide +kernel,
    by decide +kernel, by decide +kernel⟩

/-! ## Witnesses: synchronisation -/

/-- The word at address 0 of shared memory is 0, and so is the comparison value in s2: it parks; with s8 = 1 it does not. -/
def gw : Group := g.wrS 8 1
theorem wit_waitWord :
    Executes (.waitw G none .sh false 1 9 8 4 0 0) G (on gw M) u gw ∧
      (on gw M).checkAccess u.gid gw .sh (address gw 1 (0 : Word32)) 4 true false = .ok (placeShared Place.cohort) ∧
      (on gw M).readNat (placeShared Place.cohort) 4 ≠ (gw.rdS 8).toNat % 2 ^ 32 ∧
      Executes (.waitw G none .sh false 1 9 2 4 0 0) G (on gw M) u gw ∧
      (on gw M).readNat (placeShared Place.cohort) 4 = (gw.rdS 2).toNat % 2 ^ 32 :=
  ⟨mkExecutes rfl (by decide +kernel) rfl (by decide +kernel), ok_of (by decide +kernel), by decide +kernel,
    mkExecutes rfl (by decide +kernel) rfl (by decide +kernel), by decide +kernel⟩

/-- Two fibres arrive while 30 have not; all 32 arrive. -/
theorem mkNotArrived {s : State} {c : Cohort} {a : Tbl (BitVec 32)} {n : Nat} {q : Group} (hn : n ∈ c.groups)
    (hq : s.group? n = some q) (h : (q.phase != .dead && q.phase != .ending && ((List.range 32).any fun f =>
      q.live.getLsbD f && !(a.read 0 q.index).getLsbD f)) = true) : ¬ AllArrived s c a := by
  intro hA
  simp only [Bool.and_eq_true, List.any_eq_true, List.mem_range, bne_iff_ne, ne_eq, Bool.not_eq_true'] at h
  obtain ⟨⟨h1, h2⟩, f, hf, hl, ha⟩ := h
  have := hA.1 n q hn hq h1 h2 f hf hl
  rw [ha] at this
  exact absurd this (by decide)

theorem mkArrived {s : State} {c : Cohort} {a : Tbl (BitVec 32)} {n : Nat} {q : Group} (hn : c.groups = [n])
    (hq : s.group? n = some q) (hp : q.phase ≠ .dead) (he : q.phase ≠ .ending) (hl : q.live ≠ 0)
    (ha : ∀ f, f < 32 → q.live.getLsbD f = true → (a.read 0 q.index).getLsbD f = true) : AllArrived s c a := by
  refine ⟨fun m r hm hr _ _ => ?_, n, q, by simp [hn], hq, hp, he, hl⟩
  rw [hn, List.mem_singleton] at hm
  subst hm
  rw [hq] at hr
  cases hr
  exact ha

theorem wit_cohortBarrier :
    T.cohort? g.cohort = some Place.cohortRec ∧
      (Executes (.bar G) G (on g M u2) u2 g ∧ (on g M u2).cohort? g.cohort = some Place.cohortRec ∧
        ¬ AllArrived (on g M u2) Place.cohortRec (arrivedWith Place.cohortRec g u2.mask)) ∧
      (Executes (.bara G) G T u g ∧ AllArrived T Place.cohortRec (arrivedWith Place.cohortRec g u.mask) ∧
        u.gid ∈ Place.cohortRec.groups ∧ g.phase = .resident) ∧
      Executes (.barw G) G T u g ∧ Place.cohortRec.owed.getLsbD g.index = false ∧
      ({ Place.cohortRec with owed := 1 } : Cohort).owed.getLsbD g.index = true :=
  ⟨by decide +kernel,
    ⟨mkExecutes rfl (by decide +kernel) rfl (by decide +kernel), by decide +kernel,
      mkNotArrived (n := Place.gid) (q := g) (by decide +kernel) (by decide +kernel) (by decide +kernel)⟩,
    ⟨executes _ rfl, mkArrived (n := Place.gid) (q := g) rfl (by decide +kernel) (by decide +kernel) (by decide +kernel)
      (by decide +kernel) (by decide +kernel), by decide +kernel, by decide +kernel⟩,
    executes _ rfl, by decide +kernel, by decide +kernel⟩

/-- A count barrier at address 0 of shared memory: epoch, quotas, counts and balance. -/
def cb (epoch arr arrLeft ack ackLeft bal : Nat) : Nat :=
  0x5CB1 + epoch * 2 ^ 80 + arr * 2 ^ 96 + arrLeft * 2 ^ 112 + ack * 2 ^ 128 + ackLeft * 2 ^ 144 + bal * 2 ^ 160
def C (o : Nat) : State := on g (M.writeNat (placeShared Place.cohort) 32 o)
theorem cbActs (o : Nat) (i : Instr) (h : i.inBudget 1536 = true) : Acts i G (C o) u g := by
  refine ⟨mkExecutes rfl ?_ h (by decide +kernel), by decide +kernel⟩
  simp [C, on, u, State.group?, Tbl.get?]
theorem C_unlogged (o : Nat) : Unlogged (C o) g.ctx := by
  refine placed_unlogged ?_
  have h : ∀ (s : State) (a : Nat) (bs : List Byte), (s.writeBytes a bs).contexts = s.contexts := by
    intro s a bs; rw [writeBytes_eq]
  exact (h M _ _).trans rfl

theorem wit_countBarrierInit :
    Acts (.cbinit G false 1 2 3 0) G (C 0) u g ∧ Unlogged (C 0) g.ctx ∧
      (C 0).checkAccess u.gid g .sh (address g 1 (0 : Word32)) 32 true true = .ok (placeShared Place.cohort) ∧
      (C 0).readNat (placeShared Place.cohort) 2 ≠ 0x5CB1 :=
  ⟨cbActs _ _ rfl, C_unlogged _, ok_of (by decide +kernel), by decide +kernel⟩

/-- A barrier that waits for two arrivals and two acknowledgements; one that is owed no arrival any more. -/
def O2 : Nat := cb 7 2 2 2 2 0
def O0 : Nat := cb 7 2 0 2 1 0
theorem wit_countBarrierUpdate :
    (Unlogged (C O2) g.ctx ∧
      (C O2).checkAccess u.gid g .sh (address g 1 (0 : Word32)) 32 true true = .ok (placeShared Place.cohort) ∧
      (barrier ((C O2).readNat (placeShared Place.cohort) 32)).magic = 0x5CB1 ∧ Acts (.cbarrive G true .coh false 1 4 0) G (C O2) u g ∧
      Acts (.cbarrive G false .coh false 1 4 0) G (C O2) u g ∧ Acts (.cbexpect G none .coh false 1 2 0) G (C O2) u g ∧
      Acts (.cbexpect G (some 9) .coh false 1 2 0) G (C O2) u g ∧ ¬ (barrier ((C O2).readNat (placeShared Place.cohort) 32)).arrived.settles ∧
      ¬ (barrier ((C O2).readNat (placeShared Place.cohort) 32)).acked.settles ∧
      ¬ ((barrier ((C O2).readNat (placeShared Place.cohort) 32)).expected 0).settles ∧
      ¬ ((barrier ((C O2).readNat (placeShared Place.cohort) 32)).expected 0).arrived.settles) ∧
      Acts (.cbarrive G false .coh false 1 4 0) G (C O0) u g ∧ (barrier ((C O0).readNat (placeShared Place.cohort) 32)).arrLeft = 0 ∧
      ¬ (barrier ((C O0).readNat (placeShared Place.cohort) 32)).arrived.settles := by
  refine ⟨⟨C_unlogged _, ok_of ?_, ?_, cbActs _ _ rfl, cbActs _ _ rfl, cbActs _ _ rfl, cbActs _ _ rfl, ?_, ?_, ?_, ?_⟩, cbActs _ _ rfl,
    ?_, ?_⟩ <;> decide +kernel
/-! R194: an arrival at zero and a balance beyond its range set FAULT. -/
theorem test_barrier_limits :
    (barrier O0).arrived = { barrier O0 with fault := true } ∧
      (barrier (cb 7 2 2 2 2 0x7FFFFFFF)).expected 1 = { barrier (cb 7 2 2 2 2 0x7FFFFFFF) with isOpen := true, fault := true } ∧
      (barrier (cb 7 2 2 2 2 0x80000000)).delivered 1 = { barrier (cb 7 2 2 2 2 0x80000000) with fault := true } := by decide +kernel

/-- Zeros, and a barrier that has a waiter. -/
theorem wit_countBarrierFaults :
    (CanTrap (C 0) g ∧ (C 0).resolve u.gid g .sh (address g 1 (0 : Word32)) 32 = .ok (placeShared Place.cohort) ∧
      address g 1 (0 : Word32) % 32 = 0 ∧ (C 0).locks = [] ∧ Cb.magic ((C 0).readCb (placeShared Place.cohort)) ≠ 0x5CB1) ∧
      Acts (.cbarrive G true .coh false 1 4 0) G (C 0) u g ∧ Executes (.cbtest G .coh false 1 5 1 2 0) G (C 0) u g ∧
      Acts (.cbinit G false 1 2 3 0) G (C (O2 + 2 ^ 240)) u g ∧ CanTrap (C (O2 + 2 ^ 240)) g ∧
      (C (O2 + 2 ^ 240)).resolve u.gid g .sh (address g 1 (0 : Word32)) 32 = .ok (placeShared Place.cohort) ∧
      Cb.magic ((C (O2 + 2 ^ 240)).readCb (placeShared Place.cohort)) = 0x5CB1 ∧
      Cb.waiters ((C (O2 + 2 ^ 240)).readCb (placeShared Place.cohort)) ≠ 0 :=
  ⟨⟨⟨by decide +kernel, by decide +kernel⟩, ok_of (by decide +kernel), by decide +kernel, by decide +kernel, by decide +kernel⟩,
    cbActs _ _ rfl, (cbActs _ _ rfl).1, cbActs _ _ rfl, ⟨by decide +kernel, by decide +kernel⟩, ok_of (by decide +kernel),
    by decide +kernel, by decide +kernel⟩

/-- The last arrival, in the last epoch before it wraps; the last acknowledgement. -/
def O1 : Nat := cb 0xFFFF 3 1 2 0 0
def OA : Nat := cb 5 3 0 2 1 0
/-- A barrier with no quotas, 5 bytes of which came early: an expectation settles it. -/
def OE : Nat := cb 5 0 0 0 0 0xFFFFFFFB
theorem wit_countBarrierSettles :
    (Acts (.cbarrive G false .coh false 1 4 0) G (C O1) u g ∧ Unlogged (C O1) g.ctx ∧
      (C O1).checkAccess u.gid g .sh (address g 1 (0 : Word32)) 32 true true = .ok (placeShared Place.cohort) ∧
      (barrier ((C O1).readNat (placeShared Place.cohort) 32)).magic = 0x5CB1 ∧
      (barrier ((C O1).readNat (placeShared Place.cohort) 32)).arrived.settles) ∧
      (Acts (.cbarrive G true .coh false 1 4 0) G (C OA) u g ∧ Unlogged (C OA) g.ctx ∧
        (barrier ((C OA).readNat (placeShared Place.cohort) 32)).acked.settles) ∧
      (Acts (.cbexpect G (some 4) .coh false 1 2 0) G (C O1) u g ∧
        ((barrier ((C O1).readNat (placeShared Place.cohort) 32)).expected ((g.rdS 2).toNat % 2 ^ 32)).arrived.settles) ∧
      Acts (.cbexpect G none .coh false 1 2 0) G (C OE) u g ∧
      ((barrier ((C OE).readNat (placeShared Place.cohort) 32)).expected ((g.rdS 2).toNat % 2 ^ 32)).settles := by
  refine ⟨⟨cbActs _ _ rfl, C_unlogged _, ok_of ?_, ?_, ?_⟩, ⟨cbActs _ _ rfl, C_unlogged _, ?_⟩, ⟨cbActs _ _ rfl, ?_⟩, cbActs _ _ rfl, ?_⟩ <;>
    decide +kernel

/-- Beside the arriving group, one of the cohort whose stroke waits at the barrier with token 0xFFFF, the epoch that ends. -/
def gCb : Group := { (g.onFibres 0xFFFFFFFF fun x => { x with wait := .cbwait, instr := some (.cbwait G .coh false 1 9 0) }).wrS 9 0xFFFF with index := 1 }
def CW : State := { C O1 with groups := [(Machine.Place.gid, g), (State.gidOf Machine.Place.cohort 1, gCb)] }
theorem wit_countBarrierSettles_waiters :
    Acts (.cbarrive G false .coh false 1 4 0) G CW u g ∧ Unlogged CW g.ctx ∧
      CW.checkAccess u.gid g .sh (address g 1 (0 : Word32)) 32 true true = .ok (placeShared Machine.Place.cohort) ∧
      (barrier (CW.readNat (placeShared Machine.Place.cohort) 32)).arrived.settles ∧
      gCb.waiting .cbwait = [0xFFFFFFFF] ∧ Claim.waitsOn CW (placeShared Machine.Place.cohort) gCb 0xFFFFFFFF = some 9 ∧
      State.saved gCb = false := by
  refine ⟨⟨mkExecutes rfl ?_ rfl ?_, ?_⟩, mkUnlogged (c := Place.context) (k := 0) ?_ rfl rfl rfl, ok_of ?_, ?_, ?_, ?_, ?_⟩
  · simp [CW, C, on, u, State.group?, Tbl.get?]
  all_goals decide +kernel
/-- Tokens 0 (in s1) at epoch 1, which has passed it, and at epoch 0, which has not. -/
theorem wit_countBarrierWait :
    (Executes (.cbwait G .coh false 1 2 0) G (C (cb 1 1 1 0 0 0)) u g ∧
      (C (cb 1 1 1 0 0 0)).checkAccess u.gid g .sh (address g 1 (0 : Word32)) 32 true true = .ok (placeShared Place.cohort) ∧
      Cb.magic ((C (cb 1 1 1 0 0 0)).readCb (placeShared Place.cohort)) = 0x5CB1 ∧
      Cb.passed ((C (cb 1 1 1 0 0 0)).readCb (placeShared Place.cohort)) (g.rdS 2).toNat = true) ∧
      (Executes (.cbwait G .coh false 1 2 0) G (C (cb 0 1 1 0 0 0)) u g ∧
        Cb.passed ((C (cb 0 1 1 0 0 0)).readCb (placeShared Place.cohort)) (g.rdS 2).toNat = false ∧
        Unlogged (C (cb 0 1 1 0 0 0)) g.ctx) ∧
      Executes (.cbtest G .coh false 1 5 1 2 0) G (C (cb 0 1 1 0 0 0)) u g ∧
      (C (cb 0 1 1 0 0 0)).checkAccess u.gid g .sh (address g 1 (0 : Word32)) 32 true false = .ok (placeShared Place.cohort) :=
  ⟨⟨(cbActs _ _ rfl).1, ok_of (by decide +kernel), by decide +kernel, by decide +kernel⟩,
    ⟨(cbActs _ _ rfl).1, by decide +kernel, C_unlogged _⟩, (cbActs _ _ rfl).1, ok_of (by decide +kernel)⟩

/-- Lengths 32 (s5), 0 (s1) and 2^32 + 1 (s6). -/
def gl : Group := (g.wrS 5 32).wrS 6 0x100000001
theorem lockExecutes (i : Instr) (h : i.inBudget 1536 = true) : Executes i G (on gl M) u gl :=
  mkExecutes rfl (by decide +kernel) h (by decide +kernel)
def locked (ls : List Lock) : State := { on gl M with locks := ls }
theorem lockedExecutes (ls : List Lock) (i : Instr) (h : i.inBudget 1536 = true) : Executes i G (locked ls) u gl :=
  mkExecutes rfl (by simp [locked, on, u, State.group?, Tbl.get?]) h (by decide +kernel)
/-- A write lock in the way; a cohort with 32 handles; one whose handle 0 is held. -/
def wlock : Lock := { lock0 with first := 0, last := 0, kind := .write, owner := .op 0 }
def locks32 : List Lock := (List.range 32).map fun h => { lock0 with owner := .rlock Place.cohort h }
theorem wit_readOnlyLocks :
    (0 < (gl.rdS 5).toNat ∧ (gl.rdS 5).toNat ≤ 2 ^ 32 ∧
      (locked [wlock]).resolve u.gid gl .sh (address gl 1 (0 : Word32)) (gl.rdS 5).toNat = .ok (placeShared Place.cohort) ∧
      wlock.covers (placeShared Place.cohort) (gl.rdS 5).toNat = true ∧ Executes (.rlock G .sh 1 5 9 0) G (locked [wlock]) u gl) ∧
      ((locked locks32).resolve u.gid gl .sh (address gl 1 (0 : Word32)) (gl.rdS 5).toNat = .ok (placeShared Place.cohort) ∧
        locks32.all (fun l => l.kind != .write) = true ∧ 32 ≤ (locks32.filter fun l =>
          l.core == (locked locks32).tableCore gl .sh (address gl 1 (0 : Word32)) && l.kind == .readOnly).length ∧
        Executes (.rlock G .sh 1 5 9 0) G (locked locks32) u gl) ∧
      ((locked [lock0]).resolve u.gid gl .sh (address gl 1 (0 : Word32)) (gl.rdS 5).toNat = .ok (placeShared Place.cohort) ∧
        (locked [lock0]).locks.length < 32 ∧ Executes (.rlock G .sh 1 5 9 0) G (locked [lock0]) u gl) ∧
      (Executes (.rlock G .sh 1 1 9 0) G (on gl M) u gl ∧ (gl.rdS 1).toNat = 0) ∧
      (Executes (.rlock G .sh 1 6 9 0) G (on gl M) u gl ∧ 2 ^ 32 < (gl.rdS 6).toNat) ∧
      Executes (.runlock G 9) G (locked [lock0]) u gl ∧ lock0.owner = .rlock gl.cohort (gl.rdS 9).toNat ∧
      Executes (.runlock G 9) G (locked []) u gl :=
  ⟨⟨by decide +kernel, by decide +kernel, ok_of (by decide +kernel), by decide +kernel, lockedExecutes _ _ rfl⟩,
    ⟨ok_of (by decide +kernel), by decide +kernel, by decide +kernel, lockedExecutes _ _ rfl⟩,
    ⟨ok_of (by decide +kernel), by decide +kernel, lockedExecutes _ _ rfl⟩, ⟨lockExecutes _ rfl, by decide +kernel⟩,
    ⟨lockExecutes _ rfl, by decide +kernel⟩, lockedExecutes _ _ rfl, by decide +kernel, lockedExecutes _ _ rfl⟩

/-- Two cohorts of a cluster: a .cl range from the first byte of member 0 to byte 15 of member 1; one that ends past member 0's
memory; a cohort whose table has no room for it. -/
def coh1 : Nat := State.cohortKey Machine.Place.launchKey 1
def gk : Group := (g.wrS 5 (2 ^ 19 + 16)).wrS 6 65537
def members (ls : List Lock) : State :=
  { on gk M with
    cohorts := [(Machine.Place.cohort, Machine.Place.cohortRec),
      (coh1, { Machine.Place.cohortRec with num := 1, member := 1, core := some 1, groups := [] })]
    clusters := [(Machine.Place.cohort, { Machine.Place.cluster with cohorts := [Machine.Place.cohort, coh1] })]
    locks := ls }
theorem wit_readOnlyLocks_members :
    Executes (.rlock G .cl 1 5 9 0) G (members []) u gk ∧ (gk.rdS 5).toNat ≤ 2 ^ 32 ∧
      (members []).resolve u.gid gk .cl (address gk 1 (0 : Word32)) 1 = .ok (placeShared Machine.Place.cohort) ∧
      (members []).resolve u.gid gk .cl (address gk 1 (0 : Word32) + (gk.rdS 5).toNat - 1) 1 = .ok (placeShared coh1 + 15) ∧
      (members []).rlockParts gk .cl (placeShared Machine.Place.cohort) (address gk 1 (0 : Word32)) (gk.rdS 5).toNat =
        [(placeShared Machine.Place.cohort, 65536, 0), (placeShared coh1, 16, 1)] ∧
      (members []).rlockFull gk.cohort [(placeShared Machine.Place.cohort, 65536, 0), (placeShared coh1, 16, 1)] = false ∧
      (members locks32).rlockFull gk.cohort [(placeShared Machine.Place.cohort, 65536, 0), (placeShared coh1, 16, 1)] = true ∧
      wlock.covers (placeShared Machine.Place.cohort) 65536 = true :=
  ⟨mkExecutes rfl (by decide +kernel) rfl (by decide +kernel), by decide +kernel, ok_of (by decide +kernel), ok_of (by decide +kernel),
    by decide +kernel, by decide +kernel, by decide +kernel, by decide +kernel⟩
theorem wit_readOnlyLocks_bounds :
    Executes (.rlock G .sh 1 6 9 0) G (members []) u gk ∧ CanTrap (members []) gk ∧ (gk.rdS 6).toNat ≤ 2 ^ 32 ∧
      (members []).resolve u.gid gk .sh (address gk 1 (0 : Word32)) 1 = .ok (placeShared Machine.Place.cohort) ∧
      (members []).resolve u.gid gk .sh (address gk 1 (0 : Word32) + (gk.rdS 6).toNat - 1) 1 = .error 0x23 ∧
      Executes (.rlock G .sp 1 6 9 0) G (members []) u gk ∧
      (members []).resolve u.gid gk .sp (address gk 1 (0 : Word32) + (gk.rdS 6).toNat - 1) 1 = .error 0x21 :=
  ⟨mkExecutes rfl (by decide +kernel) rfl (by decide +kernel), ⟨by decide +kernel, by decide +kernel⟩, by decide +kernel,
    ok_of (by decide +kernel), error_of (by decide +kernel), mkExecutes rfl (by decide +kernel) rfl (by decide +kernel),
    error_of (by decide +kernel)⟩
/-! ## Witnesses: engines -/

/-- s5 = 32 bytes; an empty table holds every address within its memory. -/
theorem mkInBounds {s : State} {gid : Nat} {g : Group} {rs : List (Space × Nat × Nat)}
    (h : (rs.all fun r => match s.resolve gid g r.1 r.2.1 r.2.2 with | .ok _ => true | .error _ => false) = true) :
    InBounds s gid g rs := by
  intro r hr
  have := List.all_eq_true.1 h r hr
  split at this
  · exact ⟨_, by assumption⟩
  · simp at this

theorem mkUnlocked {s : State} {gid : Nat} {g : Group} {rs : List (Space × Nat × Nat)} (h : s.locks = [])
    (hr : rs.length ≤ 64) : Unlocked s gid g rs :=
  ⟨fun _ _ _ _ l hl => by simp [h] at hl, fun c => by simp [State.tableUse, h]; exact hr⟩

theorem lockActs (i : Instr) (h : i.inBudget 1536 = true) : Acts i G (on gl M) u gl := ⟨lockExecutes i h, by decide +kernel⟩

/-- 32 bytes from address 0 of the window to address 0 of shared memory, with a barrier and a flag. -/
theorem wit_linearCopies :
    Acts (.cpy G .sh .sp .coh 20 1 1 5 (some ⟨false, 5⟩) (some 10)) G (on gl M) u gl ∧ (on gl M).copiesFrom gl.core < 64 ∧
      InBounds (on gl M) u.gid gl (chipRanges [(.sh, 0), (.sp, 0)] 32 ++ barRange (gl.cbValue (some ⟨false, 5⟩)) ++
        flagRange (gl.flagValue (some 10))) ∧
      (∀ b, gl.cbValue (some ⟨false, 5⟩) = some b → b.2 % 32 = 0) ∧ (∀ f, gl.flagValue (some 10) = some f → f.1 % 8 = 0) ∧
      Unlocked (on gl M) u.gid gl (chipRanges [(.sh, 0), (.sp, 0)] 32) :=
  ⟨lockActs _ rfl, by decide +kernel, mkInBounds (by decide +kernel), by intro b h; cases h; decide +kernel,
    by intro f h; cases h; decide +kernel, mkUnlocked rfl (by decide)⟩

/-- Beyond 2^32 bytes, at 2^56, and a flag in package 1: codes that the copy finds later. -/
theorem wit_linearCopies_late :
    lateFailure 0 (2 ^ 32) [(.vm, 0)] none = some 0x16 ∧ lateFailure 0 1 [(.vm, 2 ^ 56)] none = some 0x14 ∧
      lateFailure 0 1 [(.vm, 2 ^ 56 - 1)] none = none ∧ lateFailure 0 0 [(.vm, 2 ^ 56)] none = none ∧
      lateFailure 0 0 [] (some (2 ^ 40, 1)) = some 0x14 := by
  simp [lateFailure, flagFar]

theorem wit_tensorCopies :
    Acts (.cpyt G false .sh .coh 20 1 5 30 none none) G (on gl M) u gl ∧ (on gl M).copiesFrom gl.core < 64 ∧
      InBounds (on gl M) u.gid gl (barRange (gl.cbValue none) ++ flagRange (gl.flagValue none)) :=
  ⟨lockActs _ rfl, by decide +kernel, mkInBounds (by decide +kernel)⟩

/-- The one cohort of the cluster is member 0: it may be selected, members 1 to 3 are absent. -/
theorem wit_fanOutCopies :
    Acts (.cpym G .sp 21 1 1 5 1 1) G (on gl M) u gl ∧ (on gl M).copiesFrom gl.core < 64 ∧
      (on gl M).cohort? gl.cohort = some Place.cohortRec ∧ (on gl M).cluster? Place.cohortRec.cluster = some Place.cluster ∧
      (∃ m, m < 4 ∧ (2 : BitVec 4).getLsbD m = true ∧ Place.cluster.cohorts.length ≤ m) ∧
      (∀ m, m < 4 → (1 : BitVec 4).getLsbD m = true → m < Place.cluster.cohorts.length) ∧ (on gl M).locks = [] ∧
      InBounds (on gl M) u.gid gl ([(.sh, 0, 32)] ++ chipRanges [(.sp, 0)] 32 ++ [(.sh, 0, 32)]) ∧
      (on gl M).readNat (placeShared gl.cohort + 0) 32 = 0 ∧ Place.cluster.cohorts[0]? = some Place.cohort ∧
      0 + 32 ≤ Place.cohortRec.shared :=
  ⟨lockActs _ rfl, by decide +kernel, by decide +kernel, by decide +kernel, ⟨1, by decide +kernel⟩, by decide +kernel, rfl,
    mkInBounds (by decide +kernel), by decide +kernel, rfl, by decide +kernel⟩

/-- A copy is on its way to s20, and none to s21. -/
def gc : Group := { g with pending := [(20, 0)] }
def linear : CopyOp :=
  { kind := .linear, scope := .coh, core := 0, dst := .chip (placeShared Place.cohort) 0, src := .chip (placeWindow 0 0 0) 0
    len := 64, thread := 0 }
def opOf (w : Work) : Op := { ctx := 0, gid := some Place.gid, sd := some 20, work := w }
def Q (w : Work) : State := { on gc M with ops := [(0, opOf w)], nextOp := 1 }
theorem wit_copyTest :
    Executes (.cpytest G 3 20) G (Q (.copy linear)) u gc ∧ Executes (.cpytest G 3 21) G (Q (.copy linear)) u gc ∧
      (∃ o op c, gc.pending.get? (20 : SReg).toNat = some o ∧ (Q (.copy linear)).op? o = some op ∧ op.work = .copy c) ∧
      gc.pending.get? (21 : SReg).toNat = none :=
  ⟨mkExecutes rfl (by decide +kernel) rfl (by decide +kernel), mkExecutes rfl (by decide +kernel) rfl (by decide +kernel),
    ⟨0, _, _, rfl, rfl, rfl⟩, by decide +kernel⟩

/-! ## Witnesses: tile slots and the matrix engine -/

/-- A holder of five slots of core 0. -/
def hold : Holder := { cohort := Place.cohort, leader := 0, members := 1, team := false, slots := [0, 1, 2, 3, 4] }
def H : State := { T with holders := [(0, hold)], nextOp := 1 }
theorem holdExecutes (i : Instr) (h : i.inBudget 1536 = true) : Executes i G H u g :=
  mkExecutes rfl (by decide +kernel) h (by decide +kernel)

theorem wit_tileOwnership :
    (Unlogged T g.ctx ∧ g.part = none) ∧
      (Executes (.macq G 10 6) G T u g ∧ T.teamRole g = false ∧ T.holdersOf g = [] ∧ (T.core g.core).queue = [] ∧
        (6 : BitVec 16).toNat ≤ (T.freeSlots g.core).length) ∧
      (Executes (.mgrow G 10 1) G H u g ∧ H.holdersOf g = [0] ∧ H.holders.get? 0 = some hold ∧ hold.closing = false ∧
        hold.slots ≠ [] ∧ (H.core g.core).queue = [] ∧ (1 : BitVec 16).toNat ≤ (H.freeSlots g.core).length ∧
        hold.slots.length + (1 : BitVec 16).toNat ≤ 6) ∧
      (Executes (.mgrow G 10 2) G H u g ∧ (H.freeSlots g.core).length < (2 : BitVec 16).toNat) ∧
      Executes (.mgrow G 10 1) G T u g ∧ Executes (.mrel G) G T u g ∧
      Executes (.mrel G) G H u g ∧ H.enteredOn 0 = false ∧ H.cohort? hold.cohort = some Place.cohortRec ∧
      Place.cohortRec.core = some g.core :=
  ⟨⟨unlogged, rfl⟩, ⟨executes _ rfl, by decide +kernel, by decide +kernel, by decide +kernel, by decide +kernel⟩,
    ⟨holdExecutes _ rfl, by decide +kernel, by decide +kernel, rfl, by decide, by decide +kernel, by decide +kernel,
      by decide +kernel⟩, ⟨holdExecutes _ rfl, by decide +kernel⟩, executes _ rfl, executes _ rfl, holdExecutes _ rfl,
    by decide +kernel, by decide +kernel, rfl⟩

/-- Two groups of a team role; s11 holds the mask of both. -/
def gt0 : Group := g.wrS 11 3
def gid1 : Nat := State.gidOf Place.cohort 1
def W : State :=
  { T with
    groups := [(Place.gid, gt0), (gid1, { g with index := 1 })]
    cohorts := [(Place.cohort, { Place.cohortRec with groups := [Place.gid, gid1] })]
    launches := [(Place.launchKey, { Place.launch with roles := [{ Place.role with team := true, groups := 2 }] })] }
theorem wit_tileOwnership_team :
    Executes (.macqTeam G 10 6 11) G W u gt0 ∧ W.teamRole gt0 = true ∧ W.teamOk gt0 (gt0.rdS 11).toNat = true ∧
      W.holdersOf gt0 = [] ∧ (W.core gt0.core).queue = [] ∧ (6 : BitVec 16).toNat ≤ (W.freeSlots gt0.core).length ∧
      Unlogged W gt0.ctx ∧ gt0.part = none :=
  ⟨mkExecutes rfl (by decide +kernel) rfl (by decide +kernel), by decide +kernel, by decide +kernel, by decide +kernel,
    by decide +kernel, by decide +kernel, placed_unlogged rfl, rfl⟩

/-- A queue of as many entries of a group that is not there. -/
def queued (n : Nat) : State :=
  { T with cores := [(0, { queue := List.replicate n { gid := 1, mask := 1, n := 1, sd := 1, team := none } })] }
theorem notOwning (n : Nat) (h : n = 15 ∨ n = 16) : ¬ Owning (queued n) g u.gid := by
  rintro (h0 | ⟨e, he, h1⟩)
  · exact h0 (by obtain rfl | rfl := h <;> decide +kernel)
  · have h2 : ((queued n).core g.core).queue = List.replicate n { gid := 1, mask := 1, n := 1, sd := 1, team := none } := by
      obtain rfl | rfl := h <;> decide +kernel
    rw [h2] at he
    obtain rfl := List.eq_of_mem_replicate he
    obtain h3 | ⟨m, r, h4, -⟩ := h1
    · exact absurd h3 (by decide +kernel)
    · simp at h4
/-- A MACQ of a holder; one of the team form in another role, and one of a mask of one; one behind 15 others, and behind 16. -/
theorem wit_ownershipWaits :
    (Executes (.macq G 10 1) G H u g ∧ H.holdersOf g ≠ [] ∧ CanTrap H g) ∧
      (Executes (.macqTeam G 10 1 11) G T u g ∧ T.teamRole g = false ∧ T.holdersOf g = [] ∧ (T.core g.core).queue = []) ∧
      (Executes (.macqTeam G 10 6 10) G W u gt0 ∧ W.teamRole gt0 = true ∧ ¬ (gt0.rdS 10).toNat.testBit gt0.index = true) ∧
      (Executes (.macq G 10 1) G (queued 15) u g ∧ ¬ Owning (queued 15) g u.gid ∧ (queued 15).teamRole g = false ∧ Unlogged (queued 15) g.ctx ∧
        ((queued 15).core g.core).queue.length = 15) ∧
      Executes (.macq G 10 1) G (queued 16) u g ∧ ¬ Owning (queued 16) g u.gid ∧ ((queued 16).core g.core).queue.length = 16 ∧
      (queued 16).teamRole g = false := by
  refine ⟨⟨holdExecutes _ rfl, ?_, ?_, ?_⟩, ⟨executes _ rfl, ?_, ?_, ?_⟩, ⟨mkExecutes rfl ?_ rfl ?_, ?_, ?_⟩,
    ⟨mkExecutes rfl ?_ rfl ?_, notOwning 15 (Or.inl rfl), ?_, placed_unlogged rfl, ?_⟩, mkExecutes rfl ?_ rfl ?_, notOwning 16 (Or.inr rfl),
    ?_, ?_⟩ <;> decide +kernel

/-- Registers of the matrix tests: the least stride of f32 (s5), 4,096 steps of increment 0 (s6), 512 steps of MSACC (s7). -/
def gm : Group := ((g.wrS 5 512).wrS 6 4096).wrS 7 512
def X (hs : Tbl Holder) : State := { on gm M with holders := hs, nextOp := 1 }
theorem matExecutes (hs : Tbl Holder) (i : Instr) (h : i.inBudget 1536 = true) : Executes i G (X hs) u gm :=
  mkExecutes rfl (by simp [X, on, u, State.group?, Tbl.get?]) h (by decide +kernel)
theorem holds4 : Holds (X [(0, hold)]) gm 4 0 hold := by
  refine ⟨⟨[], ?_⟩, ?_, ?_, ?_⟩ <;> decide +kernel
theorem notHeld5 : ¬ ∃ hh x, Holds (X [(0, hold)]) gm 5 hh x := by
  rintro ⟨hh, x, -, hx, -, hk⟩
  simp only [X, Tbl.get?] at hx
  split at hx
  · cases hx; exact absurd hk (by decide)
  · cases hx

theorem wit_tileMoves :
    ((X [(0, hold)]).matrixOps gm.core < 32 ∧ gm.part = none ∧ (X [(0, hold)]).locks = []) ∧
      (Executes (.mzero G 10 4) G (X [(0, hold)]) u gm ∧ ∃ hh x, Holds (X [(0, hold)]) gm (4 : Slot).toNat hh x) ∧
      (Executes (.mzero G 10 5) G (X [(0, hold)]) u gm ∧ ¬ ∃ hh x, Holds (X [(0, hold)]) gm (5 : Slot).toNat hh x) ∧
      (Executes (.mldacc G .f32 10 1 1 4) G (X [(0, hold)]) u gm ∧ (gm.rdS 1).toNat % 2 ^ 32 < 128 * 4) ∧
      Executes (.mldacc G .f32 10 1 5 5) G (X [(0, hold)]) u gm ∧ Acts (.mstacc G .f32 .rne false 10 1 5 4) G (X [(0, hold)]) u gm ∧
      (gm.rdS 5).toNat % 2 ^ 32 % 16 = 0 ∧ 128 * 4 ≤ (gm.rdS 5).toNat % 2 ^ 32 ∧
      InBounds (X [(0, hold)]) u.gid gm [(.sh, (gm.rdS 1).toNat, 127 * ((gm.rdS 5).toNat % 2 ^ 32) + 128 * 4)] :=
  ⟨⟨by decide +kernel, rfl, rfl⟩, ⟨matExecutes _ _ rfl, 0, hold, holds4⟩, ⟨matExecutes _ _ rfl, notHeld5⟩,
    ⟨matExecutes _ _ rfl, by decide +kernel⟩, matExecutes _ _ rfl, ⟨matExecutes _ _ rfl, by decide +kernel⟩, by decide +kernel,
    by decide +kernel, mkInBounds (by decide +kernel)⟩

theorem wit_matrixLoops :
    (Executes (.mloop G .bf16 .bf16 false 20 1 6 1 1 32 0 4) G (X [(0, hold)]) u gm ∧
      Holds (X [(0, hold)]) gm (4 : Slot).toNat 0 hold ∧ hold.team = false ∧ hold.members = BitVec.ofNat 16 (2 ^ gm.index) ∧
      gm.index < 16) ∧
      ((gm.rdS 6).toNat % 2 ^ 32 = 4096 ∧ (gm.rdS 6).toNat / 2 ^ 32 % 16 = 0 ∧
        (32 : VReg).toNat + (0 : BitVec 11).toNat * 4095 + 16 ≤ gm.budget ∧
        InBounds (X [(0, hold)]) u.gid gm [(.sh, (gm.rdS 1).toNat, 4095 * ((gm.rdS 6).toNat / 2 ^ 32) + 2048)]) ∧
      (gm.rdS 1).toNat % 2 ^ 32 = 0 ∧
      (Executes (.mloop G .bf16 .bf16 false 20 1 6 1 1 32 0 4) G (X []) u gm ∧ (X []).holdersOf gm = []) ∧
      (Executes (.msacc G 20 1 1 7 4) G (X [(0, hold)]) u gm ∧ (gm.rdS 7).toNat % 2 ^ 32 = 512 ∧
        InBounds (X [(0, hold)]) u.gid gm [(.sh, (gm.rdS 1).toNat, 128 * 512), (.sh, (gm.rdS 1).toNat, 128 * 512)]) ∧
      Executes (.msacc G 20 1 1 7 4) G (X []) u gm :=
  ⟨⟨matExecutes _ _ rfl, holds4, rfl, by decide +kernel, by decide +kernel⟩,
    ⟨by decide +kernel, by decide +kernel, by decide +kernel, mkInBounds (by decide +kernel)⟩, by decide +kernel,
    ⟨matExecutes _ _ rfl, by decide +kernel⟩, ⟨matExecutes _ _ rfl, by decide +kernel, mkInBounds (by decide +kernel)⟩,
    matExecutes _ _ rfl⟩

/-- An MLOOP.part of 512 steps that waits for its MSACC. -/
def part0 : MatOp :=
  { kind := .loop .e2m1 .e2m1 true 512 0 0 0 0 32 0, core := 0, cohort := Place.cohort, holder := some 0, slot := 4
    entered := some 0, thread := 0 }
def gpt : Group := { gm with part := some 0 }
def XP : State := { on gpt M with holders := [(0, hold)], ops := [(0, opOf (.matrix part0))], nextOp := 1 }
theorem wit_scaledPairs :
    Executes (.msacc G 20 1 1 7 4) G XP u gpt ∧ XP.matrixOps gpt.core < 32 ∧ XP.locks = [] ∧ (∀ c, XP.tableUse c + 2 ≤ 64) ∧
      Holds XP gpt 4 0 hold ∧ hold.team = false ∧ gpt.part = some 0 ∧ 0 ≠ XP.nextOp ∧ XP.op? 0 = some (opOf (.matrix part0)) ∧
      part0.code = none ∧ part0.partner = none ∧ (gpt.rdS 7).toNat % 2 ^ 32 = 512 ∧
      InBounds XP u.gid gpt [(.sh, (gpt.rdS 1).toNat, 128 * 512), (.sh, (gpt.rdS 1).toNat, 128 * 512)] :=
  ⟨mkExecutes rfl (by decide +kernel) rfl (by decide +kernel), by decide +kernel, rfl, fun c => by simp [State.tableUse, XP, on, M, Place.machine],
    ⟨⟨[], by decide +kernel⟩, by decide +kernel, rfl, by decide⟩, rfl, rfl, by decide, rfl, rfl, rfl, by decide +kernel,
    mkInBounds (by decide +kernel)⟩

/-! ## Witnesses: transfers, names, rings, tasks -/

/-- Register 3 is connected and 4 is not; package 1 has a window too. Lengths: 2^24 (s5), 2^32 + 1 (s6), 32 (s9); an address
in package 1 (s8). -/
def wide : Context :=
  { Place.context with
    sites := [(0, { root := 0, spwin := [(0, 2 ^ 24)], conns := [(3, { peer := .fabric 1 0 0, up := true })] }),
      (1, { root := 0, spwin := [(0, 65536)] })] }
def gf : Group := (((g.wrS 5 0x1000000).wrS 6 0x100000001).wrS 8 0x10000000000).wrS 9 32
def E : State := { on gf M with contexts := [(0, wide)] }
theorem xferActs (i : Instr) (h : i.inBudget 1536 = true) : Acts i G E u gf :=
  ⟨mkExecutes rfl (by decide +kernel) h (by decide +kernel), by decide +kernel⟩
theorem wit_transfers :
    (Acts (.tsend G 20 1 5 1 3) G E u gf ∧ (E.xfersOn gf.ctx 0 3 true).length < 16 ∧ E.locks = [] ∧
      InBounds E u.gid gf (chipRanges [(.sp, 0)] 0x1000000 ++ [(.sh, 0, 32)]) ∧
      ∃ k, E.conn? gf.ctx (pkgOf gf.core) 3 = some k ∧ k.up = true) ∧
      (Acts (.trecv G 20 1 1 1 3) G E u gf ∧ (gf.rdS 1).toNat = 0) ∧
      (Acts (.trecv G 20 1 6 1 3) G E u gf ∧ 2 ^ 24 < (gf.rdS 6).toNat ∧
        InBounds E u.gid gf (chipRanges [(.sp, 0)] 0x100000001 ++ [(.sh, 0, 32)])) ∧
      (Acts (.tsend G 20 8 9 1 3) G E u gf ∧ (gf.rdS 8).toNat / 2 ^ 40 % 256 ≠ pkgOf gf.core % 256 ∧
        InBounds E u.gid gf (chipRanges [(.sp, 0x10000000000)] 32 ++ [(.sh, 0, 32)])) ∧
      Acts (.tsend G 20 1 9 1 4) G E u gf ∧ E.conn? gf.ctx (pkgOf gf.core) 4 = none :=
  ⟨⟨xferActs _ rfl, by decide +kernel, rfl, mkInBounds (by decide +kernel), _, rfl, rfl⟩, ⟨xferActs _ rfl, by decide +kernel⟩,
    ⟨xferActs _ rfl, by decide +kernel, mkInBounds (by decide +kernel)⟩,
    ⟨xferActs _ rfl, by decide +kernel, mkInBounds (by decide +kernel)⟩, xferActs _ rfl, by decide +kernel⟩

theorem E_unlogged : Unlogged E gf.ctx := by
  have h : E.context? gf.ctx = some wide := by decide +kernel
  refine ⟨fun q => ?_, by simp [State.frozen, h, wide]⟩
  simp only [State.scroll, State.site?, h, wide, Option.bind_some, Tbl.get?]
  by_cases h0 : (0 : Nat) = q
  · simp [h0]
  · by_cases h1 : (1 : Nat) = q <;> simp [h0, h1]
/-- A transfer of no bytes, on a register with no peer. -/
theorem wit_transfers_empty :
    Acts (.tsend G 20 1 1 1 4) G E u gf ∧ (gf.rdS 1).toNat = 0 ∧ Unlogged E gf.ctx ∧ gf.pending.get? 20 = none ∧ gf.late.get? 20 = none ∧
      gf.deposits.get? 20 = none ∧ E.owedDone = [] ∧ E.ops = [] :=
  ⟨xferActs _ rfl, by decide +kernel, E_unlogged, by decide +kernel, by decide +kernel, by decide +kernel, by decide +kernel, rfl⟩
/-- PSIG holds the wake bit. -/
def gp : Group := { g with sys := { g.sys with psig := 0x100000000 } }
theorem wit_nameInstructions :
    Executes (.nself G 10) G T u g ∧ Acts (.nwake G 10 4) G T u g ∧ Acts (.nsignal G 10 4 5) G T u g ∧
      Acts (.nsignalKill G 10 4) G T u g ∧ Acts (.ndeposit G 10 4 5 2) G T u g ∧ Executes (.nstat G 10 4) G T u g ∧
      Acts (.njoin G true 10 4 none) G T u g ∧ (Executes (.npark G 10 none) G T u g ∧ g.sys.psig = 0) ∧
      (Executes (.npark G 10 none) G (on gp M) u gp ∧ gp.sys.psig ≠ 0) ∧
      Executes (.launch G 10 4) G T u g ∧ T.launchOf g = some Place.launch :=
  ⟨executes _ rfl, acts _ rfl, acts _ rfl, acts _ rfl, acts _ rfl, executes _ rfl, acts _ rfl, ⟨executes _ rfl, by decide +kernel⟩,
    ⟨mkExecutes rfl (by decide +kernel) rfl (by decide +kernel), by decide +kernel⟩, executes _ rfl, by decide +kernel⟩

/-- A ring control block at address 0 of shared memory: two slots of 32 bytes, its bitmap at 64; s5 = 1, s6 = 2. -/
def ring (head vis peek tail : Nat) : Nat :=
  5 * 2 ^ 48 + 1 * 2 ^ 56 + head * 2 ^ 64 + vis * 2 ^ 96 + peek * 2 ^ 128 + tail * 2 ^ 160 + 64 * 2 ^ 192
def gr : Group := (g.wrS 5 1).wrS 6 2
def R (o bits : Nat) : State :=
  on gr ((M.writeNat (placeShared Place.cohort) 32 o).writeNat (placeShared Place.cohort + 64) 1 bits)
theorem ringActs (o b : Nat) (i : Instr) (h : i.inBudget 1536 = true) : Acts i G (R o b) u gr := by
  refine ⟨mkExecutes rfl ?_ h (by decide +kernel), by decide +kernel⟩
  simp [R, on, u, State.group?, Tbl.get?]
theorem R_unlogged (o b : Nat) : Unlogged (R o b) gr.ctx := by
  refine placed_unlogged ?_
  have h : ∀ (s : State) (a : Nat) (bs : List Byte), (s.writeBytes a bs).contexts = s.contexts := by
    intro s a bs; rw [writeBytes_eq]
  exact (h _ _ _).trans ((h _ _ _).trans rfl)

/-- A free slot and a full ring for RGACQ, an empty one for RGPEEK, and a block of zeros. -/
theorem wit_ringAcquire :
    (Acts (.rgacq G true .coh .sh 20 1) G (R (ring 1 0 0 0) 0) u gr ∧ Unlogged (R (ring 1 0 0 0) 0) gr.ctx ∧
      (gr.fibre (lowest u.mask)).wait = .none ∧
      (R (ring 1 0 0 0) 0).checkAccess u.gid gr .sh (gr.rdS 1).toNat 32 true true = .ok (placeShared Place.cohort) ∧
      (R (ring 1 0 0 0) 0).readNat (placeShared Place.cohort) 32 = ring 1 0 0 0 ∧ Ring.wellFormed (ring 1 0 0 0) = true ∧
      ¬ (Ring.head (ring 1 0 0 0) + 2 ^ 32 - Ring.tail (ring 1 0 0 0)) % 2 ^ 32 = 2 ^ Ring.logCount (ring 1 0 0 0)) ∧
      ((R (ring 2 0 0 0) 0).readNat (placeShared Place.cohort) 32 = ring 2 0 0 0 ∧ Ring.wellFormed (ring 2 0 0 0) = true ∧
        (Ring.head (ring 2 0 0 0) + 2 ^ 32 - Ring.tail (ring 2 0 0 0)) % 2 ^ 32 = 2 ^ Ring.logCount (ring 2 0 0 0)) ∧
      (Acts (.rgpeek G false .coh .sh 20 1) G (R (ring 2 0 0 0) 0) u gr ∧ Ring.peek (ring 2 0 0 0) = Ring.vis (ring 2 0 0 0)) ∧
      (R 0 0).readNat (placeShared Place.cohort) 32 = 0 ∧ Ring.wellFormed 0 = false :=
  ⟨⟨ringActs _ _ _ rfl, R_unlogged _ _, by decide +kernel, ok_of (by decide +kernel), by decide +kernel, by decide +kernel,
      by decide +kernel⟩, ⟨by decide +kernel, by decide +kernel, by decide +kernel⟩,
    ⟨ringActs _ _ _ rfl, by decide +kernel⟩, by decide +kernel, by decide +kernel⟩

/-- Indices 0, at the low end, 1, above it, and 2, outside, of a ring whose HEAD is 2; index 1 with its bit set. -/
theorem wit_ringCommit :
    (Acts (.rgcommit G .coh .sh 20 1 1) G (R (ring 2 0 0 0) 0) u gr ∧ Acts (.rgcommit G .coh .sh 20 1 5) G (R (ring 2 0 0 0) 0) u gr ∧
      Acts (.rgcommit G .coh .sh 20 1 6) G (R (ring 2 0 0 0) 0) u gr ∧ Unlogged (R (ring 2 0 0 0) 0) gr.ctx ∧
      (R (ring 2 0 0 0) 0).checkAccess u.gid gr .sh (gr.rdS 1).toNat 32 true true = .ok (placeShared Place.cohort)) ∧
      ((Ring.head (ring 2 0 0 0) + 2 ^ 32 - Ring.vis (ring 2 0 0 0)) % 2 ^ 32 = (gr.rdS 6).toNat % 2 ^ 32) ∧
      ((R (ring 2 0 0 0) 0).checkAccess u.gid gr .sh 64 1 false true = .ok (placeShared Place.cohort + 64) ∧
        ((R (ring 2 0 0 0) 0).readByte (placeShared Place.cohort + 64)).getLsbD 0 = false ∧
        ((R (ring 2 0 0 0) 0).readByte (placeShared Place.cohort + 64)).getLsbD 1 = false) ∧
      ((R (ring 2 0 0 0) 2).readByte (placeShared Place.cohort + 64)).getLsbD 1 = true ∧
      (Executes (.rgrel G .coh .sh 20 1 1) G (R (ring 2 1 1 0) 0) u gr ∧ Ring.wellFormed (ring 2 1 1 0) = true ∧
        (Ring.peek (ring 2 1 1 0) + 2 ^ 32 - Ring.tail (ring 2 1 1 0)) % 2 ^ 32 = 1) ∧
      (R 0 0).readNat (placeShared Place.cohort) 32 = 0 ∧ Ring.wellFormed 0 = false :=
  ⟨⟨ringActs _ _ _ rfl, ringActs _ _ _ rfl, ringActs _ _ _ rfl, R_unlogged _ _, ok_of (by decide +kernel)⟩, by decide +kernel,
    ⟨ok_of (by decide +kernel), by decide +kernel, by decide +kernel⟩, by decide +kernel,
    ⟨(ringActs _ _ _ rfl).1, by decide +kernel, by decide +kernel⟩, by decide +kernel, by decide +kernel⟩
/-- A commit of index 0 that moves VIS past two indices, and one of index 1 that moves it past none. -/
theorem wit_ringCommit_moves :
    let s := R (ring 2 0 0 0) 2
    let byte : Nat → Nat := fun _ => placeShared Place.cohort + 64
    ((∀ j, j < 2 → s.checkAccess u.gid gr .sh ((Ring.bitmap (ring 2 0 0 0) + j % 2 ^ 32 % 2 / 8) % 2 ^ 64) 1 false true = .ok (byte j) ∧
        placeShared Place.cohort + 32 ≤ byte j) ∧
      (s.readByte (byte 0)).getLsbD 0 = false ∧ (∀ j, j < 2 → j ≠ 0 → (s.readByte (byte j)).getLsbD (j % 2 % 8) = true)) ∧
      ((R (ring 2 0 0 0) 0).readByte (byte 1)).getLsbD 1 = false ∧ ((R (ring 2 0 0 0) 0).readByte (byte 0)).getLsbD 0 = false := by
  refine ⟨⟨fun j hj => ?_, by decide +kernel, fun j hj h0 => ?_⟩, by decide +kernel, by decide +kernel⟩
  · match j, hj with
    | 0, _ => exact ⟨ok_of (by decide +kernel), by decide⟩
    | 1, _ => exact ⟨ok_of (by decide +kernel), by decide⟩
  · match j, hj with
    | 1, _ => decide +kernel

theorem wit_taskInstructions :
    Acts (.tspawn G 5 12 none 0) G T u g ∧
      Filled T u (plainReads (.tspawn G 5 12 none 0)) (read T u [5]) (readG T u [5]) ∧ (g.rdS (12 + 1)).toNat % 4 = 0 ∧
      (∀ f, f ∈ lanesOf (storing g u G) → ∃ key, T.resolve u.gid g .sp (laneAddr (readG T u [5]) 12 none 0 f) 1 = .ok key) ∧
      (T.die (dieOf g.core)).tasks.length + (lanesOf (storing g u G)).length ≤ 16384 ∧ Executes (.tpost G false 7) G T u g ∧
      Executes (.tpost G true 7) G T u g := by
  refine ⟨acts _ rfl, filled ?_, ?_, fun f _ => ⟨placeWindow 0 0 0, ?_⟩, ?_, executes _ rfl, executes _ rfl⟩
  · decide +kernel
  · decide +kernel
  · have h : T.resolve u.gid g .sp (laneAddr (readG T u [5]) 12 none 0 0) 1 = .ok (placeWindow 0 0 0) := ok_of (by decide +kernel)
    exact h
  · decide +kernel

/-- A launch with a bitmap at address 0 of the window. -/
def mapped : Launch := { Place.launch with doneMap := some 0 }
def V : State := { T with launches := [(Place.launchKey, mapped)] }
theorem wit_completionAndTiles :
    (Acts (.tdone G) G T u g ∧ T.cohort? g.cohort = some Place.cohortRec ∧ T.launch? g.launch = some Place.launch ∧
      Place.launch.doneMap = none) ∧
      (Acts (.tdone G) G V u g ∧ V.launch? g.launch = some mapped ∧ mapped.doneMap = some 0 ∧ Place.cohortRec.task = false ∧
        mapped.ctx = g.ctx ∧ 0 + Place.cohortRec.num / 8 < 2 ^ 37 ∧ Unlogged V g.ctx ∧
        V.checkAccess u.gid g .sp (0 + Place.cohortRec.num / 8) 1 true true = .ok (placeWindow 0 0 0)) ∧
      Acts (.wdnext G 6) G T u g ∧ T.resolve u.gid g .sp (g.rdS 6).toNat 8 = .ok (placeWindow 0 0 0) ∧
      (g.rdS 6).toNat % 8 = 0 ∧ (T.unanswered u.gid).length < 8 :=
  ⟨⟨acts _ rfl, by decide +kernel, by decide +kernel, rfl⟩,
    ⟨⟨mkExecutes rfl (by decide +kernel) rfl (by decide +kernel), by decide +kernel⟩, by decide +kernel, rfl, rfl, rfl, by decide,
      placed_unlogged rfl, ok_of (by decide +kernel)⟩,
    acts _ rfl, ok_of (by decide +kernel), by decide +kernel, by decide +kernel⟩

/-! ## Witnesses: traps and the system -/

theorem wit_trapEntry : Executes (.trap G 7) G T u g ∧ Executes (.bkpt G 3) G T u g ∧ Issues T u g ∧ CanTrap T g :=
  ⟨executes _ rfl, executes _ rfl, (executes (.nop G) rfl).1, canTrap⟩

/-- The whole group handles a trap, to return to 0x1008. -/
def gH : Group :=
  { (g.onFibres 0xFFFFFFFF fun x => { x with inTrap := true }) with sys := { g.sys with xpc := 0x1008, xstat := 0x1FFFFFFFF } }
theorem wit_trapReturn :
    (Executes (.xret G) G (on gH M) u gH ∧ privilegedAt gH u.mask = true ∧ u.mask = gH.trapMask ∧ u.mask ≠ 0 ∧
      gH.sys.xpc.toNat % 4 = 0 ∧ ∀ f, f < 32 → (gH.fibre f).held = none) ∧
      Executes (.xret G) G T u g ∧ u.mask &&& g.trapMask = 0 :=
  ⟨⟨mkExecutes rfl (by decide +kernel) rfl (by decide +kernel), by decide +kernel, by decide +kernel, by decide +kernel,
    by decide +kernel, by decide +kernel⟩, executes _ rfl, by decide +kernel⟩

/-- Two fibres return while 30 handle on; the handler's stroke returns while fibre 2 holds a trap; a return to no boundary. -/
def gHeld : Group :=
  { (g.onFibres 3 fun x => { x with inTrap := true }).onFibres 4 (fun x => { x with held := some ⟨0x23, false, 0⟩, wait := .trapSplit }) with
    sys := { g.sys with xpc := 0x1008, xstat := 0x100000003 } }
def gOdd : Group := { gH with sys := { gH.sys with xpc := 0x1002 } }
theorem gHeld_first : ∀ f, f < 32 → ((4 : BitVec 32).getLsbD f = true ↔ ∃ y, (gHeld.fibre f).held = some y ∧ y.order = 0) := by
  have h : ∀ f, f < 32 → ((4 : BitVec 32).getLsbD f = ((gHeld.fibre f).held.any fun y => y.order == 0)) := by decide +kernel
  intro f hf
  rw [h f hf]
  simp [Option.any_eq_true]
theorem wit_trapReturn_parts :
    (Executes (.xret G) G (on gH M u2) u2 gH ∧ privilegedAt gH u2.mask = true ∧ u2.mask &&& ~~~gH.trapMask = 0 ∧
      gH.trapMask &&& ~~~u2.mask ≠ 0) ∧
      (Executes (.xret G) G (on gHeld M u2) u2 gHeld ∧ privilegedAt gHeld u2.mask = true ∧ u2.mask = gHeld.trapMask ∧
        gHeld.sys.xpc.toNat % 4 = 0 ∧
        (∀ f, f < 32 → ((4 : BitVec 32).getLsbD f = true ↔ ∃ y, (gHeld.fibre f).held = some y ∧ y.order = 0)) ∧
        (gHeld.fibre (lowest 4)).held = some ⟨0x23, false, 0⟩ ∧ ∀ f, f < 32 → u2.mask.getLsbD f = true → (gHeld.fibre f).held = none) ∧
      Executes (.xret G) G (on gOdd M) u gOdd ∧ privilegedAt gOdd u.mask = true ∧ u.mask &&& gOdd.trapMask ≠ 0 ∧
        gOdd.sys.xpc.toNat % 4 ≠ 0 := by
  refine ⟨⟨mkExecutes rfl ?_ rfl ?_, ?_, ?_, ?_⟩, ⟨mkExecutes rfl ?_ rfl ?_, ?_, ?_, ?_, gHeld_first, ?_, ?_⟩,
    mkExecutes rfl ?_ rfl ?_, ?_, ?_, ?_⟩
  all_goals decide +kernel
/-- The group in user mode. -/
def gU : Group := g.onFibres 0xFFFFFFFF fun x => { x with priv := false }
theorem wit_privilegeTrap : Issues (on gU M) u gU ∧ privilegedAt gU u.mask = false ∧ CanTrap (on gU M) gU ∧
    Executes (.sysrd G 20 .xpc) G (on gU M) u gU ∧ Executes (.syswr G .xvec 5) G (on gU M) u gU ∧
    Executes (.syswrXlflush G 5) G (on gU M) u gU ∧ Executes (.syswrScrridx G 5) G (on gU M) u gU := by
  refine ⟨⟨rfl, ?_⟩, ?_, ⟨?_, ?_⟩, ?_, ?_, ?_, ?_⟩
  · decide +kernel
  · decide +kernel
  · decide +kernel
  · decide +kernel
  all_goals exact mkExecutes rfl (by decide +kernel) rfl (by decide +kernel)

theorem wit_systemRegisterReads :
    (Executes (.sysrd G 20 .spbase) G (on gU M) u gU ∧ SysReg.privRead .spbase = false) ∧
      Executes (.sysrd G 20 .xpc) G T u g ∧ privilegedAt g u.mask = true :=
  ⟨⟨mkExecutes rfl (by decide +kernel) rfl (by decide +kernel), rfl⟩, executes _ rfl, by decide +kernel⟩

theorem wit_systemRegisterWrites :
    privilegedAt g u.mask = true ∧ Executes (.syswr G .depmask 5) G T u g ∧ Executes (.syswr G .xvec 5) G T u g ∧
      T.context? g.ctx = some Place.context ∧ Executes (.syswr G .scrctl 5) G T u g ∧ Executes (.syswrScrridx G 5) G T u g ∧
      (T.site? g.ctx (pkgOf g.core)).map (·.scroll) = some {} ∧ Executes (.syswrXlflush G 5) G T u g ∧
      Executes (.syswr G .depmask 5) G (on gU M) u gU ∧ SysReg.privWrite .depmask = false :=
  ⟨by decide +kernel, executes _ rfl, executes _ rfl, by decide +kernel, executes _ rfl, executes _ rfl, by decide +kernel,
    executes _ rfl, mkExecutes rfl (by decide +kernel) rfl (by decide +kernel), rfl⟩

/-- A context that records into a ring at 0x300000, with one slot left. -/
def recording : Scroll := { mode := 1, base := 0x300000, widx := 32767 }
def rec : Context := { Place.context with sites := [(0, { root := 0, scroll := recording })] }
def L : State := { on g M with contexts := [(0, rec)] }
/-- Operands of EVPOST: 256 bytes of shared memory (s5, s6), and 255 (s7). -/
def ge : Group := ((g.wrS 5 256).wrS 6 0x0100000000000000).wrS 7 255
theorem evActs (i : Instr) (h : i.inBudget 1536 = true) : Acts i G (on ge M) u ge :=
  ⟨mkExecutes rfl (by decide +kernel) h (by decide +kernel), by decide +kernel⟩

theorem wit_systemInstructions :
    (Executes (.logmark G 5) G T u g ∧ Unlogged T g.ctx) ∧
      (Executes (.logmark G 5) G L u g ∧ L.context? g.ctx = some rec ∧ rec.confidential = false ∧
        L.scroll g.ctx (pkgOf g.core) = recording ∧
        (L.site? g.ctx (pkgOf g.core)).isSome = true ∧ recording.full = false ∧ recording.base % 32 = 0 ∧
        L.walk g.ctx (pkgOf g.core) .imageRead (recording.base + 32 * (recording.widx.toNat % recording.cap)) = .ok (0x4300000 + 32 * 32767) ∧
        L.walk g.ctx (pkgOf g.core) .imageWrite (recording.base + 32 * (recording.widx.toNat % recording.cap)) = .ok (0x4300000 + 32 * 32767)) ∧
      (Acts (.evpost G 20 1 6 7 0x31) G (on ge M) u ge ∧ (ge.rdS 7).toNat % 8 ≠ 0) ∧
      (Acts (.evpost G 20 1 6 5 0x31) G (on ge M) u ge ∧ (ge.rdS 5).toNat = 256 ∧ ge.rdS 1 = 0 ∧
        (on ge M).context? ge.ctx = some Place.context ∧ Place.context.events.length < 4095 ∧ (ge.rdS 6).toNat / 2 ^ 56 = 1 ∧
        (on ge M).resolve u.gid ge .sh ((ge.rdS 6).toNat % 2 ^ 56) 256 = .ok (placeShared Place.cohort) ∧ (on ge M).locks = [] ∧
        Unlogged (on ge M) ge.ctx) ∧
      (privilegedAt g u.mask = true ∧ Executes (.fretry G 50 36) G T u g ∧ Executes (.fretryExhaust G 50 36) G T u g ∧
        Executes (.fretryFatal G 50 36) G T u g ∧ T.context? g.ctx = some Place.context ∧ Place.context.ended = none) :=
  ⟨⟨executes _ rfl, unlogged⟩, ⟨mkExecutes rfl (by decide +kernel) rfl (by decide +kernel), by decide +kernel, rfl, by decide +kernel,
      by decide +kernel, by decide +kernel, by decide, by decide +kernel, by decide +kernel⟩, ⟨evActs _ rfl, by decide +kernel⟩,
    ⟨evActs _ rfl, by decide +kernel, by decide +kernel, by decide +kernel, by decide +kernel, by decide +kernel,
      ok_of (by decide +kernel), rfl, placed_unlogged rfl⟩,
    by decide +kernel, executes _ rfl, executes _ rfl, executes _ rfl, by decide +kernel, rfl⟩

/-! ## Witnesses: strokes and waits -/

theorem wit_reformation : T.cycle % 4 = 0 ∧ T.served = 0 ∧ T.group? Place.gid = some g ∧ g.phase = .resident := by
  refine ⟨?_, ?_, ?_, ?_⟩ <;> decide +kernel

/-- Every fibre waits. -/
def parked (w : Wait) (i : Option Instr) (operand : Word64) (deadline : Nat) : Group :=
  g.onFibres 0xFFFFFFFF fun x => { x with wait := w, instr := i, operand := operand, deadline := deadline }
def gReady : Group := { g with readyFrom := 1 }
theorem wit_groupEvents :
    (gReady.phase = .resident ∧ gReady.readyFrom ≠ 0 ∧ gReady.readyFrom - 1 + 224 ≤ ({ on gReady M with cycle := 224 } : State).cycle ∧
      ({ on gReady M with cycle := 224 } : State).group? Place.gid = some gReady) ∧
      ((parked .meet none 0 0).live ≠ 0 ∧ (parked .meet none 0 0).parkedFor .meet = (parked .meet none 0 0).live) ∧
      ((parked .sleep none 5 0).phase = .resident ∧ Unlogged (on (parked .sleep none 5 0) M) (parked .sleep none 5 0).ctx ∧
        ∀ e f, ((parked .sleep none 5 0).parkedFor .sleep).getLsbD e = true → ((parked .sleep none 5 0).parkedFor .sleep).getLsbD f = true →
          ((parked .sleep none 5 0).fibre e).operand = ((parked .sleep none 5 0).fibre f).operand) := by
  refine ⟨⟨rfl, by decide, by decide, by decide +kernel⟩, ⟨by decide +kernel, by decide +kernel⟩, by decide +kernel, placed_unlogged rfl,
    fun e f he hf => ?_⟩
  have h : ∀ e, e < 32 → ((parked .sleep none 5 0).fibre e).operand = 5 := by decide +kernel
  rw [h e (BitVec.lt_of_getLsbD he), h f (BitVec.lt_of_getLsbD hf)]

/-- A WAITW on the word 0 at address 0 of shared memory, against 1 (s8) and against 0 (s2); its deadline is now. -/
def waiting (sc : SReg) : Group := (parked .waitw (some (.waitw G none .sh false 1 9 sc 4 0 0)) 0 5).wrS 8 1
/-- Its watch, before and after a write to the word's sector. -/
def watching (sc : SReg) (hit : Bool) : State :=
  { on (waiting sc) M with watches := [(32 * Machine.Place.gid, ⟨placeShared Place.cohort / 32, hit, 0⟩)], timebase := 5 }
theorem wit_wordEvents :
    ((watching 8 true).group? Place.gid = some (waiting 8) ∧ (waiting 8).phase = .resident ∧ Unlogged (watching 8 true) (waiting 8).ctx ∧
      ((waiting 8).fibre 0).wait = .waitw ∧ ((waiting 8).fibre 0).instr = some (.waitw G none .sh false 1 9 8 4 0 0) ∧
      (watching 8 true).resolve Place.gid (waiting 8) .sh 0 4 = .ok (placeShared Place.cohort) ∧
      (watching 8 true).readNat (placeShared Place.cohort) 4 ≠ ((waiting 8).rdS 8).toNat % 2 ^ 32 ∧
      (watching 8 true).watches.get? (32 * Machine.Place.gid + 0) = some ⟨placeShared Place.cohort / 32, true, 0⟩) ∧
      ((watching 2 true).group? Place.gid = some (waiting 2) ∧ Unlogged (watching 2 true) (waiting 2).ctx ∧
        ((waiting 2).fibre 0).instr = some (.waitw G none .sh false 1 9 2 4 0 0) ∧
        (watching 2 true).resolve Place.gid (waiting 2) .sh 0 4 = .ok (placeShared Place.cohort) ∧
        (watching 2 true).readNat (placeShared Place.cohort) 4 = ((waiting 2).rdS 2).toNat % 2 ^ 32) ∧
      (watching 8 false).watches.get? (32 * Machine.Place.gid + 0) = some ⟨placeShared Place.cohort / 32, false, 0⟩ ∧
      ((waiting 2).fibre 0).deadline ≠ 0 ∧ ((waiting 2).fibre 0).deadline ≤ (watching 2 true).timebase.toNat := by
  refine ⟨⟨?_, ?_, placed_unlogged rfl, ?_, ?_, ok_of ?_, ?_, ?_⟩, ⟨?_, placed_unlogged rfl, ?_, ok_of ?_, ?_⟩, ?_, ?_, ?_⟩ <;>
    decide +kernel

/-- NPARK at its deadline; NJOIN of an entry that is RUNNING, at its deadline. -/
def nparked : Group := parked .npark (some (.npark G 10 (some 4))) 0 5
def njoined : Group := parked .njoin (some (.njoin G false 10 4 (some 5))) 0x10000000100 5
def joining : Op :=
  { ctx := 0, gid := some Place.gid, sd := some 10
    work := .name { issuer := g.name, target := 0x10000000100, act := .join false 5, mask := 0xFFFFFFFF, home := some (0, 1) } }
/-- Entry 1 of the name table at 0x200000: a device group (kind 1) in state RUNNING (1), its own. -/
def entryOf (rights : Nat) : NameEntry := { (NameEntry.ofNat 0) with rights := rights, kind := 1, state := 1 }
def N (op : Op) (gr : Group) (e : NameEntry) : State :=
  { (on gr M).writeBytes (0x4200000 + 32) (toBytes 32 e.toNat) with ops := [(0, op)], nextOp := 1, timebase := 5 }
theorem written_unlogged {s : State} (a : Nat) (bs : List Byte) (h : s.contexts = [(0, Place.context)]) (os : Tbl Op) (n : Nat)
    (t : Word64) : Unlogged { s.writeBytes a bs with ops := os, nextOp := n, timebase := t } 0 := by
  refine placed_unlogged ?_
  rw [writeBytes_eq]
  exact h
theorem N_unlogged (op : Op) (gr : Group) (e : NameEntry) : Unlogged (N op gr e) 0 := written_unlogged _ _ rfl _ _ _

theorem wit_nameTimeouts :
    ((N joining nparked (entryOf 31)).group? Place.gid = some nparked ∧ nparked.phase = .resident ∧ Unlogged (N joining nparked (entryOf 31)) 0 ∧
      (nparked.fibre 0).ended = false ∧ (nparked.fibre 0).kind ≠ .empty ∧ (nparked.fibre 0).deadline ≠ 0 ∧
      (nparked.fibre 0).deadline ≤ (N joining nparked (entryOf 31)).timebase.toNat ∧ (nparked.fibre 0).wait = .npark ∧
      (nparked.fibre (lowest (nparked.strokeOf 0))).instr = some (.npark G 10 (some 4)) ∧ nparked.sys.psig = 0) ∧
      ((njoined.fibre 0).wait = .njoin ∧ joinOf (N joining njoined (entryOf 31)) Place.gid (njoined.strokeOf 0) = some (0, 0, 1) ∧
        (N joining njoined (entryOf 31)).op? 0 = some joining ∧
        (N joining njoined (entryOf 31)).entry? 0 1 = some (entryOf 31)) := by
  refine ⟨⟨?_, ?_, N_unlogged _ _ _, ?_, ?_, ?_, ?_, ?_, ?_, ?_⟩, ?_, ?_, ?_, ?_⟩ <;> decide +kernel

/-- An answer is on its way to s9, the register of the WAITW. -/
def gLate : Group := { waiting 8 with pending := [(9, 0)] }
theorem wit_wordEvents_registers :
    (Free (waiting 8) 9 ∧ Free (waiting 2) 9) ∧ gLate.pending.get? (9 : SReg).toNat = some 0 ∧ (gLate.fibre 0).wait = .waitw ∧
      (gLate.fibre 0).instr = some (.waitw G none .sh false 1 9 8 4 0 0) ∧ (gLate.rdS 8).toNat % 2 ^ 32 = 1 := by
  refine ⟨⟨⟨?_, ?_⟩, ?_, ?_⟩, ?_, ?_, ?_, ?_⟩ <;> decide +kernel
/-- The context of the target has been freed. -/
def joiningAdrift : Op :=
  { ctx := 0, gid := some Machine.Place.gid, sd := some 10
    work := .name { issuer := g.name, target := 0x10000000100, act := .join false 5, mask := 0xFFFFFFFF, home := some (0, 1), adrift := true } }
theorem wit_nameTimeouts_adrift :
    joinOf (N joiningAdrift njoined (entryOf 31)) Machine.Place.gid (njoined.strokeOf 0) = some (0, 0, 1) ∧
      (N joiningAdrift njoined (entryOf 31)).op? 0 = some joiningAdrift ∧ joiningAdrift.gid = some Machine.Place.gid := by
  refine ⟨?_, ?_, ?_⟩ <;> decide +kernel
theorem wit_nameTimeouts_registers : Free nparked 10 ∧ Free njoined 10 ∧ Free njoined (10 + 1) := by
  refine ⟨⟨?_, ?_⟩, ⟨?_, ?_⟩, ?_, ?_⟩ <;> decide +kernel
/-! ## Witnesses: the copy engine -/

/-- A copy of 64 bytes from the window to shared memory: its piece 1; the same with a barrier that waits for an arrival. -/
def bar0 : BarAt := ⟨Place.cohort, false, 0⟩
def linearBar : CopyOp := { linear with dst := .chip (placeShared Place.cohort) 64, bar := some bar0 }
theorem unparked {s : State} (h : s.dies = []) (o : Nat) : Unparked s o := fun d _ _ hd => by simp [h] at hd

/-- Memory with a count barrier at address 0 of shared memory. -/
def QB (w : Work) (o : Nat) : State :=
  { (on gc M).writeBytes (placeShared Place.cohort) (toBytes 32 o) with ops := [(0, opOf w)], nextOp := 1, timebase := 0 }
theorem QB_unlogged (w : Work) (o : Nat) : Unlogged (QB w o) 0 := written_unlogged _ _ rfl _ _ _

theorem pieceDue {s : State} {k : Nat} {c : CopyOp} (ho : s.op? 0 = some (opOf (.copy c))) (hc : c.code = none)
    (hk : k ∉ c.done ∧ k ∉ c.uncounted) (hd : s.dies = []) (hu : Unlogged s 0) (hx : s.xlat = []) :
    PieceDue s 0 k (opOf (.copy c)) c where
  isOp := ho
  isCopy := rfl
  going := .inl hc
  todo := hk
  unparked := fun d _ h => by simp [hd] at h
  unlogged := hu
  fresh := fun e h => by simp [hx] at h
theorem qDue {c : CopyOp} {k : Nat} (hc : c.code = none) (hk : k ∉ c.done ∧ k ∉ c.uncounted) :
    PieceDue (Q (.copy c)) 0 k (opOf (.copy c)) c := pieceDue rfl hc hk rfl (placed_unlogged rfl) rfl
theorem paged_in {s : State} {who : Who} {page pa a : Nat} (hw : s.walk 0 0 who (page * 65536) = .ok pa) (ha : absentTier s pa = false)
    (h : a / 65536 = page) : Paged s 0 0 who a (pa + a % 65536) := ⟨pa, by rw [h]; exact hw, ha, rfl⟩

/-- Piece 1 of a copy from the window into shared memory, without a barrier and with one that it leaves open, and one that it settles;
from virtual memory at 0x300000; and of a copy of a range onto itself, 32 bytes on. -/
def virtual : CopyOp := { linear with src := .vm 0x300000, dst := .vm 0x310000 }
def onto : CopyOp := { linear with src := .chip (placeShared Place.cohort) 0, dst := .chip (placeShared Place.cohort) 32 }
theorem wit_pieceCopied :
    (PieceDue (Q (.copy linear)) 0 1 (opOf (.copy linear)) linear ∧ linear.kind = .linear ∧ 1 < (linear.dst.off % 32 + linear.len + 31) / 32 ∧
      (∀ j, Lies (Q (.copy linear)) 0 (pkgOf 0) .copyRead linear.src j (placeWindow 0 0 0 + 0 + j)) ∧
      ∀ j, Lies (Q (.copy linear)) 0 (pkgOf 0) .copyWrite linear.dst j (placeShared Place.cohort + 0 + j)) ∧
      (PieceDue (QB (.copy linearBar) O2) 0 1 (opOf (.copy linearBar)) linearBar ∧ linearBar.bar = some bar0 ∧
        bar0.key + 32 ≤ placeShared Place.cohort + 64 + 32 ∧ (barrier ((QB (.copy linearBar) O2).readNat bar0.key 32)).magic = 0x5CB1 ∧
        ¬ ((barrier ((QB (.copy linearBar) O2).readNat bar0.key 32)).delivered 32).settles) ∧
      (∀ j, j < 64 → Lies (Q (.copy virtual)) 0 (pkgOf 0) .copyRead virtual.src j (0x4300000 + (0x300000 + j) % 65536)) ∧
      (∀ j, j < 64 → Lies (Q (.copy virtual)) 0 (pkgOf 0) .copyWrite virtual.dst j (0x4310000 + (0x310000 + j) % 65536)) ∧
      onto.overlaps = true :=
  ⟨⟨qDue rfl (by decide), rfl, by decide, fun _ => rfl, fun _ => rfl⟩,
    ⟨pieceDue (by decide +kernel) rfl (by decide) (by decide +kernel) (QB_unlogged _ _) (by decide +kernel), rfl, by decide +kernel,
      by decide +kernel, by decide +kernel⟩,
    fun j h => paged_in (page := 0x30) (by decide +kernel) (by decide +kernel) (by omega),
    fun j h => paged_in (page := 0x31) (by decide +kernel) (by decide +kernel) (by omega), by decide +kernel⟩

/-- The bytes of the piece are all that the barrier still waits for; nobody waits on it. -/
def OB32 : Nat := cb 7 0 0 0 0 32
theorem written_groups {s : State} {gs : Tbl Group} (a : Nat) (bs : List Byte) (h : s.groups = gs) (os : Tbl Op) (n : Nat)
    (t : Word64) : ({ s.writeBytes a bs with ops := os, nextOp := n, timebase := t } : State).groups = gs := by
  show (s.writeBytes a bs).groups = gs
  rw [writeBytes_eq]
  exact h
theorem quiet_of {s : State} {k : Nat} {q : Group} (h : s.groups = [(k, q)]) (hw : q.waiting .cbwait = []) (key : Nat) :
    QuietWaits s key := fun n r m hr hm => by
  simp only [State.group?, h, Tbl.get?] at hr
  split at hr <;> simp at hr
  subst hr
  simp [hw] at hm
theorem wit_pieceCopied_settles :
    ((barrier ((QB (.copy linearBar) OB32).readNat bar0.key 32)).delivered 32).settles ∧
      sound (QB (.copy linearBar) OB32) (some bar0) = some bar0 ∧ QuietWaits (QB (.copy linearBar) OB32) bar0.key :=
  ⟨by decide +kernel, by decide +kernel, quiet_of (written_groups _ _ rfl _ _ _) (by decide +kernel) _⟩

/-- A fan-out whose one receiver has all of its one piece; copies that have written everything, without a flag and with one at
the last 8 bytes of the window. -/
def recv : Receiver := ⟨Place.cohort, 64, bar0, false⟩
def fanout : CopyOp := { linear with kind := .fanout [recv] bar0, len := 32, done := [0] }
def fanned : CopyOp := { fanout with done := [] }
theorem wit_pieceFanned :
    PieceDue (Q (.copy fanned)) 0 (2 ^ 32 * 0 + 0) (opOf (.copy fanned)) fanned ∧ [recv][0]? = some recv ∧ fanned.len < 2 ^ 32 ∧
      0 < (recv.off % 32 + fanned.len + 31) / 32 ∧ bar0.key + 32 ≤ placeShared recv.cohort + recv.off :=
  ⟨qDue rfl (by decide), rfl, by decide, by decide, by decide +kernel⟩
def ended : CopyOp := { linear with done := [0, 1], bytes := 64 }
def flagged : CopyOp := { ended with flag := some (65528, 7) }
theorem wit_copyEnds :
    ((QB (.copy fanout) O2).op? 0 = some (opOf (.copy fanout)) ∧ Unlogged (QB (.copy fanout) O2) 0 ∧ recv.acked = false ∧
      (∀ k, k ∈ fanout.piecesFor 0 → k ∈ fanout.done) ∧ (barrier ((QB (.copy fanout) O2).readNat bar0.key 32)).magic = 0x5CB1 ∧
      (barrier ((Q (.copy fanout)).readNat bar0.key 32)).magic ≠ 0x5CB1) ∧
      (ended.kind = .linear ∧ Unparked (Q (.copy ended)) 0 ∧ ended.flying = [] ∧ ended.uncounted = [] ∧ ended.written = true ∧ ended.flag = none ∧
        Awaits (Q (.copy ended)) 0 (opOf (.copy ended)) Place.gid gc 20) ∧
      (flagged.flag = some (65528, 7) ∧ flagged.flagWritten = false ∧ flagged.written = true ∧
        65528 % 2 ^ 37 + 8 ≤ (Q (.copy flagged)).windowSize 0 (65528 / 2 ^ 40 % 256) (65528 / 2 ^ 37 % 8)) ∧
      65528 / 2 ^ 40 % 256 = pkgOf flagged.core % 256 ∧ 2 ^ 40 / 2 ^ 40 % 256 ≠ pkgOf ended.core % 256 ∧
      ({ ended with flag := some (2 ^ 40, 7), code := some 0x14 } : CopyOp).flagWritten = false :=
  ⟨⟨by decide +kernel, QB_unlogged _ _, rfl, by decide +kernel, by decide +kernel, by decide +kernel⟩,
    ⟨rfl, unparked rfl _, rfl, rfl, by decide +kernel, rfl, rfl, rfl, by decide +kernel, by decide +kernel, by decide +kernel⟩,
    ⟨rfl, rfl, by decide +kernel, by decide +kernel⟩, by decide, by decide, rfl⟩

/-- A layout record at 0x400000, of one dimension: 8 elements of i32 in a box of 8 (R261); 0x410000 holds none. -/
def layoutBits : Nat := 0x5A17 + 1 * 2 ^ 16 + 2 * 2 ^ 32 + 8 * 2 ^ 256 + 8 * 2 ^ 288 + 4 * 2 ^ 320
def layout : Layout := { ty := .i32, z := 4, fill := zeros 4, rot := 0, dims := [⟨8, 8, 4⟩] }
def tensor (record : Nat) : CopyOp :=
  { linear with kind := .tensor false record [0] none, box := some (.sh, 0), dst := .vm 0, src := .vm 0, len := 0 }
def QT (record : Nat) : State :=
  { (on gc M).writeBytes 0x4400000 (toBytes 256 layoutBits) with ops := [(0, opOf (.copy (tensor record)))], nextOp := 1, timebase := 0 }
theorem wit_recordRead :
    ((QT 0x400000).op? 0 = some (opOf (.copy (tensor 0x400000))) ∧ (QT 0x400000).group? Place.gid = some gc ∧
      (tensor 0x400000).code = none ∧ Unparked (QT 0x400000) 0 ∧ (QT 0x400000).xlat = [] ∧ 0x400000 % 65536 + 256 ≤ 65536 ∧
      (QT 0x400000).walk 0 (pkgOf 0) .copyRead (0x400000 / 65536 * 65536) = .ok 0x4400000 ∧ absentTier (QT 0x400000) 0x4400000 = false ∧
      readLayout ((QT 0x400000).readNat 0x4400000 256) 1 = some layout ∧ layout.inSpace (tensor 0x400000).src.off [0] = true ∧
      (QT 0x400000).boxKey Place.gid gc (tensor 0x400000) .sh 0 layout.boxBytes = .ok (placeShared Place.cohort) ∧ (QT 0x400000).locks = [] ∧
      (QT 0x400000).context? 0 = some Place.context ∧ Place.context.confidential = false) ∧
      (QT 0x410000).walk 0 (pkgOf 0) .copyRead (0x410000 / 65536 * 65536) = .ok 0x4410000 ∧
      readLayout ((QT 0x410000).readNat 0x4410000 256) 1 = none := by
  refine ⟨⟨?_, ?_, rfl, unparked ?_ _, ?_, ?_, ?_, ?_, ?_, ?_, ok_of ?_, ?_, ?_, ?_⟩, ?_, ?_⟩ <;> decide +kernel

/-- Elements 0 to 7 of the layout's box, moved by 4: the last four are out of range. The tensor lies at 0x300000. -/
def gather : CopyOp :=
  { tensor 0x400000 with
    kind := .tensor false 0x400000 [4] (some layout), box := none, dst := .chip (placeShared Place.cohort) 0, src := .vm 0x300000
    len := 32 }
def scatter : CopyOp :=
  { gather with kind := .tensor true 0x400000 [4] (some layout), dst := .vm 0x300000, src := .chip (placeShared Place.cohort) 0 }
theorem layout_of : readLayout layoutBits [(4 : Int)].length = some layout := by decide +kernel
theorem layout_small {e i : Nat} (he : e < boxSize layout) (hi : i < layout.z) : e < 8 ∧ i < 4 := ⟨he, hi⟩
theorem layout_at : ∀ e, e < 8 → tensorAt layout 0x300000 [4] e = if e < 4 then some (0x300010 + 4 * e) else none := by decide +kernel
theorem wit_pieceGathered :
    PieceDue (Q (.copy gather)) 0 0 (opOf (.copy gather)) gather ∧ Tensor gather false [4] layout ∧
      gather.len = boxSize layout * layout.z ∧ 0 < (0 % 32 + gather.len + 31) / 32 ∧ boxAt layout 7 = 28 ∧
      (∀ e i A, e < boxSize layout → i < layout.z → tensorAt layout 0x300000 [4] e = some A →
        Paged (Q (.copy gather)) 0 (pkgOf gather.core) .copyRead (A + i) (0x4300000 + (A + i) % 65536)) := by
  refine ⟨qDue rfl (by decide), ⟨⟨_, rfl⟩, rfl, _, layout_of⟩, by decide, by decide, by decide +kernel, fun e i A he hi hA => ?_⟩
  obtain ⟨he, hi⟩ := layout_small he hi
  rw [layout_at e he] at hA
  split at hA <;> simp at hA
  exact paged_in (page := 0x30) (by decide +kernel) (by decide +kernel) (by omega)
theorem wit_pieceScattered :
    PieceDue (Q (.copy scatter)) 0 0x18000 (opOf (.copy scatter)) scatter ∧ Tensor scatter true [4] layout ∧
      layout.inSpace 0x300000 [4] = true ∧ Paged (Q (.copy scatter)) 0 (pkgOf scatter.core) .copyWrite (32 * 0x18000) (0x4300000 + 0) ∧
      tensorAt layout 0x300000 [4] 0 = some 0x300010 ∧ (0x300010 + 0) / 32 = 0x18000 ∧ scatter.bar = none :=
  ⟨qDue rfl (by decide), ⟨⟨_, rfl⟩, rfl, _, layout_of⟩, by decide +kernel,
    paged_in (page := 0x30) (by decide +kernel) (by decide +kernel) (by decide), by decide +kernel, by decide, rfl⟩

/-- Pages that fail: one with no entry, at 2^26; one of images, at 2^27 of tables that have one there. -/
def unmapped (c : CopyOp) : CopyOp := { c with src := .vm 0x4000000 }
def images (c : CopyOp) : State := { (on gc M).writeBytes 0x4010 (toBytes 8 0x800009F) with ops := [(0, opOf (.copy c))], nextOp := 1, timebase := 0 }
def imaged : CopyOp := { linear with src := .vm 0x8000000 }
def outwards : CopyOp := { linear with dst := .vm 0x4000000 }
theorem not_paged {s : State} {who : Who} {page : Nat} (h : ∀ pa, s.walk 0 0 who (page * 65536) ≠ .ok pa) :
    ¬ ∃ x, Paged s 0 0 who (page * 65536) x := by
  rintro ⟨x, pa, hw, -, -⟩
  rw [Nat.mul_div_cancel _ (by decide)] at hw
  exact h pa hw
theorem walk_fails {w v : Walk} (h : w = v) (hv : (match v with | .ok _ => false | _ => true) = true) : ∀ pa, w ≠ .ok pa := by
  rintro pa rfl
  subst h
  simp at hv
theorem wit_pieceFaults :
    (PieceDue (Q (.copy (unmapped linear))) 0 1 (opOf (.copy (unmapped linear))) (unmapped linear) ∧ (unmapped linear).overlaps = false ∧
      (∃ j, 32 * 1 - 0 % 32 ≤ j ∧ j < min 64 (32 * 2 - 0 % 32) ∧ (0x4000000 + j) / 65536 = 1024 ∧ ¬ Ahead (unmapped linear) j) ∧
      (∀ j, 32 ≤ j → j < 64 → ¬ (0x4000000 + j) / 65536 < 1024) ∧
      (Q (.copy (unmapped linear))).walk 0 0 .copyRead (1024 * 65536) = .invalid ∧
      ¬ (∃ x, Paged (Q (.copy (unmapped linear))) 0 0 .copyRead (1024 * 65536) x) ∧
      ∃ i, i < 512 ∧ ((Q (.copy (unmapped linear))).die (dieOf 0)).faults.get? i = none) ∧
      (PieceDue (images imaged) 0 1 (opOf (.copy imaged)) imaged ∧ (images imaged).walk 0 0 .copyRead (2048 * 65536) = .imagePage ∧
        ¬ ∃ x, Paged (images imaged) 0 0 .copyRead (2048 * 65536) x) ∧
      (PieceDue (Q (.copy (unmapped fanned))) 0 (2 ^ 32 * 0 + 0) (opOf (.copy (unmapped fanned))) (unmapped fanned) ∧
        ¬ Ahead (unmapped fanned) 0) ∧
      (PieceDue (Q (.copy (unmapped gather))) 0 0 (opOf (.copy (unmapped gather))) (unmapped gather) ∧
        Tensor (unmapped gather) false [4] layout ∧ tensorAt layout 0x4000000 [4] 0 = some 0x4000010) ∧
      (PieceDue (Q (.copy outwards)) 0 1 (opOf (.copy outwards)) outwards ∧
        (Q (.copy outwards)).walk 0 0 .copyWrite ((0x4000000 + 32) / 65536 * 65536) = .invalid) ∧
      PieceDue (Q (.copy { scatter with dst := .vm 0x4000000 })) 0 0x200000 (opOf (.copy { scatter with dst := .vm 0x4000000 }))
        { scatter with dst := .vm 0x4000000 } ∧ layout.inSpace 0x4000000 [4] = true ∧ 1024 = 32 * 0x200000 / 65536 := by
  have w1 : (Q (.copy (unmapped linear))).walk 0 0 .copyRead (1024 * 65536) = .invalid := by decide +kernel
  have w2 : (images imaged).walk 0 0 .copyRead (2048 * 65536) = .imagePage := by decide +kernel
  exact ⟨⟨qDue rfl (by decide), by decide +kernel, ⟨32, by decide, by decide, by decide, by rintro ⟨h, -⟩; revert h; decide +kernel⟩, fun j h1 h2 => by omega, w1,
      not_paged (walk_fails w1 rfl), 0, by decide, by decide +kernel⟩,
    ⟨pieceDue (by decide +kernel) rfl (by decide) (by decide +kernel) (written_unlogged _ _ rfl _ _ _) (by decide +kernel), w2,
      not_paged (walk_fails w2 rfl)⟩,
    ⟨qDue rfl (by decide), by rintro ⟨-, h⟩; revert h; decide +kernel⟩,
    ⟨qDue rfl (by decide), ⟨⟨_, rfl⟩, rfl, _, layout_of⟩, by decide +kernel⟩, ⟨qDue rfl (by decide), by decide +kernel⟩,
    qDue rfl (by decide), by decide +kernel, by decide⟩

/-- A fault queue of 16 slots at address 0 of the window with one slot left. -/
def fault0 : FaultEntry := { ctx := 0, pkg := 0, page := 3, access := 1, pieces := [(0, 0)], merge := 0, thread := 0, seq := 0 }
def FQ : State :=
  { (on g M).writeBytes (placeWindow 0 0 0) (toBytes 12 (16 + 15 * 2 ^ 32)) with dies := [(0, { faults := [(0, fault0)] })] }
theorem wit_faultPosted :
    (FQ.die 0).faults.get? 0 = some fault0 ∧ fault0.posted = none ∧ FQ.context? fault0.ctx = some Place.context ∧
      Place.context.faultq < 2 ^ 48 ∧ spKey fault0.ctx Place.context.faultq = placeWindow 0 0 0 ∧
      FQ.readNat (placeWindow 0 0 0) 4 = 2 ^ 4 ∧
      (FQ.readNat (placeWindow 0 0 0 + 4) 4 + 2 ^ 32 - FQ.readNat (placeWindow 0 0 0 + 8) 4) % 2 ^ 32 < 2 ^ 4 ∧
      0 + (32 + 32 * (FQ.readNat (placeWindow 0 0 0 + 4) 4 % 2 ^ 4)) + 32 ≤ FQ.windowSize fault0.ctx 0 0 := by
  refine ⟨?_, ?_, ?_, ?_, ?_, ?_, ?_, ?_⟩ <;> decide +kernel

/-- A matched pair of 64 bytes, from 4,096 to 64 in the window; and a transfer that ended at issue. -/
def half (send : Bool) (mate tile : Nat) : XferOp :=
  { send := send, pkg := 0, reg := 3, core := 0, tile := (placeWindow 0 0 0, tile), len := 64, bar := bar0, thread := 0
    turn := some 0, mate := some mate, moves := some 64 }
def QX : State :=
  { (on gc M).writeBytes (placeShared Place.cohort) (toBytes 32 O2) with
    ops := [(0, opOf (.xfer (half false 1 64))), (1, opOf (.xfer (half true 0 4096)))], nextOp := 2, timebase := 0 }
def turned : XferOp := { half true 0 0 with turn := none, mate := none, moves := none, code := some 0x19 }
theorem wit_transferMoves :
    (QX.xfer? 0 = some (opOf (.xfer (half false 1 64)), half false 1 64) ∧ Unlogged QX 0 ∧
      QX.xfer? 1 = some (opOf (.xfer (half true 0 4096)), half true 0 4096) ∧ 0 < 64 ∧ 1 < (64 % 32 + 64 + 31) / 32 ∧
      1 ∉ (half false 1 64).done ∧ 1 ∉ (half false 1 64).uncounted ∧ (sound QX (some bar0)).isSome = true ∧
      ¬ ((barrier (QX.readNat bar0.key 32)).delivered 32).settles ∧ placeWindow 0 0 0 + 64 + 64 ≤ bar0.key) ∧
      (Q (.xfer turned)).xfer? 0 = some (opOf (.xfer turned), turned) ∧ turned.turn = none ∧
      Awaits (Q (.xfer turned)) 0 (opOf (.xfer turned)) Place.gid gc 20 :=
  ⟨⟨by decide +kernel, written_unlogged _ _ rfl _ _ _, by decide +kernel, by decide, by decide, by decide, by decide,
    by decide +kernel, by decide +kernel, by decide +kernel⟩, by decide +kernel, rfl, rfl, rfl, by decide +kernel, by decide +kernel, by decide +kernel⟩

/-! ## Witnesses: the matrix engine -/

/-- A queued MACQ of one fibre for the one slot that is left; a holder that gives up; an island whose refill is due. -/
def gq : Group := g.onFibres 1 fun x => { x with wait := .engine }
def entry0 : QueueEntry := { gid := Place.gid, mask := 1, n := 1, sd := 10, team := none }
def isle : Island := { units := 100, balance := 15, refillAt := 1 }
def K : State :=
  { on gq M with
    holders := [(0, { hold with closing := true })], nextOp := 1, cores := [(0, { queue := [entry0] })], islands := [(0, isle)]
    timebase := 1050 }
theorem wit_slotEvents :
    ((K.core 0).queue = [entry0] ∧ K.group? entry0.gid = some gq ∧ gq.phase = .resident ∧ gq.core = 0 ∧
      entry0.n ≤ (K.freeSlots 0).length ∧ Unlogged K gq.ctx) ∧
      (K.holders.get? 0 = some { hold with closing := true } ∧ K.enteredOn 0 = false ∧ K.cohort? hold.cohort = some Place.cohortRec ∧
        Place.cohortRec.core = some 0) ∧
      0 < (K.island 0).refillAt ∧ (K.island 0).refillAt ≤ K.timebase.toNat / 1050 := by
  refine ⟨⟨?_, ?_, ?_, ?_, ?_, placed_unlogged rfl⟩, ⟨?_, ?_, ?_, ?_⟩, ?_, ?_⟩ <;> decide +kernel

/-- A loop of one step, whose estimate is 15, on an island with a balance of 15; the wait's last tick; an MZERO; an
operation that has run. -/
def loop1 : MatOp :=
  { kind := .loop .bf16 .bf16 false 1 0 0 0 0 32 0, core := 0, cohort := Place.cohort, holder := some 0, slot := 4
    entered := some 0, team := [0], readyAt := some 0, thread := 0 }
def zero4 : MatOp := { kind := .zero, core := 0, cohort := Place.cohort, holder := some 0, slot := 4, entered := some 0, thread := 0 }
def QM (m : MatOp) (now : Word64) : State :=
  { on gc M with ops := [(0, opOf (.matrix m))], nextOp := 1, holders := [(0, hold)], islands := [(0, isle)], timebase := now }
theorem wit_matrixMoves :
    ((QM loop1 0).op? 0 = some (opOf (.matrix loop1)) ∧ (QM loop1 0).loopReady loop1 = true ∧ loop1.readyAt = some 0 ∧
      (QM loop1 0).firstToStart loop1 = true ∧
      ((min (loopSteps loop1 * (QM loop1 0).estimate loop1) ((QM loop1 0).island 0).units.toNat : Nat) : Int) ≤
        ((QM loop1 0).island 0).balance ∧
      0 + 67200 ≤ (QM loop1 67200).timebase.toNat) ∧
      (zero4.kind = .zero ∧ zero4.code = none ∧ zero4.computed = false ∧ zero4.entered.isSome = true ∧ (QM zero4 0).slotClear zero4 = true ∧
        (QM zero4 0).holders.get? 0 = some hold ∧ hold.slots[zero4.slot]? = some 4) ∧
      ({ zero4 with computed := true } : MatOp).computed = true ∧ Unlogged (QM { zero4 with computed := true } 0) 0 ∧
      Awaits (QM { zero4 with computed := true } 0) 0 (opOf (.matrix { zero4 with computed := true })) Place.gid gc 20 :=
  ⟨⟨by decide +kernel, by decide +kernel, rfl, by decide +kernel, by decide +kernel, by decide +kernel⟩,
    ⟨rfl, rfl, rfl, rfl, by decide +kernel, by decide +kernel, by decide +kernel⟩, rfl, placed_unlogged rfl, rfl, rfl,
    by decide +kernel, by decide +kernel, by decide +kernel⟩

/-- Its B registers; a loop that has started, alone and with the MSACC of a pair; the state once they have been read. -/
def bRegs : List Nat := (List.range 16).map (32 + ·)
def loopB (part : Bool) : MatOp :=
  { loop1 with kind := .loop .bf16 .bf16 part 1 0 0 0 0 32 0, started := true, partner := if part then some 1 else none }
def saccB : MatOp :=
  { kind := .sacc 0 0 1, core := 0, cohort := Place.cohort, holder := some 0, slot := 4, entered := some 1, team := [1], partner := some 0, thread := 0 }
def QP (part : Bool) : State :=
  { QM loop1 0 with ops := [(0, opOf (.matrix (loopB part))), (1, opOf (.matrix saccB))], nextOp := 2 }
def QP1 (part : Bool) : State := ((QP part).fillAll Machine.Place.gid bRegs).1
def gB : Group := ((QP1 false).group? Machine.Place.gid).getD gc
theorem streamedB (part : Bool) : Streamed 1 (QP1 part) [0] (QP part) := by
  have h : (QP part).streamed 1 0 = some (Machine.Place.gid, bRegs) := by cases part <;> decide +kernel
  have k : ((QP part).fillAll Machine.Place.gid bRegs).2 = none := by cases part <;> decide +kernel
  simp only [Streamed, h]
  exact ⟨_, Prod.ext rfl k, rfl⟩
theorem membersB (part : Bool) : Members (QP1 part) [0] (fun _ => gB) (fun _ => 32) (fun _ => 0) := by
  refine ⟨Or.inl rfl, fun c hc => ?_⟩
  obtain rfl : c = 0 := by simpa using hc
  refine ⟨0, opOf (.matrix (loopB part)), loopB part, Machine.Place.gid, .bf16, .bf16, part, 1, 0, 0, 0, 0, by simp, ?_, rfl, rfl, rfl, rfl, ?_,
    fun p' q' h _ _ => by simpa using h⟩
  · cases part <;> decide +kernel
  · cases part <;> decide +kernel
def load4 : MatOp := { zero4 with kind := .load .f16 0 256 }
def store4 : MatOp := { zero4 with kind := .store .bf16 .rne false 0 256 }
theorem wit_matrixResults :
    ((QP false).op? 0 = some (opOf (.matrix (loopB false))) ∧ (loopB false).code = none ∧ (loopB false).computed = false ∧
      (QP false).holders.get? 0 = some hold ∧ hold.slots[(loopB false).slot]? = some 4 ∧ (loopB false).started = true) ∧
      ((QP true).op? 0 = some (opOf (.matrix (loopB true))) ∧ (loopB true).partner = some 1 ∧ (QP true).matrix? 1 = some saccB ∧
        saccB.holder = some 0 ∧ hold.slots[saccB.slot]? = some 4) ∧
      ((QM load4 0).op? 0 = some (opOf (.matrix load4)) ∧ (QM load4 0).slotClear load4 = true) ∧
      (QM store4 0).op? 0 = some (opOf (.matrix store4)) ∧ (QM store4 0).slotClear store4 = true := by
  refine ⟨⟨?_, rfl, rfl, ?_, ?_, rfl⟩, ⟨?_, rfl, ?_, rfl, ?_⟩, ⟨?_, ?_⟩, ?_, ?_⟩ <;> decide +kernel

/-! ## Where the placed page stands -/

theorem readNat_congr {s t : State} {a n : Nat} (h : ∀ k, k < n → t.readByte (a + k) = s.readByte (a + k)) :
    t.readNat a n = s.readNat a n := by
  rw [State.readNat, State.readNat, readBytes_congr h]

/-- Where the placed tables lead a walk: bytes of the placed page stand behind it. -/
theorem placed_walk {s : State} {va : Nat} (hc : s.contexts = [(0, Machine.Place.context)]) (h0 : s.readNat 0 8 = 0x2001)
    (h1 : s.readNat 0x2000 8 = 0x4001) (h2 : s.readNat 0x4000 8 = 0x400009D) (hva : va < 2 ^ 26) {who : Who}
    (hw : who = .copyRead ∨ who = .copyWrite ∨ who = .imageRead ∨ who = .imageWrite) : s.walk 0 0 who va = .ok (0x4000000 + va) := by
  have hs : s.site? 0 0 = some { root := 0, spwin := [(0, 65536)] } := by
    simp [State.site?, State.context?, hc, Tbl.get?, Machine.Place.context, Machine.Place.root]
  have f46 : field va 46 10 = 0 := by simp only [field]; omega
  have f36 : field va 36 10 = 0 := by simp only [field]; omega
  have f26 : field va 26 10 = 0 := by simp only [field]; omega
  have hl : walkFrom s va levels 0 = .leaf 0x400009D 26 := by
    rw [levels, walkFrom, f46]
    simp only [Nat.mul_zero, Nat.add_zero, h0]
    rw [if_neg (by decide), if_neg (by decide), if_neg (by decide), show pteAddr 0x2001 = 0x2000 by decide, walkFrom, f36]
    simp only [Nat.mul_zero, Nat.add_zero, h1]
    rw [if_neg (by decide), if_neg (by decide), if_neg (by decide), show pteAddr 0x4001 = 0x4000 by decide, walkFrom, f26]
    simp only [Nat.mul_zero, Nat.add_zero, h2]
    rw [if_neg (by decide), if_pos (by decide), if_pos (by decide)]
  have hlt : ¬ 2 ^ 56 ≤ va := by omega
  have hpa : pteAddr 0x400009D + va % 2 ^ 26 = 0x4000000 + va := by
    rw [show pteAddr 0x400009D = 0x4000000 by decide, Nat.mod_eq_of_lt hva]
  simp only [State.walk, if_neg hlt, hs, hl]
  unfold leafOutcome
  rw [hpa]
  rcases hw with rfl | rfl | rfl | rfl <;> rfl

/-- The same whatever bytes stand in ranges of the page itself. -/
theorem placed_walk_mem {s : State} {va : Nat} {bs : List (Nat × Nat)} (hc : s.contexts = [(0, Machine.Place.context)])
    (h0 : s.readNat 0 8 = 0x2001) (h1 : s.readNat 0x2000 8 = 0x4001) (h2 : s.readNat 0x4000 8 = 0x400009D)
    (hb : ∀ b, b ∈ bs → 0x4000000 ≤ b.1) (hva : va < 2 ^ 26) (m : List Host.Cell)
    (hm : ∀ a, (∀ b, b ∈ bs → a < b.1 ∨ b.1 + b.2 ≤ a) → ({ s with mem := m } : State).readByte a = s.readByte a) {who : Who}
    (hw : who = .copyRead ∨ who = .copyWrite ∨ who = .imageRead ∨ who = .imageWrite) :
    ({ s with mem := m } : State).walk 0 0 who va = .ok (0x4000000 + va) := by
  have hr : ∀ a, a + 8 ≤ 0x4000000 → ({ s with mem := m } : State).readNat a 8 = s.readNat a 8 := fun a ha =>
    readNat_congr fun k hk => hm _ fun b hbm => Or.inl (by have := hb b hbm; omega)
  have e0 := (hr 0 (by decide)).trans h0
  have e1 := (hr 0x2000 (by decide)).trans h1
  have e2 := (hr 0x4000 (by decide)).trans h2
  exact placed_walk (s := { s with mem := m }) hc e0 e1 e2 hva hw

theorem placed_clear {s : State} (hc : s.contexts = [(0, Machine.Place.context)]) : Clear s 0 := fun c h => by
  have hctx : s.context? 0 = some Machine.Place.context := by simp [State.context?, hc, Tbl.get?]
  rw [hctx] at h; cases h; rfl

theorem stands_of {s : State} {va n : Nat} {bs : List (Nat × Nat)} (hc : s.contexts = [(0, Machine.Place.context)])
    (h0 : s.readNat 0 8 = 0x2001) (h1 : s.readNat 0x2000 8 = 0x4001) (h2 : s.readNat 0x4000 8 = 0x400009D)
    (hb : ∀ b, b ∈ bs → 0x4000000 ≤ b.1) (hv : va < 2 ^ 26) (hp : va % 65536 + n ≤ 65536) :
    Stands s 0 0 va n (0x4000000 + va) bs :=
  ⟨hp, placed_clear hc, fun m hm => ⟨placed_walk_mem hc h0 h1 h2 hb hv m hm (by simp), placed_walk_mem hc h0 h1 h2 hb hv m hm (by simp)⟩⟩

/-! ## Witnesses: names -/

/-- A second group, of name 2, under an entry at 0x200040, created by the first, which waits for an answer in s20 and s21. -/
def gT : Group := { g with index := 1, name := mkName 2 0 1, image := 0x110000 }
def gS : Group := { g with pending := [(20, 0), (21, 0)] }
def eAt (state : Nat) : NameEntry := { kind := 1, state := state, cridx := 1 }
def nop (act : NameAct) : NameOp := { issuer := g.name, target := mkName 2 0 1, act := act }
def D (act : NameAct) (e : NameEntry) (t : Group) : State :=
  { ({ M with groups := [(Place.gid, gS), (gid1, t)] } : State).writeBytes 0x4200040 (toBytes 32 e.toNat) with
    ops := [(0, opOf (.name (nop act)))], nextOp := 1, timebase := 0 }
theorem D_unlogged (act : NameAct) (e : NameEntry) (t : Group) : Unlogged (D act e t) 0 := written_unlogged _ _ rfl _ _ _
theorem written_contexts {s : State} {cs : Tbl Context} (a : Nat) (bs : List Byte) (h : s.contexts = cs) (os : Tbl Op) (n : Nat)
    (t : Word64) : ({ s.writeBytes a bs with ops := os, nextOp := n, timebase := t } : State).contexts = cs := by
  show (s.writeBytes a bs).contexts = cs
  rw [writeBytes_eq]
  exact h
theorem written_op (s : State) (o : Op) (n : Nat) (t : Word64) :
    ({ s with ops := [(0, o)], nextOp := n, timebase := t } : State).op? 0 = some o := rfl
theorem D_contexts (act : NameAct) (e : NameEntry) (t : Group) : (D act e t).contexts = [(0, Place.context)] :=
  written_contexts _ _ rfl _ _ _

theorem found_of {s : State} {ctx i : Nat} {n : Word64} {e : NameEntry}
    (h : (match s.findName ctx n with | .entry j f => j == i && f == e | _ => false) = true) : s.findName ctx n = .entry i e := by
  split at h
  · simp_all
  · simp at h

theorem due {act : NameAct} {e : NameEntry} {t : Group} (hg : (D act e t).group? Place.gid = some gS)
    (hf : (D act e t).firstOf 0 (opOf (.name (nop act))) (nop act) = true)
    (hn : (match (D act e t).findName (opOf (.name (nop act))).ctx (nop act).target with
      | .entry j f => j == 2 && f == e | _ => false) = true) (ha : e.alias_ = false) (hk : e.kind = 1) (hr : Machine.State.rights g.name 0 e = 31) :
    Due (D act e t) 0 (opOf (.name (nop act))) (nop act) Place.gid gS 20 0 2 e 31 where
  isOp := written_op _ _ _ _
  isName := rfl
  fromGrp := rfl
  lasting := rfl
  waits := ⟨rfl, rfl, hg, by decide +kernel, by decide +kernel, by decide +kernel⟩
  first := hf
  unlogged := D_unlogged act e t
  reaches := .inl ⟨rfl, found_of hn, ha, hr.symm⟩
  isGroup := hk

theorem named {act : NameAct} {e : NameEntry} {t : Group} (hn : (D act e t).groupNamed 0 (e.name 2) = some gid1)
    (hg : (D act e t).group? gid1 = some t) (hc : t.ctx = 0) (hi : nameIndex t.name = 2) :
    Named (D act e t) Place.gid 0 2 e gid1 t := ⟨hn, hg, hc, hi, by decide +kernel⟩

/-- Two strokes of it are parked in NPARK. -/
def gParks : Group :=
  (gT.onFibres 0xFF fun x => { x with wait := .npark, instr := some (.npark G 10 none) }).onFibres 0xF0 fun x =>
    { x with stroke := 4, instr := some (.npark G 11 none) }
theorem gParks_instr : ∀ f, f < 32 → (gParks.parkedFor .npark).getLsbD f = true →
    ∃ q, (q = 10 ∨ q = 11) ∧ (gParks.fibre (lowest (gParks.strokeOf f))).instr = some (.npark G q none) := by decide +kernel

theorem wit_runningRow :
    (Due (D .wake (eAt 1) gT) 0 (opOf (.name (nop .wake))) (nop .wake) Place.gid gS 20 0 2 (eAt 1) 31 ∧
      Named (D .wake (eAt 1) gT) Place.gid 0 2 (eAt 1) gid1 gT ∧ Alerts 0 (nop .wake) 31 (.deliverWake 0) 0x100000000 ∧
      gT.parkedFor .npark = 0) ∧
      (Due (D (.signal 5) (eAt 1) gT) 0 (opOf (.name (nop (.signal 5)))) (nop (.signal 5)) Place.gid gS 20 0 2 (eAt 1) 31 ∧
        Alerts 0 (nop (.signal 5)) 31 (.deliverSignal 0) 5) ∧
      (Due (D (.deposit 7 9) (eAt 1) gT) 0 (opOf (.name (nop (.deposit 7 9)))) (nop (.deposit 7 9)) Place.gid gS 20 0 2 (eAt 1) 31 ∧
        gT.pending.get? (112 + (7 : BitVec 3).toNat) = none) ∧
      Due (D .kill (eAt 1) gT) 0 (opOf (.name (nop .kill))) (nop .kill) Place.gid gS 20 0 2 (eAt 1) 31 ∧
      Due (D .stat (eAt 1) gT) 0 (opOf (.name (nop .stat))) (nop .stat) Place.gid gS 20 0 2 (eAt 1) 31 :=
  ⟨⟨due (by decide +kernel) (by decide +kernel) (by decide +kernel) rfl rfl (by decide +kernel),
      named (by decide +kernel) (by decide +kernel) rfl (by decide +kernel), .inl ⟨rfl, rfl, by decide, rfl⟩, by decide +kernel⟩,
    ⟨due (by decide +kernel) (by decide +kernel) (by decide +kernel) rfl rfl (by decide +kernel), .inr ⟨5, rfl, rfl, by decide, by decide⟩⟩,
    ⟨due (by decide +kernel) (by decide +kernel) (by decide +kernel) rfl rfl (by decide +kernel), by decide +kernel⟩,
    due (by decide +kernel) (by decide +kernel) (by decide +kernel) rfl rfl (by decide +kernel),
    due (by decide +kernel) (by decide +kernel) (by decide +kernel) rfl rfl (by decide +kernel)⟩

theorem wit_runningRow_parked :
    Due (D (.signal 5) (eAt 1) gParks) 0 (opOf (.name (nop (.signal 5)))) (nop (.signal 5)) Place.gid gS 20 0 2 (eAt 1) 31 ∧
      Named (D (.signal 5) (eAt 1) gParks) Place.gid 0 2 (eAt 1) gid1 gParks ∧ gParks.parkedFor .npark ≠ 0 ∧
      gParks.sys.psig ||| 5 ≠ 0 ∧ Unlogged (D (.signal 5) (eAt 1) gParks) gParks.ctx ∧ Free gParks 10 ∧ Free gParks 11 :=
  ⟨due (by decide +kernel) (by decide +kernel) (by decide +kernel) rfl rfl (by decide +kernel),
    named (by decide +kernel) (by decide +kernel) rfl (by decide +kernel), by decide +kernel, by decide +kernel, D_unlogged _ _ _,
    ⟨by decide +kernel, by decide +kernel⟩, by decide +kernel, by decide +kernel⟩

/-- An alias of entry 2 in the same table, as entry 3, with the right WAKE. -/
def alias3 : NameEntry := { kind := 1, state := 1, alias_ := true, rights := 1, loc := 2 * 2 ^ 24 }
def DA : State := (D .wake (eAt 1) gT).writeBytes 0x4200060 (toBytes 32 alias3.toNat)
theorem wit_reaches_alias :
    Reaches DA (opOf (.name (nop .wake))) { nop .wake with target := mkName 3 0 1 } 0 2 (eAt 1) 1 ∧ (1 : Nat).testBit 0 = true :=
  ⟨.inr ⟨3, alias3, found_of (by decide +kernel), rfl, rfl, by decide +kernel, by decide +kernel, by decide +kernel, by decide,
    by decide +kernel, by decide +kernel, by decide, rfl, by decide⟩, by decide⟩

/-- It is saved, its cohort has another group, and its image stands at 0x110000. -/
def gSaved : Group := { gT with phase := .parked }
theorem D_stands {act : NameAct} {e : NameEntry} {t : Group} {va n : Nat} {bs : List (Nat × Nat)}
    (h0 : (D act e t).readNat 0 8 = 0x2001) (h1 : (D act e t).readNat 0x2000 8 = 0x4001) (h2 : (D act e t).readNat 0x4000 8 = 0x400009D)
    (hb : ∀ b, b ∈ bs → 0x4000000 ≤ b.1) (hv : va < 2 ^ 26) (hp : va % 65536 + n ≤ 65536) :
    Stands (D act e t) 0 0 va n (0x4000000 + va) bs := stands_of (D_contexts _ _ _) h0 h1 h2 hb hv hp
theorem wit_parkedRow :
    (Due (D .wake (eAt 2) gSaved) 0 (opOf (.name (nop .wake))) (nop .wake) Place.gid gS 20 0 2 (eAt 2) 31 ∧
      Named (D .wake (eAt 2) gSaved) Place.gid 0 2 (eAt 2) gid1 gSaved ∧
      Stands (D .wake (eAt 2) gSaved) 0 (pkgOf gSaved.core) (gSaved.image + 0x608) 8 (0x4000000 + 0x110608) [(0x4110608, 8), (0x4200040, 32)] ∧
      EntryStands (D .wake (eAt 2) gSaved) 0 2 (0x4000000 + 0x200040) [(0x4110608, 8), (0x4200040, 32)] ∧
      apart (0x4110608, 8) (0x4200040, 32)) ∧
      Due (D (.signal 0) (eAt 2) gSaved) 0 (opOf (.name (nop (.signal 0)))) (nop (.signal 0)) Place.gid gS 20 0 2 (eAt 2) 31 ∧
      (Due (D (.deposit 7 9) (eAt 2) gSaved) 0 (opOf (.name (nop (.deposit 7 9)))) (nop (.deposit 7 9)) Place.gid gS 20 0 2 (eAt 2) 31 ∧
        Stands (D (.deposit 7 9) (eAt 2) gSaved) 0 0 (0x110000 + (0x80 + 8 * (112 + (7 : BitVec 3).toNat))) 8 (0x4000000 + 0x110438)
          [(0x4110438, 8), (0x4110610, 8)] ∧
        Stands (D (.deposit 7 9) (eAt 2) gSaved) 0 0 (0x110000 + 0x610) 8 (0x4000000 + 0x110610) [(0x4110438, 8), (0x4110610, 8)]) ∧
      Due (D .kill (eAt 2) gSaved) 0 (opOf (.name (nop .kill))) (nop .kill) Place.gid gS 20 0 2 (eAt 2) 31 ∧
      (∀ q, q ∈ (D .kill (eAt 2) gSaved).ops → (D .kill (eAt 2) gSaved).busyWork gid1 q.2 = false) ∧
      (D .kill (eAt 2) gSaved).joinsOn 0 2 = [] ∧ Machine.Place.gid ∈ Machine.Place.cohortRec.groups ∧ Machine.Place.gid ≠ gid1 ∧ gS.live ≠ 0 ∧
      (D .kill (eAt 2) gSaved).holdersOf gSaved = [] ∧
      EntryStands (D .kill (eAt 2) gSaved) 0 2 (0x4000000 + 0x200040) [(placeStack gid1, 2 ^ 80), (0x4200040, 32)] ∧
      apart (placeStack gid1, 2 ^ 80) (0x4200040, 32) := by
  refine ⟨⟨due ?_ ?_ ?_ rfl rfl ?_, named ?_ ?_ rfl ?_, D_stands ?_ ?_ ?_ (by decide) (by decide) (by decide),
      D_stands ?_ ?_ ?_ (by decide) (by decide) (by decide), Or.inl ?_⟩, due ?_ ?_ ?_ rfl rfl ?_,
    ⟨due ?_ ?_ ?_ rfl rfl ?_, D_stands ?_ ?_ ?_ (by decide) (by decide) (by decide), D_stands ?_ ?_ ?_ (by decide) (by decide) (by decide)⟩,
    due ?_ ?_ ?_ rfl rfl ?_, ?_, ?_, ?_, ?_, ?_, ?_, D_stands ?_ ?_ ?_ ?_ (by decide) (by decide), Or.inr ?_⟩
  all_goals decide +kernel

/-- Its entry is SWAPPED with an empty mailbox, then with 16 items; its entry is DEAD. -/
def eMail (n : Nat) : NameEntry := { eAt 4 with qcount := n }
def eDead : NameEntry := { eAt 5 with cause := 1, loc := 77 }
theorem wit_mailRow :
    (Due (D (.signal 5) (eMail 0) gT) 0 (opOf (.name (nop (.signal 5)))) (nop (.signal 5)) Place.gid gS 20 0 2 (eMail 0) 31 ∧
      ItemOf 0 (nop (.signal 5)) 31 (.deliverSignal 0) 0x50000000000000002 ∧
      EntryStands (D (.signal 5) (eMail 0) gT) 0 2 (0x4000000 + 0x200040)
        [((D (.signal 5) (eMail 0) gT).mailboxAt 0 (eMail 0) + 16 * 0, 16), (0x4200040, 32)] ∧
      apart ((D (.signal 5) (eMail 0) gT).mailboxAt 0 (eMail 0) + 16 * 0, 16) (0x4200040, 32)) ∧
      Due (D .kill (eMail 16) gT) 0 (opOf (.name (nop .kill))) (nop .kill) Place.gid gS 20 0 2 (eMail 16) 31 ∧
      (Due (D .wake eDead gT) 0 (opOf (.name (nop .wake))) (nop .wake) Place.gid gS 20 0 2 eDead 31 ∧
        ItemOf 0 (nop .wake) 31 (.deliverWake 0) 1 ∧ gS.pending.get? ((20 : SReg) + 1).toNat = some 0) ∧
      Due (D .stat eDead gT) 0 (opOf (.name (nop .stat))) (nop .stat) Place.gid gS 20 0 2 eDead 31 := by
  refine ⟨⟨due ?_ ?_ ?_ rfl rfl ?_, .inr (.inl ⟨5, rfl, rfl, by decide, by decide⟩),
      D_stands ?_ ?_ ?_ ?_ (by decide) (by decide), Or.inr ?_⟩, due ?_ ?_ ?_ rfl rfl ?_,
    ⟨due ?_ ?_ ?_ rfl rfl ?_, .inl ⟨rfl, rfl, by decide, rfl⟩, ?_⟩, due ?_ ?_ ?_ rfl rfl ?_⟩
  all_goals decide +kernel

/-- An entry of another creator gives nothing. -/
def eOther : NameEntry := { eAt 1 with cridx := 3, launch := 9 }
theorem wit_deniedRow :
    Due (D .wake eOther gT) 0 (opOf (.name (nop .wake))) (nop .wake) Place.gid gS 20 0 2 eOther 0 ∧ (0 : Nat).testBit 0 = false :=
  ⟨{ isOp := rfl, isName := rfl, fromGrp := rfl, lasting := rfl
     waits := ⟨rfl, rfl, by decide +kernel, by decide +kernel, by decide +kernel, by decide +kernel⟩
     first := by decide +kernel, unlogged := D_unlogged _ _ _
     reaches := .inl ⟨rfl, found_of (by decide +kernel), rfl, by decide +kernel⟩, isGroup := rfl }, by decide⟩

/-- A stroke of the issuer is parked in NJOIN. -/
theorem wit_joins :
    ((D (.join true 0) (eAt 1) gT).op? 0 = some (opOf (.name (nop (.join true 0)))) ∧ (nop (.join true 0)).home = none ∧
      (D (.join true 0) (eAt 1) gT).group? Place.gid = some gS ∧ gS.phase = .resident ∧
      (D (.join true 0) (eAt 1) gT).firstOf 0 (opOf (.name (nop (.join true 0)))) (nop (.join true 0)) = true ∧
      Unlogged (D (.join true 0) (eAt 1) gT) 0 ∧
      Reaches (D (.join true 0) (eAt 1) gT) (opOf (.name (nop (.join true 0)))) (nop (.join true 0)) 0 2 (eAt 1) 31 ∧ (eAt 1).state ≠ 5 ∧
      (31 : Nat).testBit 3 = true ∧ (nop (.join true 0)).issuer.toNat / 256 ≠ (nop (.join true 0)).target.toNat / 256 ∧
      (D (.join true 0) (eAt 1) gT).joinsAt ((D (.join true 0) (eAt 1) gT).homeDie 0 2) < 1024) ∧
      Reaches (D (.join true 0) eDead gT) (opOf (.name (nop (.join true 0)))) (nop (.join true 0)) 0 2 eDead 31 ∧
      Free njoined 20 ∧ Free njoined (20 + 1) ∧
      EntryStands (D (.join true 0) eDead gT) 0 2 (0x4000000 + 0x200040) [(0x4200040, 32)] := by
  refine ⟨⟨?_, ?_, ?_, rfl, ?_, D_unlogged _ _ _, .inl ⟨rfl, found_of ?_, rfl, ?_⟩, ?_, ?_, ?_, ?_⟩,
    .inl ⟨rfl, found_of ?_, rfl, ?_⟩, ⟨?_, ?_⟩, ⟨?_, ?_⟩, D_stands ?_ ?_ ?_ (by decide) (by decide) (by decide)⟩
  all_goals decide +kernel

/-! ## Witnesses: residency -/

/-- A context with an image pool of 16 MiB at 0x1000000. -/
def pooled : Context :=
  { Place.context with sites := [(0, { root := 0, poolAt := 0x1000000, poolSize := 0x1000000, spwin := [(0, 65536)] })] }
/-- A waiting cluster of one group, on a package that holds nothing. -/
def gWait : Group := { g with phase := .waiting }
def cWait : Cohort := { Place.cohortRec with core := none, begun := false }
def kWait : Cluster := { Place.cluster with state := .waiting, hw := none }
def A (now : Word64) : State :=
  { M with
    groups := [(Place.gid, gWait)], cohorts := [(Place.cohort, cWait)], clusters := [(Place.cohort, kWait)], contexts := [(0, pooled)]
    timebase := now }
/-- A waiting cluster of higher priority, whose chosen place the resident one fills. -/
def coh2 : Nat := State.cohortKey (State.launchKey 0 2) 0
def hungry : Cohort := { cWait with launch := State.launchKey 0 2, cluster := coh2, shared := 524288, groups := [] }
def kHungry : Cluster := { kWait with launch := State.launchKey 0 2, cohorts := [coh2], target := some 0 }
def B : State :=
  { T with
    cohorts := [(Place.cohort, Place.cohortRec), (coh2, hungry)], clusters := [(Place.cohort, Place.cluster), (coh2, kHungry)]
    launches := [(Place.launchKey, Place.launch), (State.launchKey 0 2, { Place.launch with num := 2, age := 1, prio := 1 })]
    contexts := [(0, pooled)] }

/-- A stopped cluster that is saved: its group's image is at 0x600000, its cohort's at 0x500000. -/
def gBack : Group := { g with phase := .parked, image := 0x600000 }
def cBack : Cohort := { cWait with begun := true, saved := true, image := 0x500000 }
def kBack : Cluster := { kWait with state := .stopped }
def AR : State :=
  { A 0 with groups := [(Machine.Place.gid, gBack)], cohorts := [(Machine.Place.cohort, cBack)], clusters := [(Machine.Place.cohort, kBack)] }

theorem ready_of {s : State} {hw : Nat} {k : Cluster} {binds : List Nat} {gid core : Nat} {q : Group}
    (h : ((s.placesOf hw k binds).map fun p => (p.gid, p.core)) = [(gid, core)]) (hg : s.group? gid = some q)
    (hr : (q.phase == .waiting || (q.phase == .parked &&
      (match s.vmRead q.ctx (pkgOf core) .imageRead q.image 0x1000 with | .ok _ => true | .fail _ _ => false) &&
      (match s.vmRead q.ctx (pkgOf core) .imageRead (q.image + 0x1000 + 128 * q.budget) q.stack with
        | .ok _ => true | .fail _ _ => false))) = true) : ∀ p, p ∈ s.placesOf hw k binds → Ready s p := by
  intro p hp
  have hp := List.mem_map_of_mem (f := fun p : State.Place => (p.gid, p.core)) hp
  rw [h, List.mem_singleton, Prod.mk.injEq] at hp
  refine ⟨q, by rw [hp.1]; exact hg, ?_⟩
  rw [hp.2]
  simp only [Bool.or_eq_true, Bool.and_eq_true, beq_iff_eq] at hr
  rcases hr with hr | ⟨⟨hp, h1⟩, h2⟩
  · exact .inl hr
  · refine .inr ⟨hp, ?_⟩
    split at h1
    · split at h2
      · exact ⟨_, _, by assumption, by assumption⟩
      · cases h2
    · cases h1

theorem wit_clusters_admission :
    ((A 0).cluster? (State.cohortKey (State.launchKey 0 1) 0) = some kWait ∧ (A 0).waits kWait = true ∧ 63 ∈ places kWait ∧
      (A 0).imagesFit kWait = true ∧ (A 0).roomAt Machine.Place.cohort kWait 63 = true ∧ (A 0).mayPass Machine.Place.cohort kWait = true ∧
      [63].length = ((A 0).placesOf 63 kWait [63]).length ∧ (A 0).bindsFit ((A 0).placesOf 63 kWait [63]) = true ∧
      Unlogged (A 0) kWait.ctx ∧ kWait.unlogged = false ∧ (((A 0).placesOf 63 kWait [63]).map (·.gid)).Nodup ∧
      (∀ p, p ∈ (A 0).placesOf 63 kWait [63] → Ready (A 0) p) ∧ gWait.phase = .waiting) := by
  refine ⟨?_, ?_, ?_, ?_, ?_, ?_, ?_, ?_, mkUnlogged (c := pooled) rfl rfl rfl rfl, ?_, ?_,
    ready_of (gid := Machine.Place.gid) (core := 252) (q := gWait) ?_ ?_ ?_, rfl⟩ <;> decide +kernel

theorem wit_clusters_restore :
    (AR.cluster? (State.cohortKey (State.launchKey 0 1) 0) = some kBack ∧ AR.waits kBack = true ∧ 63 ∈ places kBack ∧
      AR.imagesFit kBack = true ∧ AR.roomAt Machine.Place.cohort kBack 63 = true ∧ AR.mayPass Machine.Place.cohort kBack = true ∧
      [63].length = (AR.placesOf 63 kBack [63]).length ∧ AR.bindsFit (AR.placesOf 63 kBack [63]) = true ∧
      Unlogged AR kBack.ctx ∧ kBack.unlogged = false ∧ ((AR.placesOf 63 kBack [63]).map (·.gid)).Nodup ∧
      (∀ p, p ∈ AR.placesOf 63 kBack [63] → Ready AR p) ∧ AR.needsImages kBack = []) := by
  refine ⟨?_, ?_, ?_, ?_, ?_, ?_, ?_, ?_, mkUnlogged (c := pooled) rfl rfl rfl rfl, ?_, ?_,
    ready_of (gid := Machine.Place.gid) (core := 252) (q := gBack) ?_ ?_ ?_, ?_⟩ <;> decide +kernel

theorem wit_clusters :
    (((A 105000).waitingOn 0).head? = some (Machine.Place.cohort, kWait) ∧ kWait.blocking = false ∧
        kWait.waitFrom + 105000 ≤ (A 105000).timebase.toNat) ∧
      B.cluster? Machine.Place.cohort = some Place.cluster ∧ Place.cluster.state = .resident ∧ B.frozen Place.cluster.ctx = false ∧
      Unlogged B Place.cluster.ctx ∧ B.stopFor Machine.Place.cohort Place.cluster = some coh2 ∧ coh2 ≠ Machine.Place.cohort := by
  refine ⟨⟨?_, ?_, ?_⟩, ?_, ?_, ?_, mkUnlogged (c := pooled) rfl rfl rfl rfl, ?_, ?_⟩ <;> decide +kernel

/-- A cohort without shared memory, stopped, with its group; its image page is at 0x500000. -/
def cStop (saved : Bool) : Cohort := { Place.cohortRec with shared := 0, image := 0x500000, saved := saved, core := if saved then none else some 0 }
def kStop : Cluster := { Place.cluster with state := .stopped }
def gStop (p : Phase) (dirty : Bool) : Group :=
  { (g.wrV 7 (List.replicate 32 9)) with phase := p, image := 0x600000, map := [(7, ⟨0, dirty⟩)] }
def Z (p : Phase) (saved dirty : Bool) : State :=
  { (on (gStop p dirty) M).writeBytes 0x4200020 (toBytes 32 (entryOf 31).toNat) with
    cohorts := [(Place.cohort, cStop saved)], clusters := [(Place.cohort, kStop)] }

theorem wit_saves_cohort :
    (Z .stopping false true).cohort? Place.cohort = some (cStop false) ∧
      (Z .stopping false true).cluster? (cStop false).cluster = some kStop ∧ kStop.state = .stopped ∧ (cStop false).core.isSome = true ∧
      (Z .stopping false true).ops = [] ∧ (Z .stopping false true).group? Place.gid = some (gStop .stopping true) ∧
      (cStop false).groups = [Machine.Place.gid] ∧
      ((Z .stopping false true).vmWrite 0 0 .imageWrite 0x500000 ((Z .stopping false true).cohortBytes Place.cohort (cStop false))).2 = none := by
  refine ⟨?_, ?_, ?_, ?_, ?_, ?_, ?_, ?_⟩ <;> decide +kernel

theorem clear_of {s : State} {ctx : Nat} {c : Context} (h : s.context? ctx = some c) (hc : c.confidential = false) : Clear s ctx := by
  intro x hx; rw [h] at hx; cases hx; exact hc

theorem wit_saves_registers :
    (gStop .stopping true).map.get? 7 = some ⟨0, true⟩ ∧
      ((Z .stopping true true).entryValue (gStop .stopping true) 7).length = 32 ∧
      (Z .stopping true true).clusterSaved (gStop .stopping true) = true ∧ Clear (Z .stopping true true) 0 ∧
      (Z .stopping true true).walk 0 0 .imageWrite (0x600000 + 0x1000 + 128 * 7) = .ok (0x4601000 + 128 * 7) ∧
      (0x600000 + 0x1000 + 128 * 7) % 65536 + 128 ≤ 65536 := by
  refine ⟨?_, ?_, ?_, clear_of (c := Place.context) ?_ ?_, ?_, ?_⟩ <;> decide +kernel

theorem place_of {s : State} {ctx i pa : Nat} {c : Context} (h : s.walk ctx (s.homeOf ctx) .imageWrite (s.entryVa ctx i) = .ok pa)
    (h2 : s.entryVa ctx i % 65536 + 32 ≤ 65536) (hc : s.context? ctx = some c) (hf : c.confidential = false) : entryPlace s ctx i pa :=
  ⟨h, h2, clear_of hc hf⟩

theorem wit_saves_group :
    (Z .stopping true false).entry? 0 (nameIndex g.name) = some (entryOf 31) ∧ (entryOf 31).qcount = 0 ∧
      entryPlace (Z .stopping true false) 0 1 0x4200020 ∧ (Z .stopping true false).group? Machine.Place.gid = some (gStop .stopping false) ∧
      (Z .stopping true false).clusterSaved (gStop .stopping false) = true ∧ (∀ m, m ∈ (gStop .stopping false).map → m.2.dirty = false) ∧
      entryPlace (Z .parked true false) 0 1 0x4200020 ∧ (Z .parked true false).group? Machine.Place.gid = some (gStop .parked false) ∧
      entryPlace (Z .swapped true false) 0 1 0x4200020 ∧ (Z .swapped true false).group? Machine.Place.gid = some (gStop .swapped false) := by
  refine ⟨?_, ?_, place_of (c := Place.context) ?_ ?_ ?_ ?_, ?_, ?_, ?_, place_of (c := Place.context) ?_ ?_ ?_ ?_, ?_,
    place_of (c := Place.context) ?_ ?_ ?_ ?_, ?_⟩ <;> decide +kernel

/-- The work of the group is done; of a cohort of the record, and of a task. -/
theorem wit_saves_end :
    (Z .ending true false).group? Machine.Place.gid = some (gStop .ending false) ∧ (Z .ending true false).ops = [] ∧
      (Z .ending true false).holdersOf (gStop .ending false) = [] ∧
      (Z .ending true false).entry? 0 (nameIndex g.name) = some (entryOf 31) ∧ entryPlace (Z .ending true false) 0 1 0x4200020 ∧
      (Z .ending true false).joinsOn 0 (nameIndex g.name) = [] ∧ (Z .ending true false).cohort? g.cohort = some (cStop true) ∧
      (cStop true).task = false ∧
      ({ Z .ending true false with cohorts := [(Machine.Place.cohort, { cStop true with task := true })] } : State).cohort? g.cohort =
        some { cStop true with task := true } := by
  refine ⟨?_, ?_, ?_, ?_, place_of (c := Place.context) ?_ ?_ ?_ ?_, ?_, ?_, ?_, ?_⟩ <;> decide +kernel

/-! ## Witnesses: work -/

/-- A name table of four entries. A record at 0x700000: one cohort of one group of one fibre, entry 0x1000, budget 1, no shared memory (R318, R319). -/
def recordOf : Nat :=
  0x1A57 + 1 * 2 ^ 16 + 1 * 2 ^ 32 + 1 * 2 ^ 40 + 1 * 2 ^ 64 + 1 * 2 ^ 96 + 1 * 2 ^ 128 + 0x1000 * 2 ^ 256 + 1 * 2 ^ 320 + 1 * 2 ^ 336
    + 1 * 2 ^ 344
def request : LaunchOp := { creator := g.name, record := 0x700000, service := false, cap := some 0, pkg := 0 }
def small : Context := { Place.context with nametabN := 2 }
def P : State :=
  { (on gc M).writeBytes 0x4700000 (toBytes 256 recordOf) with
    ops := [(0, opOf (.launch request))], nextOp := 1, contexts := [(0, small)] }
theorem ok_record {e : Except Nat (List Byte × List Rank)} {f : List Byte → Bool}
    (h : (match e with | .ok r => decide (r.2 = []) && f r.1 | .error _ => false) = true) : ∃ b, e = .ok (b, []) ∧ f b = true := by
  split at h
  · rename_i r
    simp only [Bool.and_eq_true, decide_eq_true_eq] at h
    exact ⟨r.1, by rw [← h.1], h.2⟩
  · simp at h

theorem wit_acceptance :
    P.op? 0 = some (opOf (.launch request)) ∧ P.context? 0 = some small ∧ small.ended = none ∧ Unlogged P 0 ∧
      (∃ b, P.checkRecord 0 0 request.record = .ok (b, []) ∧ decide ([2].length = recGroups b * recCohorts b) = true) ∧
      P.allFree 0 [2] = true :=
  ⟨by decide +kernel, by decide +kernel, rfl, mkUnlogged (c := small) rfl rfl rfl rfl, ok_record (by decide +kernel), by decide +kernel⟩

/-- The last tile of a grid of two; tasks of two spawns. -/
def tiled : Launch := { Place.launch with tx := 2, ty := 1, tz := 1, nextTile := 1 }
def tileOp : TileOp := { launch := Place.launchKey, addr := 65528, thread := 0 }
def Y (n : Nat) : State :=
  { on gc M with ops := [(0, opOf (.tile tileOp))], nextOp := 1, launches := [(Place.launchKey, { tiled with nextTile := n })] }
def task (off : Nat) : Task :=
  { ctx := 0, launch := Place.launchKey, role := 0, entry := 0x1000, tag := 0, ready := true, argPkg := 0, argDie := 0, argOff := off
    spawn := off }
def J : State := { T with dies := [(0, { tasks := [task 0, task 1] })] }
theorem wit_workEvents :
    ((Y 1).op? 0 = some (opOf (.tile tileOp)) ∧ (Y 1).launch? tileOp.launch = some tiled ∧
      ((Y 1).unanswered Place.gid).head? = some 0 ∧ Unlogged (Y 1) 0 ∧ 1 < tiled.tx * tiled.ty * tiled.tz ∧ tiled.tx < 2 ^ 16 ∧
      ¬ ({ tiled with nextTile := 2 } : Launch).nextTile < tiled.tx * tiled.ty * tiled.tz) ∧
      tasksAt (J.die 0) [0, 1] = some [task 0, task 1] ∧ J.launch? (task 0).launch = some Place.launch ∧
      Place.launch.roles[(task 0).role]? = some Place.role ∧ [0, 1].Nodup ∧ J.allFree 0 [2] = true ∧ Unlogged J 0 := by
  refine ⟨⟨?_, ?_, ?_, placed_unlogged rfl, ?_, ?_, ?_⟩, ?_, ?_, ?_, ?_, ?_, placed_unlogged rfl⟩ <;> decide +kernel

/-- A message for each service code, its buffer at 0x700000, 8 bytes long, with reply 0, to a package with one namespace and one
network controller. -/
def message (code : Nat) : List Byte := toBytes 32 (code + 8 * 2 ^ 128 + 0x700000 * 2 ^ 192)
def posted (code : Nat) : PostOp := { service := if code ≤ 3 then 1 else 0x100, name := 0, message := message code, pkg := 0 }
def U (code : Nat) : State :=
  { (on g M).writeBytes 0x4200020 (toBytes 32 (entryOf 31).toNat) with
    ops := [(0, opOf (.post (posted code)))], nextOp := 1, timebase := 0, services := [(0, (1, 1))] }
/-- One block of 8 bytes has been written. -/
def blocks0 : Blocks := ⟨1, 8⟩
theorem wit_served :
    ((U 1).op? 0 = some (opOf (.post (posted 1))) ∧ (U 1).group? Machine.Place.gid = some g ∧ g.phase = .resident ∧
      g.pending.get? (112 + State.num (message 1) 1 1 % 8) = none ∧ Unlogged (U 1) 0 ∧ State.num (message 1) 0 1 = 1 ∧
      ((U 1).vmWrite 0 0 .copyWrite (State.num (message 1) 24 8) (zeros 8)).2 = none ∧ (0, (1, 1)) ∈ (U 1).services ∧
      (posted 1).service = 1 ∧ (posted 5).service = 0x100) ∧
      (((U 1).vmWrite 0 0 .copyWrite (State.num (message 1) 24 8) (zeros 8)).1.findName 0 g.name = .entry 1 (entryOf 31) ∧
        (entryOf 31).state = 1 ∧
        ((U 1).vmWrite 0 0 .copyWrite (State.num (message 1) 24 8) (zeros 8)).1.groupNamed 0 ((entryOf 31).name 1) = some Machine.Place.gid) ∧
      (State.num (message 2) 0 1 = 2 ∧ chunksOf (State.num (message 2) 24 8) (State.num (message 2) 16 4 * blocks0.size) = [(0x700000, 64)] ∧
        (U 2).walk 0 0 .copyRead 0x700000 = .ok 0x4700000 ∧
        ((U 2).vmWrite 0 0 .copyWrite (State.num (message 2) 24 8) []).2 = none) ∧
      State.num (message 3) 0 1 = 3 ∧ (State.num (message 4) 0 1 = 4 ∧
        chunksOf (State.num (message 4) 24 8) (State.num (message 4) 16 4) = [(0x700000, 8)]) ∧
      State.num (message 5) 0 1 = 5 ∧ (zeros 8).length ≤ State.num (message 5) 16 4 :=
  ⟨⟨by decide +kernel, by decide +kernel, by decide +kernel, by decide +kernel, mkUnlogged (c := Place.context) (k := 0)
      (by decide +kernel) rfl rfl rfl, by decide +kernel,
      by decide +kernel, by decide +kernel, by decide, by decide⟩, ⟨found_of (by decide +kernel), rfl, by decide +kernel⟩,
    ⟨by decide +kernel, by decide +kernel, by decide +kernel, by decide +kernel⟩, by decide +kernel, ⟨by decide +kernel, by decide +kernel⟩,
    by decide +kernel, by decide +kernel⟩

theorem wit_slotEvents_registers : Free gq entry0.sd ∧ 0 / 16 ∉ K.stopped ∧ (nop (.join false 0)).found = none := by
  refine ⟨⟨?_, ?_⟩, ?_, ?_⟩ <;> decide +kernel

/-! ## Witnesses: faults, debug hardware, the platform -/

/-- A context with a limit of 1 microsecond, on a machine at tick 1,050; a group that has stalled since tick 0; a replay whose
first record is that of core 0. -/
def limited (x : Scroll) : Context :=
  { Place.context with wdlimit := 1, sites := [(0, { root := 0, scroll := x })] }
def gStall : Group := { g.onFibres 0xFFFFFFFF fun x => { x with wait := .cbwait } with stallFrom := 1 }
def replaying : Scroll := { mode := 2, base := 0x300000, widx := 1, waits := [(2 * 65536, 1)] }
def O (x : Scroll) : State :=
  { (on gStall M).writeBytes 0x4300000 (toBytes 32 (1 + 2 * 2 ^ 8)) with contexts := [(0, limited x)], timebase := 1050 }
theorem wit_fatalEvents :
    Open T 0 ∧ (Open (O {}) 0 ∧ (O {}).group? Place.gid = some gStall ∧ gStall.stalled = true ∧
      (O {}).limitPassed 0 gStall.stallFrom = true) ∧ (T.site? 0 0).isSome = true ∧
      (O replaying).context? 0 = some (limited replaying) ∧ replaying.mode = 2 ∧ replaying.frozen = false ∧
      ((O replaying).sourceRecords 0 0 (2 * 65536 + 0)).map (·.1) = [0] ∧
      (O replaying).limitPassed 0 (replaying.waits.read 0 (2 * 65536 + 0)) = true := by
  refine ⟨⟨Place.context, ?_, ?_⟩, ⟨⟨limited {}, ?_, ?_⟩, ?_, ?_, ?_⟩, ?_, ?_, ?_, ?_, ?_, ?_⟩ <;> decide +kernel

/-- Ranges of the placed page stay where they are whatever bytes the page itself holds. -/
theorem steady_of {s : State} {va n : Nat} {bs : List (Nat × Nat)} (hc : s.contexts = [(0, Machine.Place.context)])
    (h0 : s.readNat 0 8 = 0x2001) (h1 : s.readNat 0x2000 8 = 0x4001) (h2 : s.readNat 0x4000 8 = 0x400009D)
    (hb : ∀ b, b ∈ bs → 0x4000000 ≤ b.1) (hv : va + n ≤ 2 ^ 26) (hp : va % 65536 + n ≤ 65536) :
    Steady s 0 0 va n (0x4000000 + va) bs :=
  ⟨hp, placed_clear hc, fun m hm i hi => by
    rw [Nat.add_assoc]
    exact ⟨placed_walk_mem hc h0 h1 h2 hb (by omega) m hm (by simp), placed_walk_mem hc h0 h1 h2 hb (by omega) m hm (by simp)⟩⟩

/-- Two launches with counter blocks at 0x700000 and 0x700080, counts of both, and a tagged request of each of two launches: the
first has a trace ring of 32 slots at 0x710000, the second none. -/
def counted (block : Nat) (ring : Option (Nat × Nat)) : Launch :=
  { Machine.Place.launch with debugOpts := { counters := some block, ring := ring, sample := 1 } }
def lk2 : Nat := State.launchKey 0 2
def tag1 : Tagged := ⟨0, Machine.Place.launchKey, 1, 0, 0x40⟩
def tag2 : Tagged := ⟨0, lk2, 1, 0, 0x40⟩
def I (tag : Tagged) (widx : Nat) : State :=
  { T.writeNat 0x4700050 4 widx with
    launches := [(Machine.Place.launchKey, counted 0x700000 (some (0x710000, 10))), (lk2, counted 0x700080 none)]
    cores := [(0, { counts := [(Machine.Place.launchKey, [(0, 7), (9, 3)]), (lk2, [(0, 1)])], tagged := [tag] })] }
theorem I_contexts (tag : Tagged) (n : Nat) : (I tag n).contexts = [(0, Machine.Place.context)] := by
  show ((T.writeNat 0x4700050 4 n).contexts) = _
  rw [State.writeNat, writeBytes_eq]; rfl
def blocks : List (Nat × Nat) := [(0x4700000, 128), (0x4700080, 128)]
theorem wit_counterFlush :
    ((((I tag1 0).core 0).counts.map (·.1)).Nodup ∧ blocks.Pairwise apart) ∧
      ((I tag1 0).launch? Machine.Place.launchKey = some (counted 0x700000 (some (0x710000, 10))) ∧
        (I tag1 0).launch? lk2 = some (counted 0x700080 none) ∧ (counted 0x700080 none).ctx = 0 ∧ 0x700080 % 128 = 0) ∧
      Steady (I tag1 0) 0 (pkgOf 0) 0x700000 128 (0x4000000 + 0x700000) blocks ∧
      Steady (I tag1 0) 0 (pkgOf 0) 0x700080 128 (0x4000000 + 0x700080) blocks := by
  have hb : ∀ b, b ∈ blocks → 0x4000000 ≤ b.1 := by decide
  refine ⟨⟨?_, ?_⟩, ⟨?_, ?_, ?_, ?_⟩, steady_of (I_contexts _ _) ?_ ?_ ?_ hb ?_ ?_, steady_of (I_contexts _ _) ?_ ?_ ?_ hb ?_ ?_⟩
  all_goals first | decide +kernel | simp [blocks, apart]
/-- A ring with 31 records, one with 32, and no ring. -/
theorem wit_tracePosts :
    (((I tag1 31).core 0).tagged.find? (fun x => x.ctx == 0) = some tag1 ∧
      (I tag1 31).launch? tag1.launch = some (counted 0x700000 (some (0x710000, 10))) ∧
      Steady (I tag1 31) 0 (pkgOf 0) (0x700000 + 0x50) 8 (0x4000000 + (0x700000 + 0x50)) [(0x4700050, 4)] ∧
      (I tag1 31).readNat 0x4700050 4 = 31 ∧ ((I tag1 31).readNat 0x4700050 4 + 2 ^ 32 - (I tag1 31).readNat (0x4700050 + 4) 4) % 2 ^ 32 ≠ 2 ^ (10 - 5) ∧
      Steady (I tag1 31) 0 (pkgOf 0) (0x710000 + 32 * (31 % 2 ^ (10 - 5))) 32 (0x4000000 + (0x710000 + 32 * (31 % 2 ^ (10 - 5)))) [(0x4700050, 4)] ∧
      apart (0x4700050, 4) (0x4000000 + (0x710000 + 32 * (31 % 2 ^ (10 - 5))), 32)) ∧
      (((I tag1 32).core 0).tagged.find? (fun x => x.ctx == 0) = some tag1 ∧
        Steady (I tag1 32) 0 (pkgOf 0) (0x700000 + 0x50) 8 (0x4000000 + (0x700000 + 0x50)) [(0x4700050, 4)] ∧
        ((I tag1 32).readNat 0x4700050 4 + 2 ^ 32 - (I tag1 32).readNat (0x4700050 + 4) 4) % 2 ^ 32 = 2 ^ (10 - 5)) ∧
      ((I tag2 0).core 0).tagged.find? (fun x => x.ctx == 0) = some tag2 ∧
        ∀ l, (I tag2 0).launch? tag2.launch = some l → l.debugOpts.ring = none ∨ l.debugOpts.counters = none := by
  have hb : ∀ b, b ∈ [((0x4700050 : Nat), (4 : Nat))] → 0x4000000 ≤ b.1 := by decide
  have hl : (I tag2 0).launch? tag2.launch = some (counted 0x700080 none) := by decide +kernel
  refine ⟨⟨?_, ?_, steady_of (I_contexts _ _) ?_ ?_ ?_ hb ?_ ?_, ?_, ?_, steady_of (I_contexts _ _) ?_ ?_ ?_ hb ?_ ?_, .inl ?_⟩,
    ⟨?_, steady_of (I_contexts _ _) ?_ ?_ ?_ hb ?_ ?_, ?_⟩, ?_, fun l h => .inl ?_⟩
  all_goals first | decide +kernel | (rw [hl] at h; cases h; rfl)

/-- Images: the one that is started, one with a bad signature, one below the fused minimum of 2. -/
def image0 : Firmware := {}
def fused : State := { T with fuses := [(image0.part, image0.version + 1)] }
/-- A part that is in no domain joins package 0, whose machine runs; the package that is up resets. -/
theorem wit_platformSteps_boot :
    (({ image0 with signed := false } : Firmware).signed = false ∧ image0.version < fused.fuses.read 0 image0.part ∧
      ¬ (image0.signed = false ∨ image0.version < T.fuses.read 0 image0.part) ∧ ({ servicesOk := false } : Enumeration).servicesOk = false ∧
      ({} : Enumeration).servicesOk = true) ∧
      (({ T with linked := true } : State).linked = true ∧ T.booted = true ∧ T.packages = [0] ∧ 1 ∉ T.packages ∧
        (T.boots.read {} image0.part).num = none) := by
  refine ⟨⟨?_, ?_, ?_, ?_, ?_⟩, ?_, ?_, ?_, ?_, ?_⟩ <;> decide +kernel
/-- Above a limit, at it, and, with the limits of an RQ-480M, far below both. -/
theorem wit_platformSteps_governor :
    0 / 16 ∉ T.stopped ∧ T.powerLimit 0 < T.powerLimit 0 + 1 ∧ 9 * T.powerLimit 0 ≤ 10 * T.powerLimit 0 ∧
      ({ T with stopped := [0] } : State).stopped.contains (0 / 16) = true ∧
      (Config.fuseForm (T.partOf (0 / 16)) ≠ 0 → 10 * 0 < 9 * T.powerLimit 0 ∧ 10 * 0 < 9 * T.throttleLimit 0) :=
  ⟨by decide +kernel, Nat.lt_succ_self _, by omega, by decide +kernel, fun h => by
    simp only [State.powerLimit, State.throttleLimit, State.boardLimit, if_neg h]; decide⟩

/-! ## Witnesses: host calls. The open context 0 of the placed machine, with or without its group. -/

def call0 : Call := ⟨0, 0, 1, 0⟩
def idle : State := { M with groups := [], cohorts := [], clusters := [], launches := [] }
theorem listens {s : State} {p : Nat} (hb : s.packages.contains p = true) (hs : s.stopped = []) : Listens s p :=
  ⟨by simpa using hb, by simp [hs]⟩
theorem takes {s : State} (hb : s.packages.contains 0 = true) (hs : s.stopped = []) (hc : s.contexts = [(0, Place.context)]) :
    Takes s call0 Place.context := ⟨listens hb hs, by simp [State.context?, hc, Tbl.get?, call0], rfl, rfl⟩

def openArgs : OpenArgs :=
  { root := 0, nametab := 0x200000, nametabN := 10, xvec := 0, wdlimit := 0, faultq := 0, dumpAt := 0, dumpSize := 0
    confidential := false, ownerKey := [], nonce := [], poolAt := 0x1000000, poolSize := 0x1000000, join := none }
def scrollArgs : ScrollArgs := { mode := 2, logSize := 32, base := 0, noReuse := false, ridx := 0, widx := 2 ^ 27 }
/-- The context while its scroll is frozen. -/
def frozen0 : Context := { Place.context with sites := [(0, { root := 0, scroll := { mode := 2, frozen := true } })] }
/-- A domain of two packages; the context is open on both, and its home is package 0. -/
def pair : State := { idle with contexts := [(0, wide)], packages := [0, 1] }
def recordArgs : ScrollArgs := { mode := 1, logSize := 20, base := 0x300000, noReuse := false, ridx := 0, widx := 32767 }
theorem wit_contextCalls :
    (Listens idle call0.pkg ∧ openArgs.join = none ∧ openArgs.confidential = false ∧ idle.freeNumber 5 = some 5 ∧
      openOk openArgs = true) ∧
      (Listens { idle with packages := [0, 1] } 1 ∧ ({ openArgs with join := some 0 } : OpenArgs).join = some 0 ∧
        idle.context? 0 = some Place.context ∧ Place.context.ended = none ∧ Place.context.sites.get? 1 = none ∧
        openArgs.root % 8192 = 0 ∧ openArgs.poolAt % 4096 = 0) ∧
      (Takes idle call0 Place.context ∧ idle.busy 0 = false ∧ call0.pkg = Place.context.home) ∧
      (Takes pair ⟨0, 0, 1, 1⟩ wide ∧ pair.busy 0 = false ∧ 1 ≠ wide.home) ∧ Takes T call0 Place.context ∧
      (Place.context.sites.get? 0 = some { root := 0, spwin := [(0, 65536)] } ∧
        T.windowsElse 0 0 7 + 100663296 ≤ 100663296 ∧ (100663296 < T.windowSize 0 0 7 → False) ∧ 100663296 % 65536 = 0) ∧
      (T.xfersOn 0 0 15 true = [] ∧ T.xfersOn 0 0 15 false = []) ∧
      (scrollArgs.mode < 3 ∧ 20 ≤ scrollArgs.logSize ∧ scrollArgs.logSize ≤ 32 ∧ scrollArgs.base % 2 ^ scrollArgs.logSize = 0 ∧
        idle.scrollBusy 0 = false ∧ scrollArgs.mode ≠ 1 ∧ scrollArgs.widx < 2 ^ 32 ∧
        (scrollArgs.widx + 2 ^ 32 - scrollArgs.ridx) % 2 ^ 32 ≤ 2 ^ (scrollArgs.logSize - 5)) ∧
      (recordArgs.base % 2 ^ recordArgs.logSize = 0 ∧
        (recordArgs.widx + 2 ^ 32 - recordArgs.ridx) % 2 ^ 32 < 2 ^ (recordArgs.logSize - 5) ∧
        idle.slotOk 0 0 (recordArgs.base + 32 * (recordArgs.widx % 2 ^ (recordArgs.logSize - 5))) = true) ∧
      Takes { idle with contexts := [(0, frozen0)] } call0 frozen0 ∧
      frozen0.sites.get? 0 = some { root := 0, scroll := { mode := 2, frozen := true } } := by
  refine ⟨⟨listens rfl rfl, ?_, ?_, ?_, ?_⟩, ⟨listens rfl rfl, ?_, ?_, ?_, ?_, ?_, ?_⟩, ⟨takes rfl rfl rfl, ?_, ?_⟩,
    ⟨⟨listens rfl rfl, ?_, ?_, ?_⟩, ?_, ?_⟩, takes rfl rfl rfl, ⟨?_, ?_, ?_, ?_⟩, ⟨?_, ?_⟩, ⟨?_, ?_, ?_, ?_, ?_, ?_, ?_, ?_⟩,
    ⟨?_, ?_, ?_⟩, ⟨listens rfl rfl, ?_, ?_, ?_⟩, ?_⟩ <;> decide +kernel

theorem wit_dataCalls :
    Takes T call0 Place.context ∧ T.locks = [] ∧
      (65528 % 2 ^ 37 + (zeros 8).length ≤ T.windowSize 0 (65528 / 2 ^ 40 % 256) (65528 / 2 ^ 37 % 8)) ∧
      (65528 % 65536 + (zeros 8).length ≤ 65536 ∧ T.walk 0 0 .hostWrite 65528 = .ok (0x4000000 + 65528)) ∧
      T.walk 0 0 .hostRead 65528 = .ok (0x4000000 + 65528) ∧ Clear T 0 ∧
      (({ Place.context with dumpAt := 0x800000, dumpLen := 8 } : Context).dumpLen = 0 + 8 ∧
        T.walk 0 0 .imageRead (0x800000 + 0) = .ok 0x4800000) ∧ malformed (zeros 31) = true ∧ malformed (zeros 32) = true := by
  refine ⟨takes rfl rfl rfl, rfl, ?_, ⟨?_, ?_⟩, ?_, clear_of (c := Place.context) ?_ ?_, ⟨?_, ?_⟩, ?_, ?_⟩ <;> decide +kernel

/-- The host thread of entry 1, which is its own caller. -/
def hostEntry : NameEntry := { kind := 2, state := 1, rights := 31 }
def caller1 : Call := ⟨0, mkName 1 0 2, 1, 0⟩
def hosted : State := T.writeBytes 0x4200020 (toBytes 32 hostEntry.toNat)
theorem wit_nameCalls :
    Takes hosted caller1 Place.context ∧ hosted.findName 0 (mkName 1 0 2) = .entry 1 hostEntry ∧
      (31 : BitVec 5) &&& ~~~(BitVec.ofNat 5 (Machine.State.rights caller1.caller 0 hostEntry)) = 0 ∧ entryPlace hosted 0 1 0x4200020 ∧
      Unlogged hosted 0 ∧ hostEntry.kind = 2 ∧ hostEntry.alias_ = false ∧ hostEntry.state ≠ 5 ∧
      caller1.caller &&& ~~~255 = mkName 1 0 2 &&& ~~~255 ∧ hosted.entry? 0 1 = some hostEntry ∧ hosted.joinsOn 0 1 = [] := by
  refine ⟨⟨listens ?_ ?_, ?_, ?_, ?_⟩, found_of ?_, ?_, place_of (c := Place.context) ?_ ?_ ?_ ?_,
    mkUnlogged (s := hosted) (c := Place.context) (k := 0) ?_ rfl rfl rfl, ?_, ?_, ?_, ?_, ?_, ?_⟩ <;> decide +kernel

/-! ## Witnesses: encodings and steps -/

theorem wit_decodeEncode :
    (Instr.nop G).wellFormed = true ∧ (zeros 24).length + (Instr.nop G).len ≤ 32 ∧ (zeros 24).length % 4 = 0 ∧
      (zeros 24).length + (Instr.nop G).len + ([] : List Byte).length = 32 := by decide +kernel

theorem wit_decodeCauses :
    field (ofBytes (((toBytes 32 3).drop 0).take 2)) 0 2 = 3 ∧ lenOf (field (ofBytes (((toBytes 32 0x2FBC).drop 28).take 2)) 0 2) = some 8 ∧
      32 < 28 + 8 ∧ lenOf (field (ofBytes (((toBytes 32 0x643C).drop 0).take 2)) 0 2) = some 8 ∧
      rowOf (field (ofBytes (((toBytes 32 0x643C).drop 0).take 2)) 7 9) = none := by
  refine ⟨?_, ?_, ?_, ?_, ?_⟩ <;> decide +kernel

/-- A NOP where the placed machine fetches. -/
def fetching : State := State.reset.withFetchWord 64 0x2FBC
def choice0 : Choice := ⟨Place.gid, Place.group, BitVec.allOnes 32⟩
theorem wit_stepRunsDecoded :
    (fetching.agenda = [] ∧ fetching.booted = true ∧ fetching.firstMove.isNone = true ∧
      fetching.schedulersLeft = [0] ∧ fetching.choices 0 = [choice0] ∧ fetching.group? choice0.gid = some Place.group ∧
      fetching.replays choice0.g.ctx (pkgOf choice0.g.core) = false ∧ fetching.breakMask choice0.issue Place.group = 0 ∧
      (fetching.scroll Place.group.ctx (pkgOf Place.group.core)).full = false) ∧
      fetching.walk Place.group.ctx (pkgOf Place.group.core) .fetch (choice0.issue.pc.toNat / 32 * 32) = .ok 0x4001000 ∧
      (match decodeAt (fetching.readPage Place.group.ctx 0x4001000 32) (choice0.issue.pc.toNat % 32) with
        | .ok r => r == (.nop G, 8) | .error _ => false) = true ∧
      (Instr.nop G).wellFormed = true ∧ waitsFor Place.group (.nop G) (Place.group.active choice0.issue.mask (Instr.nop G).guard) = false ∧
      (match exec (.nop G) (fetching.prepare choice0.issue Place.group) with
        | .next t => t.clash?.isNone && t.onTime && !t.waitsUnit choice0.issue | _ => false) = true := by
  refine ⟨⟨?_, ?_, ?_, ?_, ?_, ?_, ?_, ?_, ?_⟩, ?_, ?_, ?_, ?_, ?_⟩ <;> decide +kernel

theorem wit_stepKeepsMemoryForm : Safety.Inv State.reset ∧ ∃ t, step State.reset = .next t := ⟨rfl, _, rfl⟩

/-! ## Single steps, with results from the spec's tables -/

/-- A group that holds a value in a vector register, and not in its image. -/
def holding (g : Group) (n : Nat) (v : Lanes 32) : Group := { g.wrV n v with map := g.map.put n ⟨n, true⟩ }

/-- The group after one instruction of the stroke `u`. -/
def after (i : Instr) (g : Group) : Option Group :=
  match exec i (on g M) with | .next t => t.group? Place.gid | _ => none

/-! R130, the table of divisions. -/
theorem test_sdiv_truncates :
    (after (.sdiv G false 1 2 (.reg 3)) ((g.wrS 2 7).wrS 3 (-2))).map (fun h => (h.rdS 1, h.sys.fstat)) = some (-3, 0) := by
  decide +kernel
theorem test_sdiv_wraps :
    (after (.sdiv G false 1 2 (.reg 3)) ((g.wrS 2 0x8000000000000000).wrS 3 (-1))).map (fun h => (h.rdS 1, h.sys.fstat)) =
      some (0x8000000000000000, 0) := by decide +kernel
theorem test_srem_sign :
    (after (.srem G false 1 2 (.reg 3)) ((g.wrS 2 (-7)).wrS 3 2)).map (·.rdS 1) = some (-1) := by decide +kernel
theorem test_srem_zero :
    (after (.srem G true 1 2 (.reg 3)) (g.wrS 2 5)).map (fun h => (h.rdS 1, h.sys.fstat)) = some (5, 8) := by decide +kernel

/-! 16_vector_notes.md, the table of conversions: lane 0 and FSTAT (NX 1, UF 2, OF 4, DZ 8, NV 16: R208). -/
def lane0 (i : Instr) (x : Word32) : Option (Word32 × Word64) :=
  (after i (holding g 2 (List.replicate 32 x))).map fun h => ((h.rdV 1).lane 0, h.sys.fstat)

theorem test_vcvt_tie : lane0 (.vcvt G false 0 .f32 .bf16 .rne false 1 2) 0x3F808000 = some (0x3F80, 1) := by decide +kernel
theorem test_vcvt_tiny : lane0 (.vcvt G false 0 .f32 .f16 .rup false 1 2) 0x33000000 = some (1, 3) := by decide +kernel
theorem test_vcvt_signalling : lane0 (.vcvt G false 0 .f32 .e5m2 .rne false 1 2) 0x7F800001 = some (0x7E, 16) := by decide +kernel
theorem test_vcvt_overflow_rtz : lane0 (.vcvt G false 0 .f32 .e4m3 .rtz false 1 2) 0xC3FA0000 = some (0xFE, 5) := by decide +kernel
theorem test_vcvt_overflow_rdn : lane0 (.vcvt G false 0 .f32 .e4m3 .rdn false 1 2) 0xC3FA0000 = some (0x7F, 5) := by decide +kernel
theorem test_vcvt_subnormal : lane0 (.vcvt G false 0 .e4m3 .f32 .rne false 1 2) 1 = some (0x3B000000, 0) := by decide +kernel
theorem test_vcvt_unsigned : lane0 (.vcvt G false 0 .f32 .n32 .rne false 1 2) 0xBFC00000 = some (0, 16) := by decide +kernel
theorem test_vcvt_integer_tie : lane0 (.vcvt G false 0 .f32 .i32 .rne false 1 2) 0xC0200000 = some (0xFFFFFFFE, 1) := by
  decide +kernel
/-! The same file: 20.0 has exponent 4; 20.0 scaled by 2^-2 is 5.0. -/
theorem test_vfexpo : lane0 (.vfexpo G false 1 2) 0x41A00000 = some (4, 0) := by decide +kernel
theorem test_vfscl :
    (after (.vfscl G false 0 .rne false 1 2 3) (holding (holding g 2 (List.replicate 32 0x41A00000)) 3 (List.replicate 32 0xFFFFFFFE))).map
      (fun h => (h.rdV 1).lane 0) = some 0x40A00000 := by decide +kernel

/-! 16_vector_notes.md, VQPACK: 5.0, -0.75, 0.225, 3.25, 0, 0.55: codes 8, A, 0, 5, 0, 1 and the extra 20 of lane 0; UF and NX (R250). -/
def quantised : Lanes 32 := [0x40A00000, 0xBF400000, 0x3E666666, 0x40500000, 0, 0x3F0CCCCD] ++ List.replicate 26 0
theorem test_vqpack :
    (after (.vqpack G false .rne 1 2) (holding g 2 quantised)).map (fun h => ((h.rdV 1).lane 0, (h.rdV 1).lane 4, h.sys.fstat)) =
      some (0x001050A8, 20, 3) := by decide +kernel

/-! 10_control_notes.md: a guard that six of sixteen fibres satisfy splits the stroke (R144). -/
def u16 : Issue := { u with mask := 0xFFFF }
theorem test_vbr_splits :
    (match exec (.vbr ⟨4, false⟩ .none 16) (on (g.wrP 4 0x3F) M u16) with
      | .next t => (t.group? Place.gid).map fun h => ((h.fibre 5).pc, (h.fibre 6).pc, (h.fibre 16).pc)
      | _ => none) = some (0x1010, 0x1008, 0x1000) := by decide +kernel

/-! 13_memory_notes.md: SATOM.add.b64 at 0x3C raises MISALIGNED, and .b32 there is performed. -/
theorem test_satom_misaligned :
    (after (.satom G .add true .sh true .plain 1 2 0x3C) g).map (fun h => (h.sys.xcause, h.sys.xaddr)) = some (0x22, 0x3C) := by
  decide +kernel
theorem test_satom_adds :
    (match exec (.satom G .add true .sh false .plain 1 2 0x3C) (on (g.wrS 1 5) M) with
      | .next t => some (t.readNat (placeShared Place.cohort + 0x3C) 4, (t.group? Place.gid).map (·.rdS 1))
      | _ => none) = some (5, some 0) := by decide +kernel
/-! 13_memory_notes.md: an absent member of the cluster. -/
theorem test_sld_absent_member : (after (.sld G .cl .b32 .plain 1 2 0) (g.wrS 2 0x180000)).map (·.sys.xcause) = some 0x23 := by
  decide +kernel

/-! 20_matrix_notes.md: HELD 3 with CODE NOSLOT; HELD 0 with CODE NOTHELD (R277, R279). -/
theorem test_mgrow_noslot :
    (match exec (.mgrow G 11 1) { T with holders := [(0, { hold with slots := [0, 1, 2] }), (1, { hold with leader := 1, members := 2, slots := [3, 4, 5] })] } with
      | .next t => (t.group? Place.gid).map (·.rdS 11) | _ => none) = some 0x302 := by decide +kernel
/-! 22_names_notes.md: a timeout finds the state RUNNING: 0x108 (R304, R313). -/
theorem test_njoin_timeout :
    (match exec (.njoinTimeout Place.gid 0) { N joining njoined (entryOf 31) with timebase := 5 } with
      | .next t => (t.group? Place.gid).map (·.rdS 10) | _ => none) = some 0x108 := by decide +kernel
/-! R351, R359: a trap returns to the next instruction, one of user mode in user mode. -/
theorem test_trap :
    (match exec (.trap G 7) (on gU M) with
      | .next t => (t.group? Place.gid).map fun h => (h.sys.xcause, h.sys.xpc, h.sys.xaddr, h.sys.xstat, (h.fibre 31).pc)
      | _ => none) = some (0x40, 0x1008, 7, 0xFFFFFFFF, 0x2000) := by decide +kernel
/-! R398: package reset boots, and a step of the machine after it changes nothing more than time. -/
theorem test_boot :
    (match step State.reset with
      | .next t => (t.booted, (t.boots.read {} 0).err, (t.boots.read {} 0).step, t.contexts.length)
      | _ => (false, true, 0, 1)) = (true, false, 5, 0) := by decide +kernel
/-! The first instruction of a placed word: a NOP moves its stroke on by 8 bytes. -/
theorem test_step_nop :
    (match step fetching with | .next t => (t.group? Place.gid).map fun h => (h.fibre 0).pc | _ => none) = some 0x1008 := by
  decide +kernel

/-! ## What ikas writes: the worked example of 08_assembler.md -/

/-- The lines L01 to L10, then a last line. -/
def exampleSource (last : Text) : Text :=
  ".launch\n.launch demo, grid=1,1,1, cluster=1, priority=0, stack=0, shared=0\n".toList ++
  ".role 0, entry=main, budget=1, groups=1, fibres=32\n.endlaunch\n.text\n.budget 1 ; L06\n".toList ++
  "main:   smovi s10, 5\n saddi s10, s10, 2\n saddi s10, s10, 7\n sadd s10, s10, s10\n".toList ++ last

/-- The image of the lines. -/
def exampleImage (last : Text) : ImageFile := (Ikas.assemble {} { files := [] } [([], exampleSource last)]).2
/-- The bytes of `.text`, the first section. -/
def exampleText (last : Text) : List Byte := ((exampleImage last).sections.head?.map fun s => s.bytes).getD []

/-- The block of L02 to L04, its entry as its relocation leaves it. -/
def exampleLaunch (entry : Nat) : LaunchBlock := { roles := [{ entry := entry, budget := 1, groups := 1, fibres := 32 }] }

/-- The placement table: the words of the lines, and the NOP pad at 0x18. -/
theorem test_placement : exampleText " gexit s10".toList =
    toBytes 12 0x00000005000A00BD ++ toBytes 12 0x00000002050A01BD ++ toBytes 8 0x2FBC ++ toBytes 12 0x00000007050A01BD
      ++ toBytes 8 0x00000002850A013C ++ toBytes 8 0x00000000050024BC := by decide +kernel

/-- The launch section is the record of `demo`, and the role's entry has the one relocation, against `.text`. -/
theorem test_image : ((exampleImage " gexit s10".toList).sections.map fun s => (s.kind, s.bytes.length)) = [(1, 0x3C), (4, 256)] ∧
    ((exampleImage " gexit s10".toList).sections.map fun s => s.bytes).tail = [(exampleLaunch 0).record] ∧
    ((exampleImage " gexit s10".toList).relocs.map fun r => (r.sect, r.offset, r.target)) = [(1, 32, 0)] := by decide +kernel

/-- `(sp0) gexit s10` would be placed at 0x40, behind the filler at 0x34. -/
theorem test_placement_guarded :
    ((exampleText " (sp0) gexit s10".toList).drop 0x34).take 12 = toBytes 12 0xFD ∧
    (exampleText " (sp0) gexit s10".toList).length = 0x48 := by decide +kernel

/-- A vector register at the budget in force is IK202, at its line (R114, R125). -/
theorem test_diagnostic : ((Ikas.assemble {} { files := [] } [([], ".budget 4\n vmovi.i32 v4, 1".toList)]).1.diags.map
    fun d => (d.num, d.pos.line)) = [(202, 2)] := by decide +kernel

/-- The record is 256 bytes, and is accepted by the checks of R320 that need no machine. -/
theorem test_launch_record : (exampleLaunch 0x4000).record.length = 256 ∧
    badRecord (exampleLaunch 0x4000).record = false ∧ badGrid (exampleLaunch 0x4000).record = false ∧
    badRole (exampleLaunch 0x4000).record = false ∧ badTeam (exampleLaunch 0x4000).record = false ∧
    recRole (exampleLaunch 0x4000).record 0 =
      { entry := 0x4000, budget := 1, groups := 1, fibres := 32, team := false } := by decide +kernel

/-- The entry field's relocation: the load address of `.text` is added (R124). -/
theorem test_relocate : relocate (exampleLaunch 0).record 32 0x4000 = (exampleLaunch 0x4000).record := by decide +kernel
end Sys2Proof.Tests
end

section
/-! # Masks over fibres (R54) -/

namespace Sys2Proof

/-- The sum that a mask is built from, on top of another number. -/
theorem foldr_bits (r : Nat → Bool) (a : Nat) (l : List Nat) :
    l.foldr (fun f acc => b2n (r f) * 2 ^ f + acc) a = l.foldr (fun f acc => b2n (r f) * 2 ^ f + acc) 0 + a := by
  induction l with
  | nil => simp
  | cons f l ih => simp only [List.foldr_cons, ih]; omega

/-- That sum is the number whose bits are the values of the predicate. -/
theorem testBit_foldr_bits (r : Nat → Bool) (n f : Nat) :
    ((List.range n).foldr (fun f acc => b2n (r f) * 2 ^ f + acc) 0).testBit f = (decide (f < n) && r f) ∧
      (List.range n).foldr (fun f acc => b2n (r f) * 2 ^ f + acc) 0 < 2 ^ n := by
  induction n with
  | zero => simp
  | succ n ih =>
    obtain ⟨hbit, hlt⟩ := ih
    have hr : b2n (r n) ≤ 1 := by cases r n <;> decide
    rw [List.range_succ, List.foldr_append, foldr_bits, List.foldr_cons, List.foldr_nil, Nat.add_zero]
    constructor
    · rw [Nat.add_comm, Nat.mul_comm, Nat.testBit_two_pow_mul_add _ hlt]
      split
      · rename_i hf
        rw [hbit]
        simp [hf, Nat.lt_succ_of_lt hf]
      · rename_i hf
        obtain rfl | hn := Nat.eq_or_lt_of_le (Nat.not_lt.1 hf)
        · cases h : r n <;> simp [b2n]
        · rw [Nat.testBit_lt_two_pow]
          · simp [show ¬ f < n + 1 by omega]
          · calc b2n (r n) ≤ 1 := hr
              _ < 2 ^ (f - n) := Nat.one_lt_two_pow (by omega)
    · rw [Nat.pow_succ]
      have := Nat.mul_le_mul_right (2 ^ n) hr
      omega

/-- Bit `f` of a mask over fibres. -/
@[simp] theorem getLsbD_maskOf (r : Nat → Bool) (f : Nat) : (maskOf r).getLsbD f = (decide (f < 32) && r f) := by
  have hbit := (testBit_foldr_bits r 32 f).1
  rw [maskOf, BitVec.getLsbD_ofNat, hbit]
  by_cases h : f < 32 <;> simp [h]

end Sys2Proof
end

section
/-! # Fibres, strokes and their re-formation (R34, R156) -/

namespace Sys2Proof.Machine

theorem mem_lanesOf {m : BitVec 32} {f : Nat} : f ∈ lanesOf m ↔ m.getLsbD f = true := by
  simp only [lanesOf, List.mem_filter, List.mem_range]
  exact ⟨fun h => h.2, fun h => ⟨BitVec.lt_of_getLsbD h, h⟩⟩

/-- The lowest fibre of a set that holds one is in it. -/
theorem getLsbD_lowest {m : BitVec 32} {f : Nat} (h : m.getLsbD f = true) : m.getLsbD (lowest m) = true := by
  have hf := mem_lanesOf.2 h
  cases hl : lanesOf m with
  | nil => simp [hl] at hf
  | cons k l =>
    have hk : k ∈ lanesOf m := by simp [hl]
    simpa [lowest, hl] using mem_lanesOf.1 hk

/-! ## Fibres -/

namespace Group

@[simp] theorem getLsbD_fibresWhere (g : Group) (p : Fibre → Bool) (f : Nat) :
    (g.fibresWhere p).getLsbD f = (decide (f < 32) && p (g.fibre f)) := getLsbD_maskOf _ _

/-- A fibre after a change of every fibre by its number. -/
theorem fibre_mapFibres (g : Group) (h : Nat → Fibre → Fibre) {f : Nat} (hf : f < 32) :
    (g.mapFibres h).fibre f = h f (g.fibre f) := by
  simp [mapFibres, fibre, List.getD_eq_getElem?_getD, hf]

theorem fibre_onFibres_of_lt (g : Group) (m : BitVec 32) (h : Fibre → Fibre) {f : Nat} (hf : f < 32) :
    (g.onFibres m h).fibre f = if m.getLsbD f then h (g.fibre f) else g.fibre f := by
  rw [fibre_onFibres, if_pos hf]

/-- A fibre that has been released from its wait. -/
def released (x : Fibre) : Fibre := { x with wait := .none, operand := 0, deadline := 0, instr := none }

theorem released_released (x : Fibre) : released (released x) = released x := rfl

theorem fibre_unpark (g : Group) (m : BitVec 32) {f : Nat} (hf : f < 32) :
    (g.unpark m).fibre f = if m.getLsbD f then released (g.fibre f) else g.fibre f :=
  fibre_onFibres_of_lt g m _ hf

theorem together_iff {x y : Fibre} : together x y = true ↔ x.pc = y.pc ∧ x.priv = y.priv ∧ x.inTrap = y.inTrap := by
  simp [together, and_assoc]

/-! ## Strokes -/

/-- Two fibres belong to one stroke: they are live and agree in stroke number, wait and program counter. -/
theorem getLsbD_strokeOf {g : Group} {e f : Nat} :
    (g.strokeOf f).getLsbD e = true ↔ e < 32 ∧ (g.fibre e).kind ≠ .empty ∧ (g.fibre e).ended = false ∧
      (g.fibre e).stroke = (g.fibre f).stroke ∧ (g.fibre e).wait = (g.fibre f).wait ∧ (g.fibre e).pc = (g.fibre f).pc := by
  simp [strokeOf, and_assoc]

theorem strokeOf_eq_of_mem {g : Group} {e f : Nat} (h : (g.strokeOf f).getLsbD e = true) : g.strokeOf e = g.strokeOf f := by
  obtain ⟨-, -, -, hs, hw, hp⟩ := getLsbD_strokeOf.1 h
  simp only [strokeOf, hs, hw, hp]

theorem getLsbD_running {g : Group} {f : Nat} :
    g.running.getLsbD f = true ↔
      f < 32 ∧ (g.fibre f).kind ≠ .empty ∧ (g.fibre f).ended = false ∧ (g.fibre f).wait = .none := by
  simp [running, and_assoc]

theorem getLsbD_parkedFor {g : Group} {w : Wait} {f : Nat} :
    (g.parkedFor w).getLsbD f = true ↔
      f < 32 ∧ (g.fibre f).kind ≠ .empty ∧ (g.fibre f).ended = false ∧ (g.fibre f).wait = w := by
  simp [parkedFor, and_assoc]

theorem getLsbD_live {g : Group} {f : Nat} :
    g.live.getLsbD f = true ↔ f < 32 ∧ (g.fibre f).kind ≠ .empty ∧ (g.fibre f).ended = false := by
  simp [live]

/-- A running fibre is in its own stroke. -/
theorem self_mem_strokeOf {g : Group} {f : Nat} (h : g.running.getLsbD f = true) : (g.strokeOf f).getLsbD f = true := by
  obtain ⟨hf, hk, he, -⟩ := getLsbD_running.1 h
  exact getLsbD_strokeOf.2 ⟨hf, hk, he, rfl, rfl, rfl⟩

/-- The stroke of a running fibre holds running fibres. -/
theorem running_of_mem_strokeOf {g : Group} {e f : Nat} (hf : g.running.getLsbD f = true)
    (h : (g.strokeOf f).getLsbD e = true) : g.running.getLsbD e = true := by
  obtain ⟨he, hk, hn, -, hw, -⟩ := getLsbD_strokeOf.1 h
  obtain ⟨-, -, -, hr⟩ := getLsbD_running.1 hf
  exact getLsbD_running.2 ⟨he, hk, hn, hw.trans hr⟩

theorem mem_strokes {g : Group} {k : BitVec 32} : k ∈ g.strokes ↔ ∃ f, g.running.getLsbD f = true ∧ g.strokeOf f = k := by
  simp [strokes, mem_lanesOf]

/-! ## Re-formation (R34) -/

/-- The number that the re-formed stroke of a running fibre takes: that of the lowest running one that it joins. -/
def joinNumber (g : Group) (f : Nat) : Nat := ((lanesOf g.running).find? fun h => together (g.fibre h) (g.fibre f)).getD f

/-- Some running fibre gives a running fibre's stroke its number: it may join itself. -/
theorem find?_together {g : Group} {f : Nat} (hf : g.running.getLsbD f = true) :
    ∃ k, (lanesOf g.running).find? (fun h => together (g.fibre h) (g.fibre f)) = some k :=
  Option.isSome_iff_exists.1 (List.find?_isSome.2 ⟨f, mem_lanesOf.2 hf, together_iff.2 ⟨rfl, rfl, rfl⟩⟩)

theorem together_joinNumber {g : Group} {f : Nat} (hf : g.running.getLsbD f = true) :
    together (g.fibre (g.joinNumber f)) (g.fibre f) = true := by
  obtain ⟨k, hk⟩ := find?_together hf
  simpa [joinNumber, hk] using List.find?_some hk

/-- Running fibres get one number exactly when they may share a stroke. -/
theorem joinNumber_eq_iff {g : Group} {e f : Nat} (he : g.running.getLsbD e = true) (hf : g.running.getLsbD f = true) :
    g.joinNumber e = g.joinNumber f ↔ together (g.fibre e) (g.fibre f) = true := by
  constructor
  · intro h
    obtain ⟨pe, ve, te⟩ := together_iff.1 (together_joinNumber he)
    obtain ⟨pf, vf, tf⟩ := together_iff.1 (together_joinNumber hf)
    rw [h] at pe ve te
    exact together_iff.2 ⟨pe.symm.trans pf, ve.symm.trans vf, te.symm.trans tf⟩
  · intro h
    obtain ⟨hp, hv, ht⟩ := together_iff.1 h
    have hsame : ∀ x, together x (g.fibre e) = together x (g.fibre f) := by
      intro x
      simp only [together, hp, hv, ht]
    obtain ⟨k, hk⟩ := find?_together hf
    simp [joinNumber, hsame, hk]

theorem fibre_joined (g : Group) {f : Nat} (hf : f < 32) :
    g.joined.fibre f = if g.running.getLsbD f then { g.fibre f with stroke := g.joinNumber f } else g.fibre f := by
  simp only [joined, fibre_mapFibres _ _ hf, joinNumber]

/-- A re-formation changes strokes, the mark of a restored group and the hint. -/
theorem reform_eq (g : Group) :
    g.reform = { g with fibres := g.joined.fibres, fresh := false, favour := g.reform.favour } := by
  rw [reform, joined, mapFibres]

@[simp] theorem fibres_reform (g : Group) : g.reform.fibres = g.joined.fibres := by rw [reform_eq]

theorem fibre_reform (g : Group) {f : Nat} (hf : f < 32) :
    g.reform.fibre f = if g.running.getLsbD f then { g.fibre f with stroke := g.joinNumber f } else g.fibre f := by
  rw [← fibre_joined g hf, fibre, fibres_reform, fibre]

/-- A re-formation changes nothing of a fibre but its stroke. -/
theorem fibre_reform_eq (g : Group) {f : Nat} (hf : f < 32) :
    g.reform.fibre f = { g.fibre f with stroke := (g.reform.fibre f).stroke } := by
  rw [fibre_reform g hf]
  split <;> rfl

/-- After a re-formation running fibres share a stroke exactly when they agree in program counter, mode and handler state. -/
theorem stroke_reform_eq_iff {g : Group} {e f : Nat} (he : g.running.getLsbD e = true) (hf : g.running.getLsbD f = true) :
    (g.reform.fibre e).stroke = (g.reform.fibre f).stroke ↔ (g.fibre e).pc = (g.fibre f).pc ∧
      (g.fibre e).priv = (g.fibre f).priv ∧ (g.fibre e).inTrap = (g.fibre f).inTrap := by
  rw [fibre_reform g (BitVec.lt_of_getLsbD he), fibre_reform g (BitVec.lt_of_getLsbD hf), if_pos he, if_pos hf,
    ← together_iff, ← joinNumber_eq_iff he hf]

theorem running_reform (g : Group) : g.reform.running = g.running := by
  refine BitVec.eq_of_getLsbD_eq fun f hf => Bool.eq_iff_iff.2 ?_
  rw [getLsbD_running, getLsbD_running, fibre_reform_eq g hf]

/-! ## Hints after a re-formation (R156) -/

theorem getLsbD_foldl_or (l : List (BitVec 32)) (a : BitVec 32) (e : Nat) :
    (l.foldl (· ||| ·) a).getLsbD e = (a.getLsbD e || l.any fun k => k.getLsbD e) := by
  induction l generalizing a with
  | nil => simp
  | cons k l ih => simp [ih, Bool.or_assoc]

/-- A re-formation has formed a fibre's stroke: the fibre runs, and its stroke is none of those before. -/
theorem getLsbD_formedIn {g h : Group} {e : Nat} :
    (g.formedIn h).getLsbD e = true ↔ h.running.getLsbD e = true ∧ h.strokeOf e ∉ g.strokes := by
  have hbit : (g.formedIn h).getLsbD e = true ↔ ∃ k, (k ∈ h.strokes ∧ k ∉ g.strokes) ∧ k.getLsbD e = true := by
    simp [formedIn, getLsbD_foldl_or, and_assoc]
  rw [hbit]
  constructor
  · rintro ⟨k, ⟨hk, hn⟩, he⟩
    obtain ⟨f, hf, rfl⟩ := mem_strokes.1 hk
    exact ⟨running_of_mem_strokeOf hf he, by rwa [strokeOf_eq_of_mem he]⟩
  · rintro ⟨he, hn⟩
    exact ⟨_, ⟨mem_strokes.2 ⟨e, he, rfl⟩, hn⟩, self_mem_strokeOf he⟩

/-- A running fibre's stroke was one before exactly when it was its own. -/
theorem strokeOf_mem_strokes_iff {g h : Group} {e : Nat} (hg : g.running.getLsbD e = true) (hh : h.running.getLsbD e = true) :
    h.strokeOf e ∈ g.strokes ↔ h.strokeOf e = g.strokeOf e := by
  constructor
  · intro hm
    obtain ⟨f, -, hf⟩ := mem_strokes.1 hm
    have he := self_mem_strokeOf hh
    rw [← hf] at he ⊢
    rw [strokeOf_eq_of_mem he]
  · intro heq
    exact mem_strokes.2 ⟨e, hg, heq.symm⟩

theorem favour_reform (g : Group) :
    g.reform.favour = (g.favour.map (· &&& ~~~g.formedIn g.reform)).filter (· != 0) := rfl

theorem favour_reform_ne_zero (g : Group) : g.reform.favour ≠ some 0 := by
  intro h
  rw [favour_reform, Option.filter_eq_some_iff] at h
  exact absurd h.2 (by decide)

/-- A fibre keeps its hint exactly when a re-formation has not formed its stroke anew. -/
theorem favour_reform_iff (g : Group) {e : Nat} (he : e < 32) :
    (∃ m, g.reform.favour = some m ∧ m.getLsbD e = true) ↔
      (∃ m, g.favour = some m ∧ m.getLsbD e = true) ∧ (g.running.getLsbD e = true → g.reform.strokeOf e = g.strokeOf e) := by
  have formed : (g.formedIn g.reform).getLsbD e = false ↔ (g.running.getLsbD e = true → g.reform.strokeOf e = g.strokeOf e) := by
    rw [← Bool.not_eq_true, getLsbD_formedIn, running_reform, not_and, Classical.not_not]
    refine forall_congr' fun hr => strokeOf_mem_strokes_iff hr ?_
    rwa [running_reform]
  rw [← formed, favour_reform]
  constructor
  · rintro ⟨m, hm, hb⟩
    rw [Option.filter_eq_some_iff, Option.map_eq_some_iff] at hm
    obtain ⟨⟨m', hm', rfl⟩, -⟩ := hm
    rw [BitVec.getLsbD_and, BitVec.getLsbD_not, Bool.and_eq_true, Bool.and_eq_true, Bool.not_eq_true'] at hb
    exact ⟨⟨m', hm', hb.1⟩, hb.2.2⟩
  · rintro ⟨⟨m, hm, hb⟩, hn⟩
    have hkept : (m &&& ~~~g.formedIn g.reform).getLsbD e = true := by
      rw [BitVec.getLsbD_and, BitVec.getLsbD_not, hb, hn]
      simp [he]
    refine ⟨_, Option.filter_eq_some_iff.2 ⟨Option.map_eq_some_iff.2 ⟨m, hm, rfl⟩, ?_⟩, hkept⟩
    rw [bne_iff_ne]
    intro h0
    simp [h0] at hkept

end Group
end Sys2Proof.Machine
end

section
/-! # The ends of waits: sleeps and MEETs (R39, R154) -/

namespace Sys2Proof.Machine

namespace Group

/-! ## Sleeps (R154) -/

/-- A sleeping fibre whose deadline has come by tick `n`. -/
def Due (g : Group) (n f : Nat) : Prop := (g.parkedFor .sleep).getLsbD f = true ∧ (g.fibre f).operand.toNat ≤ n

/-- Each fibre of `h` is as in `g`, or has been released from a sleep that was due. -/
def SleptTo (g : Group) (n : Nat) (h : Group) : Prop :=
  ∀ f, f < 32 → h.fibre f = g.fibre f ∨ Due g n f ∧ h.fibre f = released (g.fibre f)

/-- What a sleeping stroke does at tick `n`: its lowest fibre tells whether it goes on. -/
def wakeAt (n : Nat) (h : Group) (m : BitVec 32) : Group :=
  if (h.fibre (lowest m)).operand.toNat ≤ n then h.unpark m else h

/-- Some fibres sleep, and all to one deadline. -/
def SleepsAlike (g : Group) (m : BitVec 32) : Prop :=
  (∀ f, m.getLsbD f = true → (g.parkedFor .sleep).getLsbD f = true) ∧
    ∀ e f, m.getLsbD e = true → m.getLsbD f = true → (g.fibre e).operand = (g.fibre f).operand

theorem fibre_wakeAt (n : Nat) (h : Group) (m : BitVec 32) {f : Nat} (hf : f < 32) :
    (wakeAt n h m).fibre f =
      if m.getLsbD f = true ∧ (h.fibre (lowest m)).operand.toNat ≤ n then released (h.fibre f) else h.fibre f := by
  unfold wakeAt
  split
  · rename_i hn
    simp only [fibre_unpark h m hf, hn, and_true]
  · rename_i hn
    simp only [hn, and_false, if_false]

/-- Whether a stroke's lowest fibre has slept long enough does not depend on the strokes that have gone on before. -/
theorem SleptTo.due_lowest {g h : Group} {n f : Nat} {m : BitVec 32} (hs : SleptTo g n h) (ha : SleepsAlike g m)
    (hf : m.getLsbD f = true) : (h.fibre (lowest m)).operand.toNat ≤ n ↔ Due g n f := by
  obtain ⟨hsleep, halike⟩ := ha
  have hl := getLsbD_lowest hf
  have hdue : Due g n f ↔ (g.fibre (lowest m)).operand.toNat ≤ n := by
    rw [Due, halike f _ hf hl]
    exact and_iff_right (hsleep f hf)
  rw [hdue]
  rcases hs (lowest m) (BitVec.lt_of_getLsbD hl) with h1 | ⟨⟨-, h1⟩, h2⟩
  · rw [h1]
  · simp [h1, h2, released]

theorem SleptTo.wakeAt {g h : Group} {n : Nat} {m : BitVec 32} (hs : SleptTo g n h) (ha : SleepsAlike g m) :
    SleptTo g n (wakeAt n h m) := by
  intro f hf
  rw [fibre_wakeAt n h m hf]
  split
  · rename_i hm
    refine .inr ⟨(hs.due_lowest ha hm.1).1 hm.2, ?_⟩
    rcases hs f hf with h1 | ⟨-, h1⟩
    · rw [h1]
    · rw [h1, released_released]
  · exact hs f hf

/-- Once the strokes of a list have been looked at, those of their fibres that were due have gone on. -/
theorem slept_foldl_wakeAt {g : Group} {n : Nat} (ms : List (BitVec 32)) (ha : ∀ m, m ∈ ms → SleepsAlike g m) :
    ∀ h, SleptTo g n h → SleptTo g n (ms.foldl (wakeAt n) h) ∧
      ∀ f, f < 32 → h.fibre f = released (g.fibre f) ∨ (∃ m, m ∈ ms ∧ m.getLsbD f = true) ∧ Due g n f →
        (ms.foldl (wakeAt n) h).fibre f = released (g.fibre f) := by
  induction ms with
  | nil =>
    intro h hs
    exact ⟨hs, fun f _ hf => hf.elim id fun ⟨⟨m, hm, _⟩, _⟩ => absurd hm List.not_mem_nil⟩
  | cons m ms ih =>
    intro h hs
    have hm := ha m List.mem_cons_self
    obtain ⟨hkeep, hgo⟩ := ih (fun k hk => ha k (List.mem_cons_of_mem _ hk)) (wakeAt n h m) (hs.wakeAt hm)
    refine ⟨hkeep, fun f hf hcase => hgo f hf ?_⟩
    rw [fibre_wakeAt n h m hf]
    rcases hcase with hr | ⟨⟨k, hk, hkf⟩, hd⟩
    · left
      rw [hr]
      split <;> rfl
    · rcases List.mem_cons.1 hk with rfl | hk
      · left
        rw [if_pos ⟨hkf, (hs.due_lowest hm hkf).2 hd⟩]
        rcases hs f hf with h1 | ⟨-, h1⟩
        · rw [h1]
        · rw [h1, released_released]
      · exact .inr ⟨⟨k, hk, hkf⟩, hd⟩

theorem frame_foldl_wakeAt (n : Nat) (ms : List (BitVec 32)) (h : Group) :
    ms.foldl (wakeAt n) h = { h with fibres := (ms.foldl (wakeAt n) h).fibres } := by
  induction ms generalizing h with
  | nil => rfl
  | cons m ms ih =>
    rw [List.foldl_cons, ih, wakeAt]
    split <;> rfl

theorem mem_waiting {g : Group} {w : Wait} {m : BitVec 32} :
    m ∈ g.waiting w ↔ ∃ f, ((g.parkedFor w).getLsbD f = true ∧ lowest (g.strokeOf f) = f) ∧ g.strokeOf f = m := by
  simp [waiting, mem_lanesOf]

theorem parkedFor_of_mem_strokeOf {g : Group} {w : Wait} {e f : Nat} (hf : (g.parkedFor w).getLsbD f = true)
    (he : (g.strokeOf f).getLsbD e = true) : (g.parkedFor w).getLsbD e = true := by
  obtain ⟨hlt, hk, hn, -, hw, -⟩ := getLsbD_strokeOf.1 he
  obtain ⟨-, -, -, hp⟩ := getLsbD_parkedFor.1 hf
  exact getLsbD_parkedFor.2 ⟨hlt, hk, hn, hw.trans hp⟩

/-- Every fibre that waits is in a waiting stroke. -/
theorem exists_mem_waiting {g : Group} {w : Wait} {f : Nat} (hf : (g.parkedFor w).getLsbD f = true) :
    ∃ m, m ∈ g.waiting w ∧ m.getLsbD f = true := by
  obtain ⟨hlt, hk, hn, -⟩ := getLsbD_parkedFor.1 hf
  have hself : (g.strokeOf f).getLsbD f = true := getLsbD_strokeOf.2 ⟨hlt, hk, hn, rfl, rfl, rfl⟩
  have hl := getLsbD_lowest hself
  have heq := strokeOf_eq_of_mem hl
  exact ⟨g.strokeOf f, mem_waiting.2 ⟨_, ⟨parkedFor_of_mem_strokeOf hf hl, by rw [heq]⟩, heq⟩, hself⟩

/-- Sleeping fibres of one stroke at one SLEEP have one deadline. -/
def DeadlinesAgree (g : Group) : Prop :=
  ∀ e f, (g.parkedFor .sleep).getLsbD e = true → (g.parkedFor .sleep).getLsbD f = true →
    (g.fibre e).stroke = (g.fibre f).stroke → (g.fibre e).pc = (g.fibre f).pc → (g.fibre e).operand = (g.fibre f).operand

theorem DeadlinesAgree.sleepsAlike {g : Group} (h : DeadlinesAgree g) {m : BitVec 32} (hm : m ∈ g.waiting .sleep) :
    SleepsAlike g m := by
  obtain ⟨k, ⟨hk, -⟩, rfl⟩ := mem_waiting.1 hm
  refine ⟨fun f hf => parkedFor_of_mem_strokeOf hk hf, fun e f he hf => ?_⟩
  obtain ⟨-, -, -, hse, -, hpe⟩ := getLsbD_strokeOf.1 he
  obtain ⟨-, -, -, hsf, -, hpf⟩ := getLsbD_strokeOf.1 hf
  exact h e f (parkedFor_of_mem_strokeOf hk he) (parkedFor_of_mem_strokeOf hk hf) (hse.trans hsf.symm) (hpe.trans hpf.symm)

/-- A group after the ends of its sleeps at tick `n`. -/
def woken (g : Group) (n : Nat) : Group := (g.waiting .sleep).foldl (wakeAt n) g

theorem fibre_woken {g : Group} (h : DeadlinesAgree g) (n : Nat) {f : Nat} (hf : f < 32) :
    (Due g n f → (g.woken n).fibre f = released (g.fibre f)) ∧ (¬ Due g n f → (g.woken n).fibre f = g.fibre f) := by
  obtain ⟨hslept, hgone⟩ := slept_foldl_wakeAt (n := n) _ (fun _ => h.sleepsAlike) g fun _ _ => .inl rfl
  exact ⟨fun hd => hgone f hf (.inr ⟨exists_mem_waiting hd.1, hd⟩), fun hd => (hslept f hf).resolve_right fun hr => hd hr.1⟩

/-! ## The release of MEETs (R39) -/

/-- A group whose MEETs have opened: its live fibres go on behind them and form strokes anew. -/
def opened (g : Group) : Group := ((g.unpark g.live).onFibres g.live fun x => { x with pc := x.pc + 8 }).reform

theorem opened_eq (g : Group) : g.opened = { g with fibres := g.opened.fibres, fresh := false, favour := g.opened.favour } := by
  rw [opened, reform_eq]
  rfl

theorem fibre_opened {g : Group} {f : Nat} (hf : g.live.getLsbD f = true) :
    (g.opened.fibre f).wait = .none ∧ (g.opened.fibre f).pc = (g.fibre f).pc + 8 := by
  have hlt := BitVec.lt_of_getLsbD hf
  rw [opened, fibre_reform_eq _ hlt, fibre_onFibres_of_lt _ _ _ hlt, fibre_unpark _ _ hlt, if_pos hf, if_pos hf]
  exact ⟨rfl, rfl⟩

end Group

namespace State

open Claim

/-- Where no scroll records, a sleeping stroke goes on once its package's TIMEBASE has come to its deadline (R154). -/
theorem wakeSleeper_of_unlogged {s : State} {gid : Nat} {g : Group} (m : BitVec 32) (hg : s.group? gid = some g)
    (hoff : Unlogged s g.ctx) :
    s.wakeSleeper gid m =
      if (g.fibre (lowest m)).operand.toNat ≤ (s.ticks (pkgOf g.core)).toNat then s.modGroup gid (·.unpark m) else s := by
  obtain ⟨hmode, hfrozen⟩ := hoff
  simp only [wakeSleeper, hg, sleepOver, replays, hmode, gatedWake, gated_of_off _ _ (hmode _) hfrozen, logWake,
    log_of_off _ _ (hmode _)]
  simp

/-- Sleeping strokes that are looked at one after another change their group only. -/
theorem foldl_wakeSleeper {gid : Nat} (ms : List (BitVec 32)) :
    ∀ {s : State} {g : Group}, s.group? gid = some g → Unlogged s g.ctx →
      ∃ t, ms.foldl (fun s m => s.wakeSleeper gid m) s = t ∧ t = { s with groups := t.groups } ∧
        (∀ n, n ≠ gid → t.group? n = s.group? n) ∧
        t.group? gid = some (ms.foldl (Group.wakeAt (s.ticks (pkgOf g.core)).toNat) g) := by
  induction ms with
  | nil =>
    intro s g hg _
    exact ⟨s, rfl, rfl, fun _ _ => rfl, hg⟩
  | cons m ms ih =>
    intro s g hg hoff
    simp only [List.foldl_cons, wakeSleeper_of_unlogged m hg hoff, Group.wakeAt]
    split
    · have hg' : (s.modGroup gid (·.unpark m)).group? gid = some (g.unpark m) := by simp [group_modGroup, hg]
      obtain ⟨t, ht, hs, hn, hk⟩ := ih hg' hoff
      refine ⟨t, ht, by rw [hs]; rfl, fun n hne => ?_, hk⟩
      rw [hn n hne, group_modGroup, if_neg hne]
    · exact ih hg hoff

theorem meetRelease_of_all {s : State} {gid : Nat} {g : Group} (hg : s.group? gid = some g) (hl : g.live ≠ 0)
    (hm : g.parkedFor .meet = g.live) : s.meetRelease gid = { s with groups := s.groups.put gid g.opened } := by
  simp only [meetRelease, hg, if_pos (And.intro hl hm)]
  exact modGroup_of_group _ hg

/-- Whether a re-formation reaches a group: it is resident, and no records of a replay form its strokes (R34, R346). -/
def reforms (s : State) (g : Group) : Prop := g.phase = .resident ∧ (s.scroll g.ctx (pkgOf g.core)).mode ≠ 2

theorem group_reformAll {s : State} {n : Nat} {g : Group} (hg : s.group? n = some g) :
    (s.reforms g → s.reformAll.group? n = some g.reform) ∧ (¬ s.reforms g → s.reformAll.group? n = some g) := by
  have hcond : (g.phase == .resident && !s.replays g.ctx (pkgOf g.core)) = true ↔ s.reforms g := by simp [reforms, replays]
  have hg' : s.groups.get? n = some g := hg
  simp only [reformAll, group?, Tbl.get?_update, hg', Option.map_some]
  exact ⟨fun h => by rw [if_pos (hcond.2 h)], fun h => by rw [if_neg (mt hcond.1 h)]⟩

end State

open State Claim

/-- A re-formation gives each group that it reaches the strokes of R34, and no other. -/
theorem reformation : Reformation := by
  intro s hc hs
  refine ⟨s.reformAll, by simp [exec, execStrokeReformation, hc, hs], rfl, fun n g hg => ?_⟩
  obtain ⟨hreformed, hsame⟩ := group_reformAll hg
  by_cases hr : s.reforms g
  · obtain ⟨hres, hmode⟩ := hr
    refine ⟨g.reform, hreformed ⟨hres, hmode⟩, by rw [Group.fibres_reform, Group.reform_eq],
      fun f hf => Group.fibre_reform_eq g hf, ?_, fun _ _ => ?_⟩
    · rintro (h | h)
      · exact absurd hres h
      · exact absurd h hmode
    · exact ⟨by rw [Group.reform_eq], fun e f _ _ he hf => Group.stroke_reform_eq_iff he hf, Group.favour_reform_ne_zero g,
        fun e he => Group.favour_reform_iff g he⟩
  · exact ⟨g, hsame hr, rfl, fun _ _ => rfl, fun _ => rfl, fun h1 h2 => absurd ⟨h1, h2⟩ hr⟩

/-- Urgency, the release of MEETs and the ends of sleeps, each a change of its group alone. -/
theorem groupEvents : GroupEvents := by
  intro s gid g hg
  refine ⟨fun hres hready hlong => ?_, fun hl hm => ?_, fun hres hoff halike => ?_⟩
  · have hurgent : (g.phase == .resident && g.readyFrom != 0
        && decide (g.readyFrom - 1 + Config.urgentCycles ≤ s.cycle)) = true := by
      simp [hres, hready, hlong, Config.urgentCycles]
    simp only [exec, execGroupUrgent, hg]
    rw [if_pos hurgent, modGroup_of_group _ hg]
  · refine ⟨_, g.opened, ?_, rfl, Group.opened_eq g, fun f _ hf => Group.fibre_opened hf⟩
    simp only [exec, execMeetRelease, meetRelease_of_all hg hl hm]
  · obtain ⟨t, ht, hs, hn, hk⟩ := foldl_wakeSleeper (g.waiting .sleep) hg hoff
    refine ⟨t, g.woken (s.ticks (pkgOf g.core)).toNat, ?_, hk, hs, hn, Group.frame_foldl_wakeAt _ _ _, fun f hf => ?_⟩
    · simp only [exec, execSleepExpiry, hg, hres, beq_self_eq_true, if_true, ht]
    · obtain ⟨hgone, hstay⟩ := Group.fibre_woken halike (s.ticks (pkgOf g.core)).toNat hf
      refine ⟨fun hd => ?_, fun hd => hstay fun hdue => ?_⟩
      · rw [hgone hd]
        exact ⟨rfl, rfl⟩
      · rcases hd with h | h
        · simp [hdue.1] at h
        · exact absurd hdue.2 (Nat.not_le.2 h)

/-- Settles O50: by the numbers that a re-formation gives to strokes, and for sleeps by induction over the waiting strokes. -/
theorem strokeEvents : Obligations.StrokeEvents := ⟨reformation, groupEvents⟩

end Sys2Proof.Machine
end

section
/-! # Instructions with no effect: no active fibre, and helpers alone (R32, R89) -/

namespace Sys2Proof.Machine

open State Claim

/-- A meaning without a privilege check of its own is a stroke's, behind the checks of every issue (R89). -/
theorem exec_eq_onStroke {i : Instr} {gd : Guard} (s : State) (h : guardOf i = some gd) (hp : needsPrivilege i = false) :
    ∃ body, exec i s = onStroke i gd s body := by
  cases i
  all_goals cases h
  case xret | fretry | fretryExhaust | fretryFatal => cases hp
  all_goals
    simp only [exec,
      execSmov, execSmovGetp, execSmovSetp, execSmovi, execSadd, execSaddi, execSsub, execSmul, execSmulhi, execSdiv, execSrem,
      execSand, execSor, execSxor, execSshl, execSshr, execSshra, execSmin, execSmax, execSsel, execScmp, execSplog, execSlea,
      execSbfx, execSbfi, execSclz, execSpopc, execSfadd, execSfmul, execSfma, execSfcmp, execSfcvt, execBr, execVbr, execJmp,
      execJmpr, execCall, execCallr, execRet, execMeet, execFend, execGexit, execYield, execSleep, execNop, execVmov, execVmovi,
      execVmovx, execVstx, execViota, execVadd, execVsub, execVmul, execVmulhi, execVmad, execVdiv, execVrem, execVand, execVor,
      execVxor, execVnot, execVshl, execVshr, execVshra, execVmin, execVmax, execVabs, execVneg, execVsel, execVcmp, execVplog,
      execVclz, execVpopc, execVbfx, execVbfi, execVperm, execVshfl, execQswap, execQbcast, execVred, execVscan, execVballot,
      execVtos, execStov, execPtest, execVfadd, execVfsub, execVfmul, execVfma, execVfmin, execVfmax, execVfabs, execVfneg,
      execVfcmp, execVfrcp, execVfrsq, execVfsqrt, execVfdiv, execVfexp2, execVflog2, execVfscl, execVfexpo, execVfclass,
      execVcvt, execVpack2, execVunpack2, execVpack4, execVunpack4, execVqpack, execVqunpk, execVdot2, execVdot4, execVld,
      execVst, execVldc, execSld, execSst, execVatom, execSatom, execSpushv, execSpopv, execFence, execWaitw, execBar, execBara,
      execBarw, execCbinit, execCbexpect, execCbarrive, execCbwait, execCbtest, execRlock, execRunlock, execCpy, execCpyt,
      execCpym, execCpytest, execMacq, execMacqTeam, execMrel, execMgrow, execMzero, execMloop, execMsacc, execMldacc,
      execMstacc, execTsend, execTrecv, execNself, execNwake, execNsignal, execNsignalKill, execNdeposit, execNjoin, execNpark,
      execNstat, execTspawn, execTpost, execTdone, execRgacq, execRgcommit, execRgpeek, execRgrel, execWdnext, execLaunch,
      execTrap, execSysrd, execSyswr, execSyswrXlflush, execSyswrScrridx, execBkpt, execLogmark, execEvpost,
      onSysReg, scalarOp, scalarPred, intRow, uniformBranch, registerTransfer, vectorOp, vectorMulti, predOp, vInt, vUn, vf1,
      vf2, vectorLoad, nameStroke, copyStroke]
  case vmov => split <;> exact ⟨_, rfl⟩
  all_goals exact ⟨_, rfl⟩

/-- With no active fibre, whatever the meaning would do, the stroke moves on. -/
theorem onStroke_moved {i : Instr} {gd : Guard} {s : State} {u : Issue} {g : Group}
    (body : Issue → Group → BitVec 32 → State → State) (hs : Issues s u g) (hb : i.inBudget g.budget = true)
    (ha : g.active u.mask gd = 0) :
    onStroke i gd s body = .next { s with groups := s.groups.put u.gid (moved g u i.len) } := by
  obtain ⟨hi, hg⟩ := hs
  rw [onStroke_idle body hi hg hb ha, advance_of_group _ hg, moved]

/-- A privileged instruction of a privileged stroke passes the checks of every issue (R100). -/
theorem onPrivileged_of_privileged {i : Instr} {gd : Guard} {s : State} {u : Issue} {g : Group}
    (body : Issue → Group → BitVec 32 → State → State) (hs : Issues s u g) (hp : privilegedAt g u.mask = true) :
    onPrivileged i gd s body = onStroke i gd s body := by
  obtain ⟨hi, hg⟩ := hs
  simp only [onPrivileged, hi, hg, hp, Bool.not_true, Bool.false_eq_true, if_false]

/-- The others check the privilege of the stroke before those (R100, R101). -/
theorem exec_eq_onPrivileged {i : Instr} {gd : Guard} (s : State) (h : guardOf i = some gd) (hp : needsPrivilege i = true) :
    ∃ body, exec i s = onPrivileged i gd s body := by
  cases i
  case xret | fretry | fretryExhaust | fretryFatal =>
    cases h
    simp only [exec, execXret, execFretry, execFretryExhaust, execFretryFatal, fretryEnds]
    exact ⟨_, rfl⟩
  all_goals cases hp

/-- Privilege comes first or not at all; what is left is a stroke with no active fibre. -/
theorem unguarded : Unguarded := by
  intro i gd s u g hgd hs hb ha hpriv
  cases hp : needsPrivilege i with
  | false =>
    obtain ⟨body, h⟩ := exec_eq_onStroke s hgd hp
    rw [h, onStroke_moved body hs hb ha]
  | true =>
    obtain ⟨body, h⟩ := exec_eq_onPrivileged s hgd hp
    rw [h, onPrivileged_of_privileged body hs (hpriv hp), onStroke_moved body hs hb ha]

/-- A stroke whose meaning does nothing for helpers alone moves on in a stroke of helpers. -/
theorem onStroke_helpers {i : Instr} {gd : Guard} {s : State} {u : Issue} {g : Group}
    (rest : Issue → Group → BitVec 32 → State → State) (hx : Executes i gd s u g)
    (hh : g.helperOnly (g.active u.mask gd) = true) :
    (onStroke i gd s fun u g a s => if g.helperOnly a then s.advance u i.len else rest u g a s) =
      .next { s with groups := s.groups.put u.gid (moved g u i.len) } := by
  obtain ⟨⟨hi, hg⟩, hb, ha⟩ := hx
  rw [onStroke_acts _ hi hg hb ha, if_pos hh, advance_of_group _ hg, moved]

/-- Each suppressed meaning begins with the test for helpers. -/
theorem helpersOnly : HelpersOnly := by
  intro i gd s u g hgd hx hh hs
  cases i
  case sst | satom | cpy | cpyt | cpym | nwake | nsignal | nsignalKill | ndeposit | njoin | rgcommit | tdone | wdnext | evpost
      | cbinit | cbexpect | cbarrive | tsend | trecv | mstacc =>
    cases hgd
    simp only [exec, execSst, execSatom, execCpy, execCpyt, execCpym, execNwake, execNsignal, execNsignalKill, execNdeposit,
      execNjoin, execRgcommit, execTdone, execWdnext, execEvpost, execCbinit, execCbexpect, execCbarrive, execTsend,
      execTrecv, execMstacc, copyStroke, nameStroke]
    exact onStroke_helpers _ hx hh
  all_goals cases hs

/-- Settles O12: each instruction is a stroke behind the checks of its issue, and the suppressed ones test for helpers first. -/
theorem noActiveFibre : Obligations.NoActiveFibre := ⟨unguarded, helpersOnly⟩

end Sys2Proof.Machine
end

section
/-! # A MEET whose release leaves a part of a hint (R39, R156) -/

namespace Sys2Proof.Machine

open State Claim

/-- A guard that is always true (R83). -/
def always : Guard := ⟨15, false⟩

/-- Fibres 0 and 1 were the taken part of a likely VBR, and fibre 2 the other one. Fibre 1 has ended, fibre 0 waits at the MEET at
0x1000, and fibre 2 has reached the same MEET. -/
def hintedGroup : Group where
  ctx := 0
  launch := 0
  cohort := 0
  index := 0
  role := 0
  phase := .resident
  favour := some 0b011
  fibres := [{ kind := .fibre, pc := 0x1000, wait := .meet, operand := 0x1000, instr := some (.meet always) },
    { kind := .fibre, ended := true, pc := 0x1000 }, { kind := .fibre, pc := 0x1000, stroke := 2 }]

/-- Fibre 2 issues, the last live fibre to reach its MEET. -/
def lastAtMeet : Issue := { gid := 0, mask := 0b100, pc := 0x1000 }

/-- The group alone, while that stroke issues. -/
def hintedState : State := { State.reset with groups := [(0, hintedGroup)], issuing := some lastAtMeet }

/-- The stroke of fibre 2 executes the MEET. -/
theorem executes_meet_hinted : Executes (.meet always) always hintedState lastAtMeet hintedGroup :=
  ⟨⟨rfl, rfl⟩, by decide +kernel, by decide +kernel⟩

/-- The release joins fibres 0 and 2, and the hint of the ended fibre 1 is left: neither the old hint nor none. -/
theorem favour_after_meet_hinted {t : State} {h : Group} (he : exec (.meet always) hintedState = .next t)
    (hg : t.group? 0 = some h) : h.favour = some 0b010 := by
  have run : (match exec (.meet always) hintedState with
      | .next t => (t.group? 0).map (·.favour)
      | _ => none) = some (some 0b010) := by decide +kernel
  rw [he] at run
  simpa [hg] using run

/-- Refutes O17: a release takes the fibres of the strokes that it forms out of the hint (R156), and a hint that also names a fibre
that has ended keeps that one; it is then neither as before nor gone. -/
theorem not_meet : ¬ Obligations.Meet := by
  intro h
  have hall : ∀ f, f < 32 → hintedGroup.live.getLsbD f = true →
      lastAtMeet.mask.getLsbD f = true ∨ (hintedGroup.fibre f).wait = .meet := by decide +kernel
  obtain ⟨t, q, he, ht, -, hfav, -⟩ := (h always hintedState lastAtMeet hintedGroup executes_meet_hinted).2 hall
  have hq := favour_after_meet_hinted he (by rw [ht]; exact Tbl.get?_put_self _ _ _)
  rw [hq] at hfav
  exact absurd hfav (by decide)

end Sys2Proof.Machine
end

section
/-! # A name entry on the page table that it is reached by (R162, R299) -/

namespace Sys2Proof.Machine

open State Claim

/-- A context whose first page table stands at 32. -/
def tableContext : Context where
  home := 0
  sites := [(0, { root := 32 })]

/-- A task group that FEND has ended (R31). -/
def endingTask : Group where
  ctx := 1
  launch := 0
  cohort := 0
  index := 0
  role := 0
  name := mkName 1 1 1
  phase := .ending
  cause := .exit

/-- Its cohort (R331). -/
def taskCohort : Cohort where
  ctx := 1
  launch := 0
  num := 0
  cluster := 0
  member := 0
  groups := [0]
  task := true

/-- Its entry of the name table. As a word of a page table the first eight bytes name a table at 65536. -/
def overlaidEntry : NameEntry := { state := stRunning, kind := 1, gen := 1 }

/-- The name table's first entries lie at address 0, which is mapped to physical address 0: the group's entry stands at 32, on the word
of the first page table that its own address is translated by. Memory is in canonical form, and lists no byte that a word of its tables does not need. -/
def overlaidState : State :=
  { State.reset with
    mem := [(32, 1), (33, 1), (34, 1), (65536, 1), (65538, 2), (131072, 0x8D)]
    contexts := [(1, tableContext)]
    groups := [(0, endingTask)]
    cohorts := [(0, taskCohort)] }

/-- The entry can be read. -/
theorem entry_overlaid : overlaidState.entry? 1 1 = some overlaidEntry := by decide +kernel

/-- It can be written at its place. -/
theorem entryPlace_overlaid : entryPlace overlaidState 1 1 32 := by
  refine ⟨by decide +kernel, by decide +kernel, fun c hc => ?_⟩
  cases hc
  rfl

/-- The cause that the end writes moves the table's address out of memory, so the entry that is to be reaped is not found. -/
theorem state_after_end_overlaid {t : State} (he : exec (.groupEndFinalise 0) overlaidState = .next t) :
    (entryAt t 32).state = stDead := by
  have run : (match exec (.groupEndFinalise 0) overlaidState with
      | .next t => (entryAt t 32).state
      | _ => 0) = stDead := by decide +kernel
  rwa [he] at run

/-- Refutes O55: the end of a task group writes the group's entry twice, as DEAD and as FREE. Where the entry's bytes are a word of the
page tables that lead to them, the first write breaks the walk of the second, and the entry stays DEAD. -/
theorem not_residencyEvents : ¬ Obligations.ResidencyEvents := by
  rintro ⟨-, saves⟩
  obtain ⟨-, -, -, ends⟩ := saves overlaidState
  obtain ⟨t, h, he, -, -, -, -, entry⟩ := ends 0 endingTask rfl rfl (by simp [overlaidState, State.reset]) rfl
  have freed := ((entry overlaidEntry 32 taskCohort entry_overlaid entryPlace_overlaid rfl rfl).2 rfl).1
  rw [state_after_end_overlaid he] at freed
  exact absurd freed (by decide)

end Sys2Proof.Machine
end

section
/-! # Traps that enter the handler, and operands outside the budget (R53, R351) -/

namespace Sys2Proof.Machine

open State Claim

/-- Whether a set of fibres holds a privileged one, fibre by fibre. -/
theorem privilegedAt_eq_any (g : Group) (m : BitVec 32) :
    privilegedAt g m = (lanesOf m).any fun f => (g.fibre f).priv := by
  rw [Bool.eq_iff_iff]
  simp only [privilegedAt, bne_iff_ne, ne_eq, List.any_eq_true, mem_lanesOf]
  constructor
  · refine fun h => Classical.byContradiction fun hno => h (BitVec.eq_of_getLsbD_eq fun f hf => ?_)
    have hnone := not_and.1 (not_exists.1 hno f)
    simp only [BitVec.getLsbD_and, Group.getLsbD_fibresWhere]
    simpa [hf] using hnone
  · rintro ⟨f, hm, hp⟩ h
    have hbit : (m &&& g.fibresWhere (·.priv)).getLsbD f = true := by
      rw [BitVec.getLsbD_and, Group.getLsbD_fibresWhere]
      simp [hm, hp, BitVec.lt_of_getLsbD hm]
    simp [h] at hbit

/-- XSTAT as a trap writes it, as the mask and the bit of the mode side by side (R357). -/
theorem xstatOf_eq_or (m : BitVec 32) (p : Bool) :
    xstatOf m p = m.setWidth 64 ||| (if p then 0x100000000 else 0) := by
  have hm := m.isLt
  apply BitVec.eq_of_toNat_eq
  cases p with
  | false => simp [xstatOf, b2n]
  | true =>
    have hor := Nat.two_pow_add_eq_or_of_lt hm 1
    rw [Nat.mul_one, Nat.or_comm] at hor
    have hbit : (0x100000000 : Word64).toNat = 2 ^ 32 := rfl
    rw [if_pos rfl, BitVec.toNat_or, BitVec.toNat_setWidth, Nat.mod_eq_of_lt (by omega), hbit, ← hor]
    simp only [xstatOf, b2n, if_true, BitVec.toNat_ofNat]
    omega

/-- A fibre of a set that becomes a stroke of its own takes its number. -/
theorem fibre_asStroke (g : Group) (k : BitVec 32) {f : Nat} (hf : f < 32) :
    (g.asStroke k).fibre f = if k.getLsbD f then { g.fibre f with stroke := lowest k } else g.fibre f :=
  Group.fibre_onFibres_of_lt g k _ hf

/-- A change of strokes changes the mode of no fibre. -/
theorem privilegedAt_asStroke (g : Group) (k m : BitVec 32) : privilegedAt (g.asStroke k) m = privilegedAt g m := by
  rw [privilegedAt_eq_any, privilegedAt_eq_any, Bool.eq_iff_iff]
  simp only [List.any_eq_true]
  refine exists_congr fun f => and_congr_right fun hf => ?_
  rw [fibre_asStroke _ _ (BitVec.lt_of_getLsbD (mem_lanesOf.1 hf))]
  split <;> rfl

/-- A group some of whose fibres have entered the handler as a stroke (R351). -/
def atHandler (g : Group) (m : BitVec 32) (entry : Word64) : Group :=
  ((g.unpark m).onFibres m fun x => { x with pc := entry, priv := true, inTrap := true, held := none }).asStroke m

theorem fibre_atHandler (g : Group) (m : BitVec 32) (entry : Word64) {f : Nat} (hf : f < 32) :
    (atHandler g m entry).fibre f =
      if m.getLsbD f then
        { Group.released (g.fibre f) with pc := entry, priv := true, inTrap := true, held := none, stroke := lowest m }
      else g.fibre f := by
  simp only [atHandler, fibre_asStroke _ _ hf, Group.fibre_onFibres_of_lt _ _ _ hf, Group.fibre_unpark _ _ hf]
  split <;> rfl

/-- The system registers after a trap of some fibres (R351, R357). -/
def trapSys (g : Group) (m : BitVec 32) (cause : Byte) (xpc xaddr : Word64) : SysRegs :=
  { g.sys with
    xpc := xpc, xcause := BitVec.ofNat 64 cause.toNat, xstat := xstatOf m (privilegedAt g m), xaddr := xaddr }

theorem trapSys_eq (g : Group) (m : BitVec 32) (cause : Byte) (xpc xaddr : Word64) :
    trapSys g m cause xpc xaddr = { g.sys with
      xpc := xpc, xcause := cause.setWidth 64, xaddr := xaddr
      xstat := m.setWidth 64 ||| (if (lanesOf m).any fun f => (g.fibre f).priv then 0x100000000 else 0) } := by
  have hcause : BitVec.ofNat 64 cause.toNat = cause.setWidth 64 := BitVec.eq_of_toNat_eq (by simp)
  rw [trapSys, hcause, xstatOf_eq_or, privilegedAt_eq_any]

/-- A group after a trap of some fibres of a stroke, the rest of which has become a stroke of its own (R351). -/
def trapped (g : Group) (rest m : BitVec 32) (cause : Byte) (entry xpc xaddr : Word64) : Group :=
  { g with fibres := (atHandler (g.asStroke rest) m entry).fibres, sys := trapSys g m cause xpc xaddr }

theorem fibre_trapped (g : Group) (rest m : BitVec 32) (cause : Byte) (entry xpc xaddr : Word64) {f : Nat} (hf : f < 32) :
    (trapped g rest m cause entry xpc xaddr).fibre f =
      if m.getLsbD f then
        { Group.released ((g.asStroke rest).fibre f) with
          pc := entry, priv := true, inTrap := true, held := none, stroke := lowest m }
      else (g.asStroke rest).fibre f := by
  rw [← fibre_atHandler _ m entry hf]
  simp only [Group.fibre, trapped]

section
variable {s : State} {u : Issue} {g : Group}

/-- A trap that can be taken changes the fibres and the system registers of its group and nothing else. -/
theorem trap_of_canTrap (m : BitVec 32) (cause : Byte) (xaddr : Word64) (plus8 : Bool) (hg : s.group? u.gid = some g)
    (hc : CanTrap s g) :
    s.trap u m cause xaddr plus8 = { s with
      groups := s.groups.put u.gid
        (trapped g (u.mask &&& ~~~m) m cause (s.xvec g.ctx) (if plus8 then u.pc + 8 else u.pc) xaddr) } := by
  obtain ⟨hx, hm⟩ := hc
  have hput : (s.modGroup u.gid fun g => g.asStroke (u.mask &&& ~~~m)).group? u.gid = some (g.asStroke (u.mask &&& ~~~m)) := by
    simp [group_modGroup, hg]
  rw [trap_enters cause xaddr plus8 hg hx hm]
  simp only [enterHandler, hput, privilegedAt_asStroke, modGroup_modGroup]
  rw [modGroup_of_group _ hg]
  rfl

/-- What such a trap does, field by field (R351). -/
theorem handling_trap (m : BitVec 32) (cause : Byte) (xaddr : Word64) (plus8 : Bool) (hg : s.group? u.gid = some g)
    (hc : CanTrap s g) :
    Handling s u g m cause (if plus8 then u.pc + 8 else u.pc) xaddr (s.trap u m cause xaddr plus8) := by
  refine ⟨_, trap_of_canTrap m cause xaddr plus8 hg hc, rfl, trapSys_eq g m cause _ xaddr, ?_, ?_, ?_⟩
  · intro f hf hm
    rw [fibre_trapped _ _ _ _ _ _ _ hf, if_pos hm, fibre_asStroke _ _ hf, if_neg (by simp [hm])]
    exact ⟨rfl, rfl, rfl, rfl, rfl, rfl⟩
  · intro f hf hm hu
    rw [fibre_trapped _ _ _ _ _ _ _ hf, if_neg (by simp [hm]), fibre_asStroke _ _ hf, if_neg (by simp [hu])]
  · intro f hf hm hu
    rw [fibre_trapped _ _ _ _ _ _ _ hf, if_neg (by simp [hm]), fibre_asStroke _ _ hf,
      if_pos (by rw [BitVec.getLsbD_and, BitVec.getLsbD_not, hu, hm]; simp [hf])]

end

/-- An instruction that checks its privilege first names no vector register. -/
theorem inBudget_of_needsPrivilege {i : Instr} (h : needsPrivilege i = true) (n : Nat) : i.inBudget n = true := by
  cases i
  case xret | fretry | fretryExhaust | fretryFatal => rfl
  all_goals cases h

/-- Settles O13: behind the checks of an issue, a register outside the budget is a trap of the whole stroke. -/
theorem illegalOperand : Obligations.IllegalOperand := by
  intro i gd s u g hgd hs hb hc
  obtain ⟨hi, hg⟩ := hs
  have hp : needsPrivilege i = false :=
    Bool.eq_false_iff.2 fun hp => Bool.false_ne_true (hb.symm.trans (inBudget_of_needsPrivilege hp _))
  obtain ⟨body, he⟩ := exec_eq_onStroke s hgd hp
  exact ⟨_, by rw [he, onStroke_illegal body hi hg hb], handling_trap u.mask 0x03 0 false hg hc⟩

end Sys2Proof.Machine
end

section
/-! # A table of groups that lists one group twice (R68) -/

namespace Sys2Proof.Machine

open State Claim

/-- Memory stays as it was where no register that may be written can be. -/
theorem linesWritten_eq {s : State} {core : Nat} {p : Nat → Nat → Prop} {m m' : Tbl Byte} (h : LinesWritten s core p m m')
    (hm : m = s.mem)
    (hno : ∀ gid n q bs r, s.group? gid = some q → q.core = core → p gid n → LineBytes s q n bs →
      s.vmWrite q.ctx (pkgOf core) .imageWrite (q.image + 0x1000 + 128 * n) bs ≠ (r, .none)) : m' = s.mem := by
  induction h with
  | none m => exact hm
  | line m m' gid n q bs r hq hcore hp hbs hw _ _ =>
    subst hm
    exact absurd hw (hno gid n q bs r hq hcore hp hbs)

/-- A context with a handler, whose first page table stands at 0x2000. -/
def pagedContext : Context where
  home := 0
  xvec := 0x1000
  sites := [(0, { root := 0x2000 })]

/-- Its page tables: 64 MiB from address 0 that may be read, and the 64 MiB behind them that may be read and written, all of them
pages of images (R163, R164). -/
def pagedMemory : Tbl Byte :=
  [(0x2000, 0x01), (0x2001, 0x40), (0x4000, 0x01), (0x4001, 0x60), (0x6000, 0x87), (0x6008, 0x8F), (0x600B, 0x04)]

/-- A group of two fibres on core 0, with v0 for its only vector register. It has no map slot, and the image may not be written.
Through x0 fibre 1 reaches v1. -/
def twoFibreGroup : Group where
  ctx := 1
  launch := 0
  cohort := 0
  index := 0
  role := 0
  phase := .resident
  x := [(0, [0, 1])]
  fibres := [{ kind := .fibre }, { kind := .fibre }]

/-- The entry that a line of zeros takes in an empty inkstone (R66, R68). -/
def zeroEntry : Nat := 4 * ((inkHash (Lanes.zero 32)).toNat % 1536)

/-- A group on core 1 whose v0 is dirty. -/
def dirtyGroup : Group where
  ctx := 1
  launch := 0
  cohort := 0
  index := 1
  role := 0
  phase := .resident
  core := 1
  v := [(0, Lanes.build fun _ => 7)]
  map := [(0, { entry := zeroEntry, dirty := true })]
  image := 0x4000000

/-- Both fibres of the first group issue. -/
def twoFibreIssue : Issue := { gid := 0, mask := 0b11, pc := 0x1000 }

/-- The table lists group 1 once more, on core 0. A lookup finds the first listing; an eviction goes through all of them. The
statements below ask no form of the table, though no run is known to build such a one. -/
def twinState : State :=
  { State.reset with
    mem := pagedMemory
    contexts := [(1, pagedContext)]
    groups := [(0, twoFibreGroup), (1, dirtyGroup), (1, { dirtyGroup with core := 0 })]
    issuing := some twoFibreIssue }

/-- A lookup finds no other group on core 0 than the first. -/
theorem group_twin_on_core {gid : Nat} {q : Group} (hq : twinState.group? gid = some q) (hc : q.core = 0) :
    gid = 0 ∧ q = twoFibreGroup := by
  simp only [twinState, group?, Tbl.get?] at hq
  split at hq
  · rename_i h
    exact ⟨h.symm, (Option.some.inj hq).symm⟩
  · split at hq
    · cases hq
      cases hc
    · cases hq

/-- The bytes of a line of lanes, four to a lane. -/
theorem length_flatMap_toBytes : ∀ v : Lanes 32, (v.flatMap fun x => toBytes 4 x.toNat).length = 4 * v.length
  | [] => rfl
  | x :: v => by
    rw [List.flatMap_cons, List.length_append, length_toBytes, length_flatMap_toBytes v, List.length_cons]
    omega

/-- The bytes of that group's line are 128. -/
theorem length_lineBytes_twin {bs : List Byte} (h : LineBytes twinState twoFibreGroup 0 bs) : bs.length = 128 := by
  obtain ⟨v, rfl, hv⟩ := h
  have hv : v.length = 32 := by
    rcases hv with hv | hv | ⟨e, x, he, -⟩
    · exact hv
    · rw [hv]
      rfl
    · cases he
  rw [length_flatMap_toBytes, hv]

/-- They may not be written: the page's entry has WR clear. -/
theorem vmWrite_twin_fails {bs : List Byte} {r : State} (h : bs.length = 128) :
    twinState.vmWrite 1 0 .imageWrite 0x1000 bs ≠ (r, .none) := by
  have hw : twinState.walk 1 0 .imageWrite 0x1000 = .noPermission := by decide +kernel
  have hc : chunksOf 0x1000 128 = [(0x1000, 128)] := by decide
  simp [vmWrite, h, hc, vmWriteChunks, hw]

/-- So the frame of an instruction of that group leaves memory as it was. -/
theorem mem_of_vectorFrame_twin {ws : List Nat} {t : State} (hws : ∀ n, n ∈ ws → n = 0)
    (hf : VectorFrame twinState twoFibreIssue twoFibreGroup ws t) : t.mem = twinState.mem := by
  obtain ⟨-, hlines, -⟩ := hf
  refine linesWritten_eq hlines rfl fun gid n q bs r hq hcore hp hbs => ?_
  obtain ⟨rfl, rfl⟩ := group_twin_on_core hq hcore
  rcases hp with ⟨-, hn⟩ | ⟨⟨q, m, hq', hmap, -⟩, -⟩
  · obtain rfl := hws n hn
    exact vmWrite_twin_fails (length_lineBytes_twin hbs)
  · cases hq'
    cases hmap

/-- A fill that fails nowhere has read its registers. -/
theorem filled_of_fillAll {s : State} {u : Issue} {ns : List Nat} (hok : (s.fillAll u.gid ns).2 = none)
    (hg : ((s.fillAll u.gid ns).1.group? u.gid).isSome = true) : ∃ h, Filled s u ns (s.fillAll u.gid ns).1 h :=
  ⟨_, Prod.ext rfl hok, (Option.some_get hg).symm⟩

/-- Lane 0 of the dirty register, in its place of group 1's image. -/
theorem readByte_twin : twinState.readByte 0x4001000 = 0 := by decide +kernel

/-- The fill of v0 takes the entry that the second listing maps; the register that is written to its image is the first one's. -/
theorem readByte_fillAll_twin : (twinState.fillAll twoFibreIssue.gid [0]).1.readByte 0x4001000 = 7 := by decide +kernel

/-- Refutes O11: an eviction finds the groups that map an entry by going through the whole table, and looks each of them up by its
number. In a table that lists a group on the core of the eviction behind another listing of its number on core 1, it is the
register of a group on core 1 that a fill writes to its image. -/
theorem not_registerFiles : ¬ Obligations.RegisterFiles := by
  rintro ⟨-, fills, -⟩
  obtain ⟨-, -, frame⟩ := fills twinState 0 0 twoFibreGroup rfl
  obtain ⟨h, hfill, hgroup⟩ := filled_of_fillAll (s := twinState) (u := twoFibreIssue) (ns := [0])
    (by decide +kernel) (by decide +kernel)
  obtain ⟨-, hf⟩ := frame [0] _ h twoFibreIssue rfl hfill hgroup
  have hmem := mem_of_vectorFrame_twin (by simp) hf
  have hbyte := readByte_fillAll_twin
  rw [readByte, hmem] at hbyte
  exact absurd (readByte_twin.symm.trans hbyte) (by decide)

/-- VMOV of v0 into the register that x0 names, with v0 for its field (R62). -/
def indexedMove : Instr := .vmov always false 5 0 0 0

/-- The fault of fibre 1 leaves the move to fibre 0, whose operands are filled as above. -/
theorem readByte_indexedMove_twin {t : State} (he : exec indexedMove twinState = .next t) : t.readByte 0x4001000 = 7 := by
  have run : (match exec indexedMove twinState with
      | .next t => t.readByte 0x4001000
      | _ => 0) = 7 := by decide +kernel
  rwa [he] at run

/-- Refutes O24: the same eviction, from the fill of the register that fibre 0 moves, while REG_INDEX takes fibre 1. -/
theorem not_indexedOperandFault : ¬ Obligations.IndexedOperandFault := by
  intro h
  have hx : Executes indexedMove always twinState twoFibreIssue twoFibreGroup :=
    ⟨⟨rfl, rfl⟩, by decide +kernel, by decide +kernel⟩
  have hc : CanTrap twinState twoFibreGroup := ⟨by decide +kernel, by decide +kernel⟩
  obtain ⟨g1, hfill⟩ := filled_of_fillAll (s := twinState) (u := twoFibreIssue) (ns := [0, 0])
    (by decide +kernel) (by decide +kernel)
  obtain ⟨t, q, he, -, -, -, -, hf⟩ := h indexedMove _ twinState _ twoFibreIssue twoFibreGroup g1
    (.inl rfl) hx (by decide) hc (by decide +kernel) hfill
  have hmem := mem_of_vectorFrame_twin (by decide +kernel) hf
  have hbyte := readByte_indexedMove_twin he
  rw [readByte, hmem] at hbyte
  exact absurd (readByte_twin.symm.trans hbyte) (by decide)

end Sys2Proof.Machine
end

section
/-! # Privilege (R100, R101, R356, R357) -/

namespace Sys2Proof.Machine

open State Claim

section
variable {i : Instr} {gd : Guard} {s : State} {u : Issue} {g : Group}

/-- A privileged instruction in user mode is PRIVILEGE in the whole stroke, before its guard is read (R101). -/
theorem onPrivileged_of_user (body : Issue → Group → BitVec 32 → State → State) (hs : Issues s u g)
    (hp : privilegedAt g u.mask = false) : onPrivileged i gd s body = .next (s.trap u u.mask 0x05 0) := by
  obtain ⟨hi, hg⟩ := hs
  simp only [onPrivileged, hi, hg, hp, Bool.not_false, if_true]

/-- An access in user mode to a register that needs privilege is PRIVILEGE when it executes, with the register's number (R355). -/
theorem onSysReg_of_user (n : SysReg) (body : Issue → Group → State → State) (hx : Executes i gd s u g)
    (hp : privilegedAt g u.mask = false) :
    onSysReg i gd true n s body = .next (s.trap u u.mask 0x05 (BitVec.ofNat 64 n.number)) := by
  obtain ⟨⟨hi, hg⟩, hb, ha⟩ := hx
  simp only [onSysReg, onStroke_acts _ hi hg hb ha, hp, Bool.not_false, Bool.and_true, if_true, sysXaddr]

/-- A meaning that answers PRIVILEGE enters the handler. -/
theorem handles_privilege {o : Out} (xaddr : Word64) (hs : Issues s u g) (hc : CanTrap s g)
    (ho : o = .next (s.trap u u.mask 0x05 xaddr)) : ∃ t, o = .next t ∧ Handling s u g u.mask 0x05 u.pc xaddr t :=
  ⟨_, ho, handling_trap u.mask 0x05 xaddr false hs.2 hc⟩

end

/-- Settles O47: XRET and FRETRY check the mode of the stroke first of all, and SYSRD and SYSWR once they execute. -/
theorem privilegeTrap : Obligations.PrivilegeTrap := by
  intro gd sd sa s u g hs hp hc
  refine ⟨fun i hi => ?_, fun n hn hx => ?_, fun n hn hx => ?_, fun hx => ?_, fun hx => ?_⟩
  · have hi : guardOf i = some gd ∧ needsPrivilege i = true := by
      rcases hi with rfl | rfl | rfl | rfl <;> exact ⟨rfl, rfl⟩
    obtain ⟨body, he⟩ := exec_eq_onPrivileged s hi.1 hi.2
    exact handles_privilege 0 hs hc (by rw [he, onPrivileged_of_user body hs hp])
  · have hn : SysReg.privRead n = true := by
      rcases hn with rfl | rfl | rfl | rfl | rfl | rfl <;> rfl
    exact handles_privilege _ hs hc (by rw [exec, execSysrd, hn, onSysReg_of_user n _ hx hp])
  · have hn : SysReg.privWrite n = true := by
      rcases hn with rfl | rfl | rfl | rfl | rfl | rfl | rfl | rfl | rfl | rfl <;> rfl
    exact handles_privilege _ hs hc (by rw [exec, execSyswr, hn, onSysReg_of_user n _ hx hp])
  · exact handles_privilege 68 hs hc (by rw [exec, execSyswrXlflush, onSysReg_of_user _ _ hx hp]; rfl)
  · exact handles_privilege 83 hs hc (by rw [exec, execSyswrScrridx, onSysReg_of_user _ _ hx hp]; rfl)

end Sys2Proof.Machine
end

section
/-! # What decoding answers, and the step that runs it (R84, R98, R101) -/

namespace Sys2Proof

/-- Settles O1, word by word. -/
theorem workedWordsDecode : Obligations.WorkedWordsDecode := by
  unfold Obligations.WorkedWordsDecode
  refine ⟨?_, ?_, ?_, ?_, ?_⟩ <;> decide

/-- Settles O3: the checks of the decoder stand in the order of R101. -/
theorem decodeCauses : Obligations.DecodeCauses := by
  intro block o
  refine ⟨fun hlen => ?_, fun n hlen hcross => ?_, fun n hlen hfits hrow => ?_⟩
  · simp only [decodeAt, hlen, lenOf]
  · simp only [decodeAt, hlen, if_pos hcross]
  · simp only [decodeAt, hlen, if_neg (Nat.not_lt.2 hfits), hrow]

namespace Machine
namespace State

section
variable {s t : State} {u : Issue} {g : Group} {i : Instr}

/-- A meaning that meets no other record, comes no earlier than its own and parks no stroke is an issue. -/
theorem tryRun_of_settled {f : State → Out} (hf : f (s.prepare u g) = .next t) (hc : t.clash? = none)
    (ho : t.onTime = true) (hw : t.waitsUnit u = false) : tryRun f s u g = some (f (s.prepare u g)) := by
  simp [tryRun, hf, settled, hc, ho, hw]

/-- An instruction that waits for no register issues with such a meaning, whether or not a fibre is active. -/
theorem issueInstr_of_settled (hwait : waitsFor g i (g.active u.mask i.guard) = false)
    (hf : exec i (s.prepare u g) = .next t) (hc : t.clash? = none) (ho : t.onTime = true) (hw : t.waitsUnit u = false) :
    issueInstr i s u g = some (exec i (s.prepare u g)) := by
  have hrun (j : Option Instr) : run j (exec i) s u g = some (exec i (s.prepare u g)) := by
    simp only [run, tryRun_of_settled hf hc ho hw]
  simp only [issueInstr, hrun, hwait, Bool.false_eq_true, if_false, ite_self]

/-- Without a breakpoint and with room for a run, an attempt to issue is one with the instruction that is fetched. -/
theorem attempt_of_fetch (hroom : (s.scroll g.ctx (pkgOf g.core)).full = false ∨ (s.scroll g.ctx (pkgOf g.core)).mode ≠ 1)
    (hbreak : s.breakMask u g = 0) (hfetch : s.fetch g.ctx (pkgOf g.core) u.pc = .instr i) :
    s.attempt u g = s.issueInstr i u g := by
  have hopen : ((s.scroll g.ctx (pkgOf g.core)).mode == 1 && (s.scroll g.ctx (pkgOf g.core)).full) = false := by
    rcases hroom with h | h <;> simp [h]
  simp [attempt, hopen, hbreak, hfetch]

/-- With nothing to read and no move of its own, a machine that has booted does what its first choice of a stroke does. -/
theorem step_of_firstChoice {o : Out} {k : Nat} {ks : List Nat} {c : Choice} {cs : List Choice} (hagenda : s.agenda = [])
    (hboot : s.booted = true) (hmove : s.firstMove = none) (hsched : s.schedulersLeft = k :: ks) (hchoice : s.choices k = c :: cs)
    (htry : s.tryIssue c = some o) : step s = o := by
  simp [step, hagenda, takeAgenda, internal, hboot, hmove, strokesGo, nextIssue, hsched, hchoice, htry]

end

/-- Settles O4: through the order of the choices, the fetch and the checks of an issue. -/
theorem stepRunsDecoded : Obligations.StepRunsDecoded := by
  intro s t k ks c cs g i pa n hagenda hboot hmove hsched hchoice hg hreplay hbreak hroom hwalk hdec _ hwait hf hc ho hw
  have hfetch : s.fetch g.ctx (pkgOf g.core) c.issue.pc = .instr i := by simp only [fetch, hwalk, hdec]
  have htry : s.tryIssue c = some (exec i (s.prepare c.issue g)) := by
    simp only [tryIssue, hreplay, Bool.false_eq_true, if_false, hg]
    rw [attempt_of_fetch hroom hbreak hfetch, issueInstr_of_settled hwait hf hc ho hw]
  exact step_of_firstChoice hagenda hboot hmove hsched hchoice htry

end State
end Machine
end Sys2Proof
end

section
/-! # Decoding an encoding (R82 to R84, R90, R91)

A word that the encoder packs has the fields it was packed from (`FieldsS` and its like, one structure for each format), and a
decoder of the opcode map sees a word through its fields alone. `readsBack_of_packS` and its like join the two: what is left
for each row is that its decoder turns these fields into the instruction. -/

namespace Sys2Proof

-- One theorem after another, as in the tests: the many short ones below would each take a thread.
set_option Elab.async false

/-! ## Fields and bytes -/

theorem take_toBytes : ∀ {k n : Nat} (x : Nat), k ≤ n → (toBytes n x).take k = toBytes k x
  | 0, _, _, _ => rfl
  | k + 1, n + 1, x, h => by simp [toBytes, take_toBytes (x / 256) (Nat.le_of_succ_le_succ h)]

/-- A number below `2 ^ m` is its own low field, with nothing above. -/
theorem field_split {x m : Nat} (hx : x < 2 ^ m) (n : Nat) : field x 0 m = x ∧ field x m n = 0 :=
  ⟨by rw [field, Nat.pow_zero, Nat.div_one, Nat.mod_eq_of_lt hx], by rw [field, Nat.div_eq_of_lt hx, Nat.zero_mod]⟩

@[simp] theorem field_zero (lo n : Nat) : field 0 lo n = 0 := by simp [field]
@[simp] theorem bitAt_zero (i : Nat) : bitAt 0 i = false := by simp [bitAt]

/-! ## The common fields (R83) -/

theorem b2n_lt (b : Bool) : b2n b < 2 := by cases b <;> decide

@[simp] theorem b2n_false : b2n false = 0 := rfl
@[simp] theorem b2n_true : b2n true = 1 := rfl
@[simp] theorem bitAt_b2n (b : Bool) : bitAt (b2n b) 0 = b := by cases b <;> rfl
@[simp] theorem b2n_beq_one (b : Bool) : (b2n b == 1) = b := by cases b <;> rfl

/-- The common fields of an encoding. -/
structure FieldsLo (w op l : Nat) (g : Guard) : Prop where
  len   : field w 0 2 = l
  guard : field w 2 4 = g.code.toNat
  sense : bitAt w 6 = g.sense
  op    : field w 7 9 = op

theorem fieldsLo_of_mod {w op l : Nat} {g : Guard} (hop : op < 512) (hl : l < 4) (hw : w % 65536 = packLo op l g) :
    FieldsLo (w % 65536) op l g := by
  have hs := b2n_lt g.sense
  have hsense : field (packLo op l g) 6 1 = b2n g.sense := by simp only [field, packLo]; omega
  rw [hw]
  refine ⟨?_, ?_, ?_, ?_⟩
  · simp only [field, packLo]; omega
  · simp only [field, packLo]; omega
  · rw [bitAt, hsense, b2n_beq_one]
  · simp only [field, packLo]; omega

theorem packLo_lt {op l : Nat} {g : Guard} (hop : op < 512) (hl : l < 4) : packLo op l g < 65536 := by
  have hs := b2n_lt g.sense
  simp only [packLo]; omega

/-- An encoding is read back at every offset of a fetch block that has room for it, whatever stands around it (R84). -/
def Decodes (e : Nat × Nat) (i : Instr) : Prop :=
  ∀ before after : List Byte, before.length + e.1 ≤ 32 →
    decodeAt (before ++ toBytes e.1 e.2 ++ after) before.length = .ok (i, e.1)

/-- What the checks of R101 ask of an encoding: a row of its opcode and length, a guard of its class, and field checks that
pass. -/
theorem decodes_of_row {op l n w : Nat} {classU : Bool} {dec : Nat → Guard → Dec} {g : Guard} {i : Instr}
    (hrow : rowOf op = some ⟨op, n, classU, dec⟩) (hl : lenOf l = some n) (hop : op < 512)
    (hguard : (!classU || uGuard g) = true) (hlo : w % 65536 = packLo op l g) (hw : w < 2 ^ (8 * n)) (hdec : dec w g = .ok i) :
    Decodes (n, w) i := by
  intro before after hfits
  obtain ⟨hl4, hn⟩ : l < 4 ∧ 2 ≤ n := by
    rcases l with _ | _ | _ | l <;> simp [lenOf] at hl <;> omega
  have htake (k : Nat) (hk : k ≤ n) :
      ofBytes (((before ++ toBytes n w ++ after).drop before.length).take k) = w % 2 ^ (8 * k) := by
    rw [List.append_assoc, List.drop_left, List.take_append_of_le_length (by simpa using hk), take_toBytes w hk,
      ofBytes_toBytes]
  obtain ⟨flen, fguard, fsense, fop⟩ := fieldsLo_of_mod hop hl4 hlo
  have hclass : (classU && decide (g.code.toNat < 12)) = false := by
    cases classU with
    | false => rfl
    | true => simpa [uGuard] using hguard
  simp only [decodeAt, htake 2 hn, htake n (Nat.le_refl n), Nat.reduceMul, Nat.reducePow, flen, fguard, fsense, fop, hl, hrow,
    Nat.mod_eq_of_lt hw, if_neg (Nat.not_lt.2 hfits)]
  simp [hclass, hdec]

theorem op_lt_of_rowOf {op : Nat} {row : OpRow} (h : rowOf op = some row) : op < 512 := by
  have hall : ∀ r ∈ opRows, r.op < 512 := by decide +kernel
  have hop := List.find?_some h
  simp only [beq_iff_eq] at hop
  exact hop ▸ hall row (List.mem_of_find?_eq_some h)

theorem bitAt_of_field {x i : Nat} {b : Bool} (h : field x i 1 = b2n b) : bitAt x i = b := by rw [bitAt, h, b2n_beq_one]

/-! ## The formats (R90) -/

/-- An instruction is read back from its encoding. -/
def ReadsBack (i : Instr) : Prop := Decodes (encode i) i

/-- The fields of a format S word. -/
structure FieldsS (w sd sa sb func imm : Nat) : Prop where
  sd   : fSd w = sd
  sa   : fSa w = sa
  sb   : fSb w = sb
  func : fFunc8 w = func
  zero : fZeroS w = 0
  imm  : fImm16 w = imm

/-- The fields of a format SI word. -/
structure FieldsSI (w sd sa imm : Nat) : Prop where
  sd   : fSd w = sd
  sa   : fSa w = sa
  func : field w 30 2 = 0
  imm  : field w 32 64 = imm

/-- The fields of a format C word. -/
structure FieldsC (w off hint : Nat) : Prop where
  zero : field w 50 14 = 0
  low  : field w 16 3 = off % 8
  off  : field w 16 32 = off
  hint : field w 48 2 = hint

/-- The fields of a format V word. -/
structure FieldsV (w : Nat) (nr : Bool) (vd va vb func ty mod : Nat) : Prop where
  zero : field w 62 2 = 0
  nr   : vNr w = nr
  mod  : vMod w = mod
  ty   : vType w = ty
  func : vFunc6 w = func
  vb   : fVb w = vb
  va   : fVa w = va
  vd   : fVd w = vd

/-- The fields of a format V4 word. -/
structure FieldsV4 (w : Nat) (nr : Bool) (vd va vb vc func ty rnd : Nat) (sat : Bool) (ix : Nat) : Prop where
  zero : field w 77 19 = 0
  nr   : v4Nr w = nr
  ix   : v4Ix w = ix
  sat  : v4Sat w = sat
  rnd  : v4Round w = rnd
  ty   : v4Type w = ty
  func : v4Func6 w = func
  vc   : fVc w = vc
  vb   : fVb w = vb
  va   : fVa w = va
  vd   : fVd w = vd

/-- The fields of a format VI word whose va, func6 and mod are zero. -/
structure FieldsVI (w : Nat) (nr : Bool) (vd ty ix imm : Nat) : Prop where
  imm  : field w 64 32 = imm
  zero : field w 54 10 = 0
  nr   : bitAt w 53 = nr
  ix   : field w 50 3 = ix
  mod  : field w 47 3 = 0
  ty   : field w 44 3 = ty
  func : field w 38 6 = 0
  va   : fVa w = 0
  vd   : fVd w = vd

/-- The fields of a format M word. -/
structure FieldsM (w data base vo space size order scope : Nat) (c : Bool) (off : Nat) : Prop where
  zero  : okM w = true
  off   : mOff w = off
  c     : mC w = c
  scope : mScope w = scope
  order : mOrder w = order
  size  : mSize w = size
  space : mSpace w = space
  vo    : mVo w = vo
  base  : mBase w = base
  data  : mData w = data

/-- The fields of a format E word. -/
structure FieldsE (w a b c d e f func imm : Nat) : Prop where
  zero : okE w = true
  imm  : eImm w = imm
  func : eFunc8 w = func
  sf5  : eF w 5 = f
  sf4  : eF w 4 = e
  sf3  : eF w 3 = d
  sf2  : eF w 2 = c
  sf1  : eF w 1 = b
  sf0  : eF w 0 = a

section
variable {op : Nat} {classU : Bool} {dec : Nat → Guard → Dec} {g : Guard} {i : Instr}

theorem readsBack_of_packS {sd sa sb func imm : Nat} (he : encode i = packS op g sd sa sb func imm)
    (hrow : rowOf op = some ⟨op, 8, classU, dec⟩) (hguard : (!classU || uGuard g) = true)
    (hdec : ∀ w, FieldsS w sd sa sb func imm → dec w g = .ok i)
    (hsd : sd < 128 := by omega) (hsa : sa < 128 := by omega) (hsb : sb < 128 := by omega)
    (hfunc : func < 256 := by omega) (himm : imm < 65536 := by omega) : ReadsBack i := by
  have hop := op_lt_of_rowOf hrow
  have hlo := packLo_lt (g := g) (l := 0) hop (by decide)
  rw [ReadsBack, he]
  refine decodes_of_row (l := 0) hrow rfl hop hguard (by omega) (by omega) (hdec _ ⟨?_, ?_, ?_, ?_, ?_, ?_⟩)
  all_goals
    simp only [fSd, fSa, fSb, fFunc8, fZeroS, fImm16, field]
    omega

theorem readsBack_of_packSI {sd sa imm : Nat} (he : encode i = packSI op g sd sa imm)
    (hrow : rowOf op = some ⟨op, 12, classU, dec⟩) (hguard : (!classU || uGuard g) = true)
    (hdec : ∀ w, FieldsSI w sd sa imm → dec w g = .ok i)
    (hsd : sd < 128 := by omega) (hsa : sa < 128 := by omega) (himm : imm < 2 ^ 64 := by omega) : ReadsBack i := by
  have hop := op_lt_of_rowOf hrow
  have hlo := packLo_lt (g := g) (l := 1) hop (by decide)
  rw [ReadsBack, he]
  refine decodes_of_row (l := 1) hrow rfl hop hguard (by omega) (by omega) (hdec _ ⟨?_, ?_, ?_, ?_⟩)
  all_goals
    simp only [fSd, fSa, field]
    omega

theorem readsBack_of_packC {off hint : Nat} (he : encode i = packC op g off hint)
    (hrow : rowOf op = some ⟨op, 8, classU, dec⟩) (hguard : (!classU || uGuard g) = true)
    (hdec : ∀ w, FieldsC w off hint → dec w g = .ok i)
    (hoff : off < 2 ^ 32 := by omega) (hhint : hint < 4 := by omega) : ReadsBack i := by
  have hop := op_lt_of_rowOf hrow
  have hlo := packLo_lt (g := g) (l := 0) hop (by decide)
  rw [ReadsBack, he]
  refine decodes_of_row (l := 0) hrow rfl hop hguard (by omega) (by omega) (hdec _ ⟨?_, ?_, ?_, ?_⟩)
  all_goals
    simp only [field]
    omega

theorem readsBack_of_packV {nr : Bool} {vd va vb func ty mod : Nat} (he : encode i = packV op g nr vd va vb func ty mod)
    (hrow : rowOf op = some ⟨op, 8, classU, dec⟩) (hguard : (!classU || uGuard g) = true)
    (hdec : ∀ w, FieldsV w nr vd va vb func ty mod → dec w g = .ok i)
    (hvd : vd < 2048 := by omega) (hva : va < 2048 := by omega) (hvb : vb < 2048 := by omega) (hfunc : func < 64 := by omega)
    (hty : ty < 8 := by omega) (hmod : mod < 8 := by omega) : ReadsBack i := by
  have hop := op_lt_of_rowOf hrow
  have hlo := packLo_lt (g := g) (l := 0) hop (by decide)
  have hnr := b2n_lt nr
  rw [ReadsBack, he]
  refine decodes_of_row (l := 0) hrow rfl hop hguard (by omega) (by omega)
    (hdec _ ⟨?_, bitAt_of_field ?_, ?_, ?_, ?_, ?_, ?_, ?_⟩)
  all_goals
    simp only [vMod, vType, vFunc6, fVb, fVa, fVd, field]
    omega

theorem readsBack_of_packV4 {nr sat : Bool} {vd va vb vc func ty rnd ix : Nat}
    (he : encode i = packV4 op g nr vd va vb vc func ty rnd sat ix)
    (hrow : rowOf op = some ⟨op, 12, classU, dec⟩) (hguard : (!classU || uGuard g) = true)
    (hdec : ∀ w, FieldsV4 w nr vd va vb vc func ty rnd sat ix → dec w g = .ok i)
    (hvd : vd < 2048 := by omega) (hva : va < 2048 := by omega) (hvb : vb < 2048 := by omega) (hvc : vc < 2048 := by omega)
    (hfunc : func < 64 := by omega) (hty : ty < 8 := by omega) (hrnd : rnd < 8 := by omega) (hix : ix < 8 := by omega) :
    ReadsBack i := by
  have hop := op_lt_of_rowOf hrow
  have hlo := packLo_lt (g := g) (l := 1) hop (by decide)
  have hnr := b2n_lt nr
  have hsat := b2n_lt sat
  rw [ReadsBack, he]
  refine decodes_of_row (l := 1) hrow rfl hop hguard (by omega) (by omega)
    (hdec _ ⟨?_, bitAt_of_field ?_, ?_, bitAt_of_field ?_, ?_, ?_, ?_, ?_, ?_, ?_, ?_⟩)
  all_goals
    simp only [v4Ix, v4Round, v4Type, v4Func6, fVc, fVb, fVa, fVd, field]
    omega

theorem readsBack_of_packVI {nr : Bool} {vd ty ix imm : Nat} (he : encode i = packVI op g nr vd ty ix imm)
    (hrow : rowOf op = some ⟨op, 12, classU, dec⟩) (hguard : (!classU || uGuard g) = true)
    (hdec : ∀ w, FieldsVI w nr vd ty ix imm → dec w g = .ok i)
    (hvd : vd < 2048 := by omega) (hty : ty < 8 := by omega) (hix : ix < 8 := by omega) (himm : imm < 2 ^ 32 := by omega) :
    ReadsBack i := by
  have hop := op_lt_of_rowOf hrow
  have hlo := packLo_lt (g := g) (l := 1) hop (by decide)
  have hnr := b2n_lt nr
  rw [ReadsBack, he]
  refine decodes_of_row (l := 1) hrow rfl hop hguard (by omega) (by omega)
    (hdec _ ⟨?_, ?_, bitAt_of_field ?_, ?_, ?_, ?_, ?_, ?_, ?_⟩)
  all_goals
    simp only [fVa, fVd, field]
    omega

theorem readsBack_of_packM {data base vo space size order scope off : Nat} {c : Bool}
    (he : encode i = packM op g data base vo space size order scope c off)
    (hrow : rowOf op = some ⟨op, 12, classU, dec⟩) (hguard : (!classU || uGuard g) = true)
    (hdec : ∀ w, FieldsM w data base vo space size order scope c off → dec w g = .ok i)
    (hdata : data < 2048 := by omega) (hbase : base < 128 := by omega) (hvo : vo < 2048 := by omega)
    (hspace : space < 8 := by omega) (hsize : size < 8 := by omega) (horder : order < 8 := by omega)
    (hscope : scope < 8 := by omega) (hoff : off < 2 ^ 24 := by omega) : ReadsBack i := by
  have hop := op_lt_of_rowOf hrow
  have hlo := packLo_lt (g := g) (l := 1) hop (by decide)
  have hc := b2n_lt c
  rw [ReadsBack, he]
  refine decodes_of_row (l := 1) hrow rfl hop hguard (by omega) (by omega)
    (hdec _ ⟨?_, ?_, bitAt_of_field ?_, ?_, ?_, ?_, ?_, ?_, ?_, ?_⟩)
  all_goals
    simp only [okM, mOff, mScope, mOrder, mSize, mSpace, mVo, mBase, mData, field, Bool.and_eq_true, beq_iff_eq]
    omega

theorem readsBack_of_packE {a b c d e f func imm : Nat} (he : encode i = packE op g a b c d e f func imm)
    (hrow : rowOf op = some ⟨op, 16, classU, dec⟩) (hguard : (!classU || uGuard g) = true)
    (hdec : ∀ w, FieldsE w a b c d e f func imm → dec w g = .ok i)
    (ha : a < 128 := by omega) (hb : b < 128 := by omega) (hc : c < 128 := by omega) (hd : d < 128 := by omega)
    (he' : e < 128 := by omega) (hf : f < 128 := by omega) (hfunc : func < 256 := by omega) (himm : imm < 2 ^ 32 := by omega) :
    ReadsBack i := by
  have hop := op_lt_of_rowOf hrow
  have hlo := packLo_lt (g := g) (l := 2) hop (by decide)
  rw [ReadsBack, he]
  refine decodes_of_row (l := 2) hrow rfl hop hguard (by omega) (by omega) (hdec _ ⟨?_, ?_, ?_, ?_, ?_, ?_, ?_, ?_, ?_⟩)
  all_goals
    simp only [okE, eImm, eFunc8, eF, field, beq_iff_eq]
    omega

end

/-! ## Codes of the field tables (R93 to R96) -/

@[simp] theorem elemTy_code (x : ElemTy) : elemTy? x.code = some x := by cases x <;> rfl
@[simp] theorem intTy_code (x : IntTy) : intTy? x.code = some x := by cases x <;> rfl
@[simp] theorem floatTy_code (x : FloatTy) : floatTy? x.code = some x := by cases x <;> rfl
@[simp] theorem halfTy_code (x : HalfTy) : halfTy? x.code = some x := by cases x <;> rfl
@[simp] theorem fp8Ty_code (x : Fp8Ty) : fp8Ty? x.code = some x := by cases x <;> rfl
@[simp] theorem classTy_code (x : ClassTy) : classTy? x.code = some x := by cases x <;> rfl
@[simp] theorem matTy_code (x : MatTy) : matTy? x.code = some x := by cases x <;> rfl
@[simp] theorem rounding_code (x : Rounding) : rounding? x.code = some x := by cases x <;> rfl
@[simp] theorem hint_code (x : Hint) : hint? x.code = some x := by cases x <;> rfl
@[simp] theorem space_code (x : Space) : space? x.code = some x := by cases x <;> rfl
@[simp] theorem wordSpace_code (x : WordSpace) : wordSpace? x.code = some x := by cases x <;> rfl
@[simp] theorem copySpace_code (x : CopySpace) : copySpace? x.code = some x := by cases x <;> rfl
@[simp] theorem size_code (x : Size) : size? x.code = some x := by cases x <;> rfl
@[simp] theorem scope_code (x : Scope) : scope? x.code = some x := by cases x <;> rfl
@[simp] theorem fenceOrder_code (x : FenceOrder) : fenceOrder? x.code = some x := by cases x <;> rfl
@[simp] theorem intCond_code (x : IntCond) : intCond? x.code = some x := by cases x <;> rfl
@[simp] theorem floatCond_code (x : FloatCond) : floatCond? x.code = some x := by cases x <;> rfl
@[simp] theorem redFn_code (x : RedFn) : redFn? x.code = some x := by cases x <;> rfl
@[simp] theorem atomFn_code (x : AtomFn) : atomFn? x.code = some x := by cases x <;> rfl
@[simp] theorem vtosMode_code (x : VtosMode) : vtosMode? x.code = some x := by cases x <;> rfl
@[simp] theorem testMode_code (x : TestMode) : testMode? x.code = some x := by cases x <;> rfl

theorem ElemTy.code_lt (x : ElemTy) : x.code < 8 := by cases x <;> decide
theorem IntTy.code_lt (x : IntTy) : x.code < 8 := by cases x <;> decide
theorem FloatTy.code_lt (x : FloatTy) : x.code < 8 := by cases x <;> decide
theorem HalfTy.code_lt (x : HalfTy) : x.code < 8 := by cases x <;> decide
theorem Fp8Ty.code_lt (x : Fp8Ty) : x.code < 8 := by cases x <;> decide
theorem ClassTy.code_lt (x : ClassTy) : x.code < 8 := by cases x <;> decide
theorem MatTy.code_lt (x : MatTy) : x.code < 8 := by cases x <;> decide
theorem Rounding.code_lt (x : Rounding) : x.code < 4 := by cases x <;> decide
theorem Hint.code_lt (x : Hint) : x.code < 4 := by cases x <;> decide
theorem Space.code_lt (x : Space) : x.code < 4 := by cases x <;> decide
theorem WordSpace.code_lt (x : WordSpace) : x.code < 3 := by cases x <;> decide
theorem CopySpace.code_lt (x : CopySpace) : x.code < 4 := by cases x <;> decide
theorem Size.code_lt (x : Size) : x.code < 7 := by cases x <;> decide
theorem Scope.code_lt (x : Scope) : x.code < 6 := by cases x <;> decide
theorem FenceOrder.code_lt (x : FenceOrder) : x.code < 5 := by cases x <;> decide
theorem IntCond.code_lt (x : IntCond) : x.code < 7 := by cases x <;> decide
theorem FloatCond.code_lt (x : FloatCond) : x.code < 8 := by cases x <;> decide
theorem RedFn.code_lt (x : RedFn) : x.code < 7 := by cases x <;> decide
theorem AtomFn.code_lt (x : AtomFn) : x.code < 11 := by cases x <;> decide
theorem VtosMode.code_lt (x : VtosMode) : x.code < 3 := by cases x <;> decide
theorem TestMode.code_lt (x : TestMode) : x.code < 3 := by cases x <;> decide

@[simp] theorem chk_true (r : Dec) : chk true r = r := rfl
@[simp] theorem chkOpd_true (r : Dec) : chkOpd true r = r := rfl
@[simp] theorem opt_some {α : Type} (a : α) (k : α → Dec) : opt (some a) k = k a := rfl

theorem SReg.toNat_lt (r : SReg) : r.toNat < 128 := r.isLt
theorem UPred.toNat_lt (k : UPred) : k.toNat < 8 := k.isLt
theorem XReg.toNat_lt (x : XReg) : x.toNat < 4 := x.isLt

theorem SOp.i_eq (b : SOp) : b.i = 0 ∨ b.i = 128 := by cases b <;> simp [SOp.i]
theorem SOp.sb_lt (b : SOp) : b.sb < 128 := by cases b <;> simp only [SOp.sb] <;> omega
theorem SOp.immField_lt (b : SOp) : b.immField < 65536 := by cases b <;> simp only [SOp.immField] <;> omega

/-- Operand b is read back whatever the minor function holds (R128). -/
theorem sOperand_eq {w m : Nat} {b : SOp} (hm : m < 128) (hsb : fSb w = b.sb) (hfunc : fFunc8 w = b.i + m)
    (himm : fImm16 w = b.immField) : sOperand w = some b := by
  cases b with
  | reg r =>
    have hbit : bitAt (fFunc8 w) 7 = false := bitAt_of_field (b := false) (by simp only [hfunc, SOp.i, field, b2n_false]; omega)
    simp [sOperand, hbit, hsb, himm, SOp.sb, SOp.immField]
  | imm n =>
    have hbit : bitAt (fFunc8 w) 7 = true := bitAt_of_field (b := true) (by simp only [hfunc, SOp.i, field, b2n_true]; omega)
    simp [sOperand, hbit, hsb, himm, SOp.sb, SOp.immField]

/-! ## Scalar instructions -/

section
variable {g : Guard} {i : Instr} {op : Nat} {sd sa sb : SReg} {b : SOp}

/-- The mould reads back U, the code in bits 2:0 and the operands (R128). -/
theorem decMould_eq {w sd k : Nat} {u acceptU acceptK : Bool} {f : Bool → Nat → SReg → SReg → SOp → Dec}
    (hk : k < 8) (hU : acceptU = true ∨ u = false) (hK : acceptK = true ∨ k = 0)
    (hw : FieldsS w sd sa.toNat b.sb (b.i + b2n u * 8 + k) b.immField) :
    decMould w acceptU acceptK f = f u k (r7 sd) sa b := by
  obtain ⟨hsd, hsa, hsb, hfunc, hzero, himm⟩ := hw
  have hi := b.i_eq
  have hu := b2n_lt u
  have hu3 : bitAt (fFunc8 w) 3 = u := bitAt_of_field (by rw [hfunc, field]; omega)
  have hmid : field (fFunc8 w) 4 3 = 0 := by rw [hfunc, field]; omega
  have hk0 : field (fFunc8 w) 0 3 = k := by rw [hfunc, field]; omega
  have hb : sOperand w = some b := sOperand_eq (m := b2n u * 8 + k) (by omega) hsb (by omega) himm
  have hU : (acceptU || !u) = true := by rcases hU with h | h <;> simp [h]
  have hK : (acceptK || k == 0) = true := by rcases hK with h | h <;> simp [h]
  simp [decMould, hzero, hmid, hu3, hk0, hb, hU, hK, hsd, hsa]

theorem readsBack_of_encInt {dec : Nat → Guard → Dec} {u : Bool} {k sd : Nat} (he : encode i = encInt op g u k sd sa.toNat b)
    (hrow : rowOf op = some ⟨op, 8, true, dec⟩) (hg : uGuard g = true)
    (hdec : ∀ w, FieldsS w sd sa.toNat b.sb (b.i + b2n u * 8 + k) b.immField → dec w g = .ok i)
    (hk : k < 8 := by omega) (hsd : sd < 128 := by omega) : ReadsBack i := by
  have hi := b.i_eq
  have hu := b2n_lt u
  have hsb := b.sb_lt
  have himm := b.immField_lt
  exact readsBack_of_packS he hrow hg hdec

theorem readsBack_decInt {c : Guard → SReg → SReg → SOp → Instr}
    (he : encode (c g sd sa b) = encInt op g false 0 sd.toNat sa.toNat b) (hrow : rowOf op = some ⟨op, 8, true, decInt c⟩)
    (hg : uGuard g = true) : ReadsBack (c g sd sa b) :=
  readsBack_of_encInt he hrow hg fun w hw => by
    rw [decInt, decMould_eq (by decide) (.inr rfl) (.inr rfl) hw]
    simp

theorem readsBack_decIntU {c : Guard → Bool → SReg → SReg → SOp → Instr} {u : Bool}
    (he : encode (c g u sd sa b) = encInt op g u 0 sd.toNat sa.toNat b) (hrow : rowOf op = some ⟨op, 8, true, decIntU c⟩)
    (hg : uGuard g = true) : ReadsBack (c g u sd sa b) :=
  readsBack_of_encInt he hrow hg fun w hw => by
    rw [decIntU, decMould_eq (by decide) (.inl rfl) (.inr rfl) hw]
    simp

theorem readsBack_ssel {k : UPred} (hg : uGuard g = true) : ReadsBack (.ssel g k sd sa b) :=
  readsBack_of_encInt rfl rfl hg fun w hw => by
    rw [decMould_eq (by omega) (.inr rfl) (.inl rfl) hw]
    simp

theorem readsBack_slea {k : BitVec 3} (hg : uGuard g = true) : ReadsBack (.slea g k sd sa b) :=
  readsBack_of_encInt rfl rfl hg fun w hw => by
    rw [decMould_eq (by omega) (.inr rfl) (.inl rfl) hw]
    simp

theorem readsBack_scmp {c : IntCond} {u : Bool} {k : UPred} (hg : uGuard g = true) : ReadsBack (.scmp g c u k sa b) := by
  have hc := c.code_lt
  refine readsBack_of_encInt rfl rfl hg fun w hw => ?_
  rw [decScmp, decMould_eq (by omega) (.inl rfl) (.inl rfl) hw]
  simp [hw.sd, UPred.toNat_lt]

theorem readsBack_smov (hg : uGuard g = true) : ReadsBack (.smov g sd sa) :=
  readsBack_of_packS rfl rfl hg fun w hw => by
    cases hw
    simp [decSmov, zS, *]

theorem readsBack_smovGetp (hg : uGuard g = true) : ReadsBack (.smovGetp g sd) :=
  readsBack_of_packS rfl rfl hg fun w hw => by
    cases hw
    simp [decSmov, zS, *]

theorem readsBack_smovSetp (hg : uGuard g = true) : ReadsBack (.smovSetp g sa) :=
  readsBack_of_packS rfl rfl hg fun w hw => by
    cases hw
    simp [decSmov, zS, *]

theorem readsBack_smovi {imm : Word64} (hg : uGuard g = true) : ReadsBack (.smovi g sd imm) :=
  readsBack_of_packSI rfl rfl hg fun w hw => by
    cases hw
    simp [decSmovi, *]

theorem readsBack_saddi {imm : Word64} (hg : uGuard g = true) : ReadsBack (.saddi g sd sa imm) :=
  readsBack_of_packSI rfl rfl hg fun w hw => by
    cases hw
    simp [decSaddi, *]

theorem readsBack_splog {t : BitVec 4} {kd ka kb : UPred} (hg : uGuard g = true) : ReadsBack (.splog g t kd ka kb) :=
  readsBack_of_packS rfl rfl hg fun w hw => by
    obtain ⟨hlow, hhigh⟩ := field_split t.isLt 4
    cases hw
    simp [decSplog, zS, UPred.toNat_lt, *]

/-- The field of SBFX and SBFI is read back (R135). -/
theorem bitField_eq {w : Nat} {pos : BitVec 6} {width : BitVec 7} (h : fieldOk pos width = true)
    (himm : fImm16 w = encField pos width) : bitField? w = some (pos, width) := by
  simp only [fieldOk, Bool.and_eq_true, decide_eq_true_eq] at h
  have hpos : field (fImm16 w) 0 6 = pos.toNat := by rw [himm, encField, field]; omega
  have hwidth : field (fImm16 w) 6 7 = width.toNat := by rw [himm, encField, field]; omega
  have hzero : field (fImm16 w) 13 3 = 0 := by rw [himm, encField, field]; omega
  simp [bitField?, hpos, hwidth, hzero, h]

theorem encField_lt (pos : BitVec 6) (width : BitVec 7) : encField pos width < 65536 := by
  rw [encField]; omega

theorem readsBack_sbfx {sx : Bool} {pos : BitVec 6} {width : BitVec 7} (h : (uGuard g && fieldOk pos width) = true) :
    ReadsBack (.sbfx g sx sd sa pos width) := by
  obtain ⟨hg, hf⟩ := Bool.and_eq_true_iff.1 h
  have hs := b2n_lt sx
  have henc := encField_lt pos width
  have hsx : bitAt (b2n sx * 8) 3 = sx := bitAt_of_field (by rw [field]; omega)
  have hlow : field (b2n sx * 8) 0 3 = 0 := by rw [field]; omega
  have hhigh : field (b2n sx * 8) 4 4 = 0 := by rw [field]; omega
  refine readsBack_of_packS rfl rfl hg fun w hw => ?_
  have hfield := bitField_eq hf hw.imm
  cases hw
  simp [decSbfx, zS, *]

theorem readsBack_sbfi {pos : BitVec 6} {width : BitVec 7} (h : (uGuard g && fieldOk pos width) = true) :
    ReadsBack (.sbfi g sd sa pos width) := by
  obtain ⟨hg, hf⟩ := Bool.and_eq_true_iff.1 h
  have henc := encField_lt pos width
  refine readsBack_of_packS rfl rfl hg fun w hw => ?_
  have hfield := bitField_eq hf hw.imm
  cases hw
  simp [decSbfi, zS, *]

theorem readsBack_decTwo {c : Guard → SReg → SReg → Instr}
    (he : encode (c g sd sa) = packS op g sd.toNat sa.toNat 0 0 0) (hrow : rowOf op = some ⟨op, 8, true, decTwo c⟩)
    (hg : uGuard g = true) : ReadsBack (c g sd sa) :=
  readsBack_of_packS he hrow hg fun w hw => by
    cases hw
    simp [decTwo, zS, *]

theorem readsBack_decSf3 {c : Guard → Rounding → SReg → SReg → SReg → Instr} {rnd : Rounding}
    (he : encode (c g rnd sd sa sb) = packS op g sd.toNat sa.toNat sb.toNat rnd.code 0)
    (hrow : rowOf op = some ⟨op, 8, true, decSf3 c⟩) (hg : uGuard g = true) : ReadsBack (c g rnd sd sa sb) := by
  have hr := rnd.code_lt
  obtain ⟨hlow, hhigh⟩ := field_split (x := rnd.code) (m := 3) (by omega) 5
  exact readsBack_of_packS he hrow hg fun w hw => by
    cases hw
    simp [decSf3, zS, *]

theorem readsBack_sfcmp {c : FloatCond} {k : UPred} (hg : uGuard g = true) : ReadsBack (.sfcmp g c k sa sb) := by
  have hc := c.code_lt
  obtain ⟨hlow, hhigh⟩ := field_split (x := c.code) (m := 3) (by omega) 5
  exact readsBack_of_packS rfl rfl hg fun w hw => by
    cases hw
    simp [decSfcmp, zS, UPred.toNat_lt, *]

theorem ElemTy.code_inj {x y : ElemTy} : x.code = y.code ↔ x = y :=
  ⟨fun h => by have := elemTy_code x; rw [h, elemTy_code] at this; exact (Option.some.inj this).symm, fun h => h ▸ rfl⟩

theorem readsBack_sfcvt {src dst : ElemTy} {rnd : Rounding} {sat : Bool} (h : (uGuard g && src != dst) = true) :
    ReadsBack (.sfcvt g src dst rnd sat sd sa) := by
  obtain ⟨hg, hne⟩ := Bool.and_eq_true_iff.1 h
  have hne : (dst.code != src.code) = true := bne_iff_ne.2 fun h => bne_iff_ne.1 hne (ElemTy.code_inj.1 h).symm
  have hsrc := src.code_lt
  have hdst := dst.code_lt
  have hr := rnd.code_lt
  have hs := b2n_lt sat
  have hrnd : field (rnd.code + b2n sat * 8) 0 3 = rnd.code := by rw [field]; omega
  have hsat : bitAt (rnd.code + b2n sat * 8) 3 = sat := bitAt_of_field (by rw [field]; omega)
  have hhigh : field (rnd.code + b2n sat * 8) 4 4 = 0 := by rw [field]; omega
  have hto : field (dst.code + src.code * 8) 0 3 = dst.code := by rw [field]; omega
  have hfrom : field (dst.code + src.code * 8) 3 3 = src.code := by rw [field]; omega
  have hrest : field (dst.code + src.code * 8) 6 10 = 0 := by rw [field]; omega
  exact readsBack_of_packS rfl rfl hg fun w hw => by
    cases hw
    simp [decSfcvt, zS, *]

/-! ## Control instructions -/

/-- The zero bits of format C (R142). -/
theorem okC_eq {w hint : Nat} {off : Word32} (h : offOk off = true) (hw : FieldsC w off.toNat hint) : okC w = true := by
  simp only [offOk, beq_iff_eq] at h
  simp [okC, hw.zero, hw.low, h]

theorem readsBack_decBranch {classU : Bool} {c : Guard → Hint → Word32 → Instr} {ok : Guard → Bool} {hint : Hint}
    {off : Word32}
    (he : encode (c g hint off) = packC op g off.toNat hint.code)
    (hrow : rowOf op = some ⟨op, 8, classU, decBranch c ok⟩) (hg : (!classU || uGuard g) = true) (hok : ok g = true)
    (hoff : offOk off = true) : ReadsBack (c g hint off) := by
  have hh := hint.code_lt
  refine readsBack_of_packC he hrow hg fun w hw => ?_
  simp [decBranch, okC_eq hoff hw, hok, hw.hint, hw.off]

theorem readsBack_br {hint : Hint} {off : Word32} (h : (uGuard g && g.code != 15 && offOk off) = true) :
    ReadsBack (.br g hint off) := by
  simp only [Bool.and_eq_true] at h
  obtain ⟨⟨hg, hcode⟩, hoff⟩ := h
  exact readsBack_decBranch rfl rfl hg hcode hoff

theorem readsBack_jmp {hint : Hint} {off : Word32} (h : (uGuard g && offOk off) = true) : ReadsBack (.jmp g hint off) := by
  obtain ⟨hg, hoff⟩ := Bool.and_eq_true_iff.1 h
  exact readsBack_decBranch rfl rfl hg rfl hoff

theorem readsBack_call {off : Word32} (h : (uGuard g && offOk off) = true) : ReadsBack (.call g off) := by
  obtain ⟨hg, hoff⟩ := Bool.and_eq_true_iff.1 h
  exact readsBack_of_packC rfl rfl hg fun w hw => by simp [decCall, okC_eq hoff hw, hw.hint, hw.off]

theorem readsBack_decSaOnly {c : Guard → SReg → Instr} (he : encode (c g sa) = packS op g 0 sa.toNat 0 0 0)
    (hrow : rowOf op = some ⟨op, 8, true, decSaOnly c⟩) (hg : uGuard g = true) : ReadsBack (c g sa) :=
  readsBack_of_packS he hrow hg fun w hw => by
    cases hw
    simp [decSaOnly, zS, *]

theorem readsBack_decSdOnly {c : Guard → SReg → Instr} (he : encode (c g sd) = packS op g sd.toNat 0 0 0 0)
    (hrow : rowOf op = some ⟨op, 8, true, decSdOnly c⟩) (hg : uGuard g = true) : ReadsBack (c g sd) :=
  readsBack_of_packS he hrow hg fun w hw => by
    cases hw
    simp [decSdOnly, zS, *]

theorem readsBack_decBare {classU : Bool} {c : Guard → Instr} (he : encode (c g) = packS op g 0 0 0 0 0)
    (hrow : rowOf op = some ⟨op, 8, classU, decBare c⟩) (hg : (!classU || uGuard g) = true) : ReadsBack (c g) :=
  readsBack_of_packS he hrow hg fun w hw => by
    cases hw
    simp [decBare, zS, *]

theorem readsBack_sleep (hg : uGuard g = true) : ReadsBack (.sleep g b) := by
  have hi := b.i_eq
  have hsb := b.sb_lt
  have himm := b.immField_lt
  refine readsBack_of_packS rfl rfl hg fun w hw => ?_
  have hlow : field (fFunc8 w) 0 7 = 0 := by rw [hw.func, field]; omega
  simp [decSleep, zS, hw.sd, hw.sa, hw.zero, hlow, sOperand_eq (m := 0) (by decide) hw.sb hw.func hw.imm]

end

/-! ## Format V (R90, R226) -/

theorem VOp.u_eq (b : VOp) : b.u = 0 ∨ b.u = 4 := by cases b <;> simp [VOp.u]
theorem VOp.vb_lt (b : VOp) : b.vb < 2048 := by cases b <;> simp only [VOp.vb] <;> omega

theorem RedTy.code_lt (t : RedTy) : t.code < 3 := by cases t <;> simp [RedTy.code]
theorem RedTy.modCode_lt (t : RedTy) : t.modCode < 4 := by
  cases t with
  | f32 r => exact r.code_lt
  | i32 | n32 => decide

@[simp] theorem redTy_code (t : RedTy) : redTy? t.code t.modCode = some t := by
  cases t <;> simp [redTy?, RedTy.code, RedTy.modCode]

/-- Operand b is read back, and names a register of its file, whatever bits 0 and 1 of mod hold (R220, R226). -/
theorem vOperand_eq {w m : Nat} {b : VOp} (hm : m < 4) (hvb : fVb w = b.vb) (hmod : vMod w = m + b.u) :
    vOperand w = b ∧ okVb w = true := by
  cases b with
  | vec r =>
    have hbit : bitAt (vMod w) 2 = false := bitAt_of_field (b := false) (by simp only [hmod, VOp.u, field, b2n_false]; omega)
    simp [vOperand, okVb, hbit, hvb, VOp.vb]
  | uni r =>
    have hbit : bitAt (vMod w) 2 = true := bitAt_of_field (b := true) (by simp only [hmod, VOp.u, field, b2n_true]; omega)
    simp [vOperand, okVb, hbit, hvb, VOp.vb, SReg.toNat_lt]

/-- mod of the integer mould (R226). -/
theorem okMod_eq {w : Nat} {sat acceptSat : Bool} {b : VOp} (hS : acceptSat = true ∨ sat = false)
    (hmod : vMod w = b2n sat + b.u) : okMod w acceptSat true = true ∧ bitAt (vMod w) 0 = sat := by
  have hu := b.u_eq
  have hs := b2n_lt sat
  have hsat : bitAt (vMod w) 0 = sat := bitAt_of_field (by rw [hmod, field]; omega)
  have hmid : bitAt (vMod w) 1 = false := bitAt_of_field (by rw [hmod, field, b2n_false]; omega)
  have hS : (acceptSat || !sat) = true := by rcases hS with h | h <;> simp [h]
  simp [okMod, hsat, hmid, hS]

/-- Operand b where .sat is not accepted. -/
theorem vOperand_plain {w : Nat} {b : VOp} (hvb : fVb w = b.vb) (hmod : vMod w = b2n false + b.u) :
    vOperand w = b ∧ okVb w = true ∧ okMod w false true = true := by
  obtain ⟨hb, hok⟩ := vOperand_eq (by decide) hvb hmod
  exact ⟨hb, hok, (okMod_eq (.inr rfl) hmod).1⟩

section
variable {g : Guard} {i : Instr} {op : Nat} {nr sat : Bool} {vd va : VReg} {sd sa : SReg} {b : VOp}

theorem readsBack_of_encV {dec : Nat → Guard → Dec} {ty func vd : Nat}
    (he : encode i = encV op g nr ty func sat vd va.toNat b)
    (hrow : rowOf op = some ⟨op, 8, false, dec⟩)
    (hdec : ∀ w, FieldsV w nr vd va.toNat b.vb func ty (b2n sat + b.u) → dec w g = .ok i)
    (hty : ty < 8 := by omega) (hfunc : func < 64 := by omega) (hvd : vd < 2048 := by omega) : ReadsBack i := by
  have hu := b.u_eq
  have hs := b2n_lt sat
  have hvb := b.vb_lt
  exact readsBack_of_packV he hrow rfl hdec

theorem readsBack_decVInt {c : Guard → Bool → IntTy → Bool → VReg → VReg → VOp → Instr} {ty : IntTy}
    (he : encode (c g nr ty sat vd va b) = encV op g nr ty.code 0 sat vd.toNat va.toNat b)
    (hrow : rowOf op = some ⟨op, 8, false, decVInt c⟩) : ReadsBack (c g nr ty sat vd va b) := by
  have ht := ty.code_lt
  have hs := b2n_lt sat
  refine readsBack_of_encV he hrow fun w hw => ?_
  obtain ⟨hb, hok⟩ := vOperand_eq (by omega) hw.vb hw.mod
  obtain ⟨hmod, hsat⟩ := okMod_eq (.inl rfl) hw.mod
  rw [hw.mod] at hsat
  cases hw
  simp [decVInt, okV, *]

theorem readsBack_decVIntN {c : Guard → Bool → IntTy → VReg → VReg → VOp → Instr} {ty : IntTy}
    (he : encode (c g nr ty vd va b) = encV op g nr ty.code 0 false vd.toNat va.toNat b)
    (hrow : rowOf op = some ⟨op, 8, false, decVIntN c⟩) : ReadsBack (c g nr ty vd va b) := by
  have ht := ty.code_lt
  refine readsBack_of_encV he hrow fun w hw => ?_
  obtain ⟨hb, hok, hmod⟩ := vOperand_plain hw.vb hw.mod
  cases hw
  simp [decVIntN, okV, *]

theorem readsBack_decVBit {c : Guard → Bool → VReg → VReg → VOp → Instr}
    (he : encode (c g nr vd va b) = encV op g nr 0 0 false vd.toNat va.toNat b)
    (hrow : rowOf op = some ⟨op, 8, false, decVBit c⟩) : ReadsBack (c g nr vd va b) := by
  refine readsBack_of_encV he hrow fun w hw => ?_
  obtain ⟨hb, hok, hmod⟩ := vOperand_plain hw.vb hw.mod
  cases hw
  simp [decVBit, okV, *]

theorem readsBack_decVfmm {c : Guard → Bool → FloatTy → VReg → VReg → VOp → Instr} {ty : FloatTy}
    (he : encode (c g nr ty vd va b) = encV op g nr ty.code 0 false vd.toNat va.toNat b)
    (hrow : rowOf op = some ⟨op, 8, false, decVfmm c⟩) : ReadsBack (c g nr ty vd va b) := by
  have ht := ty.code_lt
  refine readsBack_of_encV he hrow fun w hw => ?_
  obtain ⟨hb, hok, hmod⟩ := vOperand_plain hw.vb hw.mod
  cases hw
  simp [decVfmm, okV, *]

theorem predOk_iff {p : PReg} : predOk p = true ↔ p.toNat < 12 := decide_eq_true_iff

theorem readsBack_vcmp {c : IntCond} {ty : IntTy} {pd : PReg} (h : predOk pd = true) : ReadsBack (.vcmp g nr c ty pd va b) := by
  have ht := ty.code_lt
  have hc := c.code_lt
  refine readsBack_of_encV rfl rfl fun w hw => ?_
  obtain ⟨hb, hok, hmod⟩ := vOperand_plain hw.vb hw.mod
  obtain ⟨hlow, hhigh⟩ := field_split (x := c.code) (m := 3) (by omega) 3
  cases hw
  simp [decVcmp, okV, predOk_iff.1 h, *]

theorem readsBack_vfcmp {c : FloatCond} {pd : PReg} (h : predOk pd = true) : ReadsBack (.vfcmp g nr c pd va b) := by
  have hc := c.code_lt
  refine readsBack_of_encV rfl rfl fun w hw => ?_
  obtain ⟨hb, hok, hmod⟩ := vOperand_plain hw.vb hw.mod
  obtain ⟨hlow, hhigh⟩ := field_split (x := c.code) (m := 3) (by omega) 3
  cases hw
  simp [decVfcmp, okV, predOk_iff.1 h, *]

theorem readsBack_decVUn {c : Guard → Bool → VReg → VReg → Instr}
    (he : encode (c g nr vd va) = packV op g nr vd.toNat va.toNat 0 0 0 0)
    (hrow : rowOf op = some ⟨op, 8, false, decVUn c⟩) : ReadsBack (c g nr vd va) :=
  readsBack_of_packV he hrow rfl fun w hw => by
    cases hw
    simp [decVUn, okV, *]

theorem readsBack_decVSat {c : Guard → Bool → Bool → VReg → VReg → Instr}
    (he : encode (c g nr sat vd va) = packV op g nr vd.toNat va.toNat 0 0 0 (b2n sat))
    (hrow : rowOf op = some ⟨op, 8, false, decVSat c⟩) : ReadsBack (c g nr sat vd va) := by
  have hs := b2n_lt sat
  refine readsBack_of_packV he hrow rfl fun w hw => ?_
  have hmid : bitAt (b2n sat) 1 = false := bitAt_of_field (by rw [field, b2n_false]; omega)
  have hhigh : bitAt (b2n sat) 2 = false := bitAt_of_field (by rw [field, b2n_false]; omega)
  cases hw
  simp [decVSat, okV, okMod, *]

theorem readsBack_decVfun {c : Guard → Bool → FloatTy → VReg → VReg → Instr} {ty : FloatTy}
    (he : encode (c g nr ty vd va) = packV op g nr vd.toNat va.toNat 0 0 ty.code 0)
    (hrow : rowOf op = some ⟨op, 8, false, decVfun c⟩) : ReadsBack (c g nr ty vd va) := by
  have ht := ty.code_lt
  exact readsBack_of_packV he hrow rfl fun w hw => by
    cases hw
    simp [decVfun, okV, *]

theorem readsBack_vfclass {ty : ClassTy} : ReadsBack (.vfclass g nr ty vd va) := by
  have ht := ty.code_lt
  exact readsBack_of_packV rfl rfl rfl fun w hw => by
    cases hw
    simp [decVfclass, okV, *]

theorem readsBack_vfexpo : ReadsBack (.vfexpo g nr vd va) :=
  readsBack_of_packV rfl rfl rfl fun w hw => by
    cases hw
    simp [decVfexpo, okV, *]

theorem readsBack_vmovx {xd : XReg} : ReadsBack (.vmovx g nr xd va) :=
  readsBack_of_packV rfl rfl rfl fun w hw => by
    cases hw
    simp [decVmovx, okV, XReg.toNat_lt, *]

theorem readsBack_vstx {xa : XReg} : ReadsBack (.vstx g nr vd xa) :=
  readsBack_of_packV rfl rfl rfl fun w hw => by
    cases hw
    simp [decVstx, okV, XReg.toNat_lt, *]

theorem readsBack_viota {rank : Bool} : ReadsBack (.viota g nr rank vd) := by
  have hr := b2n_lt rank
  exact readsBack_of_packV rfl rfl rfl fun w hw => by
    cases hw
    simp [decViota, okV, *]

theorem readsBack_stov {hi : Bool} : ReadsBack (.stov g nr hi vd sa) := by
  have hr := b2n_lt hi
  exact readsBack_of_packV rfl rfl rfl fun w hw => by
    cases hw
    simp [decStov, okV, SReg.toNat_lt, *]

theorem readsBack_vtos {mode : VtosMode} : ReadsBack (.vtos g nr mode sd va) := by
  have hm := mode.code_lt
  exact readsBack_of_packV rfl rfl rfl fun w hw => by
    cases hw
    simp [decVtos, okV, SReg.toNat_lt, *]

theorem readsBack_vballot {pa : PReg} (h : predOk pa = true) : ReadsBack (.vballot g nr sd pa) :=
  readsBack_of_packV rfl rfl rfl fun w hw => by
    cases hw
    simp [decVballot, okV, SReg.toNat_lt, predOk_iff.1 h, *]

theorem readsBack_ptest {mode : TestMode} {k : UPred} {pa : PReg} (h : predOk pa = true) : ReadsBack (.ptest g nr mode k pa) := by
  have hm := mode.code_lt
  exact readsBack_of_packV rfl rfl rfl fun w hw => by
    cases hw
    simp [decPtest, okV, UPred.toNat_lt, predOk_iff.1 h, *]

theorem readsBack_vplog {t : BitVec 4} {pd pa pb : PReg} (h : (predOk pd && predOk pa && predOk pb) = true) :
    ReadsBack (.vplog g nr t pd pa pb) := by
  simp only [Bool.and_eq_true, predOk_iff] at h
  obtain ⟨hlow, hhigh⟩ := field_split t.isLt 2
  exact readsBack_of_packV rfl rfl rfl fun w hw => by
    cases hw
    simp [decVplog, okV, *]

theorem readsBack_qswap {m : BitVec 2} (h : (m != 0) = true) : ReadsBack (.qswap g nr m vd va) := by
  have hm : (m.toNat != 0) = true := bne_iff_ne.2 fun h0 => bne_iff_ne.1 h (BitVec.eq_of_toNat_eq h0)
  exact readsBack_of_packV rfl rfl rfl fun w hw => by
    cases hw
    simp [decQswap, okV, (field_split m.isLt 4).2, *]

theorem readsBack_qbcast {k : BitVec 2} : ReadsBack (.qbcast g nr k vd va) :=
  readsBack_of_packV rfl rfl rfl fun w hw => by
    cases hw
    simp [decQbcast, okV, (field_split k.isLt 4).2, *]

theorem readsBack_vred {fn : RedFn} {ty : RedTy} (h : redOk fn ty = true) : ReadsBack (.vred g nr fn ty vd va) := by
  have hf := fn.code_lt
  have ht := ty.code_lt
  have hm := ty.modCode_lt
  obtain ⟨hlow, hhigh⟩ := field_split (x := fn.code) (m := 3) (by omega) 3
  exact readsBack_of_packV rfl rfl rfl fun w hw => by
    cases hw
    simp [decVred, okV, *]

theorem readsBack_vscan {fn : RedFn} {excl : Bool} {ty : RedTy} (h : redOk fn ty = true) :
    ReadsBack (.vscan g nr fn excl ty vd va) := by
  have hf := fn.code_lt
  have hx := b2n_lt excl
  have ht := ty.code_lt
  have hm := ty.modCode_lt
  have hlow : field (fn.code + b2n excl * 8) 0 3 = fn.code := by rw [field]; omega
  have hexcl : bitAt (fn.code + b2n excl * 8) 3 = excl := bitAt_of_field (by rw [field]; omega)
  have hhigh : field (fn.code + b2n excl * 8) 4 2 = 0 := by rw [field]; omega
  exact readsBack_of_packV rfl rfl rfl fun w hw => by
    cases hw
    simp [decVscan, okV, *]

end

/-! ## Formats V4 and VI (R90, R229) -/

section
variable {g : Guard} {op : Nat} {nr sat : Bool} {ix : Ix} {vd va vb vc : VReg} {rnd : Rounding}

/-- The index codes that name an operand or none (R62). -/
theorem ix_bne (h : (ix != 7) = true) : (ix.toNat != 7) = true :=
  bne_iff_ne.2 fun h7 => bne_iff_ne.1 h (BitVec.eq_of_toNat_eq h7)

theorem readsBack_vmov {more : BitVec 6} (h : (ix != 7 && (more == 0 || ix == 0)) = true) :
    ReadsBack (.vmov g nr ix more vd va) := by
  simp only [Bool.and_eq_true, Bool.or_eq_true, beq_iff_eq] at h
  obtain ⟨hix, hone⟩ := h
  have hix := ix_bne hix
  have hone : (more.toNat == 0 || ix.toNat == 0) = true := by rcases hone with rfl | rfl <;> simp
  exact readsBack_of_packV4 rfl rfl rfl fun w hw => by
    cases hw
    simp [decVmov, zV4, okV4, -Bool.or_eq_true, *]

theorem readsBack_vmad {ty : IntTy} (h : (ix != 7) = true) : ReadsBack (.vmad g nr ix ty sat vd va vb vc) := by
  have ht := ty.code_lt
  have hix := ix_bne h
  exact readsBack_of_packV4 rfl rfl rfl fun w hw => by
    cases hw
    simp [decVmad, zV4, okV4, *]

theorem readsBack_decV4Four {c : Guard → Bool → Ix → VReg → VReg → VReg → VReg → Instr}
    (he : encode (c g nr ix vd va vb vc) = packV4 op g nr vd.toNat va.toNat vb.toNat vc.toNat 0 0 0 false ix.toNat)
    (hrow : rowOf op = some ⟨op, 12, false, decV4Four c⟩) (h : (ix != 7) = true) : ReadsBack (c g nr ix vd va vb vc) := by
  have hix := ix_bne h
  exact readsBack_of_packV4 he hrow rfl fun w hw => by
    cases hw
    simp [decV4Four, zV4, okV4, *]

theorem readsBack_vbfx {ty : IntTy} (h : (ix != 7) = true) : ReadsBack (.vbfx g nr ix ty vd va vb vc) := by
  have ht := ty.code_lt
  have hix := ix_bne h
  exact readsBack_of_packV4 rfl rfl rfl fun w hw => by
    cases hw
    simp [decVbfx, zV4, okV4, *]

theorem readsBack_vperm : ReadsBack (.vperm g nr vd va vb vc) :=
  readsBack_of_packV4 rfl rfl rfl fun w hw => by
    cases hw
    simp [decVperm, zV4, okV4, *]

theorem ShflMode.code_lt (m : ShflMode) : m.code < 4 := by cases m <;> simp [ShflMode.code]
theorem ShflMode.fill_lt (m : ShflMode) : m.fill < 2048 := by cases m <;> simp only [ShflMode.fill] <;> omega

theorem shflMode_eq {w : Nat} {m : ShflMode} (hfunc : v4Func6 w = m.code) (hvc : fVc w = m.fill) : shflMode? w = some m := by
  cases m <;> simp [shflMode?, hfunc, hvc, ShflMode.code, ShflMode.fill]

theorem readsBack_vshfl {m : ShflMode} : ReadsBack (.vshfl g nr m vd va vb) := by
  have hm := m.code_lt
  have hf := m.fill_lt
  refine readsBack_of_packV4 rfl rfl rfl fun w hw => ?_
  have hmode := shflMode_eq hw.func hw.vc
  cases hw
  simp [decVshfl, zV4, okV4, *]

theorem readsBack_decVf2 {c : Guard → Bool → Ix → FloatTy → Rounding → Bool → VReg → VReg → VReg → Instr}
    {ty : FloatTy}
    (he : encode (c g nr ix ty rnd sat vd va vb) =
      packV4 op g nr vd.toNat va.toNat vb.toNat 0 0 ty.code rnd.code sat ix.toNat)
    (hrow : rowOf op = some ⟨op, 12, false, decVf2 c⟩) (h : (ix != 7) = true) :
    ReadsBack (c g nr ix ty rnd sat vd va vb) := by
  have ht := ty.code_lt
  have hr := rnd.code_lt
  have hix := ix_bne h
  exact readsBack_of_packV4 he hrow rfl fun w hw => by
    cases hw
    simp [decVf2, zV4, okV4, *]

theorem readsBack_vfma {ty : FloatTy} (h : (ix != 7) = true) : ReadsBack (.vfma g nr ix ty rnd sat vd va vb vc) := by
  have ht := ty.code_lt
  have hr := rnd.code_lt
  have hix := ix_bne h
  exact readsBack_of_packV4 rfl rfl rfl fun w hw => by
    cases hw
    simp [decVfma, zV4, okV4, *]

theorem readsBack_decVf1 {c : Guard → Bool → Ix → Rounding → Bool → VReg → VReg → Instr}
    (he : encode (c g nr ix rnd sat vd va) = packV4 op g nr vd.toNat va.toNat 0 0 0 2 rnd.code sat ix.toNat)
    (hrow : rowOf op = some ⟨op, 12, false, decVf1 c⟩) (h : (ix != 7) = true) : ReadsBack (c g nr ix rnd sat vd va) := by
  have hr := rnd.code_lt
  have hix := ix_bne h
  exact readsBack_of_packV4 he hrow rfl fun w hw => by
    cases hw
    simp [decVf1, zV4, okV4, *]

theorem readsBack_decVf2f {c : Guard → Bool → Ix → Rounding → Bool → VReg → VReg → VReg → Instr}
    (he : encode (c g nr ix rnd sat vd va vb) = packV4 op g nr vd.toNat va.toNat vb.toNat 0 0 2 rnd.code sat ix.toNat)
    (hrow : rowOf op = some ⟨op, 12, false, decVf2f c⟩) (h : (ix != 7) = true) : ReadsBack (c g nr ix rnd sat vd va vb) := by
  have hr := rnd.code_lt
  have hix := ix_bne h
  exact readsBack_of_packV4 he hrow rfl fun w hw => by
    cases hw
    simp [decVf2f, zV4, okV4, *]

theorem readsBack_vcvt {src dst : ElemTy} (h : (src != dst && ix != 7) = true) :
    ReadsBack (.vcvt g nr ix src dst rnd sat vd va) := by
  obtain ⟨hne, hix⟩ := Bool.and_eq_true_iff.1 h
  have hne : (src.code != dst.code) = true := bne_iff_ne.2 fun h => bne_iff_ne.1 hne (ElemTy.code_inj.1 h)
  have hix := ix_bne hix
  have hsrc := src.code_lt
  have hdst := dst.code_lt
  have hr := rnd.code_lt
  obtain ⟨hlow, hhigh⟩ := field_split (x := src.code) (m := 3) (by omega) 3
  exact readsBack_of_packV4 rfl rfl rfl fun w hw => by
    cases hw
    simp [decVcvt, zV4, okV4, *]

theorem readsBack_vpack2 {ty : HalfTy} : ReadsBack (.vpack2 g nr ty rnd sat vd va vb) := by
  have ht := ty.code_lt
  have hr := rnd.code_lt
  exact readsBack_of_packV4 rfl rfl rfl fun w hw => by
    cases hw
    simp [decVpack2, zV4, okV4, *]

theorem readsBack_vunpack2 {ty : HalfTy} : ReadsBack (.vunpack2 g nr ty vd va) := by
  have ht := ty.code_lt
  exact readsBack_of_packV4 rfl rfl rfl fun w hw => by
    cases hw
    simp [decVunpack2, zV4, okV4, *]

theorem readsBack_vpack4 {ty : Fp8Ty} : ReadsBack (.vpack4 g nr ty rnd sat vd va) := by
  have ht := ty.code_lt
  have hr := rnd.code_lt
  exact readsBack_of_packV4 rfl rfl rfl fun w hw => by
    cases hw
    simp [decVpack4, zV4, okV4, *]

theorem readsBack_vunpack4 {ty : Fp8Ty} : ReadsBack (.vunpack4 g nr ty vd va) := by
  have ht := ty.code_lt
  exact readsBack_of_packV4 rfl rfl rfl fun w hw => by
    cases hw
    simp [decVunpack4, zV4, okV4, *]

theorem readsBack_vqpack : ReadsBack (.vqpack g nr rnd vd va) := by
  have hr := rnd.code_lt
  exact readsBack_of_packV4 rfl rfl rfl fun w hw => by
    cases hw
    simp [decVqpack, zV4, okV4, *]

theorem readsBack_vqunpk : ReadsBack (.vqunpk g nr vd va) :=
  readsBack_of_packV4 rfl rfl rfl fun w hw => by
    cases hw
    simp [decVqunpk, zV4, okV4, *]

theorem readsBack_vdot2 {ty : HalfTy} : ReadsBack (.vdot2 g nr ty rnd sat vd va vb vc) := by
  have ht := ty.code_lt
  have hr := rnd.code_lt
  exact readsBack_of_packV4 rfl rfl rfl fun w hw => by
    cases hw
    simp [decVdot2, zV4, okV4, *]

theorem readsBack_vdot4 {ty : Fp8Ty} : ReadsBack (.vdot4 g nr ty rnd sat vd va vb vc) := by
  have ht := ty.code_lt
  have hr := rnd.code_lt
  exact readsBack_of_packV4 rfl rfl rfl fun w hw => by
    cases hw
    simp [decVdot4, zV4, okV4, *]

theorem readsBack_vmovi {ty : ElemTy} {imm : Word32} (h : ((ix == 0 || ix == 5 || ix == 6) && decide (ty.code < 3)) = true) :
    ReadsBack (.vmovi g nr ix ty vd imm) := by
  simp only [Bool.and_eq_true, Bool.or_eq_true, beq_iff_eq, decide_eq_true_eq] at h
  obtain ⟨hix, ht⟩ := h
  have hix : (ix.toNat == 0 || ix.toNat == 5 || ix.toNat == 6) = true := by rcases hix with (rfl | rfl) | rfl <;> rfl
  exact readsBack_of_packVI rfl rfl rfl fun w hw => by
    cases hw
    simp [decVmovi, -Bool.or_eq_true, *]

end

/-! ## Format M (R90, R180, R181) -/

theorem encVo_lt (vo : Option VReg) : encVo vo < 2048 := by
  cases vo <;> simp only [encVo] <;> omega

/-- The offset register is read back: 0x7FF names none (R180). -/
theorem mVo_eq {w : Nat} {vo : Option VReg} (h : voOk vo = true) (hw : mVo w = encVo vo) : mVo? w = vo := by
  cases vo with
  | none => simp [mVo?, hw, encVo]
  | some r =>
    have hr : r.toNat ≠ 0x7FF := fun h7 => by simp [voOk, BitVec.eq_of_toNat_eq (y := 0x7FF) h7] at h
    simp [mVo?, hw, encVo, hr]

theorem Ordering.orderCode_lt (o : Ordering) : o.orderCode < 5 := by cases o <;> simp [Ordering.orderCode]
theorem Ordering.scopeCode_lt (o : Ordering) : o.scopeCode < 6 := by
  cases o with
  | plain => decide
  | acq s | rel s | acqRel s | sc s => exact s.code_lt

/-- Order and scope are read back (R96). -/
@[simp] theorem ordering_codes (o : Ordering) : ordering? o.orderCode o.scopeCode = some o := by
  cases o with
  | plain => rfl
  | acq s | rel s | acqRel s | sc s => simp [ordering?, Ordering.orderCode, Ordering.scopeCode]

@[simp] theorem atomSize_code (b64 : Bool) : atomSize? (2 + b2n b64) = some b64 := by cases b64 <;> rfl

section
variable {g : Guard} {i : Instr} {op : Nat} {nr : Bool} {ms : Space} {ws : WordSpace} {sz : Size} {o : Ordering} {data : VReg}
  {sd base : SReg} {vo : Option VReg} {off : BitVec 24}

theorem readsBack_of_encMem {classU c : Bool} {dec : Nat → Guard → Dec} {ms size data vo off : Nat}
    (he : encode i = encMem op g ms size o c data base.toNat vo off)
    (hrow : rowOf op = some ⟨op, 12, classU, dec⟩) (hg : (!classU || uGuard g) = true)
    (hdec : ∀ w, FieldsM w data base.toNat vo ms size o.orderCode o.scopeCode c off → dec w g = .ok i)
    (hms : ms < 8 := by omega) (hsize : size < 8 := by omega) (hdata : data < 2048 := by omega)
    (hvo : vo < 2048 := by omega) (hoff : off < 2 ^ 24 := by omega) : ReadsBack i := by
  have ho := o.orderCode_lt
  have hs := o.scopeCode_lt
  exact readsBack_of_packM he hrow hg hdec

/-- The checks of a vector access, by whether it stores (R181). -/
theorem readsBack_decVMem {store : Bool}
    {c : Guard → Space → Size → Ordering → VReg → SReg → Option VReg → BitVec 24 → Instr}
    (he : encode (c g ms sz o data base vo off) =
      encMem op g ms.code sz.code o false data.toNat base.toNat (encVo vo) off.toNat)
    (hrow : rowOf op = some ⟨op, 12, false, decVMem store c⟩) (hvo : voOk vo = true) (hstk : stkOk ms o = true)
    (hok : (if store then storeOrder o && storeSize sz else loadOrder o) = true) :
    ReadsBack (c g ms sz o data base vo off) := by
  have hm := ms.code_lt
  have hz := sz.code_lt
  have hv := encVo_lt vo
  refine readsBack_of_encMem he hrow rfl fun w hw => ?_
  have hvo := mVo_eq hvo hw.vo
  simp only [decVMem, hw.zero, hw.c, hw.space, hw.size, hw.order, hw.scope, hw.data, hw.base, hw.off, hvo]
  simp [hstk, hok]

theorem readsBack_vld (h : (voOk vo && stkOk ms o && loadOrder o) = true) : ReadsBack (.vld g ms sz o data base vo off) := by
  simp only [Bool.and_eq_true] at h
  obtain ⟨⟨hvo, hstk⟩, hord⟩ := h
  exact readsBack_decVMem rfl rfl hvo hstk hord

theorem readsBack_vst (h : (voOk vo && stkOk ms o && storeOrder o && storeSize sz) = true) :
    ReadsBack (.vst g ms sz o data base vo off) := by
  simp only [Bool.and_eq_true] at h
  obtain ⟨⟨⟨hvo, hstk⟩, hord⟩, hsize⟩ := h
  exact readsBack_decVMem rfl rfl hvo hstk (Bool.and_eq_true_iff.2 ⟨hord, hsize⟩)

theorem readsBack_decSMem {store : Bool} {c : Guard → Space → Size → Ordering → SReg → SReg → BitVec 24 → Instr}
    (he : encode (c g ms sz o sd base off) = encMem op g ms.code sz.code o false sd.toNat base.toNat 0 off.toNat)
    (hrow : rowOf op = some ⟨op, 12, true, decSMem store c⟩) (hg : uGuard g = true) (hstk : stkOk ms o = true)
    (hsize : scalarSize sz = true) (hok : (if store then storeOrder o && storeSize sz else loadOrder o) = true) :
    ReadsBack (c g ms sz o sd base off) := by
  have hm := ms.code_lt
  have hz := sz.code_lt
  refine readsBack_of_encMem he hrow hg fun w hw => ?_
  simp only [decSMem, hw.zero, hw.c, hw.space, hw.size, hw.order, hw.scope, hw.data, hw.base, hw.off, hw.vo]
  simp [hstk, hsize, hok, SReg.toNat_lt]

theorem readsBack_sld (h : (uGuard g && stkOk ms o && loadOrder o && scalarSize sz) = true) :
    ReadsBack (.sld g ms sz o sd base off) := by
  simp only [Bool.and_eq_true] at h
  obtain ⟨⟨⟨hg, hstk⟩, hord⟩, hsize⟩ := h
  exact readsBack_decSMem rfl rfl hg hstk hsize hord

theorem readsBack_sst (h : (uGuard g && stkOk ms o && storeOrder o && storeSize sz && scalarSize sz) = true) :
    ReadsBack (.sst g ms sz o sd base off) := by
  simp only [Bool.and_eq_true] at h
  obtain ⟨⟨⟨⟨hg, hstk⟩, hord⟩, hstore⟩, hsize⟩ := h
  exact readsBack_decSMem rfl rfl hg hstk hsize (Bool.and_eq_true_iff.2 ⟨hord, hstore⟩)

theorem readsBack_vldc (h : (voOk vo && vldcSize sz) = true) : ReadsBack (.vldc g nr ws sz data base vo off) := by
  obtain ⟨hvo, hsize⟩ := Bool.and_eq_true_iff.1 h
  have hm := ws.code_lt
  have hz := sz.code_lt
  have hv := encVo_lt vo
  refine readsBack_of_packM rfl rfl rfl fun w hw => ?_
  have hvo := mVo_eq hvo hw.vo
  cases hw
  simp [decVldc, *]

/-- An atomic's offset and function share imm24 (R187). -/
theorem atomOff_fields {w : Nat} {fn : AtomFn} {off : BitVec 20} (hw : mOff w = off.toNat + fn.code * 2 ^ 20) :
    field (mOff w) 20 4 = fn.code ∧ BitVec.ofNat 20 (mOff w) = off := by
  have hf := fn.code_lt
  exact ⟨by rw [hw, field]; omega, BitVec.eq_of_toNat_eq (by rw [hw, BitVec.toNat_ofNat]; omega)⟩

theorem readsBack_vatom {fn : AtomFn} {fetch b64 : Bool} {off : BitVec 20} (h : (voOk vo && faddOk fn b64) = true) :
    ReadsBack (.vatom g fn fetch ws b64 o data base vo off) := by
  obtain ⟨hvo, hfadd⟩ := Bool.and_eq_true_iff.1 h
  have hm := ws.code_lt
  have hb := b2n_lt b64
  have hf := fn.code_lt
  have hv := encVo_lt vo
  refine readsBack_of_encMem rfl rfl rfl fun w hw => ?_
  have hvo := mVo_eq hvo hw.vo
  obtain ⟨hfn, hoff⟩ := atomOff_fields hw.off
  simp [decVatom, hw.zero, hw.space, hw.size, hw.order, hw.scope, hfn, hfadd, hw.c, hw.data, hw.base, hvo, hoff]

theorem readsBack_satom {fn : AtomFn} {fetch b64 : Bool} {off : BitVec 20}
    (h : (uGuard g && faddOk fn b64 && !(fn == .cas && sd == 127)) = true) :
    ReadsBack (.satom g fn fetch ws b64 o sd base off) := by
  simp only [Bool.and_eq_true] at h
  obtain ⟨⟨hg, hfadd⟩, hcas⟩ := h
  have hcas : (!(fn == .cas) || !(sd.toNat == 127)) = true := by simpa [BitVec.toNat_eq] using hcas
  have hm := ws.code_lt
  have hb := b2n_lt b64
  have hf := fn.code_lt
  refine readsBack_of_encMem rfl rfl hg fun w hw => ?_
  obtain ⟨hfn, hoff⟩ := atomOff_fields hw.off
  simp only [decSatom, hw.zero, hw.space, hw.size, hw.order, hw.scope, hw.c, hw.data, hw.base, hw.vo, hfn, hoff]
  simp [hfadd, hcas, SReg.toNat_lt, -Bool.or_eq_true]

theorem readsBack_decStack {c : Guard → VReg → BitVec 24 → Instr}
    (he : encode (c g data off) = packM op g data.toNat 0 0 3 0 0 0 false off.toNat)
    (hrow : rowOf op = some ⟨op, 12, false, decStack c⟩) (h : countOk off = true) : ReadsBack (c g data off) := by
  simp only [countOk, Bool.and_eq_true, decide_eq_true_eq] at h
  exact readsBack_of_packM he hrow rfl fun w hw => by
    cases hw
    simp [decStack, *]

theorem readsBack_fence {o : FenceOrder} {sc : Scope} (hg : uGuard g = true) : ReadsBack (.fence g o sc) := by
  have ho := o.code_lt
  have hs := sc.code_lt
  exact readsBack_of_packM rfl rfl hg fun w hw => by
    cases hw
    simp [decFence, *]

/-- A register other than 127, as its field holds it. -/
theorem sreg_bne {r : SReg} (h : (r != 127) = true) : (r.toNat != 127) = true :=
  bne_iff_ne.2 fun h7 => bne_iff_ne.1 h (BitVec.eq_of_toNat_eq h7)

theorem readsBack_tspawn (h : (voOk vo && base != 127) = true) : ReadsBack (.tspawn g data base vo off) := by
  obtain ⟨hvo, hbase⟩ := Bool.and_eq_true_iff.1 h
  have hbase := sreg_bne hbase
  have hv := encVo_lt vo
  refine readsBack_of_packM rfl rfl rfl fun w hw => ?_
  have hvo := mVo_eq hvo hw.vo
  cases hw
  simp [decTspawn, *]

end

/-! ## Format E (R90) -/

theorem encFlag_lt (r : Option SReg) : encFlag r < 128 := by
  cases r <;> simp only [encFlag] <;> omega

section
variable {g : Guard} {op : Nat} {off : Word32} {scp : Scope} {cl : Bool} {ws : WordSpace} {base tok sd aA rA : SReg} {k : Slot}

/-- The acquire scope of WAITW stands in bits 7:4 of its minor function (R191). -/
theorem encWaitScope_eq (acq : Option Scope) : ∃ k, k < 16 ∧ encWaitScope acq = k * 16 := by
  cases acq with
  | none => exact ⟨0, by decide, rfl⟩
  | some s =>
    have hs := s.code_lt
    exact ⟨8 + s.code, by omega, by simp only [encWaitScope]; omega⟩

theorem waitScope_eq {w m : Nat} {acq : Option Scope} (hm : m < 16) (hw : eFunc8 w = m + encWaitScope acq) :
    waitScope? w = some acq := by
  cases acq with
  | none =>
    have hbit : bitAt (eFunc8 w) 7 = false := bitAt_of_field (by rw [hw, encWaitScope, field, b2n_false]; omega)
    have hsc : field (eFunc8 w) 4 3 = 0 := by rw [hw, encWaitScope, field]; omega
    simp [waitScope?, hbit, hsc]
  | some s =>
    have hs := s.code_lt
    have hbit : bitAt (eFunc8 w) 7 = true := bitAt_of_field (by rw [hw, encWaitScope, field, b2n_true]; omega)
    have hsc : field (eFunc8 w) 4 3 = s.code := by rw [hw, encWaitScope, field]; omega
    simp [waitScope?, hbit, hsc]

theorem readsBack_waitw {acq : Option Scope} {b64 : Bool} {sv sc st : SReg} {spd : UPred} (hg : uGuard g = true) :
    ReadsBack (.waitw g acq ws b64 base sv sc st spd off) := by
  have hm := ws.code_lt
  have hb := b2n_lt b64
  obtain ⟨k, hk, ha⟩ := encWaitScope_eq acq
  refine readsBack_of_packE rfl rfl hg fun w hw => ?_
  have hms : field (eFunc8 w) 0 3 = ws.code := by rw [hw.func, field]; omega
  have hb64 : bitAt (eFunc8 w) 3 = b64 := bitAt_of_field (by rw [hw.func, field]; omega)
  have hacq := waitScope_eq (m := ws.code + b2n b64 * 8) (by omega) hw.func
  simp [decWaitw, eReg, eImm32, hw.zero, hw.sf5, hw.sf4, hw.sf3, hw.sf2, hw.sf1, hw.sf0, hw.imm, hms, hb64, hacq, UPred.toNat_lt]

theorem readsBack_cbinit {qa qk : SReg} (hg : uGuard g = true) : ReadsBack (.cbinit g cl base qa qk off) := by
  have hc := b2n_lt cl
  refine readsBack_of_packE rfl rfl hg fun w hw => ?_
  have hcl : bitAt (b2n cl * 16) 4 = cl := bitAt_of_field (by rw [field]; omega)
  have hlow : field (b2n cl * 16) 0 4 = 0 := by rw [field]; omega
  have hhigh : field (b2n cl * 16) 5 3 = 0 := by rw [field]; omega
  cases hw
  simp [decCbinit, eReg, eImm32, *]

/-- The minor function of a count barrier: bit 0, the scope and the layout (R193). -/
theorem cbFunc_fields {w : Nat} {bit0 accept : Bool} (hok : accept = true ∨ bit0 = false) (hzero : okE w = true)
    (hfunc : eFunc8 w = b2n bit0 + scp.code * 2 + b2n cl * 16) :
    okCb w accept = true ∧ cbScope? w = some scp ∧ bitAt (eFunc8 w) 0 = bit0 ∧ bitAt (eFunc8 w) 4 = cl := by
  have h0 := b2n_lt bit0
  have hs := scp.code_lt
  have hc := b2n_lt cl
  have hbit : bitAt (eFunc8 w) 0 = bit0 := bitAt_of_field (by rw [hfunc, field]; omega)
  have hscope : field (eFunc8 w) 1 3 = scp.code := by rw [hfunc, field]; omega
  have hcl : bitAt (eFunc8 w) 4 = cl := bitAt_of_field (by rw [hfunc, field]; omega)
  have hhigh : field (eFunc8 w) 5 3 = 0 := by rw [hfunc, field]; omega
  have hok : (accept || !bit0) = true := by rcases hok with h | h <;> simp [h]
  simp [okCb, cbScope?, hzero, hbit, hscope, hcl, hhigh, hok]

theorem readsBack_of_encCb {i : Instr} {bit0 : Bool} {a b c d : Nat} {dec : Nat → Guard → Dec}
    (he : encode i = encCb op g bit0 scp cl a b c d off) (hrow : rowOf op = some ⟨op, 16, true, dec⟩) (hg : uGuard g = true)
    (hdec : ∀ w, FieldsE w a b c d 0 0 (b2n bit0 + scp.code * 2 + b2n cl * 16) off.toNat → dec w g = .ok i)
    (ha : a < 128 := by omega) (hb : b < 128 := by omega) (hc : c < 128 := by omega) (hd : d < 128 := by omega) :
    ReadsBack i := by
  have h0 := b2n_lt bit0
  have hs := scp.code_lt
  have hcl := b2n_lt cl
  exact readsBack_of_packE he hrow hg hdec

theorem readsBack_cbexpect {arrive : Option SReg} {cnt : SReg} (hg : uGuard g = true) :
    ReadsBack (.cbexpect g arrive scp cl base cnt off) := by
  have hf := encFlag_lt arrive
  refine readsBack_of_encCb rfl rfl hg fun w hw => ?_
  obtain ⟨hok, hscope, hbit, hcl⟩ := cbFunc_fields (.inl rfl) hw.zero hw.func
  cases arrive <;>
    simp [decCbexpect, eReg, eImm32, hok, hscope, hbit, hcl, hw.sf0, hw.sf1, hw.sf2, hw.sf3, hw.sf4, hw.sf5, hw.imm, encFlag]

theorem readsBack_cbarrive {ack : Bool} (hg : uGuard g = true) : ReadsBack (.cbarrive g ack scp cl base tok off) := by
  refine readsBack_of_encCb rfl rfl hg fun w hw => ?_
  obtain ⟨hok, hscope, hbit, hcl⟩ := cbFunc_fields (.inl rfl) hw.zero hw.func
  simp [decCbarrive, eReg, eImm32, hok, hscope, hbit, hcl, hw.sf0, hw.sf1, hw.sf2, hw.sf3, hw.sf4, hw.sf5, hw.imm]

theorem readsBack_cbwait (hg : uGuard g = true) : ReadsBack (.cbwait g scp cl base tok off) := by
  refine readsBack_of_encCb rfl rfl hg fun w hw => ?_
  obtain ⟨hok, hscope, -, hcl⟩ := cbFunc_fields (accept := false) (.inr rfl) hw.zero hw.func
  simp [decCbwait, eReg, eImm32, hok, hscope, hcl, hw.sf0, hw.sf1, hw.sf2, hw.sf3, hw.sf4, hw.sf5, hw.imm]

theorem readsBack_cbtest {spd : UPred} {sf : SReg} (hg : uGuard g = true) : ReadsBack (.cbtest g scp cl spd sf base tok off) := by
  refine readsBack_of_encCb rfl rfl hg fun w hw => ?_
  obtain ⟨hok, hscope, -, hcl⟩ := cbFunc_fields (accept := false) (.inr rfl) hw.zero hw.func
  simp [decCbtest, eReg, eImm32, hok, hscope, hcl, hw.sf0, hw.sf1, hw.sf2, hw.sf3, hw.sf4, hw.sf5, hw.imm, UPred.toNat_lt]

theorem readsBack_rlock {len hd : SReg} (hg : uGuard g = true) : ReadsBack (.rlock g ws base len hd off) := by
  have hm := ws.code_lt
  obtain ⟨hlow, hhigh⟩ := field_split (x := ws.code) (m := 3) (by omega) 5
  exact readsBack_of_packE rfl rfl hg fun w hw => by
    cases hw
    simp [decRlock, eReg, eImm32, *]

theorem readsBack_runlock {hd : SReg} (hg : uGuard g = true) : ReadsBack (.runlock g hd) :=
  readsBack_of_packE rfl rfl hg fun w hw => by
    cases hw
    simp [decRunlock, eReg, *]

/-! ## Copies and transfers -/

theorem encCbReg_lt (cb : Option CbRef) : encCbReg cb < 128 := by
  cases cb <;> simp only [encCbReg] <;> omega

theorem encCbBit_eq (cb : Option CbRef) : encCbBit cb = b2n (cb.any (·.cl)) * 8 := by cases cb <;> rfl

/-- The count barrier of a copy is read back (R259). -/
theorem cbRef_eq {w : Nat} {cb : Option CbRef} (hbit : bitAt (eFunc8 w) 7 = cb.isSome) (hreg : eF w 4 = encCbReg cb)
    (hcl : bitAt (eImm w) 3 = cb.any (·.cl)) : cbRef? w = some cb := by
  cases cb <;> simp_all [cbRef?, eReg, encCbReg]

/-- The flag of a copy is read back (R259). -/
theorem flag_eq {w : Nat} {flag : Option SReg} (hbit : bitAt (eFunc8 w) 6 = flag.isSome) (hreg : eF w 5 = encFlag flag) :
    flag? w = some flag := by
  cases flag <;> simp_all [flag?, eReg, encFlag]

/-- What the minor function and imm32 of a copy hold (R254, R259). -/
structure CopyFields (w d s : Nat) (scp : Scope) (scatter : Bool) (cb : Option CbRef) (flag : Option SReg) : Prop where
  dst     : field (eFunc8 w) 0 3 = d
  src     : field (eFunc8 w) 3 3 = s
  scope   : field (eImm w) 0 3 = scp.code
  scatter : field (eImm w) 4 28 = b2n scatter
  cb      : cbRef? w = some cb
  flag    : flag? w = some flag

theorem readsBack_of_encCopy {i : Instr} {d s : Nat} {scatter : Bool} {a b c e : SReg} {cb : Option CbRef} {flag : Option SReg}
    {dec : Nat → Guard → Dec} (he : encode i = encCopy op g d s scp (b2n scatter) a b c e cb flag)
    (hrow : rowOf op = some ⟨op, 16, true, dec⟩) (hg : uGuard g = true)
    (hdec : ∀ w func imm, FieldsE w a.toNat b.toNat c.toNat e.toNat (encCbReg cb) (encFlag flag) func imm →
      CopyFields w d s scp scatter cb flag → dec w g = .ok i)
    (hd : d < 8 := by omega) (hs : s < 8 := by omega) : ReadsBack i := by
  have hsc := scp.code_lt
  have hx := b2n_lt scatter
  have hcb := b2n_lt cb.isSome
  have hcl := b2n_lt (cb.any (·.cl))
  have hfl := b2n_lt flag.isSome
  have hreg := encCbReg_lt cb
  have hflag := encFlag_lt flag
  have himm := encCbBit_eq cb
  refine readsBack_of_packE he hrow hg fun w hw => hdec w _ _ hw ⟨?_, ?_, ?_, ?_, ?_, ?_⟩
  · rw [hw.func, field]; omega
  · rw [hw.func, field]; omega
  · rw [hw.imm, field]; omega
  · rw [hw.imm, field]; omega
  · exact cbRef_eq (bitAt_of_field (by rw [hw.func, field]; omega)) hw.sf4 (bitAt_of_field (by rw [hw.imm, field]; omega))
  · exact flag_eq (bitAt_of_field (by rw [hw.func, field]; omega)) hw.sf5

theorem readsBack_cpy {dsp ssp : CopySpace} {dA sA lA : SReg} {cb : Option CbRef} {flag : Option SReg}
    (h : (uGuard g && flagOk flag) = true) : ReadsBack (.cpy g dsp ssp scp sd dA sA lA cb flag) := by
  obtain ⟨hg, hflag⟩ := Bool.and_eq_true_iff.1 h
  have hd := dsp.code_lt
  have hs := ssp.code_lt
  refine readsBack_of_encCopy (scatter := false) rfl rfl hg fun w _ _ hw hc => ?_
  simp [decCpy, eReg, hw.zero, hw.sf0, hw.sf1, hw.sf2, hw.sf3, hc.dst, hc.src, hc.scope, hc.scatter, hc.cb, hc.flag, hflag]

theorem WordSpace.copyCode_lt (ws : WordSpace) : ws.copyCode < 4 := by cases ws <;> decide
@[simp] theorem boxSpace_code (ws : WordSpace) : boxSpace? ws.copyCode = some ws := by cases ws <;> rfl

theorem readsBack_cpyt {scatter : Bool} {xA tA cA : SReg} {cb : Option CbRef} {flag : Option SReg}
    (h : (uGuard g && flagOk flag && tA != 127) = true) : ReadsBack (.cpyt g scatter ws scp sd xA tA cA cb flag) := by
  simp only [Bool.and_eq_true] at h
  obtain ⟨⟨hg, hflag⟩, htA⟩ := h
  have htA := sreg_bne htA
  have hb := ws.copyCode_lt
  refine readsBack_of_encCopy rfl rfl hg (fun w _ _ hw hc => ?_) (by split <;> omega) (by split <;> omega)
  have hdst := hc.dst
  have hsrc := hc.src
  have hx := b2n_lt scatter
  have hbits := hc.scatter
  rw [field] at hbits
  have hscatter : bitAt (eImm w) 4 = scatter := bitAt_of_field (by rw [field]; omega)
  have hhigh : field (eImm w) 5 27 = 0 := by rw [field]; omega
  cases scatter <;>
    simp [decCpyt, eReg, hw.zero, hw.sf0, hw.sf1, hw.sf2, hw.sf3, hdst, hsrc, hc.scope, hscatter, hhigh, hc.cb, hc.flag, hflag,
      htA]

theorem CopySpace.code_bne {s : CopySpace} (h : (s != .cl) = true) : (s.code != 2) = true := by
  cases s <;> simp_all [CopySpace.code]

theorem readsBack_cpym {ssp : CopySpace} {fA sA lA : SReg} {mask : BitVec 4} (h : (uGuard g && ssp != .cl) = true) :
    ReadsBack (.cpym g ssp sd fA sA lA aA mask) := by
  obtain ⟨hg, hssp⟩ := Bool.and_eq_true_iff.1 h
  have hssp := CopySpace.code_bne hssp
  have hs := ssp.code_lt
  refine readsBack_of_packE rfl rfl hg fun w hw => ?_
  have hlow : field (ssp.code * 8) 0 3 = 0 := by rw [field]; omega
  have hmid : field (ssp.code * 8) 3 3 = ssp.code := by rw [field]; omega
  have hhigh : field (ssp.code * 8) 6 2 = 0 := by rw [field]; omega
  obtain ⟨-, hmask⟩ := field_split mask.isLt 28
  cases hw
  simp [decCpym, eReg, *]

theorem readsBack_decTransfer {c : Guard → SReg → SReg → SReg → SReg → BitVec 4 → Instr}
    {tA lA bA : SReg} {n : BitVec 4}
    (he : encode (c g sd tA lA bA n) = packE op g sd.toNat tA.toNat lA.toNat bA.toNat n.toNat 0 0 0)
    (hrow : rowOf op = some ⟨op, 16, true, decTransfer c⟩) (hg : uGuard g = true) : ReadsBack (c g sd tA lA bA n) := by
  have hn : n.toNat < 16 := n.isLt
  exact readsBack_of_packE he hrow hg fun w hw => by
    cases hw
    simp [decTransfer, eReg, *]

theorem readsBack_evpost {nA lA : SReg} {code : BitVec 16} (hg : uGuard g = true) : ReadsBack (.evpost g sd nA aA lA code) := by
  refine readsBack_of_packE rfl rfl hg fun w hw => ?_
  obtain ⟨-, hhigh⟩ := field_split code.isLt 16
  cases hw
  simp [decEvpost, eReg, *]

/-! ## The matrix engine -/

theorem slotOk_iff : slotOk k = true ↔ k.toNat < 6 := decide_eq_true_iff

theorem readsBack_msacc {pA qA nA : SReg} (h : (uGuard g && slotOk k) = true) : ReadsBack (.msacc g sd pA qA nA k) := by
  obtain ⟨hg, hk⟩ := Bool.and_eq_true_iff.1 h
  have hk := slotOk_iff.1 hk
  refine readsBack_of_packE rfl rfl hg fun w hw => ?_
  obtain ⟨-, hhigh⟩ := field_split k.isLt 29
  cases hw
  simp [decMsacc, eReg, *]

theorem readsBack_mldacc {ty : FloatTy} (h : (uGuard g && slotOk k) = true) : ReadsBack (.mldacc g ty sd aA rA k) := by
  obtain ⟨hg, hk⟩ := Bool.and_eq_true_iff.1 h
  have hk := slotOk_iff.1 hk
  have ht := ty.code_lt
  refine readsBack_of_packE rfl rfl hg fun w hw => ?_
  obtain ⟨-, hhigh⟩ := field_split k.isLt 29
  obtain ⟨htype, hrest⟩ := field_split (x := ty.code) (m := 3) (by omega) 5
  cases hw
  simp [decMldacc, okMacc, eReg, *]

theorem readsBack_mstacc {ty : FloatTy} {rnd : Rounding} {sat : Bool} (h : (uGuard g && slotOk k) = true) :
    ReadsBack (.mstacc g ty rnd sat sd aA rA k) := by
  obtain ⟨hg, hk⟩ := Bool.and_eq_true_iff.1 h
  have hk := slotOk_iff.1 hk
  have ht := ty.code_lt
  have hr := rnd.code_lt
  have hs := b2n_lt sat
  refine readsBack_of_packE rfl rfl hg fun w hw => ?_
  obtain ⟨-, hhigh⟩ := field_split k.isLt 29
  have htype : field (ty.code + rnd.code * 8 + b2n sat * 64) 0 3 = ty.code := by rw [field]; omega
  have hrnd : field (ty.code + rnd.code * 8 + b2n sat * 64) 3 3 = rnd.code := by rw [field]; omega
  have hsat : bitAt (ty.code + rnd.code * 8 + b2n sat * 64) 6 = sat := bitAt_of_field (by rw [field]; omega)
  have hrest : bitAt (ty.code + rnd.code * 8 + b2n sat * 64) 7 = false := bitAt_of_field (by rw [field, b2n_false]; omega)
  cases hw
  simp [decMstacc, okMacc, eReg, *]

theorem readsBack_mloop {fa fb : MatTy} {part : Bool} {iA xA yA : SReg} {vb : VReg} {step : BitVec 11}
    (h : (uGuard g && slotOk k && pairOk fa fb && (!part || (fa == .e2m1 && k == 0)) && (fa == .e2m1 || xA == 0)
      && (fb == .e2m1 || yA == 0)) = true) : ReadsBack (.mloop g fa fb part sd aA iA xA yA vb step k) := by
  simp only [Bool.and_eq_true, slotOk_iff] at h
  obtain ⟨⟨⟨⟨⟨hg, hk⟩, hpair⟩, hpart⟩, hx⟩, hy⟩ := h
  have hfa := fa.code_lt
  have hfb := fb.code_lt
  have hp := b2n_lt part
  refine readsBack_of_packE rfl rfl hg fun w hw => ?_
  have ha : field (eFunc8 w) 0 3 = fa.code := by rw [hw.func, field]; omega
  have hb : field (eFunc8 w) 3 3 = fb.code := by rw [hw.func, field]; omega
  have hbit : bitAt (eFunc8 w) 6 = part := bitAt_of_field (by rw [hw.func, field]; omega)
  have htop : bitAt (eFunc8 w) 7 = false := bitAt_of_field (by rw [hw.func, field, b2n_false]; omega)
  have hvb : field (eImm w) 0 11 = vb.toNat := by rw [hw.imm, field]; omega
  have hstep : field (eImm w) 11 11 = step.toNat := by rw [hw.imm, field]; omega
  have hslot : field (eImm w) 22 3 = k.toNat := by rw [hw.imm, field]; omega
  have hrest : field (eImm w) 25 7 = 0 := by rw [hw.imm, field]; omega
  have hpart : (!part || (fa == .e2m1 && k.toNat == 0)) = true := by simpa [BitVec.toNat_eq] using hpart
  have hx : (fa == .e2m1 || xA.toNat == 0) = true := by simpa [BitVec.toNat_eq] using hx
  have hy : (fb == .e2m1 || yA.toNat == 0) = true := by simpa [BitVec.toNat_eq] using hy
  simp [decMloop, eReg, hw.zero, hw.sf0, hw.sf1, hw.sf2, hw.sf3, hw.sf4, hw.sf5, ha, hb, hbit, htop, hvb, hstep, hslot, hrest,
    hpair, hpart, hx, hy, hk, -Bool.or_eq_true]

end

/-! ## Names, tasks, rings and the system instructions -/

section
variable {g : Guard} {op : Nat} {sd sa sb : SReg} {scp : Scope} {ws : WordSpace} {code : BitVec 16}

theorem readsBack_cpytest {k : UPred} (hg : uGuard g = true) : ReadsBack (.cpytest g k sa) :=
  readsBack_of_packS rfl rfl hg fun w hw => by
    cases hw
    simp [decCpytest, zS, UPred.toNat_lt, *]

theorem readsBack_macq {n : BitVec 16} (h : (uGuard g && decide (1 ≤ n.toNat ∧ n.toNat ≤ 6)) = true) :
    ReadsBack (.macq g sd n) := by
  simp only [Bool.and_eq_true, decide_eq_true_eq] at h
  obtain ⟨hg, hn⟩ := h
  exact readsBack_of_packS rfl rfl hg fun w hw => by
    cases hw
    simp [decMacq, zS, *]

theorem readsBack_macqTeam {n : BitVec 16} (h : (uGuard g && decide (1 ≤ n.toNat ∧ n.toNat ≤ 6)) = true) :
    ReadsBack (.macqTeam g sd n sb) := by
  simp only [Bool.and_eq_true, decide_eq_true_eq] at h
  obtain ⟨hg, hn⟩ := h
  refine readsBack_of_packS rfl rfl hg fun w hw => ?_
  have hbit : bitAt 1 0 = true := by decide
  have hrest : field 1 1 7 = 0 := by decide
  cases hw
  simp [decMacq, zS, *]

theorem readsBack_mgrow {n : BitVec 16} (h : (uGuard g && decide (1 ≤ n.toNat ∧ n.toNat ≤ 5)) = true) :
    ReadsBack (.mgrow g sd n) := by
  simp only [Bool.and_eq_true, decide_eq_true_eq] at h
  obtain ⟨hg, hn⟩ := h
  exact readsBack_of_packS rfl rfl hg fun w hw => by
    cases hw
    simp [decMgrow, zS, *]

theorem readsBack_mzero {k : Slot} (h : (uGuard g && slotOk k) = true) : ReadsBack (.mzero g sd k) := by
  obtain ⟨hg, hk⟩ := Bool.and_eq_true_iff.1 h
  have hk := slotOk_iff.1 hk
  exact readsBack_of_packS rfl rfl hg fun w hw => by
    cases hw
    simp [decMzero, zS, *]

theorem readsBack_decName {c : Guard → SReg → SReg → Instr} (he : encode (c g sd sa) = packS op g sd.toNat sa.toNat 0 0 0)
    (hrow : rowOf op = some ⟨op, 8, true, decName c⟩) (h : (uGuard g && sd != 127) = true) : ReadsBack (c g sd sa) := by
  obtain ⟨hg, hsd⟩ := Bool.and_eq_true_iff.1 h
  have hne := sreg_bne hsd
  exact readsBack_of_packS he hrow hg fun w hw => by
    cases hw
    simp [decName, zS, *]

theorem readsBack_nsignal (h : (uGuard g && sd != 127) = true) : ReadsBack (.nsignal g sd sa sb) := by
  obtain ⟨hg, hsd⟩ := Bool.and_eq_true_iff.1 h
  have hne := sreg_bne hsd
  exact readsBack_of_packS rfl rfl hg fun w hw => by
    cases hw
    simp [decNsignal, zS, *]

theorem readsBack_nsignalKill (h : (uGuard g && sd != 127) = true) : ReadsBack (.nsignalKill g sd sa) := by
  obtain ⟨hg, hsd⟩ := Bool.and_eq_true_iff.1 h
  have hne := sreg_bne hsd
  refine readsBack_of_packS rfl rfl hg fun w hw => ?_
  have hbit : bitAt 1 0 = true := by decide
  have hrest : field 1 1 7 = 0 := by decide
  cases hw
  simp [decNsignal, zS, *]

theorem readsBack_ndeposit {k : BitVec 3} (h : (uGuard g && sd != 127) = true) : ReadsBack (.ndeposit g sd sa sb k) := by
  obtain ⟨hg, hsd⟩ := Bool.and_eq_true_iff.1 h
  have hne := sreg_bne hsd
  have hk : k.toNat < 8 := k.isLt
  exact readsBack_of_packS rfl rfl hg fun w hw => by
    cases hw
    simp [decNdeposit, zS, *]

/-- The timeout register is read back (R311). -/
theorem timeout_eq {w : Nat} {t : Option SReg} (hbit : bitAt (fFunc8 w) 1 = t.isSome) (hsb : fSb w = encTimeout t) :
    timeout? w = some t := by
  cases t <;> simp_all [timeout?, encTimeout, encFlag]

theorem readsBack_njoin {reap : Bool} {t : Option SReg} (h : (uGuard g && sd != 127) = true) :
    ReadsBack (.njoin g reap sd sa t) := by
  obtain ⟨hg, hsd⟩ := Bool.and_eq_true_iff.1 h
  have hne := sreg_bne hsd
  have hr := b2n_lt reap
  have ht := b2n_lt t.isSome
  have hreg : encTimeout t < 128 := encFlag_lt t
  refine readsBack_of_packS rfl rfl hg fun w hw => ?_
  have htime := timeout_eq (bitAt_of_field (by rw [hw.func, field]; omega)) hw.sb
  have hreap : bitAt (b2n reap + b2n t.isSome * 2) 0 = reap := bitAt_of_field (by rw [field]; omega)
  have hrest : field (b2n reap + b2n t.isSome * 2) 2 6 = 0 := by rw [field]; omega
  cases hw
  simp [decNjoin, zS, *]

theorem readsBack_npark {t : Option SReg} (hg : uGuard g = true) : ReadsBack (.npark g sd t) := by
  have ht := b2n_lt t.isSome
  have hreg : encTimeout t < 128 := encFlag_lt t
  refine readsBack_of_packS rfl rfl hg fun w hw => ?_
  have htime := timeout_eq (bitAt_of_field (by rw [hw.func, field]; omega)) hw.sb
  have hlow : bitAt (b2n t.isSome * 2) 0 = false := bitAt_of_field (by rw [field, b2n_false]; omega)
  have hrest : field (b2n t.isSome * 2) 2 6 = 0 := by rw [field]; omega
  cases hw
  simp [decNpark, zS, *]

theorem readsBack_tpost {pkg : Bool} (hg : uGuard g = true) : ReadsBack (.tpost g pkg sa) := by
  have hp := b2n_lt pkg
  refine readsBack_of_packS rfl rfl hg fun w hw => ?_
  obtain ⟨-, hrest⟩ := field_split (x := b2n pkg) (m := 1) (by omega) 7
  cases hw
  simp [decTpost, zS, *]

/-- The minor function of a ring instruction: space, .try and scope (R334). -/
theorem ringFunc_fields {w : Nat} {once : Bool} (hfunc : fFunc8 w = ws.code + b2n once * 4 + scp.code * 8) :
    wordSpace? (field (fFunc8 w) 0 2) = some ws ∧ bitAt (fFunc8 w) 2 = once ∧ scope? (field (fFunc8 w) 3 3) = some scp ∧
      field (fFunc8 w) 6 2 = 0 := by
  have hm := ws.code_lt
  have ho := b2n_lt once
  have hs := scp.code_lt
  have hspace : field (fFunc8 w) 0 2 = ws.code := by rw [hfunc, field]; omega
  have hscope : field (fFunc8 w) 3 3 = scp.code := by rw [hfunc, field]; omega
  exact ⟨by simp [hspace], bitAt_of_field (by rw [hfunc, field]; omega), by simp [hscope], by rw [hfunc, field]; omega⟩

theorem readsBack_of_encRing {i : Instr} {once : Bool} {sb : Nat} {dec : Nat → Guard → Dec}
    (he : encode i = encRing op g once scp ws sd.toNat sa.toNat sb) (hrow : rowOf op = some ⟨op, 8, true, dec⟩)
    (hg : uGuard g = true)
    (hdec : ∀ w, FieldsS w sd.toNat sa.toNat sb (ws.code + b2n once * 4 + scp.code * 8) 0 → dec w g = .ok i)
    (hsb : sb < 128 := by omega) : ReadsBack i := by
  have hm := ws.code_lt
  have ho := b2n_lt once
  have hs := scp.code_lt
  exact readsBack_of_packS he hrow hg hdec

theorem readsBack_decRingTake {c : Guard → Bool → Scope → WordSpace → SReg → SReg → Instr} {once : Bool}
    (he : encode (c g once scp ws sd sa) = encRing op g once scp ws sd.toNat sa.toNat 0)
    (hrow : rowOf op = some ⟨op, 8, true, decRingTake c⟩) (h : (uGuard g && sd != 127) = true) :
    ReadsBack (c g once scp ws sd sa) := by
  obtain ⟨hg, hsd⟩ := Bool.and_eq_true_iff.1 h
  refine readsBack_of_encRing he hrow hg fun w hw => ?_
  obtain ⟨hspace, honce, hscope, hrest⟩ := ringFunc_fields hw.func
  simp [decRingTake, zS, hw.zero, hw.sb, hw.imm, hw.sd, hw.sa, hspace, honce, hscope, hrest, sreg_bne hsd]

theorem readsBack_decRingGive {c : Guard → Scope → WordSpace → SReg → SReg → SReg → Instr}
    (he : encode (c g scp ws sd sa sb) = encRing op g false scp ws sd.toNat sa.toNat sb.toNat)
    (hrow : rowOf op = some ⟨op, 8, true, decRingGive c⟩) (hg : uGuard g = true) : ReadsBack (c g scp ws sd sa sb) := by
  refine readsBack_of_encRing he hrow hg fun w hw => ?_
  obtain ⟨hspace, honce, hscope, hrest⟩ := ringFunc_fields hw.func
  simp [decRingGive, zS, hw.zero, hw.sb, hw.imm, hw.sd, hw.sa, hspace, honce, hscope, hrest]

theorem readsBack_decImmOnly {c : Guard → BitVec 16 → Instr} (he : encode (c g code) = packS op g 0 0 0 0 code.toNat)
    (hrow : rowOf op = some ⟨op, 8, true, decImmOnly c⟩) (hg : uGuard g = true) : ReadsBack (c g code) :=
  readsBack_of_packS he hrow hg fun w hw => by
    cases hw
    simp [decImmOnly, zS, *]

/-- Each number names one system register (R356). -/
@[simp] theorem sysReg_number (n : SysReg) : sysReg? n.number = some n := by
  cases n with
  | xbound k => exact (by decide : ∀ k : BitVec 2, sysReg? (SysReg.xbound k).number = some (.xbound k)) k
  | spwin d => exact (by decide : ∀ d : BitVec 3, sysReg? (SysReg.spwin d).number = some (.spwin d)) d
  | _ => rfl

theorem SysReg.number_lt (n : SysReg) : n.number < 128 := by
  cases n <;> simp only [SysReg.number] <;> omega

theorem readsBack_sysrd {n : SysReg} (hg : uGuard g = true) : ReadsBack (.sysrd g sd n) := by
  have hn := n.number_lt
  exact readsBack_of_packS rfl rfl hg fun w hw => by
    cases hw
    simp [decSysrd, zS, *]

theorem readsBack_syswr {n : SysReg} (h : (uGuard g && n != .xlflush && n != .scrridx) = true) : ReadsBack (.syswr g n sa) := by
  simp only [Bool.and_eq_true, bne_iff_ne] at h
  obtain ⟨⟨hg, hflush⟩, hridx⟩ := h
  have hn := n.number_lt
  exact readsBack_of_packS rfl rfl hg fun w hw => by
    cases hw
    simp [decSyswr, zS, *]

theorem readsBack_syswrXlflush (hg : uGuard g = true) : ReadsBack (.syswrXlflush g sa) :=
  readsBack_of_packS rfl rfl hg fun w hw => by
    have hn : sysReg? 68 = some .xlflush := sysReg_number .xlflush
    cases hw
    simp [decSyswr, zS, *]

theorem readsBack_syswrScrridx (hg : uGuard g = true) : ReadsBack (.syswrScrridx g sa) :=
  readsBack_of_packS rfl rfl hg fun w hw => by
    have hn : sysReg? 83 = some .scrridx := sysReg_number .scrridx
    cases hw
    simp [decSyswr, zS, *]

theorem readsBack_fretry (hg : uGuard g = true) : ReadsBack (.fretry g sd sa) :=
  readsBack_of_packS rfl rfl hg fun w hw => by
    cases hw
    simp [decFretry, zS, *]

theorem readsBack_fretryExhaust (hg : uGuard g = true) : ReadsBack (.fretryExhaust g sd sa) :=
  readsBack_of_packS rfl rfl hg fun w hw => by
    cases hw
    simp [decFretry, zS, *]

theorem readsBack_fretryFatal (hg : uGuard g = true) : ReadsBack (.fretryFatal g sd sa) :=
  readsBack_of_packS rfl rfl hg fun w hw => by
    cases hw
    simp [decFretry, zS, *]

end

/-! ## Every instruction -/

/-- Each instruction by the decoder of its row; events and host calls are not well formed. -/
theorem readsBack_of_wellFormed {i : Instr} (h : i.wellFormed = true) : ReadsBack i := by
  cases i
  case smov => exact readsBack_smov h
  case smovGetp => exact readsBack_smovGetp h
  case smovSetp => exact readsBack_smovSetp h
  case smovi => exact readsBack_smovi h
  case saddi => exact readsBack_saddi h
  case sadd | ssub | smul | sand | sor | sxor | sshl | sshr | sshra => exact readsBack_decInt rfl rfl h
  case smulhi | sdiv | srem | smin | smax => exact readsBack_decIntU rfl rfl h
  case ssel => exact readsBack_ssel h
  case scmp => exact readsBack_scmp h
  case splog => exact readsBack_splog h
  case slea => exact readsBack_slea h
  case sbfx => exact readsBack_sbfx h
  case sbfi => exact readsBack_sbfi h
  case sclz | spopc | launch => exact readsBack_decTwo rfl rfl h
  case sfadd | sfmul | sfma => exact readsBack_decSf3 rfl rfl h
  case sfcmp => exact readsBack_sfcmp h
  case sfcvt => exact readsBack_sfcvt h
  case br => exact readsBack_br h
  case vbr => exact readsBack_decBranch rfl rfl rfl rfl h
  case jmp => exact readsBack_jmp h
  case call => exact readsBack_call h
  case jmpr | callr | ret | gexit | wdnext | logmark => exact readsBack_decSaOnly rfl rfl h
  case nself => exact readsBack_decSdOnly rfl rfl h
  case meet | fend | yield | nop | bar | bara | barw | mrel | tdone | xret => exact readsBack_decBare rfl rfl h
  case sleep => exact readsBack_sleep h
  case vmov => exact readsBack_vmov h
  case vmovi => exact readsBack_vmovi h
  case vmovx => exact readsBack_vmovx
  case vstx => exact readsBack_vstx
  case viota => exact readsBack_viota
  case vadd | vsub | vmul => exact readsBack_decVInt rfl rfl
  case vmulhi | vdiv | vrem | vmin | vmax => exact readsBack_decVIntN rfl rfl
  case vand | vor | vxor | vshl | vshr | vshra => exact readsBack_decVBit rfl rfl
  case vnot | vclz | vpopc => exact readsBack_decVUn rfl rfl
  case vabs | vneg => exact readsBack_decVSat rfl rfl
  case vmad => exact readsBack_vmad h
  case vsel | vbfi => exact readsBack_decV4Four rfl rfl h
  case vcmp => exact readsBack_vcmp h
  case vplog => exact readsBack_vplog h
  case vbfx => exact readsBack_vbfx h
  case vperm => exact readsBack_vperm
  case vshfl => exact readsBack_vshfl
  case qswap => exact readsBack_qswap h
  case qbcast => exact readsBack_qbcast
  case vred => exact readsBack_vred h
  case vscan => exact readsBack_vscan h
  case vballot => exact readsBack_vballot h
  case vtos => exact readsBack_vtos
  case stov => exact readsBack_stov
  case ptest => exact readsBack_ptest h
  case vfadd | vfsub | vfmul => exact readsBack_decVf2 rfl rfl h
  case vfma => exact readsBack_vfma h
  case vfmin | vfmax => exact readsBack_decVfmm rfl rfl
  case vfabs | vfneg => exact readsBack_decVfun rfl rfl
  case vfcmp => exact readsBack_vfcmp h
  case vfrcp | vfrsq | vfsqrt | vfexp2 | vflog2 => exact readsBack_decVf1 rfl rfl h
  case vfdiv | vfscl => exact readsBack_decVf2f rfl rfl h
  case vfexpo => exact readsBack_vfexpo
  case vfclass => exact readsBack_vfclass
  case vcvt => exact readsBack_vcvt h
  case vpack2 => exact readsBack_vpack2
  case vunpack2 => exact readsBack_vunpack2
  case vpack4 => exact readsBack_vpack4
  case vunpack4 => exact readsBack_vunpack4
  case vqpack => exact readsBack_vqpack
  case vqunpk => exact readsBack_vqunpk
  case vdot2 => exact readsBack_vdot2
  case vdot4 => exact readsBack_vdot4
  case vld => exact readsBack_vld h
  case vst => exact readsBack_vst h
  case vldc => exact readsBack_vldc h
  case sld => exact readsBack_sld h
  case sst => exact readsBack_sst h
  case vatom => exact readsBack_vatom h
  case satom => exact readsBack_satom h
  case spushv | spopv => exact readsBack_decStack rfl rfl h
  case fence => exact readsBack_fence h
  case waitw => exact readsBack_waitw h
  case cbinit => exact readsBack_cbinit h
  case cbexpect => exact readsBack_cbexpect h
  case cbarrive => exact readsBack_cbarrive h
  case cbwait => exact readsBack_cbwait h
  case cbtest => exact readsBack_cbtest h
  case rlock => exact readsBack_rlock h
  case runlock => exact readsBack_runlock h
  case cpy => exact readsBack_cpy h
  case cpyt => exact readsBack_cpyt h
  case cpym => exact readsBack_cpym h
  case cpytest => exact readsBack_cpytest h
  case macq => exact readsBack_macq h
  case macqTeam => exact readsBack_macqTeam h
  case mgrow => exact readsBack_mgrow h
  case mzero => exact readsBack_mzero h
  case mloop => exact readsBack_mloop h
  case msacc => exact readsBack_msacc h
  case mldacc => exact readsBack_mldacc h
  case mstacc => exact readsBack_mstacc h
  case tsend | trecv => exact readsBack_decTransfer rfl rfl h
  case nwake | nstat => exact readsBack_decName rfl rfl h
  case nsignal => exact readsBack_nsignal h
  case nsignalKill => exact readsBack_nsignalKill h
  case ndeposit => exact readsBack_ndeposit h
  case njoin => exact readsBack_njoin h
  case npark => exact readsBack_npark h
  case tspawn => exact readsBack_tspawn h
  case tpost => exact readsBack_tpost h
  case rgacq | rgpeek => exact readsBack_decRingTake rfl rfl h
  case rgcommit | rgrel => exact readsBack_decRingGive rfl rfl h
  case trap | bkpt => exact readsBack_decImmOnly rfl rfl h
  case sysrd => exact readsBack_sysrd h
  case syswr => exact readsBack_syswr h
  case syswrXlflush => exact readsBack_syswrXlflush h
  case syswrScrridx => exact readsBack_syswrScrridx h
  case evpost => exact readsBack_evpost h
  case fretry => exact readsBack_fretry h
  case fretryExhaust => exact readsBack_fretryExhaust h
  case fretryFatal => exact readsBack_fretryFatal h
  all_goals cases h

/-- Settles O2, row by row of the opcode map: each decoder reads the fields that the encoder packs. -/
theorem decodeEncode : Obligations.DecodeEncode := by
  intro i before after h hfits _ _
  exact readsBack_of_wellFormed h before after hfits

end Sys2Proof
end

section
/-! # Memory in its canonical form along an outcome (R157) -/

namespace Sys2Proof.Machine

/-- An outcome whose next state, if there is one, has memory in its canonical form. -/
def OutWf : Out → Prop
  | .next t => t.memWf = true
  | _ => True

theorem State.outWf_ite {c : Prop} [Decidable c] {a b : Out} (ha : OutWf a) (hb : OutWf b) :
    OutWf (if c then a else b) := by
  split <;> assumption

namespace State

theorem memWf_ite {c : Prop} [Decidable c] {a b : State} (ha : a.memWf = true) (hb : b.memWf = true) :
    (if c then a else b).memWf = true := by split <;> assumption

/-- A fold whose every step keeps the form keeps it. -/
theorem memWf_foldl {α : Type} {f : State → α → State} {l : List α} {s : State} (hs : s.memWf = true)
    (hf : ∀ t x, t.memWf = true → (f t x).memWf = true) : (l.foldl f s).memWf = true := by
  induction l generalizing s with
  | nil => exact hs
  | cons x l ih => exact ih (hf s x hs)

/-- From the first component of an answer to the state that a `match` names. -/
theorem memWf_of_eq {α : Type} {p : State × α} {t : State} {x : α} (e : p = (t, x)) (h : p.1.memWf = true) :
    t.memWf = true := by
  rw [e] at h
  exact h

/-- An update of any other fields keeps the form. -/
theorem memWf_update {s : State}
    {watches groups cohorts clusters launches contexts ops nextOp cores holders dies islands locks xlat replies
      notices calls packages linked boots fuses firmware services origins timebase cycle booted stopped expanders
      corrected served issuing agenda freeTick}
    (hs : s.memWf = true) :
    (State.mk s.mem watches groups cohorts clusters launches contexts ops nextOp cores holders dies islands locks
      xlat replies notices calls packages linked boots fuses firmware services origins timebase cycle booted stopped
      expanders corrected served issuing agenda freeTick).memWf = true := hs

theorem outWf_getD {x : Option Out} {d : Out} (hx : ∀ o, x = some o → OutWf o) (hd : OutWf d) :
    OutWf (x.getD d) := by
  cases x with
  | none => exact hd
  | some o => exact hx o rfl

/-- Moves that keep memory in its canonical form. -/
def MovesWf (l : List (State → Out)) : Prop := ∀ m ∈ l, ∀ t, t.memWf = true → OutWf (m t)

theorem movesWf_nil : MovesWf [] := fun _ h => absurd h List.not_mem_nil

theorem movesWf_cons {m l} (hm : ∀ t, t.memWf = true → OutWf (m t)) (hl : MovesWf l) : MovesWf (m :: l) :=
  List.forall_mem_cons.2 ⟨hm, hl⟩

theorem movesWf_single {m} (hm : ∀ t, t.memWf = true → OutWf (m t)) : MovesWf [m] := movesWf_cons hm movesWf_nil

theorem movesWf_append {l k} (hl : MovesWf l) (hk : MovesWf k) : MovesWf (l ++ k) :=
  List.forall_mem_append.2 ⟨hl, hk⟩

theorem movesWf_map {α : Type} {l : List α} {f : α → State → Out} (hf : ∀ x t, t.memWf = true → OutWf (f x t)) :
    MovesWf (l.map f) := List.forall_mem_map.2 fun x _ => hf x

theorem movesWf_flatMap {α : Type} {l : List α} {f : α → List (State → Out)} (hf : ∀ x, MovesWf (f x)) :
    MovesWf (l.flatMap f) := fun m hm =>
  have ⟨x, _, hx⟩ := List.mem_flatMap.1 hm
  hf x m hx

theorem movesWf_ite {c : Prop} [Decidable c] {l k} (hl : MovesWf l) (hk : MovesWf k) : MovesWf (if c then l else k) := by
  split <;> assumption

end State
end Sys2Proof.Machine
end

section
/-! # What the parts of the state keep: memory in its canonical form (R157)

Each lemma says of one operation of the model that it keeps the form; all that writes memory goes through a byte write,
a load or a clearing, whose lemmas stand with the laws of memory. -/

namespace Sys2Proof.Machine.State

variable {s : State}

/-! ## Tables and memory (R157) -/

theorem memWf_modGroup {g f} (hs : s.memWf = true) : (s.modGroup g f).memWf = true := hs
theorem memWf_modCohort {c f} (hs : s.memWf = true) : (s.modCohort c f).memWf = true := hs
theorem memWf_modCluster {c f} (hs : s.memWf = true) : (s.modCluster c f).memWf = true := hs
theorem memWf_modLaunch {l f} (hs : s.memWf = true) : (s.modLaunch l f).memWf = true := hs
theorem memWf_modContext {c f} (hs : s.memWf = true) : (s.modContext c f).memWf = true := hs
theorem memWf_modOp {o f} (hs : s.memWf = true) : (s.modOp o f).memWf = true := hs
theorem memWf_modHolder {n f} (hs : s.memWf = true) : (s.modHolder n f).memWf = true := hs
theorem memWf_modCore {c f} (hs : s.memWf = true) : (s.modCore c f).memWf = true := hs
theorem memWf_setDie {d k} (hs : s.memWf = true) : (s.setDie d k).memWf = true := hs
theorem memWf_modDie {d f} (hs : s.memWf = true) : (s.modDie d f).memWf = true := hs
theorem memWf_setIsland {i k} (hs : s.memWf = true) : (s.setIsland i k).memWf = true := hs
theorem memWf_addOp {o} (hs : s.memWf = true) : (s.addOp o).memWf = true := hs
theorem memWf_dropOp {o} (hs : s.memWf = true) : (s.dropOp o).memWf = true := hs
theorem memWf_modSite {c p f} (hs : s.memWf = true) : (s.modSite c p f).memWf = true := hs
theorem memWf_free (hs : s.memWf = true) : s.free.2.memWf = true := hs

/-! ## Groups and fibres -/

theorem memWf_advance {u n} (hs : s.memWf = true) : (s.advance u n).memWf = true := hs

/-! ## The scroll (R337 to R349) and host events -/

theorem memWf_modScroll {ctx pkg f} (hs : s.memWf = true) : (s.modScroll ctx pkg f).memWf = true := hs
theorem memWf_postEvent {ctx e} (hs : s.memWf = true) : (s.postEvent ctx e).memWf = true := hs
theorem memWf_soon {i} (hs : s.memWf = true) : (s.soon i).memWf = true := hs
theorem memWf_diverge {ctx pkg index source} (hs : s.memWf = true) : (s.diverge ctx pkg index source).memWf = true := hs
theorem memWf_consume {ctx pkg source r} (hs : s.memWf = true) : (s.consume ctx pkg source r).memWf = true := hs

theorem memWf_noteHeld {ctx pkg a} (hs : s.memWf = true) : (s.noteHeld ctx pkg a).memWf = true :=
  memWf_ite hs (memWf_modScroll hs)

theorem memWf_dropHeld (hs : s.memWf = true) : s.dropHeld.memWf = true := hs

theorem memWf_of_settled {t r : State} (hs : s.memWf = true) (ht : t.memWf = true) (e : s.settled t = some r) :
    r.memWf = true := by
  unfold settled at e
  split at e
  · exact Option.some.inj e ▸ memWf_diverge hs
  · split at e
    · exact Option.some.inj e ▸ ht
    · cases e

theorem memWf_logStrk {u g cls n value} (hs : s.memWf = true) : (s.logStrk u g cls n value).memWf = true :=
  memWf_ite hs (memWf_log _ _ _ _ hs)

theorem memWf_logWake {g m w byDeadline value} (hs : s.memWf = true) :
    (s.logWake g m w byDeadline value).memWf = true :=
  memWf_log _ _ _ _ hs

theorem memWf_gatedWake {g m w byDeadline act} (hs : s.memWf = true) (hact : ∀ t, t.memWf = true → (act t).memWf = true)
    : (s.gatedWake g m w byDeadline act).memWf = true :=
  memWf_gated _ _ _ _ hs (hact _ hs)

theorem memWf_closeRun {ctx pkg sched} (hs : s.memWf = true) : (s.closeRun ctx pkg sched).memWf = true := by
  unfold closeRun
  split
  · exact hs
  · exact memWf_modScroll (memWf_append _ _ _ hs)

theorem memWf_countRun {g u} (hs : s.memWf = true) : (s.countRun g u).memWf = true :=
  memWf_ite (memWf_ite (memWf_modScroll hs) (memWf_modScroll (memWf_closeRun hs))) (memWf_ite (memWf_modScroll hs) hs)

/-! ## Inkstones and blotters -/

theorem memWf_count {core launch c n} (hs : s.memWf = true) : (s.count core launch c n).memWf = true := hs

theorem memWf_writeBack {gid n} (hs : s.memWf = true) : (s.writeBack gid n).memWf = true := by
  unfold writeBack
  split
  · exact hs
  · dsimp only
    split
    · exact memWf_soon hs
    · exact memWf_count (memWf_vmWrite _ _ _ _ _ hs)

theorem memWf_unmap {gid n} (hs : s.memWf = true) : (s.unmap gid n).memWf = true := by
  unfold unmap
  split
  · exact hs
  · split
    · exact hs
    · exact memWf_modGroup (memWf_ite (memWf_writeBack hs) hs)

theorem memWf_evict {core e} (hs : s.memWf = true) : (s.evict core e).memWf = true :=
  memWf_modCore (memWf_foldl hs fun _ _ ht => memWf_foldl ht fun _ _ ht1 => memWf_unmap ht1)

theorem memWf_internValue {core ctx launch v counting} (hs : s.memWf = true) :
    (s.internValue core ctx launch v counting).1.memWf = true := by
  unfold internValue
  dsimp only
  split
  · exact memWf_modCore (memWf_ite (memWf_count hs) hs)
  · exact memWf_modCore (memWf_evict (memWf_ite (memWf_count hs) hs))

theorem memWf_mapTo {gid n e dirty} (hs : s.memWf = true) : (s.mapTo gid n e dirty).memWf = true := by
  unfold mapTo
  split
  · exact hs
  · split
    · exact memWf_ite hs (memWf_modGroup (memWf_modCore (memWf_modCore hs)))
    · exact memWf_modGroup (memWf_modCore hs)

theorem memWf_writeResult {gid n v} (hs : s.memWf = true) : (s.writeResult gid n v).memWf = true := by
  unfold writeResult
  split
  · exact hs
  · exact memWf_mapTo (memWf_internValue (memWf_modGroup hs))

theorem memWf_fillLine {gid n g v} (hs : s.memWf = true) : (s.fillLine gid n g v).memWf = true :=
  memWf_mapTo (memWf_internValue (memWf_modGroup (memWf_count hs)))

theorem memWf_fill {gid n} (hs : s.memWf = true) : (s.fill gid n).1.memWf = true := by
  unfold fill
  split
  · exact hs
  · split
    · exact memWf_modCore hs
    · split
      · exact memWf_fillLine hs
      · exact hs

theorem memWf_fillAll {gid ns} (hs : s.memWf = true) : (s.fillAll gid ns).1.memWf = true := by
  induction ns generalizing s with
  | nil => exact hs
  | cons n ns ih =>
    unfold fillAll
    split
    next t va e => exact memWf_of_eq e (memWf_fill hs)
    next t e => exact ih (memWf_of_eq e (memWf_fill hs))

theorem memWf_dropMap {gid} (hs : s.memWf = true) : (s.dropMap gid).memWf = true := by
  unfold dropMap
  split
  · exact hs
  · exact memWf_modGroup (memWf_modCore hs)

theorem memWf_blotAdjust {core ctx key f} (hs : s.memWf = true) : (s.blotAdjust core ctx key f).memWf = true := hs
theorem memWf_blotEnter {core b} (hs : s.memWf = true) : (s.blotEnter core b).memWf = true := hs
theorem memWf_blotUnlock {lock} (hs : s.memWf = true) : (s.blotUnlock lock).memWf = true := hs

/-! ## Name entries -/

theorem memWf_tableFault {ctx i} (hs : s.memWf = true) : (s.tableFault ctx i).memWf = true := hs

theorem memWf_putEntry {ctx i e} (hs : s.memWf = true) : (s.putEntry ctx i e).memWf = true := by
  unfold putEntry
  split
  next _ e1 => exact memWf_of_eq e1 (memWf_vmWrite _ _ _ _ _ hs)
  · exact memWf_tableFault hs

theorem memWf_modEntry {ctx i f} (hs : s.memWf = true) : (s.modEntry ctx i f).memWf = true := by
  unfold modEntry
  split
  · exact memWf_putEntry hs
  · exact memWf_tableFault hs

theorem memWf_reapEntry {ctx i} (hs : s.memWf = true) : (s.reapEntry ctx i).memWf = true := memWf_modEntry hs
theorem memWf_foreignFault {e} (hs : s.memWf = true) : (s.foreignFault e).memWf = true := hs

theorem memWf_queueItem {ctx i e it} (hs : s.memWf = true) : (s.queueItem ctx i e it).1.memWf = true := by
  unfold queueItem
  split
  · exact hs
  · exact memWf_putEntry (memWf_writeBytes _ _ hs)

/-! ## Images of groups and registers -/

theorem memWf_pokeImage {gid off b} (hs : s.memWf = true) : (s.pokeImage gid off b).memWf = true := by
  unfold pokeImage
  split
  · exact hs
  · split
    next _ e => exact memWf_of_eq e (memWf_vmWrite _ _ _ _ _ hs)
    · exact memWf_soon hs

theorem memWf_syncImage {gid} (hs : s.memWf = true) : (s.syncImage gid).memWf = true := by
  unfold syncImage
  split
  · exact hs
  · exact memWf_ite (memWf_pokeImage hs) hs

theorem memWf_landS {gid n v} (hs : s.memWf = true) : (s.landS gid n v).memWf = true := by
  unfold landS
  split
  · exact hs
  · exact memWf_ite (memWf_pokeImage (memWf_modGroup hs)) (memWf_modGroup hs)

theorem memWf_syncCohort {coh} (hs : s.memWf = true) : (s.syncCohort coh).memWf = true := by
  unfold syncCohort
  split
  · exact hs
  · split
    · dsimp only
      split
      next _ e => exact memWf_of_eq e (memWf_vmWrite _ _ _ _ _ hs)
      · exact memWf_soon hs
    · exact hs

/-! ## Counters and dumps -/

theorem memWf_writeParts {ctx pkg at_ size key ps} (hs : s.memWf = true) :
    (writeParts ctx pkg at_ size key s ps).1.memWf = true := by
  induction ps generalizing s with
  | nil => exact hs
  | cons x xs ih =>
    unfold writeParts
    split
    · exact hs
    · split
      next t e => exact ih (memWf_of_eq e (memWf_vmWrite _ _ _ _ _ hs))
      · exact hs

theorem memWf_writeDump {d} (hs : s.memWf = true) : (s.writeDump d).memWf = true := by
  unfold writeDump
  split
  · exact hs
  · extract_lets key all cont lead places table put
    split
    · exact hs
    · split
      · exact hs
      next t e =>
        split
        next r n how e2 =>
          have hr : r.memWf = true := memWf_of_eq e2 (memWf_writeParts (memWf_of_eq e (memWf_vmWrite _ _ _ _ _ hs)))
          exact memWf_modContext (memWf_ite hr (memWf_ite (memWf_vmWrite _ _ _ _ _ (memWf_vmWrite _ _ _ _ _ hr))
            (memWf_vmWrite _ _ _ _ _ hr)))

end Sys2Proof.Machine.State
end

section
/-! # What traps, accesses and barriers keep: memory in its canonical form -/

namespace Sys2Proof.Machine.State

variable {s : State}

/-! ## Traps, faults, ends and the start of an issue -/

theorem memWf_putDeposit {gid k v} (hs : s.memWf = true) : (s.putDeposit gid k v).memWf = true := by
  unfold putDeposit
  dsimp only
  split
  · exact memWf_ite (memWf_pokeImage (memWf_modGroup (memWf_landS hs))) (memWf_modGroup (memWf_landS hs))
  · exact memWf_modGroup (memWf_landS hs)

theorem memWf_applyLate {gid reg} (hs : s.memWf = true) : (s.applyLate gid reg).memWf = true := by
  unfold applyLate
  split
  · exact memWf_landS (memWf_modGroup hs)
  · exact hs

theorem memWf_applyDeposit {gid reg} (hs : s.memWf = true) : (s.applyDeposit gid reg).memWf = true := by
  unfold applyDeposit
  split
  · exact memWf_putDeposit (memWf_modGroup hs)
  · exact hs

theorem memWf_landIn {gid o sd v} (hs : s.memWf = true) : (s.landIn gid o sd v).memWf = true := by
  unfold landIn
  split
  · exact hs
  · split
    · refine memWf_applyDeposit (memWf_applyLate ?_)
      split
      · exact memWf_landS (memWf_modGroup hs)
      · exact memWf_modGroup hs
    · exact hs

theorem memWf_land {o v} (hs : s.memWf = true) : (s.land o v).memWf = true := by
  unfold land
  split
  · exact hs
  · split
    · exact memWf_landIn hs
    · exact hs

theorem memWf_releaseHeld {gid o} (hs : s.memWf = true) : (s.releaseHeld gid o).memWf = true := hs
theorem memWf_reply {c code status data} (hs : s.memWf = true) : (s.reply c code status data).memWf = true := hs

theorem memWf_returnS {u g r v} (hs : s.memWf = true) : (s.returnS u g r v).memWf = true :=
  memWf_logStrk (memWf_modGroup hs)

theorem memWf_afterWrites {u i rs} (hs : s.memWf = true) : (s.afterWrites u i rs).memWf = true := hs

theorem memWf_joinReturns {gid g n sd status exit} (hs : s.memWf = true) :
    (s.joinReturns gid g n sd status exit).memWf = true := by
  unfold joinReturns
  refine memWf_afterWrites ?_
  split
  · exact memWf_returnS (memWf_returnS (memWf_modGroup (memWf_logWake hs)))
  · exact memWf_returnS (memWf_modGroup (memWf_logWake hs))

theorem memWf_answer {o status exit} (hs : s.memWf = true) : (s.answer o status exit).memWf = true := by
  unfold answer
  split
  · exact hs
  · split
    · refine memWf_dropOp ?_
      split
      · exact memWf_reply hs
      · split
        · exact memWf_joinReturns hs
        · exact memWf_landIn (memWf_land hs)
        · exact hs
      · exact hs
    · exact hs

theorem memWf_meetRelease {gid} (hs : s.memWf = true) : (s.meetRelease gid).memWf = true := by
  unfold meetRelease
  split
  · exact hs
  · exact memWf_ite (memWf_modGroup hs) hs

theorem memWf_barrierLeave {gid g} (hs : s.memWf = true) : (s.barrierLeave gid g).memWf = true :=
  memWf_ite hs (memWf_syncImage (memWf_modGroup hs))

theorem memWf_barrierComplete {coh c} (hs : s.memWf = true) : (s.barrierComplete coh c).memWf = true :=
  memWf_log _ _ _ _ (memWf_foldl (memWf_syncCohort (memWf_modCohort hs)) fun _ _ ht => memWf_barrierLeave ht)

theorem memWf_barrierCheck {coh} (hs : s.memWf = true) : (s.barrierCheck coh).memWf = true := by
  unfold barrierCheck
  split
  · exact hs
  · exact memWf_ite (memWf_barrierComplete hs) hs

theorem memWf_evalEligible {p} (hs : s.memWf = true) : (s.evalEligible p).memWf = true := hs

theorem memWf_setDone {l n} (hs : s.memWf = true) : (s.setDone l n).memWf = true := by
  unfold setDone
  split
  · exact hs
  · exact memWf_ite (memWf_evalEligible (memWf_writeByte _ _ hs)) (memWf_writeByte _ _ hs)

theorem memWf_cohortDone {coh} (hs : s.memWf = true) : (s.cohortDone coh).memWf = true := by
  unfold cohortDone
  split
  · exact hs
  · split
    · exact hs
    · split
      · exact hs
      · exact memWf_ite hs (memWf_modCohort (memWf_setDone hs))

theorem memWf_retryDone (hs : s.memWf = true) : s.retryDone.memWf = true :=
  memWf_foldl hs fun _ _ ht => memWf_cohortDone ht

theorem memWf_setElig {g} (hs : s.memWf = true) : (s.setElig g).memWf = true := by
  unfold setElig
  dsimp only
  split
  · exact memWf_modCluster (memWf_modEntry hs)
  · exact memWf_modEntry hs

theorem memWf_releaseJoins {exit cause os} (hs : s.memWf = true) : (s.releaseJoins exit cause os).memWf = true := by
  induction os generalizing s with
  | nil => exact hs
  | cons o os ih =>
    unfold releaseJoins
    split
    · exact ih (memWf_modOp (memWf_setElig hs))
    · exact ih (memWf_answer hs)

theorem memWf_deadEntry {ctx i exit cause reap} (hs : s.memWf = true) :
    (s.deadEntry ctx i exit cause reap).memWf = true :=
  memWf_ite (memWf_reapEntry (memWf_releaseJoins (memWf_modEntry hs))) (memWf_releaseJoins (memWf_modEntry hs))

theorem memWf_lowerWaiters {at_} (hs : s.memWf = true) : (s.lowerWaiters at_).memWf = true := by
  unfold lowerWaiters
  dsimp only
  split
  · exact hs
  · split
    · split
      · exact memWf_vmWrite _ _ _ _ _ hs
      · exact memWf_soon hs
    · exact memWf_writeNat _ _ _ hs

theorem memWf_uncountWaiter {g f} (hs : s.memWf = true) : (s.uncountWaiter g f).memWf = true :=
  memWf_log _ _ _ _ (memWf_lowerWaiters hs)

theorem memWf_freeImages {ctx pkg ats} (hs : s.memWf = true) : (s.freeImages ctx pkg ats).memWf = true := hs

theorem memWf_clusterEnd {k} (hs : s.memWf = true) : (s.clusterEnd k).memWf = true := by
  unfold clusterEnd
  split
  · exact hs
  · exact memWf_ite (memWf_modCluster (memWf_foldl hs fun _ _ ht => memWf_modCohort (memWf_clearFrom _ _ ht))) hs

theorem memWf_keepShared {coh c pkg} (hs : s.memWf = true) : (s.keepShared coh c pkg).memWf = true := by
  unfold keepShared
  split
  · split
    · exact memWf_modCohort (memWf_loadBytes _ _ hs)
    · exact memWf_soon hs
  · exact hs

theorem memWf_cohortEnd {coh} (hs : s.memWf = true) : (s.cohortEnd coh).memWf = true := by
  unfold cohortEnd
  split
  · exact hs
  · dsimp only
    split
    · exact memWf_clusterEnd (memWf_retryDone (memWf_ite (memWf_freeImages (memWf_update (memWf_keepShared hs)))
        (memWf_update (memWf_keepShared hs))))
    · exact hs

theorem memWf_dropWatches {gid} (hs : s.memWf = true) : (s.dropWatches gid).memWf = true := hs

theorem memWf_makeDead {gid} (hs : s.memWf = true) : (s.makeDead gid).memWf = true := by
  unfold makeDead
  split
  · exact hs
  · exact memWf_cohortEnd (memWf_deadEntry (memWf_update (memWf_clearFrom _ _ (memWf_modGroup (memWf_dropWatches
      (memWf_dropMap hs))))))

theorem memWf_breakTeam {n team} (hs : s.memWf = true) : (s.breakTeam n team).memWf = true := hs

theorem memWf_closeHolder {n} (hs : s.memWf = true) : (s.closeHolder n).memWf = true := by
  unfold closeHolder
  split
  · exact hs
  · exact memWf_modHolder (memWf_breakTeam hs)

theorem memWf_beginEnd {gid exit cause} (hs : s.memWf = true) : (s.beginEnd gid exit cause).memWf = true := by
  unfold beginEnd
  split
  · exact hs
  · split
    · exact hs
    · exact memWf_barrierCheck (memWf_modGroup (memWf_update (memWf_modCore (memWf_foldl
        (memWf_foldl hs fun _ _ ht => memWf_uncountWaiter ht) fun _ _ ht => memWf_closeHolder ht))))

theorem memWf_dropHolder {n} (hs : s.memWf = true) : (s.dropHolder n).memWf = true := by
  unfold dropHolder
  split
  · exact hs
  · dsimp only
    split
    · exact hs
    · split
      · exact hs
      · split
        · exact memWf_soon hs
        · split
          next _ e => exact memWf_syncCohort (memWf_of_eq e (memWf_vmWrite _ _ _ _ _ hs))
          next _ _ e => exact memWf_soon (memWf_of_eq e (memWf_vmWrite _ _ _ _ _ hs))

theorem memWf_dropHolders {g} (hs : s.memWf = true) : (s.dropHolders g).memWf = true :=
  memWf_foldl hs fun _ _ ht => memWf_dropHolder ht

theorem memWf_dropWork {gid} (hs : s.memWf = true) : (s.dropWork gid).memWf = true := hs

theorem memWf_killSaved {gid} (hs : s.memWf = true) : (s.killSaved gid).memWf = true := by
  unfold killSaved
  split
  · exact hs
  · exact memWf_makeDead (memWf_dropHolders (memWf_dropWork (memWf_beginEnd hs)))

theorem memWf_discard {ctx} (hs : s.memWf = true) : (s.discard ctx).memWf = true := hs

theorem memWf_flushCounts {core ctx} (hs : s.memWf = true) : (s.flushCounts core ctx).memWf = true := by
  unfold flushCounts
  refine memWf_modCore (memWf_foldl hs fun _ _ ht => ?_)
  split
  · exact ht
  · split
    · exact ht
    · split
      · exact ht
      · refine memWf_foldl ht fun _ _ ht1 => ?_
        split
        · exact memWf_vmWrite _ _ _ _ _ ht1
        · exact memWf_modLaunch ht1

theorem memWf_endGroups {ctx cause} (hs : s.memWf = true) : (s.endGroups ctx cause).memWf = true := by
  unfold endGroups
  refine memWf_foldl hs fun _ _ ht => ?_
  split
  · exact ht
  · exact memWf_deadEntry (memWf_modGroup (memWf_dropWatches (memWf_dropMap ht)))

theorem memWf_clearShared {ctx} (hs : s.memWf = true) : (s.clearShared ctx).memWf = true :=
  memWf_foldl hs fun _ _ ht => memWf_clearFrom _ _ ht

theorem memWf_endClusters {ctx} (hs : s.memWf = true) : (s.endClusters ctx).memWf = true :=
  memWf_update (memWf_clearShared hs)

theorem memWf_endScroll {ctx pkg cause} (hs : s.memWf = true) : (s.endScroll ctx pkg cause).memWf = true := by
  unfold endScroll
  split
  · refine memWf_modScroll ?_
    dsimp only
    split
    · exact memWf_append _ _ _ (memWf_foldl hs fun _ _ ht => memWf_ite (memWf_closeRun ht) ht)
    · exact memWf_foldl hs fun _ _ ht => memWf_ite (memWf_closeRun ht) ht
  · exact hs

theorem memWf_contextFatal {ctx cause addr thread} (hs : s.memWf = true) :
    (s.contextFatal ctx cause addr thread).memWf = true := by
  unfold contextFatal
  split
  · exact hs
  · split
    · exact memWf_ite (memWf_modContext hs) (memWf_vmWrite _ _ _ _ _ (memWf_modContext hs))
    · exact memWf_postEvent (memWf_foldl (memWf_endClusters (memWf_endGroups (memWf_writeDump (memWf_discard
        (memWf_foldl (memWf_modContext hs) fun _ _ ht => memWf_flushCounts ht))))) fun _ _ ht => memWf_endScroll ht)

theorem memWf_enterHandler {gid mask cause xpc xaddr} (hs : s.memWf = true) :
    (s.enterHandler gid mask cause xpc xaddr).memWf = true := by
  unfold enterHandler
  split
  · exact hs
  · exact memWf_modGroup hs

theorem memWf_holdTrap {gid mask cause xaddr plus8} (hs : s.memWf = true) :
    (s.holdTrap gid mask cause xaddr plus8).memWf = true := hs

theorem memWf_trap {u mask cause xaddr plus8} (hs : s.memWf = true) :
    (s.trap u mask cause xaddr plus8).memWf = true := by
  unfold trap
  split
  · exact hs
  · exact memWf_ite (memWf_contextFatal hs) (memWf_ite (memWf_holdTrap (memWf_modGroup hs)) (memWf_enterHandler
      (memWf_modGroup hs)))

/-- The lanes of the set are hidden from the kernel, which would evaluate them to compare the branches. -/
theorem memWf_admitHeld {gid} (hs : s.memWf = true) : (s.admitHeld gid).memWf = true := by
  unfold admitHeld
  obtain ⟨l, hl⟩ : ∃ l, lanesOf = l := ⟨_, rfl⟩
  rw [hl]
  split
  · exact hs
  · dsimp only
    split
    · exact hs
    · split
      · exact hs
      · exact memWf_enterHandler (memWf_modGroup hs)

theorem memWf_leaveTrap {gid mask} (hs : s.memWf = true) : (s.leaveTrap gid mask).memWf = true := by
  unfold leaveTrap
  dsimp only
  split
  · exact memWf_ite (memWf_admitHeld (memWf_modGroup hs)) (memWf_modGroup hs)
  · exact memWf_modGroup hs

theorem memWf_xretOp {u g} (hs : s.memWf = true) : (s.xretOp u g).memWf = true := memWf_leaveTrap (memWf_modGroup hs)

theorem memWf_endFibres {gid mask} (hs : s.memWf = true) : (s.endFibres gid mask).memWf = true := by
  unfold endFibres
  dsimp only
  split
  · exact memWf_modGroup hs
  · exact memWf_ite (memWf_beginEnd (memWf_modGroup hs)) (memWf_barrierCheck (memWf_meetRelease (memWf_leaveTrap
      (memWf_modGroup hs))))

/-! ## What instructions of one kind share -/

theorem outWf_onStroke {i : Instr} {gd : Guard} {body : Issue → Group → BitVec 32 → State → State} (hs : s.memWf = true)
    (hbody : ∀ u g a t, t.memWf = true → (body u g a t).memWf = true) : OutWf (onStroke i gd s body) := by
  unfold onStroke
  split
  · trivial
  · split
    · trivial
    · exact memWf_ite (memWf_trap hs) (memWf_ite (memWf_advance hs) (hbody _ _ _ _ hs))

theorem memWf_withRegs {u ns go} (hs : s.memWf = true) (hgo : ∀ g t, t.memWf = true → (go g t).memWf = true) :
    (s.withRegs u ns go).memWf = true := by
  unfold withRegs
  split
  next t _ e =>
    have ht : t.memWf = true := memWf_of_eq e (memWf_fillAll hs)
    split
    · exact memWf_contextFatal ht
    · exact ht
  next t e =>
    have ht : t.memWf = true := memWf_of_eq e (memWf_fillAll hs)
    split
    · exact hgo _ _ ht
    · exact ht

theorem memWf_writeS {u g sd v} (hs : s.memWf = true) : (s.writeS u g sd v).memWf = true :=
  memWf_logStrk (memWf_modGroup hs)

theorem memWf_writeSp {u g k b} (hs : s.memWf = true) : (s.writeSp u g k b).memWf = true :=
  memWf_logStrk (memWf_modGroup hs)

theorem memWf_orFlags {gid fl} (hs : s.memWf = true) : (s.orFlags gid fl).memWf = true := hs

theorem outWf_scalarOp {i gd sd f} (hs : s.memWf = true) : OutWf (scalarOp i gd sd f s) :=
  outWf_onStroke hs fun _ _ _ _ ht => memWf_advance (memWf_writeS (memWf_orFlags ht))

theorem outWf_scalarPred {i gd k f} (hs : s.memWf = true) : OutWf (scalarPred i gd k f s) :=
  outWf_onStroke hs fun _ _ _ _ ht => memWf_advance (memWf_writeSp (memWf_orFlags ht))

theorem memWf_writeV {u g rs} (hs : s.memWf = true) : (s.writeV u g rs).memWf = true :=
  memWf_foldl hs fun _ _ ht => memWf_writeResult ht

theorem memWf_writeKeyed {u g key rs} (hs : s.memWf = true) : (s.writeKeyed u g key rs).memWf = true :=
  memWf_foldl hs fun _ _ ht => memWf_blotAdjust (memWf_writeResult ht)

theorem memWf_blotHit {u g b rs} (hs : s.memWf = true) : (s.blotHit u g b rs).memWf = true :=
  memWf_orFlags (memWf_foldl (memWf_blotAdjust (memWf_count hs)) fun _ _ ht => memWf_mapTo (memWf_modCore
    (memWf_modGroup ht)))

theorem memWf_retireV {u g i a qualifies lock extra rs fl} (hs : s.memWf = true) :
    (s.retireV u g i a qualifies lock extra rs fl).memWf = true := by
  unfold retireV
  split
  · exact memWf_blotHit hs
  · exact memWf_ite (memWf_orFlags (memWf_writeKeyed (memWf_blotEnter (memWf_count hs)))) (memWf_orFlags
      (memWf_writeV hs))

theorem memWf_split {u bad cause xaddr len} (hs : s.memWf = true) : (s.split u bad cause xaddr len).memWf = true :=
  memWf_ite (memWf_modGroup hs) (memWf_trap (memWf_modGroup hs))

theorem outWf_vectorOp {i gd nr ix vd va fn} (hs : s.memWf = true) : OutWf (vectorOp i gd nr ix vd va fn s) :=
  outWf_onStroke hs fun _ _ _ _ ht => memWf_withRegs ht fun _ _ ht1 => memWf_split (memWf_ite ht1 (memWf_retireV ht1))

theorem outWf_vectorMulti {i gd nr vd n fn} (hs : s.memWf = true) : OutWf (vectorMulti i gd nr vd n fn s) :=
  outWf_onStroke hs fun _ _ _ _ ht => memWf_withRegs ht fun _ _ ht1 => memWf_advance (memWf_retireV ht1)

theorem outWf_predOp {i gd pd fn} (hs : s.memWf = true) : OutWf (predOp i gd pd fn s) :=
  outWf_onStroke hs fun _ _ _ _ ht => memWf_withRegs ht fun _ _ ht1 => memWf_advance (memWf_orFlags
    (memWf_modGroup ht1))

/-! ## Accesses of strokes -/

theorem memWf_raise {u g mask cause addr} (hs : s.memWf = true) : (s.raise u g mask cause addr).memWf = true :=
  memWf_ite (memWf_contextFatal hs) (memWf_trap hs)

theorem memWf_of_tryAccess {t : State} {a} (hs : s.memWf = true) (e : s.tryAccess a = some t) : t.memWf = true := by
  unfold tryAccess at e
  dsimp only at e
  split at e
  · split at e
    · exact Option.some.inj e ▸ memWf_reply hs
    · split at e
      · cases e
      · exact Option.some.inj e ▸ memWf_reply hs
  · split at e
    · exact Option.some.inj e ▸ memWf_reply hs
    · split at e
      · cases e
      · have hw := memWf_writeBytes (spKey a.call.ctx a.addr.toNat)
          ((a.data.take (a.window - field a.addr.toNat 0 37)).take
            (s.windowOf a.call.ctx a.addr.toNat - field a.addr.toNat 0 37)) hs
        exact Option.some.inj e ▸ memWf_ite (memWf_reply hw) (memWf_reply hw)

theorem memWf_retryAccesses (hs : s.memWf = true) : s.retryAccesses.memWf = true := by
  unfold retryAccesses
  refine memWf_foldl hs fun t x ht => ?_
  split
  · split
    next r e => exact memWf_dropOp (memWf_of_tryAccess ht e)
    · exact ht
  · exact ht

theorem memWf_dropLocks {o} (hs : s.memWf = true) : (s.dropLocks o).memWf = true :=
  memWf_retryAccesses (memWf_retryDone hs)

theorem memWf_countRequest {core ctx launch} (hs : s.memWf = true) :
    (s.countRequest core ctx launch).1.memWf = true := hs

theorem memWf_tagRequest {core ctx launch kind thread space A} (hs : s.memWf = true) :
    (s.tagRequest core ctx launch kind thread space A).memWf = true := hs

theorem memWf_request {g kind fibre space A} (hs : s.memWf = true) : (s.request g kind fibre space A).memWf = true :=
  memWf_ite (memWf_tagRequest (memWf_countRequest hs)) (memWf_countRequest hs)

theorem memWf_logAtom {g ms A subject payload} (hs : s.memWf = true) :
    (s.logAtom g ms A subject payload).memWf = true :=
  memWf_log _ _ _ _ hs

/-! ## Barriers and circular buffers -/

theorem memWf_parkStroke {u w operand deadline i} (hs : s.memWf = true) :
    (s.parkStroke u w operand deadline i).memWf = true := hs

theorem memWf_parkEngine {u i} (hs : s.memWf = true) : (s.parkEngine u i).memWf = true := hs
theorem memWf_resume {gid m n} (hs : s.memWf = true) : (s.resume gid m n).memWf = true := hs
theorem memWf_writeCb {key o} (hs : s.memWf = true) : (s.writeCb key o).memWf = true := memWf_writeNat _ _ _ hs

theorem memWf_cbRetest {key gid m} (hs : s.memWf = true) : (s.cbRetest key gid m).memWf = true := by
  unfold cbRetest
  split
  · exact hs
  · split
    · exact memWf_ite (memWf_ite (memWf_syncImage (memWf_resume (memWf_logWake hs))) (memWf_writeCb
        (memWf_logAtom hs))) hs
    · exact hs

theorem memWf_cbRelease {key} (hs : s.memWf = true) : (s.cbRelease key).memWf = true := by
  unfold cbRelease
  refine memWf_foldl hs fun _ _ ht => ?_
  split
  · exact memWf_foldl ht fun _ _ ht1 => memWf_cbRetest ht1
  · exact ht

theorem memWf_cbCommit {key o} (hs : s.memWf = true) : (s.cbCommit key o).memWf = true :=
  memWf_ite (memWf_cbRelease (memWf_writeCb hs)) (memWf_writeCb hs)

end Sys2Proof.Machine.State
end

section
/-! # What engines, launches and admission keep: memory in its canonical form -/

namespace Sys2Proof.Machine.State

variable {s : State}

/-! ## Work in flight -/

theorem memWf_register {ctx o l} (hs : s.memWf = true) : (s.register ctx o l).memWf = true := hs
theorem memWf_enterOp {u g sd w locks len} (hs : s.memWf = true) : (s.enterOp u g sd w locks len).memWf = true := hs

theorem memWf_engineCount {ctx core b thread n f} (hs : s.memWf = true) :
    (s.engineCount ctx core b thread n f).memWf = true :=
  memWf_ite (memWf_cbCommit (memWf_log _ _ _ _ hs)) hs

theorem memWf_gatedEngine {ctx pkg e act} (hs : s.memWf = true) (hact : ∀ t, t.memWf = true → (act t).memWf = true) :
    (s.gatedEngine ctx pkg e act).memWf = true :=
  memWf_ite (hact _ hs) (memWf_gated _ _ _ _ hs (hact _ hs))

theorem memWf_holdCount {ctx core b thread} (hs : s.memWf = true) : (s.holdCount ctx core b thread).memWf = true := hs

theorem memWf_gatedCount {ctx core b thread n act} (hs : s.memWf = true)
    (hact : ∀ t, t.memWf = true → (act t).memWf = true) : (s.gatedCount ctx core b thread n act).memWf = true :=
  memWf_ite (memWf_gatedEngine hs fun _ ht => hact _ ht) (hact _ hs)

theorem memWf_leave {o op} (hs : s.memWf = true) : (s.leave o op).memWf = true := by
  unfold leave
  refine memWf_dropLocks (memWf_dropOp ?_)
  split
  · exact memWf_releaseHeld hs
  · exact hs

theorem memWf_finish {o op core thread word extra} (hs : s.memWf = true)
    (hextra : ∀ t, t.memWf = true → (extra t).memWf = true) : (s.finish o op core thread word extra).memWf = true := by
  unfold State.finish
  split
  · exact memWf_gatedEngine hs fun _ ht => memWf_leave (memWf_land (hextra _ (memWf_log _ _ _ _ ht)))
  · exact memWf_leave hs

/-! ## Operations on names -/

theorem memWf_sendName {u g sd target act} (hs : s.memWf = true) : (s.sendName u g sd target act).memWf = true := hs

theorem outWf_execNself {g sd} (hs : s.memWf = true) : OutWf (execNself g sd s) :=
  outWf_onStroke hs fun _ _ _ _ ht => memWf_advance (memWf_writeS ht)

theorem outWf_nameStroke {i gd sd target act} (hs : s.memWf = true) : OutWf (nameStroke i gd sd target act s) :=
  outWf_onStroke hs fun _ _ _ _ ht => memWf_ite (memWf_advance ht) (memWf_sendName ht)

theorem outWf_execNstat {g sd sa} (hs : s.memWf = true) : OutWf (execNstat g sd sa s) :=
  outWf_onStroke hs fun _ _ _ _ ht => memWf_sendName ht

theorem outWf_execNjoin {g reap sd sa t} (hs : s.memWf = true) : OutWf (execNjoin g reap sd sa t s) :=
  outWf_onStroke hs fun _ _ _ _ ht1 => memWf_ite (memWf_advance ht1) (memWf_parkStroke (memWf_addOp ht1))

theorem outWf_execNpark {g sd t} (hs : s.memWf = true) : OutWf (execNpark g sd t s) :=
  outWf_onStroke hs fun _ _ _ _ ht1 => memWf_ite (memWf_advance (memWf_writeS (memWf_modGroup ht1)))
    (memWf_parkStroke ht1)

theorem memWf_nparkReturn {gid m late v} (hs : s.memWf = true) : (s.nparkReturn gid m late v).memWf = true := by
  unfold nparkReturn
  split
  · exact hs
  · split
    · exact memWf_afterWrites (memWf_resume (memWf_returnS (memWf_logWake hs)))
    · exact hs

theorem memWf_nparkRelease {gid} (hs : s.memWf = true) : (s.nparkRelease gid).memWf = true := by
  unfold nparkRelease
  split
  · exact hs
  · exact memWf_ite hs (memWf_foldl (memWf_modGroup hs) fun _ _ ht => memWf_nparkReturn ht)

theorem memWf_addPsig {gid bits} (hs : s.memWf = true) : (s.addPsig gid bits).memWf = true := by
  unfold addPsig
  dsimp only
  split
  · exact memWf_ite (memWf_pokeImage (memWf_modGroup hs)) (memWf_nparkRelease (memWf_modGroup hs))
  · exact memWf_modGroup hs

theorem memWf_deposit {gid g k v} (hs : s.memWf = true) : (s.deposit gid g k v).memWf = true :=
  memWf_ite (memWf_modGroup hs) (memWf_putDeposit hs)

theorem memWf_liveItem {gid g it} (hs : s.memWf = true) : (s.liveItem gid g it).memWf = true := by
  unfold liveItem
  split
  · exact memWf_addPsig hs
  · exact memWf_addPsig hs
  · exact memWf_deposit hs
  · exact memWf_beginEnd hs

theorem memWf_savedItem {gid g it} (hs : s.memWf = true) : (s.savedItem gid g it).memWf = true := by
  unfold savedItem
  split
  · exact memWf_setElig (memWf_addPsig hs)
  · exact memWf_ite hs (memWf_setElig (memWf_addPsig hs))
  · exact memWf_putDeposit hs
  · exact memWf_killSaved hs

theorem memWf_applyItems {step} {is} (hstep : ∀ t i, t.memWf = true → (step t i).memWf = true) (hs : s.memWf = true) :
    (applyItems step s is).memWf = true := by
  induction is generalizing s with
  | nil => exact hs
  | cons i is ih =>
    cases i with
    | none => exact ih hs
    | some i =>
      by_cases hk : i = .kill
      · exact hk ▸ hstep _ _ hs
      · rw [applyItems]
        · exact ih (hstep _ _ hs)
        · exact hk

theorem memWf_registerJoin {o ctx i e} (hs : s.memWf = true) : (s.registerJoin o ctx i e).1.memWf = true := by
  unfold registerJoin
  split
  · exact hs
  · exact memWf_modOp hs

theorem memWf_deadRow {ctx i e act} (hs : s.memWf = true) : (s.deadRow ctx i e act).1.memWf = true := by
  unfold deadRow
  dsimp only
  split
  · exact memWf_reapEntry hs
  · exact hs

theorem memWf_groupRow {ctx i e it} (hs : s.memWf = true) : (s.groupRow ctx i e it).1.memWf = true := by
  unfold groupRow
  dsimp only
  split
  · split
    · dsimp only
      split
      · exact memWf_ite (memWf_liveItem hs) (memWf_savedItem hs)
      · exact hs
    · exact hs
  · exact memWf_queueItem hs

theorem memWf_stateStep {o ctx i e n} (hs : s.memWf = true) : (s.stateStep o ctx i e n).1.memWf = true := by
  unfold stateStep
  split
  · split
    · exact hs
    · split
      · exact memWf_deadRow hs
      · exact memWf_registerJoin hs
  · split
    · exact memWf_deadRow hs
    · exact hs
  · split
    · exact memWf_deadRow hs
    · split
      · split
        · exact memWf_groupRow hs
        · exact hs
      · exact hs

theorem memWf_rightStep {o ctx i e rights n} (hs : s.memWf = true) :
    (s.rightStep o ctx i e rights n).1.memWf = true := by
  unfold rightStep
  dsimp only
  split
  · split
    · exact hs
    · exact memWf_stateStep hs
  · split
    · exact hs
    · exact memWf_stateStep hs

theorem memWf_aliasStep {o e n} (hs : s.memWf = true) : (s.aliasStep o e n).1.memWf = true := by
  unfold aliasStep
  split
  · exact hs
  · exact memWf_foreignFault hs
  · exact memWf_rightStep hs

theorem memWf_homeStep {ctx o n} (hs : s.memWf = true) : (s.homeStep ctx o n).1.memWf = true := by
  unfold homeStep
  split
  · exact hs
  · exact memWf_tableFault hs
  · split
    · exact memWf_aliasStep hs
    · exact memWf_rightStep hs

theorem memWf_deliver {o op n} (hs : s.memWf = true) : (s.deliver o op n).memWf = true := by
  unfold deliver
  split
  · exact memWf_gated _ _ _ _ hs (memWf_ite (memWf_log _ _ _ _ (memWf_homeStep hs)) (memWf_answer (memWf_log _ _ _ _
      (memWf_homeStep hs))))
  · exact hs

theorem memWf_deliverIf {o p} (hs : s.memWf = true) : (s.deliverIf o p).memWf = true := by
  unfold deliverIf
  split
  · split
    · exact memWf_ite (memWf_deliver hs) hs
    · exact hs
  · exact hs

theorem memWf_joinTimeout {o ctx i} (hs : s.memWf = true) : (s.joinTimeout o ctx i).memWf = true := by
  unfold joinTimeout
  split
  · exact memWf_answer hs
  · split
    · exact memWf_answer hs
    · exact memWf_tableFault hs

theorem outWf_execDeliverWake {o} (hs : s.memWf = true) : OutWf (execDeliverWake o s) := memWf_deliverIf hs
theorem outWf_execDeliverSignal {o} (hs : s.memWf = true) : OutWf (execDeliverSignal o s) := memWf_deliverIf hs
theorem outWf_execDeliverDeposit {o} (hs : s.memWf = true) : OutWf (execDeliverDeposit o s) := memWf_deliverIf hs
theorem outWf_execDeliverKill {o} (hs : s.memWf = true) : OutWf (execDeliverKill o s) := memWf_deliverIf hs
theorem outWf_execDeliverStat {o} (hs : s.memWf = true) : OutWf (execDeliverStat o s) := memWf_deliverIf hs

theorem outWf_execDeliverJoin {o} (hs : s.memWf = true) : OutWf (execDeliverJoin o s) := by
  unfold execDeliverJoin
  split
  · split
    · split
      · exact memWf_ite (memWf_joinTimeout hs) hs
      · exact memWf_deliver hs
      · exact hs
    · exact hs
  · exact hs

theorem memWf_eligibleAt {g deadline} (hs : s.memWf = true) : (s.eligibleAt g deadline).memWf = true :=
  memWf_ite (memWf_setElig hs) hs

theorem outWf_execNparkTimeout {gid fibre} (hs : s.memWf = true) : OutWf (execNparkTimeout gid fibre s) := by
  unfold execNparkTimeout
  split
  · exact memWf_ite (memWf_ite (memWf_gatedWake hs fun _ ht => memWf_nparkReturn ht) hs) (memWf_eligibleAt hs)
  · exact hs

theorem outWf_execNjoinTimeout {gid fibre} (hs : s.memWf = true) : OutWf (execNjoinTimeout gid fibre s) := by
  unfold execNjoinTimeout
  split
  · split
    · split
      · split
        · exact memWf_gatedWake hs fun _ ht => memWf_joinTimeout ht
        · exact hs
      · exact hs
    · exact memWf_eligibleAt hs
  · exact hs

/-! ## Launches, and groups that end -/

theorem memWf_takeEntry {ctx i launch creator} (hs : s.memWf = true) :
    (s.takeEntry ctx i launch creator).memWf = true :=
  memWf_modEntry hs

theorem memWf_addGroup {l lk n index i role r} (hs : s.memWf = true) :
    (s.addGroup l lk n index i role r).memWf = true :=
  memWf_update (memWf_takeEntry hs)

theorem memWf_addGroups {l lk n k rs is} (hs : s.memWf = true) : (s.addGroups l lk n k rs is).memWf = true := by
  induction rs generalizing s k is with
  | nil => exact hs
  | cons r rs ih =>
    cases is with
    | nil => exact hs
    | cons i is => exact ih (memWf_addGroup hs)

theorem memWf_addCohort {l lk n is} (hs : s.memWf = true) : (s.addCohort l lk n is).memWf = true :=
  memWf_update (memWf_addGroups hs)

theorem memWf_addCohorts {l lk per ns is} (hs : s.memWf = true) : (addCohorts l lk per ns is s).memWf = true := by
  induction ns generalizing s is with
  | nil => exact hs
  | cons n ns ih => exact ih (memWf_addCohort hs)

theorem memWf_addCluster {l lk total q} (hs : s.memWf = true) : (s.addCluster l lk total q).memWf = true := hs

theorem memWf_startLaunch {l indices} (hs : s.memWf = true) : (s.startLaunch l indices).memWf = true :=
  memWf_evalEligible (memWf_foldl (memWf_addCohorts (memWf_modContext hs)) fun _ _ ht => memWf_addCluster ht)

theorem memWf_answerLaunch {o l status} (hs : s.memWf = true) : (s.answerLaunch o l status).memWf = true := by
  unfold answerLaunch
  refine memWf_dropOp ?_
  split
  · exact memWf_reply hs
  · exact memWf_land hs

theorem memWf_acceptLaunch {o op l indices} (hs : s.memWf = true) : (s.acceptLaunch o op l indices).memWf = true := by
  unfold acceptLaunch
  split
  · split
    · exact memWf_tableFault hs
    · exact memWf_answerLaunch hs
  · split
    · exact memWf_tableFault hs
    · exact memWf_ite (memWf_gated _ _ _ _ hs (memWf_answerLaunch (memWf_startLaunch (memWf_log _ _ _ _ hs)))) hs

theorem outWf_execLaunch {g sd sa} (hs : s.memWf = true) : OutWf (execLaunch g sd sa s) :=
  outWf_onStroke hs fun _ _ _ _ ht => memWf_enterOp ht

theorem outWf_execLaunchAcceptance {req indices} (hs : s.memWf = true) :
    OutWf (execLaunchAcceptance req indices s) := by
  unfold execLaunchAcceptance
  split
  · split
    · exact memWf_ite hs (memWf_ite (memWf_answerLaunch hs) (memWf_acceptLaunch hs))
    · exact hs
  · exact hs

theorem memWf_awaitFirst {ctx pkg es} (hs : s.memWf = true) : (s.awaitFirst ctx pkg es).memWf = true := by
  unfold awaitFirst
  split
  · exact memWf_await _ _ _ hs
  · exact hs

theorem memWf_logAll {ctx pkg es} (hs : s.memWf = true) : (s.logAll ctx pkg es).memWf = true :=
  memWf_foldl hs fun _ _ ht => memWf_log _ _ _ _ ht

theorem memWf_addTaskGroup {l lk num die i role r ts} (hs : s.memWf = true) :
    (s.addTaskGroup l lk num die i role r ts).memWf = true :=
  memWf_update (memWf_takeEntry hs)

theorem memWf_dispatch {die ps i} (hs : s.memWf = true) : (s.dispatch die ps i).memWf = true := by
  unfold dispatch
  split
  · exact hs
  · split
    · exact hs
    · split
      · exact hs
      · split
        · exact hs
        · split
          · exact memWf_tableFault hs
          · exact memWf_ite hs (memWf_ite (memWf_awaitFirst hs) (memWf_ite (memWf_modDie (memWf_modLaunch
              (memWf_addTaskGroup (memWf_logAll hs)))) hs))

theorem outWf_execTaskDispatch {die tasks index} (hs : s.memWf = true) : OutWf (execTaskDispatch die tasks index s) :=
  memWf_dispatch hs

/-! ## The matrix engine -/

theorem memWf_clearSlots {core ns} (hs : s.memWf = true) : (s.clearSlots core ns).memWf = true :=
  memWf_foldl hs fun _ _ ht => memWf_clearRange _ _ ht

theorem memWf_grantNew {g members team n} (hs : s.memWf = true) : (s.grantNew g members team n).memWf = true :=
  memWf_update (memWf_clearSlots hs)

theorem memWf_releaseHolder {n} (hs : s.memWf = true) : (s.releaseHolder n).memWf = true := by
  unfold releaseHolder
  split
  · exact hs
  · dsimp only
    split
    · exact memWf_update (memWf_clearSlots (memWf_breakTeam hs))
    · exact memWf_update (memWf_breakTeam hs)

theorem memWf_failMat {code os} (hs : s.memWf = true) : (s.failMat code os).memWf = true :=
  memWf_foldl hs fun _ _ ht => memWf_modOp ht

theorem memWf_dropPart {gid} (hs : s.memWf = true) : (s.dropPart gid).memWf = true := by
  unfold dropPart
  split
  · exact hs
  · exact memWf_modGroup (memWf_ite (memWf_failMat hs) hs)

theorem memWf_macq {u g sd n team} (hs : s.memWf = true) : (s.macq u g sd n team).memWf = true := by
  unfold macq
  dsimp only
  split
  · exact memWf_trap hs
  · split
    · exact memWf_advance (memWf_writeS (memWf_dropPart hs))
    · split
      · exact memWf_advance (memWf_writeS (memWf_grantNew (memWf_dropPart hs)))
      · exact memWf_ite (memWf_advance (memWf_writeS (memWf_dropPart hs))) (memWf_parkEngine (memWf_modCore
          (memWf_dropPart hs)))

theorem memWf_grantQueued {e g} (hs : s.memWf = true) : (s.grantQueued e g).memWf = true := by
  unfold grantQueued
  dsimp only
  split
  · exact memWf_afterWrites (memWf_resume (memWf_returnS (memWf_grantNew (memWf_modCore hs))))
  · exact memWf_gated _ _ _ _ hs (memWf_afterWrites (memWf_resume (memWf_returnS (memWf_grantNew (memWf_modCore
      (memWf_log _ _ _ _ hs))))))

theorem outWf_execMacq {g sd n} (hs : s.memWf = true) : OutWf (execMacq g sd n s) :=
  outWf_onStroke hs fun _ _ _ _ ht => memWf_macq ht

theorem outWf_execMacqTeam {g sd n sm} (hs : s.memWf = true) : OutWf (execMacqTeam g sd n sm s) :=
  outWf_onStroke hs fun _ _ _ _ ht => memWf_macq ht

theorem outWf_execMrel {g} (hs : s.memWf = true) : OutWf (execMrel g s) := by
  unfold execMrel
  refine outWf_onStroke hs fun _ _ _ _ ht => ?_
  split
  · exact memWf_advance (memWf_dropPart ht)
  · exact memWf_ite (memWf_parkEngine ht) (memWf_advance (memWf_releaseHolder (memWf_dropPart ht)))

theorem memWf_growHolder {g n} (hs : s.memWf = true) : (s.growHolder g n).memWf = true := by
  unfold growHolder
  split
  · exact memWf_modHolder (memWf_clearSlots hs)
  · exact hs

theorem memWf_growAs {u g sd n grant} (hs : s.memWf = true) : (s.growAs u g sd n grant).memWf = true :=
  memWf_advance (memWf_writeS (memWf_ite (memWf_growHolder (memWf_log _ _ _ _ hs)) (memWf_log _ _ _ _ hs)))

theorem outWf_execMgrow {g sd n} (hs : s.memWf = true) : OutWf (execMgrow g sd n s) := by
  unfold execMgrow
  refine outWf_onStroke hs fun _ _ _ _ ht => ?_
  dsimp only
  split
  · exact memWf_ite (memWf_parkEngine ht) (memWf_growAs (memWf_dropPart ht))
  · exact memWf_growAs (memWf_dropPart ht)

theorem outWf_execMacqQueueGrant {core} (hs : s.memWf = true) : OutWf (execMacqQueueGrant core s) := by
  unfold execMacqQueueGrant
  split
  · split
    · exact memWf_grantQueued hs
    · exact hs
  · exact hs

theorem outWf_execMrelRelease {core holder} (hs : s.memWf = true) : OutWf (execMrelRelease core holder s) := by
  unfold execMrelRelease
  split
  · exact memWf_ite (memWf_releaseHolder hs) hs
  · exact hs

theorem memWf_markReady (hs : s.memWf = true) : s.markReady.memWf = true := hs

theorem memWf_matLimit {u g go} (hs : s.memWf = true) (hgo : ∀ t, t.memWf = true → (go t).memWf = true) :
    (s.matLimit u g go).memWf = true :=
  memWf_ite (memWf_parkEngine hs) (hgo _ hs)

theorem memWf_matSpans {u g spans kind go} (hs : s.memWf = true) (hgo : ∀ t x, t.memWf = true → (go t x).memWf = true) :
    (s.matSpans u g spans kind go).memWf = true := by
  unfold matSpans
  split
  · exact memWf_trap hs
  · dsimp only
    split
    · exact memWf_trap hs
    · exact memWf_ite (memWf_parkEngine hs) (hgo _ _ hs)

theorem memWf_enterMat {u g sd m locks len} (hs : s.memWf = true) : (s.enterMat u g sd m locks len).memWf = true :=
  memWf_enterOp (memWf_dropPart hs)

theorem memWf_joinTurn {n j x sacc} (hs : s.memWf = true) : (s.joinTurn n j x sacc).memWf = true :=
  memWf_ite (memWf_foldl hs fun _ _ ht => memWf_modOp ht) (memWf_failMat hs)

theorem memWf_takeTurn {n index sacc} (hs : s.memWf = true) : (s.takeTurn n index sacc).memWf = true := by
  unfold takeTurn
  split
  · exact hs
  · exact memWf_ite hs (memWf_ite (memWf_joinTurn (memWf_modHolder hs)) (memWf_modHolder hs))

theorem outWf_execMzero {g sd k} (hs : s.memWf = true) : OutWf (execMzero g sd k s) :=
  outWf_onStroke hs fun _ _ _ _ ht => memWf_matLimit ht fun _ ht1 => memWf_enterMat ht1

theorem memWf_enterLoop {u g sd m locks part held} (hs : s.memWf = true) :
    (s.enterLoop u g sd m locks part held).memWf = true := by
  unfold enterLoop
  dsimp only
  split
  · exact memWf_markReady (memWf_takeTurn (memWf_modGroup (memWf_enterMat hs)))
  · exact memWf_modGroup (memWf_enterMat hs)

theorem outWf_execMloop {g fa fb part sd aA iA xA yA vb step k} (hs : s.memWf = true) :
    OutWf (execMloop g fa fb part sd aA iA xA yA vb step k s) := by
  unfold execMloop
  refine outWf_onStroke hs fun _ _ _ _ ht => memWf_matLimit ht fun _ ht1 => ?_
  dsimp only
  split
  · exact memWf_enterLoop ht1
  · split
    · exact memWf_trap ht1
    · split
      · exact memWf_enterLoop ht1
      · exact memWf_matSpans ht1 fun _ _ ht2 => memWf_enterLoop ht2

theorem memWf_enterSacc {u g sd m locks pair bad} (hs : s.memWf = true) :
    (s.enterSacc u g sd m locks pair bad).memWf = true := by
  unfold enterSacc
  dsimp only
  split
  · refine memWf_markReady (memWf_takeTurn ?_)
    split
    · exact memWf_modOp (memWf_modGroup (memWf_enterOp hs))
    · exact memWf_failMat (memWf_modGroup (memWf_enterOp hs))
    · exact memWf_modGroup (memWf_enterOp hs)
  · split
    · exact memWf_modOp (memWf_modGroup (memWf_enterOp hs))
    · exact memWf_failMat (memWf_modGroup (memWf_enterOp hs))
    · exact memWf_modGroup (memWf_enterOp hs)

theorem outWf_execMsacc {g sd pA qA nA k} (hs : s.memWf = true) : OutWf (execMsacc g sd pA qA nA k s) := by
  unfold execMsacc
  refine outWf_onStroke hs fun _ _ _ _ ht => memWf_matLimit ht fun _ ht1 => ?_
  dsimp only
  split
  · exact memWf_enterSacc ht1
  · split
    · exact memWf_enterSacc ht1
    · exact memWf_matSpans ht1 fun _ _ ht2 => memWf_ite (memWf_enterSacc ht2) (memWf_enterSacc ht2)

theorem memWf_matMove {u g sd kind z A stride k lock} (hs : s.memWf = true) :
    (s.matMove u g sd kind z A stride k lock).memWf = true :=
  memWf_ite (memWf_enterMat hs) (memWf_ite (memWf_enterMat hs) (memWf_matSpans hs fun _ _ ht => memWf_enterMat ht))

theorem outWf_execMldacc {g ty sd aA rA k} (hs : s.memWf = true) : OutWf (execMldacc g ty sd aA rA k s) :=
  outWf_onStroke hs fun _ _ _ _ ht => memWf_matLimit ht fun _ ht1 => memWf_matMove ht1

theorem outWf_execMstacc {g ty rnd sat sd aA rA k} (hs : s.memWf = true) :
    OutWf (execMstacc g ty rnd sat sd aA rA k s) :=
  outWf_onStroke hs fun _ _ _ _ ht => memWf_ite (memWf_advance ht) (memWf_matLimit ht fun _ ht1 => memWf_matMove ht1)

theorem memWf_startLoop {m} (hs : s.memWf = true) : (s.startLoop m).memWf = true :=
  memWf_foldl (memWf_setIsland hs) fun _ _ ht => memWf_modOp ht

theorem outWf_execMatrixLoopStart {o} (hs : s.memWf = true) : OutWf (execMatrixLoopStart o s) := by
  unfold execMatrixLoopStart
  split
  · exact memWf_ite (memWf_startLoop hs) hs
  · exact hs

theorem outWf_execMatrixLoopWaitExpiry {o} (hs : s.memWf = true) : OutWf (execMatrixLoopWaitExpiry o s) := by
  unfold execMatrixLoopWaitExpiry
  split
  · split
    · exact memWf_ite (memWf_startLoop hs) hs
    · exact hs
  · exact hs

theorem outWf_execMatrixBudgetRefill {island} (hs : s.memWf = true) : OutWf (execMatrixBudgetRefill island s) :=
  memWf_ite (memWf_setIsland hs) hs

theorem memWf_writeTile {key t} (hs : s.memWf = true) : (s.writeTile key t).memWf = true := memWf_writeBytes _ _ hs

theorem memWf_fillB {go n os} (hgo : ∀ t, t.memWf = true → (go t).memWf = true) (hs : s.memWf = true) :
    (fillB go n os s).memWf = true := by
  induction os generalizing s with
  | nil => exact hgo _ hs
  | cons o os ih =>
    unfold fillB
    split
    · exact ih hs
    · split
      next t e => exact ih (memWf_of_eq e (memWf_fillAll hs))
      next t va e =>
        have ht := memWf_of_eq e (memWf_fillAll hs)
        split
        · exact memWf_contextFatal ht
        · exact ht

theorem memWf_ran {os steps flags} (hs : s.memWf = true) : (s.ran os steps flags).memWf = true :=
  memWf_foldl hs fun _ _ ht => memWf_modOp ht

theorem memWf_runLoop {m key} (hs : s.memWf = true) : (s.runLoop m key).memWf = true :=
  memWf_fillB (fun _ ht => memWf_ran (memWf_writeTile ht)) hs

theorem memWf_runPair {l m p q key} (hs : s.memWf = true) : (s.runPair l m p q key).memWf = true :=
  memWf_fillB (fun _ ht => memWf_ran (memWf_ran (memWf_writeTile ht))) hs

theorem memWf_runLoad {o m ty a stride key} (hs : s.memWf = true) : (s.runLoad o m ty a stride key).memWf = true :=
  memWf_ran (memWf_writeTile hs)

theorem memWf_runStore {o m ty rnd sat a stride key} (hs : s.memWf = true) :
    (s.runStore o m ty rnd sat a stride key).memWf = true :=
  memWf_ran (memWf_foldl hs fun _ _ ht => memWf_writeBytes _ _ ht)

theorem memWf_runMat {o m} (hs : s.memWf = true) : (s.runMat o m).memWf = true := by
  unfold runMat
  split
  · split
    · exact memWf_ran (memWf_clearRange _ _ hs)
    · exact hs
  · split
    · exact memWf_runLoad hs
    · exact hs
  · split
    · exact memWf_runStore hs
    · exact hs
  · split
    · split
      · split
        · exact memWf_runPair hs
        · exact hs
      · exact hs
    · split
      · exact memWf_runLoop hs
      · exact hs
  · exact hs

theorem outWf_execMatrixOpCompletion {o} (hs : s.memWf = true) : OutWf (execMatrixOpCompletion o s) := by
  unfold execMatrixOpCompletion
  split
  · split
    · exact memWf_ite (memWf_markReady (memWf_runMat hs)) (memWf_ite (memWf_markReady
        (memWf_finish hs fun _ ht => ht)) hs)
    · exact hs
  · exact hs

/-! ## Admission, stopping, saving and restoring -/

theorem outWf_execAdmissionWaitExpiry (hs : s.memWf = true) : OutWf (execAdmissionWaitExpiry s) := by
  unfold execAdmissionWaitExpiry
  refine memWf_foldl hs fun _ _ ht => ?_
  split
  · exact memWf_ite (memWf_modCluster ht) ht
  · exact ht

theorem memWf_writeImage {ctx pkg va b} (hs : s.memWf = true) : (s.writeImage ctx pkg va b).memWf = true := by
  unfold writeImage
  split
  next _ e => exact memWf_of_eq e (memWf_vmWrite _ _ _ _ _ hs)
  · exact memWf_soon hs

theorem memWf_beginCohort {pkg coh} (hs : s.memWf = true) : (s.beginCohort pkg coh).memWf = true := by
  unfold beginCohort
  split
  · exact hs
  · split
    · exact hs
    · split
      · exact hs
      · refine memWf_foldl (memWf_modCohort (memWf_clearFrom _ _ (memWf_modSite hs))) fun _ _ ht => ?_
        dsimp only
        split
        · exact memWf_vmWrite _ _ _ _ _ (memWf_modGroup ht)
        · exact memWf_modGroup ht

theorem memWf_loadSlots {core b i free hs'} (hs : s.memWf = true) : (s.loadSlots core b i free hs').memWf = true := by
  induction hs' generalizing s i free with
  | nil => exact hs
  | cons h l ih =>
    unfold loadSlots
    split
    · exact ih hs
    · exact ih (memWf_modHolder (memWf_foldl hs fun _ _ ht => memWf_loadBytes _ _ ht))

theorem memWf_placeLocks {coh core hw members} (hs : s.memWf = true) :
    (s.placeLocks coh core hw members).memWf = true := hs

theorem memWf_restoreCohort {pkg hw coh members} (hs : s.memWf = true) :
    (s.restoreCohort pkg hw coh members).memWf = true := by
  unfold restoreCohort
  split
  · exact hs
  · dsimp only
    split
    · exact memWf_modCohort hs
    · split
      · exact memWf_soon hs
      · exact memWf_modCohort (memWf_placeLocks (memWf_update (memWf_loadSlots (memWf_loadBytes _ _ hs))))

theorem memWf_readBack {gid g pkg} (hs : s.memWf = true) : (s.readBack gid g pkg).1.memWf = true := by
  unfold readBack
  split
  · exact memWf_loadBytes _ _ (memWf_modGroup hs)
  · exact memWf_soon hs
  · exact memWf_soon hs

theorem memWf_seat {p} (hs : s.memWf = true) : (s.seat p).memWf = true := by
  unfold seat
  split
  · exact hs
  · dsimp only
    split
    · exact memWf_update (memWf_ite (memWf_readBack (memWf_ite (memWf_dropMap hs) hs)) (memWf_modGroup (memWf_readBack
        (memWf_ite (memWf_dropMap hs) hs))))
    · exact memWf_update (memWf_ite (memWf_ite (memWf_dropMap hs) hs) (memWf_modGroup (memWf_ite
        (memWf_dropMap hs) hs)))

theorem memWf_runEntry {p} (hs : s.memWf = true) : (s.runEntry p).memWf = true := by
  unfold runEntry
  split
  · exact hs
  · dsimp only
    split
    · exact memWf_tableFault hs
    · refine memWf_nparkRelease (memWf_applyItems (fun _ _ ht => ?_) (memWf_putEntry hs))
      split
      · exact memWf_liveItem ht
      · exact ht

theorem memWf_reside {n k hw ps} (hs : s.memWf = true) : (s.reside n k hw ps).memWf = true :=
  memWf_foldl (memWf_foldl (memWf_modCluster (memWf_foldl (memWf_foldl (memWf_foldl hs fun _ _ ht => memWf_restoreCohort
    ht) fun _ _ ht => memWf_beginCohort ht) fun _ _ ht => memWf_seat ht)) fun _ _ ht => memWf_runEntry ht) fun _ _ ht =>
    memWf_barrierCheck ht

theorem memWf_takeIn {n k hw binds} (hs : s.memWf = true) : (s.takeIn n k hw binds).memWf = true :=
  memWf_ite hs (memWf_ite (memWf_awaitFirst hs) (memWf_ite (memWf_reside (memWf_ite hs (memWf_logAll hs))) hs))

theorem outWf_execClusterAdmission {ctx launch cluster hw binds} (hs : s.memWf = true) :
    OutWf (execClusterAdmission ctx launch cluster hw binds s) := by
  unfold execClusterAdmission
  dsimp only
  split
  · exact memWf_takeIn hs
  · exact hs

theorem memWf_stopGroup {idle gid} (hs : s.memWf = true) : (s.stopGroup idle gid).memWf = true := by
  unfold stopGroup
  split
  · exact hs
  · exact memWf_ite hs (memWf_writeImage (memWf_writeImage (memWf_modEntry (memWf_modGroup (memWf_modCore hs)))))

theorem memWf_liftLocks {mine} (hs : s.memWf = true) : (s.liftLocks mine).memWf = true := hs

theorem memWf_stopCluster {c k gs logged} (hs : s.memWf = true) : (s.stopCluster c k gs logged).memWf = true :=
  memWf_modCluster (memWf_foldl (memWf_liftLocks (memWf_ite (memWf_logAll hs) hs)) fun _ _ ht => memWf_stopGroup ht)

theorem memWf_preempt {c k} (hs : s.memWf = true) : (s.preempt c k).memWf = true := by
  unfold preempt
  dsimp only
  split
  · exact hs
  · split
    · exact memWf_ite (memWf_awaitFirst hs) hs
    · split
      · exact memWf_modCluster (memWf_stopCluster hs)
      · exact memWf_ite (memWf_stopCluster hs) hs

theorem memWf_saveCohort {coh c pkg} (hs : s.memWf = true) : (s.saveCohort coh c pkg).memWf = true := by
  unfold saveCohort
  split
  · exact memWf_modCohort hs
  · split
    · exact memWf_contextFatal hs
    next _ e =>
      exact memWf_modCohort (memWf_clearFrom _ _ (memWf_liftLocks (memWf_of_eq e (memWf_vmWrite _ _ _ _ _ hs))))

theorem outWf_execPreemptStop {cid} (hs : s.memWf = true) : OutWf (execPreemptStop cid s) := by
  unfold execPreemptStop
  split
  · exact memWf_preempt hs
  · exact hs

theorem outWf_execCohortSave {coh} (hs : s.memWf = true) : OutWf (execCohortSave coh s) := by
  unfold execCohortSave
  split
  · split
    · exact memWf_ite (memWf_saveCohort hs) hs
    · exact hs
  · exact hs

theorem outWf_execRegisterWriteback {gid reg} (hs : s.memWf = true) : OutWf (execRegisterWriteback gid reg s) := by
  unfold execRegisterWriteback
  split
  · split
    · exact memWf_ite (memWf_modGroup (memWf_writeBack hs)) hs
    · exact hs
  · exact hs

theorem memWf_parkEntry {gid g} (hs : s.memWf = true) : (s.parkEntry gid g).memWf = true := by
  unfold parkEntry
  dsimp only
  split
  · exact memWf_tableFault hs
  · refine memWf_applyItems (fun _ _ ht => ?_) (memWf_modGroup (memWf_putEntry hs))
    split
    · exact memWf_savedItem ht
    · exact ht

theorem memWf_markSaved {g} (hs : s.memWf = true) : (s.markSaved g).memWf = true := by
  unfold markSaved
  split
  · exact hs
  · split
    · exact memWf_ite (memWf_modCluster hs) hs
    · exact hs

theorem outWf_execGroupWritebackComplete {gid} (hs : s.memWf = true) : OutWf (execGroupWritebackComplete gid s) := by
  unfold execGroupWritebackComplete
  split
  · exact memWf_ite (memWf_markSaved (memWf_parkEntry hs)) hs
  · exact hs

theorem outWf_execImageSwapOut {gid} (hs : s.memWf = true) : OutWf (execImageSwapOut gid s) := by
  unfold execImageSwapOut
  split
  · exact memWf_ite (memWf_modGroup (memWf_modEntry hs)) hs
  · exact hs

theorem outWf_execImageSwapIn {gid} (hs : s.memWf = true) : OutWf (execImageSwapIn gid s) := by
  unfold execImageSwapIn
  split
  · exact memWf_ite (memWf_parkEntry hs) hs
  · exact hs

theorem outWf_execGroupEndFinalise {gid} (hs : s.memWf = true) : OutWf (execGroupEndFinalise gid s) := by
  unfold execGroupEndFinalise
  split
  · exact memWf_ite (memWf_makeDead hs) hs
  · exact hs

end Sys2Proof.Machine.State
end

section
/-! # What copies, transfers and host calls keep: memory in its canonical form -/

namespace Sys2Proof.Machine.State

variable {s : State}

/-! ## Control instructions -/

theorem memWf_goto {u pc} (hs : s.memWf = true) : (s.goto u pc).memWf = true := hs

theorem outWf_uniformBranch {i g off} (hs : s.memWf = true) : OutWf (uniformBranch i g off s) :=
  outWf_onStroke hs fun _ _ _ _ ht => memWf_goto ht

theorem outWf_execVbr {g hint off} (hs : s.memWf = true) : OutWf (execVbr g hint off s) :=
  outWf_onStroke hs fun _ _ _ _ ht => memWf_modGroup ht

theorem outWf_execCall {g off} (hs : s.memWf = true) : OutWf (execCall g off s) :=
  outWf_onStroke hs fun _ _ _ _ ht => memWf_goto (memWf_writeS ht)

theorem outWf_registerTransfer {i g sa act} (hact : ∀ u g1 t, t.memWf = true → (act u g1 t).memWf = true)
    (hs : s.memWf = true) : OutWf (registerTransfer i g sa act s) :=
  outWf_onStroke hs fun _ _ _ _ ht => memWf_ite (memWf_trap ht) (memWf_goto (hact _ _ _ ht))

theorem outWf_execMeet {g} (hs : s.memWf = true) : OutWf (execMeet g s) :=
  outWf_onStroke hs fun _ _ _ _ ht => memWf_meetRelease (memWf_modGroup ht)

theorem outWf_execFend {g} (hs : s.memWf = true) : OutWf (execFend g s) :=
  outWf_onStroke hs fun _ _ _ _ ht => memWf_endFibres (memWf_advance ht)

theorem outWf_execGexit {g sa} (hs : s.memWf = true) : OutWf (execGexit g sa s) :=
  outWf_onStroke hs fun _ _ _ _ ht => memWf_ite (memWf_endFibres (memWf_advance ht)) (memWf_beginEnd ht)

theorem outWf_execYield {g} (hs : s.memWf = true) : OutWf (execYield g s) :=
  outWf_onStroke hs fun _ _ _ _ ht => memWf_advance (memWf_modGroup ht)

theorem outWf_execSleep {g b} (hs : s.memWf = true) : OutWf (execSleep g b s) :=
  outWf_onStroke hs fun _ _ _ _ ht => memWf_ite (memWf_advance ht) (memWf_modGroup (memWf_advance ht))

theorem outWf_execNop {g} (hs : s.memWf = true) : OutWf (execNop g s) :=
  outWf_onStroke hs fun _ _ _ _ ht => memWf_advance ht

/-! ## Copies -/

theorem memWf_issueChecks {u g ranges aligned go} (hs : s.memWf = true)
    (hgo : ∀ t, t.memWf = true → (go t).memWf = true) : (s.issueChecks u g ranges aligned go).memWf = true := by
  unfold issueChecks
  split
  · exact memWf_raise hs
  · split
    · exact memWf_trap hs
    · exact hgo _ hs

theorem memWf_issueLocked {u g sd c locks} (hs : s.memWf = true) : (s.issueLocked u g sd c locks).memWf = true := by
  unfold issueLocked
  split
  · exact memWf_trap hs
  · exact memWf_ite (memWf_parkEngine hs) (memWf_enterOp hs)

theorem outWf_copyStroke {i gd body} (hs : s.memWf = true)
    (hbody : ∀ u g a t, t.memWf = true → (body u g a t).memWf = true) : OutWf (copyStroke i gd s body) :=
  outWf_onStroke hs fun _ _ _ _ ht => memWf_ite (memWf_advance ht) (memWf_ite (memWf_parkEngine ht) (hbody _ _ _ _ ht))

theorem outWf_execCpy {g dsp ssp scp sd dA sA lA cb flag} (hs : s.memWf = true) :
    OutWf (execCpy g dsp ssp scp sd dA sA lA cb flag s) :=
  outWf_copyStroke hs fun _ _ _ _ ht => memWf_issueChecks ht fun _ ht1 => memWf_issueLocked ht1

theorem outWf_execCpyt {g scatter box scp sd xA tA cA cb flag} (hs : s.memWf = true) :
    OutWf (execCpyt g scatter box scp sd xA tA cA cb flag s) :=
  outWf_copyStroke hs fun _ _ _ _ ht => memWf_issueChecks ht fun _ ht1 => memWf_issueLocked ht1

theorem memWf_fanIssue {u g a ssp sd S L A es} (hs : s.memWf = true) :
    (s.fanIssue u g a ssp sd S L A es).memWf = true := by
  unfold fanIssue
  dsimp only
  split
  · exact memWf_trap hs
  · exact memWf_issueChecks hs fun _ ht => memWf_issueLocked ht

theorem outWf_execCpym {g ssp sd fA sA lA aA mask} (hs : s.memWf = true) :
    OutWf (execCpym g ssp sd fA sA lA aA mask s) := by
  unfold execCpym
  refine outWf_copyStroke hs fun _ _ _ _ ht => ?_
  dsimp only
  split
  · exact memWf_enterOp ht
  · refine memWf_issueChecks ht fun _ ht1 => ?_
    split
    · exact memWf_raise ht1
    · exact memWf_fanIssue ht1

theorem outWf_execCpytest {g spd sa} (hs : s.memWf = true) : OutWf (execCpytest g spd sa s) :=
  outWf_onStroke hs fun _ _ _ _ ht => memWf_advance (memWf_writeSp ht)

theorem memWf_dropXlat {ctx pkg page} (hs : s.memWf = true) : (s.dropXlat ctx pkg page).memWf = true := hs

theorem memWf_freshWalk {ctx pkg w va} (hs : s.memWf = true) : (s.freshWalk ctx pkg w va).1.memWf = true := by
  unfold freshWalk
  dsimp only
  split
  · exact memWf_update (memWf_dropXlat hs)
  · exact memWf_dropXlat hs

theorem memWf_xlate {ctx pkg w va} (hs : s.memWf = true) : (s.xlate ctx pkg w va).1.memWf = true := by
  unfold xlate
  split
  · exact memWf_freshWalk hs
  · split
    · exact hs
    · dsimp only
      split
      · exact memWf_free hs
      · exact memWf_freshWalk (memWf_free hs)

theorem memWf_frames {ctx pkg w ps acc} (hs : s.memWf = true) : (s.frames ctx pkg w ps acc).1.memWf = true := by
  induction ps generalizing s acc with
  | nil => exact hs
  | cons p ps ih =>
    unfold frames
    split
    next t pa e => exact ih (memWf_of_eq e (memWf_xlate hs))
    next t why _ e => exact memWf_of_eq e (memWf_xlate hs)

theorem memWf_fetchAddrs {ctx pkg src l} (hs : s.memWf = true) : (s.fetchAddrs ctx pkg src l).1.memWf = true := by
  unfold fetchAddrs
  split
  · exact hs
  · split
    next _ _ e => exact memWf_of_eq e (memWf_frames hs)
    next _ _ _ e => exact memWf_of_eq e (memWf_frames hs)

theorem memWf_fillPages {ctx pkg o c ps} (hs : s.memWf = true) : (s.fillPages ctx pkg o c ps).1.memWf = true := by
  induction ps generalizing s c with
  | nil => exact hs
  | cons p ps ih =>
    unfold fillPages
    split
    · exact ih hs
    · split
      next t b e => exact ih (memWf_of_eq e (memWf_fetchAddrs hs))
      next t q why e => exact memWf_of_eq e (memWf_fetchAddrs hs)

theorem memWf_fetchPiece {ctx pkg o c l} (hs : s.memWf = true) : (s.fetchPiece ctx pkg o c l).1.memWf = true := by
  unfold fetchPiece
  dsimp only
  split
  · split
    next _ _ e => exact memWf_of_eq e (memWf_fillPages hs)
    next _ _ _ _ e => exact memWf_of_eq e (memWf_fillPages hs)
  · exact memWf_fetchAddrs hs

theorem memWf_spendOrder {c k} (hs : s.memWf = true) : (s.spendOrder c k).memWf = true := by
  unfold spendOrder
  split
  · exact memWf_ite hs hs
  · exact hs

theorem memWf_pieceWrites {ctx pkg o c k} (hs : s.memWf = true) : (s.pieceWrites ctx pkg o c k).1.memWf = true := by
  unfold pieceWrites
  dsimp only
  split
  · split
    next _ _ e => exact memWf_of_eq e (memWf_fetchAddrs hs)
    next _ _ _ e => exact memWf_of_eq e (memWf_fetchAddrs hs)
  · split
    next _ _ e => exact memWf_of_eq e (memWf_fetchAddrs hs)
    next _ _ _ e => exact memWf_of_eq e (memWf_fetchAddrs hs)
  · split
    next _ _ _ e => exact memWf_of_eq e (memWf_fetchPiece hs)
    next _ _ _ _ e => exact memWf_of_eq e (memWf_fetchPiece hs)
  · split
    next _ _ _ e => exact memWf_of_eq e (memWf_fetchPiece hs)
    next _ _ _ _ e => exact memWf_of_eq e (memWf_fetchPiece hs)

theorem memWf_writeAll {at_ ws} (hs : s.memWf = true) : (s.writeAll at_ ws).memWf = true :=
  memWf_foldl hs fun _ _ ht => memWf_writeBytes _ _ ht

theorem memWf_writePages {ctx fr ws} (hs : s.memWf = true) : (s.writePages ctx fr ws).memWf = true :=
  memWf_foldl hs fun _ _ ht => memWf_writePage _ _ _ ht

theorem memWf_keepCopy {o c} (hs : s.memWf = true) : (s.keepCopy o c).memWf = true := hs

theorem memWf_rewriteFault {die slot e} (hs : s.memWf = true) : (s.rewriteFault die slot e).memWf = true := by
  unfold rewriteFault
  split
  · exact hs
  · exact memWf_ite (memWf_writeBytes _ _ hs) hs

theorem memWf_landed {o k c} (hs : s.memWf = true) : (s.landed o k c).memWf = true := hs

theorem memWf_parkPiece {op o k c page access} (hs : s.memWf = true) :
    (s.parkPiece op o k c page access).memWf = true := by
  unfold parkPiece
  dsimp only
  split
  · exact memWf_rewriteFault (memWf_setDie (memWf_landed hs))
  · split
    · exact hs
    · exact memWf_setDie (memWf_landed hs)

theorem memWf_pieceFault {back : State} {op o k c page access why} (hs : s.memWf = true) (hback : back.memWf = true) :
    (s.pieceFault back op o k c page access why).memWf = true := by
  unfold pieceFault
  split
  · exact memWf_ite (memWf_parkPiece hs) hback
  · exact memWf_contextFatal hs
  · exact memWf_keepCopy hs
  · exact hs

theorem memWf_issuePiece {op o k c} (hs : s.memWf = true) : (s.issuePiece op o k c).1.memWf = true := by
  unfold issuePiece
  dsimp only
  split
  · exact hs
  · split
    · exact hs
    · exact memWf_keepCopy (memWf_countRequest hs)

theorem memWf_tagPiece {op c k off} (hs : s.memWf = true) : (s.tagPiece op c k off).memWf = true := by
  unfold tagPiece
  split
  · exact hs
  · exact memWf_ite (memWf_tagRequest hs) hs

theorem memWf_pieceDone {op o k c n off} (hs : s.memWf = true) : (s.pieceDone op o k c n off).memWf = true := by
  unfold pieceDone
  dsimp only
  split
  · split
    · split
      · exact memWf_holdCount (memWf_tagPiece (memWf_keepCopy (memWf_spendOrder hs)))
      · exact memWf_engineCount (memWf_tagPiece (memWf_keepCopy (memWf_spendOrder hs)))
    · split
      · exact memWf_holdCount (memWf_tagPiece (memWf_keepCopy (memWf_spendOrder hs)))
      · exact memWf_engineCount (memWf_tagPiece (memWf_keepCopy (memWf_spendOrder hs)))
  · exact memWf_tagPiece (memWf_keepCopy (memWf_spendOrder hs))

theorem memWf_landPiece {back : State} {op o k c ws} (hs : s.memWf = true) (hback : back.memWf = true) :
    (s.landPiece back op o k c ws).memWf = true := by
  unfold landPiece
  split
  · exact memWf_pieceDone (memWf_writeAll hs)
  · exact memWf_pieceDone (memWf_writeAll hs)
  · split
    next _ _ e => exact memWf_pieceDone (memWf_writePages (memWf_of_eq e (memWf_frames hs)))
    next _ _ _ e => exact memWf_pieceFault (memWf_of_eq e (memWf_frames hs)) hback

theorem memWf_pieceAct {op o k c} (hs : s.memWf = true) : (s.pieceAct op o k c).memWf = true := by
  unfold pieceAct
  dsimp only
  split
  next _ _ _ e =>
    exact memWf_landPiece (memWf_keepCopy (memWf_of_eq e (memWf_pieceWrites (memWf_issuePiece hs))))
      (memWf_issuePiece hs)
  next _ _ _ _ e =>
    exact memWf_pieceFault (memWf_keepCopy (memWf_of_eq e (memWf_pieceWrites (memWf_issuePiece hs))))
      (memWf_issuePiece hs)

theorem memWf_countLate {op o k c b} (hs : s.memWf = true) : (s.countLate op o k c b).memWf = true :=
  memWf_gatedCount hs fun _ ht => memWf_engineCount (memWf_keepCopy ht)

theorem outWf_execCopyPiece {o k} (hs : s.memWf = true) : OutWf (execCopyPiece o k s) := by
  unfold execCopyPiece
  split
  · split
    · split
      · exact memWf_ite (memWf_countLate hs) (memWf_ite hs (memWf_ite (memWf_pieceAct hs)
          (memWf_gatedCount hs fun _ ht => memWf_pieceAct ht)))
      · exact memWf_ite (memWf_pieceAct hs) hs
    · exact hs
  · exact hs

theorem memWf_copyError {o c code} (hs : s.memWf = true) : (s.copyError o c code).memWf = true := hs

theorem memWf_lockBox {op o g c scatter L ms X} (hs : s.memWf = true) :
    (s.lockBox op o g c scatter L ms X).memWf = true := by
  unfold lockBox
  dsimp only
  split
  · exact memWf_ite (memWf_contextFatal hs) (memWf_copyError hs)
  · exact memWf_ite (memWf_copyError hs) (memWf_ite hs (memWf_keepCopy (memWf_register hs)))

theorem memWf_takeLayout {op o g c scatter record coords ms X bits} (hs : s.memWf = true) :
    (s.takeLayout op o g c scatter record coords ms X bits).memWf = true := by
  unfold takeLayout
  split
  · exact memWf_copyError hs
  · exact memWf_ite (memWf_copyError hs) (memWf_lockBox (memWf_keepCopy hs))

theorem memWf_readRecord {op o g c scatter record coords ms X} (hs : s.memWf = true) :
    (s.readRecord op o g c scatter record coords ms X).memWf = true := by
  unfold readRecord
  split
  next _ _ e => exact memWf_takeLayout (memWf_of_eq e (memWf_fetchAddrs hs))
  next _ _ _ e => exact memWf_pieceFault (memWf_of_eq e (memWf_fetchAddrs hs)) hs

theorem outWf_execLayoutRecordRead {o} (hs : s.memWf = true) : OutWf (execLayoutRecordRead o s) := by
  unfold execLayoutRecordRead
  split
  · split
    · split
      · split
        · exact hs
        · split
          · exact memWf_readRecord hs
          · exact memWf_lockBox hs
      · exact hs
    · exact hs
  · exact hs

theorem outWf_execFaultQueuePost {die slot} (hs : s.memWf = true) : OutWf (execFaultQueuePost die slot s) := by
  unfold execFaultQueuePost
  split
  · exact hs
  · split
    · exact hs
    · split
      · exact memWf_setDie (memWf_writeNat _ _ _ (memWf_writeBytes _ _ hs))
      · exact hs

theorem memWf_retryPage {ctx pkg page} (hs : s.memWf = true) : (s.retryPage ctx pkg page).1.memWf = true :=
  memWf_foldl hs fun _ _ ht => memWf_foldl ht fun _ _ ht1 => memWf_modOp ht1

theorem outWf_execCopyAck {o r} (hs : s.memWf = true) : OutWf (execCopyAck o r s) := by
  unfold execCopyAck
  split
  · split
    · split
      · split
        · exact memWf_ite hs (memWf_gatedCount hs fun _ ht => memWf_engineCount (memWf_keepCopy ht))
        · exact hs
      · exact hs
    · exact hs
  · exact hs

theorem memWf_writeFlag {op o c A v} (hs : s.memWf = true) : (s.writeFlag op o c A v).memWf = true :=
  memWf_ite hs (memWf_keepCopy (memWf_ite (memWf_writeNat _ _ _ hs) hs))

theorem memWf_copyLand {op o c} (hs : s.memWf = true) : (s.copyLand op o c).memWf = true := by
  unfold copyLand
  refine memWf_finish hs fun _ ht => ?_
  dsimp only
  split
  · exact memWf_count (memWf_modContext ht)
  · exact memWf_modContext ht

theorem outWf_execCopyCompletion {o} (hs : s.memWf = true) : OutWf (execCopyCompletion o s) := by
  unfold execCopyCompletion
  split
  · split
    · split
      · split
        · exact memWf_writeFlag hs
        · exact memWf_copyLand hs
      · exact hs
    · exact hs
  · exact hs

/-! ## System instructions and registers -/

theorem outWf_onPrivileged {i gd body} (hs : s.memWf = true)
    (hbody : ∀ u g a t, t.memWf = true → (body u g a t).memWf = true) : OutWf (onPrivileged i gd s body) := by
  unfold onPrivileged
  split
  · exact trivial
  · split
    · exact trivial
    · exact outWf_ite (memWf_trap hs) (outWf_onStroke hs fun _ _ _ _ ht => hbody _ _ _ _ ht)

theorem outWf_execTrap {g code} (hs : s.memWf = true) : OutWf (execTrap g code s) :=
  outWf_onStroke hs fun _ _ _ _ ht => memWf_trap ht

theorem outWf_execBkpt {g code} (hs : s.memWf = true) : OutWf (execBkpt g code s) :=
  outWf_onStroke hs fun _ _ _ _ ht => memWf_trap ht

theorem outWf_execXret {g} (hs : s.memWf = true) : OutWf (execXret g s) :=
  outWf_onPrivileged hs fun _ _ _ _ ht => memWf_ite (memWf_advance ht) (memWf_ite (memWf_trap ht) (memWf_xretOp ht))

theorem memWf_writeScroll {ctx pkg f} (hs : s.memWf = true) : (s.writeScroll ctx pkg f).memWf = true :=
  memWf_scrollHigh _ _ _ (memWf_modScroll hs)

theorem memWf_writeSys {u g n v} (hs : s.memWf = true) : (s.writeSys u g n v).memWf = true := by
  unfold writeSys
  dsimp only
  split
  · exact memWf_modContext hs
  · exact memWf_modScroll hs
  · exact memWf_writeScroll hs
  · exact memWf_logStrk (memWf_modGroup hs)
  · exact hs
  · exact memWf_modGroup hs

theorem outWf_onSysReg {i gd needs n body} (hs : s.memWf = true)
    (hbody : ∀ u g t, t.memWf = true → (body u g t).memWf = true) : OutWf (onSysReg i gd needs n s body) :=
  outWf_onStroke hs fun _ _ _ _ ht => memWf_ite (memWf_trap ht) (hbody _ _ _ ht)

theorem outWf_execSysrd {g sd n} (hs : s.memWf = true) : OutWf (execSysrd g sd n s) :=
  outWf_onSysReg hs fun _ _ _ ht => memWf_advance (memWf_writeS ht)

theorem outWf_execSyswr {g n sa} (hs : s.memWf = true) : OutWf (execSyswr g n sa s) :=
  outWf_onSysReg hs fun _ _ _ ht => memWf_advance (memWf_writeSys ht)

theorem outWf_execSyswrXlflush {g sa} (hs : s.memWf = true) : OutWf (execSyswrXlflush g sa s) :=
  outWf_onSysReg hs fun _ _ _ ht => memWf_advance (memWf_writeSys ht)

theorem outWf_execSyswrScrridx {g sa} (hs : s.memWf = true) : OutWf (execSyswrScrridx g sa s) :=
  outWf_onSysReg hs fun _ _ _ ht => memWf_advance (memWf_writeSys ht)

theorem outWf_execLogmark {g sa} (hs : s.memWf = true) : OutWf (execLogmark g sa s) :=
  outWf_onStroke hs fun _ _ _ _ ht => memWf_advance (memWf_log _ _ _ _ ht)

theorem outWf_execFretry {g sd sa} (hs : s.memWf = true) : OutWf (execFretry g sd sa s) :=
  outWf_onPrivileged hs fun _ _ _ _ ht => memWf_advance (memWf_writeS (memWf_retryPage ht))

theorem outWf_fretryEnds {i g sa cause} (hs : s.memWf = true) : OutWf (fretryEnds i g sa cause s) :=
  outWf_onPrivileged hs fun _ _ _ _ ht => memWf_contextFatal ht

theorem memWf_postFault {ctx name} (hs : s.memWf = true) : (s.postFault ctx name).memWf = true := by
  unfold postFault
  split
  · exact memWf_tableFault hs
  · split
    · split
      · exact memWf_foreignFault hs
      · exact hs
    · exact hs
  · exact hs

theorem memWf_post {u g sd name code m} (hs : s.memWf = true) : (s.post u g sd name code m).memWf = true := by
  unfold post
  dsimp only
  split
  · exact memWf_ite (memWf_advance (memWf_writeS (memWf_postEvent hs))) (memWf_advance (memWf_writeS hs))
  · split
    · exact memWf_advance (memWf_writeS (memWf_addOp hs))
    · exact memWf_advance (memWf_writeS (memWf_postFault hs))

theorem memWf_postRange {u g m go} (hs : s.memWf = true) (hgo : ∀ x, (go x).memWf = true) :
    (s.postRange u g m go).memWf = true := by
  unfold postRange
  split
  · exact hgo _
  · split
    · exact memWf_raise hs
    · exact memWf_ite (memWf_parkEngine hs) (hgo _)

theorem outWf_execEvpost {g sd nA aA lA code} (hs : s.memWf = true) : OutWf (execEvpost g sd nA aA lA code s) := by
  unfold execEvpost
  refine outWf_onStroke hs fun _ _ _ _ ht => ?_
  dsimp only
  split
  · exact memWf_advance ht
  · split
    · exact memWf_advance (memWf_writeS ht)
    · split
      · exact memWf_postRange ht fun _ => memWf_post ht
      · exact memWf_postRange ht fun _ => memWf_post ht
      · exact memWf_trap ht

/-! ## Events of the machine -/

theorem memWf_reformAll (hs : s.memWf = true) : s.reformAll.memWf = true := hs

theorem outWf_execStrokeReformation (hs : s.memWf = true) : OutWf (execStrokeReformation s) :=
  memWf_ite (memWf_reformAll hs) hs

theorem outWf_execGroupUrgent {gid} (hs : s.memWf = true) : OutWf (execGroupUrgent gid s) := by
  unfold execGroupUrgent
  split
  · exact memWf_ite (memWf_modGroup hs) hs
  · exact hs

theorem outWf_execMeetRelease {gid} (hs : s.memWf = true) : OutWf (execMeetRelease gid s) := memWf_meetRelease hs

theorem memWf_wakeSleeper {gid m} (hs : s.memWf = true) : (s.wakeSleeper gid m).memWf = true := by
  unfold wakeSleeper
  split
  · exact hs
  · exact memWf_ite (memWf_gatedWake hs fun _ ht => memWf_modGroup (memWf_logWake ht)) hs

theorem outWf_execSleepExpiry {gid} (hs : s.memWf = true) : OutWf (execSleepExpiry gid s) := by
  unfold execSleepExpiry
  split
  · exact memWf_ite (memWf_foldl hs fun _ _ ht => memWf_wakeSleeper ht) hs
  · exact hs

theorem memWf_loseRecord {ctx addr} (hs : s.memWf = true) : (s.loseRecord ctx addr).memWf = true := by
  unfold loseRecord
  refine memWf_foldl hs fun _ _ ht => ?_
  dsimp only
  split
  · exact memWf_ite (memWf_append _ _ _ (memWf_modScroll ht)) ht
  · exact ht

theorem outWf_execContextFatalFault {ctx cause addr thread} (hs : s.memWf = true) :
    OutWf (execContextFatalFault ctx cause addr thread s) :=
  memWf_contextFatal (memWf_ite (memWf_loseRecord hs) hs)

theorem outWf_execWatchdogExpiry {gid} (hs : s.memWf = true) : OutWf (execWatchdogExpiry gid s) := by
  unfold execWatchdogExpiry
  split
  · exact memWf_ite (memWf_contextFatal hs) hs
  · exact hs

theorem outWf_execReplayWaitTimeout {ctx cls src} (hs : s.memWf = true) : OutWf (execReplayWaitTimeout ctx cls src s) :=
  memWf_foldl hs fun _ _ ht => memWf_ite (memWf_diverge ht) ht

theorem outWf_execRemoteTimeout {ctx} (hs : s.memWf = true) : OutWf (execRemoteTimeout ctx s) := memWf_contextFatal hs

theorem outWf_execCounterFlush {ctx core} (hs : s.memWf = true) : OutWf (execCounterFlush ctx core s) :=
  memWf_flushCounts hs

theorem memWf_ringOff {launch} (hs : s.memWf = true) : (s.ringOff launch).memWf = true := hs
theorem memWf_countersOff {launch} (hs : s.memWf = true) : (s.countersOff launch).memWf = true := hs

theorem memWf_postTrace {core x b} (hs : s.memWf = true) : (s.postTrace core x b).memWf = true := by
  unfold postTrace
  dsimp only
  split
  · exact hs
  · split
    · split
      · split
        · exact memWf_countersOff hs
        · exact memWf_ite (memWf_count hs) (memWf_ite (memWf_vmWrite _ _ _ _ _ (memWf_vmWrite _ _ _ _ _ hs))
            (memWf_ringOff hs))
      · exact memWf_countersOff hs
    · exact hs

theorem outWf_execTracePost {ctx core visited times} (hs : s.memWf = true) :
    OutWf (execTracePost ctx core visited times s) := by
  unfold execTracePost
  split
  · exact memWf_postTrace (memWf_modCore hs)
  · exact hs

theorem outWf_execSoftErrorCorrected {core} (hs : s.memWf = true) : OutWf (execSoftErrorCorrected core s) := hs

theorem outWf_execUnassignedOpcode {c} (hs : s.memWf = true) : OutWf (execUnassignedOpcode c s) := by
  unfold execUnassignedOpcode
  split
  · exact trivial
  · split
    · exact trivial
    · exact memWf_trap hs

/-! ## Scalar instructions -/

theorem outWf_intRow {i g sd sa b zext f} (hs : s.memWf = true) : OutWf (intRow i g sd sa b zext f s) :=
  outWf_scalarOp hs

theorem outWf_execSmovSetp {g sa} (hs : s.memWf = true) : OutWf (execSmovSetp g sa s) :=
  outWf_onStroke hs fun _ _ _ _ ht => memWf_advance (memWf_foldl (memWf_modGroup ht) fun _ _ ht1 => memWf_logStrk ht1)

/-! ## Vector instructions -/

theorem outWf_vInt {i g nr vd va b f} (hs : s.memWf = true) : OutWf (vInt i g nr vd va b f s) := outWf_vectorOp hs
theorem outWf_vUn {i g nr vd va f} (hs : s.memWf = true) : OutWf (vUn i g nr vd va f s) := outWf_vectorOp hs

theorem outWf_execVmov {g nr ix more vd va} (hs : s.memWf = true) : OutWf (execVmov g nr ix more vd va s) :=
  outWf_ite (outWf_vectorOp hs) (outWf_vectorMulti hs)

theorem outWf_execVmovx {g nr xd va} (hs : s.memWf = true) : OutWf (execVmovx g nr xd va s) :=
  outWf_onStroke hs fun _ _ _ _ ht => memWf_withRegs ht fun _ _ ht1 => memWf_advance (memWf_modGroup ht1)

theorem outWf_execVtos {g nr mode sd va} (hs : s.memWf = true) : OutWf (execVtos g nr mode sd va s) :=
  outWf_onStroke hs fun _ _ _ _ ht => memWf_withRegs ht fun _ _ ht1 => memWf_advance (memWf_writeS ht1)

theorem outWf_execVballot {g nr sd pa} (hs : s.memWf = true) : OutWf (execVballot g nr sd pa s) :=
  outWf_onStroke hs fun _ _ _ _ ht => memWf_advance (memWf_writeS ht)

theorem outWf_execPtest {g nr mode spd pa} (hs : s.memWf = true) : OutWf (execPtest g nr mode spd pa s) :=
  outWf_onStroke hs fun _ _ _ _ ht => memWf_advance (memWf_writeSp ht)

/-! ## Floating-point instructions -/

theorem outWf_vf2 {i g nr ix ty rnd sat vd va vb f} (hs : s.memWf = true) :
    OutWf (vf2 i g nr ix ty rnd sat vd va vb f s) :=
  outWf_vectorOp hs

theorem outWf_vf1 {i g nr ix rnd sat vd va f} (hs : s.memWf = true) : OutWf (vf1 i g nr ix rnd sat vd va f s) :=
  outWf_vectorOp hs

/-! ## Transfers between packages -/

theorem memWf_modConn {ctx pkg reg f} (hs : s.memWf = true) : (s.modConn ctx pkg reg f).memWf = true := hs
theorem memWf_modXfer {o f} (hs : s.memWf = true) : (s.modXfer o f).memWf = true := hs
theorem memWf_pairUp {o x m y} (hs : s.memWf = true) : (s.pairUp o x m y).memWf = true := hs

theorem memWf_landXfer {o} (hs : s.memWf = true) : (s.landXfer o).memWf = true := by
  unfold landXfer
  split
  · exact memWf_finish hs fun _ ht => ht
  · exact hs

theorem memWf_enterXfer {u g sd x locks} (hs : s.memWf = true) : (s.enterXfer u g sd x locks).memWf = true := by
  unfold enterXfer
  dsimp only
  split
  · exact memWf_enterOp hs
  · split
    · exact memWf_pairUp (memWf_modConn (memWf_enterOp hs))
    · exact memWf_modXfer (memWf_modConn (memWf_enterOp hs))
    · exact memWf_modConn (memWf_enterOp hs)

theorem memWf_transfer {u g a send sd T L B reg} (hs : s.memWf = true) :
    (s.transfer u g a send sd T L B reg).memWf = true := by
  unfold transfer
  dsimp only
  split
  · exact memWf_parkEngine hs
  · refine memWf_issueChecks hs fun _ ht => ?_
    split
    · exact memWf_trap ht
    · exact memWf_ite (memWf_parkEngine ht) (memWf_ite (memWf_landXfer (memWf_enterXfer ht)) (memWf_enterXfer ht))

theorem outWf_execTsend {g sd tA lA bA c} (hs : s.memWf = true) : OutWf (execTsend g sd tA lA bA c s) :=
  outWf_onStroke hs fun _ _ _ _ ht => memWf_ite (memWf_advance ht) (memWf_transfer ht)

theorem outWf_execTrecv {g sd tA lA bA c} (hs : s.memWf = true) : OutWf (execTrecv g sd tA lA bA c s) :=
  outWf_onStroke hs fun _ _ _ _ ht => memWf_ite (memWf_advance ht) (memWf_transfer ht)

theorem memWf_putPiece {o op x k data waits} (hs : s.memWf = true) : (s.putPiece o op x k data waits).memWf = true := by
  unfold putPiece
  split
  exact memWf_ite (memWf_holdCount (memWf_modXfer (memWf_writeBytes _ _ hs))) (memWf_engineCount (memWf_modXfer
    (memWf_writeBytes _ _ hs)))

theorem memWf_movePiece {o op x m y k} (hs : s.memWf = true) : (s.movePiece o op x m y k).memWf = true := by
  unfold movePiece
  split
  exact memWf_putPiece (memWf_modXfer hs)

theorem memWf_countMoved {o op x k} (hs : s.memWf = true) : (s.countMoved o op x k).memWf = true := by
  unfold countMoved
  split
  exact memWf_gatedCount hs fun _ ht => memWf_engineCount (memWf_modXfer ht)

theorem outWf_execTransferPiece {o k} (hs : s.memWf = true) : OutWf (execTransferPiece o k s) := by
  unfold execTransferPiece
  split
  · split
    · exact memWf_countMoved hs
    · split
      · split
        · split
          exact memWf_ite (memWf_movePiece hs) (memWf_gatedCount hs fun _ ht => memWf_movePiece ht)
        · exact hs
      · exact hs
  · exact hs

theorem memWf_ackSender {o op x} (hs : s.memWf = true) : (s.ackSender o op x).memWf = true :=
  memWf_gatedCount hs fun _ ht => memWf_engineCount (memWf_modXfer ht)

theorem outWf_execTransferCompletion {o} (hs : s.memWf = true) : OutWf (execTransferCompletion o s) := by
  unfold execTransferCompletion
  split
  · exact memWf_ite (memWf_ite (memWf_landXfer hs) hs) (memWf_ite (memWf_ite (memWf_ackSender hs) (memWf_ite
      (memWf_landXfer hs) hs)) hs)
  · exact hs

theorem memWf_loseTransfers {ctx pkg reg} (hs : s.memWf = true) : (s.loseTransfers ctx pkg reg).memWf = true := hs

theorem memWf_farPiece {o k data} (hs : s.memWf = true) : (s.farPiece o k data).memWf = true := by
  unfold farPiece
  split
  · split
    exact memWf_ite (memWf_putPiece hs) hs
  · exact hs

theorem memWf_farAct {ctx pkg reg act} (hs : s.memWf = true) : (s.farAct ctx pkg reg act).memWf = true := by
  unfold farAct
  split
  · exact hs
  · split
    · exact memWf_ite (memWf_modConn hs) hs
    · exact memWf_ite (memWf_modConn (memWf_loseTransfers hs)) hs
    · split
      · dsimp only
        split
        · exact memWf_modXfer (memWf_modConn hs)
        · exact memWf_modConn hs
      · exact hs
    · split
      · exact memWf_farPiece hs
      · exact hs
    · split
      · exact memWf_ite (memWf_modXfer hs) hs
      · exact hs

/-! ## Host calls -/

theorem outWf_onContext {c code ended act} (hs : s.memWf = true) (hact : ∀ x, (act x).memWf = true) :
    OutWf (onContext s c code ended act) := by
  unfold onContext
  split
  · split
    · exact memWf_reply hs
    · exact memWf_ite (memWf_reply hs) (hact _)
  · exact hs

theorem outWf_onSite {c code pkg act} (hs : s.memWf = true) (hact : ∀ x x1, (act x x1).memWf = true) :
    OutWf (onSite s c code pkg act) := by
  unfold onSite
  refine outWf_onContext hs fun _ => ?_
  split
  · exact memWf_reply hs
  · exact hact _ _

theorem memWf_clearTable {ctx} (hs : s.memWf = true) : (s.clearTable ctx).memWf = true := by
  unfold clearTable
  refine memWf_foldl hs fun _ _ ht => ?_
  split
  · exact memWf_ite (memWf_writePage _ _ _ ht) (memWf_clearRange _ _ ht)
  · exact ht

theorem memWf_openNew {c num a} (hs : s.memWf = true) : (s.openNew c num a).memWf = true := by
  unfold openNew
  split
  · exact memWf_reply hs
  · exact memWf_ite (memWf_reply (memWf_clearTable hs)) (memWf_reply hs)

theorem memWf_openJoin {c ctx a} (hs : s.memWf = true) : (s.openJoin c ctx a).memWf = true := by
  unfold openJoin
  split
  · exact memWf_reply hs
  · exact memWf_ite (memWf_reply hs) (memWf_ite (memWf_reply hs) (memWf_ite (memWf_reply hs) (memWf_reply
      (memWf_modContext hs))))

theorem memWf_answerWaiting {ctx} (hs : s.memWf = true) : (s.answerWaiting ctx).memWf = true := by
  unfold answerWaiting
  refine memWf_foldl hs fun _ _ ht => ?_
  split
  · exact ht
  · split
    · split
      · exact memWf_reply ht
      · exact ht
    · split
      · exact memWf_reply ht
      · exact ht
    · exact memWf_reply ht
    · exact ht

theorem memWf_clearWindows {ctx} (hs : s.memWf = true) : (s.clearWindows ctx).memWf = true := by
  unfold clearWindows
  split
  · exact hs
  · exact memWf_foldl hs fun _ _ ht => memWf_foldl ht fun _ _ ht1 => memWf_clearFrom _ _ ht1

theorem memWf_setAdrift {ctx} (hs : s.memWf = true) : (s.setAdrift ctx).memWf = true := hs

theorem memWf_freeContext {ctx} (hs : s.memWf = true) : (s.freeContext ctx).memWf = true :=
  memWf_retryAccesses (memWf_setAdrift (memWf_update (memWf_clearShared (memWf_clearWindows (memWf_discard
    (memWf_answerWaiting hs))))))

theorem memWf_mapWindow {c x pkg die size seq} (hs : s.memWf = true) :
    (s.mapWindow c x pkg die size seq).memWf = true :=
  memWf_ite (memWf_reply hs) (memWf_ite (memWf_reply hs) (memWf_ite (memWf_reply hs) (memWf_reply (memWf_modSite
    (memWf_clearRange _ _ hs)))))

theorem memWf_windowAccess {a} (hs : s.memWf = true) : (s.windowAccess a).memWf = true := by
  unfold windowAccess
  split
  next t e => exact memWf_of_tryAccess hs e
  · exact memWf_addOp hs

theorem memWf_writeVm {c va b} (hs : s.memWf = true) : (s.writeVm c va b).memWf = true := by
  unfold writeVm
  split
  next _ e => exact memWf_reply (memWf_of_eq e (memWf_vmWrite _ _ _ _ _ hs))
  next _ _ e => exact memWf_reply (memWf_of_eq e (memWf_vmWrite _ _ _ _ _ hs))
  next _ _ _ _ e1 => exact memWf_reply (memWf_of_eq e1 (memWf_vmWrite _ _ _ _ _ hs))

theorem memWf_readVm {c va n} (hs : s.memWf = true) : (s.readVm c va n).memWf = true := by
  unfold readVm
  split <;> exact memWf_reply hs

theorem memWf_sendLaunch {c record service} (hs : s.memWf = true) : (s.sendLaunch c record service).memWf = true := hs
theorem memWf_callName {c target act} (hs : s.memWf = true) : (s.callName c target act).memWf = true := hs

theorem memWf_grant {c i e mask grantee index} (hs : s.memWf = true) :
    (s.grant c i e mask grantee index).memWf = true := by
  unfold grant
  split
  · exact memWf_reply (memWf_putEntry hs)
  · split
    · exact memWf_reply hs
    · split
      · exact memWf_reply hs
      · split
        · exact memWf_reply (memWf_tableFault hs)
        · exact memWf_reply (memWf_putEntry hs)

theorem memWf_exitAt {ctx i e may exit killed} (hs : s.memWf = true) :
    (s.exitAt ctx i e may exit killed).1.memWf = true := by
  unfold exitAt
  split
  · exact hs
  · split
    · exact hs
    · exact memWf_deadEntry hs

theorem memWf_exitStep {c target exit killed} (hs : s.memWf = true) :
    (s.exitStep c target exit killed).1.memWf = true := by
  unfold exitStep
  dsimp only
  split
  · exact hs
  · exact memWf_tableFault hs
  · split
    · split
      · exact hs
      · exact memWf_foreignFault hs
      · exact memWf_exitAt hs
    · exact memWf_exitAt hs

theorem memWf_part {ctx pkg reg} (hs : s.memWf = true) : (s.part ctx pkg reg).memWf = true := by
  unfold part
  split
  · exact memWf_loseTransfers hs
  · exact memWf_modConn (memWf_loseTransfers (memWf_loseTransfers hs))

theorem memWf_bind {ctx pkg reg peer} (hs : s.memWf = true) : (s.bind ctx pkg reg peer).memWf = true := by
  unfold State.bind
  dsimp only
  split
  · exact memWf_modSite (memWf_part hs)
  · exact memWf_modConn (memWf_modConn (memWf_modSite (memWf_part hs)))

theorem memWf_leavePackage {ctx pkg} (hs : s.memWf = true) : (s.leavePackage ctx pkg).memWf = true := by
  unfold leavePackage
  dsimp only
  split
  · exact memWf_update (memWf_modContext (memWf_foldl (memWf_foldl hs fun _ _ ht => memWf_part ht) fun _ _ ht =>
      memWf_clearFrom _ _ ht))
  · exact memWf_update (memWf_modContext (memWf_foldl hs fun _ _ ht => memWf_clearFrom _ _ ht))

theorem memWf_scrollSet {c pkg a} (hs : s.memWf = true) : (s.scrollSet c pkg a).memWf = true := by
  unfold scrollSet
  dsimp only
  split
  · exact memWf_reply hs
  · split
    · exact memWf_reply hs
    · exact memWf_reply (memWf_ite (memWf_append _ _ _ (memWf_scrollHigh _ _ _ (memWf_modScroll hs)))
        (memWf_scrollHigh _ _ _ (memWf_modScroll hs)))

theorem outWf_execHostOpen {c num args} (hs : s.memWf = true) : OutWf (execHostOpen c num args s) := by
  unfold execHostOpen
  split
  · split
    · exact memWf_openNew hs
    · exact memWf_openJoin hs
  · exact hs

theorem outWf_execHostClose {c} (hs : s.memWf = true) : OutWf (execHostClose c s) :=
  outWf_onContext hs fun _ => memWf_ite (memWf_reply hs) (memWf_ite (memWf_reply (memWf_freeContext hs)) (memWf_reply
    (memWf_leavePackage hs)))

theorem outWf_execHostCloseKill {c} (hs : s.memWf = true) : OutWf (execHostCloseKill c s) :=
  outWf_onContext hs fun _ => memWf_reply (memWf_contextFatal hs)

theorem outWf_execHostMap {c pkg die size seq} (hs : s.memWf = true) : OutWf (execHostMap c pkg die size seq s) :=
  outWf_onSite hs fun _ _ => memWf_mapWindow hs

theorem outWf_execHostWrite {c ms addr data} (hs : s.memWf = true) : OutWf (execHostWrite c ms addr data s) := by
  unfold execHostWrite
  refine outWf_onContext hs fun _ => ?_
  split
  · exact memWf_reply hs
  · split
    · exact memWf_reply hs
    · split
      · exact memWf_writeVm hs
      · exact memWf_windowAccess hs

theorem outWf_execHostRead {c ms addr len} (hs : s.memWf = true) : OutWf (execHostRead c ms addr len s) := by
  unfold execHostRead
  refine outWf_onContext hs fun _ => ?_
  split
  · exact memWf_reply hs
  · split
    · exact memWf_reply hs
    · split
      · exact memWf_readVm hs
      · exact memWf_windowAccess hs

theorem outWf_execHostLaunch {c record} (hs : s.memWf = true) : OutWf (execHostLaunch c record s) :=
  outWf_onContext hs fun _ => memWf_sendLaunch hs

theorem outWf_execHostServiceLaunch {c record} (hs : s.memWf = true) : OutWf (execHostServiceLaunch c record s) :=
  outWf_onContext hs fun _ => memWf_sendLaunch hs

theorem outWf_execNameWake {c target} (hs : s.memWf = true) : OutWf (execNameWake c target s) :=
  outWf_onContext hs fun _ => memWf_callName hs

theorem outWf_execNameSignal {c target bits} (hs : s.memWf = true) : OutWf (execNameSignal c target bits s) :=
  outWf_onContext hs fun _ => memWf_callName hs

theorem outWf_execNameSignalKill {c target} (hs : s.memWf = true) : OutWf (execNameSignalKill c target s) :=
  outWf_onContext hs fun _ => memWf_callName hs

theorem outWf_execNameDeposit {c target k value} (hs : s.memWf = true) : OutWf (execNameDeposit c target k value s) :=
  outWf_onContext hs fun _ => memWf_callName hs

theorem outWf_execNameJoin {c target reap timeout} (hs : s.memWf = true) :
    OutWf (execNameJoin c target reap timeout s) :=
  outWf_onContext hs fun _ => memWf_callName hs

theorem outWf_execNameGrant {c target mask grantee index} (hs : s.memWf = true) :
    OutWf (execNameGrant c target mask grantee index s) := by
  unfold execNameGrant
  refine outWf_onContext hs fun _ => ?_
  split
  · exact memWf_reply hs
  · exact memWf_reply (memWf_tableFault hs)
  · exact memWf_ite (memWf_reply hs) (memWf_grant hs)

theorem outWf_execNameExit {c target exit killed} (hs : s.memWf = true) : OutWf (execNameExit c target exit killed s) :=
  outWf_onContext hs fun _ => memWf_gated _ _ _ _ hs (memWf_reply (memWf_log _ _ _ _ (memWf_exitStep hs)))

theorem outWf_execConnect {c pkg reg peer} (hs : s.memWf = true) : OutWf (execConnect c pkg reg peer s) := by
  unfold execConnect
  refine outWf_onSite hs fun _ _ => ?_
  dsimp only
  split
  · exact memWf_reply (memWf_modSite (memWf_part hs))
  · exact memWf_ite (memWf_reply (memWf_bind hs)) (memWf_reply hs)

theorem outWf_execScrollCtl {c pkg args} (hs : s.memWf = true) : OutWf (execScrollCtl c pkg args s) :=
  outWf_onSite hs fun _ _ => memWf_scrollSet hs

theorem outWf_execScrollCtlKill {c pkg} (hs : s.memWf = true) : OutWf (execScrollCtlKill c pkg s) :=
  outWf_onSite hs fun _ _ => memWf_ite (memWf_reply (memWf_contextFatal hs)) (memWf_reply hs)

theorem outWf_execScrollCtlContinue {c pkg} (hs : s.memWf = true) : OutWf (execScrollCtlContinue c pkg s) :=
  outWf_onSite hs fun _ _ => memWf_ite (memWf_reply (memWf_modScroll hs)) (memWf_reply hs)

theorem outWf_execEventRead {c max} (hs : s.memWf = true) : OutWf (execEventRead c max s) :=
  outWf_onContext hs fun _ => memWf_reply (memWf_modContext hs)

theorem outWf_execDumpRead {c off len} (hs : s.memWf = true) : OutWf (execDumpRead c off len s) := by
  unfold execDumpRead
  refine outWf_onContext hs fun _ => ?_
  split
  · exact memWf_reply hs
  · split <;> exact memWf_reply hs

theorem outWf_execBadcallMessage {bytes} (hs : s.memWf = true) : OutWf (execBadcallMessage bytes s) :=
  memWf_ite (memWf_reply hs) hs

end Sys2Proof.Machine.State
end

section
/-! # What the other instructions keep: memory in its canonical form -/

namespace Sys2Proof.Machine.State

variable {s : State}

/-! ## Memory instructions -/

theorem memWf_finishLanes {u bad addr len} (hs : s.memWf = true) : (s.finishLanes u bad addr len).memWf = true := by
  unfold finishLanes
  dsimp only
  split <;> exact memWf_split hs

theorem memWf_accessLanes {u g cs addr len act} (hact : ∀ x, (act x).memWf = true) :
    (s.accessLanes u g cs addr len act).memWf = true := by
  unfold accessLanes
  dsimp only
  split
  · exact memWf_contextFatal (hact _)
  · exact memWf_finishLanes (hact _)

theorem outWf_vectorLoad {i gd ms sz data base vo off reuse} (hs : s.memWf = true) :
    OutWf (vectorLoad i gd ms sz data base vo off reuse s) := by
  unfold vectorLoad
  refine outWf_onStroke hs fun _ _ _ _ ht => memWf_withRegs ht fun _ _ ht1 => memWf_withRegs ht1 fun _ _ ht2 =>
    memWf_accessLanes fun _ => ?_
  dsimp only
  split
  · exact memWf_ite ht2 (memWf_foldl ht2 fun _ _ ht3 => memWf_request ht3)
  · exact memWf_retireV (memWf_ite ht2 (memWf_foldl ht2 fun _ _ ht3 => memWf_request ht3))

theorem outWf_execVst {g ms sz o data base vo off} (hs : s.memWf = true) :
    OutWf (execVst g ms sz o data base vo off s) :=
  outWf_onStroke hs fun _ _ _ _ ht => memWf_withRegs ht fun _ _ ht1 => memWf_accessLanes fun _ => memWf_foldl ht1
    fun _ _ ht2 => memWf_writeNat _ _ _ (memWf_request ht2)

theorem outWf_execSld {g ms sz o sd base off} (hs : s.memWf = true) : OutWf (execSld g ms sz o sd base off s) := by
  unfold execSld
  refine outWf_onStroke hs fun _ _ _ _ ht => ?_
  dsimp only
  split
  · exact memWf_raise ht
  · exact memWf_advance (memWf_writeS (memWf_request ht))

theorem outWf_execSst {g ms sz o sd base off} (hs : s.memWf = true) : OutWf (execSst g ms sz o sd base off s) := by
  unfold execSst
  refine outWf_onStroke hs fun _ _ _ _ ht => ?_
  dsimp only
  split
  · exact memWf_advance ht
  · split
    · exact memWf_raise ht
    · exact memWf_advance (memWf_writeNat _ _ _ (memWf_request ht))

theorem memWf_atomic {fn n key a b} (hs : s.memWf = true) : (s.atomic fn n key a b).1.memWf = true :=
  memWf_writeNat _ _ _ hs

theorem memWf_atomicLanes {g ms fn fetch n addr subject a b first fuel lanes} (hs : s.memWf = true) :
    (atomicLanes g ms fn fetch n addr subject a b first fuel lanes s).1.memWf = true := by
  induction fuel generalizing first lanes s with
  | zero => exact hs
  | succ fuel ih =>
    unfold atomicLanes
    split
    · exact hs
    · extract_lets r t e
      have ht : t.memWf = true := memWf_logAtom (memWf_atomic (memWf_request hs))
      split
      · exact memWf_diverge hs
      · split
        · exact ht
        · exact ih ht

theorem memWf_stay {u m} (hs : s.memWf = true) : (s.stay u m).memWf = true := memWf_ite hs (memWf_modGroup hs)

theorem outWf_execVatom {g fn fetch ms b64 o data base vo off} (hs : s.memWf = true) :
    OutWf (execVatom g fn fetch ms b64 o data base vo off s) :=
  outWf_onStroke hs fun _ _ _ _ ht => memWf_withRegs ht fun _ _ ht1 => memWf_stay
    (memWf_accessLanes fun _ => memWf_orFlags (memWf_ite (memWf_writeV (memWf_atomicLanes ht1))
    (memWf_atomicLanes ht1)))

theorem outWf_execSatom {g fn fetch ms b64 o sd base off} (hs : s.memWf = true) :
    OutWf (execSatom g fn fetch ms b64 o sd base off s) := by
  unfold execSatom
  refine outWf_onStroke hs fun _ _ _ _ ht => ?_
  dsimp only
  split
  · exact memWf_advance ht
  · split
    · exact memWf_raise ht
    · refine memWf_advance ?_
      split
      · exact memWf_writeS (memWf_orFlags (memWf_logAtom (memWf_atomic (memWf_request ht))))
      · exact memWf_orFlags (memWf_logAtom (memWf_atomic (memWf_request ht)))

theorem memWf_setStkp {u g v} (hs : s.memWf = true) : (s.setStkp u g v).memWf = true :=
  memWf_logStrk (memWf_modGroup hs)

theorem outWf_execSpushv {g data n} (hs : s.memWf = true) : OutWf (execSpushv g data n s) := by
  unfold execSpushv
  refine outWf_onStroke hs fun _ _ _ _ ht => ?_
  dsimp only
  split
  · exact memWf_trap ht
  · exact memWf_withRegs ht fun _ _ ht1 => memWf_advance (memWf_setStkp (memWf_foldl ht1 fun _ _ ht2 => memWf_foldl ht2
      fun _ _ ht3 => memWf_writeNat _ _ _ ht3))

theorem outWf_execSpopv {g data n} (hs : s.memWf = true) : OutWf (execSpopv g data n s) :=
  outWf_onStroke hs fun _ _ _ _ ht => memWf_ite (memWf_trap ht) (memWf_withRegs ht fun _ _ ht1 => memWf_advance
    (memWf_setStkp (memWf_writeV ht1)))

theorem outWf_execFence {g o sc} (hs : s.memWf = true) : OutWf (execFence g o sc s) :=
  outWf_onStroke hs fun _ _ _ _ ht => memWf_advance ht

/-! ## Reset and boot -/

theorem memWf_alone : s.alone.memWf = true := rfl
theorem memWf_dropCalls {p} (hs : s.memWf = true) : (s.dropCalls p).memWf = true := hs

theorem memWf_dropPackage {p} (hs : s.memWf = true) : (s.dropPackage p).memWf = true :=
  memWf_update (memWf_foldl (memWf_foldl (memWf_foldl (memWf_dropCalls hs) fun _ _ ht => memWf_contextFatal ht)
    fun _ _ ht => memWf_freeContext ht) fun _ _ ht => memWf_leavePackage ht)

theorem memWf_without {p} (hs : s.memWf = true) : (s.without p).memWf = true :=
  memWf_ite (memWf_dropPackage hs) memWf_alone

theorem memWf_leaveDomain {part} (hs : s.memWf = true) : (s.leaveDomain part).memWf = true := by
  unfold leaveDomain
  split
  · exact memWf_ite (memWf_without hs) hs
  · exact hs

theorem memWf_domainFor {pkg} (hs : s.memWf = true) : (s.domainFor pkg).memWf = true :=
  memWf_ite (memWf_ite (memWf_without hs) hs) memWf_alone

theorem memWf_shows {part b} (hs : s.memWf = true) : (s.shows part b).memWf = true := hs

theorem memWf_bootOn {rootcplx image pkg found} (hs : s.memWf = true) :
    (s.bootOn rootcplx image pkg found).memWf = true :=
  memWf_update (memWf_domainFor hs)

theorem memWf_boot {rootcplx image stacksOk pkg found} (hs : s.memWf = true) :
    (s.boot rootcplx image stacksOk pkg found).memWf = true := by
  unfold boot
  dsimp only
  split
  · exact memWf_shows (memWf_leaveDomain hs)
  · exact memWf_shows (memWf_bootOn (memWf_leaveDomain hs))

theorem outWf_execPackageReset {rootcplx image stacksOk pkg found} (hs : s.memWf = true) :
    OutWf (execPackageReset rootcplx image stacksOk pkg found s) :=
  memWf_boot hs

theorem outWf_execGovernorTick {island power temp} (hs : s.memWf = true) :
    OutWf (execGovernorTick island power temp s) :=
  memWf_ite hs (memWf_setIsland hs)

theorem outWf_execCriticalTemperature {j} (hs : s.memWf = true) : OutWf (execCriticalTemperature j s) :=
  memWf_ite hs (memWf_update (memWf_dropCalls (memWf_foldl hs fun _ _ ht => memWf_contextFatal ht)))

/-! ## Rings -/

theorem memWf_putRingBit {key o i b} (hs : s.memWf = true) : (s.putRingBit key o i b).memWf = true :=
  memWf_writeByte _ _ hs

theorem memWf_ringAnswer {u g ms A w sd a b} (hs : s.memWf = true) : (s.ringAnswer u g ms A w sd a b).memWf = true := by
  unfold ringAnswer
  dsimp only
  split
  · exact memWf_afterWrites (memWf_advance (memWf_returnS (memWf_returnS (memWf_modGroup (memWf_logWake
      (memWf_logAtom hs))))))
  · exact memWf_advance (memWf_writeS (memWf_writeS (memWf_logAtom hs)))

theorem memWf_watchBlock {u key o} (hs : s.memWf = true) : (s.watchBlock u key o).memWf = true := hs

theorem memWf_ringTake {u g i isPeek once ms sd sa} (hs : s.memWf = true) :
    (s.ringTake u g i isPeek once ms sd sa).memWf = true := by
  unfold ringTake
  dsimp only
  split
  · exact memWf_raise hs
  · split
    · exact memWf_ringAnswer (memWf_writeNat _ _ _ hs)
    · split
      · exact memWf_ite (memWf_ringAnswer (memWf_writeNat _ _ _ hs)) (memWf_ite (memWf_watchBlock hs) (memWf_parkStroke
          (memWf_watchBlock hs)))
      · exact memWf_ringAnswer (memWf_writeNat _ _ _ hs)

theorem memWf_of_ringSweep {u g ms o hi fuel v} {r : State × Nat} (hs : s.memWf = true)
    (e : ringSweep u g ms o hi fuel v s = .ok r) : r.1.memWf = true := by
  induction fuel generalizing v s with
  | zero => exact Except.ok.inj e ▸ hs
  | succ fuel ih =>
    unfold ringSweep at e
    split at e
    · exact Except.ok.inj e ▸ hs
    · split at e
      · cases e
      · split at e
        · exact ih (memWf_putRingBit hs) e
        · exact Except.ok.inj e ▸ hs

theorem memWf_of_ringCommit {u g ms key o i isRel} {r : State × Nat} (hs : s.memWf = true)
    (e : s.ringCommit u g ms key o i isRel = .ok r) : r.1.memWf = true := by
  unfold ringCommit at e
  dsimp only at e
  split at e
  · exact Except.ok.inj e ▸ memWf_writeNat _ _ _ hs
  · split at e
    · cases e
    · split at e
      · exact Except.ok.inj e ▸ memWf_writeNat _ _ _ hs
      · split at e
        · cases e
        next t v ht => exact Except.ok.inj e ▸ memWf_writeNat _ _ _ (memWf_of_ringSweep (memWf_putRingBit hs) ht)

theorem memWf_ringPut {u g isRel ms sd sa sb} (hs : s.memWf = true) :
    (s.ringPut u g isRel ms sd sa sb).memWf = true := by
  unfold ringPut
  extract_lets A done
  have hd : ∀ t r, t.memWf = true → (done t r).memWf = true :=
    fun t r ht => memWf_advance (memWf_writeS (memWf_logAtom ht))
  split
  · exact memWf_raise hs
  · extract_lets o
    split
    · exact hd _ _ (memWf_writeNat _ _ _ hs)
    · split
      · exact memWf_raise hs
      next t r e => exact hd _ _ (memWf_of_ringCommit hs e)

theorem outWf_execRgacq {g once scp ms sd sa} (hs : s.memWf = true) : OutWf (execRgacq g once scp ms sd sa s) :=
  outWf_onStroke hs fun _ _ _ _ ht => memWf_ringTake ht

theorem outWf_execRgpeek {g once scp ms sd sa} (hs : s.memWf = true) : OutWf (execRgpeek g once scp ms sd sa s) :=
  outWf_onStroke hs fun _ _ _ _ ht => memWf_ringTake ht

theorem outWf_execRgcommit {g scp ms sd sa sb} (hs : s.memWf = true) : OutWf (execRgcommit g scp ms sd sa sb s) :=
  outWf_onStroke hs fun _ _ _ _ ht => memWf_ite (memWf_advance ht) (memWf_ringPut ht)

theorem outWf_execRgrel {g scp ms sd sa sb} (hs : s.memWf = true) : OutWf (execRgrel g scp ms sd sa sb s) :=
  outWf_onStroke hs fun _ _ _ _ ht => memWf_ringPut ht

/-! ## Services -/

theorem memWf_depositReply {ctx target issuer k v} (hs : s.memWf = true) :
    (s.depositReply ctx target issuer k v).memWf = true := by
  unfold depositReply
  refine memWf_log _ _ _ _ ?_
  dsimp only
  split
  · split
    · exact hs
    · exact memWf_groupRow hs
  · exact hs
  · exact memWf_tableFault hs

theorem memWf_serve {post operation status done move} (hs : s.memWf = true)
    (hmove : ∀ op p q t, t.memWf = true → (move op p q t).1.memWf = true) :
    (s.serve post operation status done move).memWf = true := by
  unfold serve
  split
  · exact hs
  · split
    · dsimp only
      exact memWf_ite (memWf_gated _ _ _ _ hs (memWf_dropOp (memWf_depositReply (hmove _ _ _ _ hs)))) hs
    · exact hs

theorem memWf_intoBuffer {data op p q} (hs : s.memWf = true) : (s.intoBuffer data op p q).1.memWf = true :=
  memWf_vmWrite _ _ _ _ _ hs

theorem memWf_fromBuffer {len op p q} (hs : s.memWf = true) : (s.fromBuffer len op p q).1.memWf = true := hs

theorem outWf_execSvcReadBlocks {post status done data} (hs : s.memWf = true) :
    OutWf (execSvcReadBlocks post status done data s) :=
  memWf_serve hs fun _ _ _ _ ht => memWf_intoBuffer ht

theorem outWf_execSvcWriteBlocks {post status done} (hs : s.memWf = true) :
    OutWf (execSvcWriteBlocks post status done s) :=
  memWf_serve hs fun _ _ _ _ ht => memWf_fromBuffer ht

theorem outWf_execSvcFlush {post status} (hs : s.memWf = true) : OutWf (execSvcFlush post status s) :=
  memWf_serve hs fun _ _ _ _ ht => ht

theorem outWf_execSvcSendFrame {post status done} (hs : s.memWf = true) : OutWf (execSvcSendFrame post status done s) :=
  memWf_serve hs fun _ _ _ _ ht => memWf_fromBuffer ht

theorem outWf_execSvcPostReceive {post status data} (hs : s.memWf = true) :
    OutWf (execSvcPostReceive post status data s) := by
  unfold execSvcPostReceive
  split
  · split
    · exact memWf_serve hs fun _ _ _ _ ht => memWf_intoBuffer ht
    · exact hs
  · exact hs

/-! ## Waits and barriers -/

theorem memWf_waitReturn {u g sv k w changed} (hs : s.memWf = true) : (s.waitReturn u g sv k w changed).memWf = true :=
  memWf_writeSp (memWf_writeS hs)

theorem memWf_watchSector {u sector} (hs : s.memWf = true) : (s.watchSector u sector).memWf = true := hs
theorem memWf_reread {x} (hs : s.memWf = true) : (s.reread x).memWf = true := memWf_request hs
theorem memWf_watchAgain {gid fibre} (hs : s.memWf = true) : (s.watchAgain gid fibre).memWf = true := hs

theorem outWf_execWaitw {g acq ms b64 base sv sc st spd off} (hs : s.memWf = true) :
    OutWf (execWaitw g acq ms b64 base sv sc st spd off s) := by
  unfold execWaitw
  refine outWf_onStroke hs fun _ _ _ _ ht => ?_
  dsimp only
  split
  · exact memWf_raise ht
  · exact memWf_ite (memWf_advance (memWf_waitReturn (memWf_request ht))) (memWf_parkStroke (memWf_watchSector
      (memWf_request ht)))

theorem memWf_endWatch {gid fibre x byDeadline} (hs : s.memWf = true) :
    (s.endWatch gid fibre x byDeadline).memWf = true :=
  memWf_gatedWake hs fun _ ht => memWf_afterWrites (memWf_update (memWf_resume (memWf_writeSp (memWf_returnS
    (memWf_logWake (memWf_reread ht))))))

theorem outWf_execWaitwWake {gid fibre} (hs : s.memWf = true) : OutWf (execWaitwWake gid fibre s) := by
  unfold execWaitwWake
  split
  · exact memWf_ite (memWf_ite (memWf_endWatch hs) (memWf_watchAgain (memWf_reread hs))) hs
  · exact hs

theorem outWf_execWaitwTimeout {gid fibre} (hs : s.memWf = true) : OutWf (execWaitwTimeout gid fibre s) := by
  unfold execWaitwTimeout
  split
  · exact memWf_ite (memWf_endWatch hs) hs
  · exact hs

theorem memWf_arriveBarrier {u g} (hs : s.memWf = true) : (s.arriveBarrier u g).memWf = true := hs
theorem memWf_parkBarrier {u} (hs : s.memWf = true) : (s.parkBarrier u).memWf = true := hs

theorem outWf_execBara {g} (hs : s.memWf = true) : OutWf (execBara g s) :=
  outWf_onStroke hs fun _ _ _ _ ht => memWf_barrierCheck (memWf_advance (memWf_arriveBarrier ht))

theorem outWf_execBarw {g} (hs : s.memWf = true) : OutWf (execBarw g s) := by
  unfold execBarw
  refine outWf_onStroke hs fun _ _ _ _ ht => ?_
  split
  · exact memWf_ite (memWf_parkBarrier ht) (memWf_advance ht)
  · exact memWf_advance ht

theorem outWf_execBar {g} (hs : s.memWf = true) : OutWf (execBar g s) :=
  outWf_onStroke hs fun _ _ _ _ ht => memWf_barrierCheck (memWf_parkBarrier (memWf_arriveBarrier ht))

theorem memWf_cbAccess {u g cl A writes magic act} (hs : s.memWf = true)
    (hact : ∀ n n1 t, t.memWf = true → (act n n1 t).memWf = true) :
    (s.cbAccess u g cl A writes magic act).memWf = true := by
  unfold cbAccess
  split
  · exact memWf_raise hs
  · exact memWf_ite (memWf_trap hs) (hact _ _ _ hs)

theorem outWf_execCbinit {g cl base qa qk off} (hs : s.memWf = true) : OutWf (execCbinit g cl base qa qk off s) :=
  outWf_onStroke hs fun _ _ _ _ ht => memWf_ite (memWf_advance ht) (memWf_cbAccess ht fun _ _ _ ht1 => memWf_ite
    (memWf_trap ht1) (memWf_advance (memWf_logAtom (memWf_writeCb ht1))))

theorem memWf_cbStroke {u g cl A key o tok o'} (hs : s.memWf = true) :
    (s.cbStroke u g cl A key o tok o').memWf = true := by
  unfold cbStroke
  refine memWf_advance (memWf_cbCommit ?_)
  split
  · exact memWf_writeS (memWf_logAtom hs)
  · exact memWf_logAtom hs

theorem outWf_execCbexpect {g arrive scp cl base cnt off} (hs : s.memWf = true) :
    OutWf (execCbexpect g arrive scp cl base cnt off s) :=
  outWf_onStroke hs fun _ _ _ _ ht => memWf_ite (memWf_advance ht) (memWf_cbAccess ht fun _ _ _ ht1 => memWf_cbStroke
    ht1)

theorem outWf_execCbarrive {g ack scp cl base tok off} (hs : s.memWf = true) :
    OutWf (execCbarrive g ack scp cl base tok off s) :=
  outWf_onStroke hs fun _ _ _ _ ht => memWf_ite (memWf_advance ht) (memWf_cbAccess ht fun _ _ _ ht1 => memWf_cbStroke
    ht1)

theorem outWf_execCbwait {g scp cl base tok off} (hs : s.memWf = true) : OutWf (execCbwait g scp cl base tok off s) :=
  outWf_onStroke hs fun _ _ _ _ ht => memWf_cbAccess ht fun _ _ _ ht1 => memWf_ite (memWf_advance ht1)
    (memWf_parkStroke (memWf_writeCb (memWf_logAtom ht1)))

theorem outWf_execCbtest {g scp cl spd sf base tok off} (hs : s.memWf = true) :
    OutWf (execCbtest g scp cl spd sf base tok off s) :=
  outWf_onStroke hs fun _ _ _ _ ht => memWf_cbAccess ht fun _ _ _ ht1 => memWf_advance (memWf_writeS
    (memWf_writeSp ht1))

theorem outWf_execRlock {g ms base len hd off} (hs : s.memWf = true) : OutWf (execRlock g ms base len hd off s) := by
  unfold execRlock
  refine outWf_onStroke hs fun _ _ _ _ ht => ?_
  dsimp only
  split
  · exact memWf_advance (memWf_writeS ht)
  · split
    · exact memWf_raise ht
    · exact memWf_raise ht
    · exact memWf_ite (memWf_parkEngine ht) (memWf_ite (memWf_advance (memWf_writeS ht)) (memWf_advance
        (memWf_writeS ht)))

theorem outWf_execRunlock {g hd} (hs : s.memWf = true) : OutWf (execRunlock g hd s) :=
  outWf_onStroke hs fun _ _ _ _ ht => memWf_ite (memWf_advance (memWf_retryDone (memWf_blotUnlock ht)))
    (memWf_advance ht)

/-! ## Tasks -/

theorem memWf_enterTasks {die g entry tag addr fs} (hs : s.memWf = true) :
    (s.enterTasks die g entry tag addr fs).memWf = true := by
  induction fs generalizing s with
  | nil => exact hs
  | cons f fs ih => exact ih (memWf_modDie hs)

theorem outWf_execTspawn {g tag base vo off} (hs : s.memWf = true) : OutWf (execTspawn g tag base vo off s) := by
  unfold execTspawn
  refine outWf_onStroke hs fun _ _ _ _ ht => memWf_withRegs ht fun _ _ ht1 => ?_
  dsimp only
  split
  · exact memWf_trap ht1
  · split
    · exact memWf_contextFatal ht1
    · exact memWf_ite (memWf_parkEngine ht1) (memWf_advance (memWf_enterTasks ht1))

theorem memWf_postTag {die ctx tag} (hs : s.memWf = true) : (s.postTag die ctx tag).memWf = true := hs

theorem outWf_execTpost {g pkg sa} (hs : s.memWf = true) : OutWf (execTpost g pkg sa s) :=
  outWf_onStroke hs fun _ _ _ _ ht => memWf_advance (memWf_ite ht (memWf_foldl ht fun _ _ ht1 => memWf_postTag ht1))

theorem outWf_execTdone {g} (hs : s.memWf = true) : OutWf (execTdone g s) := by
  unfold execTdone
  refine outWf_onStroke hs fun _ _ _ _ ht => ?_
  split
  · exact memWf_advance ht
  · split
    · exact memWf_advance ht
    · split
      · exact memWf_raise ht
      · exact memWf_advance (memWf_setDone (memWf_logAtom ht))

theorem outWf_execWdnext {g sa} (hs : s.memWf = true) : OutWf (execWdnext g sa s) := by
  unfold execWdnext
  refine outWf_onStroke hs fun _ _ _ _ ht => ?_
  dsimp only
  split
  · exact memWf_advance ht
  · split
    · exact memWf_parkEngine ht
    · split
      · exact memWf_raise ht
      · exact memWf_ite (memWf_trap ht) (memWf_advance (memWf_addOp ht))

theorem memWf_answerTile {o op k l} (hs : s.memWf = true) : (s.answerTile o op k l).memWf = true :=
  memWf_dropOp (memWf_modLaunch (memWf_writeNat _ _ _ (memWf_log _ _ _ _ hs)))

theorem outWf_execWdAnswer {o} (hs : s.memWf = true) : OutWf (execWdAnswer o s) := by
  unfold execWdAnswer
  split
  · split
    · split
      · exact memWf_ite (memWf_gated _ _ _ _ hs (memWf_answerTile hs)) hs
      · exact hs
    · exact hs
  · exact hs

/-! ## Every instruction, event and call -/

/-- Instruction by instruction: those of one shared meaning together. -/
theorem outWf_exec {i} (hs : s.memWf = true) : OutWf (exec i s) := by
  unfold exec
  cases i
  case smov | smovGetp | smovi | saddi | ssel | sbfx | sbfi | sclz | spopc | sfadd | sfmul | sfma | sfcvt =>
    exact outWf_scalarOp hs
  case smovSetp => exact outWf_execSmovSetp hs
  case sadd | ssub | smul | smulhi | sdiv | srem | sand | sor | sxor | sshl | sshr | sshra | smin | smax | slea =>
    exact outWf_intRow hs
  case scmp | splog | sfcmp => exact outWf_scalarPred hs
  case br | jmp => exact outWf_uniformBranch hs
  case vbr => exact outWf_execVbr hs
  case jmpr => exact outWf_registerTransfer (fun _ _ _ ht => ht) hs
  case call => exact outWf_execCall hs
  case callr => exact outWf_registerTransfer (fun _ _ _ ht => memWf_writeS ht) hs
  case ret => exact outWf_registerTransfer (fun _ _ _ ht => memWf_count ht) hs
  case meet => exact outWf_execMeet hs
  case fend => exact outWf_execFend hs
  case gexit => exact outWf_execGexit hs
  case yield => exact outWf_execYield hs
  case sleep => exact outWf_execSleep hs
  case nop => exact outWf_execNop hs
  case vmov => exact outWf_execVmov hs
  case vmovi | vstx | viota | vmad | vsel | vbfx | vbfi | vperm | vshfl | qswap | qbcast | vred | vscan | stov | vfma
      | vfabs | vfneg | vfscl | vfexpo | vcvt | vpack2 | vqpack | vqunpk | vdot2 | vdot4 =>
    exact outWf_vectorOp hs
  case vmovx => exact outWf_execVmovx hs
  case vadd | vsub | vmul | vmulhi | vdiv | vrem | vand | vor | vxor | vshl | vshr | vshra | vmin | vmax | vfmin |
      vfmax =>
    exact outWf_vInt hs
  case vnot | vabs | vneg | vclz | vpopc | vfclass => exact outWf_vUn hs
  case vcmp | vplog | vfcmp => exact outWf_predOp hs
  case vballot => exact outWf_execVballot hs
  case vtos => exact outWf_execVtos hs
  case ptest => exact outWf_execPtest hs
  case vfadd | vfsub | vfmul | vfdiv => exact outWf_vf2 hs
  case vfrcp | vfrsq | vfsqrt | vfexp2 | vflog2 => exact outWf_vf1 hs
  case vunpack2 | vpack4 | vunpack4 => exact outWf_vectorMulti hs
  case vld | vldc => exact outWf_vectorLoad hs
  case vst => exact outWf_execVst hs
  case sld => exact outWf_execSld hs
  case sst => exact outWf_execSst hs
  case vatom => exact outWf_execVatom hs
  case satom => exact outWf_execSatom hs
  case spushv => exact outWf_execSpushv hs
  case spopv => exact outWf_execSpopv hs
  case fence => exact outWf_execFence hs
  case waitw => exact outWf_execWaitw hs
  case bar => exact outWf_execBar hs
  case bara => exact outWf_execBara hs
  case barw => exact outWf_execBarw hs
  case cbinit => exact outWf_execCbinit hs
  case cbexpect => exact outWf_execCbexpect hs
  case cbarrive => exact outWf_execCbarrive hs
  case cbwait => exact outWf_execCbwait hs
  case cbtest => exact outWf_execCbtest hs
  case rlock => exact outWf_execRlock hs
  case runlock => exact outWf_execRunlock hs
  case cpy => exact outWf_execCpy hs
  case cpyt => exact outWf_execCpyt hs
  case cpym => exact outWf_execCpym hs
  case cpytest => exact outWf_execCpytest hs
  case macq => exact outWf_execMacq hs
  case macqTeam => exact outWf_execMacqTeam hs
  case mrel => exact outWf_execMrel hs
  case mgrow => exact outWf_execMgrow hs
  case mzero => exact outWf_execMzero hs
  case mloop => exact outWf_execMloop hs
  case msacc => exact outWf_execMsacc hs
  case mldacc => exact outWf_execMldacc hs
  case mstacc => exact outWf_execMstacc hs
  case tsend => exact outWf_execTsend hs
  case trecv => exact outWf_execTrecv hs
  case nself => exact outWf_execNself hs
  case nwake | nsignal | nsignalKill | ndeposit => exact outWf_nameStroke hs
  case njoin => exact outWf_execNjoin hs
  case npark => exact outWf_execNpark hs
  case nstat => exact outWf_execNstat hs
  case tspawn => exact outWf_execTspawn hs
  case tpost => exact outWf_execTpost hs
  case tdone => exact outWf_execTdone hs
  case rgacq => exact outWf_execRgacq hs
  case rgcommit => exact outWf_execRgcommit hs
  case rgpeek => exact outWf_execRgpeek hs
  case rgrel => exact outWf_execRgrel hs
  case wdnext => exact outWf_execWdnext hs
  case launch => exact outWf_execLaunch hs
  case trap => exact outWf_execTrap hs
  case xret => exact outWf_execXret hs
  case sysrd => exact outWf_execSysrd hs
  case syswr => exact outWf_execSyswr hs
  case syswrXlflush => exact outWf_execSyswrXlflush hs
  case syswrScrridx => exact outWf_execSyswrScrridx hs
  case bkpt => exact outWf_execBkpt hs
  case logmark => exact outWf_execLogmark hs
  case evpost => exact outWf_execEvpost hs
  case fretry => exact outWf_execFretry hs
  case fretryExhaust | fretryFatal => exact outWf_fretryEnds hs
  case strokeReformation => exact outWf_execStrokeReformation hs
  case groupUrgent => exact outWf_execGroupUrgent hs
  case meetRelease => exact outWf_execMeetRelease hs
  case waitwWake => exact outWf_execWaitwWake hs
  case waitwTimeout => exact outWf_execWaitwTimeout hs
  case sleepExpiry => exact outWf_execSleepExpiry hs
  case nparkTimeout => exact outWf_execNparkTimeout hs
  case njoinTimeout => exact outWf_execNjoinTimeout hs
  case copyPiece => exact outWf_execCopyPiece hs
  case faultQueuePost => exact outWf_execFaultQueuePost hs
  case layoutRecordRead => exact outWf_execLayoutRecordRead hs
  case copyAck => exact outWf_execCopyAck hs
  case copyCompletion => exact outWf_execCopyCompletion hs
  case transferPiece => exact outWf_execTransferPiece hs
  case transferCompletion => exact outWf_execTransferCompletion hs
  case macqQueueGrant => exact outWf_execMacqQueueGrant hs
  case mrelRelease => exact outWf_execMrelRelease hs
  case matrixLoopStart => exact outWf_execMatrixLoopStart hs
  case matrixLoopWaitExpiry => exact outWf_execMatrixLoopWaitExpiry hs
  case matrixBudgetRefill => exact outWf_execMatrixBudgetRefill hs
  case matrixOpCompletion => exact outWf_execMatrixOpCompletion hs
  case deliverWake => exact outWf_execDeliverWake hs
  case deliverSignal => exact outWf_execDeliverSignal hs
  case deliverDeposit => exact outWf_execDeliverDeposit hs
  case deliverKill => exact outWf_execDeliverKill hs
  case deliverJoin => exact outWf_execDeliverJoin hs
  case deliverStat => exact outWf_execDeliverStat hs
  case launchAcceptance => exact outWf_execLaunchAcceptance hs
  case clusterAdmission => exact outWf_execClusterAdmission hs
  case admissionWaitExpiry => exact outWf_execAdmissionWaitExpiry hs
  case preemptStop => exact outWf_execPreemptStop hs
  case cohortSave => exact outWf_execCohortSave hs
  case registerWriteback => exact outWf_execRegisterWriteback hs
  case groupWritebackComplete => exact outWf_execGroupWritebackComplete hs
  case imageSwapOut => exact outWf_execImageSwapOut hs
  case imageSwapIn => exact outWf_execImageSwapIn hs
  case groupEndFinalise => exact outWf_execGroupEndFinalise hs
  case wdAnswer => exact outWf_execWdAnswer hs
  case taskDispatch => exact outWf_execTaskDispatch hs
  case svcReadBlocks => exact outWf_execSvcReadBlocks hs
  case svcWriteBlocks => exact outWf_execSvcWriteBlocks hs
  case svcFlush => exact outWf_execSvcFlush hs
  case svcSendFrame => exact outWf_execSvcSendFrame hs
  case svcPostReceive => exact outWf_execSvcPostReceive hs
  case contextFatalFault => exact outWf_execContextFatalFault hs
  case watchdogExpiry => exact outWf_execWatchdogExpiry hs
  case replayWaitTimeout => exact outWf_execReplayWaitTimeout hs
  case remoteTimeout => exact outWf_execRemoteTimeout hs
  case counterFlush => exact outWf_execCounterFlush hs
  case tracePost => exact outWf_execTracePost hs
  case packageReset => exact outWf_execPackageReset hs
  case governorTick => exact outWf_execGovernorTick hs
  case criticalTemperature => exact outWf_execCriticalTemperature hs
  case hostOpen => exact outWf_execHostOpen hs
  case hostClose => exact outWf_execHostClose hs
  case hostCloseKill => exact outWf_execHostCloseKill hs
  case hostMap => exact outWf_execHostMap hs
  case hostWrite => exact outWf_execHostWrite hs
  case hostRead => exact outWf_execHostRead hs
  case hostLaunch => exact outWf_execHostLaunch hs
  case hostServiceLaunch => exact outWf_execHostServiceLaunch hs
  case nameWake => exact outWf_execNameWake hs
  case nameSignal => exact outWf_execNameSignal hs
  case nameSignalKill => exact outWf_execNameSignalKill hs
  case nameDeposit => exact outWf_execNameDeposit hs
  case nameJoin => exact outWf_execNameJoin hs
  case nameGrant => exact outWf_execNameGrant hs
  case nameExit => exact outWf_execNameExit hs
  case connect => exact outWf_execConnect hs
  case scrollCtl => exact outWf_execScrollCtl hs
  case scrollCtlKill => exact outWf_execScrollCtlKill hs
  case scrollCtlContinue => exact outWf_execScrollCtlContinue hs
  case eventRead => exact outWf_execEventRead hs
  case dumpRead => exact outWf_execDumpRead hs
  case softErrorCorrected => exact outWf_execSoftErrorCorrected hs
  case unassignedOpcode => exact outWf_execUnassignedOpcode hs
  case badcallMessage => exact outWf_execBadcallMessage hs

end Sys2Proof.Machine.State
end

section
/-! # A step keeps memory in its canonical form -/

namespace Sys2Proof.Machine.State

variable {s : State}

/-! ## Issue -/

theorem memWf_dropBreaks {g} (hs : s.memWf = true) : (s.dropBreaks g).memWf = true := by
  unfold dropBreaks
  split
  · exact hs
  · exact memWf_ite hs (memWf_modLaunch hs)

theorem memWf_prepare {u g} (hs : s.memWf = true) : (s.prepare u g).memWf = true :=
  memWf_update (memWf_countRun (memWf_modContext (memWf_count (memWf_modGroup (memWf_dropBreaks hs)))))

theorem memWf_parkScroll {u} (hs : s.memWf = true) : (s.parkScroll u).memWf = true := hs

theorem outWf_of_tryRun {f u g o} (hf : ∀ t, t.memWf = true → OutWf (f t)) (hs : s.memWf = true)
    (e : tryRun f s u g = some o) : OutWf o := by
  have hp := hf _ (memWf_prepare (u := u) (g := g) hs)
  unfold tryRun at e
  split at e
  next t ht =>
    rw [ht] at hp
    obtain ⟨r, hr, rfl⟩ := Option.map_eq_some_iff.1 e
    exact memWf_ite (memWf_parkEngine hs) (memWf_of_settled hs hp hr)
  · exact Option.some.inj e ▸ hp

theorem outWf_of_tryPart {f u m o} (hf : ∀ t, t.memWf = true → OutWf (f t)) (hs : s.memWf = true)
    (e : tryPart f s u m = some o) : OutWf o := by
  obtain ⟨g, -, hg⟩ := Option.bind_eq_some_iff.1 e
  exact outWf_of_tryRun hf (memWf_modGroup hs) hg

theorem outWf_of_run {i f u g o} (hf : ∀ t, t.memWf = true → OutWf (f t)) (hs : s.memWf = true)
    (e : run i f s u g = some o) : OutWf o := by
  unfold run at e
  split at e
  next x hx => exact Option.some.inj e ▸ outWf_of_tryRun hf hs hx
  · split at e
    · cases e
    · split at e
      next x hx =>
        obtain ⟨m, -, hm⟩ := List.exists_of_findSome?_eq_some hx
        exact Option.some.inj e ▸ outWf_of_tryPart hf hs hm
      · exact Option.some.inj e ▸ memWf_parkScroll hs

theorem outWf_of_issueInstr {i u g o} (hs : s.memWf = true) (e : issueInstr i s u g = some o) : OutWf o := by
  unfold issueInstr at e
  dsimp only at e
  split at e
  · exact outWf_of_run (fun _ => outWf_exec) hs e
  · split at e
    · exact Option.some.inj e ▸ memWf_parkEngine hs
    · exact outWf_of_run (fun _ => outWf_exec) hs e

theorem outWf_of_breakTrap {u g b o} (hs : s.memWf = true) (e : s.breakTrap u g b = some o) : OutWf o := by
  unfold breakTrap at e
  dsimp only at e
  split at e
  · obtain ⟨r, -, rfl⟩ := Option.map_eq_some_iff.1 e
    exact memWf_diverge hs
  · obtain ⟨r, hr, rfl⟩ := Option.map_eq_some_iff.1 e
    exact memWf_of_settled hs (memWf_trap (memWf_ite (memWf_closeRun hs) hs)) hr

theorem outWf_of_attempt {u g o} (hs : s.memWf = true) (e : s.attempt u g = some o) : OutWf o := by
  unfold attempt at e
  dsimp only at e
  split at e
  · cases e
  · split at e
    · exact outWf_of_breakTrap hs e
    · split at e
      · exact Option.some.inj e ▸ memWf_contextFatal hs
      · exact outWf_of_run (fun _ => outWf_execUnassignedOpcode) hs e
      · exact outWf_of_issueInstr hs e

theorem outWf_of_tryIssue {c o} (hs : s.memWf = true) (e : s.tryIssue c = some o) : OutWf o := by
  unfold tryIssue at e
  dsimp only at e
  split at e
  · cases e
  · exact outWf_of_attempt (memWf_ite (memWf_modGroup hs) hs) e

theorem outWf_of_nextIssue {o} (hs : s.memWf = true) (e : s.nextIssue = some o) : OutWf o := by
  obtain ⟨k, -, hk⟩ := List.exists_of_findSome?_eq_some e
  obtain ⟨c, -, hc⟩ := List.exists_of_findSome?_eq_some hk
  exact outWf_of_tryIssue hs hc

/-! ## Moves, cycles and inputs -/

theorem movesWf_opMoves {o op} : MovesWf (s.opMoves o op) := by
  unfold opMoves
  split
  · refine movesWf_append (movesWf_append (movesWf_append (movesWf_single fun _ => outWf_execLayoutRecordRead)
      (movesWf_map fun _ _ => outWf_execCopyPiece)) ?_) (movesWf_single fun _ => outWf_execCopyCompletion)
    split
    · exact movesWf_map fun _ _ => outWf_execCopyAck
    · exact movesWf_nil
  · exact movesWf_cons (fun _ => outWf_execMatrixLoopStart)
      (movesWf_cons (fun _ => outWf_execMatrixLoopWaitExpiry) (movesWf_single fun _ => outWf_execMatrixOpCompletion))
  · exact movesWf_append (movesWf_map fun _ _ => outWf_execTransferPiece)
      (movesWf_single fun _ => outWf_execTransferCompletion)
  next n _ =>
    refine movesWf_single ?_
    cases n.act with
    | wake => exact fun _ => outWf_execDeliverWake
    | signal => exact fun _ => outWf_execDeliverSignal
    | deposit => exact fun _ => outWf_execDeliverDeposit
    | kill => exact fun _ => outWf_execDeliverKill
    | join => exact fun _ => outWf_execDeliverJoin
    | stat => exact fun _ => outWf_execDeliverStat
  · exact movesWf_single fun _ => outWf_execLaunchAcceptance
  · exact movesWf_single fun _ => outWf_execWdAnswer
  · exact movesWf_nil
  · exact movesWf_nil

theorem movesWf_waitMoves {gid g} : MovesWf (waitMoves gid g) :=
  movesWf_append (movesWf_append (movesWf_append (movesWf_append (movesWf_append
    (movesWf_ite movesWf_nil (movesWf_single fun _ => outWf_execMeetRelease))
    (movesWf_map fun _ _ => outWf_execWaitwWake)) (movesWf_map fun _ _ => outWf_execWaitwTimeout))
    (movesWf_ite movesWf_nil (movesWf_single fun _ => outWf_execSleepExpiry)))
    (movesWf_map fun _ _ => outWf_execNparkTimeout)) (movesWf_map fun _ _ => outWf_execNjoinTimeout)

theorem memWf_engineRelease {gid m} (hs : s.memWf = true) : (s.engineRelease gid m).memWf = true := by
  unfold engineRelease
  split
  · exact hs
  · dsimp only
    split
    · exact hs
    · split
      · exact memWf_ite hs (memWf_modGroup hs)
      · split
        · exact memWf_ite hs (memWf_modGroup hs)
        · exact memWf_modGroup hs

theorem movesWf_engineMoves {gid g} : MovesWf (engineMoves gid g) := movesWf_map fun _ _ => memWf_engineRelease

theorem movesWf_phaseMoves {gid g} : MovesWf (s.phaseMoves gid g) := by
  unfold phaseMoves
  split
  · exact movesWf_append (movesWf_map fun _ _ => outWf_execRegisterWriteback)
      (movesWf_single fun _ => outWf_execGroupWritebackComplete)
  · exact movesWf_ite (movesWf_single fun _ => outWf_execImageSwapIn) movesWf_nil
  · exact movesWf_single fun _ => outWf_execGroupEndFinalise
  · exact movesWf_nil

theorem movesWf_groupMoves {gid g} : MovesWf (s.groupMoves gid g) :=
  movesWf_append (movesWf_append (movesWf_append (movesWf_append movesWf_waitMoves movesWf_engineMoves)
    movesWf_phaseMoves)
    (movesWf_ite (movesWf_single fun _ => outWf_execGroupUrgent) movesWf_nil))
    (movesWf_ite movesWf_nil (movesWf_single fun _ => outWf_execWatchdogExpiry))

theorem movesWf_admissionMoves {n k} : MovesWf (s.admissionMoves n k) := by
  unfold admissionMoves
  dsimp only
  split
  · split
    · exact movesWf_single fun _ => memWf_takeIn
    · exact movesWf_nil
  · exact movesWf_map fun _ _ => memWf_takeIn

theorem movesWf_clusterMoves : MovesWf s.clusterMoves :=
  movesWf_append (movesWf_append (movesWf_append
    (movesWf_ite movesWf_nil (movesWf_single fun _ => outWf_execAdmissionWaitExpiry))
    (movesWf_flatMap fun _ => movesWf_admissionMoves))
    (movesWf_ite movesWf_nil (movesWf_map fun _ _ => outWf_execPreemptStop)))
    (movesWf_flatMap fun _ => movesWf_map fun _ _ => outWf_execCohortSave)

theorem movesWf_dispatchMoves {n d} : MovesWf (s.dispatchMoves n d) := by
  refine movesWf_flatMap fun ctx => ?_
  split
  · exact movesWf_nil
  · split
    · exact movesWf_single fun _ => outWf_execTaskDispatch
    · exact movesWf_nil

theorem movesWf_dieMoves {n d} : MovesWf (s.dieMoves n d) :=
  movesWf_append (movesWf_map fun _ _ => outWf_execFaultQueuePost) movesWf_dispatchMoves

theorem movesWf_coreMoves {n k} : MovesWf (coreMoves n k) :=
  movesWf_ite movesWf_nil (movesWf_single fun _ => outWf_execMacqQueueGrant)

theorem movesWf_holderMoves {h x} : MovesWf (s.holderMoves h x) :=
  movesWf_ite (movesWf_single fun _ => outWf_execMrelRelease) movesWf_nil

theorem movesWf_islandMoves {i x} : MovesWf (islandMoves i x) :=
  movesWf_ite (movesWf_single fun _ => outWf_execMatrixBudgetRefill) movesWf_nil

theorem outWf_traceMove {core x} {t : State} (ht : t.memWf = true) : OutWf (s.traceMove core x t) :=
  outWf_execTracePost ht

theorem movesWf_flushMoves : MovesWf s.flushMoves :=
  movesWf_ite (movesWf_flatMap fun _ => movesWf_ite movesWf_nil (movesWf_map fun _ _ => outWf_execCounterFlush))
    movesWf_nil

theorem memWf_runMove {ctx pkg source} (hs : s.memWf = true) : (s.runMove ctx pkg source).memWf = true := by
  unfold runMove
  split
  · exact hs
  · split
    · exact hs
    · split
      · split
        · exact memWf_ite (memWf_modScroll (memWf_consume hs)) hs
        · exact hs
      · split
        · exact memWf_ite hs (memWf_diverge hs)
        · exact hs

theorem memWf_trapMove {ctx pkg source} (hs : s.memWf = true) : (s.trapMove ctx pkg source).memWf = true := by
  unfold trapMove
  split
  · exact hs
  · split
    · exact hs
    · exact memWf_ite (memWf_trap (memWf_modGroup hs)) hs

theorem memWf_scrollMove {ctx pkg} (hs : s.memWf = true) : (s.scrollMove ctx pkg).memWf = true := by
  unfold scrollMove
  split
  · exact hs
  · split
    · exact memWf_contextFatal hs
    · exact memWf_ite (memWf_consume hs) hs
    · exact hs

theorem movesWf_replayMoves : MovesWf s.replayMoves :=
  movesWf_flatMap fun _ => movesWf_cons (fun _ => memWf_scrollMove) (movesWf_flatMap fun _ => movesWf_append
    (movesWf_ite (movesWf_cons (fun _ => memWf_runMove) (movesWf_single fun _ => memWf_trapMove)) movesWf_nil)
    (movesWf_single fun _ => outWf_execReplayWaitTimeout))

theorem memWf_ringRetry {gid m} (hs : s.memWf = true) : (s.ringRetry gid m).memWf = true := by
  unfold ringRetry
  split
  · exact hs
  · dsimp only
    split
    · exact hs
    · split
      · exact memWf_ringTake hs
      · exact memWf_ringTake hs
      · exact hs

theorem movesWf_ringMoves : MovesWf s.ringMoves :=
  movesWf_flatMap fun _ => movesWf_ite (movesWf_map fun _ _ => memWf_ringRetry) movesWf_nil

/-- All that the machine may do by itself. -/
theorem movesWf_moves : MovesWf s.moves :=
  movesWf_append (movesWf_append (movesWf_append (movesWf_append (movesWf_append (movesWf_append (movesWf_append
    (movesWf_append (movesWf_append (movesWf_append (movesWf_flatMap fun _ => movesWf_opMoves)
    (movesWf_flatMap fun _ => movesWf_groupMoves)) movesWf_clusterMoves) (movesWf_flatMap fun _ => movesWf_dieMoves))
    (movesWf_flatMap fun _ => movesWf_coreMoves)) (movesWf_flatMap fun _ => movesWf_holderMoves))
    (movesWf_flatMap fun _ => movesWf_islandMoves)) (movesWf_flatMap fun _ => movesWf_map fun _ _ => outWf_traceMove))
    movesWf_flushMoves) movesWf_ringMoves) movesWf_replayMoves

theorem memWf_of_unitAct {t r : State} (hs : s.memWf = true) (ht : t.memWf = true) (e : s.unitAct t = some r) :
    r.memWf = true := by
  unfold unitAct at e
  split at e
  · dsimp only at e
    split at e
    · cases e
    · exact Option.some.inj e ▸ memWf_noteHeld hs
  · exact memWf_of_settled hs ht e

theorem memWf_of_due {t : State} {f} (hs : s.memWf = true) (hf : OutWf (f s)) (e : s.due f = some t) :
    t.memWf = true := by
  unfold due at e
  split at e
  next r hr =>
    rw [hr] at hf
    split at e
    · cases e
    · exact memWf_of_unitAct hs hf e
  · cases e

theorem memWf_of_firstMove {t : State} (hs : s.memWf = true) (e : s.firstMove = some t) : t.memWf = true := by
  obtain ⟨m, hm, he⟩ := List.exists_of_findSome?_eq_some e
  exact memWf_of_due hs (movesWf_moves m hm s hs) he

theorem memWf_trackGroups (hs : s.memWf = true) : s.trackGroups.memWf = true := hs

theorem memWf_trackReplays (hs : s.memWf = true) : s.trackReplays.memWf = true :=
  memWf_foldl hs fun _ _ ht => memWf_foldl ht fun _ _ ht1 => memWf_noteWait _ _ _ ht1

theorem memWf_closeRuns (hs : s.memWf = true) : s.closeRuns.memWf = true :=
  memWf_foldl hs fun _ _ ht => memWf_foldl ht fun _ _ ht1 => memWf_ite ht1 (memWf_closeRun ht1)

theorem memWf_endCycle (hs : s.memWf = true) : s.endCycle.memWf = true :=
  memWf_retryDone (memWf_retryAccesses (memWf_closeRuns (memWf_trackReplays (memWf_trackGroups (memWf_dropHeld
    (memWf_ite (memWf_reformAll hs) hs))))))

theorem memWf_noteInput {i} (hs : s.memWf = true) : (s.noteInput i).memWf = true := by
  unfold noteInput
  split
  · exact memWf_ite hs hs
  · exact hs

theorem outWf_strokesGo (hs : s.memWf = true) : OutWf s.strokesGo :=
  outWf_getD (fun _ => outWf_of_nextIssue hs) (memWf_endCycle hs)

theorem outWf_internal (hs : s.memWf = true) : OutWf s.internal := by
  unfold internal
  split
  · exact outWf_ite hs (outWf_execPackageReset hs)
  · split
    next t e => exact memWf_of_firstMove hs e
    · exact outWf_strokesGo hs

theorem outWf_of_map_unitAct {t : State} {o : Out} (hs : s.memWf = true) (ht : OutWf (.next t))
    (e : (s.unitAct t).map Host.Outcome.next = some o) : OutWf o := by
  obtain ⟨r, hr, rfl⟩ := Option.map_eq_some_iff.1 e
  exact memWf_of_unitAct hs ht hr

theorem outWf_of_takeInput {i rest o} (hs : s.memWf = true) (e : s.takeInput i rest = some o) : OutWf o := by
  have hx : OutWf (exec i ({ s with agenda := rest }.noteInput i)) := outWf_exec (memWf_noteInput hs)
  unfold takeInput at e
  split at e
  · exact Option.some.inj e ▸ hs
  · split at e
    · cases e
    · dsimp only at e
      split at e
      · split at e
        next t ht => exact outWf_of_map_unitAct hs (by rwa [ht] at hx) e
        · exact Option.some.inj e ▸ hx
      · split at e
        · split at e
          · cases e
          · exact Option.some.inj e ▸ memWf_await _ _ _ hs
        · exact Option.some.inj e ▸ outWf_exec hs
        · split at e
          next t ht => exact outWf_of_map_unitAct hs (by rwa [ht] at hx) e
          · exact Option.some.inj e ▸ hx

theorem outWf_of_takeAgenda {held l o} (hs : s.memWf = true) (e : s.takeAgenda held l = some o) : OutWf o := by
  induction l generalizing held with
  | nil => cases e
  | cons i rest ih =>
    unfold takeAgenda at e
    split at e
    · cases e
    next h => cases h; exact Option.some.inj e ▸ hs
    · cases e
    next h => cases h; exact Option.some.inj e ▸ outWf_ite (outWf_strokesGo hs) hs
    next h =>
      cases h
      split at e
      next x hx => exact Option.some.inj e ▸ outWf_of_takeInput hs hx
      · exact ih e
    next h => cases h; exact Option.some.inj e ▸ memWf_farAct hs

/-! ## One step -/

/-- One step: an input of the agenda, or else what the machine does by itself. -/
theorem outWf_step (hs : s.memWf = true) : OutWf (step s) :=
  outWf_getD (fun _ => outWf_of_takeAgenda hs) (outWf_internal hs)

end Sys2Proof.Machine.State
end

section
/-! # The canonical form of memory is an invariant -/

namespace Sys2Proof

/-- Settles O5, from what each operation of the model does to memory. -/
theorem stepKeepsMemoryForm : Obligations.StepKeepsMemoryForm := by
  intro s t hs e
  have h : Machine.OutWf (Machine.step s) := Machine.State.outWf_step hs
  rw [e] at h
  exact h

end Sys2Proof
end

section
/-! # Vector instructions where the table lists one group twice (R68)

What a vector instruction leaves alone is memory outside the lines of the dirty registers that it evicts, each of a group that a
lookup finds on the core of the issuing group. In a table that lists a group on that core behind another listing of its number on
another core, the fill of an operand writes back the register of the group on the other core. The statements below ask no form of
the table, though no run is known to build such a one. -/

namespace Sys2Proof.Machine

open State Claim

/-! ## The machine -/

/-- The machine of `twinState`, in which the group on core 0 may name v0 to v3. -/
def wideTwinState : State := twinState.modGroup 0 fun g => { g with budget := 4 }

/-- Its group on core 0. -/
def wideGroup : Group := { twoFibreGroup with budget := 4 }

/-- A lookup finds no other group on core 0. -/
theorem group_wideTwin_on_core {gid : Nat} {q : Group} (hq : wideTwinState.group? gid = some q) (hc : q.core = 0) :
    gid = 0 ∧ q = wideGroup := by
  rw [wideTwinState, group_modGroup] at hq
  split at hq
  · rename_i h
    exact ⟨h, (Option.some.inj hq).symm⟩
  · rename_i h
    exact absurd (group_twin_on_core hq hc).1 h

/-- The line of its v0 may not be written: the page's entry has WR clear. -/
theorem vmWrite_wideTwin_fails {bs : List Byte} {r : State} (h : bs.length = 128) :
    wideTwinState.vmWrite 1 0 .imageWrite 0x1000 bs ≠ (r, .none) := by
  have hw : wideTwinState.walk 1 0 .imageWrite 0x1000 = .noPermission := by decide +kernel
  have hc : chunksOf 0x1000 128 = [(0x1000, 128)] := by decide
  simp [vmWrite, h, hc, vmWriteChunks, hw]

/-- So the frame of an instruction on core 0 that writes no other vector register leaves memory as it was. -/
theorem mem_of_vectorFrame_wideTwin {g : Group} {ws : List Nat} {t : State} (hcore : g.core = 0) (hws : ∀ n, n ∈ ws → n = 0)
    (hf : VectorFrame wideTwinState twoFibreIssue g ws t) : t.mem = wideTwinState.mem := by
  obtain ⟨-, hlines, -⟩ := hf
  rw [hcore] at hlines
  refine linesWritten_eq hlines rfl fun gid n q bs r hq hc hp hbs => ?_
  obtain ⟨rfl, rfl⟩ := group_wideTwin_on_core hq hc
  rcases hp with ⟨-, hn⟩ | ⟨⟨q, m, hq', hmap, -⟩, -⟩
  · obtain rfl := hws n hn
    exact vmWrite_wideTwin_fails (length_lineBytes_twin hbs)
  · cases hq'
    cases hmap

/-! ## What an instruction does there -/

/-- Lane 0 of the dirty register, in its place of group 1's image, after an instruction. -/
def lineAfter (i : Instr) : Byte :=
  match exec i wideTwinState with
  | .next t => t.readByte 0x4001000
  | _ => 0

/-- An instruction that writes the dirty register of the group on core 1 to its image has no such frame. -/
theorem not_vectorFrame_of_lineAfter {i : Instr} {g : Group} {ws : List Nat} {t : State} (he : exec i wideTwinState = .next t)
    (hline : lineAfter i = 7) (hcore : g.core = 0) (hws : ∀ n, n ∈ ws → n = 0) :
    ¬ VectorFrame wideTwinState twoFibreIssue g ws t := by
  intro hf
  have hbyte : t.readByte 0x4001000 = 7 := by rwa [lineAfter, he] at hline
  rw [readByte, mem_of_vectorFrame_wideTwin hcore hws hf] at hbyte
  exact absurd (readByte_twin.symm.trans hbyte) (by decide)

/-- Both fibres execute what names no register from v4 on. -/
theorem executes_wideTwin {i : Instr} (h : i.inBudget 4 = true) : Executes i always wideTwinState twoFibreIssue wideGroup :=
  ⟨⟨rfl, rfl⟩, h, by decide +kernel⟩

/-- Reads of registers from v0 on fail nowhere. -/
theorem exists_filled_wideTwin {ns : List Nat} (h : ns = [0] ∨ ns = [0, 1, 2, 3]) :
    ∃ s1 g1, Filled wideTwinState twoFibreIssue ns s1 g1 ∧ g1.core = 0 := by
  have hcore : ((wideTwinState.fillAll twoFibreIssue.gid ns).1.group? twoFibreIssue.gid).map (·.core) = some 0 := by
    rcases h with rfl | rfl <;> decide +kernel
  have hok : (wideTwinState.fillAll twoFibreIssue.gid ns).2 = none := by
    rcases h with rfl | rfl <;> decide +kernel
  obtain ⟨g1, hg, hc⟩ := Option.map_eq_some_iff.1 hcore
  exact ⟨_, g1, ⟨Prod.ext rfl hok, hg⟩, hc⟩

/-- A destination without an index is the register that the instruction names (R62). -/
theorem mem_destRegs_plain {g : Group} {vd : VReg} {a : BitVec 32} {n : Nat} (h : n ∈ destRegs g 0 vd a) : n = vd.toNat := by
  obtain ⟨f, -, rfl⟩ := List.mem_map.1 (List.mem_eraseDups.1 h)
  rfl

/-- An instruction from v0 to v0 whose fill writes the dirty register back is not done as `VectorDone` says. -/
theorem not_vectorDone_wideTwin {i : Instr} {o : LaneOp} (hix : o.ix = 0) (hvd : o.vd = 0) (hline : lineAfter i = 7)
    (hreads : vectorReads i wideGroup o.ix o.vd o.va (wideGroup.active twoFibreIssue.mask o.gd) = [0]) :
    ¬ ∀ s1 g1, Filled wideTwinState twoFibreIssue
        (vectorReads i wideGroup o.ix o.vd o.va (wideGroup.active twoFibreIssue.mask o.gd)) s1 g1 →
      ∃ t h, exec i wideTwinState = .next t ∧ t.group? twoFibreIssue.gid = some h ∧
        VectorDone i o wideTwinState twoFibreIssue g1 t h := by
  intro hdone
  obtain ⟨s1, g1, hfill, hcore⟩ := exists_filled_wideTwin (.inl hreads)
  obtain ⟨t, h, he, -, -, -, -, -, hf⟩ := hdone s1 g1 hfill
  rw [hix, hvd] at hf
  exact not_vectorFrame_of_lineAfter he hline hcore (fun _ hn => mem_destRegs_plain (vd := 0) hn) hf

/-! ## One instruction of each kind -/

/-- Refutes O20: VMOV of v0 to itself, whose fill writes back the register of a group on another core. -/
theorem not_vectorIntegers : ¬ Obligations.VectorIntegers := fun h =>
  not_vectorDone_wideTwin (i := .vmov always true 0 0 0 0) rfl rfl (by decide +kernel) (by decide +kernel)
    fun s1 g1 => h _ _ wideTwinState s1 twoFibreIssue wideGroup g1 rfl (executes_wideTwin rfl) rfl

/-- Refutes O21: QBCAST within v0, whose fill writes back the register of a group on another core. -/
theorem not_vectorLaneExchange : ¬ Obligations.VectorLaneExchange := fun h =>
  not_vectorDone_wideTwin (i := .qbcast always true 0 0 0) rfl rfl (by decide +kernel) (by decide +kernel)
    fun s1 g1 => h _ _ wideTwinState s1 twoFibreIssue wideGroup g1 rfl (executes_wideTwin rfl)

/-- Refutes O22: VFABS of v0 to itself, whose fill writes back the register of a group on another core. -/
theorem not_vectorFloats : ¬ Obligations.VectorFloats := fun h =>
  not_vectorDone_wideTwin (i := .vfabs always true .f32 0 0) rfl rfl (by decide +kernel) (by decide +kernel)
    fun s1 g1 => h _ _ wideTwinState s1 twoFibreIssue wideGroup g1 rfl (executes_wideTwin rfl) rfl

/-- Refutes O23: VPACK4 of v0 to v3 into v0, whose first fill writes back the register of a group on another core. -/
theorem not_vectorRanges : ¬ Obligations.VectorRanges := by
  intro h
  obtain ⟨s1, g1, hfill, -⟩ := exists_filled_wideTwin (.inr rfl)
  obtain ⟨t, q, he, -, -, -, -, -, hf⟩ := h (.vpack4 always true .e4m3 .rne false 0 0) _ wideTwinState s1 twoFibreIssue
    wideGroup g1 rfl (executes_wideTwin rfl) hfill
  exact not_vectorFrame_of_lineAfter he (by decide +kernel) rfl (by decide) hf

/-- Refutes O25: VCMP of v0 with s0, whose fill writes back the register of a group on another core. -/
theorem not_vectorPredicates : ¬ Obligations.VectorPredicates := by
  intro h
  obtain ⟨s1, g1, hfill, -⟩ := exists_filled_wideTwin (.inl rfl)
  obtain ⟨t, q, he, -, -, -, -, -, hf⟩ := h (.vcmp always true .eq .i32 0 0 (.uni 0)) always 0 _ wideTwinState s1 twoFibreIssue
    wideGroup g1 rfl (executes_wideTwin rfl) hfill
  exact not_vectorFrame_of_lineAfter he (by decide +kernel) rfl (by simp) hf

/-- Refutes O26: VMOVX of v0, whose fill writes back the register of a group on another core. -/
theorem not_betweenFiles : ¬ Obligations.BetweenFiles := by
  intro h
  obtain ⟨s1, g1, hfill, -⟩ := exists_filled_wideTwin (.inl rfl)
  obtain ⟨-, -, -, hmovx⟩ := h always true wideTwinState s1 twoFibreIssue wideGroup g1
  obtain ⟨t, q, he, -, -, -, -, hf⟩ := hmovx 0 0 (executes_wideTwin rfl) hfill
  exact not_vectorFrame_of_lineAfter he (by decide +kernel) rfl (by simp) hf

end Sys2Proof.Machine
end
